-- ==== Sys2Proof/Word.lean ====
section
/-! DEFINITION. The machine's plain value types: 32-bit words (R18), bytes, and lane masks of a team (R10). -/

namespace Sys2Proof

/-- A 32-bit word of code, of a slot or of memory (R18, R154). -/
abbrev Word := BitVec 32

/-- One byte. -/
abbrev Byte := BitVec 8

/-- A 64-bit value: a slot pair (R22) or a virtual address (R98). -/
abbrev DWord := BitVec 64

/-- One bit for each lane of a team: bit l for lane l, of at most 1,024 lanes (R10). -/
abbrev Mask := BitVec 1024

end Sys2Proof
end

