-- ==== Sys2Proof/Config.lean ====
section
/-! DEFINITION. What the spec leaves to the implementation or leaves open, as constants without a body: no proof can
see their values, so a claim holds whatever they are. -/

namespace Sys2Proof.Config

/-- The free values of R4 and R33: draw k of a run gives `freeNat k`, cut to the width needed (log entry 8).
DESIGN CHOICE: one counter in State numbers the draws. -/
opaque freeNat : Nat → Nat

/-- How many cycles step k of a run takes (R31, R351; log entry 9). No rule of the model depends on it but the
clock that rdsr reads and the times that arbitration compares. -/
opaque elapsed : Nat → Nat

/-- Scaquin firmware version word of the QUERY report (R376). -/
opaque fwVersion : BitVec 32

/-- SHA-384 of the ROM (R373, R374). -/
opaque romHash : BitVec 384

/-- The identity public key of R373: X then Y. -/
opaque idPub : BitVec 768

/-- The ECDSA P-384 signature of R373 over a list of bytes: r then s. -/
opaque sign : List (BitVec 8) → BitVec 768

end Sys2Proof.Config
end

