-- ==== Sys2Proof/Syntax.lean ====
section
/-! DEFINITION. The instructions and events of the PZ-4096: one constructor for each row of spec/opcode_table.json.
An instruction word keeps exactly the fields the table gives its row, as raw bits; a field value that its rule
reserves is still a value here, and the checks of R20, R22 and R45 refuse it (Machine/WordChecks.lean).
An event carries what the outside world or the scheduler supplies with it. -/

namespace Sys2Proof

/-- A command frame as delivered to firmware (R355, R358): the stream it came on, its tag, and its payload bytes. -/
structure Req where
  strm : BitVec 32
  tag : BitVec 32
  payload : List (BitVec 8)
  deriving DecidableEq, Repr

/-- A Lazia frame (R354, R355): the IP address it came from or goes to, its header fields, payload and CRC-32C. -/
structure Frame where
  ip : List (BitVec 8)
  ver : BitVec 8
  type : BitVec 8
  flg : BitVec 16
  strm : BitVec 32
  seq : BitVec 32
  ackn : BitVec 32
  sack : BitVec 32
  cmd : BitVec 16
  stat : BitVec 16
  tag : BitVec 32
  payload : List (BitVec 8)
  crc : BitVec 32
  /-- the UDP destination port (R354) -/
  udp : BitVec 16 := 47900
  deriving DecidableEq, Repr

/-- The 64-byte flit that a failing mesh link or a router's buffer loses (R94): the line it carries and where it was going. -/
inductive Flit where
  /-- a line on its way to a core's L1 or registers: the request it answers (team, request number) and a lane it serves -/
  | reply (uid seq lane : Nat)
  /-- written data on its way to the home L2 of a line: the entry of the store path -/
  | write (k : Nat)
  /-- a line on its way from one L2 to another port, held at its home -/
  | line (pa : Nat)
  /-- a partial sum of a mesh reduction: its place among those in flight (R319) -/
  | partialSum (k : Nat)
  deriving DecidableEq, Repr

/-- A die's Ethernet port as the manifest sets it (R354): its address, MTU, IP address and the UDP port of Lazia. -/
structure Port where
  mac : BitVec 48
  mtu : Nat
  ip : List (BitVec 8)
  /-- the UDP port that the manifest sets, if it sets one -/
  udp : Option (BitVec 16)
  deriving DecidableEq, Repr

/-- What the Fleud manifest in package flash says (R89, R91, R218, R354, R372). -/
structure Manifest where
  /-- its bytes in flash, which attestation hashes (R373) -/
  bytes : List (BitVec 8)
  /-- the outcome of the signature and chain checks of R372 step 2 on the bytes in flash -/
  valid : Bool
  /-- strong region base, in GiB -/
  srBase : Nat
  /-- strong region size, in GiB -/
  srSize : Nat
  /-- the checkpoint option -/
  ckptOn : Bool
  /-- for each die, the physical columns its spare columns replace (R7) -/
  spareCols : List (List Nat)
  /-- for each die, how many cores use a spare matrix row (R218) -/
  spareRows : List Nat
  /-- the ports of dies 0 to 7 (R354) -/
  ports : List Port
  /-- the management allow-list of R354: IP addresses -/
  allow : List (List (BitVec 8))
  deriving DecidableEq, Repr

/-- One constructor for each row of spec/opcode_table.json, in the table's order. -/
inductive Instr where
  /-- CLAUSE_HEADER: A clause header is reached; its fields are checked, the team waits for its WAIT flags and readiness, and then it issues the whole clause (R26) -/
  | clauseHeader (w : BitVec 12) (a b : BitVec 4) (l : BitVec 5) (c : BitVec 2) (g f : BitVec 1)
  /-- EXT: The ext hint supplies bits 31-12 of the 32-bit immediate of the following I-format instruction (R36) -/
  | ext (p : BitVec 20)
  /-- MOD: The mod hint sets the rounding, FTZ, SAT, cache, scope, order and width modifiers of the next instruction (R37) -/
  | mod (r : BitVec 3) (z s : BitVec 1) (c : BitVec 2) (k : BitVec 3) (o : BitVec 2) (w : BitVec 3)
  /-- SCHED: The sched hint sets yield, long-wait and compaction hints that affect timing only (R38) -/
  | sched (y l : BitVec 1) (c : BitVec 2)
  /-- NOP: Takes one issue slot and has no effect (R291) -/
  | nop
  /-- BRA: Sends every active lane to the target clause header (R279) -/
  | bra (i : BitVec 17)
  /-- BC_NZ: Branches the lanes whose slot is non-zero, deferring the branching lanes on the reconvergence stack when the lanes diverge (R280) -/
  | bcNz (c : BitVec 5) (i : BitVec 17)
  /-- BC_Z: Branches the lanes whose slot is zero, deferring the branching lanes on the reconvergence stack when the lanes diverge (R280) -/
  | bcZ (c : BitVec 5) (i : BitVec 17)
  /-- RECON: Pushes a RECON entry naming the reconvergence point of a divergent region (R281) -/
  | recon (i : BitVec 17)
  /-- JOIN: Parks the active lanes in the top entry and runs the resume step (R282) -/
  | join
  /-- BRK: Takes the active lanes out of the n innermost RECON regions and runs the resume step (R283) -/
  | brk (n : BitVec 5) (i : BitVec 17)
  /-- CALL: Writes the link address, pushes a CALL marker and sends the active lanes to the target (R284) -/
  | call (c : BitVec 5) (i : BitVec 17)
  /-- RET: Pops the CALL marker and sends the active lanes to the uniform link address (R285) -/
  | ret (a : BitVec 5)
  /-- JMPI: Sends the active lanes to the uniform code address held in a slot (R286) -/
  | jmpi (a : BitVec 5)
  /-- EXIT: Makes the ARITH check, removes the active lanes from the team and runs the resume step (R288) -/
  | exit
  /-- EXIT_KILL: Ends the issuing team's grid without an ARITH check (R289) -/
  | exitKill
  /-- TRAP: Raises SOFTWARE, precise at the instruction, with the immediate and a slot value in aux (R290) -/
  | trap (a : BitVec 5) (i : BitVec 12)
  /-- YIELD: Sends the active lanes to the target and resets the team's ready time (R308) -/
  | yield (i : BitVec 17)
  /-- CBAR: Makes the ARITH check, then arrives at a cluster barrier id and blocks until the generation completes (R314) -/
  | cbar (k : BitVec 4)
  /-- GBAR: Acts as a grid-wide barrier in a COOP grid, and raises GBAR_NOCOOP in any other grid (R315) -/
  | gbar
  /-- WAIT: Reads a memory word and blocks until the word meets the condition (R317) -/
  | wait (d a b : BitVec 5) (x : BitVec 1) (k : BitVec 3)
  /-- WAIT_WAKEUP: A blocked wait rereads its word when the line is written at its home or its re-read interval expires (R317) -/
  | waitWakeup (u : Nat)
  /-- LAUNCH_INSTR: Reads a launch descriptor from scratchpad, queues the grid with a release and writes the status (R300) -/
  | launch (d a : BitVec 5)
  /-- TRET: Returns from a trap handler in its retry or skip form, restoring the saved state (R343) -/
  | tret (s : BitVec 1)
  /-- FWCALL: Sends a MAP, UNMAP, REMAP, SNAPSHOT or FORK command for the team's context and blocks until it completes (R361) -/
  | fwcall (d a : BitVec 5) (k : BitVec 8)
  /-- TREFRESH: Re-pins the team to its context's current root (R107) -/
  | trefresh
  /-- LEASE: Registers the harvest team's restart address and requests lease granules of scratchpad (R393) -/
  | lease (d a : BitVec 5) (i : BitVec 12)
  /-- UNLEASE: Removes the harvest team's lease and closes its queues (R394) -/
  | unlease
  /-- RDSR: Reads a special register into a slot (R352) -/
  | rdsr (d : BitVec 5) (i : BitVec 12)
  /-- WRSR_FPX: Writes each lane's sticky exception bits, which may clear ARITH's cause (R353) -/
  | wrsrFpx (a : BitVec 5)
  /-- WRSR_XDEAD: Writes each lane's DRD bit of xdead (R353) -/
  | wrsrXdead (a : BitVec 5)
  /-- WRSR_TRAPVEC: Sets the team's trap handler address from the lowest active lane (R353) -/
  | wrsrTrapvec (a : BitVec 5)
  /-- WRSR: A write to any other special register, which raises ILLOP (R353) -/
  | wrsr (a : BitVec 5) (i : BitVec 12)
  /-- MRED: Posts the team's 32-element packet into its mesh router's reduction channel (R320) -/
  | mred (a b : BitVec 5) (h : BitVec 2) (k : BitVec 1)
  /-- MREDW: At cluster index 0, collects the reduction result, status and contributor bitmap when the tree completes (R322) -/
  | mredw (d : BitVec 5) (h : BitVec 2)
  /-- ADD: Adds two slots, wrapping or saturating (R172) -/
  | add (d a b : BitVec 5) (u : BitVec 1) (p : BitVec 2)
  /-- SUB: Subtracts two slots, wrapping or saturating (R172) -/
  | sub (d a b : BitVec 5) (u : BitVec 1) (p : BitVec 2)
  /-- ADDI: Adds an immediate to a slot (R172) -/
  | addi (d a : BitVec 5) (i : BitVec 12)
  /-- MUL: Writes the low 32 bits of a product (R173) -/
  | mul (d a b : BitVec 5) (p : BitVec 2)
  /-- MULHI_S: Writes the high 32 bits of a signed product (R173) -/
  | mulhiS (d a b : BitVec 5) (p : BitVec 2)
  /-- MULHI_U: Writes the high 32 bits of an unsigned product (R173) -/
  | mulhiU (d a b : BitVec 5) (p : BitVec 2)
  /-- MAD: Multiplies two slots and adds a third, modulo 2^32 (R173) -/
  | mad (d a b c : BitVec 5) (p : BitVec 2)
  /-- MIN_S: Writes the signed minimum of two slots (R174) -/
  | minS (d a b : BitVec 5) (p : BitVec 2)
  /-- MIN_U: Writes the unsigned minimum of two slots (R174) -/
  | minU (d a b : BitVec 5) (p : BitVec 2)
  /-- MAX_S: Writes the signed maximum of two slots (R174) -/
  | maxS (d a b : BitVec 5) (p : BitVec 2)
  /-- MAX_U: Writes the unsigned maximum of two slots (R174) -/
  | maxU (d a b : BitVec 5) (p : BitVec 2)
  /-- ABS: Writes the absolute value of a slot, optionally saturated (R174) -/
  | abs (d a : BitVec 5) (p : BitVec 2)
  /-- AND: Writes the bitwise AND of two slots (R175) -/
  | and (d a b : BitVec 5) (p : BitVec 2)
  /-- OR: Writes the bitwise OR of two slots (R175) -/
  | or (d a b : BitVec 5) (p : BitVec 2)
  /-- XOR: Writes the bitwise XOR of two slots (R175) -/
  | xor (d a b : BitVec 5) (p : BitVec 2)
  /-- ANDN: Writes the first slot AND the complement of the second (R175) -/
  | andn (d a b : BitVec 5) (p : BitVec 2)
  /-- ANDI: ANDs a slot with an immediate (R175) -/
  | andi (d a : BitVec 5) (i : BitVec 12)
  /-- ORI: ORs a slot with an immediate (R175) -/
  | ori (d a : BitVec 5) (i : BitVec 12)
  /-- XORI: XORs a slot with an immediate (R175) -/
  | xori (d a : BitVec 5) (i : BitVec 12)
  /-- SHL: Shifts a slot left by a count held in a slot (R176) -/
  | shl (d a b : BitVec 5) (p : BitVec 2)
  /-- SHR: Shifts a slot right logically by a count held in a slot (R176) -/
  | shr (d a b : BitVec 5) (p : BitVec 2)
  /-- SAR: Shifts a slot right arithmetically by a count held in a slot (R176) -/
  | sar (d a b : BitVec 5) (p : BitVec 2)
  /-- ROT: Rotates a slot left (R176) -/
  | rot (d a b : BitVec 5) (p : BitVec 2)
  /-- SHLI: Shifts a slot left by an immediate count (R176) -/
  | shli (d a : BitVec 5) (n : BitVec 6)
  /-- SHRI: Shifts a slot right logically by an immediate count (R176) -/
  | shri (d a : BitVec 5) (n : BitVec 6)
  /-- SARI: Shifts a slot right arithmetically by an immediate count (R176) -/
  | sari (d a : BitVec 5) (n : BitVec 6)
  /-- POPC: Counts the 1 bits of a slot (R177) -/
  | popc (d a : BitVec 5) (p : BitVec 2)
  /-- CLZ: Counts the leading zero bits of a slot (R177) -/
  | clz (d a : BitVec 5) (p : BitVec 2)
  /-- BREV: Reverses the bits of a slot (R177) -/
  | brev (d a : BitVec 5) (p : BitVec 2)
  /-- BFE: Extracts a bit field with zero or sign extension (R178) -/
  | bfe (d a : BitVec 5) (s : BitVec 1) (l : BitVec 6) (o : BitVec 5)
  /-- BFI: Inserts a bit field at a per-lane position and length (R179) -/
  | bfi (d a b c : BitVec 5) (p : BitVec 2)
  /-- CMP: Writes 1 or 0 according to an integer comparison (R180) -/
  | cmp (d a b k : BitVec 5) (p : BitVec 2)
  /-- CMPI_EQ: Compares a slot with an immediate for equality (R181) -/
  | cmpiEq (d a : BitVec 5) (i : BitVec 12)
  /-- CMPI_LT_S: Compares a slot with an immediate for signed less-than (R181) -/
  | cmpiLtS (d a : BitVec 5) (i : BitVec 12)
  /-- CMPI_LT_U: Compares a slot with an immediate for unsigned less-than (R181) -/
  | cmpiLtU (d a : BitVec 5) (i : BitVec 12)
  /-- CMPI_NE: Compares a slot with an immediate for inequality (R181) -/
  | cmpiNe (d a : BitVec 5) (i : BitVec 12)
  /-- SEL: Selects one of two slots by bit 0 of a third (R182) -/
  | sel (d a b c : BitVec 5) (p : BitVec 2)
  /-- MOVI: Writes an immediate to a slot (R182) -/
  | movi (d : BitVec 5) (i : BitVec 12)
  /-- MOV: Copies a slot (R182) -/
  | mov (d a : BitVec 5) (p : BitVec 2)
  /-- ADD64: Adds two 64-bit pairs (R183) -/
  | add64 (d a b : BitVec 5) (p : BitVec 2)
  /-- SUB64: Subtracts two 64-bit pairs (R183) -/
  | sub64 (d a b : BitVec 5) (p : BitVec 2)
  /-- ADDI64: Adds a sign-extended immediate to a 64-bit pair (R183) -/
  | addi64 (d a : BitVec 5) (i : BitVec 12)
  /-- LEA64: Adds an extended, shifted index to a 64-bit base (R184) -/
  | lea64 (d a b : BitVec 5) (u : BitVec 1) (s : BitVec 4) (p : BitVec 2)
  /-- RNG: Computes the counter-based random function of a counter and a key (R187) -/
  | rng (d a b : BitVec 5) (p : BitVec 2)
  /-- CVT_I: Narrows or widens between integer types, optionally saturating (R185) -/
  | cvtI (d a : BitVec 5) (t : BitVec 3) (s p : BitVec 2)
  /-- DOT4_S8: Accumulates a signed 4-byte dot product (R186) -/
  | dot4S8 (d a b c : BitVec 5) (p : BitVec 2)
  /-- DOT4_U8: Accumulates an unsigned 4-byte dot product (R186) -/
  | dot4U8 (d a b c : BitVec 5) (p : BitVec 2)
  /-- FADD: Adds two FP32 values with one rounding (R193) -/
  | fadd (d a b : BitVec 5) (p : BitVec 2)
  /-- FSUB: Subtracts two FP32 values with one rounding (R193) -/
  | fsub (d a b : BitVec 5) (p : BitVec 2)
  /-- FMUL: Multiplies two FP32 values with one rounding (R193) -/
  | fmul (d a b : BitVec 5) (p : BitVec 2)
  /-- FFMA: Performs an FP32 fused multiply-add with one rounding (R193) -/
  | ffma (d a b c : BitVec 5) (p : BitVec 2)
  /-- FMIN: Writes the minimumNumber of two FP32 values (R194) -/
  | fmin (d a b : BitVec 5) (p : BitVec 2)
  /-- FMAX: Writes the maximumNumber of two FP32 values (R194) -/
  | fmax (d a b : BitVec 5) (p : BitVec 2)
  /-- FCMP: Writes 1 or 0 according to an FP32 comparison (R196) -/
  | fcmp (d a b k : BitVec 5) (p : BitVec 2)
  /-- FABS: Clears the sign bit of a non-NaN value (R195) -/
  | fabs (d a : BitVec 5) (p : BitVec 2)
  /-- FNEG: Inverts the sign bit of a non-NaN value (R195) -/
  | fneg (d a : BitVec 5) (p : BitVec 2)
  /-- FRCP: Writes a reciprocal seed rounded to 15 significant bits (R203) -/
  | frcp (d a : BitVec 5) (p : BitVec 2)
  /-- FRSQ: Writes a reciprocal-square-root seed rounded to 15 significant bits (R203) -/
  | frsq (d a : BitVec 5) (p : BitVec 2)
  /-- FEXP2: Writes 2^x correctly rounded (R205) -/
  | fexp2 (d a : BitVec 5) (p : BitVec 2)
  /-- FLOG2: Writes log2 x correctly rounded (R205) -/
  | flog2 (d a : BitVec 5) (p : BitVec 2)
  /-- SINCOS_T: Writes the sine and cosine of a phase given in turns (R206) -/
  | sincosT (d a : BitVec 5) (p : BitVec 2)
  /-- FROUND: Rounds an FP32 value to an integer value (R193) -/
  | fround (d a : BitVec 5) (p : BitVec 2)
  /-- FCLASS: Writes a one-hot class mask of an FP32 value (R197) -/
  | fclass (d a : BitVec 5) (p : BitVec 2)
  /-- FSCALE: Multiplies an FP32 value by a power of two (R193) -/
  | fscale (d a b : BitVec 5) (p : BitVec 2)
  /-- CVT_FI: Converts floating point to an integer (R201) -/
  | cvtFi (d a : BitVec 5) (t : BitVec 3) (s p : BitVec 2)
  /-- CVT_IF: Converts an integer to floating point (R202) -/
  | cvtIf (d a : BitVec 5) (t : BitVec 2) (s : BitVec 3) (p : BitVec 2)
  /-- CVT_FF: Converts between floating-point formats (R200) -/
  | cvtFf (d a : BitVec 5) (s : BitVec 3) (n : BitVec 1) (t : BitVec 3) (p : BitVec 2)
  /-- HADD2: Adds packed 16-bit elements (R198) -/
  | hadd2 (d a b : BitVec 5) (y : BitVec 1) (p : BitVec 2)
  /-- HMUL2: Multiplies packed 16-bit elements (R198) -/
  | hmul2 (d a b : BitVec 5) (y : BitVec 1) (p : BitVec 2)
  /-- HFMA2: Performs a fused multiply-add on packed BF16 elements (R198) -/
  | hfma2 (d a b c : BitVec 5) (p : BitVec 2)
  /-- FDOT2: Adds a BF16 pair dot product to an FP32 value with one rounding (R199) -/
  | fdot2 (d a b c : BitVec 5) (p : BitVec 2)
  /-- FDOT4_F8: Adds a four-element E4M3 dot product to an FP32 value with one rounding (R199) -/
  | fdot4F8 (d a b c : BitVec 5) (p : BitVec 2)
  /-- SHFL_IDX: Reads a slot from a per-lane indexed source lane (R210) -/
  | shflIdx (d a b : BitVec 5) (s : BitVec 3) (p : BitVec 2)
  /-- SHFL_XOR: Reads a slot from lane l xor k (R210) -/
  | shflXor (d a : BitVec 5) (k : BitVec 10)
  /-- SHFL_PRV: Reads a slot from lane l - k (R210) -/
  | shflPrv (d a : BitVec 5) (k : BitVec 10)
  /-- SHFL_NXT: Reads a slot from lane l + k (R210) -/
  | shflNxt (d a : BitVec 5) (k : BitVec 10)
  /-- VOTE_ANY: Writes 1 if any executing lane has bit 0 set (R211) -/
  | voteAny (d a : BitVec 5) (p : BitVec 2)
  /-- VOTE_ALL: Writes 1 if every executing lane has bit 0 set (R211) -/
  | voteAll (d a : BitVec 5) (p : BitVec 2)
  /-- BALLOT: Writes each lane's 32-lane ballot word (R212) -/
  | ballot (d a : BitVec 5) (p : BitVec 2)
  /-- MATCH: Writes the mask of lanes in the word that hold an equal value (R213) -/
  | matchLanes (d a m : BitVec 5) (p : BitVec 2)
  /-- REDUX: Writes the fixed-tree reduction of a slot to every executing lane (R214) -/
  | redux (d a m : BitVec 5) (p : BitVec 2)
  /-- SCAN: Writes the inclusive prefix of a slot in lane order (R214) -/
  | scan (d a m : BitVec 5) (p : BitVec 2)
  /-- CXCH: Performs one compare-and-exchange step of a bitonic network (R215) -/
  | cxch (d a : BitVec 5) (y : BitVec 2) (k j : BitVec 4)
  /-- BCAST: Broadcasts lane k's slot to every active lane (R210) -/
  | bcast (d a : BitVec 5) (k : BitVec 10)
  /-- LD: Loads global memory into slots per lane; the load counts on SETA (R165) -/
  | ld (t a : BitVec 5) (x : BitVec 3) (o : BitVec 9)
  /-- LOAD_COMPLETE: A flag-counted instruction's last effect completes; its destinations are written and its flag decrements (R30) -/
  | loadComplete (u k : Nat)
  /-- ST: Stores slots to global memory per lane, as a relaxed write-through store (R262) -/
  | st (t a : BitVec 5) (x : BitVec 3) (o : BitVec 9)
  /-- LDX: Decodes 8 format-page elements to BF16 into a quad (R166) -/
  | ldx (t a : BitVec 5) (o : BitVec 9)
  /-- LD_ACQ: Loads with acquire semantics at the named scope (R265) -/
  | ldAcq (t a : BitVec 5) (x : BitVec 1) (o : BitVec 9)
  /-- ST_REL: Stores with release semantics at the named scope (R264) -/
  | stRel (t a : BitVec 5) (x : BitVec 1) (o : BitVec 9)
  /-- LD_ACQP: A remote-promoting acquire that drains the write-throughs of its reach before loading (R266) -/
  | ldAcqp (t a : BitVec 5) (x : BitVec 1) (o : BitVec 9)
  /-- PROMOTION_REQUEST: A core in the reach receives a promotion request, drains its earlier write-throughs and peer writes, and replies (R266) -/
  | promotionRequest (u core : Nat)
  /-- PROMOTION_REPLIES_COMPLETE: When all promotion replies have arrived, ld.acqp loads and acquires at .dv (R266) -/
  | promotionRepliesComplete (u : Nat)
  /-- ST_NT: A non-temporal store through the write-combining buffer, outside the team's releases (R267) -/
  | stNt (t a : BitVec 5) (x : BitVec 3) (o : BitVec 9)
  /-- NTDRAIN: Completes the team's earlier st.nt stores at the named scope before its later releases (R268) -/
  | ntdrain
  /-- FENCE: An acquire, release or full fence at the named scope (R269) -/
  | fence (x : BitVec 3)
  /-- ATOM: A global atomic that returns old values, with equal-address lanes combined (R270) -/
  | atom (d a b m : BitVec 5) (p : BitVec 2)
  /-- CAS: A global compare-and-swap applied per word in ascending lane order (R271) -/
  | cas (d a b c : BitVec 5) (p : BitVec 2)
  /-- RED: A global atomic reduction that writes no slot (R271) -/
  | red (a b m : BitVec 5) (p : BitVec 2)
  /-- LDS: Loads scratchpad words of the cluster per lane (R144) -/
  | lds (t a : BitVec 5) (x : BitVec 3) (o : BitVec 9)
  /-- STS: Stores to scratchpad words of the cluster per lane (R144) -/
  | sts (t a : BitVec 5) (x : BitVec 3) (o : BitVec 9)
  /-- ATOMS: A scratchpad atomic applied lane by lane in ascending order (R146) -/
  | atoms (d a b m : BitVec 5) (p : BitVec 2)
  /-- PREF: Prefetches lines into L2 and L1 without faulting (R167) -/
  | pref (a : BitVec 5) (o : BitVec 9)
  /-- QINIT: Makes a scratchpad queue live with producer allowances, or closes it (R149) -/
  | qinit (a b : BitVec 5) (p : BitVec 2)
  /-- QSEND: Appends a handle to a cluster queue with a release, blocking while the allowance is zero (R150) -/
  | qsend (a b : BitVec 5) (p : BitVec 2)
  /-- QRECV: Takes the head handle of an own queue, blocking while the queue is empty, and restores the sender's allowance (R151) -/
  | qrecv (d a : BitVec 5) (p : BitVec 2)
  /-- QTRY: Takes the head handle of a queue without blocking, and reports whether one was taken (R152) -/
  | qtry (d a : BitVec 5) (p : BitVec 2)
  /-- TCOPY: Accepts a tensor copy command described by a scratchpad descriptor (R133) -/
  | tcopy (a : BitVec 5) (f : BitVec 2)
  /-- TCOPY_Y: Accepts a tcopy command and yields until it completes (R134) -/
  | tcopyY (c : BitVec 5) (i : BitVec 17)
  /-- TCOPYX: Accepts a copy whose source addresses come from an extent list (R126) -/
  | tcopyx (a b : BitVec 5) (f : BitVec 2)
  /-- TFILL: Accepts a command that fills a destination tensor with a value (R133) -/
  | tfill (a b : BitVec 5) (f : BitVec 2)
  /-- TQUERY: Reads copy-queue and in-flight command status (R135) -/
  | tquery (d : BitVec 5) (s : BitVec 12)
  /-- COPY_START: A copy command at the front of its queue starts once it has leave (R119) -/
  | copyStart (core : Nat) (q : Bool)
  /-- COPY_COMPLETE: All destination writes of a copy command are performed; its flag decrements and its entry frees (R131) -/
  | copyComplete (core : Nat) (q : Bool)
  /-- COPY_FREEZE: An element access faults; the command freezes at that element and a record is written (R127) -/
  | copyFreeze (core : Nat) (q : Bool)
  /-- WLOAD: Loads 32 columns of stationary weights into the team's shadow plane (R231) -/
  | wload (a b : BitVec 5) (f : BitVec 2) (k : BitVec 4) (q : BitVec 1)
  /-- MSWAP: Exchanges the team's active and shadow planes (R232) -/
  | mswap
  /-- MZERO: Zeroes accumulator tiles (R233) -/
  | mzero (n t : BitVec 5)
  /-- MMA: Streams A rows from registers through the active plane into accumulator tiles (R234) -/
  | mma (a b : BitVec 5) (f : BitVec 2) (t : BitVec 5) (k : BitVec 4) (w : BitVec 1)
  /-- MMAS: Streams A rows from scratchpad through the active plane into a tile (R234) -/
  | mmas (a b : BitVec 5) (f : BitVec 2) (t : BitVec 5) (k : BitVec 4) (w : BitVec 1)
  /-- MMAK: Selects up to 4 kept key tiles, writes the next index and count, and streams their key rows (R253) -/
  | mmak (a b : BitVec 5) (f : BitVec 2) (t m : BitVec 5)
  /-- MSCALE: Scales each executing lane's accumulator row by a per-lane FP32 factor (R235) -/
  | mscale (a : BitVec 5) (f : BitVec 2) (t : BitVec 5)
  /-- MDRAIN: Writes accumulator rows out as FP32, BF16 or MX blocks (R236) -/
  | mdrain (a b : BitVec 5) (f : BitVec 2) (t : BitVec 5) (k : BitVec 4) (q : BitVec 1)
  /-- MREAD: Reads 8 columns of each executing lane's accumulator row into slots (R237) -/
  | mread (d : BitVec 5) (g : BitVec 2) (t : BitVec 5)
  /-- MPAIR: Turns matrix pairing with the partner core's team on or off (R240) -/
  | mpair (o : BitVec 1)
  /-- MFENCE: Makes later matrix and sieve reads wait for earlier acquires and an emptied operand buffer (R239) -/
  | mfence
  /-- SCFG: Replaces the team's sieve configuration from query rows in scratchpad (R246) -/
  | scfg (a b : BitVec 5) (f : BitVec 2)
  /-- SIEVE: Estimates key-tile scores and writes the keep-mask into a slot (R250) -/
  | sieve (a b : BitVec 5) (f : BitVec 2)
  /-- MATRIX_COMMAND_START: The array starts the next waiting matrix or sieve command once leave is granted (R219) -/
  | matrixCommandStart (core : Nat)
  /-- MATRIX_COMMAND_COMPLETE: A matrix or sieve command writes its last row or mask, and its flag decrements (R230) -/
  | matrixCommandComplete (core : Nat)
  /-- MATRIX_FREEZE: A matrix, sieve or mmak command faults at a row, column or tile boundary and is frozen and recorded (R227) -/
  | matrixFreeze (core : Nat)
  /-- MPAIR_CINCH: Both paired commands have posted, and both cores start streaming together (R241) -/
  | mpairCinch (core : Nat)
  /-- MPAIR_LATE: The partner has not posted within 4,096 counted cycles, and MPAIR_LATE is raised (R242) -/
  | mpairLate (core : Nat)
  /-- BIND: Binds up to 8 consecutive slots to main registers (R159) -/
  | bind (d : BitVec 5) (n : BitVec 3) (r : BitVec 8)
  /-- BINDX: Binds slots to main registers starting at a register number held in a slot (R160) -/
  | bindx (d a n : BitVec 5)
  /-- TRAP_ENTRY: The records are appended, the trap frame is written and the handler is entered on the team (R338) -/
  | trapEntry (u : Nat)
  /-- FRQ_STALL_RETRY: A team stalled on a full fault record queue checks for room again when a CLASS line is written or 1,024 cycles pass (R336) -/
  | frqStallRetry (u : Nat)
  /-- TRANSLATION_WALK: A translation walk completes; merged misses are served and the waiting pass replays (R113) -/
  | translationWalk (die : Nat)
  /-- TEAM_END: A team with no live lane ends after its flags, commands and stores complete, and releases its resources (R288) -/
  | teamEnd (u : Nat)
  /-- GRID_DISPATCH: The launch unit dispatches the oldest dispatchable grid and reads and checks its header (R301) -/
  | gridDispatch (ctx : Nat)
  /-- CLUSTER_PLACE: A cluster is placed whole on the first fitting rectangle once room becomes available (R305) -/
  | clusterPlace (ctx grid : Nat)
  /-- HARVEST_PLACE: A harvest team becomes resident in a harvest slot of an owner core and in the saddlebags (R389) -/
  | harvestPlace (ctx grid : Nat)
  /-- LEAVE_GRANT: The die's power arbiter grants leave to a waiting heavy command (R311) -/
  | leaveGrant (die : Nat)
  /-- TOKEN_REFILL: Every 1,300 cycles each die's token count is refilled up to the budget (R311) -/
  | tokenRefill
  /-- BUBBLE_END: The bubble's L cycles expire, and the stalled cores and engines continue (R312) -/
  | bubbleEnd
  /-- HANG: The hang count reaches 2^HLOG, and HANG is raised in every waiting team (R324) -/
  | hang (ctx : Nat)
  /-- MRED_PARTIAL_ARRIVAL: A child's partial reaches a router node and is added in tree order (R321) -/
  | mredPartialArrival (k : Nat)
  /-- MRED_FORWARD: A node forwards its partial to its parent 4 cycles after its last input (R319) -/
  | mredForward (cl ch node : Nat)
  /-- MRED_GIVE_UP: A child's window limit expires, and the node gives up that child and its subtree (R321) -/
  | mredGiveUp (cl ch node child : Nat)
  /-- PREEMPT_REQUEST: A pre-emption request reaches a core; the named teams halt at pass boundaries and are saved (R346) -/
  | preemptRequest (core : Nat)
  /-- TEAM_RESUME: A saved team is restored on an allowed core and continues exactly (R349) -/
  | teamResume (u core : Nat)
  /-- HARVEST_REVOKE: A revocation trigger stops harvest teams, cancels their commands and voids their leases within 64 cycles (R397) -/
  | harvestRevoke (core : Nat)
  /-- HARVEST_RESTART: When the trigger ends, the held harvest team restarts at its restart address with every live lane active (R398) -/
  | harvestRestart (u : Nat)
  /-- LEASE_SCRUB: The pool scrubber finishes zeroing a lease granule, which becomes available again (R395) -/
  | leaseScrub (core : Nat)
  /-- EXCLUSIVE_LIST_PROCESS: Firmware frees a RELEASED oldest root's exclusive nodes and releases their frames (R111) -/
  | exclusiveListProcess (lineage : Nat)
  /-- RID_TAG_FLUSH: Firmware flushes the translation-cache entries tagged with recycled RIDs before reusing them (R111) -/
  | ridTagFlush
  /-- POISON_LIST_MOVE: Firmware moves a full controller poison list into the LPDDR6 list (R377) -/
  | poisonListMove (ctrl : Nat)
  /-- MESH_LINK_RETIRE: After 16 link retries, a mesh link is retired, firmware is notified and the flit is poisoned (R94) -/
  | meshLinkRetire (link : Nat) (flit : Flit)
  /-- QUERY: Returns the module report (R376) -/
  | query (r : Req)
  /-- ATTEST: Returns the signed attestation result (R374) -/
  | attest (r : Req)
  /-- RESET: Sends its response, then resets the compute side (R375) -/
  | hostReset (r : Req)
  /-- PEER_ADD: Opens or replaces the stream to a peer module (R369) -/
  | peerAdd (r : Req)
  /-- POWER_CAP: Sets each die's power budget B (R375) -/
  | powerCap (r : Req)
  /-- CTX_CREATE: Creates a context with an empty root and DT-1 loaded (R363) -/
  | ctxCreate (r : Req)
  /-- CTX_DESTROY: Kills the context's grids, revokes its harvest teams, retires its roots and scrubs its memory (R364) -/
  | ctxDestroy (r : Req)
  /-- PART_SET: Sets a context's partition and owner cores (R365) -/
  | partSet (r : Req)
  /-- HARVEST_GRANT: Enables or disables a context's harvest rights on an owner's cores (R365) -/
  | harvestGrant (r : Req)
  /-- DECODE_LOAD: Checks a decode table and loads it for the context (R366) -/
  | decodeLoad (r : Req)
  /-- MEM_ALLOC: Sets a context's frame quota (R358) -/
  | memAlloc (r : Req)
  /-- MAP: Maps a range to new or shared frames with one publish (R359) -/
  | hostMap (r : Req)
  /-- UNMAP: Clears the leaves in a range and prunes emptied paths with one publish (R359) -/
  | unmap (r : Req)
  /-- REMAP: Replaces the frames behind a mapped range, in new, shared or copy form (R359) -/
  | remap (r : Req)
  /-- SNAPSHOT: Takes or drops a snapshot lineage of the context's current root (R114) -/
  | snapshot (r : Req)
  /-- FORK: Creates a child context that shares the tree under attenuation (R114) -/
  | fork (r : Req)
  /-- HOST_WRITE: Writes host data into context memory at the home L2 as a release at .sy (R368) -/
  | hostWrite (r : Req)
  /-- HOST_READ: Reads context memory at the home L2 as an acquire at .sy (R368) -/
  | hostRead (r : Req)
  /-- LAUNCH: Pushes a launch descriptor on the context's launch queue and returns the grid number (R358) -/
  | hostLaunch (r : Req)
  /-- GRID_WAIT: Reports a grid's state, at once or when the grid leaves the running state (R367) -/
  | gridWait (r : Req)
  /-- SUSPEND: Pre-empts the teams of the named grids, or holds queued grids (R367) -/
  | suspend (r : Req)
  /-- RESUME: Continues suspended grids (R367) -/
  | resume (r : Req)
  /-- CHECKPOINT: Writes back L2 and starts copying each die's GDDR7 to LPDDR6 (R91) -/
  | checkpoint (r : Req)
  /-- CHECKPOINT_DONE: The checkpoint copy ends, STATE is set to complete and the response is sent (R93) -/
  | checkpointDone
  /-- RESTORE: Copies the checkpoint image back and re-enters the poison lists (R92) -/
  | restore (r : Req)
  /-- CTX_SCRUB_DONE: The context scrub completes, the response is sent and the id becomes reusable (R364) -/
  | ctxScrubDone (ctx : Nat)
  /-- REMOTE_READ: A peer's remote read frame is performed at the home L2 and answered (R370) -/
  | remoteRead (f : Frame)
  /-- REMOTE_WRITE: A peer's remote write frame is performed at the home L2 and answered (R370) -/
  | remoteWrite (f : Frame)
  /-- REMOTE_ATOMIC: A peer's remote atomic frame is performed at the home L2, and the old value is returned (R370) -/
  | remoteAtomic (f : Frame)
  /-- REMOTE_REPLY: A reply to a lane's remote access arrives and completes it, or raises PEER_LOST (R370) -/
  | remoteReply (f : Frame)
  /-- ACKNOWLEDGEMENT: An acknowledgement-only frame updates the stream's ACKN and SACK state (R355) -/
  | acknowledgement (f : Frame)
  /-- LAZIA_RETRANSMIT_TIMEOUT: A retransmission timer expires and uncovered frames are resent; after 16 retries the stream fails (R356) -/
  | laziaRetransmitTimeout (strm : Nat)
  /-- RESET_N: RESET_N held low for at least 1 us resets the compute side (R375) -/
  | resetN (heldNs : Nat)
  /-- BOOT: After PWR_GOOD and RESET_N release, the ROM verifies the manifest, applies repairs, trains memory and opens the ports (R372) -/
  | boot (flash : Option Manifest)
  /-- POWER_LOSS: Removal of the 48 V input loses all state, LPDDR6 included (R92) -/
  | powerLoss
  /-- THERMAL_THROTTLE: A die reaching 100 °C has its budget halved (R375) -/
  | thermalThrottle (die : Nat) (temp : BitVec 16)
  /-- THERMAL_RECOVER: A die falling below 90 °C has its budget restored (R375) -/
  | thermalRecover (die : Nat) (temp : BitVec 16)
  /-- THERMAL_SHUTDOWN: A die reaching 110 °C makes the module drop PWR_GOOD and switch off (R375) -/
  | thermalShutdown (die : Nat) (temp : BitVec 16)
  /-- STORE_PERFORMED_AT_HOME: A store, st.nt or red request that issued with fixed latency is performed at its home L2 (R262) -/
  | storePerformedAtHome (k : Nat)
  /-- EXTERNAL_LIMIT: A wait with X reaches 2^XLOG cycles, and the team starts to count as waiting for the hang detector (R323) -/
  | externalLimit (u : Nat)
  /-- RESTORE_COMPLETE: The copy of the checkpoint image back into GDDR7 ends, the caches are invalidated and the poison lists are re-entered (R92) -/
  | restoreComplete
  /-- L2_WRITE_BACK: The device writes an L2 line back to GDDR7 or LPDDR6, entering it in the poison list if it is poisoned (R96) -/
  | l2WriteBack (line : Nat)
  deriving DecidableEq, Repr

end Sys2Proof
end

