-- ==== Sys2Proof/Machine/WordChecks.lean ====
section
/-! DEFINITION. What one instruction word shows by itself (R20 to R22, R28, R31, R36, R37, R45): its internal operation,
the modifiers it takes, reserved field values, misaligned pairs and quads, and its place in a clause. -/

namespace Sys2Proof

/-- The modifier fields of a mod hint or of FMOD (R37, R40): RM, FTZ, SAT, CP, SCOPE, ORD, WID. -/
structure Mods where
  rm : BitVec 3
  ftz : BitVec 1
  sat : BitVec 1
  cp : BitVec 2
  scope : BitVec 3
  ord : BitVec 2
  wid : BitVec 3
  deriving DecidableEq, Repr

/-- Every field zero: the defaults (R37, R41). -/
def Mods.zero : Mods := ⟨0, 0, 0, 0, 0, 0, 0⟩

/-- A reserved value in some field (R37): RM 101-111, CP 11, SCOPE 110-111 or WID 110-111. -/
def Mods.reserved (m : Mods) : Bool :=
  decide (5 ≤ m.rm.toNat) || m.cp == 3 || decide (6 ≤ m.scope.toNat) || decide (6 ≤ m.wid.toNat)

/-- The internal operation number of an instruction word (R44); 0 for headers, hints and events. -/
def iopOf : Instr → Nat
  | .nop => 0x001
  | .bra .. => 0x002
  | .bcNz .. => 0x003
  | .bcZ .. => 0x004
  | .recon .. => 0x005
  | .join => 0x006
  | .brk .. => 0x007
  | .call .. => 0x008
  | .ret .. => 0x009
  | .jmpi .. => 0x00a
  | .exit => 0x00b
  | .exitKill => 0x00b
  | .trap .. => 0x00c
  | .yield .. => 0x00d
  | .cbar .. => 0x00e
  | .gbar => 0x00f
  | .wait .. => 0x010
  | .launch .. => 0x011
  | .tret .. => 0x012
  | .fwcall .. => 0x013
  | .trefresh => 0x014
  | .lease .. => 0x015
  | .unlease => 0x016
  | .rdsr .. => 0x017
  | .wrsrFpx .. => 0x018
  | .wrsrXdead .. => 0x018
  | .wrsrTrapvec .. => 0x018
  | .wrsr .. => 0x018
  | .mred .. => 0x019
  | .mredw .. => 0x01a
  | .add .. => 0x040
  | .sub .. => 0x041
  | .addi .. => 0x042
  | .mul .. => 0x043
  | .mulhiS .. => 0x044
  | .mulhiU .. => 0x045
  | .mad .. => 0x046
  | .minS .. => 0x047
  | .minU .. => 0x048
  | .maxS .. => 0x049
  | .maxU .. => 0x04a
  | .abs .. => 0x04b
  | .and .. => 0x04c
  | .or .. => 0x04d
  | .xor .. => 0x04e
  | .andn .. => 0x04f
  | .andi .. => 0x050
  | .ori .. => 0x051
  | .xori .. => 0x052
  | .shl .. => 0x053
  | .shr .. => 0x054
  | .sar .. => 0x055
  | .rot .. => 0x056
  | .shli .. => 0x057
  | .shri .. => 0x058
  | .sari .. => 0x059
  | .popc .. => 0x05a
  | .clz .. => 0x05b
  | .brev .. => 0x05c
  | .bfe .. => 0x05d
  | .bfi .. => 0x05e
  | .cmp .. => 0x05f
  | .cmpiEq .. => 0x060
  | .cmpiLtS .. => 0x061
  | .cmpiLtU .. => 0x062
  | .cmpiNe .. => 0x063
  | .sel .. => 0x064
  | .movi .. => 0x065
  | .mov .. => 0x066
  | .add64 .. => 0x067
  | .sub64 .. => 0x068
  | .addi64 .. => 0x069
  | .lea64 .. => 0x06a
  | .rng .. => 0x06b
  | .cvtI .. => 0x06c
  | .dot4S8 .. => 0x06d
  | .dot4U8 .. => 0x06e
  | .fadd .. => 0x0c0
  | .fsub .. => 0x0c1
  | .fmul .. => 0x0c2
  | .ffma .. => 0x0c3
  | .fmin .. => 0x0c4
  | .fmax .. => 0x0c5
  | .fcmp .. => 0x0c6
  | .fabs .. => 0x0c7
  | .fneg .. => 0x0c8
  | .frcp .. => 0x0c9
  | .frsq .. => 0x0ca
  | .fexp2 .. => 0x0cb
  | .flog2 .. => 0x0cc
  | .sincosT .. => 0x0cd
  | .fround .. => 0x0ce
  | .fclass .. => 0x0cf
  | .fscale .. => 0x0d0
  | .cvtFi .. => 0x0d1
  | .cvtIf .. => 0x0d2
  | .cvtFf .. => 0x0d3
  | .hadd2 .. => 0x0d4
  | .hmul2 .. => 0x0d5
  | .hfma2 .. => 0x0d6
  | .fdot2 .. => 0x0d7
  | .fdot4F8 .. => 0x0d8
  | .shflIdx .. => 0x140
  | .shflXor .. => 0x141
  | .shflPrv .. => 0x142
  | .shflNxt .. => 0x143
  | .voteAny .. => 0x144
  | .voteAll .. => 0x145
  | .ballot .. => 0x146
  | .matchLanes .. => 0x147
  | .redux .. => 0x148
  | .scan .. => 0x149
  | .cxch .. => 0x14a
  | .bcast .. => 0x14b
  | .ld .. => 0x180
  | .st .. => 0x181
  | .ldx .. => 0x182
  | .ldAcq .. => 0x183
  | .stRel .. => 0x184
  | .ldAcqp .. => 0x185
  | .stNt .. => 0x186
  | .ntdrain => 0x187
  | .fence .. => 0x188
  | .atom .. => 0x189
  | .cas .. => 0x18a
  | .red .. => 0x18b
  | .lds .. => 0x18c
  | .sts .. => 0x18d
  | .atoms .. => 0x18e
  | .pref .. => 0x18f
  | .qinit .. => 0x190
  | .qsend .. => 0x191
  | .qrecv .. => 0x192
  | .qtry .. => 0x193
  | .tcopy .. => 0x200
  | .tcopyY .. => 0x201
  | .tcopyx .. => 0x202
  | .tfill .. => 0x203
  | .tquery .. => 0x204
  | .wload .. => 0x240
  | .mswap => 0x241
  | .mzero .. => 0x242
  | .mma .. => 0x243
  | .mmas .. => 0x244
  | .mmak .. => 0x245
  | .mscale .. => 0x246
  | .mdrain .. => 0x247
  | .mread .. => 0x248
  | .mpair .. => 0x249
  | .mfence => 0x24a
  | .scfg .. => 0x24b
  | .sieve .. => 0x24c
  | .bind .. => 0x280
  | .bindx .. => 0x281
  | _ => 0

/-- Which modifier fields an internal operation takes, and which values of SCOPE and WID (R37 and the chapters). -/
structure Taken where
  rm : Bool := false
  ftz : Bool := false
  sat : Bool := false
  cp : Bool := false
  ord : Bool := false
  scopes : List Nat := []
  wids : List Nat := []
  deriving DecidableEq, Repr

/-- The modifier fields of each internal operation: R168 (integer), R191 (floating point), R165 to R167, R262, R263,
R267 to R270 (memory), R146 (atoms); every other operation takes none. -/
def takenBy (op : Nat) : Taken :=
  match op with
  | 0x040 | 0x041 | 0x04b | 0x06c => { sat := true }
  | 0x0c0 | 0x0c1 | 0x0c2 | 0x0c3 | 0x0d0 | 0x0d4 | 0x0d5 | 0x0d6 | 0x0d7 | 0x0d8 | 0x0d1 =>
    { rm := true, ftz := true, sat := true }
  | 0x0ce => { rm := true, ftz := true }
  | 0x0c4 | 0x0c5 | 0x0c6 | 0x0c9 | 0x0ca | 0x0cb | 0x0cc => { ftz := true }
  | 0x0d3 => { rm := true, ftz := true, sat := true, wids := [5] }
  | 0x0d2 => { rm := true, sat := true }
  | 0x180 | 0x181 | 0x182 | 0x18f => { cp := true }
  | 0x183 | 0x184 | 0x187 | 0x188 => { scopes := [1, 2, 3, 4, 5] }
  | 0x185 => { scopes := [3, 4] }
  | 0x189 | 0x18a | 0x18b => { ord := true, scopes := [1, 2, 3, 4, 5], wids := [3, 4] }
  | 0x18e => { ord := true, scopes := [1, 2, 3, 4, 5] }
  | _ => {}

/-- Every non-zero field of m is one that the operation takes, with a value it takes (R37, R45 reason 0x08). -/
def takesMods (op : Nat) (m : Mods) : Bool :=
  let t := takenBy op
  (m.rm == 0 || t.rm) && (m.ftz == 0 || t.ftz) && (m.sat == 0 || t.sat) && (m.cp == 0 || t.cp) &&
    (m.ord == 0 || t.ord) && (m.scope == 0 || t.scopes.contains m.scope.toNat) &&
    (m.wid == 0 || t.wids.contains m.wid.toNat)

/-- The merge of R41, field by field; none where a field is non-zero in both. -/
def mergeMods (hint fmod : Mods) : Option Mods :=
  if (hint.rm == 0 || fmod.rm == 0) && (hint.ftz == 0 || fmod.ftz == 0) && (hint.sat == 0 || fmod.sat == 0) &&
      (hint.cp == 0 || fmod.cp == 0) && (hint.scope == 0 || fmod.scope == 0) && (hint.ord == 0 || fmod.ord == 0) &&
      (hint.wid == 0 || fmod.wid == 0) then
    some ⟨hint.rm ||| fmod.rm, hint.ftz ||| fmod.ftz, hint.sat ||| fmod.sat, hint.cp ||| fmod.cp,
      hint.scope ||| fmod.scope, hint.ord ||| fmod.ord, hint.wid ||| fmod.wid⟩
  else none

/-- The field-by-field choice of R41 where a field is set twice: the mod hint's value. Such a word is malformed (reason 0x08);
its other causes are looked for with these modifiers (R45). -/
def preferMods (hint fmod : Mods) : Mods :=
  ⟨if hint.rm = 0 then fmod.rm else hint.rm, if hint.ftz = 0 then fmod.ftz else hint.ftz,
    if hint.sat = 0 then fmod.sat else hint.sat, if hint.cp = 0 then fmod.cp else hint.cp,
    if hint.scope = 0 then fmod.scope else hint.scope, if hint.ord = 0 then fmod.ord else hint.ord,
    if hint.wid = 0 then fmod.wid else hint.wid⟩

/-- The I-format instructions that accept an ext hint (R36). -/
def acceptsExt : Instr → Bool
  | .addi .. | .addi64 .. | .andi .. | .ori .. | .xori .. | .cmpiEq .. | .cmpiNe .. | .cmpiLtS .. | .cmpiLtU ..
  | .movi .. | .lease .. => true
  | _ => false

/-- The instructions that end a clause and must stand last in it (R28). -/
def endsClause : Instr → Bool
  | .bra .. | .bcNz .. | .bcZ .. | .brk .. | .call .. | .ret .. | .jmpi .. | .join | .exit | .exitKill | .yield ..
  | .tret .. | .tcopyY .. | .trap .. | .fwcall .. | .cbar .. | .gbar | .wait .. | .qsend .. | .qrecv .. => true
  | _ => false

/-- The instructions that always count on setA (R31). -/
def loadClass : Instr → Bool
  | .ld .. | .ldx .. | .ldAcq .. | .ldAcqp .. | .lds .. | .atom .. | .cas .. | .atoms .. | .qrecv .. | .qtry ..
  | .mread .. | .mredw .. => true
  | _ => false

/-- Instructions of integer, floating-point and cross-lane arithmetic (R168, R190, R207), by internal operation number (R43). -/
def laneArith (i : Instr) : Bool := decide (0x040 ≤ iopOf i ∧ iopOf i < 0x180)

/-- The multi-lane instructions that a pre-emption or a revocation may stop between two passes (R162, R164, R293): those of
R294's list, atoms, rdsr and the wrsr of registers that each lane holds (R352, R353). atom, cas and red gather without a stop
(R271). -/
def stoppable (i : Instr) : Bool :=
  laneArith i ||
    match i with
    | .ld .. | .ldx .. | .pref .. | .st .. | .stRel .. | .stNt .. | .ldAcq .. | .ldAcqp .. | .lds .. | .sts .. | .atoms .. => true
    | .rdsr .. | .wrsrFpx .. | .wrsrXdead .. => true
    | _ => false

/-- The instructions to which compaction applies (R294). -/
def compacts (i : Instr) : Bool :=
  match i with
  | .atoms .. | .rdsr .. | .wrsrFpx .. | .wrsrXdead .. => false
  | _ => stoppable i

/-- The words whose accesses come after those of the team's earlier words, or tell others of them: memory and queue
instructions, engine commands, barriers, waits, launches and commands (R256, R265, R269). -/
def usesMemory (i : Instr) : Bool :=
  decide (0x00e ≤ iopOf i ∧ iopOf i ≤ 0x013) || decide (0x180 ≤ iopOf i ∧ iopOf i < 0x280)

/-- The words before which every earlier load of the team has taken its value, executing with modifiers m (R256, R258, R260,
R269): all that use memory but relaxed accesses, acquires and ntdrain, which only loads of their own locations precede. -/
def fixesLoads (i : Instr) (m : Mods) : Bool :=
  match i with
  | .ld .. | .ldx .. | .pref .. | .st .. | .stNt .. | .ntdrain | .ldAcq .. | .ldAcqp .. | .lds .. | .sts .. => false
  | .atom .. | .cas .. | .red .. | .atoms .. => m.ord.getLsbD 1
  | _ => usesMemory i

/-- The flag selector of an E-format instruction (R19, R31). -/
def flagSel : Instr → Option (BitVec 2)
  | .tcopy _ f => some f
  | .tcopyx _ _ f => some f
  | .tfill _ _ f => some f
  | .wload _ _ f _ _ => some f
  | .mma _ _ f _ _ _ => some f
  | .mmas _ _ f _ _ _ => some f
  | .mmak _ _ f _ _ => some f
  | .mscale _ f _ => some f
  | .mdrain _ _ f _ _ _ => some f
  | .scfg _ _ f => some f
  | .sieve _ _ f => some f
  | _ => none

/-- A slot field that names a pair is even (R22). -/
def oddPair (x : BitVec 5) : Bool := x.toNat % 2 != 0

/-- A slot field that names a quad is a multiple of 4 (R22). -/
def offQuad (x : BitVec 5) : Bool := x.toNat % 4 != 0

/-- The data slot of an access of R23 is a pair for b64 and a quad for b128. -/
def offData (x : BitVec 3) (t : BitVec 5) : Bool :=
  (x == 5 && oddPair t) || (x == 6 && offQuad t)

/-- An MX format of the A operand (R222, R234): the scale slot is used. -/
def mxAf (k : BitVec 4) : Bool := decide (5 ≤ k.toNat ∧ k.toNat ≤ 8)

/-- A special register number that R351 lists. -/
def listedSr (i : BitVec 12) : Bool :=
  [0x000, 0x001, 0x002, 0x010, 0x011, 0x012, 0x013, 0x020, 0x030, 0x031, 0x032, 0x033, 0x040, 0x041, 0x050, 0x051,
    0x060, 0x070].contains i.toNat

/-- A reserved field value that the word itself shows, given the modifiers it executes with: reason 0x04 of R45.
The rule of each case is the instruction's own. -/
def reservedField (i : Instr) (m : Mods) : Bool :=
  (flagSel i == some 3) ||
  match i with
  | .brk n _ => n == 0
  | .wait _ _ _ _ k => decide (6 ≤ k.toNat)
  | .fwcall _ _ k => decide (k.toNat < 0x21 ∨ 0x25 < k.toNat)
  | .rdsr _ n => !listedSr n
  | .wrsr .. => true
  | .add _ _ _ u _ => u == 1 && m.sat == 0
  | .sub _ _ _ u _ => u == 1 && m.sat == 0
  | .bfe _ _ _ l _ => l == 0 || decide (32 < l.toNat)
  | .cmp _ _ _ k _ => decide (10 ≤ k.toNat)
  | .fcmp _ _ _ k _ => decide (8 ≤ k.toNat)
  | .cvtFi _ _ _ s _ => s == 3
  | .cvtIf _ _ t s _ => t == 3 || decide (s.toNat < 4)
  | .cvtFf _ _ s n t _ => s == 7 || t == 7 || (n == 1 && t != 3)
  | .shflIdx _ _ _ s _ => decide (6 ≤ s.toNat)
  | .matchLanes _ _ k _ => decide (2 ≤ k.toNat)
  | .redux _ _ k _ => decide (11 ≤ k.toNat)
  | .scan _ _ k _ => decide (11 ≤ k.toNat)
  | .cxch _ _ y k j => y == 3 || k == 0 || decide (10 < k.toNat) || decide (9 < j.toNat) || decide (k.toNat ≤ j.toNat)
  | .ld _ _ x _ => x == 7
  | .st _ _ x _ => x == 7
  | .stNt _ _ x _ => x == 7
  | .lds _ _ x _ => x == 7
  | .sts _ _ x _ => x == 7
  | .fence x => decide (3 ≤ x.toNat)
  | .atom _ _ _ k _ => k == 9 || decide (11 ≤ k.toNat)
  | .red _ _ k _ => k == 9 || decide (11 ≤ k.toNat)
  | .atoms _ _ _ k _ => decide (11 ≤ k.toNat)
  | .tquery _ n => decide (5 ≤ n.toNat)
  | .wload _ _ _ k _ => decide (6 ≤ k.toNat)
  | .mma _ b _ _ k _ => decide (10 ≤ k.toNat) || (!mxAf k && b != 0)
  | .mmas _ _ _ _ k _ => decide (10 ≤ k.toNat)
  | .mdrain _ _ _ _ k _ => decide (6 ≤ k.toNat)
  | .bind d n _ => decide (32 < d.toNat + n.toNat + 1)
  | .bindx d _ n => decide (8 ≤ n.toNat) || decide (32 < d.toNat + n.toNat + 1)
  | _ => false

/-- A slot field that must name a pair, a quad or an eight and does not: reason 0x05 of R45 (R22, R169, R226). -/
def misaligned (i : Instr) (m : Mods) : Bool :=
  match i with
  | .wait _ a _ _ _ => oddPair a
  | .fwcall d _ _ => oddPair d
  | .mredw d _ => offQuad d
  | .add64 d a b _ => oddPair d || oddPair a || oddPair b
  | .sub64 d a b _ => oddPair d || oddPair a || oddPair b
  | .rng d a b _ => oddPair d || oddPair a || oddPair b
  | .addi64 d a _ => oddPair d || oddPair a
  | .lea64 d a _ _ _ _ => oddPair d || oddPair a
  | .cvtI d a t s _ => (decide (6 ≤ t.toNat) && oddPair d) || (decide (2 ≤ s.toNat) && oddPair a)
  | .sincosT d _ _ => oddPair d
  | .cvtFi d _ t _ _ => decide (6 ≤ t.toNat) && oddPair d
  | .cvtIf _ a _ s _ => decide (6 ≤ s.toNat) && oddPair a
  | .cvtFf d a s _ t _ => m.wid == 5 && ((t == 0 && oddPair d) || (s == 0 && oddPair a))
  | .matchLanes _ a k _ => k == 1 && oddPair a
  | .ld t a x _ => oddPair a || offData x t
  | .st t a x _ => oddPair a || offData x t
  | .stNt t a x _ => oddPair a || offData x t
  | .ldx t a _ => oddPair a || offQuad t
  | .ldAcq t a x _ => oddPair a || (x == 1 && oddPair t)
  | .stRel t a x _ => oddPair a || (x == 1 && oddPair t)
  | .ldAcqp t a x _ => oddPair a || (x == 1 && oddPair t)
  | .atom d a b _ _ => oddPair a || (m.wid == 4 && (oddPair d || oddPair b))
  | .cas d a b c _ => oddPair a || (m.wid == 4 && (oddPair d || oddPair b || oddPair c))
  | .red a b _ _ => oddPair a || (m.wid == 4 && oddPair b)
  | .lds t _ x _ => offData x t
  | .sts t _ x _ => offData x t
  | .atoms _ _ b k _ => k == 9 && oddPair b
  | .pref a _ => oddPair a
  | .qsend _ b _ => oddPair b
  | .qrecv d _ _ => oddPair d
  | .qtry d _ _ => offQuad d
  | .wload a _ _ _ q => q == 0 && oddPair a
  | .mma a _ _ _ _ _ => offQuad a || decide (16 < a.toNat)
  | .mdrain a b _ _ _ q => (q == 0 && oddPair a) || oddPair b
  | .mread d _ _ => d.toNat % 8 != 0
  | .scfg _ b _ => oddPair b
  | .mmak _ b _ _ _ => oddPair b
  | _ => false

/-- A WID or SCOPE value that the operation takes but this form of it does not (R270): fadd on 64 bits. -/
def formRefusesMods (i : Instr) (m : Mods) : Bool :=
  match i with
  | .atom _ _ _ k _ => k == 10 && m.wid == 4
  | .red _ _ k _ => k == 10 && m.wid == 4
  | _ => false

/-- The reserved values of a header: SETA or SETB 12-14, or COMP 11 give reason 0x0A; LEN 0 or above 24 gives 0x0B
(R26). -/
def headerReasons (a b : BitVec 4) (l : BitVec 5) (c : BitVec 2) : List Nat :=
  let bad (x : BitVec 4) : Bool := decide (12 ≤ x.toNat ∧ x.toNat ≤ 14)
  (if bad a || bad b || c == 3 then [0x0A] else []) ++ (if l == 0 || decide (24 < l.toNat) then [0x0B] else [])

end Sys2Proof
end

