-- ==== Sys2Proof/WellFormed.lean ====
section
/-! DEFINITION. Well-formed instructions: no reserved field value and no misaligned slot pair (R20, R22, R26, R37, R38),
under modifiers that the instruction takes, and no word that another constructor stands for. -/

namespace Sys2Proof

/-- The three special registers that wrsr writes are the constructors wrsrFpx, wrsrXdead and wrsrTrapvec (R353). -/
def writableSr (i : BitVec 12) : Bool := i == 0x020 || i == 0x013 || i == 0x030

/-- The instruction is an event of the module and no word of code. -/
def isEvent (i : Instr) : Bool :=
  match i with
  | .clauseHeader .. | .ext _ | .mod .. | .sched .. => false
  | i => iopOf i == 0

/-- A word that the decoder answers: an instruction, a header or a hint whose encoding no other constructor owns. -/
def Instr.IsWord (i : Instr) : Prop :=
  isEvent i = false ∧ (match i with | .wrsr _ n => writableSr n = false | _ => True)

/-- The instruction passes every check that its word shows by itself, with the modifiers m. -/
def Instr.WellFormed (i : Instr) (m : Mods) : Prop :=
  i.IsWord ∧ reservedField i m = false ∧ misaligned i m = false ∧ formRefusesMods i m = false ∧
    takesMods (iopOf i) m = true ∧
    (match i with
     | .clauseHeader _ a b l c _ _ => headerReasons a b l c = []
     | .mod r _ _ c k _ w => Mods.reserved ⟨r, 0, 0, c, k, 0, w⟩ = false
     | .sched _ _ c => c ≠ 3
     | _ => True)

end Sys2Proof
end

