-- ==== Sys2Proof/Decode.lean ====
section
/-! DEFINITION. Decoding (R18 to R20, R26, R35 to R45): from a word, through a decode-table entry, to an instruction
or to the ILLOP reason of R45; and the encoder, written from the same tables. -/

namespace Sys2Proof

/-- The n bits of a word from bit lo upward. -/
def fld (w : Word) (lo n : Nat) : BitVec n := w.extractLsb' lo n

/-- The instruction that internal operation op reads in a word's bits 21-0 (R19, R44): the fields of the operation's
row; none where a bit the row fixes differs (R20, R45 reason 0x04) or op is no internal operation. -/
def decodeOp (op : Nat) (w : Word) : Option Instr :=
  match op with
  | 0x001 => if fld w 0 22 == 0 then some (.nop) else none
  | 0x002 => if fld w 17 5 == 0 then some (.bra (fld w 0 17)) else none
  | 0x003 => some (.bcNz (fld w 17 5) (fld w 0 17))
  | 0x004 => some (.bcZ (fld w 17 5) (fld w 0 17))
  | 0x005 => if fld w 17 5 == 0 then some (.recon (fld w 0 17)) else none
  | 0x006 => if fld w 0 22 == 0 then some (.join) else none
  | 0x007 => some (.brk (fld w 17 5) (fld w 0 17))
  | 0x008 => some (.call (fld w 17 5) (fld w 0 17))
  | 0x009 => if fld w 17 5 == 0 && fld w 0 12 == 0 then some (.ret (fld w 12 5)) else none
  | 0x00a => if fld w 17 5 == 0 && fld w 0 12 == 0 then some (.jmpi (fld w 12 5)) else none
  | 0x00b => if fld w 0 22 == 0 then some (.exit) else if fld w 0 22 == 4 then some (.exitKill) else none
  | 0x00c => if fld w 17 5 == 0 then some (.trap (fld w 12 5) (fld w 0 12)) else none
  | 0x00d => if fld w 17 5 == 0 then some (.yield (fld w 0 17)) else none
  | 0x00e => if fld w 4 18 == 0 then some (.cbar (fld w 0 4)) else none
  | 0x00f => if fld w 0 22 == 0 then some (.gbar) else none
  | 0x010 => if fld w 6 1 == 0 && fld w 0 2 == 0 then some (.wait (fld w 17 5) (fld w 12 5) (fld w 7 5) (fld w 5 1) (fld w 2 3)) else none
  | 0x011 => if fld w 0 12 == 0 then some (.launch (fld w 17 5) (fld w 12 5)) else none
  | 0x012 => if fld w 3 19 == 0 && fld w 0 2 == 0 then some (.tret (fld w 2 1)) else none
  | 0x013 => if fld w 8 4 == 0 then some (.fwcall (fld w 17 5) (fld w 12 5) (fld w 0 8)) else none
  | 0x014 => if fld w 0 22 == 0 then some (.trefresh) else none
  | 0x015 => some (.lease (fld w 17 5) (fld w 12 5) (fld w 0 12))
  | 0x016 => if fld w 0 22 == 0 then some (.unlease) else none
  | 0x017 => if fld w 12 5 == 0 then some (.rdsr (fld w 17 5) (fld w 0 12)) else none
  | 0x018 => if fld w 17 5 == 0 && fld w 0 12 == 32 then some (.wrsrFpx (fld w 12 5)) else if fld w 17 5 == 0 && fld w 0 12 == 19 then some (.wrsrXdead (fld w 12 5)) else if fld w 17 5 == 0 && fld w 0 12 == 48 then some (.wrsrTrapvec (fld w 12 5)) else if fld w 17 5 == 0 then some (.wrsr (fld w 12 5) (fld w 0 12)) else none
  | 0x019 => if fld w 17 5 == 0 && fld w 5 2 == 0 && fld w 0 2 == 0 then some (.mred (fld w 12 5) (fld w 7 5) (fld w 3 2) (fld w 2 1)) else none
  | 0x01a => if fld w 5 12 == 0 && fld w 0 3 == 0 then some (.mredw (fld w 17 5) (fld w 3 2)) else none
  | 0x040 => if fld w 3 4 == 0 then some (.add (fld w 17 5) (fld w 12 5) (fld w 7 5) (fld w 2 1) (fld w 0 2)) else none
  | 0x041 => if fld w 3 4 == 0 then some (.sub (fld w 17 5) (fld w 12 5) (fld w 7 5) (fld w 2 1) (fld w 0 2)) else none
  | 0x042 => some (.addi (fld w 17 5) (fld w 12 5) (fld w 0 12))
  | 0x043 => if fld w 2 5 == 0 then some (.mul (fld w 17 5) (fld w 12 5) (fld w 7 5) (fld w 0 2)) else none
  | 0x044 => if fld w 2 5 == 0 then some (.mulhiS (fld w 17 5) (fld w 12 5) (fld w 7 5) (fld w 0 2)) else none
  | 0x045 => if fld w 2 5 == 0 then some (.mulhiU (fld w 17 5) (fld w 12 5) (fld w 7 5) (fld w 0 2)) else none
  | 0x046 => some (.mad (fld w 17 5) (fld w 12 5) (fld w 7 5) (fld w 2 5) (fld w 0 2))
  | 0x047 => if fld w 2 5 == 0 then some (.minS (fld w 17 5) (fld w 12 5) (fld w 7 5) (fld w 0 2)) else none
  | 0x048 => if fld w 2 5 == 0 then some (.minU (fld w 17 5) (fld w 12 5) (fld w 7 5) (fld w 0 2)) else none
  | 0x049 => if fld w 2 5 == 0 then some (.maxS (fld w 17 5) (fld w 12 5) (fld w 7 5) (fld w 0 2)) else none
  | 0x04a => if fld w 2 5 == 0 then some (.maxU (fld w 17 5) (fld w 12 5) (fld w 7 5) (fld w 0 2)) else none
  | 0x04b => if fld w 2 10 == 0 then some (.abs (fld w 17 5) (fld w 12 5) (fld w 0 2)) else none
  | 0x04c => if fld w 2 5 == 0 then some (.and (fld w 17 5) (fld w 12 5) (fld w 7 5) (fld w 0 2)) else none
  | 0x04d => if fld w 2 5 == 0 then some (.or (fld w 17 5) (fld w 12 5) (fld w 7 5) (fld w 0 2)) else none
  | 0x04e => if fld w 2 5 == 0 then some (.xor (fld w 17 5) (fld w 12 5) (fld w 7 5) (fld w 0 2)) else none
  | 0x04f => if fld w 2 5 == 0 then some (.andn (fld w 17 5) (fld w 12 5) (fld w 7 5) (fld w 0 2)) else none
  | 0x050 => some (.andi (fld w 17 5) (fld w 12 5) (fld w 0 12))
  | 0x051 => some (.ori (fld w 17 5) (fld w 12 5) (fld w 0 12))
  | 0x052 => some (.xori (fld w 17 5) (fld w 12 5) (fld w 0 12))
  | 0x053 => if fld w 2 5 == 0 then some (.shl (fld w 17 5) (fld w 12 5) (fld w 7 5) (fld w 0 2)) else none
  | 0x054 => if fld w 2 5 == 0 then some (.shr (fld w 17 5) (fld w 12 5) (fld w 7 5) (fld w 0 2)) else none
  | 0x055 => if fld w 2 5 == 0 then some (.sar (fld w 17 5) (fld w 12 5) (fld w 7 5) (fld w 0 2)) else none
  | 0x056 => if fld w 2 5 == 0 then some (.rot (fld w 17 5) (fld w 12 5) (fld w 7 5) (fld w 0 2)) else none
  | 0x057 => if fld w 6 6 == 0 then some (.shli (fld w 17 5) (fld w 12 5) (fld w 0 6)) else none
  | 0x058 => if fld w 6 6 == 0 then some (.shri (fld w 17 5) (fld w 12 5) (fld w 0 6)) else none
  | 0x059 => if fld w 6 6 == 0 then some (.sari (fld w 17 5) (fld w 12 5) (fld w 0 6)) else none
  | 0x05a => if fld w 2 10 == 0 then some (.popc (fld w 17 5) (fld w 12 5) (fld w 0 2)) else none
  | 0x05b => if fld w 2 10 == 0 then some (.clz (fld w 17 5) (fld w 12 5) (fld w 0 2)) else none
  | 0x05c => if fld w 2 10 == 0 then some (.brev (fld w 17 5) (fld w 12 5) (fld w 0 2)) else none
  | 0x05d => some (.bfe (fld w 17 5) (fld w 12 5) (fld w 11 1) (fld w 5 6) (fld w 0 5))
  | 0x05e => some (.bfi (fld w 17 5) (fld w 12 5) (fld w 7 5) (fld w 2 5) (fld w 0 2))
  | 0x05f => some (.cmp (fld w 17 5) (fld w 12 5) (fld w 7 5) (fld w 2 5) (fld w 0 2))
  | 0x060 => some (.cmpiEq (fld w 17 5) (fld w 12 5) (fld w 0 12))
  | 0x061 => some (.cmpiLtS (fld w 17 5) (fld w 12 5) (fld w 0 12))
  | 0x062 => some (.cmpiLtU (fld w 17 5) (fld w 12 5) (fld w 0 12))
  | 0x063 => some (.cmpiNe (fld w 17 5) (fld w 12 5) (fld w 0 12))
  | 0x064 => some (.sel (fld w 17 5) (fld w 12 5) (fld w 7 5) (fld w 2 5) (fld w 0 2))
  | 0x065 => if fld w 12 5 == 0 then some (.movi (fld w 17 5) (fld w 0 12)) else none
  | 0x066 => if fld w 2 10 == 0 then some (.mov (fld w 17 5) (fld w 12 5) (fld w 0 2)) else none
  | 0x067 => if fld w 2 5 == 0 then some (.add64 (fld w 17 5) (fld w 12 5) (fld w 7 5) (fld w 0 2)) else none
  | 0x068 => if fld w 2 5 == 0 then some (.sub64 (fld w 17 5) (fld w 12 5) (fld w 7 5) (fld w 0 2)) else none
  | 0x069 => some (.addi64 (fld w 17 5) (fld w 12 5) (fld w 0 12))
  | 0x06a => some (.lea64 (fld w 17 5) (fld w 12 5) (fld w 7 5) (fld w 6 1) (fld w 2 4) (fld w 0 2))
  | 0x06b => if fld w 2 5 == 0 then some (.rng (fld w 17 5) (fld w 12 5) (fld w 7 5) (fld w 0 2)) else none
  | 0x06c => if fld w 7 5 == 0 then some (.cvtI (fld w 17 5) (fld w 12 5) (fld w 4 3) (fld w 2 2) (fld w 0 2)) else none
  | 0x06d => some (.dot4S8 (fld w 17 5) (fld w 12 5) (fld w 7 5) (fld w 2 5) (fld w 0 2))
  | 0x06e => some (.dot4U8 (fld w 17 5) (fld w 12 5) (fld w 7 5) (fld w 2 5) (fld w 0 2))
  | 0x0c0 => if fld w 2 5 == 0 then some (.fadd (fld w 17 5) (fld w 12 5) (fld w 7 5) (fld w 0 2)) else none
  | 0x0c1 => if fld w 2 5 == 0 then some (.fsub (fld w 17 5) (fld w 12 5) (fld w 7 5) (fld w 0 2)) else none
  | 0x0c2 => if fld w 2 5 == 0 then some (.fmul (fld w 17 5) (fld w 12 5) (fld w 7 5) (fld w 0 2)) else none
  | 0x0c3 => some (.ffma (fld w 17 5) (fld w 12 5) (fld w 7 5) (fld w 2 5) (fld w 0 2))
  | 0x0c4 => if fld w 2 5 == 0 then some (.fmin (fld w 17 5) (fld w 12 5) (fld w 7 5) (fld w 0 2)) else none
  | 0x0c5 => if fld w 2 5 == 0 then some (.fmax (fld w 17 5) (fld w 12 5) (fld w 7 5) (fld w 0 2)) else none
  | 0x0c6 => some (.fcmp (fld w 17 5) (fld w 12 5) (fld w 7 5) (fld w 2 5) (fld w 0 2))
  | 0x0c7 => if fld w 2 10 == 0 then some (.fabs (fld w 17 5) (fld w 12 5) (fld w 0 2)) else none
  | 0x0c8 => if fld w 2 10 == 0 then some (.fneg (fld w 17 5) (fld w 12 5) (fld w 0 2)) else none
  | 0x0c9 => if fld w 2 10 == 0 then some (.frcp (fld w 17 5) (fld w 12 5) (fld w 0 2)) else none
  | 0x0ca => if fld w 2 10 == 0 then some (.frsq (fld w 17 5) (fld w 12 5) (fld w 0 2)) else none
  | 0x0cb => if fld w 2 10 == 0 then some (.fexp2 (fld w 17 5) (fld w 12 5) (fld w 0 2)) else none
  | 0x0cc => if fld w 2 10 == 0 then some (.flog2 (fld w 17 5) (fld w 12 5) (fld w 0 2)) else none
  | 0x0cd => if fld w 2 10 == 0 then some (.sincosT (fld w 17 5) (fld w 12 5) (fld w 0 2)) else none
  | 0x0ce => if fld w 2 10 == 0 then some (.fround (fld w 17 5) (fld w 12 5) (fld w 0 2)) else none
  | 0x0cf => if fld w 2 10 == 0 then some (.fclass (fld w 17 5) (fld w 12 5) (fld w 0 2)) else none
  | 0x0d0 => if fld w 2 5 == 0 then some (.fscale (fld w 17 5) (fld w 12 5) (fld w 7 5) (fld w 0 2)) else none
  | 0x0d1 => if fld w 7 5 == 0 then some (.cvtFi (fld w 17 5) (fld w 12 5) (fld w 4 3) (fld w 2 2) (fld w 0 2)) else none
  | 0x0d2 => if fld w 7 5 == 0 then some (.cvtIf (fld w 17 5) (fld w 12 5) (fld w 5 2) (fld w 2 3) (fld w 0 2)) else none
  | 0x0d3 => if fld w 10 2 == 0 && fld w 6 1 == 0 then some (.cvtFf (fld w 17 5) (fld w 12 5) (fld w 7 3) (fld w 5 1) (fld w 2 3) (fld w 0 2)) else none
  | 0x0d4 => if fld w 3 4 == 0 then some (.hadd2 (fld w 17 5) (fld w 12 5) (fld w 7 5) (fld w 2 1) (fld w 0 2)) else none
  | 0x0d5 => if fld w 3 4 == 0 then some (.hmul2 (fld w 17 5) (fld w 12 5) (fld w 7 5) (fld w 2 1) (fld w 0 2)) else none
  | 0x0d6 => some (.hfma2 (fld w 17 5) (fld w 12 5) (fld w 7 5) (fld w 2 5) (fld w 0 2))
  | 0x0d7 => some (.fdot2 (fld w 17 5) (fld w 12 5) (fld w 7 5) (fld w 2 5) (fld w 0 2))
  | 0x0d8 => some (.fdot4F8 (fld w 17 5) (fld w 12 5) (fld w 7 5) (fld w 2 5) (fld w 0 2))
  | 0x140 => if fld w 5 2 == 0 then some (.shflIdx (fld w 17 5) (fld w 12 5) (fld w 7 5) (fld w 2 3) (fld w 0 2)) else none
  | 0x141 => if fld w 10 2 == 0 then some (.shflXor (fld w 17 5) (fld w 12 5) (fld w 0 10)) else none
  | 0x142 => if fld w 10 2 == 0 then some (.shflPrv (fld w 17 5) (fld w 12 5) (fld w 0 10)) else none
  | 0x143 => if fld w 10 2 == 0 then some (.shflNxt (fld w 17 5) (fld w 12 5) (fld w 0 10)) else none
  | 0x144 => if fld w 2 10 == 0 then some (.voteAny (fld w 17 5) (fld w 12 5) (fld w 0 2)) else none
  | 0x145 => if fld w 2 10 == 0 then some (.voteAll (fld w 17 5) (fld w 12 5) (fld w 0 2)) else none
  | 0x146 => if fld w 2 10 == 0 then some (.ballot (fld w 17 5) (fld w 12 5) (fld w 0 2)) else none
  | 0x147 => if fld w 7 5 == 0 then some (.matchLanes (fld w 17 5) (fld w 12 5) (fld w 2 5) (fld w 0 2)) else none
  | 0x148 => if fld w 7 5 == 0 then some (.redux (fld w 17 5) (fld w 12 5) (fld w 2 5) (fld w 0 2)) else none
  | 0x149 => if fld w 7 5 == 0 then some (.scan (fld w 17 5) (fld w 12 5) (fld w 2 5) (fld w 0 2)) else none
  | 0x14a => if fld w 10 2 == 0 then some (.cxch (fld w 17 5) (fld w 12 5) (fld w 8 2) (fld w 4 4) (fld w 0 4)) else none
  | 0x14b => if fld w 10 2 == 0 then some (.bcast (fld w 17 5) (fld w 12 5) (fld w 0 10)) else none
  | 0x180 => some (.ld (fld w 17 5) (fld w 12 5) (fld w 9 3) (fld w 0 9))
  | 0x181 => some (.st (fld w 17 5) (fld w 12 5) (fld w 9 3) (fld w 0 9))
  | 0x182 => if fld w 9 3 == 6 then some (.ldx (fld w 17 5) (fld w 12 5) (fld w 0 9)) else none
  | 0x183 => if fld w 10 2 == 2 then some (.ldAcq (fld w 17 5) (fld w 12 5) (fld w 9 1) (fld w 0 9)) else none
  | 0x184 => if fld w 10 2 == 2 then some (.stRel (fld w 17 5) (fld w 12 5) (fld w 9 1) (fld w 0 9)) else none
  | 0x185 => if fld w 10 2 == 2 then some (.ldAcqp (fld w 17 5) (fld w 12 5) (fld w 9 1) (fld w 0 9)) else none
  | 0x186 => some (.stNt (fld w 17 5) (fld w 12 5) (fld w 9 3) (fld w 0 9))
  | 0x187 => if fld w 0 22 == 0 then some (.ntdrain) else none
  | 0x188 => if fld w 12 10 == 0 && fld w 0 9 == 0 then some (.fence (fld w 9 3)) else none
  | 0x189 => some (.atom (fld w 17 5) (fld w 12 5) (fld w 7 5) (fld w 2 5) (fld w 0 2))
  | 0x18a => some (.cas (fld w 17 5) (fld w 12 5) (fld w 7 5) (fld w 2 5) (fld w 0 2))
  | 0x18b => if fld w 17 5 == 0 then some (.red (fld w 12 5) (fld w 7 5) (fld w 2 5) (fld w 0 2)) else none
  | 0x18c => some (.lds (fld w 17 5) (fld w 12 5) (fld w 9 3) (fld w 0 9))
  | 0x18d => some (.sts (fld w 17 5) (fld w 12 5) (fld w 9 3) (fld w 0 9))
  | 0x18e => some (.atoms (fld w 17 5) (fld w 12 5) (fld w 7 5) (fld w 2 5) (fld w 0 2))
  | 0x18f => if fld w 17 5 == 0 && fld w 9 3 == 4 then some (.pref (fld w 12 5) (fld w 0 9)) else none
  | 0x190 => if fld w 17 5 == 0 && fld w 2 5 == 0 then some (.qinit (fld w 12 5) (fld w 7 5) (fld w 0 2)) else none
  | 0x191 => if fld w 17 5 == 0 && fld w 2 5 == 0 then some (.qsend (fld w 12 5) (fld w 7 5) (fld w 0 2)) else none
  | 0x192 => if fld w 2 10 == 0 then some (.qrecv (fld w 17 5) (fld w 12 5) (fld w 0 2)) else none
  | 0x193 => if fld w 2 10 == 0 then some (.qtry (fld w 17 5) (fld w 12 5) (fld w 0 2)) else none
  | 0x200 => if fld w 12 5 == 0 && fld w 0 10 == 0 then some (.tcopy (fld w 17 5) (fld w 10 2)) else none
  | 0x201 => some (.tcopyY (fld w 17 5) (fld w 0 17))
  | 0x202 => if fld w 0 10 == 0 then some (.tcopyx (fld w 17 5) (fld w 12 5) (fld w 10 2)) else none
  | 0x203 => if fld w 0 10 == 0 then some (.tfill (fld w 17 5) (fld w 12 5) (fld w 10 2)) else none
  | 0x204 => if fld w 12 5 == 0 then some (.tquery (fld w 17 5) (fld w 0 12)) else none
  | 0x240 => if fld w 0 5 == 0 then some (.wload (fld w 17 5) (fld w 12 5) (fld w 10 2) (fld w 6 4) (fld w 5 1)) else none
  | 0x241 => if fld w 0 22 == 0 then some (.mswap) else none
  | 0x242 => if fld w 10 12 == 0 then some (.mzero (fld w 5 5) (fld w 0 5)) else none
  | 0x243 => some (.mma (fld w 17 5) (fld w 12 5) (fld w 10 2) (fld w 5 5) (fld w 1 4) (fld w 0 1))
  | 0x244 => some (.mmas (fld w 17 5) (fld w 12 5) (fld w 10 2) (fld w 5 5) (fld w 1 4) (fld w 0 1))
  | 0x245 => some (.mmak (fld w 17 5) (fld w 12 5) (fld w 10 2) (fld w 5 5) (fld w 0 5))
  | 0x246 => if fld w 12 5 == 0 && fld w 0 5 == 0 then some (.mscale (fld w 17 5) (fld w 10 2) (fld w 5 5)) else none
  | 0x247 => some (.mdrain (fld w 17 5) (fld w 12 5) (fld w 10 2) (fld w 5 5) (fld w 1 4) (fld w 0 1))
  | 0x248 => if fld w 7 10 == 0 then some (.mread (fld w 17 5) (fld w 5 2) (fld w 0 5)) else none
  | 0x249 => if fld w 1 21 == 0 then some (.mpair (fld w 0 1)) else none
  | 0x24a => if fld w 0 22 == 0 then some (.mfence) else none
  | 0x24b => if fld w 0 10 == 0 then some (.scfg (fld w 17 5) (fld w 12 5) (fld w 10 2)) else none
  | 0x24c => if fld w 0 10 == 0 then some (.sieve (fld w 17 5) (fld w 12 5) (fld w 10 2)) else none
  | 0x280 => if fld w 11 6 == 0 then some (.bind (fld w 17 5) (fld w 8 3) (fld w 0 8)) else none
  | 0x281 => if fld w 7 5 == 0 && fld w 0 2 == 0 then some (.bindx (fld w 17 5) (fld w 12 5) (fld w 2 5)) else none
  | _ => none

/-- The six instruction formats of R19. -/
inductive Format where
  | a | f | i | m | b | e
  deriving DecidableEq, Repr

/-- The format of an internal operation in the DT-1 map (R44); none for a number that the map does not list. -/
def formatOf (op : Nat) : Option Format :=
  match op with
  | 0x001 | 0x006 | 0x009 | 0x00a | 0x00b | 0x00f | 0x010 | 0x011 | 0x012 | 0x014 | 0x016 | 0x019 | 0x01a |
    0x040 | 0x041 | 0x043 | 0x044 | 0x045 | 0x047 | 0x048 | 0x049 | 0x04a | 0x04b | 0x04c | 0x04d | 0x04e | 0x04f
    | 0x053 | 0x054 | 0x055 | 0x056 | 0x05a | 0x05b | 0x05c | 0x05f | 0x066 | 0x067 | 0x068 | 0x06a | 0x06b |
    0x06c | 0x0c0 | 0x0c1 | 0x0c2 | 0x0c4 | 0x0c5 | 0x0c6 | 0x0c7 | 0x0c8 | 0x0c9 | 0x0ca | 0x0cb | 0x0cc | 0x0cd
    | 0x0ce | 0x0cf | 0x0d0 | 0x0d1 | 0x0d2 | 0x0d3 | 0x0d4 | 0x0d5 | 0x140 | 0x144 | 0x145 | 0x146 | 0x147 |
    0x148 | 0x149 | 0x189 | 0x18b | 0x18e | 0x190 | 0x191 | 0x192 | 0x193 | 0x241 | 0x24a | 0x281 => some .a
  | 0x046 | 0x05e | 0x064 | 0x06d | 0x06e | 0x0c3 | 0x0d6 | 0x0d7 | 0x0d8 | 0x18a => some .f
  | 0x00c | 0x00e | 0x013 | 0x015 | 0x017 | 0x018 | 0x042 | 0x050 | 0x051 | 0x052 | 0x057 | 0x058 | 0x059 |
    0x05d | 0x060 | 0x061 | 0x062 | 0x063 | 0x065 | 0x069 | 0x141 | 0x142 | 0x143 | 0x14a | 0x14b | 0x204 | 0x242
    | 0x248 | 0x249 | 0x280 => some .i
  | 0x180 | 0x181 | 0x182 | 0x183 | 0x184 | 0x185 | 0x186 | 0x187 | 0x188 | 0x18c | 0x18d | 0x18f => some .m
  | 0x002 | 0x003 | 0x004 | 0x005 | 0x007 | 0x008 | 0x00d | 0x201 => some .b
  | 0x200 | 0x202 | 0x203 | 0x240 | 0x243 | 0x244 | 0x245 | 0x246 | 0x247 | 0x24b | 0x24c => some .e
  | _ => none

/-- The FORM code of a decode-table entry (R40). -/
def Format.code : Format → Nat
  | .a => 0
  | .f => 1
  | .i => 2
  | .m => 3
  | .b => 4
  | .e => 5

/-- The entry of DT-1 for an opcode (R39, R44): enabled, mapping to itself, FMOD zero. -/
def dt1Entry (op : Nat) : Word :=
  match formatOf op with
  | some f => BitVec.ofNat 32 (2147483648 + f.code * 268435456 + op * 65536)
  | none => 0#32

/-- The whole of DT-1, 768 entries (R39). -/
def dt1 : List Word := (List.range 768).map dt1Entry

/-- The modifiers that FMOD carries, laid out as mod bits 26-12 (R40). -/
def modsOfFmod (f : BitVec 15) : Mods :=
  ⟨f.extractLsb' 12 3, f.extractLsb' 11 1, f.extractLsb' 10 1, f.extractLsb' 8 2, f.extractLsb' 5 3,
    f.extractLsb' 3 2, f.extractLsb' 0 3⟩

/-- The checks of R40 on an enabled entry: reserved bits zero, IOP in the DT-1 map, FORM the operation's, FMOD only
fields that the operation takes, with no reserved value. -/
def entryOk (e : Word) : Bool :=
  let op := (fld e 16 10).toNat
  let ms := modsOfFmod (fld e 0 15)
  fld e 26 2 == 0 && fld e 15 1 == 0 &&
    (match formatOf op with
     | some f => fld e 28 3 == BitVec.ofNat 3 f.code
     | none => false) &&
    !ms.reserved && takesMods op ms

/-- What decoding a word gives: an instruction with the FMOD modifiers of its entry, or the ILLOP reason of R45. -/
inductive Decoded where
  | ok (i : Instr) (fmod : Mods)
  | ill (reason : Nat)
  deriving DecidableEq, Repr

/-- Hint words (R35 to R38): kind 11, or a bit the hint reserves, gives reason 0x06. -/
def decodeHint (w : Word) : Decoded :=
  match (fld w 27 2).toNat with
  | 0 => if fld w 20 7 == 0 then .ok (.ext (fld w 0 20)) Mods.zero else .ill 0x06
  | 1 =>
    if fld w 0 12 == 0 then
      .ok (.mod (fld w 24 3) (fld w 23 1) (fld w 22 1) (fld w 20 2) (fld w 17 3) (fld w 15 2) (fld w 12 3)) Mods.zero
    else .ill 0x06
  | 2 => if fld w 4 23 == 0 then .ok (.sched (fld w 3 1) (fld w 2 1) (fld w 0 2)) Mods.zero else .ill 0x06
  | _ => .ill 0x06

/-- A clause header's fields (R26). -/
def decodeHeader (w : Word) : Instr :=
  .clauseHeader (fld w 17 12) (fld w 13 4) (fld w 9 4) (fld w 4 5) (fld w 2 2) (fld w 1 1) (fld w 0 1)

/-- A word is a clause header: bits 31-29 are 0b111 (R18, R26). -/
def isHeader (w : Word) : Bool := fld w 29 3 == 7

/-- Decoding a word with the entry its opcode has in the team's decode table (R18, R40, R42, R45). Opcode 0x000 is
never enabled. -/
def decodeWord (entry w : Word) : Decoded :=
  if isHeader w then .ok (decodeHeader w) Mods.zero
  else if fld w 29 3 == 6 then decodeHint w
  else if fld w 22 10 == 0 then .ill 0x01
  else if fld entry 31 1 == 0 then .ill 0x02
  else if !entryOk entry then .ill 0x03
  else
    match decodeOp (fld entry 16 10).toNat w with
    | some i => .ok i (modsOfFmod (fld entry 0 15))
    | none => .ill 0x04

/-- Decoding through DT-1 (R39). -/
def decodeDt1 (w : Word) : Decoded := decodeWord (dt1Entry (fld w 22 10).toNat) w

/-- The word of an instruction under DT-1, from the encoding tables of the chapters; an event of the module has none. -/
def encode : Instr → Option Word
  | .clauseHeader w a b l c g f => some (0x7#3 ++ w ++ a ++ b ++ l ++ c ++ g ++ f)
  | .ext p => some (0xc00#12 ++ p)
  | .mod r z s c k o w => some (0x19#5 ++ r ++ z ++ s ++ c ++ k ++ o ++ w ++ 0x0#12)
  | .sched y l c => some (0xd000000#28 ++ y ++ l ++ c)
  | .nop => some (0x1#10 ++ 0x0#22)
  | .bra i => some (0x2#10 ++ 0x0#5 ++ i)
  | .bcNz c i => some (0x3#10 ++ c ++ i)
  | .bcZ c i => some (0x4#10 ++ c ++ i)
  | .recon i => some (0x5#10 ++ 0x0#5 ++ i)
  | .join => some (0x6#10 ++ 0x0#22)
  | .brk n i => some (0x7#10 ++ n ++ i)
  | .call c i => some (0x8#10 ++ c ++ i)
  | .ret a => some (0x9#10 ++ 0x0#5 ++ a ++ 0x0#12)
  | .jmpi a => some (0xa#10 ++ 0x0#5 ++ a ++ 0x0#12)
  | .exit => some (0xb#10 ++ 0x0#22)
  | .exitKill => some (0xb#10 ++ 0x4#22)
  | .trap a i => some (0xc#10 ++ 0x0#5 ++ a ++ i)
  | .yield i => some (0xd#10 ++ 0x0#5 ++ i)
  | .cbar k => some (0xe#10 ++ 0x0#18 ++ k)
  | .gbar => some (0xf#10 ++ 0x0#22)
  | .wait d a b x k => some (0x10#10 ++ d ++ a ++ b ++ 0x0#1 ++ x ++ k ++ 0x0#2)
  | .launch d a => some (0x11#10 ++ d ++ a ++ 0x0#12)
  | .tret s => some (0x12#10 ++ 0x0#19 ++ s ++ 0x0#2)
  | .fwcall d a k => some (0x13#10 ++ d ++ a ++ 0x0#4 ++ k)
  | .trefresh => some (0x14#10 ++ 0x0#22)
  | .lease d a i => some (0x15#10 ++ d ++ a ++ i)
  | .unlease => some (0x16#10 ++ 0x0#22)
  | .rdsr d i => some (0x17#10 ++ d ++ 0x0#5 ++ i)
  | .wrsrFpx a => some (0x18#10 ++ 0x0#5 ++ a ++ 0x20#12)
  | .wrsrXdead a => some (0x18#10 ++ 0x0#5 ++ a ++ 0x13#12)
  | .wrsrTrapvec a => some (0x18#10 ++ 0x0#5 ++ a ++ 0x30#12)
  | .wrsr a i => some (0x18#10 ++ 0x0#5 ++ a ++ i)
  | .mred a b h k => some (0x19#10 ++ 0x0#5 ++ a ++ b ++ 0x0#2 ++ h ++ k ++ 0x0#2)
  | .mredw d h => some (0x1a#10 ++ d ++ 0x0#12 ++ h ++ 0x0#3)
  | .add d a b u p => some (0x40#10 ++ d ++ a ++ b ++ 0x0#4 ++ u ++ p)
  | .sub d a b u p => some (0x41#10 ++ d ++ a ++ b ++ 0x0#4 ++ u ++ p)
  | .addi d a i => some (0x42#10 ++ d ++ a ++ i)
  | .mul d a b p => some (0x43#10 ++ d ++ a ++ b ++ 0x0#5 ++ p)
  | .mulhiS d a b p => some (0x44#10 ++ d ++ a ++ b ++ 0x0#5 ++ p)
  | .mulhiU d a b p => some (0x45#10 ++ d ++ a ++ b ++ 0x0#5 ++ p)
  | .mad d a b c p => some (0x46#10 ++ d ++ a ++ b ++ c ++ p)
  | .minS d a b p => some (0x47#10 ++ d ++ a ++ b ++ 0x0#5 ++ p)
  | .minU d a b p => some (0x48#10 ++ d ++ a ++ b ++ 0x0#5 ++ p)
  | .maxS d a b p => some (0x49#10 ++ d ++ a ++ b ++ 0x0#5 ++ p)
  | .maxU d a b p => some (0x4a#10 ++ d ++ a ++ b ++ 0x0#5 ++ p)
  | .abs d a p => some (0x4b#10 ++ d ++ a ++ 0x0#10 ++ p)
  | .and d a b p => some (0x4c#10 ++ d ++ a ++ b ++ 0x0#5 ++ p)
  | .or d a b p => some (0x4d#10 ++ d ++ a ++ b ++ 0x0#5 ++ p)
  | .xor d a b p => some (0x4e#10 ++ d ++ a ++ b ++ 0x0#5 ++ p)
  | .andn d a b p => some (0x4f#10 ++ d ++ a ++ b ++ 0x0#5 ++ p)
  | .andi d a i => some (0x50#10 ++ d ++ a ++ i)
  | .ori d a i => some (0x51#10 ++ d ++ a ++ i)
  | .xori d a i => some (0x52#10 ++ d ++ a ++ i)
  | .shl d a b p => some (0x53#10 ++ d ++ a ++ b ++ 0x0#5 ++ p)
  | .shr d a b p => some (0x54#10 ++ d ++ a ++ b ++ 0x0#5 ++ p)
  | .sar d a b p => some (0x55#10 ++ d ++ a ++ b ++ 0x0#5 ++ p)
  | .rot d a b p => some (0x56#10 ++ d ++ a ++ b ++ 0x0#5 ++ p)
  | .shli d a n => some (0x57#10 ++ d ++ a ++ 0x0#6 ++ n)
  | .shri d a n => some (0x58#10 ++ d ++ a ++ 0x0#6 ++ n)
  | .sari d a n => some (0x59#10 ++ d ++ a ++ 0x0#6 ++ n)
  | .popc d a p => some (0x5a#10 ++ d ++ a ++ 0x0#10 ++ p)
  | .clz d a p => some (0x5b#10 ++ d ++ a ++ 0x0#10 ++ p)
  | .brev d a p => some (0x5c#10 ++ d ++ a ++ 0x0#10 ++ p)
  | .bfe d a s l o => some (0x5d#10 ++ d ++ a ++ s ++ l ++ o)
  | .bfi d a b c p => some (0x5e#10 ++ d ++ a ++ b ++ c ++ p)
  | .cmp d a b k p => some (0x5f#10 ++ d ++ a ++ b ++ k ++ p)
  | .cmpiEq d a i => some (0x60#10 ++ d ++ a ++ i)
  | .cmpiLtS d a i => some (0x61#10 ++ d ++ a ++ i)
  | .cmpiLtU d a i => some (0x62#10 ++ d ++ a ++ i)
  | .cmpiNe d a i => some (0x63#10 ++ d ++ a ++ i)
  | .sel d a b c p => some (0x64#10 ++ d ++ a ++ b ++ c ++ p)
  | .movi d i => some (0x65#10 ++ d ++ 0x0#5 ++ i)
  | .mov d a p => some (0x66#10 ++ d ++ a ++ 0x0#10 ++ p)
  | .add64 d a b p => some (0x67#10 ++ d ++ a ++ b ++ 0x0#5 ++ p)
  | .sub64 d a b p => some (0x68#10 ++ d ++ a ++ b ++ 0x0#5 ++ p)
  | .addi64 d a i => some (0x69#10 ++ d ++ a ++ i)
  | .lea64 d a b u s p => some (0x6a#10 ++ d ++ a ++ b ++ u ++ s ++ p)
  | .rng d a b p => some (0x6b#10 ++ d ++ a ++ b ++ 0x0#5 ++ p)
  | .cvtI d a t s p => some (0x6c#10 ++ d ++ a ++ 0x0#5 ++ t ++ s ++ p)
  | .dot4S8 d a b c p => some (0x6d#10 ++ d ++ a ++ b ++ c ++ p)
  | .dot4U8 d a b c p => some (0x6e#10 ++ d ++ a ++ b ++ c ++ p)
  | .fadd d a b p => some (0xc0#10 ++ d ++ a ++ b ++ 0x0#5 ++ p)
  | .fsub d a b p => some (0xc1#10 ++ d ++ a ++ b ++ 0x0#5 ++ p)
  | .fmul d a b p => some (0xc2#10 ++ d ++ a ++ b ++ 0x0#5 ++ p)
  | .ffma d a b c p => some (0xc3#10 ++ d ++ a ++ b ++ c ++ p)
  | .fmin d a b p => some (0xc4#10 ++ d ++ a ++ b ++ 0x0#5 ++ p)
  | .fmax d a b p => some (0xc5#10 ++ d ++ a ++ b ++ 0x0#5 ++ p)
  | .fcmp d a b k p => some (0xc6#10 ++ d ++ a ++ b ++ k ++ p)
  | .fabs d a p => some (0xc7#10 ++ d ++ a ++ 0x0#10 ++ p)
  | .fneg d a p => some (0xc8#10 ++ d ++ a ++ 0x0#10 ++ p)
  | .frcp d a p => some (0xc9#10 ++ d ++ a ++ 0x0#10 ++ p)
  | .frsq d a p => some (0xca#10 ++ d ++ a ++ 0x0#10 ++ p)
  | .fexp2 d a p => some (0xcb#10 ++ d ++ a ++ 0x0#10 ++ p)
  | .flog2 d a p => some (0xcc#10 ++ d ++ a ++ 0x0#10 ++ p)
  | .sincosT d a p => some (0xcd#10 ++ d ++ a ++ 0x0#10 ++ p)
  | .fround d a p => some (0xce#10 ++ d ++ a ++ 0x0#10 ++ p)
  | .fclass d a p => some (0xcf#10 ++ d ++ a ++ 0x0#10 ++ p)
  | .fscale d a b p => some (0xd0#10 ++ d ++ a ++ b ++ 0x0#5 ++ p)
  | .cvtFi d a t s p => some (0xd1#10 ++ d ++ a ++ 0x0#5 ++ t ++ s ++ p)
  | .cvtIf d a t s p => some (0xd2#10 ++ d ++ a ++ 0x0#5 ++ t ++ s ++ p)
  | .cvtFf d a s n t p => some (0xd3#10 ++ d ++ a ++ 0x0#2 ++ s ++ 0x0#1 ++ n ++ t ++ p)
  | .hadd2 d a b y p => some (0xd4#10 ++ d ++ a ++ b ++ 0x0#4 ++ y ++ p)
  | .hmul2 d a b y p => some (0xd5#10 ++ d ++ a ++ b ++ 0x0#4 ++ y ++ p)
  | .hfma2 d a b c p => some (0xd6#10 ++ d ++ a ++ b ++ c ++ p)
  | .fdot2 d a b c p => some (0xd7#10 ++ d ++ a ++ b ++ c ++ p)
  | .fdot4F8 d a b c p => some (0xd8#10 ++ d ++ a ++ b ++ c ++ p)
  | .shflIdx d a b s p => some (0x140#10 ++ d ++ a ++ b ++ 0x0#2 ++ s ++ p)
  | .shflXor d a k => some (0x141#10 ++ d ++ a ++ 0x0#2 ++ k)
  | .shflPrv d a k => some (0x142#10 ++ d ++ a ++ 0x0#2 ++ k)
  | .shflNxt d a k => some (0x143#10 ++ d ++ a ++ 0x0#2 ++ k)
  | .voteAny d a p => some (0x144#10 ++ d ++ a ++ 0x0#10 ++ p)
  | .voteAll d a p => some (0x145#10 ++ d ++ a ++ 0x0#10 ++ p)
  | .ballot d a p => some (0x146#10 ++ d ++ a ++ 0x0#10 ++ p)
  | .matchLanes d a m p => some (0x147#10 ++ d ++ a ++ 0x0#5 ++ m ++ p)
  | .redux d a m p => some (0x148#10 ++ d ++ a ++ 0x0#5 ++ m ++ p)
  | .scan d a m p => some (0x149#10 ++ d ++ a ++ 0x0#5 ++ m ++ p)
  | .cxch d a y k j => some (0x14a#10 ++ d ++ a ++ 0x0#2 ++ y ++ k ++ j)
  | .bcast d a k => some (0x14b#10 ++ d ++ a ++ 0x0#2 ++ k)
  | .ld t a x o => some (0x180#10 ++ t ++ a ++ x ++ o)
  | .st t a x o => some (0x181#10 ++ t ++ a ++ x ++ o)
  | .ldx t a o => some (0x182#10 ++ t ++ a ++ 0x6#3 ++ o)
  | .ldAcq t a x o => some (0x183#10 ++ t ++ a ++ 0x2#2 ++ x ++ o)
  | .stRel t a x o => some (0x184#10 ++ t ++ a ++ 0x2#2 ++ x ++ o)
  | .ldAcqp t a x o => some (0x185#10 ++ t ++ a ++ 0x2#2 ++ x ++ o)
  | .stNt t a x o => some (0x186#10 ++ t ++ a ++ x ++ o)
  | .ntdrain => some (0x187#10 ++ 0x0#22)
  | .fence x => some (0x188#10 ++ 0x0#10 ++ x ++ 0x0#9)
  | .atom d a b m p => some (0x189#10 ++ d ++ a ++ b ++ m ++ p)
  | .cas d a b c p => some (0x18a#10 ++ d ++ a ++ b ++ c ++ p)
  | .red a b m p => some (0x18b#10 ++ 0x0#5 ++ a ++ b ++ m ++ p)
  | .lds t a x o => some (0x18c#10 ++ t ++ a ++ x ++ o)
  | .sts t a x o => some (0x18d#10 ++ t ++ a ++ x ++ o)
  | .atoms d a b m p => some (0x18e#10 ++ d ++ a ++ b ++ m ++ p)
  | .pref a o => some (0x18f#10 ++ 0x0#5 ++ a ++ 0x4#3 ++ o)
  | .qinit a b p => some (0x190#10 ++ 0x0#5 ++ a ++ b ++ 0x0#5 ++ p)
  | .qsend a b p => some (0x191#10 ++ 0x0#5 ++ a ++ b ++ 0x0#5 ++ p)
  | .qrecv d a p => some (0x192#10 ++ d ++ a ++ 0x0#10 ++ p)
  | .qtry d a p => some (0x193#10 ++ d ++ a ++ 0x0#10 ++ p)
  | .tcopy a f => some (0x200#10 ++ a ++ 0x0#5 ++ f ++ 0x0#10)
  | .tcopyY c i => some (0x201#10 ++ c ++ i)
  | .tcopyx a b f => some (0x202#10 ++ a ++ b ++ f ++ 0x0#10)
  | .tfill a b f => some (0x203#10 ++ a ++ b ++ f ++ 0x0#10)
  | .tquery d s => some (0x204#10 ++ d ++ 0x0#5 ++ s)
  | .wload a b f k q => some (0x240#10 ++ a ++ b ++ f ++ k ++ q ++ 0x0#5)
  | .mswap => some (0x241#10 ++ 0x0#22)
  | .mzero n t => some (0x242#10 ++ 0x0#12 ++ n ++ t)
  | .mma a b f t k w => some (0x243#10 ++ a ++ b ++ f ++ t ++ k ++ w)
  | .mmas a b f t k w => some (0x244#10 ++ a ++ b ++ f ++ t ++ k ++ w)
  | .mmak a b f t m => some (0x245#10 ++ a ++ b ++ f ++ t ++ m)
  | .mscale a f t => some (0x246#10 ++ a ++ 0x0#5 ++ f ++ t ++ 0x0#5)
  | .mdrain a b f t k q => some (0x247#10 ++ a ++ b ++ f ++ t ++ k ++ q)
  | .mread d g t => some (0x248#10 ++ d ++ 0x0#10 ++ g ++ t)
  | .mpair o => some (0x249#10 ++ 0x0#21 ++ o)
  | .mfence => some (0x24a#10 ++ 0x0#22)
  | .scfg a b f => some (0x24b#10 ++ a ++ b ++ f ++ 0x0#10)
  | .sieve a b f => some (0x24c#10 ++ a ++ b ++ f ++ 0x0#10)
  | .bind d n r => some (0x280#10 ++ d ++ 0x0#6 ++ n ++ r)
  | .bindx d a n => some (0x281#10 ++ d ++ a ++ 0x0#5 ++ n ++ 0x0#2)
  | .waitWakeup _ => none
  | .loadComplete _ _ => none
  | .promotionRequest _ _ => none
  | .promotionRepliesComplete _ => none
  | .copyStart _ _ => none
  | .copyComplete _ _ => none
  | .copyFreeze _ _ => none
  | .matrixCommandStart _ => none
  | .matrixCommandComplete _ => none
  | .matrixFreeze _ => none
  | .mpairCinch _ => none
  | .mpairLate _ => none
  | .trapEntry _ => none
  | .frqStallRetry _ => none
  | .translationWalk _ => none
  | .teamEnd _ => none
  | .gridDispatch _ => none
  | .clusterPlace _ _ => none
  | .harvestPlace _ _ => none
  | .leaveGrant _ => none
  | .tokenRefill => none
  | .bubbleEnd => none
  | .hang _ => none
  | .mredPartialArrival _ => none
  | .mredForward _ _ _ => none
  | .mredGiveUp _ _ _ _ => none
  | .preemptRequest _ => none
  | .teamResume _ _ => none
  | .harvestRevoke _ => none
  | .harvestRestart _ => none
  | .leaseScrub _ => none
  | .exclusiveListProcess _ => none
  | .ridTagFlush => none
  | .poisonListMove _ => none
  | .meshLinkRetire _ _ => none
  | .query _ => none
  | .attest _ => none
  | .hostReset _ => none
  | .peerAdd _ => none
  | .powerCap _ => none
  | .ctxCreate _ => none
  | .ctxDestroy _ => none
  | .partSet _ => none
  | .harvestGrant _ => none
  | .decodeLoad _ => none
  | .memAlloc _ => none
  | .hostMap _ => none
  | .unmap _ => none
  | .remap _ => none
  | .snapshot _ => none
  | .fork _ => none
  | .hostWrite _ => none
  | .hostRead _ => none
  | .hostLaunch _ => none
  | .gridWait _ => none
  | .suspend _ => none
  | .resume _ => none
  | .checkpoint _ => none
  | .checkpointDone => none
  | .restore _ => none
  | .ctxScrubDone _ => none
  | .remoteRead _ => none
  | .remoteWrite _ => none
  | .remoteAtomic _ => none
  | .remoteReply _ => none
  | .acknowledgement _ => none
  | .laziaRetransmitTimeout _ => none
  | .resetN _ => none
  | .boot _ => none
  | .powerLoss => none
  | .thermalThrottle _ _ => none
  | .thermalRecover _ _ => none
  | .thermalShutdown _ _ => none
  | .storePerformedAtHome _ => none
  | .externalLimit _ => none
  | .restoreComplete => none
  | .l2WriteBack _ => none

/-- The instruction the decoder reads from a table row's word: one 32-bit word, stored little-endian (R1, R18). -/
def decodeTableWord (nbits w : Nat) : Option Instr :=
  if nbits ≤ 32 then
    match decodeDt1 (BitVec.ofNat 32 w) with
    | .ok i _ => some i
    | .ill _ => none
  else none

end Sys2Proof
end

