-- ==== Sys2Proof/Machine/State.lean ====
section
/-! DEFINITION. The machine as plain data: everything the spec gives the PZ-4096, and the state right after reset.
A sparse store is a list of (key, value) pairs with rising keys and no entry equal to the store's default
(Machine/Sparse.lean). Lists of records are in order of arrival unless a field says otherwise. -/

namespace Sys2Proof.Machine

/-! ### Kernel headers, launch descriptors and fault records -/

/-- A kernel header (R295): its six words, as read. -/
structure KHdr where
  entry : Word
  partword : Word
  scratch : Word
  preload : Word
  shape : Word
  mode : Word
  deriving DecidableEq, Repr

/-- A launch descriptor (R298). -/
structure LaunchDesc where
  khdr : DWord
  code : DWord
  param : DWord
  gx : Word
  gy : Word
  gz : Word
  ctl : Word
  indv : DWord
  done : DWord
  deriving DecidableEq, Repr

/-- A fault record before it has an index (R334): class, group, pc, lanes of the group, address, aux, delivered mark. -/
structure Rec where
  cls : Nat
  grp : Nat
  pc : Word
  lmask : BitVec 128
  addr : DWord
  aux : DWord
  dlv : Bool
  deriving DecidableEq, Repr

/-- A root descriptor (R102): RID, GEN, LVL and the PA of the top node. -/
structure RootDesc where
  rid : BitVec 16
  gen : BitVec 16
  lvl : Nat
  node : Nat
  deriving DecidableEq, Repr

/-! ### The team -/

/-- KIND of a reconvergence entry (R275). -/
inductive StackKind where
  | recon | split | call
  deriving DecidableEq, Repr

/-- An entry of the reconvergence stack (R275). -/
structure StackEntry where
  kind : StackKind
  rpc : Word
  rmask : Mask
  ppc : Word
  pmask : Mask
  deriving DecidableEq, Repr

/-- The fields of the clause header in force (R26), and the compaction of a sched hint (R38). -/
structure Clause where
  seta : BitVec 4
  setb : BitVec 4
  len : Nat
  comp : BitVec 2
  yld : Bool
  deriving DecidableEq, Repr

/-- The hints read and not yet applied (R35): the word index of the unit's first hint, and each hint seen. -/
structure Hints where
  start : Nat
  sched : Bool
  mod : Option Mods
  modIx : Nat
  modWord : Word
  ext : Option (BitVec 20)
  deriving DecidableEq, Repr

/-- A lane that consumes poison (R97): the lane, the address accessed and the hop code of R94. -/
structure Loss where
  lane : Nat
  addr : DWord
  hop : Nat
  deriving DecidableEq, Repr

/-- One lane's access to memory: its lane, physical and virtual address, size, extension, destination registers. -/
structure Access where
  lane : Nat
  pa : Nat
  va : DWord
  size : Nat
  sgn : Bool
  dsts : List Nat
  deriving DecidableEq, Repr

/-- What one lane of a lane-partial instruction meets (R105, R140, R371): class, address, aux. -/
structure LaneFault where
  lane : Nat
  cls : Nat
  addr : DWord
  aux : DWord
  deriving DecidableEq, Repr

/-- A load of one lane that its memory may still serve anew (R31, R258): the access, for a decoding read the format and
the scale (R166), and the root whose tree named its address, which it pins (R109); for an lds the team whose scratchpad its
address names, of which acc.pa is the offset (R145). -/
structure Reread where
  acc : Access
  decode : Option (Nat × Nat)
  root : RootDesc
  scr : Option Nat
  deriving DecidableEq, Repr

/-- What a multi-lane memory instruction has done so far (R162, R163): its flag, the lanes that fault, register writes and
poison losses of the lanes that are done, lanes lost in reading their operands, the registers owed, the address of each
lane whose value is on its way, whether its loads read at the home, an acquire at .cl or wider, an acquire at any scope, the
loads that may be read anew, and the cores whose promotion it asks for with the accesses that wait for it (R266). -/
structure MemOp where
  flag : Option Nat
  faults : List LaneFault
  writes : List (Nat × Word)
  losses : List Loss
  lost : List Loss
  dests : List Nat
  vas : List (Nat × DWord)
  home : Bool
  acquire : Bool
  acquires : Bool
  again : List Reread
  promote : Option (List Nat × List Access)
  deriving DecidableEq, Repr

/-- What a pending flag-counted instruction still waits for before LOAD_COMPLETE (R31, R266, R322, R219, R370). -/
inductive PendWait where
  /-- the values are in flight to the registers -/
  | data
  /-- an ld.acqp waits for the replies of these cores (R266) -/
  | promote (cores : List Nat) (accs : List Access)
  /-- a mredw waits for the tree of reduction k of its channel (R322); the four destination registers -/
  | tree (ch k : Nat) (dsts : List Nat)
  /-- an mread waits for its place in the matrix queue (R237) -/
  | matrix
  deriving DecidableEq, Repr

/-- A pending flag-counted instruction (R30, R31): the flag it counts on, the destinations it
owes (keys lane * 256 + register), their values, the address of each lane whose value is on its way, the lanes its poison
will lose, the destinations whose value a fixed-latency write contests (R33), whether a handler issued it (R343), and the
loads that may still be read anew, and whether at the home (R31, R258; log entry 15), and whether it is an acquire (R239). -/
structure Pend where
  seq : Nat
  flag : Nat
  wait : PendWait
  dests : List Nat
  writes : List (Nat × Word)
  vas : List (Nat × DWord)
  losses : List Loss
  contested : List Nat
  pc : Word
  handler : Bool
  again : List Reread
  home : Bool
  acquires : Bool
  deriving DecidableEq, Repr

/-- A block (R313, R134, R361, R343): what the team waits for at the end of a clause. -/
inductive Block where
  | cbar (id : Nat)
  | gbar
  /-- external mark X, condition, destination register, address, comparand, last value read, clock at the start,
  external limit reached -/
  | wait (x : Bool) (cond dst : Nat) (va : DWord) (v last : Word) (since : Nat) (limit : Bool)
  /-- the owner's uid, the queue, the handle to send, the queue name -/
  | qsend (owner q : Nat) (handle : DWord) (name : Word)
  /-- the queue, the destination registers and lanes, its flag, the queue name -/
  | qrecv (q : Nat) (dsts : List Nat) (lanes : Mask) (flag : Nat) (name : Word)
  /-- tcopy.y: the command's number and the continuation -/
  | copy (seq : Nat) (target : Word)
  /-- fwcall: the code, destination registers, scratch address of the block, its 64 bytes; then status and result; clock at
  the start, external limit reached -/
  | fwcall (code : Nat) (dsts : List Nat) (addr : Word) (blk : List Byte) (result : Option (Word × Word)) (since : Nat)
    (limit : Bool)
  /-- a barrier generation that completed while its team was in a handler: a retry goes on at once -/
  | over
  /-- tret waits for what the handler issued (R343) -/
  | tret (skip : Bool)
  deriving DecidableEq, Repr

/-- What follows the append of a team's records (R330, R336, R338, R342, R345, R97). -/
inductive TrapEnd where
  /-- the handler is entered; the frozen commands that this entry delivers (FST.DLV), by number -/
  | enter (deliver : List Nat)
  /-- the grid ends: a fault in a handler (HND, KILL) -/
  | killHandler
  /-- the grid ends: no handler, no frame, or its first word cannot be fetched (NOH, KILL) -/
  | killNoHandler
  /-- record only: the lanes named are dead already (R97); the team goes on -/
  | lost
  /-- a lane loss or a poisoned word that ends the grid, or commands frozen with no live lane (KILL; R97, R129) -/
  | kill
  deriving DecidableEq, Repr

/-- Records that wait to be appended (R336): those of lost lanes, then those of the trap itself, the resume mask, what
follows, and whether the trap is the team's and no lane's (R330). -/
structure Trap where
  pre : List Rec
  recs : List Rec
  rmask : Mask
  fin : TrapEnd
  wide : Bool
  deriving DecidableEq, Repr

/-- What trap entry saves with the team (R338, R340): bindings, the height of the stack (the handler's base), the
resume mask and the active mask, the block, the virtual address of the frame, the HDR and WIX that it wrote there, the
clause that stopped with its fields and the index of the stopped word, the commands whose freezing it delivers, and whether
the trap was an ILLOP at a clause header (R46). -/
structure Handler where
  binds : Vector (Option (BitVec 8)) 32
  base : Nat
  rmask : Mask
  amask : Mask
  block : Option Block
  frameVa : DWord
  hdrPc : Word
  wix : Nat
  pc : Word
  stop : Nat
  clause : Clause
  delivered : List Nat
  illHdr : Bool
  deriving DecidableEq, Repr

/-- A scratchpad queue (R148): entries oldest first with their sender; the allowance of each cluster index. -/
structure SQueue where
  q : Nat
  base : Nat
  lcap : Nat
  head : Nat
  tail : Nat
  entries : List (DWord × Nat)
  pmask : BitVec 16
  allow : List Nat
  deriving DecidableEq, Repr

/-- A plane of the matrix array (R217): tag code, the tag that each column was loaded with (R231), element codes by key
k * 32 + column, scales by key j * 32 + column (an E8M0 byte, or the FP32 block scale for q4n), poisoned columns, and by column one
more than the number of the command that loaded it. -/
structure Plane where
  tag : Nat
  colTag : List (Nat × Nat)
  elems : List (Nat × Nat)
  scales : List (Nat × Nat)
  bad : List (Nat × Bool)
  loader : List (Nat × Nat)
  deriving DecidableEq, Repr

/-- The sieve configuration (R245): sketches by key row * 64 + element. -/
structure SieveCfg where
  nq : Nat
  sketch : List (Nat × Int)
  tau : Nat
  sink : Nat
  recent : Nat
  deriving DecidableEq, Repr

/-- A word whose lanes await a peer (R370, R371): the tags of the requests still out, and the rest of the instruction. The
team keeps its core's issue slot meanwhile (R29; log entry 74). -/
structure Hold where
  tags : List Nat
  op : MemOp
  deriving DecidableEq, Repr

/-- What a lane gets of a cross-lane word whose sources have been gathered (R208): the lane, its result word, the exception bits
and DRD that it will set with it. -/
structure Gain where
  lane : Nat
  word : Word
  flags : Nat
  drd : Bool
  deriving DecidableEq, Repr

/-- Where a team is (R304, R347, R397, R399). -/
inductive Place where
  /-- resident and free to issue -/
  | resident
  /-- halted and saved by a pre-emption (R346, R347) -/
  | saved
  /-- a harvest team held after a revocation until its trigger ends (R397) -/
  | held
  /-- a harvest team evicted from its core and waiting for placement (R399) -/
  | evicted
  /-- ended; its scratchpad stays until the last team of its cluster has ended (R140) -/
  | ended
  deriving DecidableEq, Repr

/-- A team (R10, R347). uid is the model's own name of the team. paired names the partner and tells whether this is the
even team (R240). granules are the 4 KiB granules of its core's scratchpad that an owner or normal team's allocation takes
(R137), leases those that a harvest team's lease holds (R393), in the order of its offsets. hold is a word that awaits a
peer; pass the lanes of the passes that the issue unit lets go now, none for all that are left; begun tells that a pass of
the word at the team's place has issued and nothing has stopped it since (R162, R293, R351); faulted are the faults that its passes
have met, and done the lanes that they have completed (R163, R262). -/
structure Team where
  uid : Nat
  ctx : Nat
  grid : Nat
  clus : Nat
  index : Nat
  core : Nat
  slot : Nat
  place : Place
  hdr : KHdr
  desc : LaunchDesc
  table : List Word
  root : RootDesc
  regs : List (Nat × Word)
  regBad : List (Nat × Bool)
  binds : Vector (Option (BitVec 8)) 32
  live : Mask
  dead : Mask
  active : Mask
  resume : Option Mask
  stack : List StackEntry
  pc : Word
  wix : Nat
  ir : Word
  fmod : Mods
  clause : Clause
  hints : Option Hints
  flags : Vector Nat 12
  fpx : List (Nat × BitVec 4)
  xdead : List (Nat × Bool)
  icnt : Word
  trapvec : Word
  hrev : Word
  restart : Word
  granules : List Nat
  leases : List Nat
  scr : List (Nat × Byte)
  scrBad : List (Nat × Bool)
  queues : List SQueue
  tiles : List (Nat × Word)
  tileBad : List (Nat × Bool)
  plane : Plane
  shadow : Plane
  sieve : SieveCfg
  paired : Option (Nat × Bool)
  pairCount : Nat
  pend : List Pend
  block : Option Block
  hold : Option Hold
  trap : Option Trap
  handler : Option Handler
  frame : Option Nat
  pass : Option Mask
  begun : Bool
  faulted : List LaneFault
  done : Mask
  gather : Option (List Gain)
  readyAt : Nat
  wasReady : Bool
  mredCount : Vector Nat 4
  deriving DecidableEq, Repr

/-! ### Engines -/

/-- Progress of an engine command (R119, R120, R219, R220): waiting in its queue, waiting for leave, running, frozen and
not yet delivered, held behind the team's frozen command, or on its way back to the queue after a trap, until an entry frees. -/
inductive Stage where
  | waiting | asking | running | frozen | heldBack | returning
  deriving DecidableEq, Repr

/-- What every engine command keeps of its instruction: number, team, core, PC, flag, the lanes of its record
(R127), the pinned root (R106), the store-path bound its reads follow (R130, R229), whether a handler issued it, and the
record of its freezing while that is not delivered (R127); and, of a command that has stopped, what the global bytes held that it
has written in unfinished sectors, the lines there that it has poisoned, and where the journal then stood (R129, R228). -/
structure Issue where
  seq : Nat
  uid : Nat
  core : Nat
  pc : Word
  word : Word
  flag : Option Nat
  grp : Nat
  lmask : BitVec 128
  root : RootDesc
  bound : Nat
  handler : Bool
  record : Option Rec
  undo : List (Nat × Byte)
  undoBad : List Nat
  stood : Nat
  deriving DecidableEq, Repr

/-- How a copy command gets its source elements (R133). -/
inductive CopyKind where
  | copy
  /-- tcopyx: the token position (R126) -/
  | extent (pos : Word)
  /-- tfill: the value -/
  | fill (v : DWord)
  deriving DecidableEq, Repr

/-- A copy command (R118 to R129): its descriptor's fields, the next element n, where the journal stood when it was accepted and
when it first started (R132), and the base of the free values that settle its races with other writers (R132). -/
structure CopyCmd where
  iss : Issue
  kind : CopyKind
  src : DWord
  dst : DWord
  ctl : Word
  xlst : DWord
  dims : List (Nat × Int × Int)
  stage : Stage
  n : Nat
  born : Nat
  mark : Nat
  draw : Nat
  deriving DecidableEq, Repr

/-- A sieve descriptor (R247). -/
structure SieveDesc where
  xlst : DWord
  sctl : Word
  koff : Word
  pos : Word
  deriving DecidableEq, Repr

/-- What a matrix or sieve command does (R231 to R237, R246, R250, R253, R239); operands are read or resolved at issue. -/
inductive MatOp where
  | wload (base stride : DWord) (sf : Nat) (scratch : Bool)
  | mswap
  | mzero (n t : Nat)
  /-- the 16 main registers of A, the scale register, tile, AF, swap, executing lanes -/
  | mma (a : List Nat) (b : Option Nat) (t af : Nat) (sw : Bool) (lanes : Mask)
  | mmas (base rowctl : Word) (t af : Nat) (sw : Bool)
  /-- the selected tiles of keys in order, as (tile, keys) pairs -/
  | mmak (d : SieveDesc) (sel : List Nat) (t : Nat)
  | mscale (a t : Nat) (lanes : Mask)
  | mdrain (base rstr : DWord) (ctl : Word) (t df : Nat) (scratch : Bool)
  | mread (d : List Nat) (t cg : Nat) (lanes : Mask)
  | scfg (base tau ctl : Word)
  | sieve (d : SieveDesc) (m : Nat)
  | mfence
  /-- it has taken effect at acceptance, for the commands after it (R240) -/
  | mpair
  deriving DecidableEq, Repr

/-- A matrix or sieve command (R219): the next row, column or tile n, the filled part of the sieve buffer with the
configuration it started under (R250), its number among paired commands with its partner's uid and whether it is the even
team's, and the clock of its post (R241), the lanes whose asynchronously read registers were written while it was pending
(R224) or whose mask word a fixed-latency write contests (R33), the lanes whose mask word a later instruction has written
(R33), where the journal stood when it was accepted (R231), and the tag of a wload's columns with the bytes that each was read
from, by column (R231). -/
structure MatCmd where
  iss : Issue
  op : MatOp
  stage : Stage
  n : Nat
  swapped : Bool
  buf : List (Nat × Int)
  cfg : Option SieveCfg
  pair : Option (Nat × Nat × Bool)
  posted : Option Nat
  taint : List Nat
  gone : List Nat
  mark : Nat
  tag : Nat
  read : List (Nat × Nat)
  deriving DecidableEq, Repr

/-! ### Memory system -/

/-- What waits in a core's store path (R262 to R271, R370): bytes to be written, a red request, a fence or drain mark, a
launch's release. -/
inductive StoreKind where
  | st | nt
  /-- the store of an st.rel: a release at the scope code of R255 -/
  | rel (scope : Nat)
  /-- a red request: operation and release mark; data holds the combined operand -/
  | red (op : Nat) (release : Bool) (scope : Nat)
  /-- a release fence, or a fence with both sides -/
  | fence (scope : Nat)
  | ntdrain (scope : Nat)
  /-- a store to the scratchpad of team `to` at its offset (R144) -/
  | scr (into : Nat)
  /-- the release of a launch (R300) -/
  | launch
  deriving DecidableEq, Repr

/-- An entry of the store path, in issue order over the whole module: shown tells that a release at .cr or wider has come
after it, so that the core's teams must see it (R255, R264); root is the tree that named its address, which it pins (R109);
grp numbers the instruction, or the write-combining buffer, whose pieces may together write a whole line (R262, R267). -/
structure StoreEnt where
  seq : Nat
  core : Nat
  uid : Nat
  kind : StoreKind
  addr : Nat
  data : List Byte
  shown : Bool
  root : RootDesc
  grp : Nat
  deriving DecidableEq, Repr

/-- A write performed while an engine holds commands (R132, R231): the space (none for physical memory, else the team of a
scratchpad), the bytes, whether an engine command made it, the team and number of the entry of the store path, or of the matrix
command, that made it, and the number of the engine command. -/
structure WriteRec where
  space : Option Nat
  addr : Nat
  len : Nat
  bulk : Bool
  src : Option (Nat × Nat)
  cmd : Option Nat
  deriving DecidableEq, Repr

/-- A data line held by a core's L1 (R87), or an instruction line (R88), as it was read. -/
structure Line where
  core : Nat
  line : Nat
  data : List Byte
  deriving DecidableEq, Repr

/-- A row held in a core's operand line buffer (R229). -/
structure BufLine where
  core : Nat
  uid : Nat
  off : Nat
  data : List Byte
  deriving DecidableEq, Repr

/-! ### Clusters and mesh reductions -/

/-- A partial sum on the mesh (R319, R321): 32 elements, absent where none; the contributors; a node gave up a child; the hop
code of poison in it, 0 for none (R94, R96). -/
structure Packet where
  elems : List (Option Word)
  contrib : BitVec 16
  expired : Bool
  bad : Nat
  deriving DecidableEq, Repr

/-- A router node during one reduction k of a channel (R319 to R322): its own packet, COL and WIN, the cycle its clock
started, the children's partials, the children given up; sent when it has forwarded. -/
structure Node where
  ch : Nat
  node : Nat
  k : Nat
  own : Option Packet
  col : Bool
  win : Nat
  start : Option Nat
  inputs : List (Nat × Packet)
  gaveUp : List Nat
  sent : Bool
  deriving DecidableEq, Repr

/-- A partial in flight from a node to its parent. -/
structure Partial where
  ctx : Nat
  grid : Nat
  clus : Nat
  ch : Nat
  k : Nat
  src : Nat
  dst : Nat
  col : Bool
  win : Nat
  packet : Packet
  deriving DecidableEq, Repr

/-- A barrier id of a cluster (R314): its generation and the cluster indices that have arrived. -/
structure Bar where
  id : Nat
  gen : Nat
  arrived : List Nat
  deriving DecidableEq, Repr

/-- A placed cluster (R10, R305): origin core coordinates, size, barriers, ended teams, router nodes. -/
structure Cluster where
  ctx : Nat
  grid : Nat
  lin : Nat
  x0 : Nat
  y0 : Nat
  w : Nat
  h : Nat
  bars : List Bar
  ended : List Nat
  nodes : List Node
  deriving DecidableEq, Repr

/-! ### Grids and contexts -/

/-- STATE of GRID_WAIT (R367). -/
inductive GridSt where
  | queued | running | suspended | complete | killed | refused
  deriving DecidableEq, Repr

/-- The role of current team of a reproducible grid on a core (R309): the logical index of the last current team, and
whether it still holds the role. -/
structure Role where
  core : Nat
  last : Nat
  held : Bool
  deriving DecidableEq, Repr

/-- A grid (R301 to R306, R367); disp numbers the dispatches. -/
structure Grid where
  num : Nat
  desc : LaunchDesc
  st : GridSt
  reason : Nat
  killTeam : Nat
  killClus : Nat
  killPc : Word
  hdr : KHdr
  table : List Word
  size : Nat × Nat × Nat
  disp : Nat
  next : Nat
  ended : Nat
  held : Bool
  release : Option Nat
  gbarGen : Nat
  gbarIn : List Nat
  roles : List Role
  deriving DecidableEq, Repr

/-- A decode table loaded for a context (R39, R366). -/
structure Table where
  id : Nat
  entries : List Word
  deriving DecidableEq, Repr

/-- A context (R12, R363). -/
structure Context where
  id : Nat
  hang : Word
  trapv : Word
  home : Nat
  minl : Nat
  tfrb : Word
  frqb : Word
  frqh : Word
  frqt : Word
  lineage : Nat
  current : RootDesc
  tables : List Table
  quotaG : Nat
  quotaL : Nat
  cores : List Nat
  owned : List Nat
  hvok : Bool
  nextGrid : Nat
  grids : List Grid
  hangCount : Nat
  dying : Bool
  deriving DecidableEq, Repr

/-- The life of a root (R110). -/
inductive RootLife where
  | current | retired | released | freed
  deriving DecidableEq, Repr

/-- A root firmware keeps (R103, R110, R114), with the context it serves. -/
structure RootRec where
  lineage : Nat
  ctx : Nat
  desc : RootDesc
  life : RootLife
  snap : Bool
  excl : List Nat
  deriving DecidableEq, Repr

/-- A node frame (R99, R111): its PA, level and the lineages that hold it. -/
structure NodeRec where
  pa : Nat
  level : Nat
  lineages : List Nat
  deriving DecidableEq, Repr

/-- A data or side frame (R111, R358): its PA, size in 64 KiB frames (0 for a side frame), the leaf entries that name
it, and the context charged for it. -/
structure FrameRec where
  pa : Nat
  units : Nat
  count : Nat
  charged : Nat
  deriving DecidableEq, Repr

/-! ### Module -/

/-- An entry of a core's leaf cache (R112): RID, level of the leaf and VA above its page, and the translation and permissions
held. -/
structure LeafEnt where
  rid : Nat
  lvl : Nat
  tag : Nat
  frame : Nat
  fmt : Nat
  side : Nat
  rd : Bool
  wr : Bool
  ex : Bool
  deriving DecidableEq, Repr

/-- An entry of a die's path cache (R112): RID and VA 47-24; the PA of the level-0 node, or a large page's leaf entry as
stored with its level; the OR of ATTEN along the path. -/
structure PathEnt where
  rid : Nat
  tag : Nat
  node : Option Nat
  large : Option (Nat × Nat)
  atten : Bool
  deriving DecidableEq, Repr

/-- An entry of a die's leaf-entry cache (R112): PA of the level-0 node, VA 23-16, and the 16 bytes stored. -/
structure EntryEnt where
  node : Nat
  ix : Nat
  entry : Nat
  deriving DecidableEq, Repr

/-- A miss of a leaf cache that waits for a walk (R113): core, root, virtual address. -/
structure Miss where
  core : Nat
  root : RootDesc
  va : Nat
  deriving DecidableEq, Repr

/-- A walk in progress (R113): its merge key RID and VA 47-18, and the misses that it serves, the first its own. -/
structure WalkRun where
  rid : Nat
  key : Nat
  misses : List Miss
  deriving DecidableEq, Repr

/-- A core (R9, R138): the partition word in force, its queues, and what its engines hold. -/
structure CoreSt where
  id : Nat
  partword : Word
  copy0 : List CopyCmd
  copy1 : List CopyCmd
  mat : List MatCmd
  plane : Option Nat
  issuing : Option Nat
  scrub : List Nat
  leaf : List LeafEnt
  deriving DecidableEq, Repr

/-- A die (R311, R375, R376, R112, R113); misses wait for one of the 64 walk slots, in order of arrival. -/
structure Die where
  cap : Nat
  throttled : Bool
  tokens : Int
  asking : List Nat
  granted : List Nat
  temp : BitVec 16
  walks : List WalkRun
  misses : List Miss
  pathCache : List PathEnt
  leafCache : List EntryEnt
  deriving DecidableEq, Repr

/-- A peer (R369, R371). -/
structure Peer where
  p : Nat
  die : Nat
  fam : Nat
  ip : List Byte
  rctx : Word
  rbase : DWord
  failed : Bool
  deriving DecidableEq, Repr

/-- One direction pair of a Lazia stream (R355, R356): the IP address at its other end, its next frame opens it (SYN), the next SEQ sent, the next SEQ
expected, frames that came early, frames not yet acknowledged with the retries of each. -/
structure Strm where
  id : BitVec 32
  ip : List Byte
  syn : Bool
  seqOut : BitVec 32
  expect : BitVec 32
  got : List Frame
  unacked : List (Frame × Nat)
  failed : Bool
  deriving DecidableEq, Repr

/-- A response or reply sent (R355, R357, R370). -/
structure Resp where
  strm : BitVec 32
  tag : BitVec 32
  cmd : Nat
  stat : Nat
  payload : List Byte
  deriving DecidableEq, Repr

/-- A remote access in flight (R370): its tag, the peer, the team, the access; 0 read, 1 write, 2 atomic, 3 the read of a
wait (R317); for a combined
atomic the operation and, for each lane, its address, the operand combined before it and its registers (R82); for a decoding
read the format and the scale (R166). -/
structure RemoteReq where
  tag : Nat
  p : Nat
  uid : Nat
  acc : Access
  kind : Nat
  op : Nat
  lanes : List (Nat × DWord × Option Nat × List Nat)
  decode : Option (Nat × Nat)
  deriving DecidableEq, Repr

/-- A host command that still owes its response (R364, R367, R91, R92). -/
structure Owed where
  req : Req
  cmd : Nat
  ctx : Nat
  grid : Nat
  deriving DecidableEq, Repr

/-- A whole-memory copy in progress (R91, R92). -/
inductive Ckpt where
  | saving (image : List Host.Cell) (clk : Nat) (poison : List Nat) (novf : Nat)
  | restoring
  deriving DecidableEq, Repr

/-- Where an error strikes that no check corrects (R94): the line of a physical address, at the hop of a code; a flit of a
router's buffer, as for a failing link; a word of a team's scratchpad, a main register of a lane, or an element of a tile. -/
inductive Harm where
  | line (pa hop : Nat)
  | flit (f : Flit)
  | scratch (uid word : Nat)
  | register (uid lane r : Nat)
  | tile (uid key : Nat)
  deriving DecidableEq, Repr

/-- Who moves next: an event of the module, the issue unit of a core, firmware, or what reaches the module from outside (log
entry 10). -/
inductive Move where
  | event (i : Instr)
  | issue (core : Nat)
  /-- the core issues the first n passes of its team's word and no more for now (R162, R293) -/
  | passes (core n : Nat)
  /-- the loads of pending instruction k of a team are served by memory as it is now (R31, R258) -/
  | reread (uid k : Nat)
  /-- a frame arrives at a port (R354 to R358) -/
  | frame (f : Frame)
  /-- an error that no check corrects (R94) -/
  | harm (h : Harm)
  /-- firmware runs the command of a team's fwcall (R361, R362) -/
  | firmware (uid : Nat)
  deriving DecidableEq, Repr

/-- Why a step stops. -/
inductive Fault where
  /-- An instruction word is given to `exec` while no team issues: `cur` is none or names no team. Safe: a core
  issues words of teams only (R29). -/
  | noIssuingTeam
  /-- The module has no power: supply removed (R92, R375) or the module switched itself off at 110 °C (R375). Safe: nothing runs. -/
  | noPower
  deriving DecidableEq, Repr

/-- Why the model refuses. -/
inductive Refusal where
  /-- An instruction without a meaning in this model, by its mnemonic. Raised by `exec`'s refused arms only. Safe. -/
  | notModelled (mnemonic : String)
  /-- An event that cannot come about in this state: its condition in the spec does not hold, so the hardware does not
  take the step either. Raised by the meanings of events. Safe. -/
  | notEnabled (event : String)
  deriving DecidableEq, Repr

/-- The whole machine. The lines of l2 are those that L2 holds dirty: a clean line reads as its array does; l2First marks those
to evict first (R267). srCheck holds the stored check of a strong-region line where it is not the check of the line (R90). cover keeps, of a
poisoned line that is being rewritten in pieces, whose pieces they are and the bytes they have covered (R262, R267). -/
structure State where
  mem : List Host.Cell
  l2 : List (Nat × List Byte)
  l2Bad : List (Nat × Nat)
  poison : List (Nat × Nat)
  poisonMoved : List (Nat × Nat)
  srCheck : List (Nat × Option Word)
  l2First : List (Nat × Bool)
  cover : List (Nat × (Nat × BitVec 64))
  l1 : List Line
  icache : List Line
  opbuf : List BufLine
  journal : List WriteRec
  stores : List StoreEnt
  teams : List Team
  clusters : List Cluster
  partials : List Partial
  contexts : List Context
  cores : List CoreSt
  dies : Vector Die 8
  bubble : Option Nat
  bubbles : BitVec 64
  grants : List (Nat × Nat)
  roots : List RootRec
  nodes : List NodeRec
  frames : List FrameRec
  recycle : List Nat
  peers : List Peer
  streams : List Strm
  remote : List RemoteReq
  nextTag : Nat
  responses : List Resp
  owed : List Owed
  scrubCtx : List Nat
  ckpt : Option Ckpt
  manifest : Manifest
  ports : List Port
  recovery : Bool
  powered : Bool
  booted : Bool
  pwrGood : Bool
  links : BitVec 32
  notices : List Nat
  clk : BitVec 64
  fresh : Nat
  ticks : Nat
  agenda : List Move
  cur : Option Nat
  nextUid : Nat
  nextSeq : Nat
  deriving DecidableEq, Repr

/-- The manifest in force where none has been read: R89's and R91's defaults, nothing else (log entry 2). -/
def defaultManifest : Manifest :=
  { bytes := [], valid := true, srBase := 0, srSize := 8, ckptOn := true, spareCols := [], spareRows := [], ports := [],
    allow := [] }

/-- A die after reset (R311, R375): full budget; tokens and temperature are the model's choice (log entries 4, 5). -/
def Die.reset : Die :=
  { cap := 665600, throttled := false, tokens := 665600, asking := [], granted := [], temp := 0, walks := [], misses := [],
    pathCache := [], leafCache := [] }

/-- The module right after reset and its boot (R372, R375): no context, no grid, no team, GDDR7 zero, clock zero.
Log entries 1 to 11 name the values the spec does not give. -/
def State.reset : State :=
  { mem := [], l2 := [], l2Bad := [], poison := [], poisonMoved := [], srCheck := [], l2First := [], cover := [], l1 := [], icache := [],
    opbuf := [], journal := [], stores := [], teams := [], clusters := [], partials := [], contexts := [], cores := [],
    dies := Vector.replicate 8 Die.reset, bubble := none, bubbles := 0, grants := [], roots := [], nodes := [],
    frames := [], recycle := [], peers := [], streams := [], remote := [], nextTag := 0, responses := [], owed := [],
    scrubCtx := [], ckpt := none, manifest := defaultManifest, ports := [], recovery := false, powered := true, booted := true,
    pwrGood := true, links := 0, notices := [], clk := 0, fresh := 0, ticks := 0, agenda := [], cur := none,
    nextUid := 0, nextSeq := 0 }

end Sys2Proof.Machine
end

