-- ==== Sys2Proof/Machine/Sparse.lean ====
section
/-! DEFINITION. Sparse stores: lists of (key, value) pairs with rising keys that list no entry equal to the store's
default, so that equal stores are equal lists. Memory, registers, scratchpads and tiles are such stores. -/

namespace Sys2Proof.Machine

/-- The value at key a; an unlisted key reads as the default. -/
def sget {β : Type} (dflt : β) : List (Nat × β) → Nat → β
  | [], _ => dflt
  | (k, v) :: rest, a => if a = k then v else sget dflt rest a

/-- An entry put before the first that has a higher key. -/
def sinsert {β : Type} (a : Nat) (v : β) : List (Nat × β) → List (Nat × β)
  | [] => [(a, v)]
  | (k, w) :: rest => if a < k then (a, v) :: (k, w) :: rest else (k, w) :: sinsert a v rest

/-- The store without the entries of key a. -/
def serase {β : Type} (a : Nat) : List (Nat × β) → List (Nat × β)
  | [] => []
  | (k, w) :: rest => if a = k then serase a rest else (k, w) :: serase a rest

/-- The store with v at key a: a canonical store stays canonical. -/
def sput {β : Type} [DecidableEq β] (dflt : β) (m : List (Nat × β)) (a : Nat) (v : β) : List (Nat × β) :=
  if v = dflt then serase a m else sinsert a v (serase a m)

/-- Several writes, in order. -/
def sputs {β : Type} [DecidableEq β] (dflt : β) (m : List (Nat × β)) (ws : List (Nat × β)) : List (Nat × β) :=
  ws.foldl (fun acc kv => sput dflt acc kv.1 kv.2) m

/-- Is the key listed? -/
def slisted {β : Type} (m : List (Nat × β)) (a : Nat) : Bool := m.any (fun kv => kv.1 == a)

/-- The store without its entries whose key satisfies p. -/
def sdrop {β : Type} (m : List (Nat × β)) (p : Nat → Bool) : List (Nat × β) := m.filter (fun kv => !p kv.1)

/-- Canonical form: every key above lo, keys rising, no entry equal to the default. -/
def sokFrom {β : Type} [DecidableEq β] (dflt : β) (lo : Option Nat) : List (Nat × β) → Bool
  | [] => true
  | (k, v) :: rest =>
    (match lo with
     | none => true
     | some l => decide (l < k)) && !decide (v = dflt) && sokFrom dflt (some k) rest

/-- Canonical form of a whole store. -/
def sok {β : Type} [DecidableEq β] (dflt : β) (m : List (Nat × β)) : Bool := sokFrom dflt none m

/-- What a byte of the device arrays reads as that nothing has written: zero (R372 for GDDR7; DESIGN CHOICE for
LPDDR6, log entry 1). -/
def memDefault : Byte := 0#8

/-- The canonical form of the memory arrays. -/
abbrev Memory.wf (m : List Host.Cell) : Bool := sok memDefault m

/-- The numbers lo, lo + 1, ..., lo + n - 1. -/
def seqFrom (lo n : Nat) : List Nat := (List.range n).map (lo + ·)

/-- A natural number as n bytes, least significant first (R1). -/
def bytesOf (n v : Nat) : List Byte := (List.range n).map (fun i => BitVec.ofNat 8 (v / 2 ^ (8 * i)))

/-- The natural number of a byte list, least significant first (R1). -/
def natOf (bs : List Byte) : Nat := bs.foldr (fun b acc => b.toNat + 256 * acc) 0

/-- The part of a byte list from offset o, as an n-byte number. -/
def natAt (bs : List Byte) (o n : Nat) : Nat := natOf ((bs.drop o).take n)

/-- Part of a byte list as a 32-bit word. -/
def wordAt (bs : List Byte) (o : Nat) : Word := BitVec.ofNat 32 (natAt bs o 4)

/-- Part of a byte list as a 64-bit word. -/
def dwordAt (bs : List Byte) (o : Nat) : DWord := BitVec.ofNat 64 (natAt bs o 8)

/-- The lanes of a mask, ascending. -/
def lanesOf (m : Mask) : List Nat := (List.range 1024).filter (fun l => m.getLsbD l)

/-- The mask of a list of lanes. -/
def maskOf (ls : List Nat) : Mask := ls.foldl (fun acc l => acc ||| BitVec.ofNat 1024 (2 ^ l)) 0

/-- The lanes below n. -/
def lowMask (n : Nat) : Mask := BitVec.ofNat 1024 (2 ^ n - 1)

/-- The lowest lane of a mask, 0 for an empty one. -/
def lowLane (m : Mask) : Nat := (lanesOf m).headD 0

/-- The 128 lanes of group g. -/
def groupOf (m : Mask) (g : Nat) : BitVec 128 := m.extractLsb' (128 * g) 128

/-- The groups, ascending, that hold a lane of the mask. -/
def groupsOf (m : Mask) : List Nat := (List.range 8).filter (fun g => groupOf m g != 0)

/-- The n-bit sign extension of a value to 64 bits, taken from its low n bits. -/
def sext64 {n : Nat} (v : BitVec n) : DWord := v.signExtend 64

/-- Draw k of the run's free values, as n bits (R4, R33). -/
def freeBits (n k : Nat) : BitVec n := BitVec.ofNat n (Config.freeNat k)

end Sys2Proof.Machine
end

