-- ==== Sys2Proof/Machine/Access.lean ====
section
/-! DEFINITION. Physical memory (R84 to R96): the home L2 in front of the device arrays, poisoned lines, the L1 of each
core, and the store path in which stores wait until they are performed at their home (R262 to R271). -/

namespace Sys2Proof.Machine

/-! ### Physical addresses -/

/-- GDDR7: the lowest 512 GiB (R84). -/
def isGddr (pa : Nat) : Bool := decide (pa < 0x8000000000)

/-- LPDDR6: 2 TiB from 0x100_0000_0000 (R84). -/
def isLpddr (pa : Nat) : Bool := decide (0x10000000000 ≤ pa ∧ pa < 0x30000000000)

/-- A peer aperture (R84). -/
def isPeer (pa : Nat) : Bool := decide (0x80000000000 ≤ pa ∧ pa < 0x100000000000)

/-- The peer of an aperture address and the offset in its window (R84, R370). -/
def peerOf (pa : Nat) : Nat × Nat := ((pa - 0x80000000000) / 2 ^ 35, pa % 2 ^ 35)

/-- The home die of a GDDR7 or LPDDR6 address (R84). -/
def homeDie (pa : Nat) : Nat :=
  if isGddr pa then pa / 2 ^ 36 % 8 else (pa - 0x10000000000) / 2 ^ 38 % 8

/-- The memory controller of an address (R84): 0-63 for GDDR7 channels, 64-95 for LPDDR6 channels. -/
def ctrlOf (pa : Nat) : Nat :=
  if isGddr pa then homeDie pa * 8 + pa / 512 % 8 else 64 + homeDie pa * 4 + (pa - 0x10000000000) / 4096 % 4

/-- The device address within its channel of a GDDR7 or LPDDR6 address (R84). -/
def devAddr (pa : Nat) : Nat :=
  if isGddr pa then pa % 2 ^ 36 / 4096 * 512 + pa % 512
  else (pa - 0x10000000000) % 2 ^ 38 / 16384 * 4096 + (pa - 0x10000000000) % 4096

/-- The first byte of the strong region's check area, and its size (R89). -/
def checkArea (m : Manifest) : Nat × Nat := ((m.srBase + m.srSize) * 2 ^ 30, m.srSize * 2 ^ 26)

/-- The strong region (R89). -/
def inStrong (m : Manifest) (pa : Nat) : Bool :=
  decide (m.srBase * 2 ^ 30 ≤ pa ∧ pa < (m.srBase + m.srSize) * 2 ^ 30)

/-- A reserved range of R84 or the check area of R89: no access reaches it (R85). -/
def physBad (m : Manifest) (pa : Nat) : Bool :=
  !(isGddr pa || isLpddr pa || isPeer pa) ||
    decide ((checkArea m).1 ≤ pa ∧ pa < (checkArea m).1 + (checkArea m).2)

/-! ### The home -/

/-- Byte pa as its home L2 serves it (R86): from a dirty line if there is one, else from the device array. -/
def homeByte (s : State) (pa : Nat) : Byte :=
  match sget [] s.l2 (pa / 64) with
  | [] => sget memDefault s.mem pa
  | line => line.getD (pa % 64) 0

/-- n bytes from pa at the home. -/
def homeBytes (s : State) (pa n : Nat) : List Byte := (List.range n).map (fun i => homeByte s (pa + i))

/-- The check of a strong-region line of the array (R90): CRC-32C over its 64 bytes and its address. -/
def lineCheck (s : State) (ln : Nat) : Word :=
  crc32c ((List.range 64).map (fun i => sget memDefault s.mem (64 * ln + i)) ++ bytesOf 8 (64 * ln))

/-- The check that the controller has stored for a strong-region line in the check area, at checkPlace (R90): that of the line, as
the controller wrote it with the line, or one that an error has left. -/
def storedCheck (s : State) (ln : Nat) : Word := (sget none s.srCheck ln).getD (lineCheck s ln)

/-- A read of a strong-region line from its array finds that its check does not match (R90). -/
def checkFails (s : State) (ln : Nat) : Bool :=
  match sget none s.srCheck ln with
  | none => false
  | some w => (sget [] s.l2 ln).isEmpty && w != lineCheck s ln

/-- Where the check area keeps the check of a line (R90): (PA - base) / 16 above its start. -/
def checkPlace (m : Manifest) (ln : Nat) : Nat := (checkArea m).1 + (64 * ln - m.srBase * 2 ^ 30) / 16

/-- The hop code of R94 of a poisoned line, 0 for a good one: poison in L2, the controllers' lists and the list moved
to LPDDR6 (R96, R377), or a strong-region line whose check fails (R90). -/
def lineHop (s : State) (line : Nat) : Nat :=
  let a := sget 0 s.l2Bad line
  let b := sget 0 s.poison line
  let c := sget 0 s.poisonMoved line
  if a ≠ 0 then a else if b ≠ 0 then b else if c ≠ 0 then c
  else if checkFails s line then 2 else 0

/-- The hop code of the first poisoned line that n bytes from pa touch, 0 if none. -/
def hopOf (s : State) (pa n : Nat) : Nat :=
  let a := lineHop s (pa / 64)
  if a ≠ 0 then a else if n = 0 then 0 else lineHop s ((pa + n - 1) / 64)

/-- The bytes of a list with some replaced from an offset on. -/
def spliceBytes (line : List Byte) (off : Nat) (bs : List Byte) : List Byte :=
  line.take off ++ bs ++ line.drop (off + bs.length)

/-! ### Write-back and poison lists (R86, R96, R377) -/

/-- Lines that a controller's poison list holds. -/
def listed (s : State) (ctrl : Nat) : Nat := (s.poison.filter (fun x => ctrlOf (64 * x.1) == ctrl)).length

/-- A controller's list moved to LPDDR6 (R377). -/
def moveList (s : State) (ctrl : Nat) : State :=
  let mine := fun (k : Nat) => ctrlOf (64 * k) == ctrl
  { s with
    poison := sdrop s.poison mine
    poisonMoved := (s.poison.filter (fun x => mine x.1)).foldl (fun m x => sput 0 m x.1 x.2) s.poisonMoved }

/-- A line written back to its array (R86, R96): a poisoned one is entered in its controller's list, and a line of the strong region
has its check stored with it (R90). -/
def writeBack (s : State) (ln : Nat) : State :=
  let bs := sget [] s.l2 ln
  let hop := sget 0 s.l2Bad ln
  let s := { s with
    mem := sputs memDefault s.mem (bs.zipIdx.map (fun b => (64 * ln + b.2, b.1))), l2 := sput [] s.l2 ln []
    l2Bad := sput 0 s.l2Bad ln 0, l2First := sput false s.l2First ln false, srCheck := sput none s.srCheck ln none }
  if hop = 0 then s else { s with poison := sput 0 s.poison ln hop }

/-- The controller of a line has room for it, or the line is not poisoned. -/
def listRoom (s : State) (ln : Nat) : Bool :=
  sget 0 s.l2Bad ln == 0 || sget 0 s.poison ln != 0 || decide (listed s (ctrlOf (64 * ln)) < 4096)

/-- A line written back, its controller's list moved first where it is full. -/
def makeWay (s : State) (ln : Nat) : State := writeBack (if listRoom s ln then s else moveList s (ctrlOf (64 * ln))) ln

/-- Lines that a die's L2 of 48 MiB holds (R9, R16, R86). -/
def l2Lines : Nat := 786432

/-- L2 has a place for a line (R86): where the die's lines fill it, one of them is written back, one marked first to evict if there
is any (R267); which is a free value. -/
def l2Room (s : State) (ln : Nat) : State :=
  let mine := s.l2.filter (fun x => homeDie (64 * x.1) == homeDie (64 * ln))
  let first := mine.filter (fun x => sget false s.l2First x.1)
  let pick := if first.isEmpty then mine else first
  if slisted s.l2 ln || decide (mine.length < l2Lines) then s
  else
    match pick[Config.freeNat s.fresh % pick.length]? with
    | some v => { makeWay s v.1 with fresh := s.fresh + 1 }
    | none => s

/-- A line's poison and its failed check are gone (R90, R96). -/
def clearLine (s : State) (ln : Nat) : State :=
  { s with
    l2Bad := sput 0 s.l2Bad ln 0, poison := sput 0 s.poison ln 0, poisonMoved := sput 0 s.poisonMoved ln 0
    srCheck := sput none s.srCheck ln none, cover := sput (0, 0) s.cover ln (0, 0) }

/-- A line that is read while its check fails is poisoned in L2 (R90, R94). -/
def readCheck (s : State) (ln : Nat) : State :=
  if checkFails s ln then { s with l2Bad := sput 0 s.l2Bad ln 2 } else s

/-- One line of the home written in part: the bytes bs at offset off of line ln (R86, R90). A whole-line write clears the
line's poison and its failed check; a smaller one leaves them (R96, R262): it reads the line first, and where the check fails
the line in L2 is poisoned (R90, R94). -/
def homeWriteLine (s : State) (ln off : Nat) (bs : List Byte) : State :=
  let s := readCheck (l2Room s ln) ln
  let old := match sget [] s.l2 ln with
    | [] => (List.range 64).map (fun i => sget memDefault s.mem (64 * ln + i))
    | line => line
  let s := { s with l2 := sput [] s.l2 ln (spliceBytes old off bs) }
  if bs.length = 64 then clearLine s ln else s

/-- A piece of a line has been written: once the pieces of one instruction, or of one write-combining buffer, have covered a
poisoned line whole, its poison is gone (R96, R262, R267). -/
def noteCover (s : State) (grp pa len : Nat) : State :=
  let ln := pa / 64
  if lineHop s ln = 0 then s
  else
    let old := sget (0, 0) s.cover ln
    let m := (if old.1 = grp then old.2 else 0) ||| BitVec.ofNat 64 ((2 ^ len - 1) * 2 ^ (pa % 64))
    if m = BitVec.allOnes 64 then clearLine s ln else { s with cover := sput (0, 0) s.cover ln (grp, m) }

/-- A line that an st.nt writes is marked first to evict in its L2 (R267). -/
def markFirst (s : State) (nt : Bool) (pa : Nat) : State :=
  if nt then { s with l2First := sput false s.l2First (pa / 64) true } else s

/-- The pieces of a run of bytes, line by line: (line, offset, bytes). Fuel bounds the number of lines. -/
def linePieces : Nat → Nat → List Byte → List (Nat × Nat × List Byte)
  | 0, _, _ => []
  | _, _, [] => []
  | k + 1, pa, bs =>
    let n := 64 - pa % 64
    (pa / 64, pa % 64, bs.take n) :: linePieces k (pa + n) (bs.drop n)

/-- Some engine holds a command. -/
def enginesBusy (s : State) : Bool := s.cores.any (fun c => !c.copy0.isEmpty || !c.copy1.isEmpty || !c.mat.isEmpty)

/-- A write noted for the commands that engines hold (R132, R231). -/
def noteWrite (s : State) (space : Option Nat) (addr len : Nat) (bulk : Bool) (src : Option (Nat × Nat) := none)
    (cmd : Option Nat := none) : State :=
  if enginesBusy s then
    { s with journal := s.journal ++ [{ space := space, addr := addr, len := len, bulk := bulk, src := src, cmd := cmd }] }
  else s

/-- A noted write covers a byte of physical memory. -/
def WriteRec.coversPa (r : WriteRec) (a : Nat) : Bool := r.space == none && decide (r.addr ≤ a ∧ a < r.addr + r.len)

/-- A run of bytes written at the home from pa on (R86). -/
def homePut (s : State) (pa : Nat) (bs : List Byte) : State :=
  (linePieces (bs.length + 1) pa bs).foldl (fun s p => homeWriteLine s p.1 p.2.1 p.2.2) s

/-- A run of bytes performed at the home from pa on (R86) by anyone but a copy command; src names an entry of the store path. -/
def homeWrite (s : State) (pa : Nat) (bs : List Byte) (src : Option (Nat × Nat) := none) : State :=
  homePut (noteWrite s none pa bs.length false src) pa bs

/-- Poison put on a line held in L2 (R96); pieces written before it do not count towards covering the line. -/
def poisonLine (s : State) (pa hop : Nat) : State :=
  { s with l2Bad := sput 0 s.l2Bad (pa / 64) hop, cover := sput (0, 0) s.cover (pa / 64) (0, 0) }

/-- Bytes read at the home from pa on, as they stand after the stores of a list of the store path, in order (R165, R256):
a load sees stores still in write-through. -/
def forward (es : List StoreEnt) (pa : Nat) (bs : List Byte) : List Byte :=
  es.foldl (fun acc e =>
    match e.kind with
    | .st | .nt | .rel _ =>
      if e.addr < pa + acc.length ∧ pa < e.addr + e.data.length then
        acc.zipIdx.map (fun b => if e.addr ≤ pa + b.2 ∧ pa + b.2 < e.addr + e.data.length then
          e.data.getD (pa + b.2 - e.addr) b.1 else b.1)
      else acc
    | _ => acc) bs

/-! ### L1 -/

/-- The line of a core's L1 (R87). -/
def l1Line (s : State) (core ln : Nat) : Option Line := s.l1.find? (fun x => x.core == core && x.line == ln)

/-- Every data line of a core leaves its L1: what an acquire at .cl or wider does (R87). -/
def l1Invalidate (s : State) (core : Nat) : State := { s with l1 := s.l1.filter (fun x => x.core != core) }

/-- One line leaves a core's L1. -/
def l1Drop (s : State) (core ln : Nat) : State :=
  { s with l1 := s.l1.filter (fun x => !(x.core == core && x.line == ln)) }

/-- One of a core's lines, chosen by a free value where it has as many as it may hold, leaves a cache. -/
def evict (cap core fresh : Nat) (ls : List Line) : List Line :=
  let mine := ls.filter (fun x => x.core == core)
  if mine.length < cap then ls
  else
    match mine[Config.freeNat fresh % mine.length]? with
    | some v => ls.filter (fun x => !(x.core == core && x.line == v.line))
    | none => ls

/-- A load miss brings the line in, with the core's own stores that are still in write-through (R87, R165). When the core's
2,048 lines are full, which line makes room is not architectural: a free value chooses it. -/
def l1Fill (s : State) (core ln : Nat) : State :=
  let seenLine := forward (s.stores.filter (fun e => e.core == core)) (64 * ln) (homeBytes s (64 * ln) 64)
  { s with
    l1 := evict 2048 core s.fresh s.l1 ++ [{ core := core, line := ln, data := seenLine }]
    fresh := if (s.l1.filter (fun x => x.core == core)).length < 2048 then s.fresh else s.fresh + 1 }

/-- A core's instruction cache of 32 KiB takes a line in (R9, R88): of its 512 lines a free value chooses the one that makes
room. -/
def icFill (s : State) (core ln : Nat) : State :=
  { s with
    icache := evict 512 core s.fresh s.icache ++ [{ core := core, line := ln, data := homeBytes s (64 * ln) 64 }]
    fresh := if (s.icache.filter (fun x => x.core == core)).length < 512 then s.fresh else s.fresh + 1 }

/-- A store updates a present line (R87). -/
def l1Update (s : State) (core pa : Nat) (bs : List Byte) : State :=
  { s with
    l1 := s.l1.map (fun x =>
      if x.core == core && x.line == pa / 64 then { x with data := spliceBytes x.data (pa % 64) bs } else x) }

/-! ### The store path -/

/-- The entry writes bytes of main memory. -/
def writesMem (e : StoreEnt) : Bool :=
  match e.kind with
  | .st | .nt | .rel _ | .red .. => true
  | _ => false

/-- Two entries touch a common 4-byte location of one space (R256, R259). -/
def overlaps (e f : StoreEnt) : Bool :=
  let hit := decide (e.addr / 4 < (f.addr + f.data.length + 3) / 4 ∧ f.addr / 4 < (e.addr + e.data.length + 3) / 4)
  match e.kind, f.kind with
  | .scr a, .scr b => a == b && hit
  | _, _ => writesMem e && writesMem f && hit

/-- The entry is outside the team's releases until an ntdrain (R267). -/
def isNt (e : StoreEnt) : Bool := e.kind == .nt

/-- The entry is a release fence or a fence with both sides (R269). -/
def isFence (e : StoreEnt) : Bool :=
  match e.kind with
  | .fence _ => true
  | _ => false

/-- The entry is an ntdrain (R268). -/
def isDrain (e : StoreEnt) : Bool :=
  match e.kind with
  | .ntdrain _ => true
  | _ => false

/-- The scope at which an entry is a release; 0 for none (R264, R269, R271, R300). -/
def relScope (e : StoreEnt) : Nat :=
  match e.kind with
  | .rel k | .fence k => k
  | .red _ r k => if r then k else 0
  | .launch => 4
  | _ => 0

/-- The entry is a release at .cl or wider: it waits for every earlier write-through of its core (R87, R264). -/
def isRelease (e : StoreEnt) : Bool := decide (3 ≤ relScope e)

/-- An earlier entry f that must be performed before e: one of the same team at the same location (R256), behind a fence
(R269), st.nt before an ntdrain, and an ntdrain before a release or a fence (R268); before a release at .cl or wider every
earlier entry of the core but st.nt (R87, R264, R267); and one that a release has shown to the core's teams before a later
entry of the core at the same location (R259). While an ld.acqp awaits its loads, prom, a release at .cr counts too: it comes
after what its team, and the core's releases before it, have written (R266). -/
def mustPrecede (prom : Bool) (f e : StoreEnt) : Bool :=
  decide (f.seq < e.seq) &&
    ((f.uid == e.uid &&
      (overlaps f e || isFence f || (isDrain e && isNt f) || (isDrain f && relScope e != 0))) ||
      (f.core == e.core && ((isRelease e && !isNt f) || (f.shown && overlaps f e) ||
        (prom && relScope e == 2 && ((f.uid == e.uid && !isNt f) || f.shown)))))

/-- The entries of a team that its releases cover: all but an st.nt that no ntdrain of the team follows (R267, R268). -/
def covered (s : State) (u : Nat) (e : StoreEnt) : Bool :=
  e.uid == u && (!isNt e || s.stores.any (fun d => d.uid == u && isDrain d && decide (e.seq < d.seq)))

/-- A release of a team at .cr or wider shows its earlier entries to the core's teams (R255, R264). -/
def showAll (s : State) (u : Nat) : State :=
  { s with stores := s.stores.map (fun e => if covered s u e then { e with shown := true } else e) }

/-- The cores whose replies the team's ld.acqp still awaits, if it has one: in its place, or as a pending instruction (R266). -/
def promoting (t : Team) : Option (List Nat) :=
  match t.hold.bind (fun h => if h.tags.isEmpty then h.op.promote else none) with
  | some (cs, _) => some cs
  | none =>
    t.pend.findSome? (fun p =>
      match p.wait with
      | .promote cs _ => some cs
      | _ => none)

/-- An ld.acqp has still to make its loads (R266). -/
def promotionOpen (s : State) : Bool := s.teams.any (fun t => (promoting t).isSome)

/-- The entry may be performed now. -/
def storeReady (s : State) (e : StoreEnt) : Bool := !s.stores.any (fun f => mustPrecede (promotionOpen s) f e)

/-- Entries of the store path that p selects, with every earlier one that must be performed before one of them, in order. -/
def closeSet (s : State) (p : StoreEnt → Bool) : List StoreEnt :=
  s.stores.foldr (fun f acc => if p f || acc.any (fun e => mustPrecede (promotionOpen s) f e) then f :: acc else acc) []

/-- The new value of an atomic operation (R146, R270, codes 0 to 8) on n bits. -/
def atomInt (n op : Nat) (o v : Nat) : Nat :=
  let a := BitVec.ofNat n o
  let b := BitVec.ofNat n v
  let r : BitVec n :=
    match op with
    | 0 => a + b
    | 1 => a &&& b
    | 2 => a ||| b
    | 3 => a ^^^ b
    | 4 => if a.slt b then a else b
    | 5 => if a.ult b then a else b
    | 6 => if a.slt b then b else a
    | 7 => if a.ult b then b else a
    | _ => b
  r.toNat

end Sys2Proof.Machine
end

