-- ==== Sys2Proof/Machine/Float.lean ====
section
/-! DEFINITION. Number formats and exact arithmetic (R65 to R83, R190 to R206): values as exact dyadic numbers, one
rounding at the end. The exception bits of R73 are numbered as there: IV 1, DZ 2, OF 4, UF 8. -/

namespace Sys2Proof.Machine

/-- A value of a floating-point format (R66, R67): NaN, infinity, or (-1)^neg * m * 2^e exactly. -/
inductive FVal where
  | nan (signalling : Bool)
  | inf (neg : Bool)
  | fin (neg : Bool) (m : Nat) (e : Int)
  deriving DecidableEq, Repr

/-- The formats of R66 that have a significand. -/
inductive Fmt where
  | fp32 | bf16 | fp16 | e4m3 | e5m2 | e2m1
  deriving DecidableEq, Repr

/-- Fraction width (R66). -/
def Fmt.mb : Fmt → Nat
  | .fp32 => 23
  | .bf16 => 7
  | .fp16 => 10
  | .e4m3 => 3
  | .e5m2 => 2
  | .e2m1 => 1

/-- Exponent width (R66). -/
def Fmt.eb : Fmt → Nat
  | .fp32 => 8
  | .bf16 => 8
  | .fp16 => 5
  | .e4m3 => 4
  | .e5m2 => 5
  | .e2m1 => 2

/-- Exponent bias (R66). -/
def Fmt.bias : Fmt → Nat
  | .fp32 => 127
  | .bf16 => 127
  | .fp16 => 15
  | .e4m3 => 7
  | .e5m2 => 15
  | .e2m1 => 1

/-- Total width in bits. -/
def Fmt.width (f : Fmt) : Nat := 1 + f.eb + f.mb

/-- The format has infinities (R67). -/
def Fmt.hasInf : Fmt → Bool
  | .e4m3 => false
  | .e2m1 => false
  | _ => true

/-- The encoding of the largest finite magnitude (R67). -/
def Fmt.maxBits : Fmt → Nat
  | .fp32 => 0x7F7FFFFF
  | .bf16 => 0x7F7F
  | .fp16 => 0x7BFF
  | .e4m3 => 0x7E
  | .e5m2 => 0x7B
  | .e2m1 => 0x7

/-- The canonical NaN (R67); E2M1 has none, and R75 gives +0 for it. -/
def Fmt.nanBits : Fmt → Nat
  | .fp32 => 0x7FC00000
  | .bf16 => 0x7FC0
  | .fp16 => 0x7E00
  | .e4m3 => 0x7F
  | .e5m2 => 0x7E
  | .e2m1 => 0

/-- The weight of the last place of the subnormal grid: 2 to this power (R67). -/
def Fmt.qmin (f : Fmt) : Int := 1 - (f.bias : Int) - (f.mb : Int)

/-- val of an encoding (R67, R83). -/
def Fmt.val (f : Fmt) (bits : Nat) : FVal :=
  let neg := bits / 2 ^ (f.eb + f.mb) % 2 == 1
  let e := bits / 2 ^ f.mb % 2 ^ f.eb
  let m := bits % 2 ^ f.mb
  if f.hasInf && e == 2 ^ f.eb - 1 then
    if m = 0 then .inf neg else .nan (m / 2 ^ (f.mb - 1) == 0)
  else if f == .e4m3 && e == 15 && m == 7 then .nan false
  else if e = 0 then .fin neg m f.qmin
  else .fin neg (2 ^ f.mb + m) (f.qmin + (e : Int) - 1)

/-- The value under FTZ (R71): a subnormal operand reads as zero of its sign; FP8 and FP4 are never flushed. -/
def Fmt.valFtz (f : Fmt) (ftz : Bool) (bits : Nat) : FVal :=
  let e := bits / 2 ^ f.mb % 2 ^ f.eb
  let flushes := match f with
    | .fp32 | .bf16 | .fp16 => true
    | _ => false
  if ftz && flushes && e == 0 then .fin (bits / 2 ^ (f.eb + f.mb) % 2 == 1) 0 0 else f.val bits

/-- The integer part of m * 2^e / 2^q, with what the cut-off part is: 0 none, 1 below half, 2 half, 3 above half. -/
def cutAt (m : Nat) (e q : Int) : Nat × Nat :=
  if q ≤ e then (m * 2 ^ (e - q).toNat, 0)
  else
    let sh := (q - e).toNat
    if m = 0 then (0, 0)
    else if Nat.log2 m + 2 < sh then (0, 1)
    else
      let r := m % 2 ^ sh
      let half := 2 ^ (sh - 1)
      (m / 2 ^ sh, if r = 0 then 0 else if r < half then 1 else if r = half then 2 else 3)

/-- Does the mode (R69: 0 RNE, 1 RZ, 2 RU, 3 RD, 4 RNA) round the magnitude n up, given its sign and the cut-off part? -/
def roundsUp (mode : Nat) (neg : Bool) (n cut : Nat) : Bool :=
  match mode with
  | 1 => false
  | 2 => !neg && cut != 0
  | 3 => neg && cut != 0
  | 4 => decide (2 ≤ cut)
  | _ => cut == 3 || (cut == 2 && n % 2 == 1)

/-- m * 2^e rounded to a multiple of 2^q: the multiple, and whether it is inexact. -/
def roundAt (mode : Nat) (neg : Bool) (m : Nat) (e q : Int) : Nat × Bool :=
  let c := cutAt m e q
  (if roundsUp mode neg c.1 c.2 then c.1 + 1 else c.1, c.2 != 0)

/-- floor(log2(m * 2^e)) of a positive m. -/
def ilog (m : Nat) (e : Int) : Int := (Nat.log2 m : Int) + e

/-- The bits of R73. -/
def flagIV : Nat := 1
/-- Division by zero (R73). -/
def flagDZ : Nat := 2
/-- Overflow (R73). -/
def flagOF : Nat := 4
/-- Underflow (R73). -/
def flagUF : Nat := 8

/-- The sign bit of a format. -/
def signBit (f : Fmt) (neg : Bool) : Nat := if neg then 2 ^ (f.eb + f.mb) else 0

/-- Overflow by mode (R70): the encoding without its sign. -/
def overflowBits (f : Fmt) (mode : Nat) (sat neg : Bool) : Nat :=
  let infBits := (2 ^ f.eb - 1) * 2 ^ f.mb
  if !f.hasInf || sat then f.maxBits
  else
    match mode with
    | 1 => f.maxBits
    | 2 => if neg then f.maxBits else infBits
    | 3 => if neg then infBits else f.maxBits
    | _ => infBits

/-- round(x, fmt, rm) of a finite value (R69 to R71): encoding and exception bits. -/
def roundFin (f : Fmt) (mode : Nat) (sat ftz : Bool) (neg : Bool) (m : Nat) (e : Int) : Nat × Nat :=
  let s := signBit f neg
  if m = 0 then (s, 0)
  else
    let k := ilog m e
    let qn := k - (f.mb : Int)
    let q := max qn f.qmin
    let r := roundAt mode neg m e q
    let bits := (q - f.qmin).toNat * 2 ^ f.mb + r.1
    -- E4M3 under RZ: a finite value below 512 gives 448 without overflow (R70)
    let low512 := f == .e4m3 && mode == 1 && decide (k < 9)
    if f.maxBits < bits then
      (s + overflowBits f mode sat neg, if low512 then 0 else flagOF)
    else
      let u := roundAt mode neg m e qn
      let tiny := decide (ilog (max u.1 1) qn < f.qmin + (f.mb : Int))
      let sub := bits != 0 && decide (bits < 2 ^ f.mb)
      let flushable := match f with
        | .fp32 | .bf16 | .fp16 => true
        | _ => false
      if ftz && flushable && sub then (s, flagUF)
      else (s + bits, if tiny && r.2 then flagUF else 0)

/-- round(x, fmt, rm) (R69 to R72) of any value. An infinite operand gives infinity, or the largest finite value in a format
without one (R70, R75). A signalling NaN raises IV. -/
def roundF (f : Fmt) (mode : Nat) (sat ftz : Bool) : FVal → Nat × Nat
  | .nan sg => (f.nanBits, if sg then flagIV else 0)
  | .inf neg => (signBit f neg + (if f.hasInf then (2 ^ f.eb - 1) * 2 ^ f.mb else f.maxBits), 0)
  | .fin neg m e => roundFin f mode sat ftz neg m e

/-- RNE(x, fmt) without exception bits (R83). -/
def rne (f : Fmt) (v : FVal) : Nat := (roundF f 0 false false v).1

/-- The value is NaN. -/
def FVal.isNan : FVal → Bool
  | .nan _ => true
  | _ => false

/-- The value is a signalling NaN. -/
def FVal.isSnan : FVal → Bool
  | .nan s => s
  | _ => false

/-- The sign. -/
def FVal.neg : FVal → Bool
  | .nan _ => false
  | .inf n => n
  | .fin n _ _ => n

/-- The value is zero. -/
def FVal.isZero : FVal → Bool
  | .fin _ m _ => m == 0
  | _ => false

/-- The value with its sign changed. -/
def FVal.negate : FVal → FVal
  | .nan s => .nan s
  | .inf n => .inf !n
  | .fin n m e => .fin (!n) m e

/-- IV of the signalling NaNs among operands (R72). -/
def ivOf (vs : List FVal) : Nat := if vs.any FVal.isSnan then flagIV else 0

/-- A signed magnitude as an integer at the scale 2^q, q at most e. -/
def scaled (neg : Bool) (m : Nat) (e q : Int) : Int :=
  let v : Int := ((m * 2 ^ (e - q).toNat : Nat) : Int)
  if neg then -v else v

/-- The exact sum of two finite values, with R69's sign of zero. -/
def addFin (mode : Nat) (n1 : Bool) (m1 : Nat) (e1 : Int) (n2 : Bool) (m2 : Nat) (e2 : Int) : FVal :=
  if m1 = 0 ∧ m2 = 0 then .fin (if n1 == n2 then n1 else mode == 3) 0 0
  else if m1 = 0 then .fin n2 m2 e2
  else if m2 = 0 then .fin n1 m1 e1
  else
    let q := min e1 e2
    let s := scaled n1 m1 e1 q + scaled n2 m2 e2 q
    if s = 0 then .fin (mode == 3) 0 0 else .fin (decide (s < 0)) s.natAbs q

/-- Exact addition (R72): the value and IV. -/
def fAdd (mode : Nat) (a b : FVal) : FVal × Nat :=
  match a, b with
  | .nan _, _ => (.nan false, ivOf [a, b])
  | _, .nan _ => (.nan false, ivOf [a, b])
  | .inf x, .inf y => if x == y then (.inf x, 0) else (.nan false, flagIV)
  | .inf x, _ => (.inf x, 0)
  | _, .inf y => (.inf y, 0)
  | .fin n1 m1 e1, .fin n2 m2 e2 => (addFin mode n1 m1 e1 n2 m2 e2, 0)

/-- Exact multiplication (R72): the value and IV. -/
def fMul (a b : FVal) : FVal × Nat :=
  match a, b with
  | .nan _, _ => (.nan false, ivOf [a, b])
  | _, .nan _ => (.nan false, ivOf [a, b])
  | .inf x, .inf y => (.inf (x != y), 0)
  | .inf x, .fin y m _ => if m = 0 then (.nan false, flagIV) else (.inf (x != y), 0)
  | .fin x m _, .inf y => if m = 0 then (.nan false, flagIV) else (.inf (x != y), 0)
  | .fin n1 m1 e1, .fin n2 m2 e2 => (.fin (n1 != n2) (m1 * m2) (e1 + e2), 0)

/-- R69's sign of a product or quotient that is an exact zero: a negative one keeps its sign, and a positive one is -0 under RD. -/
def rdZero (mode : Nat) (v : FVal) : FVal := if v.isZero && mode == 3 then .fin true 0 0 else v

/-- R69's sign of an exact zero that no sum, product or quotient gives, as in a conversion: -0 under RD, else +0 (DEDUCED, log
entry 80). -/
def convZero (mode : Nat) (v : FVal) : FVal := if v.isZero then .fin (mode == 3) 0 0 else v

/-- The exact product with R69's sign of zero (R193, R198): the value and IV. -/
def fProd (mode : Nat) (a b : FVal) : FVal × Nat := (rdZero mode (fMul a b).1, (fMul a b).2)

/-- Two exception-bit sets together. -/
def orFlags (a b : Nat) : Nat := a ||| b

/-- a * b + c exactly (R193): 0 times infinity raises IV even beside a quiet NaN. -/
def fFma (mode : Nat) (a b c : FVal) : FVal × Nat :=
  let p := fMul a b
  let s := fAdd mode p.1 c
  (s.1, p.2 ||| s.2 ||| ivOf [a, b, c])

/-- The exact sum of products and an addend (R199): NaN for any NaN, for 0 times infinity and for opposite infinities;
otherwise exact, whatever the order, with the sign of zero of R69. -/
def fDot (mode : Nat) (ps : List (FVal × FVal)) (c : FVal) : FVal × Nat :=
  let prods := ps.map (fun p => fMul p.1 p.2)
  let terms := prods.map Prod.fst ++ [c]
  let iv := prods.foldl (fun acc p => acc ||| p.2) (ivOf [c])
  let negInf := terms.contains (.inf true)
  let posInf := terms.contains (.inf false)
  if terms.any FVal.isNan then (.nan false, iv ||| (if negInf && posInf then flagIV else 0))
  else if negInf && posInf then (.nan false, iv ||| flagIV)
  else if posInf then (.inf false, iv)
  else if negInf then (.inf true, iv)
  else
    let fins := terms.filterMap (fun t => match t with
      | .fin n m e => some (n, m, e)
      | _ => none)
    let nz := fins.filter (fun t => t.2.1 != 0)
    match nz with
    | [] =>
      let allNeg := fins.all (fun t => t.1)
      let allPos := fins.all (fun t => !t.1)
      (.fin (if allNeg then true else if allPos then false else mode == 3) 0 0, iv)
    | t :: _ =>
      let q := nz.foldl (fun acc x => min acc x.2.2) t.2.2
      let s := nz.foldl (fun acc x => acc + scaled x.1 x.2.1 x.2.2 q) (0 : Int)
      (if s = 0 then .fin (mode == 3) 0 0 else .fin (decide (s < 0)) s.natAbs q, iv)

/-- Ordering of two non-NaN values: lt, eq, gt; zeros compare equal. -/
def fCmp (a b : FVal) : Ordering :=
  match a, b with
  | .inf true, .inf true => .eq
  | .inf false, .inf false => .eq
  | .inf true, _ => .lt
  | _, .inf true => .gt
  | .inf false, _ => .gt
  | _, .inf false => .lt
  | .fin n1 m1 e1, .fin n2 m2 e2 =>
    let q := min e1 e2
    compare (scaled n1 m1 e1 q) (scaled n2 m2 e2 q)
  | _, _ => .eq

/-- Total order of two non-NaN values in which -0 lies below +0 (R194, R215). -/
def fLe (a b : FVal) : Bool :=
  match fCmp a b with
  | .lt => true
  | .gt => false
  | .eq => if a.isZero && b.isZero then a.neg || !b.neg else true

/-- minimumNumber and maximumNumber on FP32 encodings (R194): result bits and IV. -/
def fMinMax (isMax : Bool) (ftz : Bool) (x y : Nat) : Nat × Nat :=
  let a := Fmt.fp32.valFtz ftz x
  let b := Fmt.fp32.valFtz ftz y
  let iv := ivOf [a, b]
  let pick := if a.isNan && b.isNan then FVal.nan false else if a.isNan then b else if b.isNan then a
    else if fLe a b then (if isMax then b else a) else (if isMax then a else b)
  (rne .fp32 pick, iv)

/-! ### Conversions (R75 to R77) -/

/-- floor(log2 |x|) + 127 clamped, for an E8M0 destination (R75): code and exception bits. -/
def toE8m0 : FVal → Nat × Nat
  | .nan s => (0xFF, if s then flagIV else 0)
  | .inf neg => if neg then (0, flagIV) else (0xFF, flagIV)
  | .fin neg m e =>
    if m = 0 || neg then (0, flagIV)
    else
      let k := ilog m e + 127
      if k < 0 then (0, 0) else if 254 < k then (0xFE, flagOF) else (k.toNat, 0)

/-- The value of an E8M0 code (R67, R75): 0xFF is a quiet NaN. -/
def e8m0Val (c : Nat) : FVal := if c = 0xFF then .nan false else .fin false 1 ((c : Int) - 127)

/-- Conversion between formats with a significand (R75), NaN-on-overflow for E4M3 included. -/
def convF (f : Fmt) (mode : Nat) (sat nof ftz : Bool) (v : FVal) : Nat × Nat :=
  match f, convZero mode v with
  | .e2m1, .nan _ => (0, flagIV)
  | .e4m3, .inf neg => if nof then (0x7F, 0) else (signBit f neg + f.maxBits, 0)
  | .e4m3, .fin neg m e =>
    let r := roundFin f mode sat ftz neg m e
    if nof && r.2 &&& flagOF != 0 then (0x7F, r.2) else r
  | _, v => roundF f mode sat ftz v

/-- Limits of an n-bit integer type. -/
def intRange (n : Nat) (sgn : Bool) : Int × Int :=
  if sgn then (-(2 ^ (n - 1) : Nat), (2 ^ (n - 1) : Nat) - 1) else (0, (2 ^ n : Nat) - 1)

/-- An integer modulo 2^n, as a natural number. -/
def wrapInt (n : Nat) (v : Int) : Nat := (v % ((2 ^ n : Nat) : Int)).toNat

/-- A value rounded to an integer (R69). -/
def toInteger (mode : Nat) (neg : Bool) (m : Nat) (e : Int) : Int :=
  let r := (roundAt mode neg m e 0).1
  if neg then -(r : Int) else (r : Int)

/-- Floating point to an n-bit integer (R76): the integer modulo 2^n and exception bits. -/
def floatToInt (n : Nat) (sgn : Bool) (mode : Nat) (sat : Bool) : FVal → Nat × Nat
  | .nan _ => (0, flagIV)
  | .inf neg =>
    let lim := intRange n sgn
    (if sat then wrapInt n (if neg then lim.1 else lim.2) else 0, flagIV)
  | .fin neg m e =>
    let lim := intRange n sgn
    if decide ((n : Int) + 66 < ilog m e) && m != 0 then
      -- far out of range: every bit below 2^n of the integer is zero
      (if sat then wrapInt n (if neg then lim.1 else lim.2) else wrapInt n (toInteger mode neg m e), flagIV)
    else
      let v := toInteger mode neg m e
      if lim.1 ≤ v ∧ v ≤ lim.2 then (wrapInt n v, 0)
      else (wrapInt n (if sat then (if v < lim.1 then lim.1 else lim.2) else v), flagIV)

/-- An integer as an exact value. -/
def intVal (v : Int) : FVal := .fin (decide (v < 0)) v.natAbs 0

/-! ### Seeds and elementary functions (R203, R205, R206) -/

/-- One step of the square root by bits: bit i tried on acc. -/
def isqrtGo (n : Nat) : Nat → Nat → Nat
  | 0, acc => acc
  | i + 1, acc => isqrtGo n i (if (acc + 2 ^ i) * (acc + 2 ^ i) ≤ n then acc + 2 ^ i else acc)

/-- Integer square root of a number below 2^(2 bits). -/
def isqrt (bits n : Nat) : Nat := isqrtGo n bits 0

/-- A positive value, with a sticky bit as its last bit, rounded to the set G of R203 by RNE: encoding without sign, and
exception bits (OF; UF for an inexact subnormal). -/
def seedRound (m : Nat) (e : Int) : Nat × Nat :=
  let k := ilog m e
  if k < -126 then
    let r := roundAt 0 false m e (-149)
    (r.1, if r.2 then flagUF else 0)
  else
    let q := k - 14
    let r := roundAt 0 false m e q
    let bits := (q + 140).toNat * 2 ^ 23 + r.1 * 2 ^ 9
    if 0x7F7FFFFF < bits then (0x7F800000, flagOF) else (bits, 0)

/-- 1/x of FP32 (R203). -/
def fRcp (ftz : Bool) (x : Nat) : Nat × Nat :=
  match Fmt.fp32.valFtz ftz x with
  | .nan s => (0x7FC00000, if s then flagIV else 0)
  | .inf neg => (signBit .fp32 neg, 0)
  | .fin neg m e =>
    if m = 0 then (signBit .fp32 neg + 0x7F800000, flagDZ)
    else
      let big := 2 ^ 80
      let d := big / m
      let st := if big % m = 0 then 0 else 1
      let r := seedRound (2 * d + st) (-e - 81)
      if ftz && r.1 != 0 && decide (r.1 < 2 ^ 23) then (signBit .fp32 neg, flagUF)
      else (signBit .fp32 neg + r.1, r.2)

/-- 1/sqrt(x) of FP32 (R203). -/
def fRsq (ftz : Bool) (x : Nat) : Nat × Nat :=
  match Fmt.fp32.valFtz ftz x with
  | .nan s => (0x7FC00000, if s then flagIV else 0)
  | .inf neg => if neg then (0x7FC00000, flagIV) else (0, 0)
  | .fin neg m e =>
    if m = 0 then (signBit .fp32 neg + 0x7F800000, flagDZ)
    else if neg then (0x7FC00000, flagIV)
    else
      let m' := if e % 2 = 0 then m else 2 * m
      let e' := if e % 2 = 0 then e else e - 1
      let big := 2 ^ 160
      let z := big / m'
      let t := isqrt 81 z
      let st := if t * t * m' = big then 0 else 1
      seedRound (2 * t + st) (-(e' / 2) - 81)

/-- ln 2 times 2^256, cut (log entry 12). -/
def ln2Fix : Nat := 0xb17217f7d1cf79abc9e3b39803f2f6af40f343267298b62d8a0d175b8baafa2b

/-- pi times 2^256, cut (log entry 12). -/
def piFix : Nat := 0x3243f6a8885a308d313198a2e03707344a4093822299f31d0082efa98ec4e6c89

/-- The sum of term, term*x/1, term*x*x/2, ... at scale 2^256: the exponential series. -/
def expSeries (x : Nat) : Nat → Nat → Nat → Nat → Nat
  | 0, _, _, acc => acc
  | k + 1, i, term, acc => expSeries x k (i + 1) (term * x / 2 ^ 256 / i) (acc + term * x / 2 ^ 256 / i)

/-- 2^(fr / 2^256) at scale 2^256, for fr below 2^256 (60 terms). -/
def exp2Fix (fr : Nat) : Nat :=
  let x := fr * ln2Fix / 2 ^ 256
  expSeries x 60 1 (2 ^ 256) (2 ^ 256)

/-- RNE(2^x, fp32) (R205). -/
def fExp2 (ftz : Bool) (x : Nat) : Nat × Nat :=
  match Fmt.fp32.valFtz ftz x with
  | .nan s => (0x7FC00000, if s then flagIV else 0)
  | .inf neg => (if neg then 0 else 0x7F800000, 0)
  | .fin neg m e =>
    if m = 0 then (0x3F800000, 0)
    else if ilog m e < -30 then (0x3F800000, 0)
    else if !neg && decide (7 ≤ ilog m e) then (0x7F800000, flagOF)
    else if neg && decide (8 ≤ ilog m e) then (0, flagUF)
    else
      -- |x| < 2^8 and x is a multiple of 2^-149: x = n + fr with fr in [0, 1) at scale 2^256
      let v := scaled neg m e (-256)
      let n := v / ((2 ^ 256 : Nat) : Int)
      let fr := (v % ((2 ^ 256 : Nat) : Int)).toNat
      if fr = 0 then roundFin .fp32 0 false ftz false 1 n
      else roundFin .fp32 0 false ftz false (2 * exp2Fix fr + 1) (n - 257)

/-- The sum of z^(2i+1)/(2i+1) at scale 2^256: the inverse hyperbolic tangent. -/
def atanhSeries (z2 : Nat) : Nat → Nat → Nat → Nat → Nat
  | 0, _, _, acc => acc
  | k + 1, i, pow, acc => atanhSeries z2 k (i + 2) (pow * z2 / 2 ^ 256) (acc + pow / i)

/-- ln(m / 2^l) at scale 2^256, for 2^l at most m and m below 2^(l+1) (90 terms). -/
def lnFix (m l : Nat) : Nat :=
  let z := (m - 2 ^ l) * 2 ^ 256 / (m + 2 ^ l)
  2 * atanhSeries (z * z / 2 ^ 256) 90 1 z 0

/-- RNE(log2 x, fp32) (R205). -/
def fLog2 (ftz : Bool) (x : Nat) : Nat × Nat :=
  match Fmt.fp32.valFtz ftz x with
  | .nan s => (0x7FC00000, if s then flagIV else 0)
  | .inf neg => if neg then (0x7FC00000, flagIV) else (0x7F800000, 0)
  | .fin neg m e =>
    if m = 0 then (0xFF800000, flagDZ)
    else if neg then (0x7FC00000, flagIV)
    else
      let l := Nat.log2 m
      let k : Int := (l : Int) + e
      if m = 2 ^ l then
        if k = 0 then (0, 0) else roundFin .fp32 0 false false (decide (k < 0)) k.natAbs 0
      else
        let fr : Nat := lnFix m l * 2 ^ 256 / ln2Fix
        let v : Int := k * ((2 ^ 256 : Nat) : Int) + (fr : Int)
        roundFin .fp32 0 false false (decide (v < 0)) (2 * v.natAbs + 1) (-257)

/-- An alternating power series at scale 2^240: terms t, t*x2/(i(i+1)), ... with alternating signs. -/
def trigSeries (x2 : Nat) : Nat → Nat → Nat → Bool → Int → Int
  | 0, _, _, _, acc => acc
  | k + 1, i, t, neg, acc =>
    let t' := t * x2 / 2 ^ 240 / (i * (i + 1))
    trigSeries x2 k (i + 2) t' (!neg) (if neg then acc - (t' : Int) else acc + (t' : Int))

/-- sin and cos of 2 pi v / 2^32 at scale 2^240, for v at most 2^29 (30 terms each). -/
def sinCosFix (v : Nat) : Int × Int :=
  -- 2 pi v / 2^32 at scale 2^240 is pi * 2^256 * v / 2^47
  let x := piFix * v / 2 ^ 47
  let x2 := x * x / 2 ^ 240
  (trigSeries x2 30 2 x true (x : Int), trigSeries x2 30 1 (2 ^ 240) true ((2 ^ 240 : Nat) : Int))

/-- RNE of an irrational value at scale 2^240. -/
def rneFix (v : Int) : Nat :=
  if v = 0 then 0 else (roundFin .fp32 0 false false (decide (v < 0)) (2 * v.natAbs + 1) (-241)).1

/-- sin and cos of the phase u of 2^-32 turn (R206). -/
def fSinCos (u : Nat) : Nat × Nat :=
  let q := (u + 2 ^ 29) / 2 ^ 30 % 4
  let back := decide (u % 2 ^ 30 ≥ 2 ^ 29)
  let v := if back then 2 ^ 30 - u % 2 ^ 30 else u % 2 ^ 30
  let sc := sinCosFix v
  let sn := if v = 0 then (0, 0x3F800000) else (rneFix (if back then -sc.1 else sc.1), rneFix sc.2)
  let neg (b : Nat) : Nat := if b = 0 then 0 else if b < 2 ^ 31 then b + 2 ^ 31 else b - 2 ^ 31
  match q with
  | 0 => (sn.1, sn.2)
  | 1 => (sn.2, neg sn.1)
  | 2 => (neg sn.1, neg sn.2)
  | _ => (neg sn.2, sn.1)

/-! ### Blocks and the windowed sum (R78 to R80) -/

/-- The windowed sum of R80, as FP32 bits. -/
def windowSum (ts : List FVal) : Nat :=
  let negInf := ts.contains (.inf true)
  let posInf := ts.contains (.inf false)
  if ts.any FVal.isNan || (negInf && posInf) then 0x7FC00000
  else if posInf then 0x7F800000
  else if negInf then 0xFF800000
  else
    let fins := ts.filterMap (fun t => match t with
      | .fin n m e => some (n, m, e)
      | _ => none)
    let nz := fins.filter (fun t => t.2.1 != 0)
    match nz with
    | [] => if fins.all (fun t => t.1) then 0x80000000 else 0
    | t :: _ =>
      let e := nz.foldl (fun acc x => max acc (ilog x.2.1 x.2.2)) (ilog t.2.1 t.2.2)
      let q := e - 47
      let s := nz.foldl (fun acc x =>
        let c : Int := ((cutAt x.2.1 x.2.2 q).1 : Int)
        if x.1 then acc - c else acc + c) (0 : Int)
      (roundFin .fp32 0 false false (decide (s < 0)) s.natAbs q).1

/-- The codebook of R79, as numerators over 256. -/
def q4nCode (c : Nat) : Int :=
  [-256, -178, -134, -101, -74, -48, -24, 0, 20, 41, 63, 86, 112, 144, 185, 256].getD c 0

/-- The block scale of R79 from the byte b8 and the superblock scale S (FP32 bits): FP32 bits. DEDUCED (log entry 83): for an
infinite S with b8 = 0 the rule's pseudocode, RNE of inf * 0, gives NaN for every code, its sentence infinities for all codes
but 7; the pseudocode stands. -/
def q4nScale (b8 s : Nat) : Nat :=
  let d := b8 * 2 ^ 80 / 255
  let st := if b8 * 2 ^ 80 % 255 = 0 then 0 else 1
  let tq := (roundFin .fp32 0 false false false (2 * d + st) (-81)).1
  rne .fp32 (fMul (Fmt.fp32.val s) (Fmt.fp32.val tq)).1

/-- A codebook entry as a value. -/
def q4nVal (c : Nat) : FVal :=
  let v := q4nCode c
  .fin (decide (v < 0)) v.natAbs (-8)

/-- A Q4N element (R79): BF16 bits. -/
def q4nElem (code scale : Nat) : Nat := rne .bf16 (fMul (q4nVal code) (Fmt.fp32.val scale)).1

/-- A value scaled by an E8M0 block scale (R78): NaN under scale 0xFF. -/
def mxScale (v : FVal) (x : Nat) : FVal :=
  if x = 0xFF then .nan false
  else
    match v with
    | .fin n m e => .fin n m (e + (x : Int) - 127)
    | v => v

/-- An MXINT8 byte: the signed byte divided by 64 (R78). -/
def mxint8Val (b : Nat) : FVal :=
  let v : Int := if b < 128 then (b : Int) else (b : Int) - 256
  .fin (decide (v < 0)) v.natAbs (-6)

/-- The element formats of MX blocks (R78): E4M3, E5M2, E2M1, INT8. -/
inductive MxFmt where
  | e4m3 | e5m2 | e2m1 | int8
  deriving DecidableEq, Repr

/-- The value of an MX element before its scale. -/
def MxFmt.val (f : MxFmt) (bits : Nat) : FVal :=
  match f with
  | .e4m3 => Fmt.e4m3.val bits
  | .e5m2 => Fmt.e5m2.val bits
  | .e2m1 => Fmt.e2m1.val bits
  | .int8 => mxint8Val bits

/-- emax of R78. -/
def MxFmt.emax : MxFmt → Int
  | .e4m3 => 8
  | .e5m2 => 15
  | .e2m1 => 2
  | .int8 => 0

/-- One element of an encoded block: sat(RNE(v * 2^-x)) (R78). -/
def MxFmt.encode (f : MxFmt) (x : Int) (neg : Bool) (m : Nat) (e : Int) : Nat :=
  match f with
  | .int8 =>
    let v := toInteger 0 neg m (e - x + 6)
    wrapInt 8 (max (-128) (min 127 v))
  | .e4m3 => (roundFin .e4m3 0 true false neg m (e - x)).1
  | .e5m2 => (roundFin .e5m2 0 true false neg m (e - x)).1
  | .e2m1 => (roundFin .e2m1 0 true false neg m (e - x)).1

/-- The block encoding of R78 of 32 FP32 values: scale byte and element codes. -/
def mxEncode (f : MxFmt) (vs : List FVal) : Nat × List Nat :=
  let bad := vs.any (fun v => match v with
    | .fin .. => false
    | _ => true)
  if bad then (0xFF, vs.map (fun _ => 0))
  else
    let mags := vs.filterMap (fun v => match v with
      | .fin _ m e => if m = 0 then none else some (ilog m e)
      | _ => none)
    match mags with
    | [] => (0, vs.map (fun _ => 0))
    | k :: ks =>
      let x := max (ks.foldl max k - f.emax) (-127)
      ((x + 127).toNat, vs.map (fun v => match v with
        | .fin n m e => f.encode x n m e
        | _ => 0))

end Sys2Proof.Machine
end

