-- ==== Sys2Proof/Machine/Translate.lean ====
section
/-! DEFINITION. Virtual addresses, nodes, entries and the walk (R98 to R105, R116). -/

namespace Sys2Proof.Machine

/-- KIND of an access in a fault record's aux (R105). -/
inductive AccKind where
  | read | write | fetch | atomic
  deriving DecidableEq, Repr

/-- The KIND code (R105). -/
def AccKind.code : AccKind → Nat
  | .read => 0
  | .write => 1
  | .fetch => 2
  | .atomic => 3

/-- The fields of an entry (R100). -/
structure Entry where
  gen : Nat
  side : Nat
  frame : Nat
  fmt : Nat
  tier : Nat
  atten : Bool
  ex : Bool
  wr : Bool
  rd : Bool
  leaf : Bool
  valid : Bool
  spare : Bool
  deriving DecidableEq, Repr

/-- An entry's 16 bytes as a number, taken apart (R100). SIDE and FRAME are given as physical addresses; spare tells that
a reserved field is non-zero. -/
def entryOf (v : Nat) : Entry :=
  let b := fun i => v / 2 ^ i % 2 == 1
  { gen := v / 2 ^ 112 % 2 ^ 16, side := v / 2 ^ 64 % 2 ^ 32 * 4096, frame := v / 2 ^ 32 % 2 ^ 32 * 4096,
    fmt := v / 2 ^ 12 % 16, tier := v / 2 ^ 10 % 4, atten := b 9, ex := b 8, wr := b 7, rd := b 6, leaf := b 5,
    valid := b 0, spare := v / 2 % 16 != 0 || v / 2 ^ 16 % 2 ^ 16 != 0 || v / 2 ^ 96 % 2 ^ 16 != 0 }

/-- An entry as a number (R100). -/
def entryNat (e : Entry) : Nat :=
  let b := fun (x : Bool) (i : Nat) => if x then 2 ^ i else 0
  e.gen * 2 ^ 112 + e.side / 4096 * 2 ^ 64 + e.frame / 4096 * 2 ^ 32 + e.fmt * 2 ^ 12 + e.tier * 2 ^ 10 +
    b e.atten 9 + b e.ex 8 + b e.wr 7 + b e.rd 6 + b e.leaf 5 + b e.valid 0

/-- Bits of offset below a node of a level: 16, 24, 32, 40 (R98). -/
def levelShift (lvl : Nat) : Nat := 16 + 8 * lvl

/-- The tier that R84's range of an address belongs to; none for a reserved range. -/
def tierOf (pa : Nat) : Option Nat :=
  if isGddr pa then some 0 else if isLpddr pa then some 1 else if isPeer pa then some 2 else none

/-- R101: the entry, read in a node of level lvl, is malformed. TIER and the range of FRAME must agree in an entry that names a
node too. -/
def malformed (lvl : Nat) (e : Entry) : Bool :=
  e.spare || decide (6 ≤ e.fmt) || e.tier == 3 || (e.side / 4096 % 2 == 1) ||
    (e.leaf && lvl == 3) ||
    (e.leaf && e.frame % 2 ^ levelShift lvl != 0) ||
    (e.fmt != 0 && lvl != 0) || (e.fmt != 0 && e.ex) || (e.side != 0 && e.fmt == 0) ||
    (match tierOf e.frame with
     | some t => e.tier != t
     | none => false) ||
    (!e.leaf && (e.rd || e.wr || e.ex || e.fmt != 0 || e.side != 0))

/-- The entry at index ix of the node at a physical address, read at its home (R99, R109). DESIGN CHOICE (log entry 76): the
spec says nothing of a walk that reads a poisoned node line; the bytes are used as they stand. -/
def readEntry (s : State) (node ix : Nat) : Entry := entryOf (natOf (homeBytes s (node + 16 * ix) 16))

/-- How a walk ends (R104): at an absent entry or a malformed one of a level, at an entry of a level whose FRAME names a node where
no access may go (R101), or at a leaf of a level with the OR of ATTEN along the path. -/
inductive Walk where
  | absent (lvl : Nat)
  | malf (lvl : Nat)
  | outside (lvl : Nat)
  | leaf (lvl : Nat) (e : Entry) (atten : Bool)
  deriving DecidableEq, Repr

/-- The walk from a node of level lvl down to the first leaf (R104). DEDUCED (log entry 77): the walk goes from the top down, so
that a malformed entry ends it with PERM, whatever stands in the nodes below, to which no defined path leads. DEDUCED (log entry
78): a valid entry of a level-0 node with LEAF 0 names a node below the last level, a case that R101 does not list; it counts as
malformed. An entry that names a node in a reserved range takes the walk to step 7 (R101). -/
def walkFrom (s : State) (va : Nat) : Nat → Nat → Bool → Walk
  | lvl, node, att =>
    let e := readEntry s node (va / 2 ^ levelShift lvl % 256)
    if !e.valid then .absent lvl
    else if malformed lvl e then .malf lvl
    else if e.leaf then .leaf lvl e (att || e.atten)
    else
      match lvl with
      | 0 => .malf 0
      | l + 1 => if physBad s.manifest e.frame then .outside (l + 1) else walkFrom s va l e.frame (att || e.atten)

/-- A translated address: PA, format, PA of the side frame, level and entry of the leaf. -/
structure Xlat where
  pa : Nat
  fmt : Nat
  side : Nat
  lvl : Nat
  deriving DecidableEq, Repr

/-- What an access meets (R104): an address, or a fault class with its aux. -/
inductive XRes where
  | ok (x : Xlat)
  | fault (cls : Nat) (aux : DWord)
  deriving DecidableEq, Repr

/-- The aux of a PAGE_ABSENT or PERM record (R105). -/
def xAux (bit : Nat) (root : RootDesc) (lvl : Nat) (k : AccKind) : DWord :=
  BitVec.ofNat 64 (bit + root.rid.toNat * 65536 + lvl * 4 + k.code)

/-- The permission of step 5 of R104: the aux bits of a denial, none if the access is allowed. -/
def denied (e : Entry) (att : Bool) (k : AccKind) : Option Nat :=
  match k with
  | .read => if e.rd then none else some 0
  | .fetch => if e.ex then none else some 0
  | .write => if !e.wr then some 0 else if att then some 256 else none
  | .atomic => if !(e.rd && e.wr) then some 0 else if att then some 256 else none

/-- Translation of a virtual address through a root (R98, R104): decode says which page formats a decoding access takes. DEDUCED
(log entry 79): R105 gives aux bits for PAGE_ABSENT and PERM only, and says that a fetch fault has KIND 10; a CANON fault of a
fetch holds that KIND in its aux, and any other CANON fault zero. -/
def translate (s : State) (root : RootDesc) (va : DWord) (k : AccKind) (decode : Option (List Nat)) : XRes :=
  let v := va.toNat
  if 2 ^ 48 ≤ v then .fault 0x06 (if k == .fetch then 2#64 else 0#64)
  else if v / 2 ^ (levelShift root.lvl + 8) ≠ 0 then .fault 0x04 (xAux (2 ^ 42) root root.lvl k)
  else
    match walkFrom s v root.lvl root.node false with
    | .absent l => .fault 0x04 (xAux 0 root l k)
    | .malf l => .fault 0x05 (xAux (2 ^ 41) root l k)
    | .outside l => .fault 0x05 (xAux (2 ^ 40) root l k)
    | .leaf l e att =>
      match denied e att k with
      | some b => .fault 0x05 (xAux b root l k)
      | none =>
        let bad := match decode with
          | some fs => !fs.contains e.fmt
          | none => false
        if bad then .fault 0x05 (xAux (2 ^ 43) root l k)
        else
          let pa := e.frame + v % 2 ^ levelShift l
          if physBad s.manifest pa then .fault 0x05 (xAux (2 ^ 40) root l k)
          else .ok { pa := pa, fmt := e.fmt, side := e.side, lvl := l }

/-! ### What the translation caches hold (R112) -/

/-- The translation and permissions that a core's leaf cache takes for an address; none where the walk ends at no leaf (R112). -/
def leafFor (s : State) (root : RootDesc) (va : Nat) : Option LeafEnt :=
  if va / 2 ^ (levelShift root.lvl + 8) ≠ 0 then none
  else
    match walkFrom s va root.lvl root.node false with
    | .leaf l e att =>
      some { rid := root.rid.toNat, lvl := l, tag := va / 2 ^ levelShift l, frame := e.frame, fmt := e.fmt, side := e.side,
             rd := e.rd, wr := e.wr && !att, ex := e.ex }
    | _ => none

/-- What a die's path cache takes for an address: the walk down to the level-0 node, or to a large page's leaf (R112). -/
def pathFor (s : State) (rid va : Nat) : Nat → Nat → Bool → Option PathEnt
  | 0, node, att => some { rid := rid, tag := va / 2 ^ 24, node := some node, large := none, atten := att }
  | l + 1, node, att =>
    let e := readEntry s node (va / 2 ^ levelShift (l + 1) % 256)
    if !e.valid || malformed (l + 1) e || (!e.leaf && physBad s.manifest e.frame) then none
    else if e.leaf then
      some { rid := rid, tag := va / 2 ^ 24, node := none, large := some (entryNat e, l + 1), atten := att || e.atten }
    else pathFor s rid va l e.frame (att || e.atten)

/-! ### Side frames of format pages (R116, R117) -/

/-- How R117 settles the two copies of the scale bytes an access needs. -/
inductive Side where
  | good (bytes : List Byte)
  | conflict (pa : Nat)
  | bad (hop : Nat)
  deriving DecidableEq, Repr

/-- Reading n scale bytes at an offset of a side frame: both copies (R117). -/
def readSide (s : State) (side off n : Nat) : Side :=
  let a := homeBytes s (side + off) n
  let b := homeBytes s (side + 4096 + off) n
  let la := (List.range 64).map (fun i => homeByte s ((side + off) / 64 * 64 + i))
  let lb := (List.range 64).map (fun i => homeByte s ((side + 4096 + off) / 64 * 64 + i))
  let ha := hopOf s (side + off) n
  let hb := hopOf s (side + 4096 + off) n
  if ha = 0 then
    if hb = 0 then (if la == lb then .good a else .conflict ((side + off) / 64 * 64)) else .good a
  else if hb = 0 then .good b
  else .bad ha

/-- The repair of R117: the line of a copy that fails is rewritten from the other, and firmware is notified. -/
def repairSide (s : State) (side off : Nat) : State :=
  let pa := (side + off) / 64 * 64
  let pb := (side + 4096 + off) / 64 * 64
  let ha := lineHop s (pa / 64)
  let hb := lineHop s (pb / 64)
  if ha = 0 ∧ hb ≠ 0 then
    { homePut s pb (homeBytes s pa 64) with notices := s.notices ++ [pb] }
  else if ha ≠ 0 ∧ hb = 0 then
    { homePut s pa (homeBytes s pb 64) with notices := s.notices ++ [pa] }
  else s

/-- Bytes of one element of a format page, in half bytes: 2 for formats 1-3, 1 for 4 and 5 (R116). -/
def halfBytes (fmt : Nat) : Nat := if fmt = 4 ∨ fmt = 5 then 1 else 2

/-- Where the scales of element n of a format page lie in a copy of its side frame: offset and length of the block scale
(R116). -/
def scaleAt (fmt n : Nat) : Nat := if fmt = 5 then n / 64 else n / 32


/-- The MX element format of a page format 1-4 (R100, R116). -/
def mxOfPage (fmt : Nat) : MxFmt :=
  match fmt with
  | 1 => .e4m3
  | 2 => .e5m2
  | 3 => .int8
  | _ => .e2m1

/-- The code of element n of a page whose bytes start at a physical address (R68, R116). -/
def elemCode (s : State) (page fmt n : Nat) : Nat :=
  if halfBytes fmt = 2 then (homeByte s (page + n)).toNat
  else (homeByte s (page + n / 2)).toNat / (if n % 2 = 0 then 1 else 16) % 16

/-- The value of an MX element with its scale (R78). -/
def mxElem (fmt code scale : Nat) : FVal := mxScale ((mxOfPage fmt).val code) scale

end Sys2Proof.Machine
end

