-- ==== Sys2Proof/Machine/Ops.lean ====
section
/-! DEFINITION. The named operations over teams, contexts and memory that the meanings share: looking up and replacing
pieces of the state, registers and slots, moving along a clause, the reconvergence stack's resume step, ending a
grid, and taking a trap (R330 to R345) with the return from it. -/

namespace Sys2Proof.Machine

/-! ### Pieces of the state -/

/-- The team of a number. -/
def findTeam (s : State) (u : Nat) : Option Team := s.teams.find? (fun t => t.uid == u)

/-- The state with a team replaced. -/
def setTeam (s : State) (t : Team) : State :=
  { s with teams := s.teams.map (fun x => if x.uid == t.uid then t else x) }

/-- The team whose word `exec` runs. -/
def curTeam (s : State) : Option Team :=
  match s.cur with
  | some u => findTeam s u
  | none => none

/-- The context of a number. -/
def findCtx (s : State) (c : Nat) : Option Context := s.contexts.find? (fun x => x.id == c)

/-- The state with a context replaced. -/
def setCtx (s : State) (c : Context) : State :=
  { s with contexts := s.contexts.map (fun x => if x.id == c.id then c else x) }

/-- A grid of a context. -/
def findGrid (s : State) (c g : Nat) : Option Grid :=
  match findCtx s c with
  | some x => x.grids.find? (fun y => y.num == g)
  | none => none

/-- The state with a grid of a context replaced. -/
def setGrid (s : State) (c : Nat) (g : Grid) : State :=
  match findCtx s c with
  | some x => setCtx s { x with grids := x.grids.map (fun y => if y.num == g.num then g else y) }
  | none => s

/-- A placed cluster. -/
def findCluster (s : State) (c g l : Nat) : Option Cluster :=
  s.clusters.find? (fun x => x.ctx == c && x.grid == g && x.lin == l)

/-- The state with a cluster replaced. -/
def setCluster (s : State) (k : Cluster) : State :=
  { s with clusters := s.clusters.map (fun x => if x.ctx == k.ctx && x.grid == k.grid && x.lin == k.lin then k else x) }

/-- A core that nothing has touched since reset: the partition word 0x0000_0818 is in force (R138), queues empty. -/
def freshCore (id : Nat) : CoreSt :=
  { id := id, partword := 0x818, copy0 := [], copy1 := [], mat := [], plane := none, issuing := none, scrub := [],
    leaf := [] }

/-- The core of a number (x + 64 y). -/
def coreOf (s : State) (id : Nat) : CoreSt := (s.cores.find? (fun x => x.id == id)).getD (freshCore id)

/-- A core record put among the others, ascending by number. -/
def insertCore (c : CoreSt) : List CoreSt → List CoreSt
  | [] => [c]
  | x :: rest => if c.id < x.id then c :: x :: rest else if c.id = x.id then c :: rest else x :: insertCore c rest

/-- The state with a core replaced. -/
def setCore (s : State) (c : CoreSt) : State := { s with cores := insertCore c s.cores }

/-- The die of a core (R7). -/
def dieOfCore (id : Nat) : Nat := 2 * (id / 64 / 16) + id % 64 / 32

/-- A die. -/
def dieOf (s : State) (d : Nat) : Die := s.dies.toList.getD d Die.reset

/-- The state with a die replaced. -/
def setDie (s : State) (d : Nat) (x : Die) : State := { s with dies := s.dies.setIfInBounds d x }

/-- The logical core coordinate as v8 shows it (R155). -/
def coreCoord (id : Nat) : Word := BitVec.ofNat 32 (id % 64 + id / 64 * 256)

/-! ### Translation caches (R112, R113) -/

/-- A cache of at most n entries with one more: the oldest makes room (log entry 56). -/
def cachePut {α : Type} [DecidableEq α] (n : Nat) (e : α) (l : List α) : List α :=
  if l.contains e then l else (l ++ [e]).drop (l.length + 1 - n)

/-- The leaf cache of a core holds an address under a RID (R112): in a page of any size. -/
def leafHit (c : CoreSt) (rid va : Nat) : Bool :=
  c.leaf.any (fun e => e.rid == rid && e.tag == va / 2 ^ levelShift e.lvl)

/-- The merge key of a miss (R113). -/
def Miss.key (m : Miss) : Nat × Nat := (m.root.rid.toNat, m.va / 2 ^ 18)

/-- A miss joins the walk of its key, or starts one where a slot is free, or waits in order of arrival (R113). -/
def addMiss (d : Die) (m : Miss) : Die :=
  if d.walks.any (fun w => (w.rid, w.key) == m.key) then
    { d with walks := d.walks.map (fun w =>
        if (w.rid, w.key) == m.key && !w.misses.contains m then { w with misses := w.misses ++ [m] } else w) }
  else if d.walks.length < 64 then { d with walks := d.walks ++ [{ rid := m.key.1, key := m.key.2, misses := [m] }] }
  else if d.misses.contains m then d
  else { d with misses := d.misses ++ [m] }

/-- A core translates an address through a root (R112, R113): a miss of its leaf cache goes to its die. What an access meets
does not depend on it (R109, R112). -/
def noteWalk (core : Nat) (root : RootDesc) (s : State) (va : DWord) : State :=
  if leafHit (coreOf s core) root.rid.toNat va.toNat then s
  else
    setDie s (dieOfCore core)
      (addMiss (dieOf s (dieOfCore core)) { core := core, root := root, va := va.toNat / 2 ^ 16 * 2 ^ 16 })

/-- The addresses of an instruction's lanes translated. -/
def noteWalks (s : State) (t : Team) (vas : List DWord) : State := vas.foldl (noteWalk t.core t.root) s

/-- A walk ends (R112, R113); an address beyond its root's span has none. The core of each of its misses holds the page, and the
die the path and the four level-0 entries of the line that the walk read. -/
def fillMiss (s : State) (die : Nat) (m : Miss) : State :=
  let rid := m.root.rid.toNat
  let s := match leafFor s m.root m.va with
    | some e =>
      let c := coreOf s m.core
      setCore s { c with leaf := cachePut 64 e c.leaf }
    | none => s
  match (if m.va / 2 ^ (levelShift m.root.lvl + 8) ≠ 0 then none else pathFor s rid m.va m.root.lvl m.root.node false) with
  | none => s
  | some p =>
    let d := dieOf s die
    let d := { d with pathCache := cachePut 4096 p d.pathCache }
    setDie s die (match p.node with
      | some n =>
        (seqFrom (m.va / 2 ^ 18 * 4 % 256) 4).foldl (fun d ix =>
          { d with leafCache := cachePut 32768 { node := n, ix := ix, entry := natOf (homeBytes s (n + 16 * ix) 16) } d.leafCache }) d
      | none => d)

/-! ### Kernel header fields (R295) -/

/-- REGS. -/
def KHdr.regs (h : KHdr) : Nat := (fld h.shape 0 9).toNat
/-- Groups per team. -/
def KHdr.grps (h : KHdr) : Nat := (fld h.shape 9 3).toNat + 1
/-- Cluster width. -/
def KHdr.clw (h : KHdr) : Nat := (fld h.shape 12 4).toNat + 1
/-- Cluster height. -/
def KHdr.clh (h : KHdr) : Nat := (fld h.shape 16 4).toNat + 1
/-- Accumulator tiles. -/
def KHdr.accum (h : KHdr) : Nat := (fld h.shape 20 6).toNat
/-- Scratchpad bytes per team. -/
def KHdr.scr (h : KHdr) : Nat := (fld h.scratch 0 22).toNat
/-- Scratchpad bytes allocated: SCRATCH rounded up to 4 KiB (R137). -/
def KHdr.scrAlloc (h : KHdr) : Nat := (h.scr + 4095) / 4096 * 4096
/-- FPXEN. -/
def KHdr.fpxEn (h : KHdr) : Nat := (fld h.mode 0 4).toNat
/-- COOP. -/
def KHdr.coop (h : KHdr) : Bool := fld h.mode 8 1 == 1
/-- REPRO. -/
def KHdr.repro (h : KHdr) : Bool := fld h.mode 9 1 == 1
/-- HARVEST. -/
def KHdr.harvest (h : KHdr) : Bool := fld h.mode 10 1 == 1
/-- EXCL. -/
def KHdr.excl (h : KHdr) : Bool := fld h.mode 11 1 == 1
/-- LANEKILL. -/
def KHdr.laneKill (h : KHdr) : Bool := fld h.mode 12 1 == 1
/-- PRIO. -/
def KHdr.prio (h : KHdr) : Nat := (fld h.mode 13 2).toNat
/-- DTABLE. -/
def KHdr.dtable (h : KHdr) : Nat := (fld h.mode 16 16).toNat
/-- Lanes of a team. -/
def KHdr.lanes (h : KHdr) : Nat := 128 * h.grps

/-! ### Slots and registers (R154 to R158) -/

/-- The key of a lane's main register. -/
def regKey (lane r : Nat) : Nat := lane * 256 + r

/-- The main register that a slot is bound to. -/
def slotReg (t : Team) (n : Nat) : Option Nat := ((t.binds[n]?).join).map BitVec.toNat

/-- A lane's main register. -/
def reg (t : Team) (lane r : Nat) : Word := sget 0 t.regs (regKey lane r)

/-- A lane's slot as held, pending or not; an unbound slot reads as zero here and is caught before (R158). -/
def slot (t : Team) (lane n : Nat) : Word :=
  match slotReg t n with
  | some r => reg t lane r
  | none => 0

/-- The pair at slot n (R22). -/
def slot64 (t : Team) (lane n : Nat) : DWord := (slot t lane (n + 1)) ++ (slot t lane n)

/-- The lane's register is poisoned (R96, R97). -/
def regPoisoned (t : Team) (lane r : Nat) : Bool := sget false t.regBad (regKey lane r)

/-- The lane's slot is poisoned. -/
def slotPoisoned (t : Team) (lane n : Nat) : Bool :=
  match slotReg t n with
  | some r => regPoisoned t lane r
  | none => false

/-- A handler's own use of v0 to v7 does not meet what the program's instructions owe there: those writes go to the frame
(R341). -/
def owedNow (t : Team) (byHandler : Bool) (keys : List Nat) : List Nat :=
  if t.handler.isSome && !byHandler then keys.filter (fun k => decide (8 ≤ k % 256)) else keys

/-- The destinations that a sieve of the team still owes: slot M in lanes 0-31 (R250). -/
def sieveKeys (s : State) (t : Team) : List Nat :=
  (coreOf s t.core).mat.flatMap (fun c =>
    if c.iss.uid == t.uid then
      (match c.op with
       | .sieve _ m => owedNow t c.iss.handler ((List.range 32).map (fun l => regKey l m))
       | _ => [])
    else [])

/-- The values of a pending instruction's loads stand: no later write reaches them (R258). -/
def Pend.sealed (p : Pend) : Pend := { p with again := [] }

/-- The team with the values of all its loads fixed. -/
def Team.sealed (t : Team) : Team := { t with pend := t.pend.map Pend.sealed }

/-- A number for 64 bytes of a team's scratchpad, among the numbers of lines of memory and above them. -/
def scrLine (u off : Nat) : Nat := 2 ^ 38 + u * 2 ^ 18 + off / 64

/-- The line that a load reads: of memory, or of a scratchpad. -/
def Reread.line (a : Reread) : Nat :=
  match a.scr with
  | none => a.acc.pa / 64
  | some u => scrLine u a.acc.pa

/-- The team with the values of its loads from some lines fixed: an access to a location comes after the team's earlier ones
(R256, R259). -/
def Team.sealedAt (t : Team) (lines : List Nat) : Team :=
  { t with pend := t.pend.map (fun p => { p with again := p.again.filter (fun a => !lines.contains a.line) }) }

/-- The registers whose reads are undefined: destinations of pending flag-counted instructions (R33). -/
def pendKeys (s : State) (t : Team) : List Nat :=
  t.pend.flatMap (fun p => owedNow t p.handler p.dests) ++ sieveKeys s t

/-- A slot read of an issuing instruction: a pending destination gives a free value (R33, R4). -/
def readSlot (s : State) (t : Team) (lane n : Nat) : Word :=
  match slotReg t n with
  | some r =>
    if (pendKeys s t).contains (regKey lane r) then freeBits 32 (s.fresh + regKey lane r) else reg t lane r
  | none => 0

/-- The pair at slot n, read by an issuing instruction. -/
def readSlot64 (s : State) (t : Team) (lane n : Nat) : DWord := (readSlot s t lane (n + 1)) ++ (readSlot s t lane n)

/-- The state after an instruction that may have drawn free values: the next draws are new ones. -/
def bump (s : State) (t : Team) : State := if (pendKeys s t).isEmpty then s else { s with fresh := s.fresh + 2 ^ 20 }

/-- Register writes of an instruction (keys and values): a destination that a pending instruction also owes becomes
contested (R33), and a written register is no longer poisoned. -/
def writeRegs (t : Team) (ws : List (Nat × Word)) : Team :=
  { t with
    regs := sputs 0 t.regs ws
    regBad := ws.foldl (fun acc w => sput false acc w.1 false) t.regBad
    pend := t.pend.map (fun p =>
      { p with contested := p.contested ++ (ws.map Prod.fst).filter (fun k => (owedNow t p.handler p.dests).contains k) }) }

/-- The rows that a command reads asynchronously become undefined when their registers are written (R224). A fixed-latency word
contests, in the lanes that it writes, a mask slot that a sieve still owes (R33, R341). -/
def taintCmd (t : Team) (word : Bool) (keys : List Nat) (c : MatCmd) : MatCmd :=
  if c.iss.uid == t.uid then
    let hit := fun (rs : List Nat) (lanes : Mask) =>
      (lanesOf lanes).filter (fun l => rs.any (fun r => keys.contains (regKey l r)))
    match c.op with
    | .mma a b _ _ _ lanes => { c with taint := c.taint ++ hit (a ++ b.toList) lanes }
    | .mscale a _ lanes => { c with taint := c.taint ++ hit [a] lanes }
    | .sieve _ m =>
      let owed := (List.range 32).filter (fun l => (owedNow t c.iss.handler [regKey l m]).any (fun k => keys.contains k))
      if word then { c with taint := c.taint ++ owed } else c
    | _ => c
  else c

/-- The matrix commands of a team after writes to its registers. -/
def taintBy (word : Bool) (s : State) (t : Team) (keys : List Nat) : State :=
  { s with
    cores := s.cores.map (fun c => if c.id == t.core then { c with mat := c.mat.map (taintCmd t word keys) } else c) }

/-- After the writes of a fixed-latency word. -/
def taint (s : State) (t : Team) (keys : List Nat) : State := taintBy true s t keys

/-- After writes that no word makes as it issues: values that land, a trap's entry and the return from it. -/
def taintRows (s : State) (t : Team) (keys : List Nat) : State := taintBy false s t keys

/-! ### Flags (R30) and places in a clause (R29) -/

/-- The code address of the word at the team's place. -/
def wordAddr (t : Team) : Word := t.pc + BitVec.ofNat 32 (4 * t.wix)

/-- The address of the word after it. -/
def nextAddr (t : Team) : Word := wordAddr t + 4

/-- The word index of the unit that holds the team's place: its first hint, or the word itself (R35, R339). -/
def unitIx (t : Team) : Nat :=
  match t.hints with
  | some h => h.start
  | none => t.wix

/-- The team without what belongs to the word at its place: hints, resume mask, gathered values, and what its passes have done. -/
def Team.wordOver (t : Team) : Team :=
  { t with hints := none, resume := none, gather := none, pass := none, begun := false, faulted := [], done := 0 }

/-- The team at the header at an address. -/
def goto (t : Team) (a : Word) : Team := { t.wordOver with pc := a, wix := 0 }

/-- The team after its word: the next word of the clause, or the header that follows the clause (R27). Applied hints are
gone, and so is a resume mask. -/
def advance (t : Team) : Team :=
  if t.wix < t.clause.len then { t.wordOver with wix := t.wix + 1 } else goto t (nextAddr t)

/-- The team counted one issued word (R351 icnt); the later passes of a word that has begun count no more. -/
def counted (t : Team) : Team := { t with icnt := if t.begun then t.icnt else t.icnt + 1 }

/-- A flag counter changed by a function (R30). -/
def flagMap (t : Team) (i : Nat) (f : Nat → Nat) : Team :=
  { t with flags := t.flags.setIfInBounds i (f (t.flags.toList.getD i 0)) }

/-- The counter of a flag. -/
def flagOf (t : Team) (i : Nat) : Nat := t.flags.toList.getD i 0

/-! ### Lanes and the reconvergence stack (R275 to R277) -/

/-- Lanes removed from the team: from the live and active masks and from every entry (R276). -/
def removeLanes (t : Team) (m : Mask) : Team :=
  { t with
    live := t.live &&& ~~~m, active := t.active &&& ~~~m
    stack := t.stack.map (fun e => { e with rmask := e.rmask &&& ~~~m, pmask := e.pmask &&& ~~~m })
    resume := t.resume.map (fun r => r &&& ~~~m), faulted := t.faulted.filter (fun f => !m.getLsbD f.lane) }

/-- The resume step of R277 over a stack, top first: the stack left, the lanes that run and where; no lanes when none is
left. -/
def resumeStack : List StackEntry → List StackEntry × Option (Mask × Word)
  | [] => ([], none)
  | e :: rest =>
    if e.kind ≠ .call ∧ e.pmask ≠ 0 then ({ e with pmask := 0 } :: rest, some (e.pmask, e.ppc))
    else if e.kind = .recon ∧ e.rmask ≠ 0 then (rest, some (e.rmask, e.rpc))
    else resumeStack rest

/-- The resume step on a team (R277): the next lanes run, or no live lane is left and the team waits for its end. -/
def resumeStep (t : Team) : Team :=
  match resumeStack t.stack with
  | (st, some (m, a)) => goto { t with stack := st, active := m } a
  | (st, none) => { goto t t.pc with stack := st, active := 0 }

/-- The entries above the handler's base, or all of them outside a handler (R340); top first. -/
def ownStack (t : Team) : List StackEntry :=
  match t.handler with
  | some h => t.stack.take (t.stack.length - h.base)
  | none => t.stack

/-- The team has no live lane left: it is at its end (R276, R288). -/
def Team.ending (t : Team) : Bool := t.live == 0

/-! ### Fault records -/

/-- The record of a team-wide trap (R330): it names the lowest group that holds a lane of the mask. -/
def mkRec (cls : Nat) (t : Team) (m : Mask) (addr aux : DWord) : Rec :=
  let g := lowLane m / 128
  { cls := cls, grp := g, pc := wordAddr t, lmask := groupOf m g, addr := addr, aux := aux, dlv := false }

/-- A lane's fault put among others, by lane. -/
def insertFault (f : LaneFault) : List LaneFault → List LaneFault
  | [] => [f]
  | x :: rest => if f.lane < x.lane then f :: x :: rest else x :: insertFault f rest

/-- The records of lane-partial faults (R105): for each group, ascending, and each class in it, ascending, one record with
the lanes, and the address and aux of the lowest lane. -/
def faultRecs (t : Team) (fs : List LaneFault) : List Rec :=
  (List.range 8).flatMap (fun g =>
    let mine := (fs.filter (fun f => f.lane / 128 == g)).foldl (fun acc f => insertFault f acc) []
    (List.range 256).filterMap (fun c =>
      match mine.filter (fun f => f.cls == c) with
      | [] => none
      | f :: rest =>
        some { cls := c, grp := g, pc := wordAddr t, lmask := groupOf (maskOf ((f :: rest).map LaneFault.lane)) g,
               addr := f.addr, aux := f.aux, dlv := false }))

/-- The records of lost lanes (R97): one for each group, which names the place of the first lane listed (DEDUCED, log entry 106). -/
def lossRecs (pc : Word) (ls : List Loss) : List Rec :=
  (List.range 8).filterMap (fun g =>
    match ls.filter (fun l => l.lane / 128 == g) with
    | [] => none
    | l :: rest =>
      some { cls := 0x12, grp := g, pc := pc, lmask := groupOf (maskOf ((l :: rest).map Loss.lane)) g,
             addr := l.addr, aux := BitVec.ofNat 64 l.hop, dlv := false })

/-- The 64 bytes of a record (R334). -/
def recBytes (t : Team) (r : Rec) (flags nrec idx : Nat) : List Byte :=
  bytesOf 1 r.cls ++ bytesOf 1 flags ++ bytesOf 1 (r.grp % 8) ++ bytesOf 1 nrec ++ bytesOf 2 t.ctx ++
    bytesOf 2 (t.index % 16) ++ bytesOf 4 t.grid ++ bytesOf 4 t.clus ++ bytesOf 4 r.pc.toNat ++
    bytesOf 4 (coreCoord t.core).toNat ++ bytesOf 16 r.lmask.toNat ++ bytesOf 8 r.addr.toNat ++
    bytesOf 8 r.aux.toNat ++ bytesOf 4 idx ++ bytesOf 4 0

/-! ### The fault record queue (R333 to R336) -/

/-- Records the queue can hold: 2^(8 + LQ). -/
def frqCap (c : Context) : Nat := 2 ^ (8 + c.frqb.toNat % 16)

/-- The virtual address of the record of an index (R333). -/
def frqVa (c : Context) (i : Nat) : DWord :=
  BitVec.ofNat 64 (c.frqb.toNat / 16 * 2 ^ 20 + 64 * (i % frqCap c))

/-- HEAD advanced over slots whose CLASS reads 0 at the home (R336); at most k slots. -/
def frqAdvance (s : State) (root : RootDesc) (c : Context) : Nat → Word → Word
  | 0, h => h
  | k + 1, h =>
    if h = c.frqt then h
    else
      match translate s root (frqVa c h.toNat) .read none with
      | .ok x => if homeByte s x.pa = 0 then frqAdvance s root c k (h + 1) else h
      | .fault .. => h

/-- Room for n records? TAIL - HEAD + n against the capacity (R336). -/
def frqRoom (c : Context) (n : Nat) : Bool := decide ((c.frqt - c.frqh).toNat + n ≤ frqCap c)

/-- The context with HEAD advanced where n records do not fit otherwise (R336). -/
def frqMakeRoom (s : State) (root : RootDesc) (c : Context) (n : Nat) : Context :=
  if frqRoom c n then c else { c with frqh := frqAdvance s root c (frqCap c) c.frqh }

/-- The pages of the next n records are mapped and writable (R363). -/
def frqMapped (s : State) (root : RootDesc) (c : Context) (n : Nat) : Bool :=
  (List.range n).all (fun i =>
    match translate s root (frqVa c (c.frqt.toNat + i)) .write none with
    | .ok _ => true
    | .fault .. => false)

/-- The records written at their places, from index idx (R334). -/
def writeRecs (s : State) (t : Team) (c : Context) (hnd kill noh : Bool) (nrec : Nat) : Nat → List Rec → State
  | _, [] => s
  | idx, r :: rest =>
    let b := fun (x : Bool) (v : Nat) => if x then v else 0
    let flags := b hnd 1 + b kill 2 + b r.dlv 4 + b t.block.isSome 8 + b noh 16
    match translate s t.root (frqVa c idx) .write none with
    | .ok x =>
      let s := l1Drop (homeWrite s x.pa (recBytes t r flags nrec (idx % 2 ^ 32))) t.core (x.pa / 64)
      writeRecs s t c hnd kill noh nrec (idx + 1) rest
    | .fault .. => s

/-! ### Performing stores -/

/-- FP32 addition of R82 and R270: RNE, canonical NaN, subnormals kept. -/
def fadd32 (a b : Nat) : Nat := rne .fp32 (fAdd 0 (Fmt.fp32.val a) (Fmt.fp32.val b)).1

/-- An atomic step on an n-byte word: codes of R270. -/
def atomStep (n op o v : Nat) : Nat := if op = 10 then fadd32 o v else atomInt (8 * n) op o v

/-- The team as an instruction has changed it, with its scratchpad as performed stores have left it. -/
def renew (s : State) (t : Team) : Team :=
  match findTeam s t.uid with
  | some x => { t with scr := x.scr, scrBad := x.scrBad }
  | none => t

/-- Scratch bytes of a team written; a whole word loses its poison (R144). -/
def scrWrite (t : Team) (off : Nat) (bs : List Byte) : Team :=
  { t with
    scr := sputs 0 t.scr ((List.range bs.length).map (fun i => (off + i, bs.getD i 0)))
    scrBad := (List.range ((off + bs.length) / 4 - (off + 3) / 4)).foldl
      (fun acc i => sput false acc ((off + 3) / 4 + i) false) t.scrBad }

/-- The operand line buffer of a core keeps its copy of rows that the core's own teams and engines write (R229). -/
def bufUpdate (s : State) (core into off : Nat) (bs : List Byte) : State :=
  { s with
    opbuf := s.opbuf.map (fun b =>
      if b.core == core && b.uid == into && decide (b.off < off + bs.length ∧ off < b.off + b.data.length) then
        { b with data := (List.range b.data.length).map (fun i =>
            if off ≤ b.off + i ∧ b.off + i < off + bs.length then bs.getD (b.off + i - off) 0 else b.data.getD i 0) }
      else b) }

/-- Bytes of a team's scratchpad written from a core (R144, R229). -/
def scrPut (s : State) (core into off : Nat) (bs : List Byte) : State :=
  match findTeam s into with
  | some t =>
    bufUpdate (setTeam s (scrWrite t off bs)) core into off bs
  | none => s

/-- Bytes of a team's scratchpad written by anyone but a copy command. -/
def scrStore (s : State) (core into off : Nat) (bs : List Byte) (src : Option (Nat × Nat) := none) : State :=
  scrPut (noteWrite s (some into) off bs.length false src) core into off bs

/-- One entry of the store path performed at its home (R262, R267, R271, R144). The pieces that an instruction's lanes, or the
stores of a write-combining buffer, write into one line may cover it whole (R96, R262, R267). A red on a poisoned word changes
nothing (R271). -/
def performEnt (s : State) (e : StoreEnt) : State :=
  let s := { s with stores := s.stores.filter (fun f => f.seq != e.seq) }
  match e.kind with
  | .st | .nt | .rel _ =>
    noteCover (markFirst (homeWrite s e.addr e.data (some (e.uid, e.seq))) (isNt e) e.addr) e.grp e.addr e.data.length
  | .red op _ _ =>
    if hopOf s e.addr e.data.length ≠ 0 then s
    else
      let n := e.data.length
      l1Drop (homeWrite s e.addr (bytesOf n (atomStep n op (natOf (homeBytes s e.addr n)) (natOf e.data)))
        (some (e.uid, e.seq))) e.core
        (e.addr / 64)
  | .scr into => scrStore s e.core into e.addr e.data (some (e.uid, e.seq))
  | .fence _ | .ntdrain _ | .launch => s

/-- Every entry of the list performed, in order. -/
def performAll (s : State) (es : List StoreEnt) : State := es.foldl performEnt s

/-- The entries of the store path that p selects are performed, with all that must be performed before them. -/
def performSet (s : State) (p : StoreEnt → Bool) : State := performAll s (closeSet s p)

/-- A core's write-throughs drained (R266). -/
def drainCore (s : State) (core : Nat) : State := performSet s (fun e => e.core == core && !isNt e)

/-- A release of a team performed at once (R336, R316, R264): its entries and its core's, but st.nt, of which only those that an
ntdrain follows (R87, R264, R267). -/
def releaseNow (s : State) (u : Nat) : State :=
  let core := match findTeam s u with
    | some t => t.core
    | none => 0
  performSet s (fun e => (e.uid == u || e.core == core) && !isNt e)

/-- An entry of the scratchpad (R144). -/
def isScr (e : StoreEnt) : Bool :=
  match e.kind with
  | .scr _ => true
  | _ => false

/-- A red request (R271). -/
def isRed (e : StoreEnt) : Bool :=
  match e.kind with
  | .red .. => true
  | _ => false

/-- What a release at .cr or wider does as it issues: the teams of its core may read it from now on, and so must find the
team's earlier accesses: scratch stores and reds are performed, stores are shown (R255, R259, R264). -/
def showNow (s : State) (u : Nat) : State := showAll (performSet s (fun e => e.uid == u && (isScr e || isRed e))) u

/-- A fence at any scope orders scratch accesses at their target pools (R269). -/
def scrNow (s : State) (u : Nat) : State := performSet s (fun e => e.uid == u && isScr e)

/-- The team's pending releases at a scope or wider are performed, with what they cover: what an acquire waits for (R260). The
store of a release at .cr or .tm is performed as it issues (R255), a red never before its home (R271). -/
def flushReleases (s : State) (u scope : Nat) : State :=
  performSet s (fun e => e.uid == u && relScope e != 0 && (isRed e || decide (3 ≤ relScope e)) && decide (scope ≤ relScope e))

/-- The team's release fences and ntdrains are performed: what comes before its later writes and fences (R268, R269). -/
def flushFences (s : State) (u : Nat) : State := performSet s (fun e => e.uid == u && (isFence e || isDrain e))

/-- The team's ntdrains are performed: what a release or a fence that acts as it issues comes after (R268). -/
def drainNow (s : State) (u : Nat) : State := performSet s (fun e => e.uid == u && isDrain e)

/-- The team's reds are performed: an acquire fence comes after them (R269). -/
def redsNow (s : State) (u : Nat) : State := performSet s (fun e => e.uid == u && isRed e)

/-- A release at .dv of all a team's accesses, st.nt included: what a save, a revocation and the team's end do (R256, R273, R400).
Like every release at .cl or wider it has its core's write-throughs performed (R87, R264). -/
def drainAll (s : State) (u : Nat) : State :=
  let core := (findTeam s u).map Team.core
  performSet s (fun e => e.uid == u || (some e.core == core && !isNt e))

/-- What an engine command of a team on a core comes after (R130, R229, R265): of the entries below a bound the team's, and those
that a release has shown to the core's teams. -/
def drainBelow (s : State) (u core bound : Nat) : State :=
  performSet s (fun e => (e.uid == u || (e.core == core && e.shown)) && decide (e.seq < bound))

/-- The entry touches n bytes from pa of main memory. -/
def touches (e : StoreEnt) (pa n : Nat) : Bool := writesMem e && decide (e.addr < pa + n ∧ pa < e.addr + e.data.length)

/-- The entries that a team's access to n bytes from pa comes after: the team's own reds to them (R271); for an access at the
home those that a release has shown to the core's teams (R259); for an atomic the team's every access to the location and its
fences (R256, R269). -/
def performUpTo (s : State) (t : Team) (pa n : Nat) (home atomic : Bool) : State :=
  performSet s (fun e =>
    (e.uid == t.uid && ((touches e pa n && (atomic || isRed e)) || (atomic && isFence e))) ||
      (home && e.core == t.core && e.shown && touches e pa n))

/-- As performUpTo of an atomic, for bytes of the scratchpad of team `to` (R145, R147). -/
def performScrUpTo (s : State) (u into off n : Nat) : State :=
  performSet s (fun e =>
    e.uid == u && (isFence e || (e.kind == .scr into && decide (e.addr < off + n ∧ off < e.addr + e.data.length))))

/-! ### Ending a grid (R289, R345) -/

/-- A command is not the team's. -/
def notOf (us : List Nat) (i : Issue) : Bool := !us.contains i.uid

/-- Every engine command of a team, copy queues first, with its stage. -/
def teamIssues (s : State) (u : Nat) : List (Issue × Stage) :=
  s.cores.flatMap (fun c =>
    (c.copy0 ++ c.copy1).filterMap (fun x => if x.iss.uid == u then some (x.iss, x.stage) else none) ++
      c.mat.filterMap (fun x => if x.iss.uid == u then some (x.iss, x.stage) else none))

/-- An issue put among others, ascending by number. -/
def insertIssue (i : Issue) : List Issue → List Issue
  | [] => [i]
  | x :: rest => if i.seq < x.seq then i :: x :: rest else x :: insertIssue i rest

/-- The global sectors that a cancelled command has begun and not finished are as they were before it, but for what others have
written there since; gone are the numbers of the commands cancelled with it (R129, R228, R289). -/
def undoIssue (gone : List Nat) (s : State) (i : Issue) : State :=
  let since := (s.journal.drop i.stood).filter (fun r => !r.cmd.any gone.contains)
  let s := (i.undo.filter (fun u => !since.any (fun r => r.coversPa u.1))).foldl (fun s u => homePut s u.1 [u.2]) s
  { s with l2Bad := i.undoBad.foldl (fun m l => sput 0 m l 0) s.l2Bad }

/-- What the commands of some teams have begun and not finished is undone, the latest command first. -/
def undoCommands (s : State) (us : List Nat) : State :=
  let is := ((us.flatMap (teamIssues s)).map Prod.fst).foldl (fun acc i => insertIssue i acc) []
  is.reverse.foldl (undoIssue (is.map Issue.seq)) s

/-- The engine commands of the teams are gone from every core, each global sector of theirs whole or unchanged (R289, R129,
R228). -/
def dropCommands (s : State) (us : List Nat) : State :=
  let s := undoCommands s us
  { s with
    cores := s.cores.map (fun c =>
      { c with
        copy0 := c.copy0.filter (fun x => notOf us x.iss), copy1 := c.copy1.filter (fun x => notOf us x.iss)
        mat := c.mat.filter (fun x => notOf us x.iss)
        plane := match c.plane with
          | some u => if us.contains u then none else some u
          | none => none
        issuing := match c.issuing with
          | some u => if us.contains u then none else some u
          | none => none })
    opbuf := s.opbuf.filter (fun b => !us.contains b.uid)
    remote := s.remote.filter (fun r => !us.contains r.uid) }

/-- The numbers of a team's engine commands. -/
def commandSeqs (s : State) (us : List Nat) : List Nat :=
  s.cores.flatMap (fun c =>
    ((c.copy0 ++ c.copy1).filter (fun x => us.contains x.iss.uid)).map (fun x => x.iss.seq) ++
      (c.mat.filter (fun x => us.contains x.iss.uid)).map (fun x => x.iss.seq))

/-- Leave requests and grants of commands are withdrawn (R311). -/
def withdraw (s : State) (seqs : List Nat) : State :=
  { s with
    dies := s.dies.map (fun d =>
      { d with asking := d.asking.filter (fun q => !seqs.contains q), granted := d.granted.filter (fun q => !seqs.contains q) }) }

/-- The lease granules of a team go to the scrubber of its core (R395). -/
def scrubLeases (s : State) (t : Team) : State :=
  if t.leases.isEmpty then s
  else
    let c := coreOf s t.core
    setCore s { c with scrub := c.scrub ++ t.leases }

/-- The grid ends, killed by a team at a PC (R289, R345): its teams, commands and clusters are gone, and GRID_WAIT reports it
(R367). Accesses already issued stay. -/
def killGrid (s : State) (ctx grid team clus : Nat) (pc : Word) : State :=
  let ts := s.teams.filter (fun t => t.ctx == ctx && t.grid == grid)
  let us := ts.map Team.uid
  let s := ts.foldl scrubLeases s
  let s := withdraw s (commandSeqs s us)
  let s := dropCommands s us
  let s := { s with
    teams := s.teams.filter (fun t => !(t.ctx == ctx && t.grid == grid))
    clusters := s.clusters.filter (fun k => !(k.ctx == ctx && k.grid == grid))
    partials := s.partials.filter (fun k => !(k.ctx == ctx && k.grid == grid)) }
  match findGrid s ctx grid with
  | some g => setGrid s ctx { g with st := .killed, killTeam := team, killClus := clus, killPc := pc }
  | none => s

/-! ### Frozen engine commands -/

/-- The frozen commands of a team that await delivery, in acceptance order (R335); in a handler only those that the handler
issued, the program's wait for its end (R128, R342), unless all are asked for. -/
def undelivered (s : State) (t : Team) (all : Bool) : List Issue :=
  let done := match t.handler with
    | some h => h.delivered
    | none => []
  let fs := (teamIssues s t.uid).filterMap (fun x =>
    if x.2 == .frozen && x.1.record.isSome && !done.contains x.1.seq && (all || t.handler.isNone || x.1.handler) then some x.1
    else none)
  fs.foldl (fun acc i => insertIssue i acc) []

/-- The records of frozen commands, with DLV set and no dead lane named (R334, R335). -/
def deliveryRecs (t : Team) (fs : List Issue) : List Rec :=
  fs.filterMap (fun i => i.record.map (fun r => { r with dlv := true, lmask := r.lmask &&& ~~~groupOf t.dead r.grp }))

/-! ### Taking a trap (R337 to R342) -/

/-- The virtual address of the team's trap frame (R339); none without one. -/
def frameVa (s : State) (t : Team) : Option Nat :=
  match findCtx s t.ctx, t.frame with
  | some c, some off => if c.tfrb = 0 then none else some (c.tfrb.toNat / 16 * 2 ^ 20 + off)
  | _, _ => none

/-- Bytes of a trap frame (R339). -/
def frameSize (t : Team) : Nat := 1024 + 4096 * t.hdr.grps

/-- The physical addresses of the frame's 1 KiB pieces; none where one is not readable and writable (R339). -/
def framePas (s : State) (t : Team) (va : Nat) : Option (List Nat) :=
  (List.range (frameSize t / 1024)).foldr (fun i acc =>
    match acc, translate s t.root (BitVec.ofNat 64 (va + 1024 * i)) .read none,
      translate s t.root (BitVec.ofNat 64 (va + 1024 * i)) .write none with
    | some ps, .ok x, .ok _ => some (x.pa :: ps)
    | _, _, _ => none) (some [])

/-- Where the frame keeps a lane's vi (R339). -/
def saveOffset (lane i : Nat) : Nat := 1024 + 4096 * (lane / 128) + 512 * i + 4 * (lane % 128)

/-- The place that the frame names (R339): the stopped header and word; for a delivery to a blocked team the header of its
next clause (R128, R313, R330). -/
def stopPlace (t : Team) (dlv : Bool) : Word × Nat :=
  match dlv, t.block with
  | true, some (.copy _ a) => (a, 0)
  | true, some _ => (nextAddr t, 0)
  | _, _ => (t.pc, unitIx t)

/-- The bytes of the trap frame at entry (R339). -/
def frameBytes (t : Team) (nrec cls first : Nat) (rmask : Mask) (blk dlv : Bool) : List Byte :=
  bytesOf 4 (stopPlace t dlv).1.toNat ++ bytesOf 1 (stopPlace t dlv).2 ++ bytesOf 1 nrec ++ bytesOf 1 cls ++
    bytesOf 1 ((if blk then 1 else 0) + (if dlv then 2 else 0)) ++ bytesOf 4 first ++ bytesOf 4 0 ++
    bytesOf 128 rmask.toNat ++ bytesOf 128 t.active.toNat ++ (List.range 752).map (fun _ => 0#8) ++
    (List.range t.hdr.grps).flatMap (fun g => (List.range 8).flatMap (fun i => (List.range 128).flatMap (fun j =>
      bytesOf 4 (reg t (128 * g + j) i).toNat)))

/-- The 1 KiB pieces of a frame written at their homes; the core's L1 lines of them go (R338). -/
def writePieces (s : State) (core : Nat) : List Nat → List Byte → State
  | [], _ => s
  | pa :: pas, bs =>
    let s := homeWrite s pa (bs.take 1024)
    let s := (List.range 16).foldl (fun s i => l1Drop s core (pa / 64 + i)) s
    writePieces s core pas (bs.drop 1024)

/-- Binding wi to vi for i below REGS, the rest unbound (R155, R338). -/
def identityBinds (regs : Nat) : Vector (Option (BitVec 8)) 32 :=
  Vector.ofFn (fun i => if i.val < regs then some (BitVec.ofNat 8 i.val) else none)

/-- The virtual address of a code word, which a fetch fault's record holds (R98, R105). -/
def codeVa (t : Team) (a : Word) : DWord := t.desc.code + a.setWidth 64

/-- A code word fetched through the team's root (R104, R105, R414): its physical address, or the fault. -/
def fetchPa (s : State) (t : Team) (a : Word) : XRes :=
  translate s t.root (codeVa t a) .fetch none

/-- How the records of a trap end (R342): in a handler, without a handler, without a frame or with a first word that cannot
be fetched, the grid ends. -/
def trapFin (s : State) (t : Team) (f : TrapEnd) : TrapEnd :=
  match f with
  | .enter d =>
    if t.handler.isSome then .killHandler
    else if t.trapvec = 0xFFFFFFFF then .killNoHandler
    else
      match frameVa s t with
      | none => .killNoHandler
      | some va =>
        match framePas s t va, fetchPa s t t.trapvec with
        | some _, .ok _ => .enter d
        | _, _ => .killNoHandler
  | f => f

/-- Trap entry proper, once the records stand from index first on (R338). -/
def enterHandler (s : State) (t : Team) (tr : Trap) (deliver : List Nat) (first : Nat) : State :=
  match frameVa s t with
  | none => s
  | some va =>
    match framePas s t va with
    | none => s
    | some pas =>
      let cls := match tr.recs with
        | r :: _ => r.cls
        | [] => 0
      let bytes := frameBytes t tr.recs.length cls first tr.rmask t.block.isSome (!deliver.isEmpty)
      let s := writePieces s t.core pas bytes
      -- a poisoned register is saved as poison (R96)
      let s := ((List.range t.hdr.lanes).flatMap (fun l => (List.range 8).map (fun i => (l, i)))).foldl (fun s k =>
        if regPoisoned t k.1 k.2 then
          let off := saveOffset k.1 k.2
          poisonLine s (pas.getD (off / 1024) 0 + off % 1024) 7
        else s) s
      let h : Handler :=
        { binds := t.binds, base := t.stack.length, rmask := tr.rmask, amask := t.active, block := t.block, frameVa := BitVec.ofNat 64 va,
          hdrPc := (stopPlace t (!deliver.isEmpty)).1, wix := (stopPlace t (!deliver.isEmpty)).2, pc := t.pc, stop := t.wix
          clause := t.clause, delivered := deliver
          illHdr := t.wix == 0 && tr.recs.head?.any (fun r => r.cls == 1 && !r.dlv) }
      let lanes := lanesOf t.live
      let ws := lanes.flatMap (fun l =>
        [(regKey l 0, BitVec.ofNat 32 first), (regKey l 1, BitVec.ofNat 32 cls), (regKey l 2, BitVec.ofNat 32 va),
         (regKey l 3, BitVec.ofNat 32 (va / 2 ^ 32))])
      let t := { goto t t.trapvec with
        binds := identityBinds t.hdr.regs, active := t.live, handler := some h, block := none, trap := none
        regs := sputs 0 t.regs ws
        regBad := ws.foldl (fun acc w => sput false acc w.1 false) t.regBad }
      setTeam (taintRows s t (ws.map Prod.fst)) t

/-- What follows the records (R338, R342, R345, R97). -/
def finishTrap (s : State) (t : Team) (tr : Trap) (first : Nat) : State :=
  match tr.fin with
  | .enter d => enterHandler s t tr d first
  | .lost => setTeam s { t with trap := none }
  | _ =>
    let pc := match tr.pre ++ tr.recs with
      | r :: _ => r.pc
      | [] => wordAddr t
    killGrid s t.ctx t.grid t.index t.clus pc

/-- A trap as it is entered (R335): what ends it, and, where the handler runs, the team's frozen commands that await delivery
with it. DEDUCED (log entry 81): an entry at any word delivers them, not only one at a header. -/
def entering (s : State) (t : Team) (tr : Trap) : Trap :=
  match trapFin s t tr.fin with
  | .enter d =>
    let fs := (undelivered s t false).filter (fun i => !d.contains i.seq)
    { tr with recs := tr.recs ++ deliveryRecs t fs, fin := .enter (d ++ fs.map Issue.seq) }
  | f => { tr with fin := f }

/-- The append of a team's pending records and what follows (R336, R338): the one operation of trap entry. Where the queue
has no room the team stays stalled; where its pages are not mapped the grid ends (R363). -/
def settle (s : State) (u : Nat) : State :=
  match findTeam s u with
  | none => s
  | some t =>
    -- a saved team's trap waits for its resume (R346)
    match (if t.place == .saved then none else t.trap), findCtx s t.ctx with
    | some tr0, some c0 =>
      let tr := entering s t tr0
      let n := tr.pre.length + tr.recs.length
      let c := frqMakeRoom s t.root c0 n
      let s := setCtx s c
      if !frqRoom c n then s
      else if !frqMapped s t.root c n then
        killGrid s t.ctx t.grid t.index t.clus (match tr.pre ++ tr.recs with
          | r :: _ => r.pc
          | [] => wordAddr t)
      else
        let first := c.frqt.toNat
        let s := releaseNow s u
        let kill := match tr.fin with
          | .killHandler | .killNoHandler | .kill => true
          | _ => false
        let s := setCtx s { c with frqt := c.frqt + BitVec.ofNat 32 n }
        let s := writeRecs s t c t.handler.isSome (tr.fin == .kill) false tr.pre.length first tr.pre
        let first := first + tr.pre.length
        let s := writeRecs s t c t.handler.isSome kill (tr.fin == .killNoHandler) tr.recs.length first tr.recs
        match findTeam s u with
        | some t' => finishTrap s t' tr first
        | none => s
    | _, _ => s

/-- A team takes a trap: its records wait, and are appended at once where there is room (R330, R336). -/
def raiseTrap (s : State) (t : Team) (recs : List Rec) (rmask : Mask) (fin : TrapEnd) (wide : Bool := true) : State :=
  settle (setTeam s { t with
    trap := some { pre := [], recs := recs, rmask := rmask, fin := fin, wide := wide }
    pass := if t.hold.isSome then t.pass else none }) t.uid

/-- A precise team-wide trap (R330): one record, resume mask the active lanes. -/
def raiseWide (s : State) (t : Team) (cls : Nat) (addr aux : DWord) : State :=
  raiseTrap s t [mkRec cls t t.active addr aux] t.active (.enter [])

/-- The aux of an ILLOP (R45): the word in bits 31-0, the reason in 39-32, a check number in 47-40. -/
def illAux (w : Word) (reason check : Nat) : DWord :=
  BitVec.ofNat 64 (w.toNat + reason * 2 ^ 32 + check * 2 ^ 40)

/-- ILLOP at the team's word (R45). -/
def raiseIll (s : State) (t : Team) (reason check : Nat) : State :=
  raiseWide s t 0x01 0 (illAux t.ir reason check)

/-- The end of a block (R277, R313): the team goes on after its word, or by the resume step where no lane of the word is left. -/
def unblock (t : Team) : Team :=
  if t.active == 0 then resumeStep { t with block := none } else advance { t with block := none }

/-- The team without lanes lost to poison (R97): they are dead, and where no active lane is left it continues by the resume
step (R276). A block, or a word that awaits a peer, goes on without lanes and takes that step at its end (R277). -/
def killLanes (t : Team) (ls : List Loss) : Team :=
  let m := maskOf (ls.map Loss.lane)
  let t := { removeLanes t m with dead := t.dead ||| m }
  if t.active != 0 || t.hold.isSome then t
  else if t.live == 0 || t.block.isNone then resumeStep { t with block := none }
  else t

/-- A record of a trap whose resume mask has become left, without the lanes that have died meanwhile (R335); none where no lane is left
that it is about. The records of lost lanes and of frozen commands stay. A team-wide trap's record names the lowest group that still
has active lanes (R330). -/
def Rec.trim (wide : Bool) (left m : Mask) (r : Rec) : Option Rec :=
  if r.cls = 0x12 then some r
  else
    let r := { r with lmask := r.lmask &&& ~~~groupOf m r.grp }
    if r.dlv || r.lmask != 0 then some r
    else if wide && r.cls != 0x10 && left != 0 then
      let g := lowLane left / 128
      some { r with grp := g, lmask := groupOf left g }
    else none

/-- A trap that still waits names no lane that has died meanwhile (R335); where none of its lanes is left it is none, and only lost
lanes' records remain. -/
def Trap.trim (tr : Trap) (m : Mask) : Trap :=
  let left := tr.rmask &&& ~~~m
  let recs := tr.recs.filterMap (Rec.trim tr.wide left m)
  { tr with recs := recs, rmask := left, fin := if recs.isEmpty && tr.fin == .enter [] then .lost else tr.fin }

/-- A trap of the team waits and stops it: it is more than records of lanes that are lost already (R97, R336). -/
def trapStops (t : Team) : Bool :=
  match t.trap with
  | some tr => tr.fin != .lost
  | none => false

/-- Lanes lost to poison (R97): records name them, and under LANEKILL the grid ends. The records of a team that stalls on
the queue already join those that wait. -/
def loseLanes (s : State) (t : Team) (pc : Word) (ls : List Loss) : State :=
  match ls with
  | [] => setTeam s t
  | _ =>
    let recs := lossRecs pc ls
    let t' := killLanes t ls
    match t.trap with
    | none => raiseTrap s t' recs 0 (if t.hdr.laneKill then .kill else .lost)
    | some tr =>
      let cut := tr.trim (maskOf (ls.map Loss.lane))
      let done := cut.fin == .lost && tr.fin != .lost && t'.active != 0 && t'.block.isNone
      let tr := { cut with pre := cut.pre ++ recs, fin := if t.hdr.laneKill then TrapEnd.kill else cut.fin }
      settle (setTeam s { (if done then advance t' else t') with trap := some tr }) t.uid

/-- A record put among others by group and then by class (R335). -/
def insertRec (r : Rec) : List Rec → List Rec
  | [] => [r]
  | x :: rest => if r.grp * 256 + r.cls < x.grp * 256 + x.cls then r :: x :: rest else x :: insertRec r rest

/-- A lane-partial trap (R105, R163) of a word that also loses lanes to poison: one entry, its records by group and class (R335).
With no lane left the team goes on by the resume step. -/
def raisePartial (s : State) (t : Team) (fs : List LaneFault) (ls : List Loss) : State :=
  let lost := lossRecs (wordAddr t) ls
  let recs := faultRecs t fs
  if ls.isEmpty then raiseTrap s t recs (maskOf (fs.map LaneFault.lane)) (.enter []) false
  else if t.hdr.laneKill then raiseTrap s (killLanes t ls) lost 0 .kill
  else raiseTrap s (killLanes t ls) (lost.foldl (fun acc r => insertRec r acc) recs) (maskOf (fs.map LaneFault.lane)) (.enter []) false

end Sys2Proof.Machine
end

