-- ==== Sys2Proof/Machine/Flags.lean ====
section
/-! DEFINITION. Exception bits of lanes (R73, R74, R209) and the completion flags an instruction counts on (R30, R31). -/

namespace Sys2Proof.Machine

/-- The four sticky bits of a lane (R73). -/
def fpxOf (t : Team) (lane : Nat) : BitVec 4 := sget 0 t.fpx lane

/-- Exception bits set in lanes: (lane, bits) pairs ORed in (R73). -/
def orFpx (t : Team) (fs : List (Nat × Nat)) : Team :=
  { t with fpx := fs.foldl (fun acc f => sput 0 acc f.1 (sget 0 acc f.1 ||| BitVec.ofNat 4 f.2)) t.fpx }

/-- DRD set in lanes (R209). -/
def setDrd (t : Team) (ls : List Nat) : Team :=
  { t with xdead := ls.foldl (fun acc l => sput false acc l true) t.xdead }

/-- The live lanes whose sticky bits meet FPXEN (R74). -/
def arithLanes (t : Team) : List Nat :=
  (lanesOf t.live).filter (fun l => (fpxOf t l &&& BitVec.ofNat 4 t.hdr.fpxEn) != 0)

/-- The records of an ARITH trap (R74): one for each group that holds such lanes, naming them. -/
def arithRecs (t : Team) (ls : List Nat) : List Rec :=
  (groupsOf (maskOf ls)).map (fun g =>
    { cls := 0x10, grp := g, pc := wordAddr t, lmask := groupOf (maskOf ls) g, addr := 0, aux := 0, dlv := false })

/-- The flag number that setA or setB of the clause names; none for 15 (R26, R31). -/
def flagNo (x : BitVec 4) : Option Nat := if x = 15 then none else some x.toNat

/-- The flag an E-format instruction counts on (R31): none for fs = 00. -/
def selFlag (t : Team) (f : BitVec 2) : Option Nat :=
  if f = 1 then flagNo t.clause.seta else if f = 2 then flagNo t.clause.setb else none

/-- A flag counted by one accepted instruction (R30). -/
def countFlag (t : Team) (i : Option Nat) : Team :=
  match i with
  | some n => flagMap t n (· + 1)
  | none => t

/-- A flag released by one completed instruction (R30). -/
def releaseFlag (t : Team) (i : Option Nat) : Team :=
  match i with
  | some n => flagMap t n (· - 1)
  | none => t

end Sys2Proof.Machine
end

