-- ==== Sys2Proof/Machine/Operands.lean ====
section
/-! DEFINITION. How an instruction word gets to its effect: the ILLOP causes of R45, unbound slots (R158), executing lanes
(R21, R162), the forms of operands and immediates (R25, R171), and the shared shape of a per-lane instruction. -/

namespace Sys2Proof.Machine

/-- What exec answers. -/
abbrev Out := Host.Outcome State Fault Refusal

/-- An event that cannot come about. -/
def notEnabled (name : String) : Out := .refused (.notEnabled name)

/-- The modifiers of the preceding mod hint (R37). -/
def hintMods (t : Team) : Mods := (t.hints.bind Hints.mod).getD Mods.zero

/-- The ext payload of the preceding ext hint (R36). -/
def extOf (t : Team) : Option (BitVec 20) := t.hints.bind Hints.ext

/-- The modifiers of R41; none where a field is set twice. -/
def effMods (t : Team) : Option Mods := mergeMods (hintMods t) t.fmod

/-- The modifiers the word executes with (R41), or with which a malformed word's other causes are looked for (R45). -/
def modsOf (t : Team) : Mods := (effMods t).getD (preferMods (hintMods t) t.fmod)

/-- The reason list of a condition. -/
def because (b : Bool) (r : Nat) : List Nat := if b then [r] else []

/-- The ILLOP causes that a word at the team's place shows by itself (R45), each by its reason code. At a header's place the word
is one that is not a header (R27). -/
def reasons (i : Instr) (t : Team) : List Nat :=
  let m := modsOf t
  because (reservedField i m) 0x04 ++ because (misaligned i m) 0x05 ++
    because ((extOf t).isSome && !acceptsExt i) 0x07 ++
    because ((effMods t).isNone || !takesMods (iopOf i) (hintMods t) || !takesMods (iopOf i) m || formRefusesMods i m) 0x08 ++
    because (t.wix == 0) 0x0C ++ because (endsClause i && t.wix != t.clause.len) 0x0D ++
    because ((loadClass i && t.clause.seta == 15) || (flagSel i == some 1 && t.clause.seta == 15) ||
      (flagSel i == some 2 && t.clause.setb == 15)) 0x0E

/-- The lowest of a list of reason codes (R45). -/
def lowest : List Nat → Option Nat
  | [] => none
  | r :: rs => some (rs.foldl min r)

/-- The cause with the lowest reason code, and its check number (R45). -/
def lowestCause (cs : List (Nat × Nat)) : Option (Nat × Nat) := cs.find? (fun c => lowest (cs.map Prod.fst) == some c.1)

/-- The lowest-numbered slot at fault, with WHY 0x01 for a read and 0x02 for a write (R158). -/
def unboundOf (t : Team) (reads writes : List Nat) : Option (Nat × Nat) :=
  let free := fun n => (slotReg t n).isNone
  let r := reads.filter free
  match lowest (r ++ writes.filter free) with
  | none => none
  | some n => some (n, if r.contains n then 1 else 2)

/-- A word that orders the team's accesses finds its earlier loads served: their values stand (R256, R258). -/
def sealFor (i : Instr) (m : Mods) (t : Team) : Team := if fixesLoads i m then t.sealed else t

/-- The front of every instruction word: without an issuing team a fault; else ILLOP by the lowest reason (R45), of which own
gives those that the instruction's own rule finds in its operands; then SLOT_UNBOUND (R158, R332); then the instruction itself,
whose word counts as issued (R351 icnt). -/
def withCauses (i : Instr) (s : State) (reads writes : Mods → List Nat) (own : Team → Mods → List (Nat × Nat))
    (k : Team → Mods → Out) : Out :=
  match curTeam s with
  | none => .fault .noIssuingTeam
  | some t =>
    let m := modsOf t
    match lowestCause ((reasons i t).map (fun r => (r, 0)) ++ own t m) with
    | some (r, c) => .next (raiseIll s t r c)
    | none =>
      match unboundOf t (reads m) (writes m) with
      | some (n, why) => .next (raiseWide s t 0x0E 0 (BitVec.ofNat 64 (n * 256 + why)))
      | none => k (sealFor i m (counted t)) m

/-- The front of a word whose rule names no cause of ILLOP in its operands. -/
def withWord (i : Instr) (s : State) (reads writes : Mods → List Nat) (k : Team → Mods → Out) : Out :=
  withCauses i s reads writes (fun _ _ => []) k

/-! ### Executing lanes -/

/-- The lanes that the word has still to execute: the active ones, of the resume mask where one stands (R162), without those that
have met their faults already (R163). -/
def toDo (t : Team) : Mask :=
  match t.resume with
  | some r => t.active &&& r &&& ~~~maskOf (t.faulted.map LaneFault.lane)
  | none => t.active

/-- Those of them whose passes the issue unit lets go now (R293). -/
def candidates (t : Team) : Mask :=
  match t.pass with
  | some m => toDo t &&& m
  | none => toDo t

/-- A lane's slot is a pending destination (R33). -/
def slotPending (s : State) (t : Team) (lane n : Nat) : Bool :=
  match slotReg t n with
  | some r => (pendKeys s t).contains (regKey lane r)
  | none => false

/-- Reading the slot in the lane consumes poison (R97); a pending destination gives an undefined value instead (R33). -/
def readsPoison (s : State) (t : Team) (lane n : Nat) : Bool := slotPoisoned t lane n && !slotPending s t lane n

/-- The slot a predicate selector reads (R21). -/
def predSlot (p : BitVec 2) : List Nat := if p = 0 then [] else if p = 3 then [30] else [31]

/-- The predicate selects the lane (R21). Where its slot is a pending destination the lane's result is undefined, as if it
had been selected (R33). -/
def predHolds (s : State) (t : Team) (p : BitVec 2) (lane : Nat) : Bool :=
  (predSlot p).any (slotPending s t lane) ||
    (if p = 0 then true
     else if p = 1 then (slot t lane 31).getLsbD 0
     else if p = 2 then !(slot t lane 31).getLsbD 0
     else (slot t lane 30).getLsbD 0)

/-- The lanes of a mask that the predicate selects, ascending (R21). -/
def selected (s : State) (t : Team) (p : BitVec 2) (m : Mask) : List Nat := (lanesOf m).filter (predHolds s t p)

/-- The executing lanes, ascending (R21, R162). -/
def execLanes (s : State) (t : Team) (p : BitVec 2) : List Nat := selected s t p (candidates t)

/-- The lanes of a mask that consume a poisoned register in reading their predicate or their sources (R97). -/
def lostOf (s : State) (t : Team) (p : BitVec 2) (srcs : List Nat) (m : Mask) : List Nat :=
  (lanesOf m).filter (fun l =>
    (predSlot p).any (readsPoison s t l) || (predHolds s t p l && srcs.any (readsPoison s t l)))

/-- The executing lanes that are lost to poisoned operands. -/
def lostLanes (s : State) (t : Team) (p : BitVec 2) (srcs : List Nat) : List Nat := lostOf s t p srcs (candidates t)

/-- A register loss: no address, hop code 0x07 of the pool (R94, R97). -/
def regLoss (l : Nat) : Loss := { lane := l, addr := 0, hop := 7 }

/-- The slots n, n + 1, ..., of a pair, quad or eight (R22). -/
def slotsFrom (x : BitVec 5) (k : Nat) : List Nat := seqFrom x.toNat k

/-- One slot. -/
def s1 (x : BitVec 5) : List Nat := [x.toNat]

/-- A pair of slots (R22). -/
def s2 (x : BitVec 5) : List Nat := slotsFrom x 2

/-- The lowest active lane, in which a once-per-team instruction reads its operands. -/
def lead (t : Team) : Nat := lowLane t.active

/-! ### Immediates (R25, R171) -/

/-- The 32-bit immediate of an ext hint and imm12 (R25). -/
def extImm (e : BitVec 20) (i : BitVec 12) : Word := e ++ i

/-- imm12 sign-extended, or the ext value. -/
def immS (e : Option (BitVec 20)) (i : BitVec 12) : Word :=
  match e with
  | some x => extImm x i
  | none => i.signExtend 32

/-- imm12 zero-extended, or the ext value. -/
def immZ (e : Option (BitVec 20)) (i : BitVec 12) : Word :=
  match e with
  | some x => extImm x i
  | none => i.setWidth 32

/-- The two slots of a 64-bit result: low word first (R22). -/
def pairWords (v : DWord) : List Word := [v.setWidth 32, (v >>> 32).setWidth 32]

/-- The 64-bit value of two words, low word first. -/
def pair (lo hi : Word) : DWord := hi ++ lo

/-! ### Per-lane instructions -/

/-- The register writes of one lane: its result words in the registers of its destination slots; free values where a source
is a pending destination (R33). -/
def laneWrites (s : State) (t : Team) (lane : Nat) (dsts : List Nat) (undef : Bool) (ws : List Word) :
    List (Nat × Word) :=
  (dsts.zip ws).filterMap (fun dw =>
    match slotReg t dw.1 with
    | some r => some (regKey lane r,
        if undef then freeBits 32 (s.fresh + 2 ^ 18 + regKey lane r) else dw.2)
    | none => none)

/-- A lane reads a pending destination (R33). -/
def readsPending (s : State) (t : Team) (lane : Nat) (srcs : List Nat) : Bool := srcs.any (slotPending s t lane)

/-- The team at the end of a word: at its next word; or, where only some of its passes have gone, at the word with the other
lanes in its resume mask (R162, R293). -/
def endWord (t : Team) : Team :=
  match t.pass with
  | none => advance t
  | some m =>
    if toDo t &&& ~~~m = 0 then advance t else { t with resume := some (toDo t &&& ~~~m), pass := none, begun := true }

/-- The end of an instruction that wrote registers: the writes are seen by commands that read asynchronously, the team is at
its next word, and lanes that consumed poison are lost. -/
def finish (s : State) (t t' : Team) (keys : List Nat) (losses : List Loss) : State :=
  loseLanes (taint (bump s t) t keys) (endWord t') (wordAddr t) losses

/-- A per-lane instruction of fixed latency (R168, R190): for each executing lane, result words from source words, and
exception bits; a lane that reads a pending destination gets an undefined result and nothing else (R33). -/
def vecOp (i : Instr) (s : State) (p : BitVec 2) (srcs dsts : List Nat)
    (f : Mods → Option (BitVec 20) → List Word → List Word × Nat) : Out :=
  withWord i s (fun _ => srcs ++ predSlot p) (fun _ => dsts) fun t m =>
    let lost := lostLanes s t p srcs
    let lanes := (execLanes s t p).filter (fun l => !lost.contains l)
    let undef := fun (l : Nat) => readsPending s t l (srcs ++ predSlot p)
    let outs := lanes.map (fun l => (l, f m (extOf t) (srcs.map (readSlot s t l))))
    let ws := outs.flatMap (fun o => laneWrites s t o.1 dsts (undef o.1) o.2.1)
    let t' := orFpx (writeRegs t ws) (outs.map (fun o => (o.1, if undef o.1 then 0 else o.2.2)))
    .next (finish s t t' (ws.map Prod.fst) (lost.map regLoss))

/-- A per-lane instruction on one source word. -/
def vec1 (i : Instr) (s : State) (p : BitVec 2) (d a : BitVec 5) (f : Mods → Word → Word × Nat) : Out :=
  vecOp i s p (s1 a) (s1 d) fun m _ vs =>
    let r := f m (vs.getD 0 0)
    ([r.1], r.2)

/-- A per-lane instruction on two source words. -/
def vec2 (i : Instr) (s : State) (p : BitVec 2) (d a b : BitVec 5) (f : Mods → Word → Word → Word × Nat) : Out :=
  vecOp i s p (s1 a ++ s1 b) (s1 d) fun m _ vs =>
    let r := f m (vs.getD 0 0) (vs.getD 1 0)
    ([r.1], r.2)

/-- A per-lane instruction on three source words. -/
def vec3 (i : Instr) (s : State) (p : BitVec 2) (d a b c : BitVec 5) (f : Mods → Word → Word → Word → Word × Nat) : Out :=
  vecOp i s p (s1 a ++ s1 b ++ s1 c) (s1 d) fun m _ vs =>
    let r := f m (vs.getD 0 0) (vs.getD 1 0) (vs.getD 2 0)
    ([r.1], r.2)

/-- A per-lane instruction on one source word and an immediate. -/
def vecI (i : Instr) (s : State) (d a : BitVec 5) (f : Option (BitVec 20) → Word → Word) : Out :=
  vecOp i s 0 (s1 a) (s1 d) fun _ e vs => ([f e (vs.getD 0 0)], 0)

/-- A once-per-team instruction that writes one word, the same in every active lane. -/
def writeAll (t : Team) (d : Nat) (v : Word) : List (Nat × Word) :=
  match slotReg t d with
  | some r => (lanesOf t.active).map (fun l => (regKey l r, v))
  | none => []

/-! ### Once-per-team instructions -/

/-- Lanes that consume poison in the slots that an instruction reads are lost (R97), and the word issues again for the lanes
that are left. -/
def consume (s : State) (t : Team) (lanes srcs : List Nat) (k : Out) : Out :=
  match lanes.filter (fun l => srcs.any (readsPoison s t l)) with
  | [] => k
  | bad => .next (loseLanes s t (wordAddr t) (bad.map regLoss))

/-- Free values in the registers of some slots, in some lanes (R33, R4). -/
def freeWrites (s : State) (t : Team) (lanes dsts : List Nat) : List (Nat × Word) :=
  lanes.flatMap (fun l => laneWrites s t l dsts true (dsts.map (fun _ => 0)))

/-- A once-per-team instruction reads its operands in the lowest active lane l. Where one of them is a pending destination the
instruction's destinations are undefined in every active lane, and it does nothing else (R33). -/
def withLead (s : State) (t : Team) (srcs dsts : List Nat) (k : Out) : Out :=
  consume s t [lead t] srcs (
    if readsPending s t (lead t) srcs then
      let ws := freeWrites s t (lanesOf t.active) dsts
      .next (finish s t (writeRegs t ws) (ws.map Prod.fst) [])
    else k)

/-- The operand slots that a lane reads for a cause of ILLOP can be read: bound, not pending, not poisoned (R45, R33, R97). -/
def readable (s : State) (t : Team) (lane : Nat) (srcs : List Nat) : Bool :=
  srcs.all (fun n => (slotReg t n).isSome && !slotPending s t lane n && !slotPoisoned t lane n)

end Sys2Proof.Machine
end

