-- ==== Sys2Proof/Machine/Integer.lean ====
section
/-! DEFINITION. Integer and address arithmetic (R168 to R188): what each instruction computes from one lane's words. -/

namespace Sys2Proof.Machine

/-! ### Word functions -/

/-- A number clamped to a range, as a word. -/
def clampWord (lo hi v : Int) : Word := BitVec.ofInt 32 (max lo (min hi v))

/-- The clamp of an exact result (R172): u = 0 signed, u = 1 unsigned. -/
def satWord (u : BitVec 1) (v : Int) : Word :=
  if u = 1 then clampWord 0 (2 ^ 32 - 1) v else clampWord (-2 ^ 31) (2 ^ 31 - 1) v

/-- A word read as SAT reads it (R172). -/
def satRead (u : BitVec 1) (x : Word) : Int := if u = 1 then (x.toNat : Int) else x.toInt

/-- add with SAT (R172). -/
def satAdd (u : BitVec 1) (x y : Word) : Word := satWord u (satRead u x + satRead u y)

/-- sub with SAT (R172). -/
def satSub (u : BitVec 1) (x y : Word) : Word := satWord u (satRead u x - satRead u y)

/-- Bits 63-32 of the signed product (R173). -/
def mulHighS (x y : Word) : Word := BitVec.ofInt 32 (x.toInt * y.toInt / 2 ^ 32)

/-- Bits 63-32 of the unsigned product (R173). -/
def mulHighU (x y : Word) : Word := BitVec.ofNat 32 (x.toNat * y.toNat / 2 ^ 32)

/-- abs (R174). -/
def absWord (sat : Bool) (x : Word) : Word :=
  if sat && x == 0x80000000 then 0x7FFFFFFF else BitVec.ofNat 32 x.toInt.natAbs

/-- A shift count: bits 5-0 (R176). -/
def cnt6 (y : Word) : Nat := y.toNat % 64

/-- Shift left (R176): 0 from 32 on. -/
def shlWord (x : Word) (n : Nat) : Word := if n < 32 then x <<< n else 0

/-- Logical shift right (R176): 0 from 32 on. -/
def shrWord (x : Word) (n : Nat) : Word := if n < 32 then x >>> n else 0

/-- Arithmetic shift right (R176): the sign from 32 on. -/
def sarWord (x : Word) (n : Nat) : Word := if n < 32 then x.sshiftRight n else if x.msb then 0xFFFFFFFF else 0

/-- The number of 1 bits (R177). -/
def popcWord (x : Word) : Word := BitVec.ofNat 32 ((List.range 32).countP (fun i => x.getLsbD i))

/-- The number of 0 bits above the highest 1 bit (R177). -/
def clzWord (x : Word) : Word := if x = 0 then 32 else BitVec.ofNat 32 (31 - Nat.log2 x.toNat)

/-- Field extraction (R178). -/
def bfeWord (sgn : Bool) (len pos : Nat) (x : Word) : Word :=
  let f := x.toNat / 2 ^ pos % 2 ^ len
  if sgn && decide (2 ^ (len - 1) ≤ f) then BitVec.ofInt 32 ((f : Int) - (2 ^ len : Nat)) else BitVec.ofNat 32 f

/-- Field insertion (R179): x into y under the control word z. -/
def bfiWord (x y z : Word) : Word :=
  let len := min (fld z 8 6).toNat 32
  let pos := (fld z 0 5).toNat
  let mask := BitVec.ofNat 32 ((2 ^ len - 1) * 2 ^ pos)
  (y &&& ~~~mask) ||| ((x <<< pos) &&& mask)

/-- The conditions of cmp (R180). -/
def cmpHolds (k : Nat) (x y : Word) : Bool :=
  match k with
  | 0 => x == y
  | 1 => x != y
  | 2 => x.slt y
  | 3 => x.sle y
  | 4 => y.slt x
  | 5 => y.sle x
  | 6 => x.ult y
  | 7 => x.ule y
  | 8 => y.ult x
  | _ => y.ule x

/-- 1 or 0. -/
def truth (b : Bool) : Word := if b then 1 else 0

/-- lea64 (R184). -/
def lea64Word (u : Bool) (sh : Nat) (base : DWord) (ix : Word) : DWord :=
  base + ((if u then ix.setWidth 64 else ix.signExtend 64) <<< sh)

/-- The rotations of rng's rounds (R187). -/
def rngRot : List Nat := [13, 29, 41, 7, 53, 19, 37, 23]

/-- One round of rng (R187). -/
def rngRound (key x : DWord) (i r : Nat) : DWord :=
  let y := (x + key + BitVec.ofNat 64 (i * 0x6A4DB3C51E970F2B)).rotateLeft r
  y ^^^ (y >>> 32)

/-- rng (R187). -/
def rngWord (ctr key : DWord) : DWord :=
  (rngRot.zipIdx).foldl (fun x ri => rngRound key x ri.2 ri.1) ctr

/-- The source of cvt.i as an integer (R185): 0 u32, 1 s32, 2 u64, 3 s64. -/
def intSource (st : Nat) (lo hi : Word) : Int :=
  match st with
  | 0 => lo.toNat
  | 1 => lo.toInt
  | 2 => (pair lo hi).toNat
  | _ => (pair lo hi).toInt

/-- Width and sign of an integer type code (R185): 0 u8, 1 s8, 2 u16, 3 s16, 4 u32, 5 s32, 6 u64, 7 s64. -/
def intType (dt : Nat) : Nat × Bool := (8 * 2 ^ (dt / 2), dt % 2 == 1)

/-- cvt.i's result modulo 2^n (R77, R185). -/
def cvtInt (sat : Bool) (dt : Nat) (v : Int) : Nat :=
  let t := intType dt
  let lim := intRange t.1 t.2
  wrapInt t.1 (if sat then max lim.1 (min lim.2 v) else v)

/-- An n-bit result in its destination slots (R185): narrower than 32 bits it is extended by its sign, 64 bits take a pair. -/
def intResult (dt : Nat) (r : Nat) : List Word :=
  let t := intType dt
  if t.1 = 64 then pairWords (BitVec.ofNat 64 r)
  else if t.2 && decide (2 ^ (t.1 - 1) ≤ r) then [BitVec.ofInt 32 ((r : Int) - (2 ^ t.1 : Nat))]
  else [BitVec.ofNat 32 r]

/-- The byte dot product (R186). -/
def dot4 (sgn : Bool) (x y acc : Word) : Word :=
  let b := fun (v : Word) (i : Nat) =>
    let k := v.extractLsb' (8 * i) 8
    if sgn then k.signExtend 32 else k.setWidth 32
  acc + b x 0 * b y 0 + b x 1 * b y 1 + b x 2 * b y 2 + b x 3 * b y 3

/-! ### Instructions -/

/-- add (R172): modulo 2^32, or with SAT the clamp of the exact sum. -/
def execAdd (d a b : BitVec 5) (u : BitVec 1) (p : BitVec 2) (s : State) : Out :=
  vec2 (.add d a b u p) s p d a b fun m x y => (if m.sat = 1 then satAdd u x y else x + y, 0)

/-- sub (R172). -/
def execSub (d a b : BitVec 5) (u : BitVec 1) (p : BitVec 2) (s : State) : Out :=
  vec2 (.sub d a b u p) s p d a b fun m x y => (if m.sat = 1 then satSub u x y else x - y, 0)

/-- addi (R171, R172). -/
def execAddi (d a : BitVec 5) (i : BitVec 12) (s : State) : Out :=
  vecI (.addi d a i) s d a fun e x => x + immS e i

/-- mul (R173): the low word of the product. -/
def execMul (d a b : BitVec 5) (p : BitVec 2) (s : State) : Out :=
  vec2 (.mul d a b p) s p d a b fun _ x y => (x * y, 0)

/-- mulhi.s (R173). -/
def execMulhiS (d a b : BitVec 5) (p : BitVec 2) (s : State) : Out :=
  vec2 (.mulhiS d a b p) s p d a b fun _ x y => (mulHighS x y, 0)

/-- mulhi.u (R173). -/
def execMulhiU (d a b : BitVec 5) (p : BitVec 2) (s : State) : Out :=
  vec2 (.mulhiU d a b p) s p d a b fun _ x y => (mulHighU x y, 0)

/-- mad (R173). -/
def execMad (d a b c : BitVec 5) (p : BitVec 2) (s : State) : Out :=
  vec3 (.mad d a b c p) s p d a b c fun _ x y z => (x * y + z, 0)

/-- min.s (R174). -/
def execMinS (d a b : BitVec 5) (p : BitVec 2) (s : State) : Out :=
  vec2 (.minS d a b p) s p d a b fun _ x y => (if x.slt y then x else y, 0)

/-- min.u (R174). -/
def execMinU (d a b : BitVec 5) (p : BitVec 2) (s : State) : Out :=
  vec2 (.minU d a b p) s p d a b fun _ x y => (if x.ult y then x else y, 0)

/-- max.s (R174). -/
def execMaxS (d a b : BitVec 5) (p : BitVec 2) (s : State) : Out :=
  vec2 (.maxS d a b p) s p d a b fun _ x y => (if x.slt y then y else x, 0)

/-- max.u (R174). -/
def execMaxU (d a b : BitVec 5) (p : BitVec 2) (s : State) : Out :=
  vec2 (.maxU d a b p) s p d a b fun _ x y => (if x.ult y then y else x, 0)

/-- abs (R174). -/
def execAbs (d a : BitVec 5) (p : BitVec 2) (s : State) : Out :=
  vec1 (.abs d a p) s p d a fun m x => (absWord (m.sat == 1) x, 0)

/-- and (R175). -/
def execAnd (d a b : BitVec 5) (p : BitVec 2) (s : State) : Out :=
  vec2 (.and d a b p) s p d a b fun _ x y => (x &&& y, 0)

/-- or (R175). -/
def execOr (d a b : BitVec 5) (p : BitVec 2) (s : State) : Out :=
  vec2 (.or d a b p) s p d a b fun _ x y => (x ||| y, 0)

/-- xor (R175). -/
def execXor (d a b : BitVec 5) (p : BitVec 2) (s : State) : Out :=
  vec2 (.xor d a b p) s p d a b fun _ x y => (x ^^^ y, 0)

/-- andn (R175). -/
def execAndn (d a b : BitVec 5) (p : BitVec 2) (s : State) : Out :=
  vec2 (.andn d a b p) s p d a b fun _ x y => (x &&& ~~~y, 0)

/-- andi (R171, R175). -/
def execAndi (d a : BitVec 5) (i : BitVec 12) (s : State) : Out :=
  vecI (.andi d a i) s d a fun e x => x &&& immZ e i

/-- ori (R171, R175). -/
def execOri (d a : BitVec 5) (i : BitVec 12) (s : State) : Out :=
  vecI (.ori d a i) s d a fun e x => x ||| immZ e i

/-- xori (R171, R175). -/
def execXori (d a : BitVec 5) (i : BitVec 12) (s : State) : Out :=
  vecI (.xori d a i) s d a fun e x => x ^^^ immZ e i

/-- shl (R176): the count is bits 5-0 of w[b]. -/
def execShl (d a b : BitVec 5) (p : BitVec 2) (s : State) : Out :=
  vec2 (.shl d a b p) s p d a b fun _ x y => (shlWord x (cnt6 y), 0)

/-- shr (R176). -/
def execShr (d a b : BitVec 5) (p : BitVec 2) (s : State) : Out :=
  vec2 (.shr d a b p) s p d a b fun _ x y => (shrWord x (cnt6 y), 0)

/-- sar (R176). -/
def execSar (d a b : BitVec 5) (p : BitVec 2) (s : State) : Out :=
  vec2 (.sar d a b p) s p d a b fun _ x y => (sarWord x (cnt6 y), 0)

/-- rot (R176): rotation left by bits 4-0 of w[b]. -/
def execRot (d a b : BitVec 5) (p : BitVec 2) (s : State) : Out :=
  vec2 (.rot d a b p) s p d a b fun _ x y => (x.rotateLeft (y.toNat % 32), 0)

/-- shli (R176). -/
def execShli (d a : BitVec 5) (n : BitVec 6) (s : State) : Out :=
  vecI (.shli d a n) s d a fun _ x => shlWord x n.toNat

/-- shri (R176). -/
def execShri (d a : BitVec 5) (n : BitVec 6) (s : State) : Out :=
  vecI (.shri d a n) s d a fun _ x => shrWord x n.toNat

/-- sari (R176). -/
def execSari (d a : BitVec 5) (n : BitVec 6) (s : State) : Out :=
  vecI (.sari d a n) s d a fun _ x => sarWord x n.toNat

/-- popc (R177). -/
def execPopc (d a : BitVec 5) (p : BitVec 2) (s : State) : Out :=
  vec1 (.popc d a p) s p d a fun _ x => (popcWord x, 0)

/-- clz (R177). -/
def execClz (d a : BitVec 5) (p : BitVec 2) (s : State) : Out :=
  vec1 (.clz d a p) s p d a fun _ x => (clzWord x, 0)

/-- brev (R177). -/
def execBrev (d a : BitVec 5) (p : BitVec 2) (s : State) : Out :=
  vec1 (.brev d a p) s p d a fun _ x => (x.reverse, 0)

/-- bfe and bfe.s (R178). -/
def execBfe (d a : BitVec 5) (sg : BitVec 1) (l : BitVec 6) (o : BitVec 5) (s : State) : Out :=
  vecI (.bfe d a sg l o) s d a fun _ x => bfeWord (sg == 1) l.toNat o.toNat x

/-- bfi (R179). -/
def execBfi (d a b c : BitVec 5) (p : BitVec 2) (s : State) : Out :=
  vec3 (.bfi d a b c p) s p d a b c fun _ x y z => (bfiWord x y z, 0)

/-- cmp (R180). -/
def execCmp (d a b k : BitVec 5) (p : BitVec 2) (s : State) : Out :=
  vec2 (.cmp d a b k p) s p d a b fun _ x y => (truth (cmpHolds k.toNat x y), 0)

/-- cmpi.eq (R181). -/
def execCmpiEq (d a : BitVec 5) (i : BitVec 12) (s : State) : Out :=
  vecI (.cmpiEq d a i) s d a fun e x => truth (x == immS e i)

/-- cmpi.lt.s (R181). -/
def execCmpiLtS (d a : BitVec 5) (i : BitVec 12) (s : State) : Out :=
  vecI (.cmpiLtS d a i) s d a fun e x => truth (x.slt (immS e i))

/-- cmpi.lt.u (R171, R181). -/
def execCmpiLtU (d a : BitVec 5) (i : BitVec 12) (s : State) : Out :=
  vecI (.cmpiLtU d a i) s d a fun e x => truth (x.ult (immZ e i))

/-- cmpi.ne (R181). -/
def execCmpiNe (d a : BitVec 5) (i : BitVec 12) (s : State) : Out :=
  vecI (.cmpiNe d a i) s d a fun e x => truth (x != immS e i)

/-- sel (R182). -/
def execSel (d a b c : BitVec 5) (p : BitVec 2) (s : State) : Out :=
  vec3 (.sel d a b c p) s p d a b c fun _ x y z => (if z.getLsbD 0 then x else y, 0)

/-- movi (R171, R182). -/
def execMovi (d : BitVec 5) (i : BitVec 12) (s : State) : Out :=
  vecOp (.movi d i) s 0 [] (s1 d) fun _ e _ => ([immS e i], 0)

/-- mov (R182). -/
def execMov (d a : BitVec 5) (p : BitVec 2) (s : State) : Out :=
  vec1 (.mov d a p) s p d a fun _ x => (x, 0)

/-- add64 (R183). -/
def execAdd64 (d a b : BitVec 5) (p : BitVec 2) (s : State) : Out :=
  vecOp (.add64 d a b p) s p (s2 a ++ s2 b) (s2 d) fun _ _ vs =>
    let x := pair (vs.getD 0 0) (vs.getD 1 0)
    let y := pair (vs.getD 2 0) (vs.getD 3 0)
    (pairWords (x + y), 0)

/-- sub64 (R183). -/
def execSub64 (d a b : BitVec 5) (p : BitVec 2) (s : State) : Out :=
  vecOp (.sub64 d a b p) s p (s2 a ++ s2 b) (s2 d) fun _ _ vs =>
    let x := pair (vs.getD 0 0) (vs.getD 1 0)
    let y := pair (vs.getD 2 0) (vs.getD 3 0)
    (pairWords (x - y), 0)

/-- addi64 (R171, R183): the immediate is sign-extended to 64 bits. -/
def execAddi64 (d a : BitVec 5) (i : BitVec 12) (s : State) : Out :=
  vecOp (.addi64 d a i) s 0 (s2 a) (s2 d) fun _ e vs =>
    (pairWords (pair (vs.getD 0 0) (vs.getD 1 0) + (immS e i).signExtend 64), 0)

/-- lea64 (R184). -/
def execLea64 (d a b : BitVec 5) (u : BitVec 1) (sh : BitVec 4) (p : BitVec 2) (s : State) : Out :=
  vecOp (.lea64 d a b u sh p) s p (s2 a ++ s1 b) (s2 d) fun _ _ vs =>
    (pairWords (lea64Word (u == 1) sh.toNat (pair (vs.getD 0 0) (vs.getD 1 0)) (vs.getD 2 0)), 0)

/-- rng (R187). -/
def execRng (d a b : BitVec 5) (p : BitVec 2) (s : State) : Out :=
  vecOp (.rng d a b p) s p (s2 a ++ s2 b) (s2 d) fun _ _ vs =>
    let x := pair (vs.getD 0 0) (vs.getD 1 0)
    let y := pair (vs.getD 2 0) (vs.getD 3 0)
    (pairWords (rngWord x y), 0)

/-- cvt.i (R77, R185). -/
def execCvtI (d a : BitVec 5) (dt : BitVec 3) (st : BitVec 2) (p : BitVec 2) (s : State) : Out :=
  vecOp (.cvtI d a dt st p) s p (if 2 ≤ st.toNat then s2 a else s1 a) (if 6 ≤ dt.toNat then s2 d else s1 d)
    fun m _ vs =>
      (intResult dt.toNat (cvtInt (m.sat == 1) dt.toNat (intSource st.toNat (vs.getD 0 0) (vs.getD 1 0))), 0)

/-- dot4.s8 (R186). -/
def execDot4S8 (d a b c : BitVec 5) (p : BitVec 2) (s : State) : Out :=
  vec3 (.dot4S8 d a b c p) s p d a b c fun _ x y z => (dot4 true x y z, 0)

/-- dot4.u8 (R186). -/
def execDot4U8 (d a b c : BitVec 5) (p : BitVec 2) (s : State) : Out :=
  vec3 (.dot4U8 d a b c p) s p d a b c fun _ x y z => (dot4 false x y z, 0)

end Sys2Proof.Machine
end

