-- ==== Sys2Proof/Machine/FloatOps.lean ====
section
/-! DEFINITION. The floating-point instructions (R190 to R206): what each computes from one lane's words. Their numbers
are those of Machine/Float.lean. -/

namespace Sys2Proof.Machine

/-! ### Word functions -/

/-- A word as an FP32 value under the word's FTZ (R190). -/
def fpVal (m : Mods) (x : Word) : FVal := Fmt.fp32.valFtz (m.ftz == 1) x.toNat

/-- round(x, fp32, rm) under the word's modifiers, with exception bits raised before the rounding (R193). -/
def fpRound (m : Mods) (v : FVal × Nat) : Word × Nat :=
  let r := roundF .fp32 m.rm.toNat (m.sat == 1) (m.ftz == 1) v.1
  (BitVec.ofNat 32 r.1, v.2 ||| r.2)

/-- fscale's exact product (R193). -/
def scaleVal (v : FVal) (k : Int) : FVal :=
  match v with
  | .fin n mag e => .fin n mag (e + k)
  | v => v

/-- fround (R193): an integer value, with the operand's sign on a zero. -/
def froundWord (m : Mods) (x : Word) : Word × Nat :=
  match fpVal m x with
  | .fin n mag e =>
    (BitVec.ofNat 32 (roundFin .fp32 0 false false n (toInteger m.rm.toNat n mag e).natAbs 0).1, 0)
  | v => fpRound m (v, 0)

/-- fabs and fneg (R195). -/
def signWord (x : Word) (f : Word → Word) : Word × Nat :=
  match Fmt.fp32.val x.toNat with
  | .nan sg => (0x7FC00000, if sg then flagIV else 0)
  | _ => (f x, 0)

/-- The conditions of fcmp on two values (R196). -/
def fcmpHolds (k : Nat) (a b : FVal) : Bool :=
  let nan := a.isNan || b.isNan
  match k with
  | 0 => !nan && fCmp a b == .eq
  | 1 => nan || fCmp a b != .eq
  | 2 => !nan && fCmp a b == .lt
  | 3 => !nan && fCmp a b != .gt
  | 4 => !nan && fCmp a b == .gt
  | 5 => !nan && fCmp a b != .lt
  | 6 => nan
  | _ => !nan

/-- fcmp (R196): the result and IV. -/
def fcmpWord (m : Mods) (k : Nat) (x y : Word) : Word × Nat :=
  let a := fpVal m x
  let b := fpVal m y
  let iv := if 2 ≤ k ∧ k ≤ 5 then a.isNan || b.isNan else a.isSnan || b.isSnan
  (if fcmpHolds k a b then 1 else 0, if iv then flagIV else 0)

/-- fclass (R197): the bit of the class of the raw encoding. -/
def fclassBit (x : Word) : Nat :=
  let neg := x.getLsbD 31
  let e := x.toNat / 2 ^ 23 % 256
  let f := x.toNat % 2 ^ 23
  if e = 255 then (if f = 0 then (if neg then 0 else 7) else if 2 ^ 22 ≤ f then 9 else 8)
  else if e = 0 then (if f = 0 then (if neg then 3 else 4) else if neg then 2 else 5)
  else if neg then 1 else 6

/-- The 16-bit element i of a word (R68). -/
def half (x : Word) (i : Nat) : Nat := x.toNat / 2 ^ (16 * i) % 65536

/-- Two 16-bit elements as a word (R68). -/
def halves (lo hi : Nat) : Word := BitVec.ofNat 32 (lo % 65536 + hi % 65536 * 65536)

/-- The packed instructions (R198): an exact value for each pair of elements, rounded in the element format. -/
def packed (f : Fmt) (m : Mods) (g : List FVal → FVal × Nat) (xs : List Word) : Word × Nat :=
  let el := fun i =>
    let v := g (xs.map (fun x => f.valFtz (m.ftz == 1) (half x i)))
    let r := roundF f m.rm.toNat (m.sat == 1) (m.ftz == 1) v.1
    (r.1, v.2 ||| r.2)
  (halves (el 0).1 (el 1).1, (el 0).2 ||| (el 1).2)

/-- The 16-bit format of TY (R198). -/
def ty16 (y : BitVec 1) : Fmt := if y = 1 then .fp16 else .bf16

/-- fdot2 (R199). -/
def fdot2Word (m : Mods) (x y z : Word) : Word × Nat :=
  let v := fun (w : Word) i => Fmt.bf16.valFtz (m.ftz == 1) (half w i)
  fpRound m (fDot m.rm.toNat [(v x 0, v y 0), (v x 1, v y 1)] (fpVal m z))

/-- fdot4.f8 (R199). -/
def fdot4Word (m : Mods) (x y z : Word) : Word × Nat :=
  let v := fun (w : Word) i => Fmt.e4m3.val (w.toNat / 2 ^ (8 * i) % 256)
  fpRound m (fDot m.rm.toNat ((List.range 4).map (fun i => (v x i, v y i))) (fpVal m z))

/-- The format codes of cvt.ff (R200): 0 fp32, 1 bf16, 2 fp16, 3 e4m3, 4 e5m2, 5 e2m1; none for 6, e8m0. -/
def cvtFmt (k : Nat) : Option Fmt :=
  match k with
  | 0 => some .fp32
  | 1 => some .bf16
  | 2 => some .fp16
  | 3 => some .e4m3
  | 4 => some .e5m2
  | 5 => some .e2m1
  | _ => none

/-- Width in bits of a format code of cvt.ff. -/
def cvtWidth (k : Nat) : Nat :=
  match cvtFmt k with
  | some f => f.width
  | none => 8

/-- One element converted by cvt.ff (R75, R200): code and exception bits. FTZ does not reach an E8M0 destination. -/
def cvtElem (m : Mods) (st dt : Nat) (nof : Bool) (code : Nat) : Nat × Nat :=
  let ftz := m.ftz == 1 && dt != 6
  let v := match cvtFmt st with
    | some f => f.valFtz ftz code
    | none => e8m0Val code
  match cvtFmt dt with
  | some f => convF f m.rm.toNat (m.sat == 1) nof ftz v
  | none => toE8m0 v

/-- cvt.ff on n elements (R200): destination words and exception bits. -/
def cvtWords (m : Mods) (st dt : Nat) (nof : Bool) (n : Nat) (vs : List Word) : List Word × Nat :=
  let src := fun i =>
    if st = 0 then (vs.getD i 0).toNat else (vs.getD 0 0).toNat / 2 ^ (cvtWidth st * i) % 2 ^ cvtWidth st
  let rs := (List.range n).map (fun i => cvtElem m st dt nof (src i))
  let fl := rs.foldl (fun acc r => acc ||| r.2) 0
  if dt = 0 then (rs.map (fun r => BitVec.ofNat 32 r.1), fl)
  else
    ([BitVec.ofNat 32 (((List.range n).map (fun i => (rs.getD i (0, 0)).1 * 2 ^ (cvtWidth dt * i))).sum)], fl)

/-- The modifiers of the word that the issuing team is at (R41). -/
def curMods (s : State) : Mods := ((curTeam s).map modsOf).getD Mods.zero

/-- The source format of cvt.fi and the destination format of cvt.if: 0 fp32, 1 bf16, 2 fp16 (R201, R202). -/
def fpOf2 (k : Nat) : Fmt := if k = 0 then .fp32 else if k = 1 then .bf16 else .fp16

/-! ### Instructions -/

/-- fadd (R193). -/
def execFadd (d a b : BitVec 5) (p : BitVec 2) (s : State) : Out :=
  vec2 (.fadd d a b p) s p d a b fun m x y => fpRound m (fAdd m.rm.toNat (fpVal m x) (fpVal m y))

/-- fsub (R193). -/
def execFsub (d a b : BitVec 5) (p : BitVec 2) (s : State) : Out :=
  vec2 (.fsub d a b p) s p d a b fun m x y => fpRound m (fAdd m.rm.toNat (fpVal m x) (fpVal m y).negate)

/-- fmul (R193). -/
def execFmul (d a b : BitVec 5) (p : BitVec 2) (s : State) : Out :=
  vec2 (.fmul d a b p) s p d a b fun m x y => fpRound m (fProd m.rm.toNat (fpVal m x) (fpVal m y))

/-- ffma (R193): one rounding. -/
def execFfma (d a b c : BitVec 5) (p : BitVec 2) (s : State) : Out :=
  vec3 (.ffma d a b c p) s p d a b c fun m x y z =>
    fpRound m (fFma m.rm.toNat (fpVal m x) (fpVal m y) (fpVal m z))

/-- fmin (R194). -/
def execFmin (d a b : BitVec 5) (p : BitVec 2) (s : State) : Out :=
  vec2 (.fmin d a b p) s p d a b fun m x y =>
    let r := fMinMax false (m.ftz == 1) x.toNat y.toNat
    (BitVec.ofNat 32 r.1, r.2)

/-- fmax (R194). -/
def execFmax (d a b : BitVec 5) (p : BitVec 2) (s : State) : Out :=
  vec2 (.fmax d a b p) s p d a b fun m x y =>
    let r := fMinMax true (m.ftz == 1) x.toNat y.toNat
    (BitVec.ofNat 32 r.1, r.2)

/-- fcmp (R196). -/
def execFcmp (d a b k : BitVec 5) (p : BitVec 2) (s : State) : Out :=
  vec2 (.fcmp d a b k p) s p d a b fun m x y => fcmpWord m k.toNat x y

/-- fabs (R195). -/
def execFabs (d a : BitVec 5) (p : BitVec 2) (s : State) : Out :=
  vec1 (.fabs d a p) s p d a fun _ x => signWord x (fun w => w &&& 0x7FFFFFFF)

/-- fneg (R195). -/
def execFneg (d a : BitVec 5) (p : BitVec 2) (s : State) : Out :=
  vec1 (.fneg d a p) s p d a fun _ x => signWord x (fun w => w ^^^ 0x80000000)

/-- frcp (R203). -/
def execFrcp (d a : BitVec 5) (p : BitVec 2) (s : State) : Out :=
  vec1 (.frcp d a p) s p d a fun m x =>
    let r := fRcp (m.ftz == 1) x.toNat
    (BitVec.ofNat 32 r.1, r.2)

/-- frsq (R203). -/
def execFrsq (d a : BitVec 5) (p : BitVec 2) (s : State) : Out :=
  vec1 (.frsq d a p) s p d a fun m x =>
    let r := fRsq (m.ftz == 1) x.toNat
    (BitVec.ofNat 32 r.1, r.2)

/-- fexp2 (R205). -/
def execFexp2 (d a : BitVec 5) (p : BitVec 2) (s : State) : Out :=
  vec1 (.fexp2 d a p) s p d a fun m x =>
    let r := fExp2 (m.ftz == 1) x.toNat
    (BitVec.ofNat 32 r.1, r.2)

/-- flog2 (R205). -/
def execFlog2 (d a : BitVec 5) (p : BitVec 2) (s : State) : Out :=
  vec1 (.flog2 d a p) s p d a fun m x =>
    let r := fLog2 (m.ftz == 1) x.toNat
    (BitVec.ofNat 32 r.1, r.2)

/-- sincos.t (R206): sine in w[d], cosine in w[d+1]. -/
def execSincosT (d a : BitVec 5) (p : BitVec 2) (s : State) : Out :=
  vecOp (.sincosT d a p) s p (s1 a) (s2 d) fun _ _ vs =>
    let r := fSinCos (vs.getD 0 0).toNat
    ([BitVec.ofNat 32 r.1, BitVec.ofNat 32 r.2], 0)

/-- fround (R193). -/
def execFround (d a : BitVec 5) (p : BitVec 2) (s : State) : Out :=
  vec1 (.fround d a p) s p d a fun m x => froundWord m x

/-- fclass (R197). -/
def execFclass (d a : BitVec 5) (p : BitVec 2) (s : State) : Out :=
  vec1 (.fclass d a p) s p d a fun _ x => (BitVec.ofNat 32 (2 ^ fclassBit x), 0)

/-- fscale (R193): times 2 to the signed integer w[b]. -/
def execFscale (d a b : BitVec 5) (p : BitVec 2) (s : State) : Out :=
  vec2 (.fscale d a b p) s p d a b fun m x y => fpRound m (rdZero m.rm.toNat (scaleVal (fpVal m x) y.toInt), 0)

/-- cvt.fi (R76, R201). -/
def execCvtFi (d a : BitVec 5) (dt : BitVec 3) (st p : BitVec 2) (s : State) : Out :=
  vecOp (.cvtFi d a dt st p) s p (s1 a) (if 6 ≤ dt.toNat then s2 d else s1 d) fun m _ vs =>
    let f := fpOf2 st.toNat
    let ty := intType dt.toNat
    let r := floatToInt ty.1 ty.2 m.rm.toNat (m.sat == 1)
      (f.valFtz (m.ftz == 1) ((vs.getD 0 0).toNat % 2 ^ f.width))
    (intResult dt.toNat r.1, r.2)

/-- cvt.if (R76, R202). -/
def execCvtIf (d a : BitVec 5) (dt : BitVec 2) (st : BitVec 3) (p : BitVec 2) (s : State) : Out :=
  vecOp (.cvtIf d a dt st p) s p (if 6 ≤ st.toNat then s2 a else s1 a) (s1 d) fun m _ vs =>
    let r := roundF (fpOf2 dt.toNat) m.rm.toNat (m.sat == 1) false
      (convZero m.rm.toNat (intVal (intSource (st.toNat - 4) (vs.getD 0 0) (vs.getD 1 0))))
    ([BitVec.ofNat 32 r.1], r.2)

/-- cvt.ff (R75, R200): one element, or two with WID 101. -/
def execCvtFf (d a : BitVec 5) (st : BitVec 3) (nof : BitVec 1) (dt : BitVec 3) (p : BitVec 2) (s : State) : Out :=
  let two := (curMods s).wid == 5
  vecOp (.cvtFf d a st nof dt p) s p (if two && st == 0 then s2 a else s1 a) (if two && dt == 0 then s2 d else s1 d)
    fun m _ vs => cvtWords m st.toNat dt.toNat (nof == 1) (if two then 2 else 1) vs

/-- hadd2 (R198). -/
def execHadd2 (d a b : BitVec 5) (y : BitVec 1) (p : BitVec 2) (s : State) : Out :=
  vec2 (.hadd2 d a b y p) s p d a b fun m x z =>
    packed (ty16 y) m (fun vs => fAdd m.rm.toNat (vs.getD 0 (.nan false)) (vs.getD 1 (.nan false))) [x, z]

/-- hmul2 (R198). -/
def execHmul2 (d a b : BitVec 5) (y : BitVec 1) (p : BitVec 2) (s : State) : Out :=
  vec2 (.hmul2 d a b y p) s p d a b fun m x z =>
    packed (ty16 y) m (fun vs => fProd m.rm.toNat (vs.getD 0 (.nan false)) (vs.getD 1 (.nan false))) [x, z]

/-- hfma2 (R198): BF16, one rounding for each element. -/
def execHfma2 (d a b c : BitVec 5) (p : BitVec 2) (s : State) : Out :=
  vec3 (.hfma2 d a b c p) s p d a b c fun m x y z =>
    packed .bf16 m (fun vs => fFma m.rm.toNat (vs.getD 0 (.nan false)) (vs.getD 1 (.nan false))
      (vs.getD 2 (.nan false))) [x, y, z]

/-- fdot2 (R199). -/
def execFdot2 (d a b c : BitVec 5) (p : BitVec 2) (s : State) : Out :=
  vec3 (.fdot2 d a b c p) s p d a b c fun m x y z => fdot2Word m x y z

/-- fdot4.f8 (R199). -/
def execFdot4F8 (d a b c : BitVec 5) (p : BitVec 2) (s : State) : Out :=
  vec3 (.fdot4F8 d a b c p) s p d a b c fun m x y z => fdot4Word m x y z

end Sys2Proof.Machine
end

