-- ==== Sys2Proof/Machine/Lanes.lean ====
section
/-! DEFINITION. Operations across lanes (R207 to R216): every source is gathered before any destination is written. -/

namespace Sys2Proof.Machine

/-- What one executing lane gets: result words, exception bits, DRD, and the (lane, slot) copies its result depends on
(R97, R207). -/
structure Gathered where
  words : List Word
  flags : Nat
  drd : Bool
  uses : List (Nat × Nat)
  deriving DecidableEq, Repr

/-- Some lane of the team owes the slot to a pending instruction: every reader gets an undefined value (R207, R33). -/
def slotOwed (s : State) (t : Team) (n : Nat) : Bool :=
  match slotReg t n with
  | some r => (pendKeys s t).any (fun k => k % 256 == r)
  | none => false

/-- The write phase of a cross-lane word (R208, R209): some lanes' gains reach their registers, exception bits and DRD; where more
passes are to come, the others' are saved with the team. -/
def writeGains (s : State) (t : Team) (d : BitVec 5) (gs : List Gain) (lost : List Loss) : State :=
  let now := gs.filter (fun g => (candidates t).getLsbD g.lane)
  let ws := now.flatMap (fun g => laneWrites s t g.lane (s1 d) false [g.word])
  let t' := orFpx (writeRegs t ws) (now.map (fun g => (g.lane, g.flags)))
  let t' := setDrd t' ((now.filter Gain.drd).map Gain.lane)
  finish s t { t' with gather := some (gs.filter (fun g => !(candidates t).getLsbD g.lane)) } (ws.map Prod.fst) lost

/-- What a lane gains of a gathered word: a free value where some lane owes a source (R207, R33). -/
def gainOf (s : State) (undef : Bool) (l : Nat) (g : Gathered) : Gain :=
  { lane := l, word := if undef then freeBits 32 (s.fresh + 2 ^ 18 + l) else g.words.getD 0 0,
    flags := if undef then 0 else g.flags, drd := g.drd }

/-- A cross-lane instruction (R207, R208): f gives what each executing lane receives. A word that was stopped between its write
passes writes what it has gathered, without reading anything again. -/
def crossOp (i : Instr) (s : State) (p : BitVec 2) (srcs : List Nat) (d : BitVec 5)
    (f : Team → List Nat → Nat → Gathered) : Out :=
  withWord i s (fun _ => srcs ++ predSlot p) (fun _ => s1 d) fun t _ =>
    match t.gather with
    | some gs => .next (writeGains s t d gs [])
    | none =>
      let plost := lostOf s t p [] (toDo t)
      let lanes := (selected s t p (toDo t)).filter (fun l => !plost.contains l)
      let outs := lanes.map (fun l => (l, f t lanes l))
      let bad := (outs.filter (fun o => o.2.uses.any (fun u => readsPoison s t u.1 u.2))).map Prod.fst
      let undef := (srcs ++ predSlot p).any (slotOwed s t)
      let gs := (outs.filter (fun o => !bad.contains o.1)).map (fun o => gainOf s undef o.1 o.2)
      .next (writeGains { s with fresh := s.fresh + 2 ^ 20 } t d gs ((plost ++ bad).map regLoss))

/-- The value that lane l takes from lane u of slot a (R207, R210): its own where u is no lane of the team, be it beyond its
lanes or exited (R288); 0 with DRD from a dead lane. -/
def takeFrom (s : State) (t : Team) (a l : Nat) (u : Option Nat) : Gathered :=
  let own : Gathered := { words := [readSlot s t l a], flags := 0, drd := false, uses := [(l, a)] }
  match u with
  | none => own
  | some u =>
    if t.hdr.lanes ≤ u then own
    else if t.dead.getLsbD u then { words := [0], flags := 0, drd := true, uses := [] }
    else if t.live.getLsbD u then { words := [readSlot s t u a], flags := 0, drd := false, uses := [(u, a)] }
    else own

/-- The same word for a lane, depending on the executing lanes' copies of a slot (R211, R214). -/
def fromAll (lanes : List Nat) (a : Nat) (w : Word) (fl : Nat) : Gathered :=
  { words := [w], flags := fl, drd := false, uses := lanes.map (fun l => (l, a)) }

/-! ### Reductions (R81, R214) -/

/-- One step of redux and scan (R214): result and exception bits, of which only IV and OF count. -/
def reduxComb (op : Nat) (x y : Word) : Word × Nat :=
  let fp := fun (r : Nat × Nat) => (BitVec.ofNat 32 r.1, r.2 &&& (flagIV ||| flagOF))
  match op with
  | 0 => (x + y, 0)
  | 1 =>
    let v := fAdd 0 (Fmt.fp32.val x.toNat) (Fmt.fp32.val y.toNat)
    let r := roundF .fp32 0 false false v.1
    fp (r.1, v.2 ||| r.2)
  | 2 => (if x.slt y then x else y, 0)
  | 3 => (if x.ult y then x else y, 0)
  | 4 => (if x.slt y then y else x, 0)
  | 5 => (if x.ult y then y else x, 0)
  | 6 => (x &&& y, 0)
  | 7 => (x ||| y, 0)
  | 8 => (x ^^^ y, 0)
  | 9 => fp (fMinMax false false x.toNat y.toNat)
  | _ => fp (fMinMax true false x.toNat y.toNat)

/-- comb of R81 on values with the exception bits of the steps behind them; a value beside an absent one passes as it is, a NaN too
(DEDUCED, log entry 104). -/
def combOpt (op : Nat) (a b : Option (Word × Nat)) : Option (Word × Nat) :=
  match a, b with
  | none, b => b
  | a, none => a
  | some x, some y =>
    let r := reduxComb op x.1 y.1
    some (r.1, x.2 ||| y.2 ||| r.2)

/-- One level of the tree of R81: neighbours combined; an odd one out stands beside an absent padding position. -/
def treeLevel (op : Nat) : List (Option (Word × Nat)) → List (Option (Word × Nat))
  | x :: y :: rest => combOpt op x y :: treeLevel op rest
  | xs => xs

/-- The pairwise tree of R81 over at most 1,024 positions. -/
def treeOf (op : Nat) (vs : List (Option (Word × Nat))) : Option (Word × Nat) :=
  ((List.range 10).foldl (fun acc _ => treeLevel op acc) vs).headD none

/-- The inclusive prefixes of R81: for each executing lane, ascending, the fold of the present positions up to it. -/
def prefixes (op : Nat) (acc : Option (Word × Nat)) : List (Nat × Word) → List (Nat × Word × Nat)
  | [] => []
  | (l, v) :: rest =>
    match combOpt op acc (some (v, 0)) with
    | some r => (l, r) :: prefixes op (some r) rest
    | none => []

/-- The executing lanes of the 32-lane word of a lane (R212). -/
def sameWord (lanes : List Nat) (l : Nat) : List Nat := lanes.filter (fun j => j / 32 == l / 32)

/-- A mask word with bit j mod 32 of each listed lane (R212, R213). -/
def wordOf (ls : List Nat) : Word := ls.foldl (fun acc j => acc ||| BitVec.ofNat 32 (2 ^ (j % 32))) 0

/-! ### Compare and exchange (R215) -/

/-- x at most y in the order of TY (R215): -0 below +0, NaN above all. -/
def cxchLe (ty : Nat) (x y : Word) : Bool :=
  match ty with
  | 0 => x.ule y
  | 1 => x.sle y
  | _ =>
    let a := Fmt.fp32.val x.toNat
    let b := Fmt.fp32.val y.toNat
    if b.isNan then true else if a.isNan then false else fLe a b

/-- A value as cxch writes it: a NaN is canonical (R215). -/
def cxchCanon (ty : Nat) (x : Word) : Word :=
  if ty = 2 && (Fmt.fp32.val x.toNat).isNan then 0x7FC00000 else x

/-- IV of the values compared (R215). -/
def cxchIv (ty : Nat) (xs : List Word) : Nat :=
  if ty = 2 && xs.any (fun x => (Fmt.fp32.val x.toNat).isSnan) then flagIV else 0

/-- One lane of cxch (R215). -/
def cxchLane (s : State) (t : Team) (a ty lk lj l : Nat) : Gathered :=
  let q := l ^^^ 2 ^ lj
  let own := readSlot s t l a
  if t.hdr.lanes ≤ q ∨ t.active.getLsbD q = false then
    { words := [cxchCanon ty own], flags := cxchIv ty [own], drd := decide (q < t.hdr.lanes) && t.dead.getLsbD q,
      uses := [(l, a)] }
  else
    let x := readSlot s t (min l q) a
    let y := readSlot s t (max l q) a
    let le := cxchLe ty x y
    let lo := if le then x else y
    let hi := if le then y else x
    let asc := l / 2 ^ lk % 2 == 0
    { words := [cxchCanon ty (if decide (l < q) == asc then lo else hi)], flags := cxchIv ty [x, y], drd := false,
      uses := [(l, a), (q, a)] }

/-! ### Instructions -/

/-- shfl.idx (R210). -/
def execShflIdx (d a b : BitVec 5) (g : BitVec 3) (p : BitVec 2) (s : State) : Out :=
  crossOp (.shflIdx d a b g p) s p (s1 a ++ s1 b) d fun t _ l =>
    let ix := (readSlot s t l b.toNat).toNat
    let w := 2 ^ g.toNat
    let r := takeFrom s t a.toNat l (some (if g = 0 then ix else l / w * w + ix % w))
    -- an index that some lane owes is undefined to every reader, and its choice tells nothing of other lanes (R4, R207)
    let owed := slotOwed s t b.toNat
    { r with uses := (l, b.toNat) :: (if owed then [] else r.uses), drd := r.drd && !owed }

/-- shfl.xor (R210). -/
def execShflXor (d a : BitVec 5) (k : BitVec 10) (s : State) : Out :=
  crossOp (.shflXor d a k) s 0 (s1 a) d fun t _ l => takeFrom s t a.toNat l (some (l ^^^ k.toNat))

/-- shfl.prv (R210). -/
def execShflPrv (d a : BitVec 5) (k : BitVec 10) (s : State) : Out :=
  crossOp (.shflPrv d a k) s 0 (s1 a) d fun t _ l =>
    takeFrom s t a.toNat l (if k.toNat ≤ l then some (l - k.toNat) else none)

/-- shfl.nxt (R210). -/
def execShflNxt (d a : BitVec 5) (k : BitVec 10) (s : State) : Out :=
  crossOp (.shflNxt d a k) s 0 (s1 a) d fun t _ l => takeFrom s t a.toNat l (some (l + k.toNat))

/-- bcast (R210). -/
def execBcast (d a : BitVec 5) (k : BitVec 10) (s : State) : Out :=
  crossOp (.bcast d a k) s 0 (s1 a) d fun t _ l => takeFrom s t a.toNat l (some k.toNat)

/-- vote.any (R211). -/
def execVoteAny (d a : BitVec 5) (p : BitVec 2) (s : State) : Out :=
  crossOp (.voteAny d a p) s p (s1 a) d fun t lanes =>
    let w := truth (lanes.any (fun l => (readSlot s t l a.toNat).getLsbD 0))
    fun _ => fromAll lanes a.toNat w 0

/-- vote.all (R211). -/
def execVoteAll (d a : BitVec 5) (p : BitVec 2) (s : State) : Out :=
  crossOp (.voteAll d a p) s p (s1 a) d fun t lanes =>
    let w := truth (lanes.all (fun l => (readSlot s t l a.toNat).getLsbD 0))
    fun _ => fromAll lanes a.toNat w 0

/-- ballot (R212). -/
def execBallot (d a : BitVec 5) (p : BitVec 2) (s : State) : Out :=
  crossOp (.ballot d a p) s p (s1 a) d fun t lanes l =>
    let mine := sameWord lanes l
    fromAll mine a.toNat (wordOf (mine.filter (fun j => (readSlot s t j a.toNat).getLsbD 0))) 0

/-- match (R213): lanes of the word with the same 32 or 64 bits. -/
def execMatchLanes (d a k : BitVec 5) (p : BitVec 2) (s : State) : Out :=
  crossOp (.matchLanes d a k p) s p (if k = 1 then s2 a else s1 a) d fun t lanes l =>
    let mine := sameWord lanes l
    let val := fun j => if k = 1 then readSlot64 s t j a.toNat else (readSlot s t j a.toNat).setWidth 64
    let r := fromAll mine a.toNat (wordOf (mine.filter (fun j => val j == val l))) 0
    if k = 1 then { r with uses := r.uses ++ mine.map (fun j => (j, a.toNat + 1)) } else r

/-- redux (R81, R214). -/
def execRedux (d a op : BitVec 5) (p : BitVec 2) (s : State) : Out :=
  crossOp (.redux d a op p) s p (s1 a) d fun t lanes =>
    let vs := (List.range t.hdr.lanes).map (fun l =>
      if lanes.contains l then some (readSlot s t l a.toNat, 0) else none)
    let r := (treeOf op.toNat vs).getD (0, 0)
    fun _ => fromAll lanes a.toNat r.1 r.2

/-- scan (R81, R214). -/
def execScan (d a op : BitVec 5) (p : BitVec 2) (s : State) : Out :=
  crossOp (.scan d a op p) s p (s1 a) d fun t lanes =>
    let ps := prefixes op.toNat none (lanes.map (fun l => (l, readSlot s t l a.toNat)))
    fun l =>
      match ps.find? (fun x => x.1 == l) with
      | some r => fromAll (lanes.filter (fun j => decide (j ≤ l))) a.toNat r.2.1 r.2.2
      | none => fromAll [] a.toNat 0 0

/-- cxch (R215). -/
def execCxch (d a : BitVec 5) (y : BitVec 2) (k j : BitVec 4) (s : State) : Out :=
  crossOp (.cxch d a y k j) s 0 (s1 a) d fun t _ l => cxchLane s t a.toNat y.toNat k.toNat j.toNat l

end Sys2Proof.Machine
end

