-- ==== Sys2Proof/Machine/Fetch.lean ====
section
/-! DEFINITION. Reading code words (R18, R88, R105, R414), checking that a target is a clause header (R24, R414), and
the delivery of frozen engine commands (R128, R129). -/

namespace Sys2Proof.Machine

/-- A code word as fetched: the word, a fault class with its aux, or a poisoned line's hop code. -/
inductive Fetched where
  | word (w : Word)
  | fault (cls : Nat) (aux : DWord)
  | poison (hop : Nat)
  deriving DecidableEq, Repr

/-- The line of a core's instruction cache of 32 KiB (R9, R88). -/
def icLine (s : State) (core ln : Nat) : Option Line := s.icache.find? (fun x => x.core == core && x.line == ln)

/-- A code word of a team (R18, R88, R105). A word that memory has changed since the core held its line may be the old one
or the new one: a free value chooses. A word in a peer aperture is a free value: R370 gives the frames of lanes' accesses only
(log entry 14). -/
def fetchWord (s : State) (t : Team) (a : Word) : State × Fetched :=
  let s := noteWalks s t [t.desc.code + a.setWidth 64]
  match fetchPa s t a with
  | .fault c x => (s, .fault c x)
  | .ok x =>
    if isPeer x.pa then ({ s with fresh := s.fresh + 1 }, .word (freeBits 32 s.fresh))
    else
      let ln := x.pa / 64
      let now := wordAt (homeBytes s x.pa 4) 0
      let hop := lineHop s ln
      match icLine s t.core ln with
      | some c =>
        let old := wordAt c.data (x.pa % 64)
        if old = now ∧ hop = 0 then (s, .word now)
        else
          let s' := { s with fresh := s.fresh + 1 }
          if freeBits 1 s.fresh = 0 then (s', .word old)
          else if hop ≠ 0 then (s', .poison hop)
          else (s', .word now)
      | none =>
        if hop ≠ 0 then (s, .poison hop)
        else
          (icFill s t.core ln, .word now)

/-- A fault of a word fetched in sequence (R105, R330, R414): precise at that word, where the team stands, in every active lane; no
lane executes it. -/
def raiseFetch (s : State) (t : Team) (cls : Nat) (aux : DWord) : State :=
  let fs := (lanesOf t.active).map (fun l => ({ lane := l, cls := cls, addr := codeVa t (wordAddr t), aux := aux } : LaneFault))
  raiseTrap s t (faultRecs t fs) t.active (.enter [])

/-- A poisoned instruction word ends the grid with LANE_LOST records that name every active lane (R97, R345). -/
def poisonedWord (s : State) (t : Team) (a : Word) (hop : Nat) : State :=
  let ls := (lanesOf t.active).map (fun l => ({ lane := l, addr := codeVa t a, hop := hop } : Loss))
  raiseTrap s t (lossRecs a ls) t.active .kill

/-- A transfer to a target (R24, R414): the target word is fetched and must be a clause header; then the rest. -/
def toHeader (s : State) (t : Team) (target : Word) (k : State → Out) : Out :=
  match fetchWord s t target with
  | (s', .fault c x) => .next (raiseWide s' t c (target.setWidth 64) x)
  | (s', .poison hop) => .next (poisonedWord s' t target hop)
  | (s', .word w) => if isHeader w then k s' else .next (raiseWide s' t 0x02 (target.setWidth 64) 0)

/-- The word at a target is read and is a clause header (R414). -/
def landsOn (s : State) (t : Team) (a : Word) : Bool :=
  match fetchWord s t a with
  | (_, .word w) => isHeader w
  | _ => false

/-- The target of a B-format word (R24). -/
def branchTarget (t : Team) (i : BitVec 17) : Word := nextAddr t + 4 * i.signExtend 32

/-! ### Frozen engine commands -/

/-- Delivery as a precise trap at the team's place (R128); with no live lane left the grid ends (R129). -/
def deliver (s : State) (t : Team) (fs : List Issue) : State :=
  if t.live = 0 then raiseTrap s t (deliveryRecs t fs) 0 .kill
  else raiseTrap s t (deliveryRecs t fs) t.active (.enter (fs.map Issue.seq))

/-- After lanes have left or a command has frozen: where no live lane is left and a frozen command awaits delivery, the
grid ends (R129, R345). -/
def checkEnd (s : State) (u : Nat) : State :=
  match findTeam s u with
  | some t =>
    if t.live = 0 ∧ t.trap.isNone then
      match undelivered s t true with
      | [] => s
      | fs => deliver s t fs
    else s
  | none => s

end Sys2Proof.Machine
end

