-- ==== Sys2Proof/Machine/Control.lean ====
section
/-! DEFINITION. Clause headers and hint words (R26 to R38), control flow and the reconvergence stack (R275 to R291), yield
(R308) and the binding of slots (R159, R160). -/

namespace Sys2Proof.Machine

/-! ### Headers and hints -/

/-- The clause is ready (R32): its WAIT flags are clear, SETA's and SETB's counters are at most 39, and the team waits for
nothing. -/
def clauseReady (t : Team) (w : BitVec 12) (a b : BitVec 4) : Bool :=
  let low := fun (x : BitVec 4) =>
    match flagNo x with
    | some i => decide (flagOf t i ≤ 39)
    | none => true
  (List.range 12).all (fun i => !w.getLsbD i || flagOf t i == 0) && low a && low b && t.block.isNone && t.trap.isNone

/-- ILLOP at the mod hint of the unit (R37, R45): the earliest word of the unit that is at fault. -/
def illAtMod (s : State) (t : Team) : State :=
  match t.hints with
  | some h => raiseIll s { t with wix := h.modIx, ir := h.modWord } 0x08 0
  | none => raiseIll s t 0x08 0

/-- A mod hint stands directly before this word. -/
def modPending (t : Team) : Bool := (t.hints.bind Hints.mod).isSome && (extOf t).isNone

/-- A clause header (R26 to R32): frozen commands are delivered first (R128, R332); then the header's fields are checked;
a clause that is not ready leaves the team waiting at its header. A header inside a clause is malformed (R27); its own fields
may give a lower reason (R45). -/
def execClauseHeader (w : BitVec 12) (a b : BitVec 4) (l : BitVec 5) (c : BitVec 2) (_g _f : BitVec 1) (s : State) : Out :=
  match curTeam s with
  | none => .fault .noIssuingTeam
  | some t =>
    if t.wix ≠ 0 then
      if modPending t then .next (illAtMod s t)
      else
        .next (raiseIll s t ((lowest (because (extOf t).isSome 0x07 ++ headerReasons a b l c ++ [0x0C])).getD 0x0C) 0)
    else
      match undelivered s t false with
      | f :: fs => .next (deliver s t (f :: fs))
      | [] =>
        match lowest (headerReasons a b l c) with
        | some r => .next (raiseIll s t r 0)
        | none =>
          if clauseReady t w a b then
            .next (setTeam s { t with
              wix := 1, hints := none,
              clause := { seta := a, setb := b, len := l.toNat, comp := c, yld := false } })
          else .next s

/-- The front of a hint word: the lowest of its reasons (R45), of which one is that it stands at a header's place (R27). -/
def hintOp (s : State) (rs : Team → List Nat) (k : Team → Out) : Out :=
  match curTeam s with
  | none => .fault .noIssuingTeam
  | some t =>
    match lowest (rs t ++ because (t.wix == 0) 0x0C) with
    | some r => .next (raiseIll s t r 0)
    | none => k (counted t)

/-- The team is at the last word of its clause. -/
def lastWord (t : Team) : Bool := t.wix != 0 && t.wix == t.clause.len

/-- The hints of the unit so far, or a new unit that starts here. -/
def hintsOf (t : Team) : Hints :=
  t.hints.getD { start := t.wix, sched := false, mod := none, modIx := 0, modWord := 0, ext := none }

/-- The team after a hint word that more words of the unit follow. -/
def hinted (t : Team) (h : Hints) : Team := { t with hints := some h, wix := t.wix + 1 }

/-- ext (R35, R36). -/
def execExt (p : BitVec 20) (s : State) : Out :=
  hintOp s
    (fun t => because ((extOf t).isSome || lastWord t) 0x07 ++ because (extOf t).isSome 0x09)
    (fun t => .next (setTeam s (hinted t { hintsOf t with ext := some p })))

/-- mod (R35, R37). -/
def execMod (r : BitVec 3) (z g : BitVec 1) (c : BitVec 2) (k : BitVec 3) (o : BitVec 2) (w : BitVec 3) (s : State) :
    Out :=
  let m : Mods := ⟨r, z, g, c, k, o, w⟩
  hintOp s
    (fun t => because m.reserved 0x06 ++ because (extOf t).isSome 0x07 ++ because (lastWord t) 0x08 ++
      because (modPending t) 0x09)
    (fun t => .next (setTeam s (hinted t { hintsOf t with mod := some m, modIx := t.wix, modWord := t.ir })))

/-- A sched hint stands directly before this word, as the first word of its unit (R35). -/
def schedPending (t : Team) : Bool := (t.hints.map Hints.sched).getD false && (extOf t).isNone && !modPending t

/-- sched (R35, R38): its compaction holds to the end of the clause, and YLD is remembered for the clause's end. A repeated
sched is at fault itself (R35); one that follows a mod makes that mod malformed (R37). -/
def execSched (y _l : BitVec 1) (c : BitVec 2) (s : State) : Out :=
  match curTeam s with
  | none => .fault .noIssuingTeam
  | some t =>
    if t.wix ≠ 0 ∧ modPending t then .next (illAtMod s t)
    else
      hintOp s (fun t => because (c == 3) 0x06 ++ because (extOf t).isSome 0x07 ++ because (schedPending t) 0x09) fun t =>
        let t := { t with clause := { t.clause with comp := c, yld := t.clause.yld || y == 1 } }
        .next (setTeam s (if t.wix < t.clause.len then hinted t { hintsOf t with sched := true } else advance t))

/-- nop (R291). -/
def execNop (s : State) : Out :=
  withWord .nop s (fun _ => []) (fun _ => []) fun t _ => .next (setTeam s (advance t))

/-! ### Control flow -/

/-- STACK_FULL where the stack holds its 32 entries (R275); else the rest. -/
def withRoom (s : State) (t : Team) (k : Out) : Out :=
  if 32 ≤ t.stack.length then .next (raiseWide s t 0x0C 0 0) else k

/-- bra (R279). -/
def execBra (i : BitVec 17) (s : State) : Out :=
  withWord (.bra i) s (fun _ => []) (fun _ => []) fun t _ =>
    let a := branchTarget t i
    toHeader s t a fun s => .next (setTeam s (goto t a))

/-- The outcome of a conditional branch in which the lanes tk branch to a is no trap (R280). -/
def branchFits (s : State) (t : Team) (a : Word) (tk : Mask) : Bool :=
  tk == 0 ||
    (landsOn s t a &&
      (tk == t.active ||
        match ownStack t with
        | top :: _ => top.kind != .call && (top.pmask == 0 || decide (t.stack.length < 32))
        | [] => false))

/-- The lanes that branch (R280). A lane whose condition is pending branches or not as a free value says; where a trap would
come of that, all such lanes stay, or all branch, if one of these is no trap, since an undefined value raises none (R4, R33;
DEDUCED, log 27). -/
def branchLanes (s : State) (t : Team) (c : Nat) (a : Word) (sense : Word → Bool) : Mask :=
  let act := lanesOf t.active
  let tk := maskOf (act.filter (fun l => sense (readSlot s t l c)))
  let undef := maskOf (act.filter (fun l => readsPending s t l [c]))
  if undef = 0 then tk else ([tk, tk &&& ~~~undef, tk ||| undef].find? (branchFits s t a)).getD (tk &&& ~~~undef)

/-- bc.nz and bc.z (R280): sense tells which lanes branch. -/
def branchCond (i : Instr) (s : State) (c : BitVec 5) (disp : BitVec 17) (sense : Word → Bool) : Out :=
  withWord i s (fun _ => s1 c) (fun _ => []) fun t _ =>
    consume s t (lanesOf t.active) (s1 c) (
      let a := branchTarget t disp
      let tk := branchLanes s t c.toNat a sense
      let n := t.active &&& ~~~tk
      let s0 := bump s t
      if tk = 0 then .next (setTeam s0 (advance t))
      else if n = 0 then toHeader s0 t a fun s => .next (setTeam s (goto t a))
      else
        match ownStack t, t.stack with
        | top :: _, _ :: rest =>
          if top.kind = .call then .next (raiseIll s0 t 0x14 0)
          else
            toHeader s0 t a fun s =>
              if top.pmask ≠ 0 then
                withRoom s t (
                  let e : StackEntry :=
                    { kind := .split, rpc := top.rpc, rmask := t.active, ppc := a, pmask := tk }
                  .next (setTeam s (goto { t with stack := e :: t.stack, active := n } (nextAddr t))))
              else
                .next (setTeam s (goto { t with stack := { top with ppc := a, pmask := tk } :: rest, active := n }
                  (nextAddr t)))
        | _, _ => .next (raiseIll s0 t 0x14 0))

/-- bc.nz (R280). -/
def execBcNz (c : BitVec 5) (i : BitVec 17) (s : State) : Out :=
  branchCond (.bcNz c i) s c i (fun v => v != 0)

/-- bc.z (R280). -/
def execBcZ (c : BitVec 5) (i : BitVec 17) (s : State) : Out :=
  branchCond (.bcZ c i) s c i (fun v => v == 0)

/-- recon (R281). -/
def execRecon (i : BitVec 17) (s : State) : Out :=
  withWord (.recon i) s (fun _ => []) (fun _ => []) fun t _ =>
    let a := branchTarget t i
    toHeader s t a fun s =>
      withRoom s t (
        let e : StackEntry := { kind := .recon, rpc := a, rmask := t.active, ppc := 0, pmask := 0 }
        .next (setTeam s (advance { t with stack := e :: t.stack })))

/-- join (R282). -/
def execJoin (s : State) : Out :=
  withWord .join s (fun _ => []) (fun _ => []) fun t _ =>
    match ownStack t with
    | top :: _ =>
      if top.kind = .call then .next (raiseIll s t 0x14 0) else .next (setTeam s (resumeStep { t with active := 0 }))
    | [] => .next (raiseIll s t 0x14 0)

/-- The stack after brk takes the lanes b out of the n innermost RECON regions (R283), and the RPC of the n-th; none where
fewer lie above the innermost call marker. -/
def brkStack (b : Mask) : Nat → List StackEntry → Option (List StackEntry × Word)
  | _, [] => none
  | n, e :: rest =>
    if e.kind = .call then none
    else
      let e' := { e with rmask := e.rmask &&& ~~~b, pmask := e.pmask &&& ~~~b }
      if e.kind = .recon then
        if n ≤ 1 then some (e :: rest, e.rpc)
        else (brkStack b (n - 1) rest).map (fun r => (e' :: r.1, r.2))
      else (brkStack b n rest).map (fun r => (e' :: r.1, r.2))

/-- brk (R283). -/
def execBrk (n : BitVec 5) (i : BitVec 17) (s : State) : Out :=
  withWord (.brk n i) s (fun _ => []) (fun _ => []) fun t _ =>
    let own := ownStack t
    match brkStack t.active n.toNat own with
    | none => .next (raiseIll s t 0x13 0)
    | some (st, rpc) =>
      if branchTarget t i ≠ rpc then .next (raiseIll s t 0x13 0)
      else .next (setTeam s (resumeStep { t with stack := st ++ t.stack.drop own.length, active := 0 }))

/-- call (R284). -/
def execCall (c : BitVec 5) (i : BitVec 17) (s : State) : Out :=
  withWord (.call c i) s (fun _ => []) (fun _ => s1 c) fun t _ =>
    let a := branchTarget t i
    toHeader s t a fun s =>
      withRoom s t (
        let ws := writeAll t c.toNat (nextAddr t)
        let e : StackEntry := { kind := .call, rpc := 0, rmask := t.active, ppc := 0, pmask := 0 }
        let t' := writeRegs { t with stack := e :: t.stack } ws
        .next (setTeam (taint s t (ws.map Prod.fst)) (goto t' a)))

/-- The value of a slot in some lanes, where they all hold the same one (R285, R286). -/
def uniform (s : State) (t : Team) (n : Nat) (ls : List Nat) : Option Word :=
  let v := readSlot s t (ls.headD 0) n
  if ls.all (fun l => readSlot s t l n == v) then some v else none

/-- A jump to the uniform address in a slot (R285, R286): RET_DIVERGE with its code, then BADTARGET. A lane whose slot is
pending holds any value and raises no trap (R4, R33): the other lanes give the address, and with none the jump goes to a free
clause header or to the next word (DEDUCED, log 27). -/
def jumpTo (s : State) (t : Team) (n why : Nat) (k : State → Word → Out) : Out :=
  let act := lanesOf t.active
  consume s t act [n] (
    let s0 := bump s t
    let sure := act.filter (fun l => !readsPending s t l [n])
    if sure.isEmpty then
      let v := readSlot s t (lead t) n
      k s0 (if v.toNat % 4 = 0 ∧ landsOn s t v then v else nextAddr t)
    else
      match uniform s t n sure with
      | none => .next (raiseWide s0 t 0x0B 0 (BitVec.ofNat 64 why))
      | some v =>
        if v.toNat % 4 ≠ 0 then .next (raiseWide s0 t 0x02 (v.setWidth 64) 0)
        else toHeader s0 t v fun s => k s v)

/-- A ret finds a call marker, but not on top (R285): reason 0x13. -/
def retCovered (t : Team) : Bool :=
  match ownStack t with
  | top :: below => below.any (fun e => e.kind == .call) && top.kind != .call
  | [] => false

/-- ret (R285, R340). -/
def execRet (a : BitVec 5) (s : State) : Out :=
  withCauses (.ret a) s (fun _ => s1 a) (fun _ => []) (fun t _ => if retCovered t then [(0x13, 0)] else []) fun t _ =>
    match ownStack t, t.stack with
    | top :: _, _ :: rest =>
      if top.kind ≠ .call then .next (raiseWide s t 0x0A 0 0)
      else jumpTo s t a.toNat 1 fun s v => .next (setTeam s (goto { t with stack := rest } v))
    | _, _ => .next (raiseWide s t 0x0A 0 0)

/-- jmpi (R286). -/
def execJmpi (a : BitVec 5) (s : State) : Out :=
  withWord (.jmpi a) s (fun _ => s1 a) (fun _ => []) fun t _ =>
    jumpTo s t a.toNat 2 fun s v => .next (setTeam s (goto t v))

/-- The ARITH check of cbar, gbar and exit (R74, R332); else the rest. -/
def arithCheck (s : State) (t : Team) (k : Out) : Out :=
  match arithLanes t with
  | [] => k
  | ls => .next (raiseTrap s t (arithRecs t ls) t.active (.enter []))

/-- exit (R288): in a handler it must remove every live lane (R340). -/
def execExit (s : State) : Out :=
  withWord .exit s (fun _ => []) (fun _ => []) fun t _ =>
    if t.handler.isSome ∧ t.live &&& ~~~t.active ≠ 0 then .next (raiseIll s t 0x14 0)
    else arithCheck s t (.next (setTeam s (resumeStep (removeLanes t t.active))))

/-- exit.kill (R289). -/
def execExitKill (s : State) : Out :=
  withWord .exitKill s (fun _ => []) (fun _ => []) fun t _ =>
    .next (killGrid s t.ctx t.grid t.index t.clus (wordAddr t))

/-- trap (R290): SOFTWARE with the immediate and the slot's value in the lowest active lane. -/
def execTrap (a : BitVec 5) (i : BitVec 12) (s : State) : Out :=
  withWord (.trap a i) s (fun _ => s1 a) (fun _ => []) fun t _ =>
    consume s t [lead t] (s1 a)
      (.next (raiseWide (bump s t) t 0x14 0 (readSlot s t (lead t) a.toNat ++ i.setWidth 32)))

/-! ### yield and reproducible mode -/

/-- The logical team index (R298). -/
def logicalIx (t : Team) : Nat := t.clus * (t.hdr.clw * t.hdr.clh) + t.index

/-- The team gives up the role of current team of its grid on its core (R309). -/
def dropRole (s : State) (t : Team) : State :=
  match findGrid s t.ctx t.grid with
  | some g =>
    setGrid s t.ctx { g with
      roles := g.roles.map (fun r => if r.core == t.core && r.last == logicalIx t then { r with held := false } else r) }
  | none => s

/-- A team that has blocked is not current any more (R309, R313). -/
def dropIfBlocked (s : State) (u : Nat) : State :=
  match findTeam s u with
  | some x => if x.block.isSome then dropRole s x else s
  | none => s

/-- yield (R308, R309): the team goes to the target; its ready time is the cycle after. -/
def execYield (i : BitVec 17) (s : State) : Out :=
  withWord (.yield i) s (fun _ => []) (fun _ => []) fun t _ =>
    let a := branchTarget t i
    toHeader s t a fun s =>
      .next (dropRole (setTeam s (goto { t with wasReady := true, readyAt := s.clk.toNat + 1 } a)) t)

/-! ### Binding (R156 to R160) -/

/-- Slots D to D + n - 1 bound to registers M to M + n - 1. -/
def bindSlots (b : Vector (Option (BitVec 8)) 32) (d m n : Nat) : Vector (Option (BitVec 8)) 32 :=
  (List.range n).foldl (fun acc k => acc.setIfInBounds (d + k) (some (BitVec.ofNat 8 (m + k)))) b

/-- The lowest slot outside D to D + n - 1 that stays bound to a register of M to M + n - 1, with its register (R159). -/
def bindClash (t : Team) (d m n : Nat) : Option (Nat × Nat) :=
  (List.range 32).findSome? (fun i =>
    if d ≤ i ∧ i < d + n then none
    else
      match slotReg t i with
      | some r => if m ≤ r ∧ r < m + n then some (i, r) else none
      | none => none)

/-- bind and bindx once M is known (R159): SLOT_UNBOUND, BIND_CLASH, or the new bindings. -/
def bindTo (s : State) (t : Team) (d m n : Nat) : Out :=
  if t.hdr.regs < m + n then .next (raiseWide s t 0x0E 0 (BitVec.ofNat 64 (d * 256 + 3)))
  else
    match bindClash t d m n with
    | some (i, r) => .next (raiseWide s t 0x0F 0 (BitVec.ofNat 64 (i * 256 + r * 65536)))
    | none => .next (setTeam s (advance { t with binds := bindSlots t.binds d m n }))

/-- bind (R159). -/
def execBind (d : BitVec 5) (n : BitVec 3) (r : BitVec 8) (s : State) : Out :=
  withWord (.bind d n r) s (fun _ => []) (fun _ => []) fun t _ => bindTo s t d.toNat r.toNat (n.toNat + 1)

/-- bindx (R160). A pending register number is a free one that raises no trap, or leaves the bindings as they are (R4, R33;
DEDUCED, log 27). -/
def execBindx (d a n : BitVec 5) (s : State) : Out :=
  withWord (.bindx d a n) s (fun _ => s1 a) (fun _ => []) fun t _ =>
    consume s t [lead t] (s1 a) (
      let m := (readSlot s t (lead t) a.toNat).toNat
      let n := n.toNat + 1
      if readsPending s t (lead t) (s1 a) && (decide (t.hdr.regs < m + n) || (bindClash t d.toNat m n).isSome) then
        .next (setTeam (bump s t) (advance t))
      else bindTo (bump s t) t d.toNat m n)

end Sys2Proof.Machine
end

