-- ==== Sys2Proof/Machine/Lazia.lean ====
section
/-! DEFINITION. Lazia streams (R355, R356) and the remote accesses of lanes through peer apertures (R370, R371). -/

namespace Sys2Proof.Machine

/-- A stream. -/
def findStream (s : State) (id : BitVec 32) : Option Strm := s.streams.find? (fun x => x.id == id)

/-- A stream that nothing has used. -/
def newStream (id : BitVec 32) : Strm :=
  { id := id, ip := [], syn := false, seqOut := 0, expect := 0, got := [], unacked := [], failed := false }

/-- The state with a stream replaced, or added. -/
def setStream (s : State) (x : Strm) : State :=
  if s.streams.any (fun y => y.id == x.id) then
    { s with streams := s.streams.map (fun y => if y.id == x.id then x else y) }
  else { s with streams := s.streams ++ [x] }

/-- The SACK bits of a stream (R355): bit i for frame ACKN + 1 + i received. -/
def sackBits (x : Strm) : BitVec 32 :=
  x.got.foldl (fun acc f =>
    let d := (f.seq - x.expect).toNat
    if 1 ≤ d ∧ d ≤ 32 then acc ||| BitVec.ofNat 32 (2 ^ (d - 1)) else acc) 0

/-- The header of a frame (R355). -/
def frameHead (f : Frame) : List Byte :=
  bytesOf 1 f.ver.toNat ++ bytesOf 1 f.type.toNat ++ bytesOf 2 f.flg.toNat ++ bytesOf 4 f.strm.toNat ++ bytesOf 4 f.seq.toNat ++
    bytesOf 4 f.ackn.toNat ++ bytesOf 4 f.sack.toNat ++ bytesOf 2 f.cmd.toNat ++ bytesOf 2 f.stat.toNat ++
    bytesOf 4 f.payload.length ++ bytesOf 4 f.tag.toNat

/-- The CRC-32C of a frame, over its header and its payload (R355). -/
def frameCrc (f : Frame) : Word := crc32c (frameHead f ++ f.payload)

/-- The UDP port of a port's traffic (R354): 47900 unless the manifest sets another. -/
def Port.udpPort (p : Port) : BitVec 16 := p.udp.getD 47900

/-- The UDP ports on which the module is reached (R354). -/
def udpPorts (s : State) : List (BitVec 16) := if s.ports.isEmpty then [47900] else s.ports.map Port.udpPort

/-- A frame sent on a stream (R355, R356): it takes the next SEQ and stays until it is acknowledged. -/
def sendFrame (s : State) (id : BitVec 32) (type cmd stat : Nat) (tag : BitVec 32) (payload : List Byte) : State :=
  let x := (findStream s id).getD (newStream id)
  if x.failed then s
  else
    let f : Frame :=
      { ip := x.ip, ver := 1, type := BitVec.ofNat 8 type, flg := if x.syn then 5 else 4, strm := id, seq := x.seqOut,
        ackn := x.expect, sack := sackBits x, cmd := BitVec.ofNat 16 cmd, stat := BitVec.ofNat 16 stat, tag := tag
        payload := payload, crc := 0, udp := (udpPorts s).headD 47900 }
    setStream s { x with syn := false, seqOut := x.seqOut + 1, unacked := x.unacked ++ [({ f with crc := frameCrc f }, 0)] }

/-- The stream of a peer (R355). -/
def peerStream (p : Nat) : BitVec 32 := 0xFFFFFF00 + BitVec.ofNat 32 p

/-- A peer. -/
def findPeer (s : State) (p : Nat) : Option Peer := s.peers.find? (fun x => x.p == p)

/-- Why an access to a peer fails at once (R371): the reason code. -/
def peerReason (s : State) (p : Nat) : Option Nat :=
  match findPeer s p with
  | none => some 3
  | some x =>
    if x.failed || (match findStream s (peerStream p) with
      | some y => y.failed
      | none => false) then some 1
    else none

/-- PEER_LOST of a lane (R371). -/
def peerLost (l : Nat) (va : DWord) (p reason : Nat) : LaneFault :=
  { lane := l, cls := 0x16, addr := va, aux := BitVec.ofNat 64 (p + 256 * reason) }

/-- A team number that no team has. -/
def noTeam : Nat := 2 ^ 64

/-- A remote request sent (R370): the frame goes out on the peer's stream, and the access is in flight under a new tag. -/
def sendRemote (s : State) (r : RemoteReq) (ord opField : Nat) (data : List Byte) : State :=
  match findPeer s r.p with
  | none => s
  | some x =>
    let va := x.rbase + BitVec.ofNat 64 (peerOf r.acc.pa).2
    let head := bytesOf 4 x.rctx.toNat ++ bytesOf 1 ord ++ bytesOf 1 opField ++ bytesOf 2 0 ++ bytesOf 8 va.toNat ++
      bytesOf 8 0
    let r := { r with tag := s.nextTag }
    let s := { s with remote := s.remote ++ [r], nextTag := s.nextTag + 1 }
    sendFrame s (peerStream r.p) (if r.kind = 3 then 3 else 3 + r.kind) r.acc.size 0 (BitVec.ofNat 32 r.tag) (head ++ data)

end Sys2Proof.Machine
end

