-- ==== Sys2Proof/Machine/Memory.lean ====
section
/-! DEFINITION. Loads, stores and atomics of global memory (R165 to R167, R262 to R271), and what every multi-lane memory
instruction shares: each lane's try, its completion lane by lane (R162, R163), and the flag it counts on. A load takes its
value when it issues, and memory may serve it anew until LOAD_COMPLETE writes its destinations (log entry 15). -/

namespace Sys2Proof.Machine

/-! ### One lane -/

/-- Size in bytes of x (R23). -/
def sizeOf (x : Nat) : Nat :=
  match x with
  | 0 | 1 => 1
  | 2 | 3 => 2
  | 4 => 4
  | 5 => 8
  | _ => 16

/-- The data slots of x (R23). -/
def dataSlots (x : Nat) (t : BitVec 5) : List Nat := slotsFrom t (if x = 5 then 2 else if x = 6 then 4 else 1)

/-- The words that a load of bytes writes (R23): extended below 4 bytes. -/
def loadWords (sgn : Bool) (bs : List Byte) : List Word :=
  match bs.length with
  | 1 => [if sgn then (BitVec.ofNat 8 (natOf bs)).signExtend 32 else BitVec.ofNat 32 (natOf bs)]
  | 2 => [if sgn then (BitVec.ofNat 16 (natOf bs)).signExtend 32 else BitVec.ofNat 32 (natOf bs)]
  | n => (List.range (n / 4)).map (fun i => wordAt bs (4 * i))

/-- The low bytes of data words (R262). -/
def storeBytes (n : Nat) (ws : List Word) : List Byte := (ws.flatMap (fun w => bytesOf 4 w.toNat)).take n

/-- The scaled offset of format M (R23). -/
def offM (o : BitVec 9) (scale : Nat) : DWord := BitVec.ofInt 64 (o.toInt * scale)

/-- What a lane's access meets before it is made: an address at home, a peer's aperture, or a fault. -/
inductive Try where
  | go (x : Xlat)
  | peer (p : Nat) (x : Xlat)
  | stop (f : LaneFault)
  deriving DecidableEq, Repr

/-- A lane's access of size bytes (R104, R105, R165, R262, R371): ALIGN, then translation, then the peer; a decoding access
checks its alignment after translation (R166). -/
def tryLane (s : State) (t : Team) (k : AccKind) (l : Nat) (va : DWord) (size : Nat) (decode : Option (List Nat)) : Try :=
  if decode.isNone && va.toNat % size != 0 then .stop { lane := l, cls := 0x03, addr := va, aux := 0 }
  else
    match translate s t.root va k decode with
    | .fault c x => .stop { lane := l, cls := c, addr := va, aux := x }
    | .ok x =>
      if decode.isSome && va.toNat % (4 * halfBytes x.fmt) != 0 then
        .stop { lane := l, cls := 0x03, addr := va, aux := 0 }
      else if isPeer x.pa then
        let p := (peerOf x.pa).1
        match peerReason s p with
        | some r => .stop (peerLost l va p r)
        | none => .peer p x
      else .go x

/-- Bytes that a load returns (R87, R165, R256): the team's own pending red requests to them are performed first, and for a
read at the home the stores that a release has shown to the core's teams. A load that reads at the home sees the team's own
stores still in write-through; one served from L1 sees the core's. The hop code of a poisoned line comes with them. -/
def loadFrom (s : State) (t : Team) (home : Bool) (pa n : Nat) : State × List Byte × Nat :=
  let s := performUpTo s t pa n home false
  if home then
    (s, forward (s.stores.filter (fun e => e.uid == t.uid)) pa (homeBytes s pa n), hopOf s pa n)
  else
    match l1Line s t.core (pa / 64) with
    | some ln => (s, (ln.data.drop (pa % 64)).take n, 0)
    | none =>
      if hopOf s pa n ≠ 0 then (s, homeBytes s pa n, hopOf s pa n)
      else
        let s := l1Fill s t.core (pa / 64)
        (s, forward (s.stores.filter (fun e => e.core == t.core)) pa (homeBytes s pa n), 0)

/-- A load of n bytes at va reads a word of the trap frame's SAVE copy whose register an instruction that issued before entry
still owes: the value is undefined (R341). -/
def readsOwedSave (s : State) (t : Team) (va n : Nat) : Bool :=
  match t.handler with
  | none => false
  | some h =>
    let owed := t.pend.flatMap (fun p => if p.handler then [] else p.dests) ++
      (coreOf s t.core).mat.flatMap (fun c =>
        if c.iss.uid == t.uid && !c.iss.handler then
          (match c.op with
           | .sieve _ m => (List.range 32).map (fun l => regKey l m)
           | _ => [])
        else [])
    owed.any (fun k =>
      let w := h.frameVa.toNat + saveOffset (k / 256) (k % 256)
      decide (k % 256 < 8 ∧ w < va + n ∧ va < w + 4))

/-! ### The whole instruction -/

/-- A memory instruction under way: the state, what is done, the tags of remote requests, and the lines of home memory that it
has touched. -/
structure Run where
  s : State
  op : MemOp
  tags : List Nat
  lines : List Nat
  deriving DecidableEq, Repr

/-- The start of a memory instruction: lost are the lanes that consume poison in reading their operands. -/
def startRun (s : State) (flag : Option Nat) (lost : List Nat) (home acquire acquires : Bool) : Run :=
  { s := s, tags := [], lines := [],
    op := { flag := flag, faults := [], writes := [], losses := [], lost := lost.map regLoss, dests := [], vas := [], home := home,
            acquire := acquire, acquires := acquires, again := [], promote := none } }

/-- A lane faults. -/
def Run.fault (r : Run) (f : LaneFault) : Run := { r with op := { r.op with faults := r.op.faults ++ [f] } }

/-- The result words of a lane whose destinations are noted come, or its poison. -/
def Run.value (r : Run) (l : Nat) (va : DWord) (dests : List Nat) (ws : List Word) (hop : Nat) : Run :=
  if hop ≠ 0 then { r with op := { r.op with losses := r.op.losses ++ [{ lane := l, addr := va, hop := hop }] } }
  else { r with op := { r.op with writes := r.op.writes ++ dests.zip ws, vas := r.op.vas ++ [(l, va)] } }

/-- A lane's result words come, or its poison. -/
def Run.got (r : Run) (l : Nat) (va : DWord) (dests : List Nat) (ws : List Word) (hop : Nat) : Run :=
  { r with op := { r.op with dests := r.op.dests ++ dests } }.value l va dests ws hop

/-- A lane whose address, operand or predicate is a pending destination: its own destination is undefined, and it does nothing
else (R33). -/
def Run.undef (r : Run) (l : Nat) (dests : List Nat) : Run :=
  { r with op := { r.op with
      dests := r.op.dests ++ dests
      writes := r.op.writes ++ dests.zipIdx.map (fun k => (k.1, freeBits 32 (r.s.fresh + 2 ^ 18 + 4 * l + k.2))) } }

/-- A line of home memory is touched. -/
def Run.touch (r : Run) (s : State) (pa : Nat) : Run := { r with s := s, lines := r.lines ++ [pa / 64] }

/-- Bytes of a team's scratchpad are touched. -/
def Run.touchScr (r : Run) (s : State) (u off : Nat) : Run := { r with s := s, lines := r.lines ++ [scrLine u off] }

/-- A lane's load may be served anew until it completes (R258). -/
def Run.mayReread (r : Run) (t : Team) (a : Access) (decode : Option (Nat × Nat)) (scr : Option Nat := none) : Run :=
  { r with op := { r.op with again := r.op.again ++ [{ acc := a, decode := decode, root := t.root, scr := scr }] } }

/-- A lane's remote request goes out; one that acquires does so at .sy, whatever its SCOPE says (R255). -/
def Run.send (r : Run) (q : RemoteReq) (ord opField : Nat) (data : List Byte) : Run :=
  { r with
    s := sendRemote r.s q ord opField data, tags := r.tags ++ [r.s.nextTag]
    op := { r.op with
      dests := r.op.dests ++ q.acc.dsts ++ q.lanes.flatMap (fun x => x.2.2.2)
      acquire := r.op.acquire || ord % 2 == 1 } }

/-- A plain remote request of one lane. -/
def remoteOf (p kind : Nat) (t : Team) (acc : Access) : RemoteReq :=
  { tag := 0, p := p, uid := t.uid, acc := acc, kind := kind, op := 0, lanes := [], decode := none }

/-- The team at a word of which the passes let go so far have met some faults: the lanes that are done have their whole effect, the
others and those that fault stay in the resume mask (R162, R163). A team that has been saved meanwhile starts its unit again for
all of these lanes, and forgets the faults (R163, R347). -/
def partWord (t : Team) (faults : List LaneFault) : Team :=
  let gone := (t.pass.map (fun m => toDo t &&& m)).getD (toDo t)
  let fs := maskOf (faults.map LaneFault.lane)
  let t' := { t with resume := some ((toDo t &&& ~~~gone) ||| fs), pass := none, begun := true, faulted := faults,
                     done := t.done ||| (gone &&& ~~~fs) }
  if t.place == .saved then { t' with begun := false, faulted := [], wix := unitIx t, hints := none } else t'

/-- A word stops in its place: passes of it are to come, or the trap of its faults; or its team has been saved and its faults raise
no record (R163). -/
def stopsHere (t : Team) (faults : List LaneFault) : Bool :=
  (match t.pass with
   | some m => toDo t &&& ~~~m != 0 || !faults.isEmpty
   | none => false) || (t.place == .saved && !faults.isEmpty)

/-- The end of a memory instruction (R30, R162, R163): with no faulting lane it is accepted, counts on its flag and the
team goes on; otherwise the lanes that are done have their registers written, and the trap is taken at the word. Where only
some of its passes have gone, no flag counts it and no trap is taken yet. -/
def settleMem (s : State) (t : Team) (op : MemOp) : State :=
  let t := renew s t
  let s := if op.acquire then l1Invalidate s t.core else s
  let pc := wordAddr t
  let keys := op.writes.map Prod.fst
  let faults := t.faulted ++ op.faults
  if stopsHere t faults then
    loseLanes (taint s t keys) (partWord (writeRegs t op.writes) faults) pc (op.lost ++ op.losses)
  else
    match faults with
    | [] =>
      match op.flag with
      | some f =>
        let p : Pend :=
          { seq := s.nextSeq, flag := f, dests := op.dests, writes := op.writes, vas := op.vas, losses := op.losses, contested := [],
            pc := pc, handler := t.handler.isSome, again := op.again, home := op.home, acquires := op.acquires,
            wait := match op.promote with
              | some (cs, as) => .promote cs as
              | none => .data }
        let t' := advance (flagMap { t with pend := t.pend ++ [p] } f (· + 1))
        loseLanes { s with nextSeq := s.nextSeq + 1 } t' pc op.lost
      | none => loseLanes s (advance t) pc (op.lost ++ op.losses)
    | fs => raisePartial (taint s t keys) (writeRegs t op.writes) fs (op.lost ++ op.losses)

/-- A word that has awaited peers ends; a team with no lane left takes the resume step (R276). -/
def settleHold (s : State) (t : Team) (op : MemOp) : State :=
  let s := settleMem s { t with hold := none } op
  match findTeam s t.uid with
  | some t => if t.active == 0 && t.live != 0 && t.trap.isNone && t.block.isNone then setTeam s (resumeStep t) else s
  | none => s

/-- The end of the passes of a memory instruction: with remote requests out the word awaits their replies, and the team holds its
core's issue slot (R29, R370; log entry 74). -/
def finishRun (t : Team) (r : Run) : Out :=
  let t := t.sealedAt r.lines
  match r.tags with
  | [] => .next (settleMem r.s t r.op)
  | tags => .next (setTeam r.s { renew r.s t with hold := some { tags := tags, op := r.op } })

/-- The executing lanes of a memory instruction and those it loses in reading its operands. -/
def memLanes (s : State) (t : Team) (p : BitVec 2) (srcs : List Nat) : List Nat × List Nat :=
  let lost := lostLanes s t p srcs
  ((execLanes s t p).filter (fun l => !lost.contains l), lost)

/-- The registers of a lane's slots, as keys. -/
def laneKeys (t : Team) (l : Nat) (ns : List Nat) : List Nat := (ns.filterMap (slotReg t)).map (regKey l)

/-- Result words, free where the load reads a SAVE word that is owed (R341). -/
def undefWords (s : State) (l : Nat) (undef : Bool) (ws : List Word) : List Word :=
  if undef then ws.zipIdx.map (fun w => freeBits 32 (s.fresh + 2 ^ 18 + 4 * l + w.2)) else ws

/-- The state after free values may have been drawn: the next draws are new ones. -/
def drawn (s : State) (free : Bool) : State := if free then { s with fresh := s.fresh + 2 ^ 20 } else s

/-! ### Loads -/

/-- One lane of a load. -/
def loadLane (t : Team) (home sgn : Bool) (size : Nat) (dsts : List Nat) (ord : Nat) (undef : Nat → Bool) (va : Nat → DWord)
    (r : Run) (l : Nat) : Run :=
  let a := va l
  let acc := fun (pa : Nat) => ({ lane := l, pa := pa, va := a, size := size, sgn := sgn, dsts := laneKeys t l dsts } : Access)
  if undef l then r.undef l (laneKeys t l dsts)
  else
    match tryLane r.s t .read l a size none with
    | .stop f => r.fault f
    | .peer p x => r.send (remoteOf p 0 t (acc x.pa)) ord 0 []
    | .go x =>
      match loadFrom r.s t home x.pa size with
      | (s, bs, hop) =>
        let owed := readsOwedSave s t a.toNat size
        let r := (r.touch (drawn s owed) x.pa).got l a (laneKeys t l dsts) (undefWords s l owed (loadWords sgn bs)) hop
        if ord = 0 ∧ hop = 0 ∧ !owed then r.mayReread t (acc x.pa) none else r

/-- A load (R165, R265): home tells whether it reads at the home L2; acq is the scope of an acquire, 0 for none. -/
def loadOp (i : Instr) (s : State) (d a : BitVec 5) (x : Nat) (o : BitVec 9) (home : Mods → Bool) (acq : Mods → Nat) : Out :=
  withWord i s (fun _ => s2 a) (fun _ => dataSlots x d) fun t m =>
    let size := sizeOf x
    let (lanes, lost) := memLanes s t 0 (s2 a)
    let va := fun l => readSlot64 s t l a.toNat + offM o size
    let undef := fun l => readsPending s t l (s2 a)
    let s := noteWalks (bump s t) t ((lanes.filter (fun l => !undef l)).map va)
    let s := if acq m = 0 then s else flushReleases s t.uid (acq m)
    let r := startRun s (flagNo t.clause.seta) lost (home m) (decide (3 ≤ acq m)) (acq m != 0)
    finishRun t (lanes.foldl (loadLane t (home m) (x == 1 || x == 3) size (dataSlots x d) (if acq m = 0 then 0 else 1) undef va) r)

/-- ld (R165). -/
def execLd (t a : BitVec 5) (x : BitVec 3) (o : BitVec 9) (s : State) : Out :=
  loadOp (.ld t a x o) s t a x.toNat o (fun m => m.cp == 2) (fun _ => 0)

/-- The scope of an instruction with a default (R255, R263). -/
def scopeOf (m : Mods) (dflt : Nat) : Nat := if m.scope = 0 then dflt else m.scope.toNat

/-- The access code of R263: b32 or b64. -/
def acqX (x : BitVec 1) : Nat := if x = 0 then 4 else 5

/-- ld.acq (R265). -/
def execLdAcq (t a : BitVec 5) (x : BitVec 1) (o : BitVec 9) (s : State) : Out :=
  loadOp (.ldAcq t a x o) s t a (acqX x) o (fun m => decide (3 ≤ scopeOf m 4)) (fun m => scopeOf m 4)

/-! ### ld.acqp (R266) -/

/-- The cores of a team's cluster: those of its rectangle, and those that its teams have moved to (R349). -/
def clusterCores (s : State) (t : Team) : List Nat :=
  let now := (s.teams.filter (fun x => x.ctx == t.ctx && x.grid == t.grid && x.clus == t.clus)).map Team.core
  match findCluster s t.ctx t.grid t.clus with
  | some k => ((List.range (k.w * k.h)).map (fun i => k.x0 + i % k.w + 64 * (k.y0 + i / k.w)) ++ now).eraseDups
  | none => (t.core :: now).eraseDups

/-- The reach of an ld.acqp (R266). -/
def reachOf (s : State) (t : Team) (scope : Nat) : List Nat :=
  if scope = 3 then clusterCores s t
  else
    match findCtx s t.ctx with
    | some c => c.cores
    | none => [t.core]

/-- One lane of an ld.acqp: the access, at home or at a peer, waits for the replies to the promotion. -/
def promoteLane (t : Team) (size : Nat) (dsts : List Nat) (undef : Nat → Bool) (va : Nat → DWord) (r : Run × List Access) (l : Nat) :
    Run × List Access :=
  let a := va l
  let acc := fun (pa : Nat) => ({ lane := l, pa := pa, va := a, size := size, sgn := false, dsts := laneKeys t l dsts } : Access)
  if undef l then (r.1.undef l (laneKeys t l dsts), r.2)
  else
    match tryLane r.1.s t .read l a size none with
    | .stop f => (r.1.fault f, r.2)
    | .peer _ x => (r.1, r.2 ++ [acc x.pa])
    | .go x =>
      ({ r.1.touch r.1.s x.pa with op := { r.1.op with dests := r.1.op.dests ++ laneKeys t l dsts } }, r.2 ++ [acc x.pa])

/-- ld.acqp (R266): the promotion requests go out; the loads follow the replies. Where the word must first learn whether a lane
fails, or has lanes of a fault or passes still to come, it awaits the replies in its place (log entry 74). -/
def execLdAcqp (d a : BitVec 5) (x : BitVec 1) (o : BitVec 9) (s : State) : Out :=
  withWord (.ldAcqp d a x o) s (fun _ => s2 a) (fun _ => dataSlots (acqX x) d) fun t m =>
    let size := sizeOf (acqX x)
    let (lanes, lost) := memLanes s t 0 (s2 a)
    let va := fun l => readSlot64 s t l a.toNat + offM o size
    let undef := fun l => readsPending s t l (s2 a)
    let s := flushReleases (noteWalks (bump s t) t ((lanes.filter (fun l => !undef l)).map va)) t.uid (scopeOf m 3)
    let r := lanes.foldl (promoteLane t size (dataSlots (acqX x) d) undef va)
      (startRun s (flagNo t.clause.seta) lost true true true, [])
    let op := { r.1.op with promote := some (reachOf s t (scopeOf m 3), r.2) }
    let t := t.sealedAt r.1.lines
    if (t.faulted ++ op.faults).isEmpty && !r.2.any (fun a => isPeer a.pa) && t.pass.isNone then .next (settleMem r.1.s t op)
    else .next (setTeam r.1.s { renew r.1.s t with hold := some { tags := [], op := op } })

/-! ### ldx and pref -/

/-- The scale that element n of a format page decodes with (R116, R117, R79): the E8M0 byte, or the FP32 block scale of Q4N. -/
inductive Scale where
  | val (v : Nat)
  | conflict (pa : Nat)
  | bad (hop : Nat)
  deriving DecidableEq, Repr

/-- Scale bytes as a core's ldx reads them (R166): its ordering is ld's, so that both lines of a pair may come from the core's L1,
into which they go together; with one of them missing both come from the home (DEDUCED, log entry 112). -/
def sideLoad (s : State) (core : Nat) (side off n : Nat) : State × Side :=
  let la := (side + off) / 64
  let lb := (side + 4096 + off) / 64
  match l1Line s core la, l1Line s core lb with
  | some a, some b =>
    (s, if a.data == b.data then .good ((a.data.drop ((side + off) % 64)).take n) else .conflict (64 * la))
  | _, _ =>
    match readSide s side off n with
    | .good bs =>
      let s := repairSide s side off
      (l1Fill (l1Fill (l1Drop (l1Drop s core la) core lb) core la) core lb, .good bs)
    | r => (s, r)

/-- The scale of an element, both copies settled; the state in which a failing copy is repaired (R117). A core, where given,
may serve it from its L1. DEDUCED (log entry 82): of a Q4N element the block scale comes first, and where both its copies fail
S is not read, so that a conflict of S is not met. -/
def scaleOf (s : State) (l1 : Option Nat) (x : Xlat) (n : Nat) : State × Scale :=
  let one := fun (s : State) off len =>
    match (match l1 with
      | some core => sideLoad s core x.side off len
      | none => (s, readSide s x.side off len)) with
    | (s, .good bs) => (if l1.isSome then s else repairSide s x.side off, Scale.val (natOf bs))
    | (s, .conflict pa) => (s, .conflict pa)
    | (s, .bad hop) => (s, .bad hop)
  match one s (scaleAt x.fmt n) 1 with
  | (s, .val b) =>
    if x.fmt = 5 then
      match one s (2048 + 4 * (n / 16384)) 4 with
      | (s, .val sup) => (s, .val (q4nScale b sup))
      | r => r
    else (s, .val b)
  | r => r

/-- An element of a page as BF16 (R166): rounded RNE, or R79's own element. -/
def bf16Elem (fmt code scale : Nat) : Nat :=
  if fmt = 5 then q4nElem code scale else rne .bf16 (mxElem fmt code scale)

/-- Eight decoded elements as four words (R166). -/
def ldxWords (fmt scale n : Nat) (bs : List Byte) : List Word :=
  let code := fun j =>
    if halfBytes fmt = 2 then (bs.getD j 0).toNat
    else (bs.getD (j / 2) 0).toNat / (if (n + j) % 2 = 0 then 1 else 16) % 16
  (List.range 4).map (fun w =>
    halves (bf16Elem fmt (code (2 * w)) scale) (bf16Elem fmt (code (2 * w + 1)) scale))

/-- One lane of ldx. -/
def ldxLane (t : Team) (home : Bool) (dsts : List Nat) (undef : Nat → Bool) (va : Nat → DWord) (r : Run) (l : Nat) : Run :=
  let a := va l
  let keys := laneKeys t l dsts
  let acc := fun (x : Xlat) =>
    ({ lane := l, pa := x.pa, va := a, size := 4 * halfBytes x.fmt, sgn := false, dsts := keys } : Access)
  let scaled := fun (x : Xlat) (k : State → Nat → Run) =>
    match scaleOf r.s (if home then none else some t.core) x (a.toNat % 65536 * 2 / halfBytes x.fmt) with
    | (s, .conflict pa) => { r with s := s }.fault { lane := l, cls := 0x17, addr := a, aux := BitVec.ofNat 64 pa }
    | (s, .bad hop) => { r with s := s }.got l a keys [] hop
    | (s, .val sc) => k s sc
  if undef l then r.undef l keys
  else
    match tryLane r.s t .read l a 8 (some [1, 2, 3, 4, 5]) with
    | .stop f => r.fault f
    | .peer p x => scaled x fun s sc =>
        { r with s := s }.send { remoteOf p 0 t (acc x) with decode := some (x.fmt, sc) } 0 0 []
    | .go x => scaled x fun s sc =>
        match loadFrom s t home x.pa (4 * halfBytes x.fmt) with
        | (s, bs, hop) =>
          let owed := readsOwedSave s t a.toNat (4 * halfBytes x.fmt)
          let ws := undefWords s l owed (ldxWords x.fmt sc (a.toNat % 65536 * 2 / halfBytes x.fmt) bs)
          let r := (r.touch (drawn s owed) x.pa).got l a keys ws hop
          if hop = 0 ∧ !owed then r.mayReread t (acc x) (some (x.fmt, sc)) else r

/-- ldx (R166). -/
def execLdx (d a : BitVec 5) (o : BitVec 9) (s : State) : Out :=
  withWord (.ldx d a o) s (fun _ => s2 a) (fun _ => slotsFrom d 4) fun t m =>
    let (lanes, lost) := memLanes s t 0 (s2 a)
    let va := fun l => readSlot64 s t l a.toNat + offM o 8
    let undef := fun l => readsPending s t l (s2 a)
    let s := noteWalks (bump s t) t ((lanes.filter (fun l => !undef l)).map va)
    finishRun t (lanes.foldl (ldxLane t (m.cp == 2) (slotsFrom d 4) undef va)
      (startRun s (flagNo t.clause.seta) lost (m.cp == 2) false false))

/-- A line brought into a core's L1, if it can be and is not there. -/
def prefLine (s : State) (core ln : Nat) : State :=
  if (l1Line s core ln).isSome || lineHop s ln != 0 then s else l1Fill s core ln

/-- pref (R167): it may bring lines into L1, those of a format page's scales among them; it never faults and reads nothing into a
lane. What it fetches into the home L2 is not seen: L2 answers a clean line as its array does. -/
def execPref (a : BitVec 5) (o : BitVec 9) (s : State) : Out :=
  withWord (.pref a o) s (fun _ => s2 a) (fun _ => []) fun t m =>
    let (lanes, lost) := memLanes s t 0 (s2 a)
    let known := lanes.filter (fun l => !readsPending s t l (s2 a))
    let va := fun l => readSlot64 s t l a.toNat + offM o 4
    let s' := known.foldl (fun s' l =>
      match tryLane s' t .read l (va l) 4 none with
      | .go x =>
        if m.cp = 2 then s'
        else
          let s' := prefLine s' t.core (x.pa / 64)
          if x.fmt = 0 then s'
          else
            let off := x.side + scaleAt x.fmt ((va l).toNat % 65536 * 2 / halfBytes x.fmt)
            prefLine (prefLine s' t.core (off / 64)) t.core ((off + 4096) / 64)
      | _ => s') (noteWalks (bump s t) t (known.map va))
    .next (loseLanes s' (endWord t) (wordAddr t) (lost.map regLoss))

/-! ### Stores -/

/-- The core's teams see the store as it issues: one of a release at .cr or wider is performed there for them (R255, R264). -/
def shownAtOnce (k : StoreKind) : Bool :=
  match k with
  | .rel scope => decide (2 ≤ scope)
  | _ => false

/-- An entry put at the end of the store path; grp names the stores that may cover a line together. -/
def enqueue (s : State) (t : Team) (k : StoreKind) (grp addr : Nat) (data : List Byte) : State :=
  { s with
    stores := s.stores ++ [{ seq := s.nextSeq, core := t.core, uid := t.uid, kind := k, addr := addr, data := data,
                             shown := shownAtOnce k, root := t.root, grp := grp }]
    nextSeq := s.nextSeq + 1 }

/-- Which stores may cover a line together (R262, R267): the lanes of one instruction; for st.nt those that a core's
write-combining buffer gathers. -/
def coverGroup (t : Team) (k : StoreKind) (start : Nat) : Nat := if k = .nt then 2 ^ 64 + t.core else start

/-- A write or an atomic at a peer comes after the team's release fences, and one that releases after all that a release covers,
at .sy (R255, R264, R269). -/
def beforePeer (s : State) (u : Nat) (release : Bool) : State := if release then releaseNow s u else flushFences s u

/-- What is left to write of a lane's bytes at an address where passes of the word that are done have written size bytes at each of
some others for higher lanes, whose values stand (R145, R262, R293): all of them at once, or byte by byte. -/
def leftBytes (others : List Nat) (size a : Nat) (bs : List Byte) : List (Nat × List Byte) :=
  let free := fun (k : Nat) => !others.any (fun o => decide (o ≤ a + k ∧ a + k < o + size))
  let rest := bs.zipIdx.filter (fun b => free b.2)
  if rest.length = bs.length then [(0, bs)] else rest.map (fun b => (b.2, [b.1]))

/-- The lanes above a lane that earlier passes of its word have completed. -/
def doneAbove (t : Team) (l : Nat) : List Nat := (lanesOf t.done).filter (fun h => decide (l < h))

/-- One lane of a store. -/
def storeLane (t : Team) (k : StoreKind) (grp size ord : Nat) (undef : Nat → Bool) (va : Nat → DWord) (ws : Nat → List Word) (r : Run)
    (l : Nat) : Run :=
  let a := va l
  let bs := storeBytes size (ws l)
  let others := (doneAbove t l).filterMap (fun h =>
    match (if undef h then .stop (peerLost h 0 0 0) else tryLane r.s t .write h (va h) size none) with
    | .go x => some x.pa
    | .peer _ x => some x.pa
    | .stop _ => none)
  if undef l then r
  else
    match tryLane r.s t .write l a size none with
    | .stop f => r.fault f
    | .peer p x =>
      (leftBytes others size x.pa bs).foldl (fun r b =>
        { r with s := beforePeer r.s t.uid (ord == 2) }.send
          (remoteOf p 1 t { lane := l, pa := x.pa + b.1, va := a + BitVec.ofNat 64 b.1, size := b.2.length, sgn := false, dsts := [] })
          ord 0 b.2) r
    | .go x =>
      (leftBytes others size x.pa bs).foldl (fun r b =>
        r.touch (l1Update (enqueue r.s t k grp (x.pa + b.1) b.2) t.core (x.pa + b.1) b.2) (x.pa + b.1)) r

/-- A store (R262, R264, R267). -/
def storeOp (i : Instr) (s : State) (d a : BitVec 5) (x : Nat) (o : BitVec 9) (k : Mods → StoreKind) (ord : Nat) : Out :=
  withWord i s (fun _ => s2 a ++ dataSlots x d) (fun _ => []) fun t m =>
    let size := sizeOf x
    let (lanes, lost) := memLanes s t 0 (s2 a ++ dataSlots x d)
    let va := fun l => readSlot64 s t l a.toNat + offM o size
    let undef := fun l => readsPending s t l (s2 a)
    let ws := fun l => (dataSlots x d).map (readSlot s t l)
    let s := noteWalks (bump s t) t ((lanes.filter (fun l => !undef l)).map va)
    let s := match k m with
      | .rel scope => if 2 ≤ scope then showNow s t.uid else s
      | _ => s
    finishRun t (lanes.foldl (storeLane t (k m) (coverGroup t (k m) s.nextSeq) size ord undef va ws)
      (startRun s none lost false false false))

/-- st (R262). -/
def execSt (t a : BitVec 5) (x : BitVec 3) (o : BitVec 9) (s : State) : Out :=
  storeOp (.st t a x o) s t a x.toNat o (fun _ => .st) 0

/-- st.rel (R264). -/
def execStRel (t a : BitVec 5) (x : BitVec 1) (o : BitVec 9) (s : State) : Out :=
  storeOp (.stRel t a x o) s t a (acqX x) o (fun m => .rel (scopeOf m 4)) 2

/-- st.nt (R267). -/
def execStNt (t a : BitVec 5) (x : BitVec 3) (o : BitVec 9) (s : State) : Out :=
  storeOp (.stNt t a x o) s t a x.toNat o (fun _ => .nt) 0

/-- ntdrain (R268): a mark in the store path. -/
def execNtdrain (s : State) : Out :=
  withWord .ntdrain s (fun _ => []) (fun _ => []) fun t m =>
    .next (setTeam (enqueue s t (.ntdrain (scopeOf m 4)) 0 0 []) (advance t))

/-- The release side of a fence (R269): at .cl and wider a mark in the store path, behind which the team's later writes wait; at
every scope its scratch stores are performed, and at .cr and wider the core's teams see its accesses. At .cr and .tm it acts as it
issues, and so the ntdrains before it do (R268). -/
def fenceRelease (s : State) (t : Team) (k : Nat) : State :=
  let s := scrNow (if 3 ≤ k then s else drainNow s t.uid) t.uid
  let s := if 2 ≤ k then showNow s t.uid else s
  if 3 ≤ k then enqueue s t (.fence k) 0 0 [] else s

/-- The acquire side of a fence (R260, R268, R269). -/
def fenceAcquire (s : State) (t : Team) (k : Nat) : State :=
  let s := redsNow (flushFences (flushReleases s t.uid k) t.uid) t.uid
  if 3 ≤ k then l1Invalidate s t.core else s

/-- fence (R269): 0 full, 1 release, 2 acquire. A full fence at .cl or wider waits for what it releases. -/
def execFence (x : BitVec 3) (s : State) : Out :=
  withWord (.fence x) s (fun _ => []) (fun _ => []) fun t m =>
    let k := scopeOf m 4
    let s := if x = 2 then scrNow s t.uid else if x = 0 ∧ 3 ≤ k then releaseNow s t.uid else fenceRelease s t k
    let s := if x = 1 then s else fenceAcquire s t k
    .next (setTeam s (advance (renew s t)))

/-! ### Atomics -/

/-- Lanes gathered by physical word (R82, R271): in ascending order of the lowest lane; each lane with its address. -/
def addWord (gs : List (Nat × List (Nat × DWord))) (pa l : Nat) (va : DWord) : List (Nat × List (Nat × DWord)) :=
  if gs.any (fun g => g.1 == pa) then gs.map (fun g => if g.1 == pa then (g.1, g.2 ++ [(l, va)]) else g)
  else gs ++ [(pa, [(l, va)])]

/-- The operand combined before each lane, and the whole combination (R82). -/
def combine (n op : Nat) (v : Nat → Nat) : Option Nat → List (Nat × DWord) → List (Nat × DWord × Option Nat) × Option Nat
  | p, [] => ([], p)
  | p, (l, va) :: rest =>
    let q := match p with
      | none => v l
      | some x => atomStep n op x (v l)
    let r := combine n op v (some q) rest
    ((l, va, p) :: r.1, r.2)

/-- cas over the lanes of one word (R271): each lane's old value, and the word's last value. -/
def casLanes (cmp new : Nat → Nat) : Nat → List (Nat × DWord) → List (Nat × DWord × Nat) × Nat
  | v, [] => ([], v)
  | v, (l, va) :: rest =>
    let r := casLanes cmp new (if v = cmp l then new l else v) rest
    ((l, va, v) :: r.1, r.2)

/-- An old value as the words of its registers. -/
def oldWords (n v : Nat) : List Word := if n = 8 then pairWords (BitVec.ofNat 64 v) else [BitVec.ofNat 32 v]

/-- The tries of an atomic's lanes: faults, and words at home and at peers. -/
def gatherWords (t : Team) (n : Nat) (va : Nat → DWord) (r : Run × List (Nat × List (Nat × DWord))) (l : Nat) :
    Run × List (Nat × List (Nat × DWord)) :=
  match tryLane r.1.s t .atomic l (va l) n none with
  | .stop f => (r.1.fault f, r.2)
  | .peer _ x => (r.1, addWord r.2 x.pa l (va l))
  | .go x => (r.1, addWord r.2 x.pa l (va l))

/-- What an atomic instruction does: 0 atom, 1 red, 2 cas. -/
inductive AtomKind where
  | atom | red | cas
  deriving DecidableEq, Repr

/-- The lanes of an atomic at a peer as one combined request (R82, R370). -/
def peerAtom (t : Team) (k : AtomKind) (n op : Nat) (m : Mods) (keys : Nat → List Nat) (v : Nat → Nat) (r : Run)
    (g : Nat × List (Nat × DWord)) : Run :=
  let c := combine n op v none g.2
  match g.2 with
  | [] => r
  | lv :: _ =>
    { r with s := beforePeer r.s t.uid (m.ord.getLsbD 1) }.send
      { remoteOf (peerOf g.1).1 2 t { lane := lv.1, pa := g.1, va := lv.2, size := n, sgn := false, dsts := [] } with
        op := op, lanes := c.1.map (fun (x : Nat × DWord × Option Nat) =>
          (x.1, x.2.1, x.2.2, if k == AtomKind.red then [] else keys x.1)) }
      m.ord.toNat op (bytesOf 8 (c.2.getD 0))

/-- A lane of a cas at a peer (R370): a request of its own. -/
def peerCas (t : Team) (n : Nat) (m : Mods) (keys : Nat → List Nat) (v w : Nat → Nat) (r : Run) (x : Nat × Nat × DWord) : Run :=
  { r with s := beforePeer r.s t.uid (m.ord.getLsbD 1) }.send
    { remoteOf (peerOf x.1).1 2 t { lane := x.2.1, pa := x.1, va := x.2.2, size := n, sgn := false, dsts := [] } with
      op := 9, lanes := [(x.2.1, x.2.2, none, keys x.2.1)] }
    m.ord.toNat 9 (bytesOf 8 (v x.2.1) ++ bytesOf 8 (w x.2.1))

/-- The word that an atomic reads at the home; a free one where it is a SAVE word that is owed (R341). -/
def atomRead (s : State) (pa n : Nat) (owed : Bool) : Nat :=
  if owed then Config.freeNat (s.fresh + 2 ^ 18 + pa) % 256 ^ n else natOf (homeBytes s pa n)

/-- One word of an atomic instruction at its home L2 (R271). -/
def homeAtom (t : Team) (k : AtomKind) (n op : Nat) (m : Mods) (keys : Nat → List Nat) (v w : Nat → Nat) (r : Run)
    (g : Nat × List (Nat × DWord)) : Run :=
  let pa := g.1
  let s := if k == .red then r.s else performUpTo r.s t pa n true true
  let hop := hopOf s pa n
  let r := r.touch s pa
  let owed := g.2.any (fun x => readsOwedSave s t x.2.toNat n)
  if hop ≠ 0 then g.2.foldl (fun r lv => r.got lv.1 lv.2 (if k == .red then [] else keys lv.1) [] hop) r
  else
    match k with
    | .red =>
      let c := combine n op v none g.2
      let s := l1Drop (enqueue s t (.red op (m.ord.getLsbD 1) (scopeOf m 4)) 0 pa (bytesOf n (c.2.getD 0))) t.core (pa / 64)
      -- an acquire reads: its request is performed before any later access of the team
      { r with s := if m.ord.getLsbD 0 then performUpTo s t pa n true true else s }
    | .atom =>
      let mem := atomRead s pa n owed
      let c := combine n op v none g.2
      let s := l1Drop (homeWrite (drawn s owed) pa (bytesOf n (atomStep n op mem (c.2.getD 0)))) t.core (pa / 64)
      c.1.foldl (fun r x =>
        let old := match x.2.2 with
          | none => mem
          | some q => atomStep n op mem q
        r.got x.1 x.2.1 (keys x.1) (oldWords n old) 0) { r with s := s }
    | .cas =>
      let c := casLanes v w (atomRead s pa n owed) g.2
      let s := l1Drop (homeWrite (drawn s owed) pa (bytesOf n c.2)) t.core (pa / 64)
      c.1.foldl (fun r x => r.got x.1 x.2.1 (keys x.1) (oldWords n x.2.2) 0) { r with s := s }

/-- One word of an atomic instruction (R271), at its home L2 or at a peer; the lanes of a cas at peers follow the words. -/
def atomWord (t : Team) (k : AtomKind) (n op : Nat) (m : Mods) (keys : Nat → List Nat) (v w : Nat → Nat) (r : Run)
    (g : Nat × List (Nat × DWord)) : Run :=
  if !isPeer g.1 then homeAtom t k n op m keys v w r g
  else if k == .cas then r
  else peerAtom t k n op m keys v r g

/-- The lanes of a cas that go to peers, in ascending order (R370): the word, the lane, its address. -/
def casPeers (gs : List (Nat × List (Nat × DWord))) (lanes : List Nat) : List (Nat × Nat × DWord) :=
  lanes.flatMap (fun l => (gs.filter (fun g => isPeer g.1)).flatMap (fun g =>
    (g.2.filter (fun x => x.1 == l)).map (fun x => (g.1, x.1, x.2))))

/-- The release side of an atomic (R264, R269, R271): at .cl and wider all that it covers is performed before it, at .cr the core's
teams see it, and it comes after the ntdrains before it (R268). -/
def atomRelease (s : State) (u scope : Nat) : State :=
  if 3 ≤ scope then releaseNow s u
  else
    let s := drainNow s u
    if scope = 2 then showNow s u else scrNow s u

/-- An atomic instruction (R270, R271). -/
def atomOp (i : Instr) (s : State) (k : AtomKind) (d a b c : BitVec 5) (op : Nat) (p : BitVec 2) : Out :=
  let wide := fun (m : Mods) => m.wid == 4
  let opSlots := fun (m : Mods) =>
    let one := fun (x : BitVec 5) => if wide m then s2 x else s1 x
    if k == .cas then one b ++ one c else one b
  let dsts := fun (m : Mods) => if k == .red then [] else if wide m then s2 d else s1 d
  withWord i s (fun m => s2 a ++ opSlots m ++ predSlot p) dsts fun t m =>
    let n := if wide m then 8 else 4
    let srcs := s2 a ++ opSlots m
    let (all, lost) := memLanes s t p srcs
    let undef := fun l => readsPending s t l (srcs ++ predSlot p)
    let lanes := all.filter (fun l => !undef l)
    let keys := fun l => laneKeys t l (dsts m)
    let va := fun l => readSlot64 s t l a.toNat
    let val := fun (x : BitVec 5) l =>
      if wide m then (readSlot64 s t l x.toNat).toNat else (readSlot s t l x.toNat).toNat
    let scope := scopeOf m 4
    let s' := noteWalks (bump s t) t (lanes.map va)
    let s' := if m.ord.getLsbD 1 then (if k == .red && !m.ord.getLsbD 0 then (if 2 ≤ scope then showNow s' t.uid else s')
      else atomRelease s' t.uid scope) else s'
    let s' := if m.ord.getLsbD 0 then flushReleases s' t.uid scope else s'
    let r := startRun s' (if k == .red then none else flagNo t.clause.seta) lost true (m.ord.getLsbD 0 && decide (3 ≤ scope))
      (m.ord.getLsbD 0)
    let g := lanes.foldl (gatherWords t n va) ((all.filter undef).foldl (fun r l => r.undef l (keys l)) r, [])
    let r := g.2.foldl (atomWord t k n op m keys (val b) (val c)) g.1
    finishRun t (if k == .cas then (casPeers g.2 lanes).foldl (peerCas t n m keys (val b) (val c)) r else r)

/-- atom (R270, R271). -/
def execAtom (d a b k : BitVec 5) (p : BitVec 2) (s : State) : Out :=
  atomOp (.atom d a b k p) s .atom d a b 0 k.toNat p

/-- red (R270, R271). -/
def execRed (a b k : BitVec 5) (p : BitVec 2) (s : State) : Out :=
  atomOp (.red a b k p) s .red 0 a b 0 k.toNat p

/-- cas (R270, R271). -/
def execCas (d a b c : BitVec 5) (p : BitVec 2) (s : State) : Out :=
  atomOp (.cas d a b c p) s .cas d a b c 0 p

end Sys2Proof.Machine
end

