-- ==== Sys2Proof/Machine/Scratch.lean ====
section
/-! DEFINITION. The scratchpad (R136 to R147) and its queues (R148 to R153). -/

namespace Sys2Proof.Machine

/-! ### Scratch addresses -/

/-- The teams of a cluster: w * h (R139). -/
def clusterSize (t : Team) : Nat := t.hdr.clw * t.hdr.clh

/-- The team of the issuing team's cluster with an index; it may have ended (R140). -/
def clusterMate (s : State) (t : Team) (k : Nat) : Option Team :=
  s.teams.find? (fun x => x.ctx == t.ctx && x.grid == t.grid && x.clus == t.clus && x.index == k)

/-- The team whose scratchpad an address names (R139); none for a malformed address. -/
def scrTarget (s : State) (t : Team) (a : Word) : Option Team :=
  let cix := (fld a 24 4).toNat
  if fld a 29 3 ≠ 0 then none
  else if fld a 28 1 = 1 then (if cix = 0 then findTeam s t.uid else none)
  else if cix < clusterSize t then (if cix = t.index then findTeam s t.uid else clusterMate s t cix) else none

/-- OFF (R139). -/
def scrOff (a : Word) : Nat := (fld a 0 24).toNat

/-- n bytes from an offset lie in the team's allocation, or in lease granules it holds (R140, R393). -/
def scrRoom (t : Team) (off n : Nat) : Bool :=
  decide (off + n ≤ t.hdr.scrAlloc) || decide (off + n ≤ 4096 * t.leases.length)

/-- A scratch access in range (R140): the target team and the offset. -/
def scrAccess (s : State) (t : Team) (a : Word) (n : Nat) : Option (Nat × Nat) :=
  match scrTarget s t a with
  | some x => if scrRoom x (scrOff a) n then some (x.uid, scrOff a) else none
  | none => none

/-- SCRATCH_RANGE of a lane (R140). -/
def scrFault (l : Nat) (a : Word) (k : AccKind) : LaneFault :=
  { lane := l, cls := 0x07, addr := a.setWidth 64, aux := BitVec.ofNat 64 k.code }

/-- ALIGN of a lane at a scratch address (R144). -/
def scrAlign (l : Nat) (a : Word) : LaneFault := { lane := l, cls := 0x03, addr := a.setWidth 64, aux := 0 }

/-- n bytes of a team's scratchpad. -/
def scrBytes (t : Team) (off n : Nat) : List Byte := (List.range n).map (fun i => sget 0 t.scr (off + i))

/-- A word of the n bytes is poisoned (R96, R144). -/
def scrPoisoned (t : Team) (off n : Nat) : Bool :=
  (List.range ((off + n - 1) / 4 + 1 - off / 4)).any (fun i => sget false t.scrBad (off / 4 + i))

/-- A team's scratchpad as another team of its cluster sees it: its own pending stores are visible to it (R145). -/
def scrSeen (s : State) (u : Nat) (x : Team) : Team :=
  (s.stores.filter (fun e => e.uid == u && e.kind == .scr x.uid)).foldl (fun x e => scrWrite x e.addr e.data) x

/-! ### lds and sts -/

/-- The scratch address of a lane (R144). -/
def scrAddr (w : Word) (o : BitVec 9) (size : Nat) : Word := w + BitVec.ofInt 32 (o.toInt * size)

/-- One lane of lds. Until its registers are written the pool may serve it anew (R145, R258). -/
def ldsLane (t : Team) (sgn : Bool) (size : Nat) (dsts : List Nat) (undef : Nat → Bool) (sa : Nat → Word) (r : Run) (l : Nat) :
    Run :=
  let a := sa l
  let keys := laneKeys t l dsts
  if undef l then r.undef l keys
  else if a.toNat % size ≠ 0 then r.fault (scrAlign l a)
  else
    match scrAccess r.s t a size with
    | none => r.fault (scrFault l a .read)
    | some (u, off) =>
      match findTeam r.s u with
      | none => r.fault (scrFault l a .read)
      | some x0 =>
        let x := scrSeen r.s t.uid x0
        let bad := scrPoisoned x off size
        let r := (r.touchScr r.s u off).got l (a.setWidth 64) keys (loadWords sgn (scrBytes x off size)) (if bad then 7 else 0)
        if bad then r
        else r.mayReread t { lane := l, pa := off, va := a.setWidth 64, size := size, sgn := sgn, dsts := keys } none (some u)

/-- lds (R144). -/
def execLds (d a : BitVec 5) (x : BitVec 3) (o : BitVec 9) (s : State) : Out :=
  withWord (.lds d a x o) s (fun _ => s1 a) (fun _ => dataSlots x.toNat d) fun t _ =>
    let size := sizeOf x.toNat
    let (lanes, lost) := memLanes s t 0 (s1 a)
    let sa := fun l => scrAddr (readSlot s t l a.toNat) o size
    finishRun t (lanes.foldl
      (ldsLane t (x == 1 || x == 3) size (dataSlots x.toNat d) (fun l => readsPending s t l (s1 a)) sa)
      (startRun (bump s t) (flagNo t.clause.seta) lost false false false))

/-- One lane of sts: its bytes wait in the store path (R144, R145). -/
def stsLane (t : Team) (size : Nat) (undef : Nat → Bool) (sa : Nat → Word) (ws : Nat → List Word) (r : Run) (l : Nat) : Run :=
  let a := sa l
  if undef l then r
  else if a.toNat % size ≠ 0 then r.fault (scrAlign l a)
  else
    match scrAccess r.s t a size with
    | none => r.fault (scrFault l a .write)
    | some (u, off) =>
      let others := (doneAbove t l).filterMap (fun h =>
        match (if undef h then none else scrAccess r.s t (sa h) size) with
        | some (v, o) => if v = u then some o else none
        | none => none)
      (leftBytes others size off (storeBytes size (ws l))).foldl (fun r b =>
        r.touchScr (enqueue r.s t (.scr u) 0 (off + b.1) b.2) u (off + b.1)) r

/-- sts (R144). -/
def execSts (d a : BitVec 5) (x : BitVec 3) (o : BitVec 9) (s : State) : Out :=
  withWord (.sts d a x o) s (fun _ => s1 a ++ dataSlots x.toNat d) (fun _ => []) fun t _ =>
    let size := sizeOf x.toNat
    let (lanes, lost) := memLanes s t 0 (s1 a ++ dataSlots x.toNat d)
    let sa := fun l => scrAddr (readSlot s t l a.toNat) o size
    let ws := fun l => (dataSlots x.toNat d).map (readSlot s t l)
    finishRun t (lanes.foldl (stsLane t size (fun l => readsPending s t l (s1 a)) sa ws)
      (startRun (bump s t) none lost false false false))

/-! ### atoms -/

/-- The new value of a scratch word (R146). -/
def atomsStep (op : Nat) (o v w : Nat) : Nat := if op = 9 then (if o = v then w else o) else atomStep 4 op o v

/-- One lane of atoms (R147): the team's earlier stores to the word, and its fences, come first (R269). -/
def atomsLane (t : Team) (op : Nat) (dsts : List Nat) (undef : Nat → Bool) (sa v w : Nat → Word) (r : Run) (l : Nat) : Run :=
  let a := sa l
  let keys := laneKeys t l dsts
  if undef l then r.undef l keys
  else if a.toNat % 4 ≠ 0 then r.fault (scrAlign l a)
  else
    match scrAccess r.s t a 4 with
    | none => r.fault (scrFault l a .atomic)
    | some (u, off) =>
      let s := performScrUpTo r.s t.uid u off 4
      match findTeam s u with
      | none => r.fault (scrFault l a .atomic)
      | some x =>
        let r := r.touchScr s u off
        if scrPoisoned x off 4 then r.got l (a.setWidth 64) keys [] 7
        else
          let o := natOf (scrBytes x off 4)
          let s := scrStore s t.core u off (bytesOf 4 (atomsStep op o (v l).toNat (w l).toNat))
          { r with s := s }.got l (a.setWidth 64) keys [BitVec.ofNat 32 o] 0

/-- atoms (R146, R147). -/
def execAtoms (d a b m : BitVec 5) (p : BitVec 2) (s : State) : Out :=
  let bs := if m = 9 then s2 b else s1 b
  withWord (.atoms d a b m p) s (fun _ => s1 a ++ bs ++ predSlot p) (fun _ => s1 d) fun t k =>
    let srcs := s1 a ++ bs
    let (lanes, lost) := memLanes s t p srcs
    let scope := scopeOf k 3
    let acq := k.ord.getLsbD 0
    let s' := bump s t
    let s' := if k.ord.getLsbD 1 then atomRelease s' t.uid scope else s'
    let s' := if acq then flushReleases s' t.uid scope else s'
    finishRun t (lanes.foldl
      (atomsLane t m.toNat (s1 d) (fun l => readsPending s t l (srcs ++ predSlot p)) (fun l => readSlot s t l a.toNat)
        (fun l => readSlot s t l b.toNat) (fun l => readSlot s t l (b.toNat + 1)))
      (startRun s' (flagNo t.clause.seta) lost false (acq && decide (3 ≤ scope)) acq))

/-! ### Queues -/

/-- QUEUE with a reason (R153), of all active lanes, whatever the predicate (DEDUCED, log entry 111). -/
def raiseQueue (s : State) (t : Team) (reason : Nat) : State := raiseWide s t 0x15 0 (BitVec.ofNat 64 reason)

/-- SCRATCH_RANGE of a once-per-team check (R153, R330); the KIND of its aux is the model's (DEDUCED, log entry 110). -/
def raiseScr (s : State) (t : Team) (a : Word) (k : AccKind) : State :=
  raiseWide s t 0x07 (a.setWidth 64) (BitVec.ofNat 64 k.code)

/-- A live queue of a team. -/
def findQueue (t : Team) (q : Nat) : Option SQueue := t.queues.find? (fun x => x.q == q)

/-- The team with a queue replaced. -/
def setQueue (t : Team) (q : SQueue) : Team := { t with queues := t.queues.map (fun x => if x.q == q.q then q else x) }

/-- A team blocked in qsend on a queue, or taken out of that block by a trap (R149, R153, R313). -/
def sendersBlocked (s : State) (owner q : Nat) : Bool :=
  s.teams.any (fun x =>
    (x.block.toList ++ (x.handler.bind Handler.block).toList).any (fun b =>
      match b with
      | .qsend o k _ _ => o == owner && k == q
      | _ => false))

/-- The number of producers of a mask. -/
def popCount16 (m : BitVec 16) : Nat := (List.range 16).countP (fun i => m.getLsbD i)

/-- The ring's place of an index. -/
def ringOff (q : SQueue) (i : Nat) : Nat := q.base + 8 * (i % 2 ^ q.lcap)

/-- An entry appended to a queue (R150). -/
def appendEntry (t : Team) (q : SQueue) (k : Nat) (h : DWord) : Team :=
  setQueue (scrWrite t (ringOff q q.tail) (bytesOf 8 h.toNat))
    { q with
      tail := (q.tail + 1) % 2 ^ q.lcap, entries := q.entries ++ [(h, k)]
      allow := q.allow.set k (q.allow.getD k 0 - 1) }

/-- The head entry taken (R151): its handle, free where the ring's bytes were overwritten (R149, R4), and the sender's
allowance restored. A poisoned ring word loses no lane (DEDUCED, log entry 105). -/
def takeEntry (s : State) (t : Team) (q : SQueue) : Option (State × DWord) :=
  match q.entries with
  | [] => none
  | (h, k) :: rest =>
    let kept := scrBytes t (ringOff q q.head) 8 == bytesOf 8 h.toNat
    let t' := setQueue t
      { q with head := (q.head + 1) % 2 ^ q.lcap, entries := rest, allow := q.allow.set k (q.allow.getD k 0 + 1) }
    if kept then some (setTeam s t', h)
    else some (setTeam { s with fresh := s.fresh + 1 } t', freeBits 64 s.fresh)

/-- A flag-counted instruction whose words go to registers of lanes is accepted; acq tells whether it is an acquire (R239). -/
def addPend (s : State) (t : Team) (flag : Option Nat) (dsts : List Nat) (lanes : List Nat) (ws : List Word) (acq : Bool) :
    State × Team :=
  match flag with
  | none => (s, t)
  | some f =>
    let writes := lanes.flatMap (fun l => (dsts.zip ws).map (fun dw => (regKey l dw.1, dw.2)))
    let p : Pend :=
      { seq := s.nextSeq, flag := f, wait := .data, dests := writes.map Prod.fst, writes := writes, vas := [], losses := [],
        contested := [], pc := wordAddr t, handler := t.handler.isSome, again := [], home := false,
        acquires := acq }
    ({ s with nextSeq := s.nextSeq + 1 }, flagMap { t with pend := t.pend ++ [p] } f (· + 1))

/-- A team blocked on a queue goes on where it can (R150, R151): a sender whose allowance is no longer zero, a receiver whose
queue holds an entry. Where the queue is gone it traps out of the block (R153, R313): its team has ended, or a handler has closed
it. -/
def queueStep (s : State) (u : Nat) : State :=
  match findTeam s u with
  | none => s
  | some t =>
    if t.place != .resident || t.trap.isSome then s
    else
      match t.block with
      | some (.qsend owner n h _) =>
        (match (findTeam s owner).bind (fun o => (findQueue o n).map (fun q => (o, q))) with
        | some (o, q) =>
          if q.allow.getD t.index 0 = 0 then s
          else
            let s := setTeam s (appendEntry o q t.index h)
            match findTeam s u with
            | some t => setTeam s (unblock t)
            | none => s
        | none =>
          let gone := match findTeam s owner with
            | some o => o.place == .ended
            | none => true
          raiseQueue s t (if gone = true then 7 else 1))
      | some (.qrecv n dsts lanes flag _) =>
        (match findQueue t n with
        | some q =>
          match takeEntry s t q with
          | some (s, h) =>
            match findTeam s u with
            | some t =>
              let (s, t) := addPend s t (some flag) dsts (lanesOf (lanes &&& t.active)) (pairWords h) true
              let s := flushReleases s u 3
              l1Invalidate (setTeam s (unblock (renew s t))) t.core
            | none => s
          | none => s
        | none => raiseQueue s t 1)
      | _ => s

/-- Every team blocked on a queue goes on where it can; a receipt may let a sender go on. -/
def wakeQueues (s : State) : State :=
  let us := s.teams.map Team.uid
  (us ++ us).foldl queueStep s

/-- The front of a once-per-team instruction that takes a predicate (R21, R149 to R152): a lane that the predicate excludes is
inactive for it, so that it reads its operands in the lowest active lane that is not; with none it does nothing (log entry 84).
Where that lane's operands or predicate are pending destinations, the instruction's own are undefined, and it does nothing
else (R33). The rest gets the lane, and the lanes whose destinations it writes. -/
def withSelected (s : State) (t : Team) (p : BitVec 2) (srcs dsts : List Nat) (k : Nat → List Nat → Out) : Out :=
  consume s t (lanesOf t.active) (predSlot p) (
    match selected s t p t.active with
    | [] => .next (setTeam s (advance t))
    | l :: rest =>
      consume s t [l] srcs (
        if readsPending s t l (srcs ++ predSlot p) then
          let ws := freeWrites s t (l :: rest) dsts
          .next (finish s t (writeRegs t ws) (ws.map Prod.fst) [])
        else k l (l :: rest)))

/-- The lanes that the predicate selects for certain. -/
def surely (s : State) (t : Team) (p : BitVec 2) (lanes : List Nat) : List Nat :=
  lanes.filter (fun l => !readsPending s t l (predSlot p))

/-- The lanes whose predicate is a pending destination get free values in the instruction's destinations (R33). -/
def freeDoubtful (s : State) (t : Team) (p : BitVec 2) (lanes dsts : List Nat) : State × Team :=
  let ws := freeWrites s t (lanes.filter (fun l => readsPending s t l (predSlot p))) dsts
  (taint (bump s t) t (ws.map Prod.fst), writeRegs t ws)

/-- The team blocks, and goes on at once where it can; one that stays blocked is not current (R309, R313). -/
def blockQueue (s : State) (t : Team) (b : Block) : State :=
  dropIfBlocked (wakeQueues (setTeam s { t with block := some b })) t.uid

/-- qinit (R149): the checks in the order of log entry 16. -/
def execQinit (a b : BitVec 5) (p : BitVec 2) (s : State) : Out :=
  withWord (.qinit a b p) s (fun _ => s1 a ++ s1 b ++ predSlot p) (fun _ => []) fun t _ =>
    withSelected s t p (s1 a ++ s1 b) [] fun l _ =>
      let sa := slot t l a.toNat
      let cw := slot t l b.toNat
      let pm := fld cw 16 16
      let lcap := (fld cw 8 4).toNat
      let n := (fld cw 0 4).toNat
      if fld cw 12 4 ≠ 0 ∨ fld cw 4 4 ≠ 0 ∨ 8 < lcap then .next (raiseQueue s t 5)
      else if pm = 0 then
        match findQueue t n with
        | none => .next (raiseQueue s t 1)
        | some q =>
          if !q.entries.isEmpty || sendersBlocked s t.uid n then .next (raiseQueue s t 6)
          else .next (setTeam s (advance { t with queues := t.queues.filter (fun x => x.q != n) }))
      else if sa.toNat % 8 ≠ 0 then .next (raiseWide s t 0x03 (sa.setWidth 64) 0)
      else if fld sa 28 1 ≠ 1 ∨ scrAccess s t sa (8 * 2 ^ lcap) = none then .next (raiseScr s t sa .write)
      else if (findQueue t n).isSome then .next (raiseQueue s t 4)
      else
        let each := 2 ^ lcap / popCount16 (pm.setWidth 16)
        if each = 0 then .next (raiseQueue s t 5)
        else
          let q : SQueue :=
            { q := n, base := scrOff sa, lcap := lcap, head := 0, tail := 0, entries := [], pmask := pm.setWidth 16,
              allow := (List.range 16).map (fun k => if pm.getLsbD k then each else 0) }
          .next (setTeam s (advance { t with queues := t.queues ++ [q] }))

/-- The queue that a name names (R148, R153): its team and number; none for a malformed name. -/
def queueName (s : State) (t : Team) (w : Word) : Option (Team × Nat) :=
  if fld w 4 20 ≠ 0 then none else (scrTarget s t w).map (fun x => (x, (fld w 0 4).toNat))

/-- qsend (R150): a release at .cl, then the append, or the block while the allowance is zero. -/
def execQsend (a b : BitVec 5) (p : BitVec 2) (s : State) : Out :=
  withWord (.qsend a b p) s (fun _ => s1 a ++ s2 b ++ predSlot p) (fun _ => []) fun t _ =>
    withSelected s t p (s1 a ++ s2 b) [] fun l _ =>
      let w := slot t l a.toNat
      let h := slot64 t l b.toNat
      match queueName s t w with
      | none => .next (raiseScr s t w .write)
      | some (o, n) =>
        match findQueue o n with
        | none => .next (raiseQueue s t 1)
        | some q =>
          if !q.pmask.getLsbD t.index then .next (raiseQueue s t 2)
          else
            let s := releaseNow s t.uid
            .next (blockQueue s (renew s t) (.qsend o.uid n h w))

/-- qrecv (R151): the take, or the block while the queue is empty. -/
def execQrecv (d a : BitVec 5) (p : BitVec 2) (s : State) : Out :=
  withWord (.qrecv d a p) s (fun _ => s1 a ++ predSlot p) (fun _ => s2 d) fun t _ =>
    withSelected s t p (s1 a) (s2 d) fun l lanes =>
      let w := slot t l a.toNat
      match queueName s t w with
      | none => .next (raiseScr s t w .read)
      | some (o, n) =>
        if o.uid ≠ t.uid then .next (raiseQueue s t (if (findQueue o n).isNone then 1 else 3))
        else if (findQueue t n).isNone then .next (raiseQueue s t 1)
        else
          let x := freeDoubtful s t p lanes (s2 d)
          .next (blockQueue x.1 x.2 (.qrecv n ((s2 d).filterMap (slotReg t)) (maskOf (surely s t p lanes)) t.clause.seta.toNat w))

/-- qtry (R152). -/
def execQtry (d a : BitVec 5) (p : BitVec 2) (s : State) : Out :=
  withWord (.qtry d a p) s (fun _ => s1 a ++ predSlot p) (fun _ => slotsFrom d 4) fun t _ =>
    withSelected s t p (s1 a) (slotsFrom d 4) fun l lanes =>
      let w := slot t l a.toNat
      let dsts := (slotsFrom d 4).filterMap (slotReg t)
      let sure := surely s t p lanes
      match queueName s t w with
      | none => .next (raiseScr s t w .read)
      | some (o, n) =>
        if o.uid ≠ t.uid then .next (raiseQueue s t (if (findQueue o n).isNone then 1 else 3))
        else
          match findQueue t n with
          | none => .next (raiseQueue s t 1)
          | some q =>
            let x := freeDoubtful s t p lanes (slotsFrom d 4)
            match takeEntry (setTeam x.1 x.2) x.2 q with
            | some (s, h) =>
              match findTeam s t.uid with
              | some t =>
                let (s, t) := addPend s t (flagNo t.clause.seta) dsts sure (pairWords h ++ [1, 0]) true
                let s := flushReleases s t.uid 3
                .next (wakeQueues (l1Invalidate (setTeam s (advance (renew s t))) t.core))
              | none => .next s
            | none =>
              let (s, t) := addPend x.1 x.2 (flagNo t.clause.seta) dsts sure [0, 0, 0, 0] false
              .next (setTeam s (advance t))

end Sys2Proof.Machine
end

