-- ==== Sys2Proof/Machine/Wait.lean ====
section
/-! DEFINITION. Waits on memory (R317, R318). -/

namespace Sys2Proof.Machine

/-- The conditions of wait (R317). -/
def waitHolds (cond : Nat) (x v : Word) : Bool :=
  match cond with
  | 0 => x == v
  | 1 => x != v
  | 2 => v.ule x
  | 3 => x.ult v
  | 4 => v.sle x
  | _ => x.slt v

/-- The value of a read satisfies the wait: it is written in every active lane, an acquire (R317). -/
def waitPass (s : State) (t : Team) (dst : Nat) (x : Word) : State :=
  let ws := (lanesOf t.active).map (fun l => (regKey l dst, x))
  l1Invalidate (taint (setTeam s (unblock (writeRegs t ws))) t (ws.map Prod.fst)) t.core

/-- A value read by a blocked wait (R317): the team goes on, or stays blocked with the value noted. -/
def waitValue (s : State) (t : Team) (x : Word) : State :=
  match t.block with
  | some (.wait ext cond dst va v _ since lim) =>
    if waitHolds cond x v then waitPass s t dst x
    else setTeam s { t with block := some (.wait ext cond dst va v x since lim) }
  | _ => s

/-- A read of a blocked wait (R317): at the home, or as a request to a peer unless one is out already. Poison loses every active
lane, and ends the wait (R97). A team that has no active lane left waits no more, and takes the resume step (R277). -/
def waitRead (s : State) (t : Team) (va : DWord) : State :=
  if t.active == 0 then setTeam s (unblock (renew s t)) else
  match tryLane s t .read (lead t) va 4 none with
  | .stop f => raiseWide s { t with block := none } f.cls f.addr f.aux
  | .peer p x =>
    if s.remote.any (fun r => r.uid == t.uid && r.kind == 3) then setTeam s t
    else
      let acc : Access := { lane := lead t, pa := x.pa, va := va, size := 4, sgn := false, dsts := [] }
      sendRemote (setTeam s t) (remoteOf p 3 t acc) 1 0 []
  | .go x =>
    match loadFrom s t true x.pa 4 with
    | (s, bs, hop) =>
      if hop ≠ 0 then
        loseLanes s { renew s t with block := none } (wordAddr t)
          ((lanesOf t.active).map (fun l => ({ lane := l, addr := va, hop := hop } : Loss)))
      else
        let owed := readsOwedSave s t va.toNat 4
        waitValue (drawn s owed) (renew s t) ((undefWords s (lead t) owed [wordAt bs 0]).headD 0)

/-- The reply to a read of an earlier wait of the team is no read of the one that starts. -/
def forgetReads (s : State) (u : Nat) : State := { s with remote := s.remote.filter (fun r => !(r.uid == u && r.kind == 3)) }

/-- wait (R317): the comparand and the address come from the lowest active lane; the first read is made at issue. A team that
stays blocked is not current (R309). -/
def execWait (d a b : BitVec 5) (x : BitVec 1) (k : BitVec 3) (s : State) : Out :=
  withWord (.wait d a b x k) s (fun _ => s2 a ++ s1 b) (fun _ => s1 d) fun t _ =>
    withLead s t (s2 a ++ s1 b) (s1 d) (
      let va := slot64 t (lead t) a.toNat
      let v := slot t (lead t) b.toNat
      let s := flushReleases (forgetReads s t.uid) t.uid (if x = 1 then 5 else 4)
      let blk := Block.wait (x == 1) k.toNat ((slotReg t d.toNat).getD 0) va v 0 s.clk.toNat false
      .next (dropIfBlocked (waitRead s { renew s t with block := some blk } va) t.uid))

/-- WAIT_WAKEUP (R317): a blocked wait reads its word again. -/
def execWaitWakeup (u : Nat) (s : State) : Out :=
  match findTeam s u with
  | none => notEnabled "WAIT_WAKEUP"
  | some t =>
    match t.block with
    | some (.wait _ _ _ va _ _ _ _) =>
      if t.place == .resident && !trapStops t then .next (waitRead s t va) else notEnabled "WAIT_WAKEUP"
    | _ => notEnabled "WAIT_WAKEUP"

/-- The end of a wait's read of a peer (R317, R371): a reason of PEER_LOST, or 0 and the data. A trap that waits leaves it for the
wait's next read (R324). -/
def waitReply (s : State) (r : RemoteReq) (reason : Nat) (payload : List Byte) : State :=
  let s := { s with remote := s.remote.filter (fun x => x.tag != r.tag) }
  match findTeam s r.uid with
  | none => s
  | some t =>
    match t.block with
    | some (.wait ..) =>
      if trapStops t then s
      else if reason ≠ 0 then
        let e := peerLost (lead t) r.acc.va r.p reason
        raiseWide s { t with block := none } e.cls e.addr e.aux
      else waitValue s t (wordAt payload 0)
    | _ => s

end Sys2Proof.Machine
end

