-- ==== Sys2Proof/Machine/Complete.lean ====
section
/-! DEFINITION. What completes later than it issues: the registers of flag-counted instructions (R30 to R33, R341), stores
at their homes (R262), promotions (R266), and the accesses of peers and to them (R370, R371). -/

namespace Sys2Proof.Machine

/-! ### Flag-counted instructions -/

/-- A word put into the frame's SAVE copy of a lane's vi (R341). -/
def writeSave (s : State) (t : Team) (h : Handler) (w : Nat × Word) : State :=
  match framePas s t h.frameVa.toNat with
  | none => s
  | some pas =>
    let off := saveOffset (w.1 / 256) (w.1 % 256)
    let pa := pas.getD (off / 1024) 0 + off % 1024
    l1Drop (homeWrite s pa (bytesOf 4 w.2.toNat)) t.core (pa / 64)

/-- Register writes of an instruction that issued earlier (R157, R341): in a handler the program's v0 to v7 are written in
the frame. -/
def landWrites (s : State) (u : Nat) (byHandler : Bool) (ws : List (Nat × Word)) : State :=
  match findTeam s u with
  | none => s
  | some t =>
    let toFrame := fun (w : Nat × Word) => t.handler.isSome && !byHandler && decide (w.1 % 256 < 8)
    let regs := ws.filter (fun w => !toFrame w)
    let s := setTeam s { t with
      regs := sputs 0 t.regs regs, regBad := regs.foldl (fun acc w => sput false acc w.1 false) t.regBad }
    let s := taintRows s t (regs.map Prod.fst)
    match t.handler with
    | some h => (ws.filter toFrame).foldl (fun s w => writeSave s t h w) s
    | none => s

/-- The mask words that earlier sieves of a team owe in registers that instruction n has now written: the later issued wins (R33).
The program's v0 to v7 and the handler's are not the same registers (R341). -/
def goneSieves (s : State) (u n : Nat) (byHandler : Bool) (keys : List Nat) : State :=
  { s with
    cores := s.cores.map (fun c => { c with
      mat := c.mat.map (fun x =>
        match x.op with
        | .sieve _ m =>
          if x.iss.uid == u && decide (x.iss.seq < n) && (x.iss.handler == byHandler || decide (8 ≤ m)) then
            { x with gone := x.gone ++ (List.range 32).filter (fun l => keys.contains (regKey l m)) }
          else x
        | _ => x) }) }

/-- A pending instruction no longer owes registers that instruction n, issued later, has written (R33, R341). -/
def Pend.yields (p : Pend) (n : Nat) (byHandler : Bool) (keys : List Nat) : Pend :=
  if p.seq < n then
    let won := fun (k : Nat) => keys.contains k && (p.handler == byHandler || decide (8 ≤ k % 256))
    { p with dests := p.dests.filter (fun k => !won k), writes := p.writes.filter (fun w => !won w.1) }
  else p

/-- What earlier instructions of a team still owe in registers that instruction n has written. -/
def lateWins (s : State) (u n : Nat) (byHandler : Bool) (keys : List Nat) : State :=
  match findTeam s u with
  | some t => goneSieves (setTeam s { t with pend := t.pend.map (fun p => p.yields n byHandler keys) }) u n byHandler keys
  | none => s

/-- A pending instruction's last effect (R30): its destinations are written, its flag is decremented, and the lanes that its
poison reaches are lost (R97). A destination that a fixed-latency write contests may keep that write (R33); earlier
pending instructions no longer own what a later one writes. -/
def finishPend (s : State) (u : Nat) (p : Pend) : State :=
  let keep := fun (k : Nat) => p.contested.contains k && freeBits 1 (s.fresh + k) == 0
  let s1 := landWrites s u p.handler (p.writes.filter (fun w => !keep w.1))
  let s := if p.contested.isEmpty then s1 else { s1 with fresh := s1.fresh + 2 ^ 20 }
  match findTeam s u with
  | none => s
  | some t =>
    let others := (t.pend.filter (fun q => q.seq != p.seq)).map (fun q => q.yields p.seq p.handler p.dests)
    loseLanes (goneSieves s u p.seq p.handler p.dests) (releaseFlag { t with pend := others } (some p.flag)) p.pc
      (p.losses.filter (fun l => t.live.getLsbD l.lane))

/-- A team's pending instruction. -/
def findPend (t : Team) (k : Nat) : Option Pend := t.pend.find? (fun p => p.seq == k)

/-- LOAD_COMPLETE (R30): the values of pending instruction k have reached the registers of team u. -/
def execLoadComplete (u k : Nat) (s : State) : Out :=
  match findTeam s u with
  | none => notEnabled "LOAD_COMPLETE"
  | some t =>
    match findPend t k with
    | none => notEnabled "LOAD_COMPLETE"
    | some p => if p.wait == .data then .next (finishPend s u p) else notEnabled "LOAD_COMPLETE"

/-! ### The store path -/

/-- STORE_PERFORMED_AT_HOME (R262): entry k of the store path, once nothing must precede it. -/
def execStorePerformedAtHome (k : Nat) (s : State) : Out :=
  match s.stores.find? (fun e => e.seq == k) with
  | none => notEnabled "STORE_PERFORMED_AT_HOME"
  | some e => if storeReady s e then .next (performEnt s e) else notEnabled "STORE_PERFORMED_AT_HOME"

/-- The team with a pending instruction replaced. -/
def setPend (t : Team) (p : Pend) : Team := { t with pend := t.pend.map (fun q => if q.seq == p.seq then p else q) }

/-! ### Loads that memory serves anew (R31, R258) -/

/-- The words that a load would bring now: at its registers, where it finds no poison. A decoded element keeps the scale it was
issued with (DEDUCED, log entry 15). -/
def readAgain (t : Team) (home : Bool) (r : State × List (Nat × Word)) (a : Reread) : State × List (Nat × Word) :=
  match a.scr with
  | some u =>
    (match (findTeam r.1 u).map (scrSeen r.1 t.uid) with
    | some x =>
      (r.1, if scrPoisoned x a.acc.pa a.acc.size then r.2
            else r.2 ++ a.acc.dsts.zip (loadWords a.acc.sgn (scrBytes x a.acc.pa a.acc.size)))
    | none => r)
  | none =>
    match loadFrom r.1 t home a.acc.pa a.acc.size with
    | (s, bs, hop) =>
      let ws := match a.decode with
        | some (fmt, sc) => ldxWords fmt sc (a.acc.va.toNat % 65536 * 2 / halfBytes fmt) bs
        | none => loadWords a.acc.sgn bs
      (s, if hop = 0 then r.2 ++ a.acc.dsts.zip ws else r.2)

/-- The loads of a pending instruction take their values now instead of earlier (R31: the access counts until its values reach the
registers; log entry 15). -/
def reread (u k : Nat) (s : State) : Out :=
  match findTeam s u with
  | none => notEnabled "REREAD"
  | some t =>
    match findPend t k with
    | none => notEnabled "REREAD"
    | some p =>
      if p.again.isEmpty || t.place != .resident then notEnabled "REREAD"
      else
        let r := p.again.foldl (readAgain t p.home) (s, [])
        let now := fun (w : Nat × Word) => (w.1, ((r.2.find? (fun x => x.1 == w.1)).map Prod.snd).getD w.2)
        let t := renew r.1 t
        .next (setTeam r.1 { t with pend := t.pend.map (fun q => if q.seq == k then { q with writes := q.writes.map now } else q) })

/-! ### Promotion (R266) -/

/-- A core has replied to the team's promotion. -/
def replied (t : Team) (core : Nat) : Team :=
  let left := fun (cs : List Nat) => cs.filter (fun c => c != core)
  { t with
    hold := t.hold.map (fun h => { h with op := { h.op with promote := h.op.promote.map (fun x => (left x.1, x.2)) } })
    pend := t.pend.map (fun q =>
      match q.wait with
      | .promote cs accs => { q with wait := .promote (left cs) accs }
      | _ => q) }

/-- A write or an atomic of a team of the core at a peer is not yet acknowledged. -/
def peerWriteOut (s : State) (core : Nat) : Bool :=
  s.remote.any (fun r => (r.kind == 1 || r.kind == 2) && (match findTeam s r.uid with
    | some t => t.core == core
    | none => false))

/-- PROMOTION_REQUEST (R266): a core of the reach drains its write-throughs, and replies once its peer writes are
acknowledged. -/
def execPromotionRequest (u core : Nat) (s : State) : Out :=
  match findTeam s u with
  | none => notEnabled "PROMOTION_REQUEST"
  | some t =>
    match promoting t with
    | none => notEnabled "PROMOTION_REQUEST"
    | some cs =>
      if !cs.contains core || peerWriteOut s core then notEnabled "PROMOTION_REQUEST"
      else
        let s := drainCore s core
        .next (setTeam s (replied (renew s t) core))

/-- One access of an ld.acqp, once the replies have arrived (R266, R265): read at the home, or asked of its peer. -/
def promotedLoad (t : Team) (r : Run) (a : Access) : Run :=
  if isPeer a.pa then
    let p := (peerOf a.pa).1
    match peerReason r.s p with
    | some k => r.fault (peerLost a.lane a.va p k)
    | none => r.send (remoteOf p 0 t a) 1 0 []
  else
    match loadFrom r.s t true a.pa a.size with
    | (s, bs, hop) =>
      let owed := readsOwedSave s t a.va.toNat a.size
      { r with s := drawn s owed }.value a.lane a.va a.dsts (undefWords s a.lane owed (loadWords a.sgn bs)) hop

/-- PROMOTION_REPLIES_COMPLETE (R266): the loads are made at the home, and the core's L1 data lines are invalid. -/
def execPromotionRepliesComplete (u : Nat) (s : State) : Out :=
  match findTeam s u with
  | none => notEnabled "PROMOTION_REPLIES_COMPLETE"
  | some t =>
    match t.hold with
    | some h =>
      (match h.op.promote with
      | some ([], accs) =>
        let r := accs.foldl (promotedLoad t) { s := s, op := { h.op with promote := none }, tags := [], lines := [] }
        let t := renew r.s t
        .next (if r.tags.isEmpty then settleHold r.s t r.op else setTeam r.s { t with hold := some { tags := r.tags, op := r.op } })
      | _ => notEnabled "PROMOTION_REPLIES_COMPLETE")
    | none =>
      match t.pend.find? (fun p => match p.wait with
        | .promote [] _ => true
        | _ => false) with
      | some p =>
        let accs := match p.wait with
          | .promote _ as => as
          | _ => []
        let r := accs.foldl (promotedLoad t) (startRun s none [] true true true)
        let s := l1Invalidate r.s t.core
        .next (setTeam s (setPend (renew s t)
          { p with wait := .data, writes := p.writes ++ r.op.writes, vas := p.vas ++ r.op.vas, losses := p.losses ++ r.op.losses }))
      | none => notEnabled "PROMOTION_REPLIES_COMPLETE"

/-! ### Replies to remote accesses (R370, R371) -/

/-- A remote access of a team ends: its effect on the instruction is recorded, and with the last one the instruction ends. -/
def remoteDone (s : State) (r : RemoteReq) (f : MemOp → MemOp) : State :=
  let s := { s with remote := s.remote.filter (fun x => x.tag != r.tag) }
  match findTeam s r.uid with
  | none => s
  | some t =>
    match t.hold with
    | some h =>
      if !h.tags.contains r.tag then s
      else
        match h.tags.filter (fun x => x != r.tag) with
        | [] => settleHold s t (f h.op)
        | rest => setTeam s { t with hold := some { tags := rest, op := f h.op } }
    | none => s

/-- The lanes of a remote access, with their addresses. -/
def remoteLanes (r : RemoteReq) : List (Nat × DWord) :=
  if r.kind = 2 then r.lanes.map (fun x => (x.1, x.2.1)) else [(r.acc.lane, r.acc.va)]

/-- The lanes of a remote access raise PEER_LOST (R371). -/
def remoteFail (s : State) (r : RemoteReq) (reason : Nat) : State :=
  if r.kind = 3 then waitReply s r reason [] else remoteDone s r (fun op => { op with
    faults := op.faults ++ (remoteLanes r).map (fun l => peerLost l.1 l.2 r.p reason) })

/-- Register writes that a reply's payload gives (R82, R166, R370). -/
def replyWrites (r : RemoteReq) (payload : List Byte) : List (Nat × Word) :=
  match r.kind with
  | 0 =>
    let bs := payload.take r.acc.size
    match r.decode with
    | some (fmt, sc) => r.acc.dsts.zip (ldxWords fmt sc (r.acc.va.toNat % 65536 * 2 / halfBytes fmt) bs)
    | none => r.acc.dsts.zip (loadWords r.acc.sgn bs)
  | 2 =>
    let mem := natAt payload 0 r.acc.size
    r.lanes.flatMap (fun x =>
      let old := match x.2.2.1 with
        | none => mem
        | some q => atomStep r.acc.size r.op mem q
      x.2.2.2.zip (oldWords r.acc.size old))
  | _ => []

/-- A reply frame takes effect (R370): a status other than OK is PEER_LOST with reason 0x02. -/
def takeReply (s : State) (f : Frame) : State :=
  match s.remote.find? (fun r => BitVec.ofNat 32 r.tag == f.tag && peerStream r.p == f.strm) with
  | none => s
  | some r =>
    if f.stat ≠ 0 then remoteFail s r 2
    else if r.kind = 3 then waitReply s r 0 f.payload
    else remoteDone s r (fun op => { op with writes := op.writes ++ replyWrites r f.payload })

/-! ### Serving a peer's accesses (R370) -/

/-- The status of a failed translation for a peer (R370): a denial or a failed translation. -/
def xlatStat (cls : Nat) (aux : DWord) : Nat :=
  if cls = 0x05 ∧ aux.toNat / 2 ^ 40 % 2 = 0 ∧ aux.toNat / 2 ^ 41 % 2 = 0 then 5 else 4

/-- What a request header asks for (R370). -/
structure PeerAsk where
  rctx : Nat
  ord : Nat
  op : Nat
  va : DWord
  size : Nat
  data : List Byte
  deriving DecidableEq, Repr

/-- A request frame taken apart; none for a malformed request (R370). -/
def peerAsk (f : Frame) : Option PeerAsk :=
  let p := f.payload
  let a : PeerAsk :=
    { rctx := natAt p 0 4, ord := natAt p 4 1, op := natAt p 5 1, va := dwordAt p 8, size := f.cmd.toNat, data := p.drop 24 }
  let sizes := if f.type = 5 then [4, 8] else [1, 2, 4, 8, 16]
  let len := if f.type = 3 then 24 else if f.type = 4 then 24 + a.size else if a.op = 9 then 40 else 32
  let opOk := if f.type = 5 then a.op ≤ 9 ∨ (a.op = 10 ∧ a.size = 4) else a.op = 0
  if p.length = len ∧ sizes.contains a.size ∧ a.ord ≤ 3 ∧ opOk ∧ natAt p 6 2 = 0 ∧ natAt p 16 8 = 0 ∧
      a.va.toNat % a.size = 0 then some a else none

/-- A peer's access performed at the home (R370): the status and the reply's payload. -/
def servePeer (s : State) (f : Frame) : State × Nat × List Byte :=
  match peerAsk f with
  | none => (s, 2, [])
  | some a =>
    match findCtx s a.rctx with
    | none => (s, 4, [])
    | some c =>
      if c.dying then (s, 4, [])
      else
        let k := if f.type = 3 then AccKind.read else if f.type = 4 then .write else .atomic
        match translate s c.current a.va k none with
        | .fault cls aux => (s, xlatStat cls aux, [])
        | .ok x =>
          if isPeer x.pa then (s, 5, [])
          else
            let n := a.size
            let hop := hopOf s x.pa n
            if f.type = 4 then (homeWrite s x.pa (a.data.take n), 0, [])
            else if hop ≠ 0 then (s, 8, [])
            else
              let old := homeBytes s x.pa n
              if f.type = 3 then (s, 0, old)
              else
                let o := natOf old
                let v := natAt a.data 0 n
                let new := if a.op = 9 then (if o = v then natAt a.data 8 n else o) else atomStep n a.op o v
                (homeWrite s x.pa (bytesOf n new), 0, bytesOf 8 o)

/-- A request frame served and answered. -/
def serveFrame (s : State) (f : Frame) : State :=
  match servePeer s f with
  | (s, stat, payload) =>
    let s := { s with responses := s.responses ++
      [{ strm := f.strm, tag := f.tag, cmd := f.cmd.toNat, stat := stat, payload := payload }] }
    sendFrame s f.strm 6 f.cmd.toNat stat f.tag payload

/-- A stream fails (R356, R371): a peer's stream marks the peer failed, and its accesses in flight raise PEER_LOST. A host
stream's responses are discarded, those too that are still owed to commands accepted before. -/
def failStream (s : State) (x : Strm) : State :=
  let s := { setStream s { x with failed := true, unacked := [], got := [] } with owed := s.owed.filter (fun o => o.req.strm != x.id) }
  let s := { s with peers := s.peers.map (fun (p : Peer) => if peerStream p.p == x.id then { p with failed := true } else p) }
  (s.remote.filter (fun (r : RemoteReq) => peerStream r.p == x.id)).foldl (fun s r => remoteFail s r 1) s

/-- LAZIA_RETRANSMIT_TIMEOUT (R356): the frames not covered are sent again; after 16 retries of one of them the stream fails. -/
def execLaziaRetransmitTimeout (strm : Nat) (s : State) : Out :=
  match findStream s (BitVec.ofNat 32 strm) with
  | none => notEnabled "LAZIA_RETRANSMIT_TIMEOUT"
  | some x =>
    if x.failed || x.unacked.isEmpty then notEnabled "LAZIA_RETRANSMIT_TIMEOUT"
    else if x.unacked.any (fun f => decide (16 ≤ f.2)) then .next (failStream s x)
    else .next (setStream s { x with unacked := x.unacked.map (fun f => (f.1, f.2 + 1)) })

end Sys2Proof.Machine
end

