-- ==== Sys2Proof/Machine/Sync.lean ====
section
/-! DEFINITION. Barriers (R313 to R316), mesh reductions (R319 to R322) and the hang detector
(R323, R324). -/

namespace Sys2Proof.Machine

/-! ### Barriers -/

/-- The teams of a cluster that have not ended. -/
def clusterTeams (s : State) (c g l : Nat) : List Team :=
  s.teams.filter (fun t => t.ctx == c && t.grid == g && t.clus == l && t.place != .ended)

/-- A team leaves a completed generation (R316): an acquire, and the clause that follows. Where a trap has taken the team out of
that block, or a trap that waits is about to (R324), the block is over, whatever the handler does meanwhile (R313). -/
def leaveBarrier (is : Block → Bool) (s : State) (t : Team) : State :=
  let t := { t with
    handler := t.handler.map (fun (h : Handler) => { h with block := h.block.map (fun b => if is b then Block.over else b) }) }
  match t.block with
  | some b =>
    if !is b then setTeam s t
    else if trapStops t then setTeam s { t with block := some .over }
    else l1Invalidate (setTeam s (unblock t)) t.core
  | none => setTeam s t

/-- A team whose block is over, and that no trap stops any more, goes on (R313, R346). -/
def leaveOver (s : State) (u : Nat) : State :=
  match findTeam s u with
  | some t =>
    if t.block == some .over && t.place == .resident && !trapStops t then l1Invalidate (setTeam s (unblock t)) t.core else s
  | none => s

/-- The barrier of an id; generation 0 with no arrival before its first use (R314). -/
def findBar (k : Cluster) (id : Nat) : Bar := (k.bars.find? (fun b => b.id == id)).getD { id := id, gen := 0, arrived := [] }

/-- The cluster with a barrier replaced. -/
def setBar (k : Cluster) (b : Bar) : Cluster :=
  { k with bars := b :: k.bars.filter (fun x => x.id != b.id) }

/-- A generation of a cluster's barrier completes when every team that has not ended has arrived (R314). -/
def barCheck (s : State) (c g l id : Nat) : State :=
  match findCluster s c g l with
  | none => s
  | some k =>
    let b := findBar k id
    let ts := clusterTeams s c g l
    if b.arrived.isEmpty || !ts.all (fun t => b.arrived.contains t.index) then s
    else
      let s := setCluster s (setBar k { b with gen := b.gen + 1, arrived := [] })
      (ts.filter (fun t => b.arrived.contains t.index)).foldl
        (fun s t => leaveBarrier (fun x => x == .cbar id) s ((findTeam s t.uid).getD t)) s

/-- A generation of gbar completes when every team of the grid has arrived or ended (R315). -/
def gbarCheck (s : State) (c g : Nat) : State :=
  match findGrid s c g with
  | none => s
  | some x =>
    let ts := s.teams.filter (fun t => t.ctx == c && t.grid == g && t.place != .ended)
    if x.gbarIn.isEmpty || !ts.all (fun t => x.gbarIn.contains (logicalIx t)) then s
    else
      let s := setGrid s c { x with gbarGen := x.gbarGen + 1, gbarIn := [] }
      (ts.filter (fun t => x.gbarIn.contains (logicalIx t))).foldl
        (fun s t => leaveBarrier (fun x => x == .gbar) s ((findTeam s t.uid).getD t)) s

/-- cbar (R314, R316): the ARITH check, a release, the arrival and the block, in which the team is not current (R313). -/
def execCbar (k : BitVec 4) (s : State) : Out :=
  withWord (.cbar k) s (fun _ => []) (fun _ => []) fun t _ =>
    arithCheck s t (
      let s := releaseNow s t.uid
      let s := dropRole (setTeam s { renew s t with block := some (.cbar k.toNat) }) t
      match findCluster s t.ctx t.grid t.clus with
      | some c =>
        let b := findBar c k.toNat
        let s := setCluster s (setBar c { b with arrived := t.index :: b.arrived })
        .next (barCheck s t.ctx t.grid t.clus k.toNat)
      | none => .next s)

/-- gbar (R315, R316): GBAR_NOCOOP before the ARITH check. -/
def execGbar (s : State) : Out :=
  withWord .gbar s (fun _ => []) (fun _ => []) fun t _ =>
    if !t.hdr.coop then .next (raiseWide s t 0x0D 0 0)
    else
      arithCheck s t (
        let s := releaseNow s t.uid
        let s := dropRole (setTeam s { renew s t with block := some .gbar }) t
        match findGrid s t.ctx t.grid with
        | some g =>
          .next (gbarCheck (setGrid s t.ctx { g with gbarIn := logicalIx t :: g.gbarIn }) t.ctx t.grid)
        | none => .next s)

/-! ### The reduction tree (R319) -/

/-- The relative position of a node. -/
def nodeXY (k : Cluster) (n : Nat) : Nat × Nat := (n % k.w, n / k.w)

/-- The children of a node, in the order in which it adds them (R319). -/
def treeChildren (k : Cluster) (col : Bool) (n : Nat) : List Nat :=
  let (x, y) := nodeXY k n
  if col then
    (if y + 1 < k.h then [n + k.w] else []) ++ (if y = 0 ∧ x + 1 < k.w then [n + 1] else [])
  else
    (if x + 1 < k.w then [n + 1] else []) ++ (if x = 0 ∧ y + 1 < k.h then [n + k.w] else [])

/-- The parent of a node that is not the root (R319). -/
def treeParent (k : Cluster) (col : Bool) (n : Nat) : Nat :=
  let (x, y) := nodeXY k n
  if col then (if 0 < y then n - k.w else n - 1) else (if 0 < x then n - 1 else n - k.w)

/-- ht(n): levels below a node (R319). -/
def treeHeight (k : Cluster) (col : Bool) (n : Nat) : Nat :=
  let (x, y) := nodeXY k n
  if col then (if 0 < y then k.h - 1 - y else (k.w - 1 - x) + (k.h - 1))
  else (if 0 < x then k.w - 1 - x else (k.h - 1 - y) + (k.w - 1))

/-- The nodes of a subtree; fuel bounds its depth. -/
def subtree (k : Cluster) (col : Bool) : Nat → Nat → List Nat
  | 0, n => [n]
  | f + 1, n => n :: (treeChildren k col n).flatMap (subtree k col f)

/-- comb (R81): an absent element is skipped. -/
def combElem : Option Word → Option Word → Option Word
  | none, y => y
  | x, none => x
  | some x, some y => some (BitVec.ofNat 32 (fadd32 x.toNat y.toNat))

/-- Two packets added (R319); poison in either is in the sum (R96). -/
def addPackets (a b : Packet) : Packet :=
  { elems := a.elems.zipWith combElem b.elems, contrib := a.contrib ||| b.contrib, expired := a.expired || b.expired
    bad := if a.bad = 0 then b.bad else a.bad }

/-- A packet with every element absent. -/
def noPacket : Packet := { elems := List.replicate 32 none, contrib := 0, expired := false, bad := 0 }

/-- A router node's record of reduction k of a channel. -/
def findNode (c : Cluster) (ch n k : Nat) : Option Node :=
  c.nodes.find? (fun x => x.ch == ch && x.node == n && x.k == k)

/-- The cluster with a router node's record put in. -/
def setNode (c : Cluster) (x : Node) : Cluster :=
  { c with nodes := c.nodes.filter (fun y => !(y.ch == x.ch && y.node == x.node && y.k == x.k)) ++ [x] }

/-- A node that nothing of reduction k has reached yet. -/
def newNode (ch n k : Nat) : Node :=
  { ch := ch, node := n, k := k, own := none, col := false, win := 0, start := none, inputs := [], gaveUp := [], sent := false }

/-- The team of a cluster index has ended. -/
def nodeEnded (c : Cluster) (n : Nat) : Bool := c.ended.contains n

/-- Every team of a child's subtree has ended and nothing of reduction k is under way there (R321). -/
def subtreeGone (s : State) (c : Cluster) (col : Bool) (ch k child : Nat) : Bool :=
  let ns := subtree c col (c.w + c.h) child
  ns.all (nodeEnded c) &&
    ns.all (fun n => match findNode c ch n k with
      | some x => x.sent
      | none => true) &&
    !s.partials.any (fun p => p.ctx == c.ctx && p.grid == c.grid && p.clus == c.lin && p.ch == ch && p.k == k &&
      ns.contains p.src)

/-- The node has every input it waits for (R321). -/
def nodeReady (s : State) (c : Cluster) (x : Node) : Bool :=
  (x.own.isSome || nodeEnded c x.node) &&
    (treeChildren c x.col x.node).all (fun n =>
      x.inputs.any (fun i => i.1 == n) || x.gaveUp.contains n || subtreeGone s c x.col x.ch x.k n)

/-- A node's sum: its own packet, then its children in order (R319). -/
def nodeSum (c : Cluster) (x : Node) : Packet :=
  let own := x.own.getD noPacket
  let p := (treeChildren c x.col x.node).foldl (fun acc n =>
    match x.inputs.find? (fun i => i.1 == n) with
    | some i => addPackets acc i.2
    | none => acc) own
  { p with expired := p.expired || !x.gaveUp.isEmpty }

/-- COL or WIN differ between the packets that teams have posted for a reduction (R320). -/
def mixedTree (c : Cluster) (ch k : Nat) : Bool :=
  let own := c.nodes.filter (fun x => x.ch == ch && x.k == k && x.own.isSome)
  match own with
  | [] => false
  | a :: rest => rest.any (fun x => x.col != a.col || x.win != a.win)

/-- The register writes of a complete mredw (R322); free values where COL or WIN differ (R320, R4). -/
def mredwWrites (s : State) (c : Cluster) (x : Node) (p : Pend) (dsts : List Nat) : List (Nat × Word) :=
  let sum := nodeSum c x
  let mixed := mixedTree c x.ch x.k
  p.dests.map (fun key =>
    let lane := key / 256
    let v : Word :=
      if mixed then freeBits 32 (s.fresh + key)
      else
        match dsts.findIdx? (fun r => r == key % 256) with
        | some 0 => if lane < 32 then ((sum.elems.getD lane none).getD 0) else 0
        | some 1 => if sum.expired then 1 else 0
        | some 2 => sum.contrib.setWidth 32
        | _ => 0
    (key, v))

/-- The lanes that a complete mredw loses to poison (R97): those that would get an element. -/
def mredwLosses (c : Cluster) (x : Node) : List Loss :=
  let hop := (nodeSum c x).bad
  if hop = 0 then [] else (List.range 32).map (fun l => { lane := l, addr := 0, hop := hop })

/-- The root's tree of a channel is complete and a mredw waits for it: the mredw completes (R322). -/
def rootCheck (s : State) (cx g l : Nat) : State :=
  match findCluster s cx g l, s.teams.find? (fun t => t.ctx == cx && t.grid == g && t.clus == l && t.index == 0) with
  | some _, some t =>
    t.pend.foldl (fun s p =>
      match p.wait with
      | .tree ch k dsts =>
        (match findCluster s cx g l with
         | some c =>
           (match findNode c ch 0 k with
            | some x =>
              if nodeReady s c x then
                let ls := mredwLosses c x
                let p := { p with
                  writes := (mredwWrites s c x p dsts).filter (fun w => !ls.any (fun l => l.lane == w.1 / 256)), losses := ls }
                let s := if mixedTree c ch k then { s with fresh := s.fresh + 2 ^ 20 } else s
                let s := setCluster s { c with
                  nodes := c.nodes.filter (fun y => !(y.ch == ch && (y.node == 0 && y.k == k || y.sent && decide (y.k ≤ k)))) }
                finishPend s t.uid p
              else s
            | none => s)
         | none => s)
      | _ => s) s
  | _, _ => s

/-! ### mred and mredw -/

/-- The packet that a team posts (R319): element j of lane j, absent where that lane is dead. -/
def ownPacket (s : State) (t : Team) (a : Nat) : Packet :=
  { elems := (List.range 32).map (fun j => if t.dead.getLsbD j then none else some (readSlot s t j a))
    contrib := BitVec.ofNat 16 (2 ^ t.index), expired := false, bad := 0 }

/-- The team's own packet of a channel is still held (R320): not yet forwarded, or at the root not yet read. -/
def packetHeld (c : Cluster) (t : Team) (ch : Nat) : Bool :=
  c.nodes.any (fun x => x.ch == ch && x.node == t.index && x.own.isSome && !x.sent)

/-- The mreds of a channel that the team has issued. -/
def mreds (t : Team) (ch : Nat) : Nat := t.mredCount.toList.getD ch 0

/-- mred (R320): a reserved control bit is ILLOP 0x11 with check 6, a packet still held is QUEUE 0x08. -/
def execMred (a b : BitVec 5) (h : BitVec 2) (k : BitVec 1) (s : State) : Out :=
  withCauses (.mred a b h k) s (fun _ => s1 a ++ s1 b) (fun _ => [])
    (fun t _ => if readable s t (lead t) (s1 b) && fld (slot t (lead t) b.toNat) 24 8 != 0 then [(0x11, 6)] else []) fun t _ =>
    consume s t ((List.range 32).filter (fun j => t.live.getLsbD j)) (s1 a) (withLead s t (s1 b) [] (
      let cw := slot t (lead t) b.toNat
      let pk := ownPacket s t a.toNat
      let s := bump s t
      let ch := h.toNat
      match findCluster s t.ctx t.grid t.clus with
      | none => .next (setTeam s (advance t))
      | some c =>
        if packetHeld c t ch then .next (raiseQueue s t 8)
        else
          let n := mreds t ch
          let x := (findNode c ch t.index n).getD (newNode ch t.index n)
          let x := { x with own := some pk, col := k == 1, win := (fld cw 0 24).toNat, start := some s.clk.toNat }
          let s := setCluster s (setNode c x)
          let t' := { t with mredCount := t.mredCount.setIfInBounds ch (n + 1) }
          .next (rootCheck (setTeam s (advance t')) t.ctx t.grid t.clus)))

/-- A mredw has nothing to read (R322): it is not at index 0, no mred of its own is outstanding on the channel, or a mredw waits
for that one. -/
def mredwBad (s : State) (t : Team) (ch : Nat) : Bool :=
  let waited := t.pend.any (fun p =>
    match p.wait with
    | .tree c n _ => c == ch && n == mreds t ch - 1
    | _ => false)
  let held := match findCluster s t.ctx t.grid t.clus with
    | some c => packetHeld c t ch
    | none => false
  t.index != 0 || !held || waited

/-- mredw (R322): ILLOP 0x15, or a pending instruction that waits for the tree. -/
def execMredw (d : BitVec 5) (h : BitVec 2) (s : State) : Out :=
  withCauses (.mredw d h) s (fun _ => []) (fun _ => slotsFrom d 4)
    (fun t _ => if mredwBad s t h.toNat then [(0x15, 0)] else []) fun t _ =>
    let ch := h.toNat
    match flagNo t.clause.seta with
    | none => .next (raiseIll s t 0x0E 0)
    | some f =>
      let dsts := (slotsFrom d 4).filterMap (slotReg t)
      let lanes := lanesOf (t.active ||| lowMask 32)
      let p : Pend :=
        { seq := s.nextSeq, flag := f, wait := .tree ch (mreds t ch - 1) dsts, dests := lanes.flatMap (fun l => dsts.map (regKey l)),
          writes := [], vas := [], losses := [], contested := [], pc := wordAddr t, handler := t.handler.isSome, again := [],
          home := false, acquires := false }
      let t' := advance (flagMap { t with pend := t.pend ++ [p] } f (· + 1))
      .next (rootCheck (setTeam { s with nextSeq := s.nextSeq + 1 } t') t.ctx t.grid t.clus)

/-- The grid of a cluster never gives up (R309, R321). -/
def clusterRepro (s : State) (c : Cluster) : Bool :=
  match findGrid s c.ctx c.grid with
  | some g => g.hdr.repro
  | none => false

/-- The cycle until which a node waits for a child (R321); none where it never gives up, or while its team, still live, has not
posted. -/
def childLimit (s : State) (c : Cluster) (x : Node) (child : Nat) : Option Nat :=
  match x.start with
  | some st =>
    if x.win = 0 ∨ clusterRepro s c ∨ !(x.own.isSome || nodeEnded c x.node) then none
    else some (st + x.win * (treeHeight c x.col child + 1))
  | none => none

/-- The child's limit has passed. -/
def childLate (s : State) (c : Cluster) (x : Node) (child : Nat) : Bool :=
  match childLimit s c x child with
  | some n => decide (n < s.clk.toNat)
  | none => false

/-- MRED_FORWARD (R319): a node with every input sends its partial to its parent. The cluster is named by its place in
the list of placed clusters. -/
def execMredForward (cl ch node : Nat) (s : State) : Out :=
  match s.clusters[cl]? with
  | none => notEnabled "MRED_FORWARD"
  | some c =>
    match c.nodes.find? (fun x => x.ch == ch && x.node == node && !x.sent && nodeReady s c x) with
    | none => notEnabled "MRED_FORWARD"
    | some x =>
      if node = 0 ∨ c.w * c.h ≤ node then notEnabled "MRED_FORWARD"
      else
        let p : Partial :=
          { ctx := c.ctx, grid := c.grid, clus := c.lin, ch := ch, k := x.k, src := node, dst := treeParent c x.col node,
            col := x.col, win := x.win, packet := nodeSum c x }
        .next { setCluster s (setNode c { x with sent := true, inputs := [] }) with partials := s.partials ++ [p] }

/-- A reduction is over at a node: its record is gone though its team has posted (R321). -/
def reductionOver (s : State) (c : Cluster) (p : Partial) : Bool :=
  match findNode c p.ch p.dst p.k with
  | some x => x.sent || x.gaveUp.contains p.src
  | none =>
    match s.teams.find? (fun t => t.ctx == c.ctx && t.grid == c.grid && t.clus == c.lin && t.index == p.dst) with
    | some t => decide (p.k < mreds t p.ch)
    | none => true

/-- MRED_PARTIAL_ARRIVAL (R321): partial k of those in flight reaches its parent, whose clock counts from the first of them where
its team ends without a post; one that comes after its limit cycle, or to a
reduction that is over, is discarded. -/
def execMredPartialArrival (k : Nat) (s : State) : Out :=
  match s.partials[k]? with
  | none => notEnabled "MRED_PARTIAL_ARRIVAL"
  | some p =>
    let s := { s with partials := s.partials.eraseIdx k }
    match findCluster s p.ctx p.grid p.clus with
    | none => .next s
    | some c =>
      if reductionOver s c p then .next s
      else
        let x := (findNode c p.ch p.dst p.k).getD { newNode p.ch p.dst p.k with col := p.col, win := p.win }
        if childLate s c x p.src then
          let s := setCluster s (setNode c { x with gaveUp := p.src :: x.gaveUp })
          .next (rootCheck s p.ctx p.grid p.clus)
        else
          let x := { x with inputs := x.inputs ++ [(p.src, p.packet)], start := some (x.start.getD s.clk.toNat) }
          .next (rootCheck (setCluster s (setNode c x)) p.ctx p.grid p.clus)

/-- MRED_GIVE_UP (R321): the limit cycle of a child has passed without its partial; a subtree whose teams have all ended counts as
arrived, and is not given up. -/
def execMredGiveUp (cl ch node child : Nat) (s : State) : Out :=
  match s.clusters[cl]? with
  | none => notEnabled "MRED_GIVE_UP"
  | some c =>
    match c.nodes.find? (fun x => x.ch == ch && x.node == node && !x.sent && childLate s c x child &&
        (treeChildren c x.col node).contains child && !x.inputs.any (fun i => i.1 == child) && !x.gaveUp.contains child &&
        !subtreeGone s c x.col x.ch x.k child) with
    | none => notEnabled "MRED_GIVE_UP"
    | some x =>
      let s := setCluster s (setNode c { x with gaveUp := child :: x.gaveUp })
      .next (rootCheck s c.ctx c.grid c.lin)

/-! ### The hang detector -/

/-- HLOG and XLOG of a context (R323). -/
def Context.hlog (c : Context) : Nat := (fld c.hang 0 8).toNat
def Context.xlog (c : Context) : Nat := (fld c.hang 8 8).toNat

/-- The pending mredws of a team on a flag. -/
def treePends (t : Team) (i : Nat) : List Pend :=
  t.pend.filter (fun p => p.flag == i && (match p.wait with
    | .tree .. => true
    | _ => false))

/-- The flags that keep the team's next clause from being ready (R32); none where the team is not at a header whose word
can be read. -/
def heldFlags (s : State) (t : Team) : List Nat :=
  if t.wix ≠ 0 then []
  else
    match fetchPa s t t.pc with
    | .fault .. => []
    | .ok x =>
      let w := wordAt (homeBytes s x.pa 4) 0
      if !isHeader w || !(headerReasons (fld w 13 4) (fld w 9 4) (fld w 4 5) (fld w 2 2)).isEmpty then []
      else
        let above := fun (v : BitVec 4) => if 39 < flagOf t v.toNat ∧ v.toNat < 12 then [v.toNat] else []
        (List.range 12).filter (fun i => (fld w 17 12).getLsbD i && flagOf t i != 0) ++ above (fld w 13 4) ++ above (fld w 9 4)

/-- The team's clause is held only by flags of mredws (R323). -/
def heldByTree (s : State) (t : Team) : Bool :=
  t.block.isNone && t.trap.isNone &&
    (match heldFlags s t with
     | [] => false
     | fs => fs.all (fun i => (treePends t i).length == flagOf t i))

/-- Whether the hang detector counts a team as waiting (R323); a wait with X, and fwcall, only from the external limit
on. -/
def hangWaiting (s : State) (t : Team) : Bool :=
  t.place == .resident && t.trap.isNone &&
    (match t.block with
     | some (.cbar _) | some .gbar | some (.qsend ..) | some (.qrecv ..) => true
     | some (.wait x _ _ _ _ _ _ lim) => !x || lim
     | some (.fwcall _ _ _ _ _ _ lim) => lim
     | some _ => false
     | none => heldByTree s t)

/-- The team is at a wait with X, or in fwcall, below its external limit (R323). -/
def belowLimit (t : Team) : Bool :=
  t.place == .resident &&
    (match t.block with
     | some (.wait x _ _ _ _ _ _ lim) => x && !lim
     | some (.fwcall _ _ _ _ _ _ lim) => !lim
     | _ => false)

/-- The hang count after n more cycles (R323). -/
def hangTick (s : State) (n : Nat) (c : Context) : Context :=
  let ts := s.teams.filter (fun t => t.ctx == c.id && (t.place == .resident || t.place == .held))
  if ts.any belowLimit then c
  else if !ts.isEmpty && ts.all (hangWaiting s) then { c with hangCount := c.hangCount + n }
  else { c with hangCount := 0 }

/-- Cluster indices not arrived at a barrier. -/
def notArrived (s : State) (t : Team) (id : Nat) : Nat :=
  match findCluster s t.ctx t.grid t.clus with
  | none => 0
  | some c =>
    ((clusterTeams s t.ctx t.grid t.clus).filter (fun x => !(findBar c id).arrived.contains x.index)).foldl
      (fun acc x => acc + 2 ^ x.index) 0

/-- Nodes that a pending mredw still awaits: those under a child of the root that is neither in nor given up. -/
def awaited (s : State) (t : Team) (ch k : Nat) : Nat :=
  match findCluster s t.ctx t.grid t.clus with
  | none => 0
  | some c =>
    match findNode c ch 0 k with
    | none => 0
    | some x =>
      (((treeChildren c x.col 0).filter (fun n => !x.inputs.any (fun i => i.1 == n) && !x.gaveUp.contains n)).flatMap
        (subtree c x.col (c.w + c.h))).foldl (fun acc n => if nodeEnded c n then acc else acc + 2 ^ n) 0

/-- Address and aux of a HANG record (R324). -/
def hangInfo (s : State) (t : Team) : DWord × DWord :=
  let mk := fun (kind pend id val : Nat) => BitVec.ofNat 64 (kind * 2 ^ 60 + pend * 2 ^ 40 + id * 2 ^ 32 + val)
  match t.block with
  | some (.cbar id) => (0, mk 1 (notArrived s t id) id 0)
  | some .gbar =>
    let n := match findGrid s t.ctx t.grid with
      | some g => (s.teams.filter (fun x => x.ctx == t.ctx && x.grid == t.grid && x.place != .ended &&
          !g.gbarIn.contains (logicalIx x))).length
      | none => 0
    (0, mk 2 0 0 n)
  | some (.wait x _ _ va _ last _ _) => (va, mk (if x then 4 else 3) 0 0 last.toNat)
  | some (.qsend o q _ w) =>
    let ix := match findTeam s o with
      | some x => x.index
      | none => 0
    (w.setWidth 64, mk 5 (16 * ix + q) 0 0)
  | some (.qrecv q _ _ _ w) => (w.setWidth 64, mk 6 (16 * t.index + q) 0 0)
  | some (.fwcall code _ a _ _ _ _) => (a.setWidth 64, mk 8 0 0 code)
  | _ =>
    match t.pend.findSome? (fun p =>
      match p.wait with
      | .tree ch k _ => if (heldFlags s t).contains p.flag then some (ch, k) else none
      | _ => none) with
    | some (ch, k) => (0, mk 7 (awaited s t ch k) ch 0)
    | none => (0, 0)

/-- HANG (R324): the count has reached 2^HLOG, and every waiting team of the context takes the trap. -/
def execHang (ctx : Nat) (s : State) : Out :=
  match findCtx s ctx with
  | none => notEnabled "HANG"
  | some c =>
    if c.hlog = 0 ∨ c.hangCount < 2 ^ c.hlog then notEnabled "HANG"
    else
      let s := setCtx s { c with hangCount := 0 }
      let ts := (s.teams.filter (fun t => t.ctx == ctx && hangWaiting s t)).map (fun t => (t.uid, hangInfo s t))
      .next (ts.foldl (fun s x =>
        match findTeam s x.1 with
        | some t => raiseWide s t 0x11 x.2.1 x.2.2
        | none => s) s)

/-- EXTERNAL_LIMIT (R323): a wait with X, or fwcall, has lasted 2^XLOG cycles. -/
def execExternalLimit (u : Nat) (s : State) : Out :=
  match findTeam s u with
  | none => notEnabled "EXTERNAL_LIMIT"
  | some t =>
    let due := fun (since : Nat) =>
      match findCtx s t.ctx with
      | some c => c.xlog != 0 && decide (since + 2 ^ c.xlog ≤ s.clk.toNat)
      | none => false
    match t.block with
    | some (.wait true cond dst va v last since false) =>
      if due since then .next (setTeam s { t with block := some (.wait true cond dst va v last since true) })
      else notEnabled "EXTERNAL_LIMIT"
    | some (.fwcall code ds a blk r since false) =>
      if due since then .next (setTeam s { t with block := some (.fwcall code ds a blk r since true) })
      else notEnabled "EXTERNAL_LIMIT"
    | _ => notEnabled "EXTERNAL_LIMIT"

end Sys2Proof.Machine
end

