-- ==== Sys2Proof/Machine/Engine.lean ====
section
/-! DEFINITION. What the copy, matrix and sieve engines share: acceptance, reads and writes of memory and scratchpads by a
command (R105, R117, R130, R131), freezing and thawing (R119, R127, R128), and leave (R120, R220, R311). -/

namespace Sys2Proof.Machine

/-! ### Reads -/

/-- A fault of an engine access (R127): class, address, aux. -/
structure EFault where
  cls : Nat
  addr : DWord
  aux : DWord
  deriving DecidableEq, Repr

/-- The key of a byte: a physical address, or an offset in a team's scratchpad. -/
def byteKey (space : Option Nat) (a : Nat) : Nat :=
  match space with
  | none => a
  | some u => 2 ^ 46 * (u + 1) + a

/-- The space of a key. -/
def keySpace (k : Nat) : Option Nat := if k < 2 ^ 46 then none else some (k / 2 ^ 46 - 1)

/-- The address of a key. -/
def keyAddr (k : Nat) : Nat := k % 2 ^ 46

/-- Bytes that an engine reads: the bytes with their keys, and the hop code of poison; or a fault. -/
inductive ERead where
  | ok (bytes : List Byte) (keys : List Nat) (hop : Nat)
  | fault (f : EFault)
  deriving DecidableEq, Repr

/-- Two reads in sequence. -/
def ERead.append : ERead → ERead → ERead
  | .ok a k h, .ok b l g => .ok (a ++ b) (k ++ l) (if h ≠ 0 then h else g)
  | .fault f, _ => .fault f
  | _, .fault f => .fault f

/-- A command of a handler reads a SAVE word whose register an earlier instruction still owes (R341). -/
def Issue.owes (i : Issue) (s : State) (va : DWord) (n : Nat) : Bool :=
  i.handler &&
    (match findTeam s i.uid with
     | some t => readsOwedSave s t va.toNat n
     | none => false)

/-- A piece of n bytes inside one page (R104, R130); base is the address that a fault names. A peer's bytes are free (log
entry 14), and so are those that owes names. -/
def engPiece (s : State) (root : RootDesc) (base va : DWord) (n : Nat) (owes : DWord → Nat → Bool) : ERead :=
  match translate s root va .read none with
  | .fault c x => .fault { cls := c, addr := base, aux := x }
  | .ok x =>
    if isPeer x.pa || owes va n then .ok ((List.range n).map (fun i => freeBits 8 (s.fresh + 2 ^ 40 + i))) (seqFrom x.pa n) 0
    else .ok (homeBytes s x.pa n) (seqFrom x.pa n) (hopOf s x.pa n)

/-- n bytes from a virtual address, n at most 65,536. -/
def engGlobal (s : State) (root : RootDesc) (va : DWord) (n : Nat) (owes : DWord → Nat → Bool := fun _ _ => false) : ERead :=
  let k := 65536 - va.toNat % 65536
  if n ≤ k then engPiece s root va va n owes
  else (engPiece s root va va k owes).append (engPiece s root va (va + BitVec.ofNat 64 k) (n - k) owes)

/-- SCRATCH_RANGE of an engine access (R127, R140). -/
def engScrFault (a : Word) (k : AccKind) : EFault :=
  { cls := 0x07, addr := a.setWidth 64, aux := BitVec.ofNat 64 k.code }

/-- n bytes at a scratch address of a team. -/
def engScratch (s : State) (u : Nat) (a : Word) (n : Nat) : ERead :=
  match findTeam s u with
  | none => .fault (engScrFault a .read)
  | some t =>
    match scrAccess s t a n with
    | none => .fault (engScrFault a .read)
    | some (v, off) =>
      match findTeam s v with
      | some x =>
        .ok (scrBytes x off n) ((seqFrom off n).map (byteKey (some v))) (if scrPoisoned x off n then 7 else 0)
      | none => .fault (engScrFault a .read)

/-- The bytes of a block that an instruction reads from its own scratchpad at issue (R121, R300, R361): they see the team's
earlier sts; a poisoned word reads as a free value (log entry 17). -/
def readBlock (s : State) (t : Team) (a : Word) (n : Nat) : List Byte :=
  match scrAccess s t a n with
  | none => []
  | some (u, off) =>
    match findTeam s u with
    | none => []
    | some x0 =>
      let x := scrSeen s t.uid x0
      (List.range n).map (fun i =>
        if scrPoisoned x (off + i) 1 then freeBits 8 (s.fresh + 2 ^ 19 + i) else sget 0 x.scr (off + i))

/-- The address of a block in the team's own scratchpad (R121, R300, R360): SCRATCH_RANGE, then ALIGN, then the rest. -/
def withBlock (s : State) (t : Team) (a : Word) (align n : Nat) (k : Unit → Out) : Out :=
  if fld a 28 1 ≠ 1 ∨ scrAccess s t a n = none then .next (raiseScr s t a .read)
  else if a.toNat % align ≠ 0 then .next (raiseWide s t 0x03 (a.setWidth 64) 0)
  else k ()

/-! ### Writes -/

/-- What a command writes: nibbles by key 2 * byte key + half, and the bytes that poison reaches with its hop code. -/
structure EOut where
  nibs : List (Nat × Nat)
  bad : List (Nat × Nat)
  deriving DecidableEq, Repr

/-- Nothing written. -/
def EOut.empty : EOut := { nibs := [], bad := [] }

/-- Bytes written. -/
def EOut.bytes (o : EOut) (keys : List Nat) (bs : List Byte) : EOut :=
  { o with nibs := (keys.zip bs).foldl (fun acc kb =>
      sput 16 (sput 16 acc (2 * kb.1) (kb.2.toNat % 16)) (2 * kb.1 + 1) (kb.2.toNat / 16)) o.nibs }

/-- Bytes that poison reaches (R96). -/
def EOut.poison (o : EOut) (keys : List Nat) (hop : Nat) : EOut := { o with bad := o.bad ++ keys.map (fun k => (k, hop)) }

/-- The byte now at a key. -/
def byteNow (s : State) (k : Nat) : Byte :=
  match keySpace k with
  | none => homeByte s (keyAddr k)
  | some u =>
    match findTeam s u with
    | some t => sget 0 t.scr (keyAddr k)
    | none => 0

/-- A byte with one half replaced. -/
def setHalf (b : Byte) (half v : Nat) : Byte :=
  BitVec.ofNat 8 (if half = 0 then b.toNat / 16 * 16 + v else b.toNat % 16 + 16 * v)

/-- The nibbles as bytes, keys ascending; a half not written stays as it is. -/
def nibBytes (s : State) : List (Nat × Nat) → List (Nat × Byte)
  | [] => []
  | (k, v) :: rest =>
    match nibBytes s rest with
    | (a, b) :: more => if a = k / 2 then (a, setHalf b (k % 2) v) :: more
      else (k / 2, setHalf (byteNow s (k / 2)) (k % 2) v) :: (a, b) :: more
    | [] => [(k / 2, setHalf (byteNow s (k / 2)) (k % 2) v)]

/-- Runs of bytes at consecutive keys. -/
def byteRuns : List (Nat × Byte) → List (Nat × List Byte)
  | [] => []
  | (k, b) :: rest =>
    match byteRuns rest with
    | (k', bs) :: more => if k' = k + 1 then (k, b :: bs) :: more else (k, [b]) :: (k', bs) :: more
    | [] => [(k, [b])]

/-- A write of the journal covers the byte of a key. -/
def recCovers (k : Nat) (r : WriteRec) : Bool :=
  r.space == keySpace k && decide (r.addr ≤ keyAddr k ∧ keyAddr k < r.addr + r.len)

/-- A run performed at its home by a command; the issuing core's L1 lines of it go (R131). -/
def putRun (s : State) (core : Nat) (cmd : Nat) (src : Option (Nat × Nat)) (r : Nat × List Byte) : State :=
  let a := keyAddr r.1
  match keySpace r.1 with
  | none =>
    let s := homePut (noteWrite s none a r.2.length true src (some cmd)) a r.2
    (List.range ((a + r.2.length + 63) / 64 - a / 64)).foldl (fun s i => l1Drop s core (a / 64 + i)) s
  | some u => scrPut (noteWrite s (some u) a r.2.length true src (some cmd)) core u a r.2

/-- Poison put where a command writes poisoned data (R96). -/
def putBad (s : State) (b : Nat × Nat) : State :=
  match keySpace b.1 with
  | none => poisonLine s (keyAddr b.1) b.2
  | some u =>
    match findTeam s u with
    | some t => setTeam s { t with scrBad := sput false t.scrBad (keyAddr b.1 / 4) true }
    | none => s

/-- A remote write that no lane made and whose reply nobody awaits (R370; log entry 14). -/
def sendWrite (s : State) (a : Nat) (bs : List Byte) : State :=
  let p := (peerOf a).1
  let acc : Access := { lane := 0, pa := a, va := 0, size := bs.length, sgn := false, dsts := [] }
  if (peerReason s p).isSome then s
  else sendRemote s { tag := 0, p := p, uid := noTeam, acc := acc, kind := 1, op := 0, lanes := [], decode := none } 0 0 bs

/-- A run of bytes in a peer's aperture (R86, R370): 16 bytes a frame where an aligned piece is whole, else one. Fuel bounds the
number of pieces. -/
def sendRun : Nat → State → Nat → List Byte → State
  | 0, s, _, _ => s
  | _, s, _, [] => s
  | k + 1, s, a, bs =>
    let n := if a % 16 = 0 ∧ 16 ≤ bs.length then 16 else 1
    sendRun k (sendWrite s a (bs.take n)) (a + n) (bs.drop n)

/-- The writes of a command performed; those to a peer's aperture go out as frames, where both halves of a byte are written. src names
the command whose writes its team's later commands follow. -/
def putOut (s : State) (i : Issue) (o : EOut) (src : Option (Nat × Nat) := none) : State :=
  let bytes := nibBytes s o.nibs
  let far := bytes.filter (fun kb => isPeer kb.1 && (o.nibs.filter (fun n => n.1 / 2 == kb.1)).length == 2)
  let s := (byteRuns (bytes.filter (fun kb => !isPeer kb.1))).foldl (fun s r => putRun s i.core i.seq src r) s
  let s := (byteRuns far).foldl (fun s r => sendRun r.2.length s r.1 r.2) s
  (o.bad.filter (fun b => !isPeer b.1)).foldl putBad s

/-! ### Sectors begun (R129, R228) -/

/-- The sectors of physical memory in which the first hi of a command's units write, and later ones too; keys gives the bytes that
a unit writes. -/
def openSectors (keys : Nat → List Nat) (units hi : Nat) : List Nat :=
  let sectors := fun (js : List Nat) => ((js.flatMap keys).filter (fun k => keySpace k == none)).map (· / 32)
  (sectors (List.range hi)).filter (sectors (seqFrom hi (units - hi))).contains

/-- A command that has stopped remembers what its unfinished sectors held before it wrote in them. s is the machine before its
latest writes, of the bytes keys, and s' the machine after them. -/
def Issue.begun (i : Issue) (s s' : State) (keys unfinished : List Nat) : Issue :=
  let since := s.journal.drop i.stood
  let kept := i.undo.filter (fun u => unfinished.contains (u.1 / 32) && !since.any (fun r => r.coversPa u.1))
  let wrote := (keys.filter (fun k => keySpace k == none && !isPeer k)).eraseDups
  let new := wrote.filter (fun k => unfinished.contains (k / 32) && !kept.any (fun u => u.1 == k))
  let bad := (wrote.map (· / 64)).eraseDups.filter (fun l => hopOf s (64 * l) 64 == 0 && hopOf s' (64 * l) 64 != 0)
  { i with
    undo := kept ++ new.map (fun k => (k, homeByte s k)), stood := s'.journal.length
    undoBad := (i.undoBad ++ bad).filter (fun l =>
      (unfinished.contains (2 * l) || unfinished.contains (2 * l + 1)) &&
        wrote.all (fun k => k / 64 != l || unfinished.contains (k / 32))) }

/-! ### Acceptance -/

/-- The issue data of a command that a team's word posts (R106, R127). -/
def issueOf (s : State) (t : Team) (flag : Option Nat) : Issue :=
  let g := lowLane t.active / 128
  { seq := s.nextSeq, uid := t.uid, core := t.core, pc := wordAddr t, word := t.ir, flag := flag, grp := g,
    lmask := groupOf t.active g, root := t.root, bound := s.nextSeq, handler := t.handler.isSome, record := none,
    undo := [], undoBad := [], stood := 0 }

/-- The record of a command that freezes (R127, R227). -/
def freezeRec (i : Issue) (f : EFault) : Rec :=
  { cls := f.cls, grp := i.grp, pc := i.pc, lmask := i.lmask, addr := f.addr, aux := f.aux, dlv := true }

/-- A team on its core whose commands may run: not saved (R129). -/
def teamRuns (s : State) (u : Nat) : Bool :=
  match findTeam s u with
  | some t => t.place != .saved
  | none => false

/-- Stages that occupy a queue entry. -/
def Stage.queued : Stage → Bool
  | .waiting | .asking | .running => true
  | _ => false

/-- A flag of a team is released by a completed or cancelled command (R30). -/
def releaseOf (s : State) (i : Issue) : State :=
  match findTeam s i.uid with
  | some t => setTeam s (releaseFlag t i.flag)
  | none => s

/-- A command waits for leave at its die (R311). -/
def askLeave (s : State) (core seq : Nat) : State :=
  let d := dieOf s (dieOfCore core)
  setDie s (dieOfCore core) { d with asking := d.asking ++ [seq] }

/-- The command has its leave (R311). -/
def hasLeave (s : State) (core seq : Nat) : Bool := (dieOf s (dieOfCore core)).granted.contains seq

/-- Leave used. -/
def useLeave (s : State) (core seq : Nat) : State :=
  let d := dieOf s (dieOfCore core)
  setDie s (dieOfCore core) { d with granted := d.granted.filter (fun x => x != seq) }

/-! ### Bubble mode (R312) -/

/-- A REPRO grid is resident on the module. -/
def bubbleMode (s : State) : Bool := s.teams.any (fun t => t.hdr.repro && t.place == .resident)

end Sys2Proof.Machine
end

