-- ==== Sys2Proof/Machine/Copy.lean ====
section
/-! DEFINITION. The copy engine (R118 to R135). -/

namespace Sys2Proof.Machine

/-! ### The control word and the formats (R122, R123) -/

/-- Fields of CTL. -/
def CopyCmd.mode (c : CopyCmd) : Nat := (fld c.ctl 29 2).toNat
def CopyCmd.ssp (c : CopyCmd) : Bool := fld c.ctl 28 1 == 1
def CopyCmd.dsp (c : CopyCmd) : Bool := fld c.ctl 27 1 == 1
def CopyCmd.sfmt (c : CopyCmd) : Nat := (fld c.ctl 20 4).toNat
def CopyCmd.dfmt (c : CopyCmd) : Nat := (fld c.ctl 16 4).toNat
def CopyCmd.rm (c : CopyCmd) : Nat := (fld c.ctl 13 3).toNat
def CopyCmd.sat (c : CopyCmd) : Bool := fld c.ctl 12 1 == 1
def CopyCmd.nof (c : CopyCmd) : Bool := fld c.ctl 11 1 == 1
def CopyCmd.ftz (c : CopyCmd) : Bool := fld c.ctl 10 1 == 1
def CopyCmd.xcnt (c : CopyCmd) : Nat := (fld c.ctl 4 4).toNat
def CopyCmd.qsel (c : CopyCmd) : Bool := fld c.ctl 31 1 == 1

/-- An element's size in half bytes (R123). -/
def copyNibs (fmt : Nat) : Nat :=
  match fmt with
  | 0 | 1 | 10 | 11 => 2
  | 2 | 3 | 8 | 9 => 4
  | 6 => 16
  | 12 => 1
  | 13 => 2
  | _ => 8

/-- The floating-point format of a code; none for the integers. -/
def copyFloat (fmt : Nat) : Option Fmt :=
  match fmt with
  | 7 => some .fp32
  | 8 => some .bf16
  | 9 => some .fp16
  | 10 => some .e4m3
  | 11 => some .e5m2
  | 12 => some .e2m1
  | _ => none

/-- The number of elements (R124). -/
def CopyCmd.ne (c : CopyCmd) : Nat := c.dims.foldl (fun acc d => acc * d.1) 1

/-- Half bytes per element of the page at an address (R116, R123), as one may read or write it; two where it is not mapped. -/
def pageNibs (s : State) (root : RootDesc) (va : DWord) : Nat :=
  match translate s root va .read none, translate s root va .write none with
  | .ok x, _ | .fault .., .ok x => halfBytes x.fmt
  | .fault .., .fault .. => 2

/-- Half bytes of a destination element (R123): in an encode those of the page. -/
def CopyCmd.dstNibs (s : State) (c : CopyCmd) : Nat := if c.mode = 3 then pageNibs s c.iss.root c.dst else copyNibs c.dfmt

/-- Destination bytes (R120): those of its elements. -/
def CopyCmd.bytes (s : State) (c : CopyCmd) : Nat := (c.ne * c.dstNibs s + 1) / 2

/-- The command needs leave (R120). -/
def CopyCmd.heavy (s : State) (c : CopyCmd) : Bool := decide (65536 < c.bytes s)

/-- Its cost in tokens (R311): of all its bytes, after a restart too (DEDUCED, log entry 108). -/
def CopyCmd.cost (s : State) (c : CopyCmd) : Nat := (c.bytes s + 127) / 128

/-! ### The descriptor (R121, R125) -/

/-- A descriptor's 128 bytes as a command, not yet checked. -/
def parseCopy (iss : Issue) (kind : CopyKind) (bs : List Byte) : CopyCmd :=
  let ctl := wordAt bs 16
  { iss := iss, kind := kind, src := dwordAt bs 0, dst := dwordAt bs 8, ctl := ctl, xlst := dwordAt bs 24,
    dims := (List.range ((fld ctl 24 3).toNat + 1)).map (fun k =>
      (natAt bs (32 + 12 * k) 4, (wordAt bs (36 + 12 * k)).toInt, (wordAt bs (40 + 12 * k)).toInt)),
    stage := .waiting, n := 0, born := 0, mark := 0, draw := 0 }

/-- The command is a tcopyx. -/
def CopyCmd.isExt (c : CopyCmd) : Bool :=
  match c.kind with
  | .extent _ => true
  | _ => false

/-- The command is a tfill. -/
def CopyCmd.isFill (c : CopyCmd) : Bool :=
  match c.kind with
  | .fill _ => true
  | _ => false

/-- Checks 1 to 7 of R125: the numbers of those that fail. A scratch SRC or DST with a bit of 63-32 set, which R121 wants zero, fails
check 1: R125 names no check for it (log entry 85, DESIGN CHOICE). -/
def copyChecks (c : CopyCmd) (bs : List Byte) : List Nat :=
  let z := fun (o n : Nat) => natAt bs o n == 0
  let nd := c.dims.length
  let isInt := fun (f : Nat) => decide (f ≤ 5)
  let conv := fun (f : Nat) => isInt f || decide (7 ≤ f ∧ f ≤ 12)
  let fmtOk :=
    match c.mode with
    | 0 => decide (c.sfmt ≤ 12) && c.dfmt == c.sfmt
    | 1 => conv c.sfmt && conv c.dfmt
    | 2 => c.sfmt == 13 && (c.dfmt == 7 || c.dfmt == 8) && !c.ssp
    | _ => (c.sfmt == 7 || c.sfmt == 8) && c.dfmt == 13 && !c.ssp && !c.dsp
  let size := fun (f : Nat) => max 1 (copyNibs f / 2)
  let last := c.dims.getLastD (0, 0, 0)
  because (!z 20 4 || fld c.ctl 0 4 != 0 || decide (4 < c.rm) || fld c.ctl 8 2 == 3 || decide (13 < c.sfmt) ||
      decide (13 < c.dfmt) || !z (32 + 12 * nd) (96 - 12 * nd) || (!c.isExt && (c.xlst != 0 || c.xcnt != 0)) ||
      (c.ssp && c.src.toNat / 2 ^ 32 != 0) || (c.dsp && c.dst.toNat / 2 ^ 32 != 0)) 1 ++
    because (!fmtOk) 2 ++
    because (c.dims.any (fun d => d.1 == 0) || decide (2 ^ 32 < c.ne)) 3 ++
    because (c.src.toNat % size c.sfmt != 0 ||
      c.dst.toNat % (if c.mode = 3 then 64 else size c.dfmt) != 0) 4 ++
    because (c.mode == 3 && ((c.dims.headD (0, 0, 0)).1 % 32 != 0 || (c.dims.headD (0, 0, 0)).2.2 != 1)) 5 ++
    because (c.isExt && (nd == 1 || c.src != 0 || c.ssp || last.2.1 != 0 || c.xlst.toNat % 16 != 0)) 6 ++
    because (c.isFill && (c.mode != 0 || c.src != 0 || c.ssp || c.sfmt != c.dfmt || c.dims.any (fun d => d.2.1 != 0))) 7

/-! ### Element addresses -/

/-- The indices of element n, dimension 0 first (R124). -/
def copyIx : List Nat → Nat → List Nat
  | [], _ => []
  | e :: es, n => n % e :: copyIx es (n / e)

/-- A sum of indices times strides. -/
def dotIx (is : List Nat) (st : List Int) : Int := ((is.zip st).map (fun p => (p.1 : Int) * p.2)).foldl (· + ·) 0

/-- A half-byte address: base byte address, signed half bytes, width of the address: the byte and the half. -/
def nibAddr (base : Nat) (nib : Int) (bits : Nat) : Nat × Nat :=
  let v := wrapInt (bits + 1) (2 * (base : Int) + nib)
  (v / 2, v % 2)

/-- Where an extent list sends a token (R126): the address of the token, a fault, or poison. -/
inductive KvRes where
  | base (va : DWord)
  | fault (f : EFault)
  | bad (hop : Nat) (keys : List Nat)
  deriving DecidableEq, Repr

/-- The entry that holds token t, from entry j that starts at token st; k entries are left (R126). An entry whose BPT does
not pass counts as one with a reserved bit set (R247). Two points are the model's own: a poisoned entry poisons the destination
elements that need it (log entry 87, DESIGN CHOICE), and the record of a translation fault met in reading an entry names the
entry's VA (log entry 88, DESIGN CHOICE). -/
def kvFind (s : State) (root : RootDesc) (xlst : DWord) (bptOk : Nat → Bool) (t : Nat) : Nat → Nat → Nat → KvRes
  | 0, j, _ =>
    .fault { cls := 0x08, addr := xlst + BitVec.ofNat 64 (16 * (j - 1)), aux := BitVec.ofNat 64 (t + (j - 1) * 2 ^ 32) }
  | k + 1, j, st =>
    let va := xlst + BitVec.ofNat 64 (16 * j)
    match engGlobal s root va 16 with
    | .fault f => .fault f
    | .ok bs keys hop =>
      if hop ≠ 0 then .bad hop keys
      else
        let e := natOf bs
        let len := e / 2 ^ 64 % 2 ^ 32
        if st ≤ t ∧ t < st + len then
          if e / 2 ^ 63 % 2 = 1 ∨ e / 2 ^ 48 % 2 ^ 15 ≠ 0 ∨ !bptOk (e / 2 ^ 96 % 2 ^ 32) then
            .fault { cls := 0x09, addr := va, aux := BitVec.ofNat 64 (t + j * 2 ^ 32) }
          else .base (BitVec.ofNat 64 (e % 2 ^ 48 + (t - st) * (e / 2 ^ 96 % 2 ^ 32)))
        else kvFind s root xlst bptOk t k (j + 1) (st + len)

/-! ### Element values -/

/-- The source of an element: its code in the destination's format, the bytes it was read from; poison; or a fault. -/
inductive Src where
  | val (code : Nat) (keys : List Nat)
  | bad (hop : Nat) (keys : List Nat)
  | fault (f : EFault)
  deriving DecidableEq, Repr

/-- Conversion of one element (R75 to R77, R124). -/
def copyConv (c : CopyCmd) (v : Nat) : Nat :=
  match copyFloat c.sfmt, copyFloat c.dfmt with
  | some f, some g => (convF g c.rm c.sat c.nof c.ftz (f.valFtz c.ftz v)).1
  | some f, none => (floatToInt (intType c.dfmt).1 (intType c.dfmt).2 c.rm c.sat (f.valFtz c.ftz v)).1
  | none, some g =>
    (convF g c.rm c.sat c.nof c.ftz (intVal (if c.sfmt % 2 = 1 then (BitVec.ofNat (4 * copyNibs c.sfmt) v).toInt else v))).1
  | none, none =>
    cvtInt c.sat c.dfmt (if c.sfmt % 2 = 1 then (BitVec.ofNat (4 * copyNibs c.sfmt) v).toInt else (v : Int))

/-- A decoded element in FP32 or BF16 (R78, R79, R124). -/
def copyDecode (dfmt fmt code scale : Nat) : Nat :=
  if fmt = 5 then (if dfmt = 7 then rne .fp32 (Fmt.bf16.val (q4nElem code scale)) else q4nElem code scale)
  else rne (if dfmt = 7 then .fp32 else .bf16) (mxElem fmt code scale)

/-- The byte and half of element n's source (R124, R126), or what its extent entry gives. A BPT of tcopyx that is no multiple of the
source element size is accepted, and the element is read where the sum puts it (log entry 86, DESIGN CHOICE). -/
def copySrcAddr (s : State) (c : CopyCmd) (n : Nat) : KvRes × Nat :=
  let is := copyIx (c.dims.map (fun d => d.1)) n
  let sst := c.dims.map (fun d => d.2.1)
  match c.kind with
  | .extent pos =>
    let k := c.dims.length - 1
    let t := (pos.toNat + is.getD k 0) % 2 ^ 32
    (match kvFind s c.iss.root c.xlst (fun _ => true) t (c.xcnt + 1) 0 0 with
     | .base va =>
       let nibs := if c.sfmt = 13 then pageNibs s c.iss.root va else copyNibs c.sfmt
       let a := nibAddr va.toNat (dotIx (is.take k) (sst.take k) * nibs) 64
       (.base (BitVec.ofNat 64 a.1), a.2)
     | r => (r, 0))
  | _ =>
    let nibs := if c.sfmt = 13 then pageNibs s c.iss.root c.src else copyNibs c.sfmt
    let a := nibAddr c.src.toNat (dotIx is sst * nibs) (if c.ssp then 32 else 64)
    (.base (BitVec.ofNat 64 a.1), a.2)

/-- A decoding read of an element (R116, R117, R124). -/
def copyPage (s : State) (c : CopyCmd) (va : DWord) (half : Nat) : State × Src :=
  match translate s c.iss.root va .read (some [1, 2, 3, 4, 5]) with
  | .fault k x => (s, .fault { cls := k, addr := va, aux := x })
  | .ok x =>
    let n := if halfBytes x.fmt = 2 then va.toNat % 65536 else va.toNat % 65536 * 2 + half
    match scaleOf s none x n with
    | (s, .conflict pa) => (s, .fault { cls := 0x17, addr := va, aux := BitVec.ofNat 64 pa })
    | (s, .bad hop) => (s, .bad hop [])
    | (s, .val sc) =>
      let keys := [x.pa, x.side + scaleAt x.fmt n, x.side + 4096 + scaleAt x.fmt n]
      if isPeer x.pa || c.iss.owes s va 1 then (s, .val (Config.freeNat (s.fresh + 2 ^ 40) % 2 ^ (4 * copyNibs c.dfmt)) keys)
      else if hopOf s x.pa 1 ≠ 0 then (s, .bad (hopOf s x.pa 1) keys)
      else
        let b := (homeByte s x.pa).toNat
        let code := if halfBytes x.fmt = 2 then b else b / (if half = 0 then 1 else 16) % 16
        (s, .val (copyDecode c.dfmt x.fmt code sc) keys)

/-- The raw code of element n's source. -/
def copyRaw (s : State) (c : CopyCmd) (n : Nat) : Src :=
  match copySrcAddr s c n with
  | (.fault f, _) => .fault f
  | (.bad hop keys, _) => .bad hop keys
  | (.base va, half) =>
    let nibs := copyNibs c.sfmt
    let r := if c.ssp then engScratch s c.iss.uid (va.setWidth 32) (max 1 (nibs / 2))
      else engGlobal s c.iss.root va (max 1 (nibs / 2)) (c.iss.owes s)
    match r with
    | .fault f => .fault f
    | .ok bs keys hop =>
      if hop ≠ 0 then .bad hop keys
      else .val (if nibs = 1 then natOf bs / (if half = 0 then 1 else 16) % 16 else natOf bs) keys

/-- The result of element n (R124, R133). -/
def copyVal (s : State) (c : CopyCmd) (n : Nat) : State × Src :=
  match c.kind with
  | .fill v => (s, .val (v.toNat % 2 ^ (4 * copyNibs c.dfmt)) [])
  | _ =>
    if c.mode = 2 then
      match copySrcAddr s c n with
      | (.fault f, _) => (s, .fault f)
      | (.bad hop keys, _) => (s, .bad hop keys)
      | (.base va, half) => copyPage s c va half
    else
      match copyRaw s c n with
      | .val v keys => (s, .val (if c.mode = 1 then copyConv c v else v) keys)
      | r => (s, r)

/-- Where element n goes: the key of its first half byte, or a fault. -/
def copyDst (s : State) (c : CopyCmd) (n : Nat) : Nat × Option EFault :=
  let is := copyIx (c.dims.map (fun d => d.1)) n
  let de := dotIx is (c.dims.map (fun d => d.2.2))
  let nibs := copyNibs c.dfmt
  if c.dsp then
    let a := nibAddr c.dst.toNat (de * nibs) 32
    let w := BitVec.ofNat 32 a.1
    match findTeam s c.iss.uid with
    | none => (0, some (engScrFault w .write))
    | some t =>
      match scrAccess s t w (max 1 (nibs / 2)) with
      | some (u, off) => (2 * byteKey (some u) off + a.2, none)
      | none => (0, some (engScrFault w .write))
  else
    let a := nibAddr c.dst.toNat (de * nibs) 64
    let va := BitVec.ofNat 64 a.1
    match translate s c.iss.root va .write none with
    | .ok x => (2 * x.pa + a.2, none)
    | .fault k x => (0, some { cls := k, addr := va, aux := x })

/-- What one unit of a command does: the half bytes written, the bytes it reads, and poison; or a fault. -/
inductive UnitRes where
  | ok (nibs : List (Nat × Nat)) (srcs : List Nat) (hop : Nat)
  | fault (f : EFault)
  deriving DecidableEq, Repr

/-- Half bytes of a code from a key on. -/
def nibsOf (key n code : Nat) : List (Nat × Nat) := (List.range n).map (fun i => (key + i, code / 16 ^ i % 16))

/-- Element n of a command that is no encode; its source's fault comes before its destination's (DEDUCED, log entry 109). -/
def copyElem (s : State) (c : CopyCmd) (n : Nat) : State × UnitRes :=
  match copyVal s c n with
  | (s, .fault f) => (s, .fault f)
  | (s, r) =>
    match copyDst s c n with
    | (_, some f) => (s, .fault f)
    | (key, none) =>
      let nibs := copyNibs c.dfmt
      match r with
      | .val v keys => (s, .ok (nibsOf key nibs v) keys 0)
      | .bad hop keys => (s, .ok (nibsOf key nibs 0) keys hop)
      | .fault f => (s, .fault f)

/-- The values of a block's 32 sources, its poison and the bytes read (R78). -/
def blockSrcs (s : State) (c : CopyCmd) (n0 : Nat) : Src × List FVal × List Nat :=
  (List.range 32).foldl (fun acc j =>
    match acc.1 with
    | .fault f => (.fault f, acc.2)
    | a =>
      match copyRaw s c (n0 + j) with
      | .fault f => (.fault f, acc.2)
      | .bad hop keys => (.bad hop [], acc.2.1 ++ [.nan false], acc.2.2 ++ keys)
      | .val v keys => (a, acc.2.1 ++ [((copyFloat c.sfmt).getD .fp32).val v], acc.2.2 ++ keys)) (.val 0 [], [], [])

/-- Where block m of an encode goes (R116, R124): the address of its first element, the half of it, and its translation. -/
def blockDst (s : State) (c : CopyCmd) (m : Nat) : DWord × Nat × XRes :=
  let is := copyIx (c.dims.map (fun d => d.1)) (32 * m)
  let de := dotIx is (c.dims.map (fun d => d.2.2))
  let a := nibAddr c.dst.toNat (de * pageNibs s c.iss.root c.dst) 64
  let va := BitVec.ofNat 64 a.1
  (va, a.2, translate s c.iss.root va .write (some [1, 2, 3, 4]))

/-- The place in its page of an element at an address, and the byte of its scale in copy A (R116). -/
def blockPlace (x : Xlat) (va : DWord) (half : Nat) : Nat × Nat :=
  let e0 := (va.toNat % 65536 * 2 + half) / halfBytes x.fmt
  (e0, x.side + scaleAt x.fmt e0)

/-- Block m of an encode command (R78, R116, R124): element bytes and both copies of the scale. A destination that does not
start a page block has free codes (log entry 18). -/
def copyBlock (s : State) (c : CopyCmd) (m : Nat) : State × UnitRes :=
  match blockSrcs s c (32 * m) with
  | (.fault f, _) => (s, .fault f)
  | (r, vs, srcs) =>
    let hop := match r with
      | .bad h _ => h
      | _ => 0
    match blockDst s c m with
    | (va, _, .fault k x) => (s, .fault { cls := k, addr := va, aux := x })
    | (va, half, .ok x) =>
      let nb := halfBytes x.fmt
      let (e0, sc) := blockPlace x va half
      let enc := mxEncode (mxOfPage x.fmt) vs
      let free := e0 % 32 ≠ 0
      let code := fun j => if free then Config.freeNat (s.fresh + 2 ^ 41 + 64 * m + j) % 16 ^ nb else enc.2.getD j 0
      let scale := if free then Config.freeNat (s.fresh + 2 ^ 41 + 64 * m + 32) % 256 else enc.1
      (s, .ok ((List.range 32).flatMap (fun j => nibsOf (2 * x.pa + half + nb * j) nb (code j)) ++
        nibsOf (2 * sc) 2 scale ++ nibsOf (2 * (sc + 4096)) 2 scale) srcs hop)

/-- The unit of a command: an element, or a block of 32 in an encode (R124, R127). -/
def CopyCmd.unit (c : CopyCmd) : Nat := if c.mode = 3 then 32 else 1

/-- Unit i of a command. -/
def copyUnit (s : State) (c : CopyCmd) (i : Nat) : State × UnitRes :=
  if c.mode = 3 then copyBlock s c i else copyElem s c i

/-- The number of units. -/
def CopyCmd.units (c : CopyCmd) : Nat := c.ne / c.unit

/-- The first unit at or above i that faults, among the k units from it. -/
def firstFault (s : State) (c : CopyCmd) : Nat → Nat → Option (Nat × EFault)
  | 0, _ => none
  | k + 1, i =>
    match (copyUnit s c i).2 with
    | .fault f => some (i, f)
    | .ok .. => firstFault s c k (i + 1)

/-- The fault that will freeze the command, if one will. -/
def copyFault (s : State) (c : CopyCmd) : Option (Nat × EFault) :=
  firstFault s c (c.units - c.n / c.unit) (c.n / c.unit)

/-! ### Performing units -/

/-- Bytes read and bytes written by all units that do not fault. -/
def copySpan (s : State) (c : CopyCmd) : List Nat × List Nat :=
  (List.range c.units).foldl (fun acc i =>
    match (copyUnit s c i).2 with
    | .ok nibs srcs _ => (acc.1 ++ srcs, acc.2 ++ nibs.map (fun k => k.1 / 2))
    | .fault _ => acc) ([], [])

/-- The bytes to which a unit's destination goes, by their keys, whatever its source holds. -/
def unitDst (s : State) (c : CopyCmd) (i : Nat) : List Nat :=
  if c.mode = 3 then
    match blockDst s c i with
    | (va, half, .ok x) =>
      let nb := halfBytes x.fmt
      let sc := (blockPlace x va half).2
      (List.range (32 * nb)).map (fun j => (2 * x.pa + half + j) / 2) ++ [sc, sc + 4096]
    | _ => []
  else
    match copyDst s c i with
    | (key, none) => (nibsOf key (copyNibs c.dfmt) 0).map (fun k => k.1 / 2)
    | _ => []

/-- The write is one that the command comes after: a store of its team that was issued before it (R130). -/
def Issue.follows (i : Issue) (r : WriteRec) : Bool :=
  match r.src with
  | some (u, k) => !r.bulk && u == i.uid && decide (k < i.bound)
  | none => false

/-- The byte of copy A that a byte written by unit nibbles stands beside (R117): an encode's last byte is copy B of its last but one,
and whatever befalls the two befalls both. -/
def pairKeys (c : CopyCmd) (nibs : List (Nat × Nat)) : List (Nat × Nat) :=
  if c.mode = 3 then ((nibs.drop (nibs.length - 2)).map (fun k => (k.1 / 2, k.1 / 2 - 4096))) else []

/-- Writes of others since the command first started, and the size of the aligned place that one writer keeps whole against one of
them (R132): 32 bytes against an engine command's, 4 against any other's. None covers the byte of the key where it is 0. -/
def rivalSize (s : State) (c : CopyCmd) (k : Nat) : Nat :=
  let rivals := (s.journal.drop c.mark).filter (fun r => r.cmd != some c.iss.seq)
  if rivals.any (fun w => w.bulk && recCovers k w) then 32 else if rivals.any (recCovers k) then 4 else 0

/-- The command keeps the byte of the key (R132): the same for a whole place, however often it starts. -/
def keepsByte (s : State) (c : CopyCmd) (k : Nat) : Bool :=
  let n := rivalSize s c k
  n == 0 || Config.freeNat (c.draw + 2 ^ 60 * n + k / n) % 2 == 0

/-- The byte of a key, written by a unit below lo, is written again (R132): the command keeps a place that another has written in, and
one of the units from lo on, which write the bytes own, writes in it too. -/
def againByte (s : State) (c : CopyCmd) (own : List Nat) (k : Nat) : Bool :=
  let n := rivalSize s c k
  n != 0 && own.any (fun x => x / n == k / n)

/-- What units lo to hi - 1 write (R124, R131), and what of the units below must go with it. Undefined are elements whose source was
written since the command was accepted, but by stores that it comes after, and those where its source and its destination overlap
(R132); against another command's writes each 32-byte sector, against other writes each word, keeps one of the two (R132). Both copies
of a scale are written as one (R117). -/
def copyOut (s : State) (c : CopyCmd) (lo hi : Nat) : State × EOut :=
  let since := (s.journal.drop c.born).filter (fun r => !c.iss.follows r)
  let span := copySpan s c
  let own := (seqFrom lo (hi - lo)).flatMap (unitDst s c)
  (List.range hi).foldl (fun (acc : State × EOut) j =>
    if j < lo && !(unitDst s c j).any (againByte s c own) then acc
    else
      match copyUnit acc.1 c j with
      | (s', .ok nibs srcs hop) =>
        let twins := pairKeys c nibs
        let goes := fun (b : Nat) =>
          let k := ((twins.find? (fun x => x.1 == b)).map Prod.snd).getD b
          keepsByte s c k && (decide (lo ≤ j) || againByte s c own k)
        let dsts := nibs.map (fun k => k.1 / 2)
        let undef := srcs.any (fun k => since.any (recCovers k) || span.2.contains k) || dsts.any (fun k => span.1.contains k)
        let ix := fun (i : Nat) => if c.mode = 3 ∧ nibs.length ≤ i + 2 then i - 2 else i
        let vals := if undef then
            nibs.zipIdx.map (fun k => (k.1.1, Config.freeNat (s.fresh + 2 ^ 42 + 128 * j + ix k.2) % 16))
          else nibs
        let o := { acc.2 with nibs := sputs 16 acc.2.nibs (vals.filter (fun k => goes (k.1 / 2))) }
        (s', if hop ≠ 0 then o.poison (dsts.filter goes) hop else o)
      | (s', .fault _) => (s', acc.2)) (s, EOut.empty)

/-- Units lo to hi - 1 performed. -/
def copyApply (s : State) (c : CopyCmd) (lo hi : Nat) : State :=
  let r := copyOut s c lo hi
  let s := putOut r.1 c.iss r.2
  { s with fresh := s.fresh + 2 ^ 100 }

/-- Units up to hi - 1 performed, and the command as it stops there (R127, R129). -/
def copyStop (s : State) (c : CopyCmd) (hi : Nat) : State × CopyCmd :=
  let lo := c.n / c.unit
  let s' := copyApply s c lo hi
  let o := (copyOut s c lo hi).2
  let keys := o.nibs.map (fun k => k.1 / 2) ++ o.bad.map Prod.fst
  (s', { c with n := hi * c.unit, iss := c.iss.begun s s' keys (openSectors (unitDst s c) c.units hi) })

/-! ### The queues -/

/-- A copy queue of a core. -/
def copyQ (c : CoreSt) (q : Bool) : List CopyCmd := if q then c.copy1 else c.copy0

/-- The core with a copy queue replaced. -/
def setCopyQ (c : CoreSt) (q : Bool) (l : List CopyCmd) : CoreSt := if q then { c with copy1 := l } else { c with copy0 := l }

/-- Entries in use (R118, R119). -/
def copyUsed (s : State) (l : List CopyCmd) : Nat := (l.filter (fun c => c.stage.queued && teamRuns s c.iss.uid)).length

/-- The command at the front of a queue (R119). -/
def copyFront (s : State) (core : Nat) (q : Bool) : Option CopyCmd :=
  (copyQ (coreOf s core) q).find? (fun c => c.stage.queued && teamRuns s c.iss.uid)

/-- The state with a copy command replaced. -/
def setCopy (s : State) (core : Nat) (q : Bool) (c : CopyCmd) : State :=
  let k := coreOf s core
  setCore s (setCopyQ k q ((copyQ k q).map (fun x => if x.iss.seq == c.iss.seq then c else x)))

/-- The state without a copy command. -/
def dropCopy (s : State) (core : Nat) (q : Bool) (seq : Nat) : State :=
  let k := coreOf s core
  setCore s (setCopyQ k q ((copyQ k q).filter (fun x => x.iss.seq != seq)))

/-- A yielded team goes on at its continuation (R134), or by the resume step where no lane of it is left (R277). -/
def copyContinue (s : State) (i : Issue) : State :=
  match findTeam s i.uid with
  | none => s
  | some t =>
    match t.block with
    | some (.copy n a) =>
      if n = i.seq then
        let t := { t with block := none }
        setTeam s (if t.active == 0 then resumeStep t else goto t a)
      else s
    | _ => s

/-- A command is placed on its queue, or held with a frozen one of its team (R118, R119); with the queue full the word
replays. -/
def copyAccept (s0 s : State) (t : Team) (c : CopyCmd) (k : State → Team → Out) : Out :=
  let core := coreOf s t.core
  let l := copyQ core c.qsel
  let held := t.handler.isNone && l.any (fun x => x.iss.uid == t.uid && x.stage == .frozen)
  if !held && decide (32 ≤ copyUsed s l) then .next s0
  else
    let c := { c with stage := if held then .heldBack else .waiting, born := s.journal.length }
    let s := setCore s (setCopyQ core c.qsel (l ++ [c]))
    k { s with nextSeq := s.nextSeq + 1 } (countFlag t c.iss.flag)

/-- The descriptor of a copy instruction, where its address in the lead lane is one that the instruction can read (R121). -/
def copyDesc (s : State) (t : Team) (a : Nat) (flag : Option Nat) (kind : CopyKind) : Option (CopyCmd × List Byte) :=
  let w := slot t (lead t) a
  if !readable s t (lead t) [a] || fld w 28 1 != 1 || (scrAccess s t w 128).isNone || w.toNat % 128 != 0 then none
  else
    let bs := readBlock s t w 128
    some (parseCopy (issueOf s t flag) kind bs, bs)

/-- The causes of ILLOP that a descriptor holds (R125): a misaligned pair for a value of b64, and the first check that fails. -/
def copyCauses (s : State) (a : Nat) (kind : CopyKind) (odd : CopyCmd → Bool) (t : Team) (_ : Mods) : List (Nat × Nat) :=
  match copyDesc s t a none kind with
  | some (c, bs) => (if odd c then [(0x05, 0)] else []) ++ (copyChecks c bs).map (fun n => (0x10, n))
  | none => []

/-- What a copy instruction does once its descriptor has passed (R118, R121): its address is checked, and the command is placed;
more is what else may stop it. -/
def copyIssue (s : State) (t : Team) (a : Nat) (flag : Option Nat) (kind : CopyKind) (more : CopyCmd → Option (State → Out))
    (k : State → Team → CopyCmd → Out) : Out :=
  let w := slot t (lead t) a
  withBlock s t w 128 128 fun _ =>
    let c := parseCopy (issueOf s t flag) kind (readBlock s t w 128)
    match more c with
    | some stop => stop s
    | none => copyAccept s { s with fresh := s.fresh + 2 ^ 20 } t c (fun s t => k s t c)

/-- tcopy (R133). -/
def execTcopy (a : BitVec 5) (f : BitVec 2) (s : State) : Out :=
  withCauses (.tcopy a f) s (fun _ => s1 a) (fun _ => []) (copyCauses s a.toNat .copy (fun _ => false)) fun t _ =>
    withLead s t (s1 a) []
      (copyIssue s t a.toNat (selFlag t f) .copy (fun _ => none) fun s t _ => .next (setTeam s (advance t)))

/-- tcopy.y (R134): the continuation is checked before the command is placed. A team that yields is not current (R309). -/
def execTcopyY (c : BitVec 5) (i : BitVec 17) (s : State) : Out :=
  withCauses (.tcopyY c i) s (fun _ => s1 c) (fun _ => []) (copyCauses s c.toNat .copy (fun _ => false)) fun t _ =>
    withLead s t (s1 c) [] (
      let a := branchTarget t i
      copyIssue s t c.toNat none .copy
        (fun _ => match toHeader s t a (fun s => .next s), (fetchWord s t a).2 with
          | .next s', .word w => if isHeader w then none else some (fun _ => .next s')
          | r, _ => some (fun _ => r))
        fun s t k => .next (dropRole (setTeam s { t with block := some (.copy k.iss.seq a) }) t))

/-- tcopyx (R126, R133). -/
def execTcopyx (a b : BitVec 5) (f : BitVec 2) (s : State) : Out :=
  withCauses (.tcopyx a b f) s (fun _ => s1 a ++ s1 b) (fun _ => []) (copyCauses s a.toNat (.extent 0) (fun _ => false)) fun t _ =>
    withLead s t (s1 a ++ s1 b) []
      (copyIssue s t a.toNat (selFlag t f) (.extent (slot t (lead t) b.toNat)) (fun _ => none) fun s t _ =>
        .next (setTeam s (advance t)))

/-- The upper slot of tfill's pair cannot be read (R22, R97, R158): an unbound one traps, a poisoned one loses the lane, and with a
pending one the instruction does nothing (R33). -/
def fillUpper (t : Team) (n : Nat) (s : State) (c : CopyCmd) : Option (State → Out) :=
  if c.dfmt ≠ 6 then none
  else if (slotReg t n).isNone then some (fun s => .next (raiseWide s t 0x0E 0 (BitVec.ofNat 64 (n * 256 + 1))))
  else if readsPoison s t (lead t) n then some (fun s => .next (loseLanes s t (wordAddr t) [regLoss (lead t)]))
  else if slotPending s t (lead t) n then some (fun s => .next (setTeam s (advance t)))
  else none

/-- tfill (R133): with a b64 destination the value is a pair (R22). -/
def execTfill (a b : BitVec 5) (f : BitVec 2) (s : State) : Out :=
  withCauses (.tfill a b f) s (fun _ => s1 a ++ s1 b) (fun _ => [])
    (copyCauses s a.toNat (.fill 0) (fun c => c.dfmt == 6 && b.toNat % 2 == 1)) fun t _ =>
    withLead s t (s1 a ++ s1 b) []
      (copyIssue s t a.toNat (selFlag t f) (.fill (slot t (lead t) (b.toNat + 1) ++ slot t (lead t) b.toNat))
        (fillUpper t (b.toNat + 1) s) fun s t _ => .next (setTeam s (advance t)))

/-- tquery's value (R135). -/
def queryValue (s : State) (t : Team) (sel : Nat) : Word :=
  let c := coreOf s t.core
  let mine := (c.copy0 ++ c.copy1).filter (fun x => x.iss.uid == t.uid)
  let frozen := mine.filter (fun x => x.stage == .frozen)
  match sel with
  | 0 => BitVec.ofNat 32 (32 - copyUsed s c.copy0)
  | 1 => BitVec.ofNat 32 (32 - copyUsed s c.copy1)
  | 2 => BitVec.ofNat 32 mine.length
  | 3 => BitVec.ofNat 32 frozen.length
  | _ =>
    match frozen with
    | [] => 0
    | x :: rest => BitVec.ofNat 32 (rest.foldl (fun acc y => if y.iss.seq < acc.iss.seq then y else acc) x).n

/-- tquery (R135). -/
def execTquery (d : BitVec 5) (sel : BitVec 12) (s : State) : Out :=
  withWord (.tquery d sel) s (fun _ => []) (fun _ => s1 d) fun t _ =>
    let ws := writeAll t d.toNat (queryValue s t sel.toNat)
    .next (setTeam (taint s t (ws.map Prod.fst)) (advance (writeRegs t ws)))

/-! ### Events -/

/-- COPY_START (R119, R120): the front command starts, with its leave if it needs one; its team's earlier stores are performed
before it reads (R130). -/
def execCopyStart (core : Nat) (q : Bool) (s : State) : Out :=
  match copyFront s core q with
  | none => notEnabled "COPY_START"
  | some c =>
    if s.bubble.isSome || c.stage == .running || (c.heavy s && !hasLeave s core c.iss.seq) then notEnabled "COPY_START"
    else
      let s := drainBelow (useLeave s core c.iss.seq) c.iss.uid core c.iss.bound
      let c := if c.n = 0 then { c with mark := s.journal.length, draw := s.fresh } else c
      .next (setCopy { s with fresh := s.fresh + 2 ^ 100 } core q { c with stage := .running })

/-- COPY_COMPLETE (R131): every element is performed, the flag decrements, the entry frees, and a yielded team goes on. -/
def execCopyComplete (core : Nat) (q : Bool) (s : State) : Out :=
  match copyFront s core q with
  | none => notEnabled "COPY_COMPLETE"
  | some c =>
    if s.bubble.isSome || c.stage != .running || (copyFault s c).isSome then notEnabled "COPY_COMPLETE"
    else
      let s := copyApply s c (c.n / c.unit) c.units
      .next (copyContinue (releaseOf (dropCopy s core q c.iss.seq) c.iss) c.iss)

/-- The later commands of a frozen command's team on its queue are held with it (R119). -/
def holdBack (uid seq : Nat) (l : List CopyCmd) : List CopyCmd :=
  l.map (fun x =>
    if x.iss.uid == uid && decide (seq < x.iss.seq) && (x.stage.queued || x.stage == .returning) && !x.iss.handler then
      { x with stage := .heldBack }
    else x)

/-- COPY_FREEZE (R127): the elements below the one that faults are performed, and the command waits for its delivery. -/
def execCopyFreeze (core : Nat) (q : Bool) (s : State) : Out :=
  match copyFront s core q with
  | none => notEnabled "COPY_FREEZE"
  | some c =>
    match s.bubble.isSome || c.stage != .running, copyFault s c with
    | false, some (i, f) =>
      let r := copyStop s c i
      let s := setCopy r.1 core q { r.2 with stage := .frozen, iss := { r.2.iss with record := some (freezeRec c.iss f) } }
      let k := coreOf s core
      .next (setCore s (setCopyQ k q (holdBack c.iss.uid c.iss.seq (copyQ k q))))
    | _, _ => notEnabled "COPY_FREEZE"

/-! ### After a trap (R119, R128) -/

/-- The queue after the return from a trap: the delivered commands and what is held with them go back to its front, behind
a running command, with the team's root; each takes the next entry that frees. -/
def thawQ (uid : Nat) (root : RootDesc) (seqs : List Nat) (l : List CopyCmd) : List CopyCmd :=
  let mine := fun (x : CopyCmd) => x.iss.uid == uid && (seqs.contains x.iss.seq ||
    (x.stage == .heldBack && !l.any (fun y => y.iss.uid == uid && y.stage == .frozen && !seqs.contains y.iss.seq)))
  let back := (l.filter mine).map (fun x =>
    if seqs.contains x.iss.seq then { x with stage := .returning, iss := { x.iss with root := root, record := none } }
    else { x with stage := .returning })
  l.filter (fun x => x.stage == .running) ++ back ++ l.filter (fun x => !mine x && x.stage != .running)

/-- The commands on their way back to a queue take the entries that are free, in their order (R119); k bounds their number. -/
def admitQ (s : State) : Nat → List CopyCmd → List CopyCmd
  | 0, l => l
  | k + 1, l =>
    match l.find? (fun x => x.stage == .returning && teamRuns s x.iss.uid) with
    | some x =>
      if copyUsed s l < 32 then
        admitQ s k (l.map (fun y => if y.iss.seq == x.iss.seq then { y with stage := .waiting } else y))
      else l
    | none => l

/-- Both copy queues of a core take their own back. -/
def admitCopy (s : State) (core : Nat) : State :=
  let c := coreOf s core
  setCore s { c with copy0 := admitQ s c.copy0.length c.copy0, copy1 := admitQ s c.copy1.length c.copy1 }

/-- Both queues of a core thawed for a team. -/
def thawCopy (s : State) (t : Team) (seqs : List Nat) : State :=
  let c := coreOf s t.core
  admitCopy (setCore s { c with copy0 := thawQ t.uid t.root seqs c.copy0, copy1 := thawQ t.uid t.root seqs c.copy1 }) t.core

/-- The delivered copy commands of a team cancelled (R128): their flags are released. -/
def cancelCopy (s : State) (t : Team) (seqs : List Nat) : State :=
  let c := coreOf s t.core
  let gone := (c.copy0 ++ c.copy1).filter (fun x => seqs.contains x.iss.seq)
  let s := gone.foldl (fun s x => releaseOf s x.iss) s
  let c := coreOf s t.core
  thawCopy (setCore s { c with
    copy0 := c.copy0.filter (fun x => !seqs.contains x.iss.seq), copy1 := c.copy1.filter (fun x => !seqs.contains x.iss.seq) })
    t seqs

/-- A running command stops at an element boundary (R129): a free number of elements are performed, and it waits again. -/
def stopCopy (s : State) (core : Nat) (q : Bool) (c : CopyCmd) : State :=
  if c.stage != .running then
    setCopy { s with dies := (withdraw s [c.iss.seq]).dies } core q
      { c with stage := if c.stage == .asking then .waiting else c.stage }
  else
    let lo := c.n / c.unit
    let top := match copyFault s c with
      | some (i, _) => i
      | none => c.units
    let r := copyStop { s with fresh := s.fresh + 1 } c (lo + Config.freeNat s.fresh % (top - lo + 1))
    setCopy r.1 core q { r.2 with stage := .waiting }

end Sys2Proof.Machine
end

