-- ==== Sys2Proof/Machine/Tile.lean ====
section
/-! DEFINITION. Planes, accumulator tiles and the arithmetic of the matrix array (R217, R221 to R223, R235, R236, R78), and
sketches (R244). -/

namespace Sys2Proof.Machine

/-! ### Tags and formats (R217, R222) -/

/-- K of a tag. -/
def tagK (tag : Nat) : Nat := if tag ≤ 1 then 32 else if tag = 8 then 128 else 64

/-- Half bytes of a stationary element of a tag. -/
def tagNibs (tag : Nat) : Nat := if tag ≤ 1 then 4 else if tag = 8 ∨ tag = 9 then 1 else 2

/-- Bytes of a column of a tag: 64, or 32 for q4n (R231). -/
def tagBytes (tag : Nat) : Nat := tagK tag * tagNibs tag / 2

/-- The tag has E8M0 scales, one for 32 elements of a column (R217). -/
def mxTag (tag : Nat) : Bool := decide (5 ≤ tag ∧ tag ≤ 8)

/-- The value of an element of a format code shared by A formats and tags: bf16, fp16, e4m3, e5m2, s8, then the MX element
formats (R217, R222). -/
def codeVal (f code : Nat) : FVal :=
  match f with
  | 0 | 9 => Fmt.bf16.val code
  | 1 => Fmt.fp16.val code
  | 2 | 5 => Fmt.e4m3.val code
  | 3 | 6 => Fmt.e5m2.val code
  | 7 => mxint8Val code
  | _ => Fmt.e2m1.val code

/-- Half bytes of an A element (R222). -/
def afNibs (af : Nat) : Nat := if af ≤ 1 ∨ af = 9 then 4 else if af = 8 then 1 else 2

/-- The A format has row scales. -/
def mxRow (af : Nat) : Bool := decide (5 ≤ af ∧ af ≤ 8)

/-- The K rows that an A format uses (R222). -/
def afRows (af : Nat) : List Nat :=
  if af ≤ 1 then List.range 32 else if af = 9 then seqFrom 32 32 else if af = 8 then List.range 128 else List.range 64

/-- Scale bytes that follow a row of an A format: one for each 32 elements (R225). -/
def afScales (af : Nat) : Nat := if mxRow af then (afRows af).length / 32 else 0

/-- The plane's tag pairs with an A format (R222). -/
def pairOk (af tag : Nat) : Bool :=
  match af with
  | 0 => tag == 0 || tag == 9
  | 9 => tag == 9
  | 1 => tag == 1
  | 2 | 3 => tag == 2 || tag == 3 || tag == 9
  | 4 => tag == 4
  | 5 | 6 => tag == 5 || tag == 6
  | 7 => tag == 7
  | 8 => tag == 8
  | _ => false

/-- The code of element j of a row of bytes (R68). -/
def rowCode (nibs : Nat) (bs : List Byte) (j : Nat) : Nat :=
  if nibs = 4 then natAt bs (2 * j) 2
  else if nibs = 2 then (bs.getD j 0).toNat
  else (bs.getD (j / 2) 0).toNat / (if j % 2 = 0 then 1 else 16) % 16

/-- The A elements of a row by the K row that each meets (R222): element j of bf16h meets row 32 + j. -/
def rowElems (af : Nat) (bs : List Byte) : List (Nat × Nat) :=
  (afRows af).zipIdx.map (fun kj => (kj.1, rowCode (afNibs af) bs kj.2))

/-! ### Planes (R217, R218) -/

/-- The plane of a team's start: zero elements with tag bf16 (R218). -/
def Plane.reset : Plane := { tag := 0, colTag := [], elems := [], scales := [], bad := [], loader := [] }

/-- The code W[k][c]. A column that an earlier tag was loaded with keeps its codes (R231); it has none where a code of that tag is
of another size, or its K smaller, and these are free (log entry 19). -/
def Plane.code (p : Plane) (free k c : Nat) : Nat :=
  let old := sget 0 p.colTag c
  if tagNibs old = tagNibs p.tag ∧ k < tagK old then sget 0 p.elems (k * 32 + c)
  else Config.freeNat (free + k * 32 + c) % 16 ^ tagNibs p.tag

/-- Scale j of column c: an E8M0 byte, or bs[c] of q4n as FP32 bits; free where the column was loaded without such a scale. -/
def Plane.scale (p : Plane) (free j c : Nat) : Nat :=
  let old := sget 0 p.colTag c
  if old = p.tag ∨ (mxTag old ∧ mxTag p.tag ∧ 32 * j < tagK old) then sget 0 p.scales (j * 32 + c)
  else Config.freeNat (free + 2 ^ 20 + j * 32 + c) % (if p.tag = 9 then 2 ^ 32 else 256)

/-- A plane with column c replaced by command number seq; the plane's tag is written with column 0 (R231). -/
def Plane.setCol (p : Plane) (seq tag c : Nat) (codes scales : List Nat) (bad : Bool) : Plane :=
  { tag := if c = 0 then tag else p.tag
    colTag := sput 0 p.colTag c tag
    elems := sputs 0 (sdrop p.elems (fun k => k % 32 == c)) (codes.zipIdx.map (fun x => (x.2 * 32 + c, x.1)))
    scales := sputs 0 (sdrop p.scales (fun k => k % 32 == c)) (scales.zipIdx.map (fun x => (x.2 * 32 + c, x.1)))
    bad := sput false p.bad c bad
    loader := sput 0 p.loader c (seq + 1) }

/-- The two planes exchanged (R217, R232). -/
def swapPlanes (t : Team) : Team := { t with plane := t.shadow, shadow := t.plane }

/-! ### Tiles (R221) -/

/-- The key of acc[t][r][c]. -/
def accKey (t r c : Nat) : Nat := (t * 128 + r) * 32 + c

/-- An accumulator element. -/
def accOf (t : Team) (k : Nat) : Word := sget 0 t.tiles k

/-- Elements written, with their poison. -/
def setAcc (t : Team) (ws : List (Nat × Nat × Bool)) : Team :=
  { t with
    tiles := ws.foldl (fun acc w => sput 0 acc w.1 (BitVec.ofNat 32 w.2.1)) t.tiles
    tileBad := ws.foldl (fun acc w => sput false acc w.1 w.2.2) t.tileBad }

/-- The accumulator row of a lane under a first tile (R221): tile and row. -/
def laneRow (t l : Nat) : Nat × Nat := (t + l / 128, l % 128)

/-! ### One A row (R223) -/

/-- A row of A: its format, its elements by K row, its scales, whether it is poisoned or undefined, and the accumulator row
that it updates: the tile's offset from the first tile, and the row. -/
structure ARow where
  af : Nat
  elems : List (Nat × Nat)
  xa : List Nat
  bad : Bool
  undef : Bool
  tile : Nat
  row : Nat
  deriving DecidableEq, Repr

/-- A signed byte. -/
def s8Val (c : Nat) : Int := if c % 256 < 128 then (c % 256 : Nat) else (c % 256 : Nat) - 256

/-- val(a[k]) with its scale (R223). -/
def aVal (r : ARow) (k code : Nat) : FVal :=
  let v := codeVal r.af code
  if mxRow r.af then mxScale v (r.xa.getD (k / 32) 0) else v

/-- The new element of R223 in column c over the old one. -/
def accNew (p : Plane) (free : Nat) (r : ARow) (c old : Nat) : Nat :=
  let w := fun k => p.code free k c
  if r.af = 4 then
    wrapInt 32 ((old : Int) + r.elems.foldl (fun acc e => acc + s8Val e.2 * s8Val (w e.1)) 0)
  else if p.tag = 9 then
    let s := windowSum (r.elems.map (fun e => (fMul (aVal r e.1 e.2) (q4nVal (w e.1))).1))
    let q := rne .fp32 (fMul (Fmt.fp32.val s) (Fmt.fp32.val (p.scale free 0 c))).1
    windowSum [Fmt.fp32.val q, Fmt.fp32.val old]
  else
    let wv := fun k =>
      let v := codeVal p.tag (w k)
      if mxTag p.tag then mxScale v (p.scale free (k / 32) c) else v
    windowSum (r.elems.map (fun e => (fMul (aVal r e.1 e.2) (wv e.1)).1) ++ [Fmt.fp32.val old])

/-- A row streamed into a tile of a team (R223, R96): an element computed from poison is poisoned, and a row whose operand
is undefined has undefined elements (R224). -/
def streamRow (free : Nat) (t : Team) (tile : Nat) (r : ARow) : Team :=
  setAcc t ((List.range 32).map (fun c =>
    let k := accKey (tile + r.tile) r.row c
    let v := if r.undef then Config.freeNat (free + 2 ^ 30 + k) % 2 ^ 32
      else accNew t.plane free r c (accOf t k).toNat
    (k, v, r.bad || sget false t.plane.bad c || sget false t.tileBad k)))

/-- One row of mscale (R235) by a factor. -/
def scaleRow (free : Nat) (t : Team) (tr : Nat × Nat) (factor : Nat) (bad undef : Bool) : Team :=
  setAcc t ((List.range 32).map (fun c =>
    let k := accKey tr.1 tr.2 c
    let v := if undef then Config.freeNat (free + 2 ^ 30 + k) % 2 ^ 32
      else rne .fp32 (fMul (Fmt.fp32.val (accOf t k).toNat) (Fmt.fp32.val factor)).1
    (k, v, bad || sget false t.tileBad k)))

/-! ### mdrain (R236) -/

/-- The MX element format of a DF code. -/
def drainMx (df : Nat) : MxFmt :=
  match df with
  | 2 => .e4m3
  | 3 => .e5m2
  | 4 => .e2m1
  | _ => .int8

/-- Bytes of a drained row. -/
def drainSize (df : Nat) : Nat := if df = 0 then 128 else if df = 1 then 64 else if df = 4 then 16 else 32

/-- The bytes of a drained row, and the scale byte of an MX format. -/
def drainRow (df : Nat) (vs : List Nat) : List Byte × Nat :=
  if df = 0 then (vs.flatMap (bytesOf 4), 0)
  else if df = 1 then (vs.flatMap (fun v => bytesOf 2 (convF .bf16 0 false false false (Fmt.fp32.val v)).1), 0)
  else
    let e := mxEncode (drainMx df) (vs.map Fmt.fp32.val)
    if df = 4 then
      ((List.range 16).map (fun i => BitVec.ofNat 8 (e.2.getD (2 * i) 0 % 16 + 16 * (e.2.getD (2 * i + 1) 0 % 16))), e.1)
    else (e.2.map (fun x => BitVec.ofNat 8 x), e.1)

/-! ### Sketches (R244) -/

/-- The sketch of a value; none for a NaN. -/
def sketch : FVal → Option Int
  | .nan _ => none
  | .inf neg => some (if neg then -32768 else 32768)
  | .fin neg m e =>
    if m = 0 then some 0
    else
      let g := (max 0 (min 15 (ilog m e + 8))).toNat
      some (if neg then -((2 ^ g : Nat) : Int) else ((2 ^ g : Nat) : Int))

end Sys2Proof.Machine
end

