-- ==== Sys2Proof/Machine/Matrix.lean ====
section
/-! DEFINITION. The matrix queue and the acceptance of matrix and sieve commands (R219, R224 to R226, R231 to R240, R246 to
R250, R253). -/

namespace Sys2Proof.Machine

/-! ### The queue (R219) -/

/-- The operation is the marker of mfence. -/
def MatOp.isFence (o : MatOp) : Bool :=
  match o with
  | .mfence => true
  | _ => false

/-- The operation is paired while its team is (R241). -/
def MatOp.streams (o : MatOp) : Bool :=
  match o with
  | .mma .. | .mmas .. | .mmak .. => true
  | _ => false

/-- A command that stands in its queue: in an entry, or a marker, of a team that is not saved. -/
def matLive (s : State) (c : MatCmd) : Bool := c.stage.queued && teamRuns s c.iss.uid

/-- Entries in use. -/
def matUsed (s : State) (core : Nat) : Nat :=
  ((coreOf s core).mat.filter (fun c => matLive s c && !c.op.isFence)).length

/-- The state with a matrix command replaced. -/
def setMat (s : State) (core : Nat) (c : MatCmd) : State :=
  let k := coreOf s core
  setCore s { k with mat := k.mat.map (fun x => if x.iss.seq == c.iss.seq then c else x) }

/-- The state without a matrix command. -/
def dropMat (s : State) (core seq : Nat) : State :=
  let k := coreOf s core
  setCore s { k with mat := k.mat.filter (fun x => x.iss.seq != seq) }

/-- The main registers that an operation reads asynchronously, and the lanes (R224, R235). -/
def asyncKeys (o : MatOp) : List (Nat × Nat) :=
  match o with
  | .mma a b _ _ _ lanes => (lanesOf lanes).flatMap (fun l => (a ++ b.toList).map (fun r => (l, regKey l r)))
  | .mscale a _ lanes => (lanesOf lanes).map (fun l => (l, regKey l a))
  | _ => []

/-- A command placed on the queue with the number it takes among paired commands (R219, R241); with the queue full the word
replays. -/
def matAccept (s0 s : State) (t : Team) (flag : Option Nat) (op : MatOp) (k : State → Team → Out) : Out :=
  if 32 ≤ matUsed s t.core then .next s0
  else
    let pair := if op.streams then t.paired.map (fun p => (t.pairCount, p.1, p.2)) else none
    let owed := pendKeys s t
    let c : MatCmd :=
      { iss := issueOf s t flag, op := op, stage := .waiting, n := 0, swapped := false, buf := []
        cfg := none, pair := pair, posted := none
        taint := ((asyncKeys op).filter (fun k => owed.contains k.2)).map Prod.fst, gone := [], mark := s.journal.length, tag := 0
        read := [] }
    let core := coreOf s t.core
    let s := setCore s { core with mat := core.mat ++ [c] }
    k { s with nextSeq := s.nextSeq + 1 }
      (countFlag { t with pairCount := if pair.isSome then t.pairCount + 1 else t.pairCount } flag)

/-! ### Acceptance checks (R226, R248) -/

/-- As withWord, with checks of R226 and R248: the numbers of those that fail, reason 0x11. -/
def withChecks (i : Instr) (s : State) (chk : Team → List Nat) (reads writes : Mods → List Nat)
    (k : Team → Mods → Out) : Out :=
  withCauses i s reads writes (fun t _ => (chk t).map (fun n => (0x11, n))) k

/-- A condition on operand words that the lead lane can read for it. -/
def ifRead (s : State) (t : Team) (srcs : List Nat) (b : Bool) : Bool := readable s t (lead t) srcs && b

/-- ALIGN at acceptance (R226): the record's address holds the base. -/
def matAlign (s : State) (t : Team) (base : DWord) : Out := .next (raiseWide s t 0x03 base 0)

/-- The team at its next word. -/
def matNext (s : State) (t : Team) : Out := .next (setTeam s (advance t))

/-- The operand slots of a base: a scratch address, or a pair with a virtual address. -/
def baseSlots (a : BitVec 5) (sp : Bool) : List Nat := if sp then s1 a else s2 a

/-- A base as read in the lowest active lane. -/
def readBase (s : State) (t : Team) (a : BitVec 5) (sp : Bool) : DWord :=
  if sp then (readSlot s t (lead t) a.toNat).setWidth 64 else readSlot64 s t (lead t) a.toNat

/-- The main registers of slots. -/
def regsOf (t : Team) (ns : List Nat) : List Nat := ns.filterMap (slotReg t)

/-! ### Commands -/

/-- wload (R231). -/
def execWload (a b : BitVec 5) (f : BitVec 2) (k : BitVec 4) (q : BitVec 1) (s : State) : Out :=
  let srcs := baseSlots a (q == 1) ++ s1 b
  withChecks (.wload a b f k q) s (fun _ => because (k == 5 && q == 1) 2) (fun _ => srcs) (fun _ => []) fun t _ =>
    withLead s t srcs []
      (matAccept s (bump s t) t (selFlag t f)
        (.wload (readBase s t a (q == 1)) ((readSlot s t (lead t) b.toNat).setWidth 64) k.toNat (q == 1)) matNext)

/-- mswap (R232). -/
def execMswap (s : State) : Out :=
  withWord .mswap s (fun _ => []) (fun _ => []) fun t _ => matAccept s s t none .mswap matNext

/-- mzero (R233). -/
def execMzero (n t : BitVec 5) (s : State) : Out :=
  withChecks (.mzero n t) s (fun x => because (decide (x.hdr.accum < t.toNat + n.toNat + 1)) 1) (fun _ => []) (fun _ => [])
    fun x _ => matAccept s s x none (.mzero (n.toNat + 1) t.toNat) matNext

/-- mma (R224, R234): its lanes are the active ones. -/
def execMma (a b : BitVec 5) (f : BitVec 2) (t : BitVec 5) (k : BitVec 4) (w : BitVec 1) (s : State) : Out :=
  let scale := if mxAf k then s1 b else []
  withChecks (.mma a b f t k w) s (fun x => because (decide (x.hdr.accum < t.toNat + x.hdr.grps)) 1)
    (fun _ => slotsFrom a 16 ++ scale) (fun _ => []) fun x _ =>
      matAccept s s x (selFlag x f)
        (.mma (regsOf x (slotsFrom a 16)) (regsOf x scale).head? t.toNat k.toNat (w == 1) x.active) matNext

/-- mmas (R225, R234). -/
def execMmas (a b : BitVec 5) (f : BitVec 2) (t : BitVec 5) (k : BitVec 4) (w : BitVec 1) (s : State) : Out :=
  withChecks (.mmas a b f t k w) s
    (fun x => because (decide (x.hdr.accum ≤ t.toNat)) 1 ++
      because (ifRead s x (s1 b) (decide (127 < (fld (slot x (lead x) b.toNat) 0 8).toNat))) 2)
    (fun _ => s1 a ++ s1 b) (fun _ => []) fun x _ =>
      withLead s x (s1 a ++ s1 b) [] (
        let base := readSlot s x (lead x) a.toNat
        let ctl := readSlot s x (lead x) b.toNat
        let s' := bump s x
        if base.toNat % 4 ≠ 0 ∨ (fld ctl 8 24).toNat % 4 ≠ 0 then matAlign s' x (base.setWidth 64)
        else matAccept s s' x (selFlag x f) (.mmas base ctl t.toNat k.toNat (w == 1)) matNext)

/-- mscale (R235). -/
def execMscale (a : BitVec 5) (f : BitVec 2) (t : BitVec 5) (s : State) : Out :=
  withChecks (.mscale a f t) s (fun x => because (decide (x.hdr.accum < t.toNat + x.hdr.grps)) 1) (fun _ => s1 a)
    (fun _ => []) fun x _ =>
      matAccept s s x (selFlag x f) (.mscale ((slotReg x a.toNat).getD 0) t.toNat x.active) matNext

/-- mdrain (R236). -/
def execMdrain (a b : BitVec 5) (f : BitVec 2) (t : BitVec 5) (k : BitVec 4) (q : BitVec 1) (s : State) : Out :=
  let srcs := baseSlots a (q == 1) ++ s2 b
  withChecks (.mdrain a b f t k q) s
    (fun x => because (decide (x.hdr.accum ≤ t.toNat)) 1 ++
      because (ifRead s x [b.toNat + 1] (decide (127 < (fld (slot x (lead x) (b.toNat + 1)) 0 8).toNat))) 2)
    (fun _ => srcs) (fun _ => []) fun x _ =>
      withLead s x srcs [] (
        let base := readBase s x a (q == 1)
        let rstr := readSlot s x (lead x) b.toNat
        let ctl := readSlot s x (lead x) (b.toNat + 1)
        let s' := bump s x
        if base.toNat % 16 ≠ 0 ∨ rstr.toNat % 16 ≠ 0 then matAlign s' x base
        else matAccept s s' x (selFlag x f) (.mdrain base (rstr.setWidth 64) ctl t.toNat k.toNat (q == 1)) matNext)

/-- mread (R237): its eight registers are pending until the command is performed (R31, R33). -/
def execMread (d : BitVec 5) (g : BitVec 2) (t : BitVec 5) (s : State) : Out :=
  withChecks (.mread d g t) s (fun x => because (decide (x.hdr.accum < t.toNat + x.hdr.grps)) 1) (fun _ => [])
    (fun _ => slotsFrom d 8) fun x _ =>
      match flagNo x.clause.seta with
      | none => .next (raiseIll s x 0x0E 0)
      | some fl =>
        let regs := regsOf x (slotsFrom d 8)
        let p : Pend :=
          { seq := s.nextSeq, flag := fl, wait := .matrix, dests := (lanesOf x.active).flatMap (fun l => regs.map (regKey l))
            writes := [], vas := [], losses := [], contested := [], pc := wordAddr x, handler := x.handler.isSome
            again := [], home := false, acquires := false }
        matAccept s s x none (.mread regs t.toNat g.toNat x.active) fun s x =>
          matNext s (countFlag { x with pend := x.pend ++ [p] } (some fl))

/-- mpair (R240): it takes effect for commands accepted after it, and takes an entry of the queue as they do (R219; log entry 41).
The partner is the team of the cluster on the core whose x differs in bit 0; without one either form raises check 3 (R226). -/
def execMpair (o : BitVec 1) (s : State) : Out :=
  let mate := fun (x : Team) => s.teams.find? (fun y =>
    y.ctx == x.ctx && y.grid == x.grid && y.clus == x.clus && y.core == x.core ^^^ 1)
  withChecks (.mpair o) s
    (fun x => if x.hdr.harvest then [4] else because (mate x).isNone 3) (fun _ => []) (fun _ => []) fun x _ =>
      let p := if o = 1 then (mate x).map (fun y => (y.uid, x.core % 2 == 0)) else none
      matAccept s s x none .mpair fun s x => matNext s { x with paired := p }

/-- mfence (R238, R239): a marker in the queue. -/
def execMfence (s : State) : Out :=
  withWord .mfence s (fun _ => []) (fun _ => []) fun t _ =>
    let c : MatCmd :=
      { iss := issueOf s t none, op := .mfence, stage := .waiting, n := 0, swapped := false, buf := [], cfg := none, pair := none
        posted := none, taint := [], gone := [], mark := s.journal.length, tag := 0, read := [] }
    let core := coreOf s t.core
    let s := setCore s { core with mat := core.mat ++ [c] }
    matNext { s with nextSeq := s.nextSeq + 1 } t

/-- scfg (R246). -/
def execScfg (a b : BitVec 5) (f : BitVec 2) (s : State) : Out :=
  withCauses (.scfg a b f) s (fun _ => s1 a ++ s2 b) (fun _ => [])
    (fun t _ =>
      let ctl := slot t (lead t) (b.toNat + 1)
      if ifRead s t [b.toNat + 1] (fld ctl 12 4 != 0 || fld ctl 3 1 != 0) then [(0x04, 0)] else []) fun t _ =>
    withLead s t (s1 a ++ s2 b) [] (
      let base := readSlot s t (lead t) a.toNat
      let tau := readSlot s t (lead t) b.toNat
      let ctl := readSlot s t (lead t) (b.toNat + 1)
      let s' := bump s t
      if base.toNat % 4 ≠ 0 ∨ (fld ctl 16 16).toNat % 4 ≠ 0 then matAlign s' t (base.setWidth 64)
      else matAccept s s' t (selFlag t f) (.scfg base tau ctl) matNext)

/-! ### Sieve descriptors (R247) -/

/-- A descriptor from its 32 bytes. -/
def sieveDesc (bs : List Byte) : SieveDesc :=
  { xlst := dwordAt bs 0, sctl := wordAt bs 8, koff := wordAt bs 12, pos := wordAt bs 16 }

/-- A reserved field is set, or XLST or KOFF is not aligned (R248 check 5). -/
def sieveBad (bs : List Byte) : Bool :=
  let d := sieveDesc bs
  fld d.sctl 25 7 != 0 || fld d.sctl 10 6 != 0 || natAt bs 20 12 != 0 || d.xlst.toNat % 16 != 0 || d.koff.toNat % 64 != 0

/-- Tiles of a descriptor. -/
def SieveDesc.nt (d : SieveDesc) : Nat := (fld d.sctl 0 10).toNat + 1

/-- Keys of tile t. -/
def SieveDesc.keys (d : SieveDesc) (t : Nat) : Nat := if t + 1 = d.nt then (fld d.sctl 20 5).toNat + 1 else 32

/-- Check 5 of a descriptor whose address the instruction can read (R248). -/
def sieveCheck (s : State) (t : Team) (a : Nat) : List Nat :=
  let w := slot t (lead t) a
  because (ifRead s t [a] (fld w 28 1 == 1 && (scrAccess s t w 32).isSome && w.toNat % 32 == 0 && sieveBad (readBlock s t w 32))) 5

/-- The descriptor at the address in slot a, read at issue (R248). -/
def withSieve (s : State) (t : Team) (a : Nat) (k : State → SieveDesc → Out) : Out :=
  let w := readSlot s t (lead t) a
  withBlock s t w 32 32 fun _ => k { bump s t with fresh := (bump s t).fresh + 2 ^ 20 } (sieveDesc (readBlock s t w 32))

/-- sieve (R250): M is resolved to its main register at issue. -/
def execSieve (a b : BitVec 5) (f : BitVec 2) (s : State) : Out :=
  withChecks (.sieve a b f) s (fun t => sieveCheck s t a.toNat) (fun _ => s1 a) (fun _ => s1 b) fun t _ =>
    withLead s t (s1 a) []
      (withSieve s t a.toNat fun s' d =>
        matAccept s s' t (selFlag t f) (.sieve d ((slotReg t b.toNat).getD 0)) matNext)

/-- Word l of the mask that mmak reads: slot M of lane l, whatever its state (R253). A poisoned register of a lane that is
not live gives a free value. -/
def maskWord (s : State) (t : Team) (m l : Nat) : Word :=
  if slotPoisoned t l m then freeBits 32 (s.fresh + 2 ^ 18 + l) else readSlot s t l m

/-- The first up to n tiles from j on that the mask keeps, among the k tiles from j (R253). -/
def selectTiles (keep : Nat → Bool) : Nat → Nat → Nat → List Nat
  | 0, _, _ => []
  | k + 1, n, j =>
    if n = 0 then [] else if keep j then j :: selectTiles keep k (n - 1) (j + 1) else selectTiles keep k n (j + 1)

/-- mmak (R253): the pair is written at issue in every active lane. -/
def execMmak (a b : BitVec 5) (f : BitVec 2) (t m : BitVec 5) (s : State) : Out :=
  withChecks (.mmak a b f t m) s (fun x => because (decide (x.hdr.accum ≤ t.toNat)) 1 ++ sieveCheck s x a.toNat)
    (fun _ => s1 a ++ s1 b ++ s1 m) (fun _ => s2 b) fun x _ =>
      withLead s x (s1 a ++ s1 b) (s2 b)
        (consume s x ((List.range 32).filter (fun l => x.live.getLsbD l)) (s1 m)
          (withSieve s x a.toNat fun s' d =>
            let first := (readSlot s x (lead x) b.toNat).toNat
            let keep := fun j => (maskWord s x m.toNat (j / 32)).getLsbD (j % 32)
            let sel := selectTiles keep (d.nt - first) 4 first
            let next := if sel.length < 4 then d.nt else sel.getLastD 0 + 1
            matAccept s s' x (selFlag x f) (.mmak d sel t.toNat) fun s'' x =>
              let ws := (lanesOf x.active).flatMap (fun l =>
                (regsOf x (s2 b)).zip [BitVec.ofNat 32 next, BitVec.ofNat 32 sel.length] |>.map
                  (fun rv => (regKey l rv.1, rv.2)))
              matNext (taint s'' x (ws.map Prod.fst)) (writeRegs x ws)))

end Sys2Proof.Machine
end

