-- ==== Sys2Proof/Machine/Array.lean ====
section
/-! DEFINITION. The matrix array and the sieve unit at work: the rows, columns and tiles of a command, and its start,
completion, freezing and pairing (R218 to R254). -/

namespace Sys2Proof.Machine

/-! ### Reads -/

/-- A 64-byte line of a scratchpad as the core's operand line buffer serves it (R229): a line whose bytes changed behind the
buffer is the old one or the new one. -/
def bufLine (s : State) (core : Nat) (x : Team) (ln : Nat) : State × List Byte :=
  let now := scrBytes x (64 * ln) 64
  let b : BufLine := { core := core, uid := x.uid, off := 64 * ln, data := now }
  let mine := fun (y : BufLine) => y.core == core && y.uid == x.uid && y.off == 64 * ln
  match s.opbuf.find? mine with
  | none => ({ s with opbuf := s.opbuf ++ [b] }, now)
  | some y =>
    if y.data == now then (s, now)
    else
      let s := { s with fresh := s.fresh + 1 }
      if freeBits 1 (s.fresh - 1) = 0 then (s, y.data)
      else ({ s with opbuf := s.opbuf.map (fun z => if mine z then b else z) }, now)

/-- n bytes of a scratchpad through the operand line buffer. -/
def bufRead (s : State) (core : Nat) (x : Team) (off n : Nat) : State × List Byte :=
  let r := (List.range ((off + n + 63) / 64 - off / 64)).foldl (fun (acc : State × List Byte) i =>
    let l := bufLine acc.1 core x (off / 64 + i)
    (l.1, acc.2 ++ l.2)) (s, [])
  (r.1, (r.2.drop (off % 64)).take n)

/-- A row that a matrix or sieve command reads from scratchpad (R225, R229). -/
def matScratch (s : State) (i : Issue) (a : Word) (n : Nat) : State × ERead :=
  match findTeam s i.uid with
  | none => (s, .fault (engScrFault a .read))
  | some t =>
    match (scrAccess s t a n).bind (fun vo => (findTeam s vo.1).map (fun x => (x, vo.2))) with
    | none => (s, .fault (engScrFault a .read))
    | some (x, off) =>
      let r := bufRead s i.core x off n
      (r.1, .ok r.2 ((seqFrom off n).map (byteKey (some x.uid))) (if scrPoisoned x off n then 7 else 0))

/-- A key of a sieve descriptor (R247): its bytes, its two block scales and its page format; poison, with the page format where
the page is known; or a fault. -/
inductive KeyRes where
  | key (bytes : List Byte) (scales : List Nat) (fmt : Nat)
  | bad (fmt : Option Nat)
  | fault (f : EFault)
  deriving DecidableEq, Repr

/-- Key i of tile t (R247). The scales of a page are settled wherever its elements are (R116, R117). -/
def readKey (s : State) (iss : Issue) (d : SieveDesc) (t i : Nat) : State × KeyRes :=
  let p := (d.pos.toNat + 32 * t + i) % 2 ^ 32
  let ko := d.koff.toNat
  match kvFind s iss.root d.xlst (fun b => b % 64 == 0 && decide (ko + 64 ≤ b)) p ((fld d.sctl 16 4).toNat + 1) 0 0 with
  | .fault f => (s, .fault f)
  | .bad _ _ => (s, .bad none)
  | .base b =>
    let va := b + BitVec.ofNat 64 ko
    if va.toNat % 64 ≠ 0 then (s, .fault { cls := 0x03, addr := va, aux := 0 })
    else
      match translate s iss.root va .read (some [1, 2]) with
      | .fault k x => (s, .fault { cls := k, addr := va, aux := x })
      | .ok x =>
        let off := scaleAt x.fmt (va.toNat % 65536)
        match readSide s x.side off 2 with
        | .conflict pa => (s, .fault { cls := 0x17, addr := va, aux := BitVec.ofNat 64 pa })
        | .bad _ => (s, .bad (some x.fmt))
        | .good sc =>
          let s := repairSide s x.side off
          if isPeer x.pa || iss.owes s va 64 then
            (s, .key ((List.range 64).map (fun j => freeBits 8 (s.fresh + 2 ^ 40 + x.pa + j))) (sc.map BitVec.toNat) x.fmt)
          else if hopOf s x.pa 64 ≠ 0 then (s, .bad (some x.fmt))
          else (s, .key (homeBytes s x.pa 64) (sc.map BitVec.toNat) x.fmt)

/-! ### Units of a command -/

/-- Rows of a row control or a drain control: RCNT + 1 (R225, R236). -/
def rowCount (w : Word) : Nat := (fld w 0 8).toNat + 1

/-- The rows of mmak (R253): tile, key, accumulator row. -/
def mmakRows (d : SieveDesc) (sel : List Nat) : List (Nat × Nat × Nat) :=
  sel.zipIdx.flatMap (fun tm => (List.range (d.keys tm.1)).map (fun i => (tm.1, i, 32 * tm.2 + i)))

/-- Units of an operation: columns, rows, tiles, or one. -/
def MatOp.units (o : MatOp) : Nat :=
  match o with
  | .wload .. => 32
  | .mma _ _ _ _ _ lanes => (lanesOf lanes).length
  | .mmas _ ctl _ _ _ => rowCount ctl
  | .mmak d sel _ => (mmakRows d sel).length
  | .mscale _ _ lanes => (lanesOf lanes).length
  | .mdrain _ _ ctl _ _ _ => rowCount ctl
  | .sieve d _ => d.nt
  | .mswap | .mzero .. | .mread .. | .scfg .. | .mfence | .mpair => 1

/-- The first tile of a streaming operation. -/
def MatOp.tile (o : MatOp) : Nat :=
  match o with
  | .mma _ _ t _ _ _ | .mmas _ _ t _ _ | .mmak _ _ t => t
  | _ => 0

/-- Kind and A format, as the cinch compares them (R242). -/
def MatOp.kind (o : MatOp) : Nat × Nat :=
  match o with
  | .mma _ _ _ af _ _ => (0, af)
  | .mmas _ _ _ af _ => (1, af)
  | .mmak .. => (2, 0)
  | _ => (3, 0)

/-- The operation swaps the planes first (R234). -/
def MatOp.swaps (o : MatOp) : Bool :=
  match o with
  | .mma _ _ _ _ sw _ => sw
  | .mmas _ _ _ _ sw => sw
  | _ => false

/-- Row k of a streaming command (R224, R225, R253). -/
def fetchRow (s : State) (c : MatCmd) (k : Nat) : State × Except EFault ARow :=
  match c.op, findTeam s c.iss.uid with
  | .mma a b _ af _ lanes, some t =>
    let l := (lanesOf lanes).getD k 0
    let bs := a.flatMap (fun r => bytesOf 4 (reg t l r).toNat)
    let xa := match b with
      | some r => (bytesOf 4 (reg t l r).toNat).map BitVec.toNat
      | none => []
    (s, .ok { af := af, elems := rowElems af bs, xa := xa, bad := (a ++ b.toList).any (regPoisoned t l)
              undef := c.taint.contains l, tile := l / 128, row := l % 128 })
  | .mmas base ctl _ af _, _ =>
    match matScratch s c.iss (base + BitVec.ofNat 32 (k * (fld ctl 8 24).toNat)) (64 + afScales af) with
    | (s, .fault f) => (s, .error f)
    | (s, .ok bs _ hop) =>
      (s, .ok { af := af, elems := rowElems af bs, xa := (bs.drop 64).map BitVec.toNat, bad := hop != 0, undef := false
                tile := 0, row := k })
  | .mmak d sel _, _ =>
    let r := (mmakRows d sel).getD k (0, 0, 0)
    match readKey s c.iss d r.1 r.2.1 with
    | (s, .fault f) => (s, .error f)
    | (s, .bad fmt) =>
      (s, .ok { af := 4 + fmt.getD 1, elems := [], xa := [], bad := true, undef := true, tile := 0, row := r.2.2 })
    | (s, .key bs sc fmt) =>
      (s, .ok { af := 4 + fmt, elems := rowElems (4 + fmt) bs, xa := sc, bad := false, undef := false, tile := 0
                row := r.2.2 })
  | _, _ => (s, .ok { af := 0, elems := [], xa := [], bad := false, undef := true, tile := 0, row := 0 })

/-- A pair that R222 does not accept (R227): ILLOP with reason 0x12, AF and the plane's tag. -/
def pairFault (c : MatCmd) (af tag : Nat) : EFault :=
  { cls := 0x01, addr := 0, aux := BitVec.ofNat 64 (c.iss.word.toNat + 0x12 * 2 ^ 32 + af * 2 ^ 40 + tag * 2 ^ 44) }

/-- The commands whose active plane an A format does not pair with (R222, R227). -/
def pairFaults (s : State) (cs : List MatCmd) (af : Nat) : List (Nat × EFault) :=
  cs.filterMap (fun c => (findTeam s c.iss.uid).bind (fun t =>
    if pairOk af t.plane.tag then none else some (c.iss.seq, pairFault c af t.plane.tag)))

/-- Row k of the commands of a pair that do not give it (R241): read and checked, and ignored; those that fault. -/
def idleRows (cs : List MatCmd) (k : Nat) (s : State) : State × List (Nat × EFault) :=
  cs.foldl (fun acc c =>
    if c.op.units ≤ k then acc
    else
      match fetchRow acc.1 c k with
      | (s, .error f) => (s, acc.2 ++ [(c.iss.seq, f)])
      | (s, .ok _) => (s, acc.2)) (s, [])

/-- Row k of src streamed into the tiles of the commands (R223, R241), or the faults, each with its command's number. Of mma and mmas
the pair is checked before any row is read, of mmak as the row starts (R222, R253). -/
def streamStep (s : State) (src : MatCmd) (cs : List MatCmd) (k : Nat) : State × List (Nat × EFault) :=
  match pairFaults s cs src.op.kind.2 with
  | f :: fs => if src.op.kind.1 < 2 then (s, f :: fs) else streamIt s src cs k
  | [] => streamIt s src cs k
where
  /-- The row itself. -/
  streamIt (s : State) (src : MatCmd) (cs : List MatCmd) (k : Nat) : State × List (Nat × EFault) :=
    let idle := idleRows (cs.filter (fun c => c.iss.seq != src.iss.seq)) k s
    match fetchRow idle.1 src k with
    | (s, .error f) => (s, (src.iss.seq, f) :: idle.2)
    | (s, .ok r) =>
      match pairFaults s cs r.af ++ idle.2 with
      | [] =>
        (cs.foldl (fun s c =>
          match findTeam s c.iss.uid with
          | some t => setTeam s (streamRow (s.fresh + 2 ^ 43) t c.op.tile r)
          | none => s) s, [])
      | fs => (s, fs)

/-- n rows from row k, as far as they do not fault: the state, the next row, the faults. -/
def streamRun (src : MatCmd) (cs : List MatCmd) : Nat → State → Nat → State × Nat × List (Nat × EFault)
  | 0, s, k => (s, k, [])
  | n + 1, s, k =>
    match streamStep s src cs k with
    | (s, []) => streamRun src cs n s (k + 1)
    | (s, fs) => (s, k, fs)

/-- Column c of a wload (R231): its codes, its scales, its bytes, and poison. -/
structure Column where
  tag : Nat
  codes : List Nat
  scales : List Nat
  keys : List Nat
  bad : Bool
  deriving DecidableEq, Repr

/-- The address of a column: the byte, and ALIGN where it is no multiple of the column's size (R231). -/
def colAddr (base stride : DWord) (sp : Bool) (tag c : Nat) : DWord × Bool :=
  let a := nibAddr base.toNat ((c * stride.toNat * tagNibs tag : Nat) : Int) (if sp then 32 else 64)
  (BitVec.ofNat 64 a.1, decide (a.2 = 0 ∧ a.1 % tagBytes tag = 0))

/-- Settled scales of a page column that starts at element n (R117, R231). -/
def colScales (s : State) (x : Xlat) (n : Nat) : Nat → State × Scale × List Nat
  | 0 => (s, .val 0, [])
  | j + 1 =>
    match colScales s x n j with
    | (s, .val v, vs) =>
      (match scaleOf s none x (n + 32 * j) with
       | (s, .val w) => (s, .val v, vs ++ [w])
       | (s, r) => (s, r, vs))
    | r => r

/-- Column c of a page (R231): one page format for all columns. -/
def pageColumn (s : State) (i : Issue) (base stride : DWord) (first : Option Nat) (c : Nat) : State × Except EFault Column :=
  match (match first with
    | some tag => Except.ok tag
    | none =>
      match translate s i.root base .read (some [1, 2, 3, 4, 5]) with
      | .ok x => .ok (4 + x.fmt)
      | .fault k x => .error { cls := k, addr := base, aux := x : EFault }) with
  | .error f => (s, .error f)
  | .ok tag =>
    let va := (colAddr base stride false tag c).1
    if !(colAddr base stride false tag c).2 then (s, .error { cls := 0x03, addr := va, aux := 0 })
    else
      match translate s i.root va .read (some [tag - 4]) with
      | .fault k x => (s, .error { cls := k, addr := va, aux := x })
      | .ok x =>
        let nibs := tagNibs tag
        let n := va.toNat % 65536 * 2 / nibs
        let size := tagBytes tag
        let blocks := if tag = 9 then 1 else tagK tag / 32
        match colScales s x n blocks with
        | (s, .conflict pa, _) => (s, .error { cls := 0x17, addr := va, aux := BitVec.ofNat 64 pa })
        | (s, r, sc) =>
          let bs := if isPeer x.pa || i.owes s va size then (List.range size).map (fun k => freeBits 8 (s.fresh + 2 ^ 44 + c * 256 + k))
            else homeBytes s x.pa size
          let off := fun j => x.side + scaleAt x.fmt (n + 32 * j)
          (s, .ok { tag := tag, codes := (List.range (tagK tag)).map (rowCode nibs bs), scales := sc
                    keys := seqFrom x.pa size ++ (List.range blocks).flatMap (fun j => [off j, off j + 4096])
                    bad := (!isPeer x.pa && hopOf s x.pa size != 0) || (match r with
                      | .val _ => false
                      | _ => true) })

/-- Column c of a wload (R231). -/
def loadColumn (s : State) (i : Issue) (base stride : DWord) (sf : Nat) (sp : Bool) (first : Option Nat) (c : Nat) :
    State × Except EFault Column :=
  if sf = 5 then pageColumn s i base stride first c
  else
    let va := (colAddr base stride sp sf c).1
    if !(colAddr base stride sp sf c).2 then (s, .error { cls := 0x03, addr := va, aux := 0 })
    else
      match (if sp then matScratch s i (va.setWidth 32) 64 else (s, engGlobal s i.root va 64 (i.owes s))) with
      | (s, .fault f) => (s, .error f)
      | (s, .ok bs keys hop) =>
        (s, .ok { tag := sf, codes := (List.range (tagK sf)).map (rowCode (tagNibs sf) bs), scales := [], keys := keys
                  bad := hop != 0 })

/-- A write that a command comes after (R229): of the team's earlier instructions, and of its earlier matrix commands. -/
def Issue.comesAfter (i : Issue) (r : WriteRec) : Bool :=
  match r.src with
  | some (u, k) => u == i.uid && decide (k < i.bound)
  | none => false

/-- The source of a column has been written after the command was accepted, but not by what the command comes after (R231). -/
def colRaced (s : State) (c : MatCmd) (keys : List Nat) : Bool :=
  let recent := (s.journal.drop c.mark).filter (fun r => !c.iss.comesAfter r)
  keys.any (fun a => recent.any (recCovers a))

/-- The free codes and scales of an undefined column k of a tag, with n scales (R231, R4). -/
def freeColumn (free tag k n : Nat) : List Nat × List Nat :=
  ((List.range (tagK tag)).map (fun j => Config.freeNat (free + 2 ^ 45 + k * 256 + j) % 16 ^ tagNibs tag),
    (List.range n).map (fun j =>
      Config.freeNat (free + 2 ^ 45 + 2 ^ 20 + k * 256 + j) % (if tag = 9 then 2 ^ 32 else 256)))

/-- A column put into the shadow plane; a raced one is undefined (R231). -/
def putColumn (s : State) (c : MatCmd) (k : Nat) (col : Column) : State :=
  match findTeam s c.iss.uid with
  | none => s
  | some t =>
    let v := if colRaced s c col.keys then freeColumn s.fresh col.tag k col.scales.length else (col.codes, col.scales)
    setTeam s { t with shadow := t.shadow.setCol c.iss.seq col.tag k v.1 v.2 col.bad }

/-- A plane in which the columns that a command loaded are undefined where their source has been written since (R231). -/
def racePlane (s : State) (c : MatCmd) (p : Plane) : Plane :=
  (List.range 32).foldl (fun p k =>
    let keys := (c.read.filter (fun x => x.1 == k)).map Prod.snd
    if sget 0 p.loader k == c.iss.seq + 1 && colRaced s c keys then
      let v := freeColumn s.fresh c.tag k (if mxTag c.tag then tagK c.tag / 32 else if c.tag = 9 then 1 else 0)
      p.setCol c.iss.seq c.tag k v.1 v.2 (sget false p.bad k)
    else p) p

/-- The keys of n bytes that an engine writes from an address (R130, R236). -/
def writeKeys (s : State) (i : Issue) (sp : Bool) (va : DWord) (n : Nat) : Except EFault (List Nat) :=
  if sp then
    let w := va.setWidth 32
    match (findTeam s i.uid).bind (fun t => scrAccess s t w n) with
    | some (u, off) => .ok ((seqFrom off n).map (byteKey (some u)))
    | none => .error (engScrFault w .write)
  else
    let piece := fun (a : DWord) (m : Nat) =>
      match translate s i.root a .write none with
      | .ok x => (.ok (seqFrom x.pa m) : Except EFault (List Nat))
      | .fault k x => .error { cls := k, addr := va, aux := x }
    let k := 65536 - va.toNat % 65536
    if n ≤ k then piece va n
    else
      match piece va k, piece (va + BitVec.ofNat 64 k) (n - k) with
      | .ok a, .ok b => .ok (a ++ b)
      | .error f, _ => .error f
      | _, .error f => .error f

/-- Row r of mdrain (R236): written once its element bytes and its scale byte have translated; poison travels (R96). -/
def drainStep (s : State) (c : MatCmd) (base rstr : DWord) (ctl : Word) (tile df : Nat) (sp : Bool) (r : Nat) :
    State × Option EFault :=
  let src := some (c.iss.uid, c.iss.seq)
  match findTeam s c.iss.uid with
  | none => (s, none)
  | some t =>
    let va := base + BitVec.ofNat 64 (r * rstr.toNat)
    let keyAt := fun j => accKey tile r j
    let row := drainRow df ((List.range 32).map (fun j => (accOf t (keyAt j)).toNat))
    let bad := (List.range 32).map (fun j => sget false t.tileBad (keyAt j))
    match writeKeys s c.iss sp va (drainSize df) with
    | .error f => (s, some f)
    | .ok keys =>
      if df ≤ 1 then
        let w := if df = 0 then 4 else 2
        let o := EOut.empty.bytes keys row.1
        let o := o.poison ((keys.zipIdx.filter (fun kj => bad.getD (kj.2 / w) false)).map Prod.fst) 7
        (putOut s c.iss o src, none)
      else
        match writeKeys s c.iss sp (base + BitVec.ofNat 64 ((fld ctl 8 24).toNat + r)) 1 with
        | .error f => (s, some f)
        | .ok sk =>
          let o := (EOut.empty.bytes keys row.1).bytes sk [BitVec.ofNat 8 row.2]
          (putOut s c.iss (if bad.any id then o.poison (keys ++ sk) 7 else o) src, none)

/-- The rows of scfg read (R246): the sketches by key, or a fault; a poisoned row has free sketches (log entry 20). -/
def scfgRows (s : State) (i : Issue) (base : Word) (rstr : Nat) : Nat → State × Except EFault (List (Nat × Int))
  | 0 => (s, .ok [])
  | r + 1 =>
    match scfgRows s i base rstr r with
    | (s, .error f) => (s, .error f)
    | (s, .ok acc) =>
      match matScratch s i (base + BitVec.ofNat 32 (r * rstr)) 128 with
      | (s, .fault f) => (s, .error f)
      | (s, .ok bs _ hop) =>
        (s, .ok (sputs 0 acc ((List.range 64).map (fun j =>
          let v := if hop ≠ 0 then Config.freeNat (s.fresh + 2 ^ 46 + r * 64 + j) % 2 ^ 16 else natAt bs (2 * j) 2
          (r * 64 + j, (sketch (Fmt.bf16.val v)).getD 0)))))

/-- scfg replaces the whole configuration (R246). -/
def scfgStep (s : State) (i : Issue) (base tau ctl : Word) : State × Option EFault :=
  let nq := (fld ctl 0 3).toNat + 1
  match scfgRows s i base (fld ctl 16 16).toNat nq with
  | (s, .error f) => (s, some f)
  | (s, .ok rows) =>
    match findTeam s i.uid with
    | some t =>
      (setTeam s { t with sieve :=
        { nq := nq, sketch := rows, tau := tau.toNat, sink := (fld ctl 4 4).toNat, recent := (fld ctl 8 4).toNat } }, none)
    | none => (s, none)

/-- The estimates of one key against the rows of a configuration (R249); none where the key is unsettled. -/
def estimates (cfg : SieveCfg) (bs : List Byte) (sc : List Nat) (fmt : Nat) : Option (List Int) :=
  let ks := (List.range 64).map (fun j => sketch (mxElem fmt (bs.getD j 0).toNat (sc.getD (j / 32) 0)))
  if ks.any Option.isNone then none
  else
    some ((List.range cfg.nq).map (fun r =>
      ks.zipIdx.foldl (fun acc kj => acc + sget 0 cfg.sketch (r * 64 + kj.2) * kj.1.getD 0) 0))

/-- A tile's maxima so far with one key's estimates. -/
def maxRows (nq : Nat) (ts : List (Option Int)) (es : List Int) : List (Option Int) :=
  (List.range nq).map (fun r =>
    match (ts.getD r none) with
    | none => es[r]?
    | some v => some (max v (es.getD r v)))

/-- The keys 0 to i - 1 of a tile (R249): the maxima T(r, t), and whether an unsettled or poisoned key keeps the tile. -/
def tileScan (iss : Issue) (d : SieveDesc) (cfg : SieveCfg) (t : Nat) (s : State) :
    Nat → State × Except EFault (List (Option Int) × Bool)
  | 0 => (s, .ok ([], false))
  | i + 1 =>
    match tileScan iss d cfg t s i with
    | (s, .error f) => (s, .error f)
    | (s, .ok (ts, keep)) =>
      match readKey s iss d t i with
      | (s, .fault f) => (s, .error f)
      | (s, .bad _) => (s, .ok (ts, true))
      | (s, .key bs sc fmt) =>
        match estimates cfg bs sc fmt with
        | none => (s, .ok (ts, true))
        | some es => (s, .ok (maxRows cfg.nq ts es, keep))

/-- The sieve buffer with a tile scanned: T(r, t) under r * 1024 + t, a tile that is always kept under 8192 + t. -/
def bufTile (buf : List (Nat × Int)) (t : Nat) (ts : List (Option Int)) (keep : Bool) : List (Nat × Int) :=
  buf ++ ts.zipIdx.filterMap (fun x => x.1.map (fun v => (x.2 * 1024 + t, v))) ++ (if keep then [(8192 + t, 1)] else [])

/-- The keep rule (R249) over a filled buffer. -/
def keepTile (cfg : SieveCfg) (nt : Nat) (buf : List (Nat × Int)) (t : Nat) : Bool :=
  let score := fun r t => (buf.find? (fun x => x.1 == r * 1024 + t)).map Prod.snd
  let ref := fun r => (List.range nt).foldl (fun (acc : Option Int) u =>
    match acc, score r u with
    | some a, some v => some (max a v)
    | none, x => x
    | x, none => x) none
  cfg.tau == 0xFFFFFFFF || decide (t < cfg.sink) || decide (nt ≤ t + cfg.recent) || buf.any (fun x => x.1 == 8192 + t) ||
    (List.range cfg.nq).any (fun r =>
      match score r t, ref r with
      | some v, some m => decide (m - (cfg.tau : Int) ≤ v)
      | _, _ => false)

/-- The mask words of lanes 0 to 31 (R250). -/
def sieveMask (cfg : SieveCfg) (nt : Nat) (buf : List (Nat × Int)) : List Word :=
  let kept := (List.range nt).filter (keepTile cfg nt buf)
  (List.range 32).map (fun l =>
    (kept.filter (fun t => t / 32 == l)).foldl (fun acc t => acc ||| BitVec.ofNat 32 (2 ^ (t % 32))) 0)

/-- The bytes in which row r of a mdrain writes (R236); none where it faults. -/
def drainKeys (s : State) (c : MatCmd) (r : Nat) : List Nat :=
  match c.op with
  | .mdrain base rstr ctl _ df sp =>
    let at' := fun (a : DWord) n => match writeKeys s c.iss sp a n with
      | .ok ks => ks
      | .error _ => []
    at' (base + BitVec.ofNat 64 (r * rstr.toNat)) (drainSize df) ++
      (if df ≤ 1 then [] else at' (base + BitVec.ofNat 64 ((fld ctl 8 24).toNat + r)) 1)
  | _ => []

/-- Unit k of a command that does not stream: the state and the command after it, or its fault. A page wload reads all its columns
in the format of its column 0 (R231). -/
def plainStep (s : State) (c : MatCmd) (k : Nat) : State × MatCmd × Option EFault :=
  match c.op, findTeam s c.iss.uid with
  | .wload base stride sf sp, some _ =>
    match loadColumn s c.iss base stride sf sp (if k = 0 then none else some c.tag) k with
    | (s, .error f) => (s, c, some f)
    | (s, .ok col) => (putColumn s c k col, { c with tag := col.tag, read := c.read ++ col.keys.map (fun a => (k, a)) }, none)
  | .mswap, some t => (setTeam s (swapPlanes t), c, none)
  | .mzero n lo, some t =>
    let mine := fun k => decide (lo * 4096 ≤ k ∧ k < (lo + n) * 4096)
    (setTeam s { t with tiles := sdrop t.tiles mine, tileBad := sdrop t.tileBad mine }, c, none)
  | .mscale a tile lanes, some t =>
    let l := (lanesOf lanes).getD k 0
    (setTeam s (scaleRow (s.fresh + 2 ^ 43) t (laneRow tile l) (reg t l a).toNat (regPoisoned t l a) (c.taint.contains l)), c,
      none)
  | .mdrain base rstr ctl tile df sp, some _ =>
    match drainStep s c base rstr ctl tile df sp k with
    | (s, f) => (s, c, f)
  | .scfg base tau ctl, some _ =>
    match scfgStep s c.iss base tau ctl with
    | (s, f) => (s, c, f)
  | .sieve d _, some t =>
    match tileScan c.iss d (c.cfg.getD t.sieve) k s (d.keys k) with
    | (s, .error f) => (s, c, some f)
    | (s, .ok (ts, keep)) => (s, { c with buf := bufTile c.buf k ts keep }, none)
  | _, _ => (s, c, none)

/-- n units from unit k, as far as they do not fault. -/
def plainRun : Nat → State → MatCmd → Nat → State × MatCmd × Nat × Option EFault
  | 0, s, c, k => (s, c, k, none)
  | n + 1, s, c, k =>
    match plainStep s c k with
    | (s, c, none) => plainRun n s c (k + 1)
    | (s, c, some f) => (s, c, k, some f)

/-! ### Running -/

/-- The command at the front of the array's order (R219). -/
def matFront (s : State) (core : Nat) : Option MatCmd := (coreOf s core).mat.find? (matLive s)

/-- The acquires of its team that precede a marker have completed (R239). -/
def fenceReady (s : State) (c : MatCmd) : Bool :=
  match findTeam s c.iss.uid with
  | some t => !t.pend.any (fun p => p.acquires && decide (p.seq < c.iss.seq))
  | none => true

/-- Markers at the front whose acquires have completed are done: the operand line buffer is emptied (R239). Fuel bounds their
number. -/
def popFences (core : Nat) : Nat → State → State
  | 0, s => s
  | k + 1, s =>
    match matFront s core with
    | some c =>
      if c.op.isFence && fenceReady s c then
        let s := dropMat s core c.iss.seq
        popFences core k { s with opbuf := s.opbuf.filter (fun b => b.core != core) }
      else s
    | none => s

/-- The markers at the front of a core's queue are done, as far as they can be. -/
def fencesDone (s : State) (core : Nat) : State := popFences core (coreOf s core).mat.length s

/-- The command asks for leave (R220, R250, R311). -/
def MatOp.heavy (o : MatOp) : Bool :=
  match o with
  | .wload .. | .mma .. | .mmas .. | .mmak .. | .sieve .. => true
  | _ => false

/-- Its cost in tokens (R311), for the units it has left. -/
def MatCmd.cost (c : MatCmd) (nq : Nat) : Nat :=
  let left := c.op.units - c.n
  match c.op with
  | .wload .. => 32
  | .mma _ _ _ af _ _ | .mmas _ _ _ af _ => if af = 8 then 2 * left else left
  | .sieve .. => left * nq
  | _ => left

/-- The partner's command of a pair at the front of its core, with that core (R241): posted or streaming. -/
def pairMate (s : State) (c : MatCmd) : Option (Nat × MatCmd) :=
  match c.pair with
  | none => none
  | some (k, u, _) =>
    match findTeam s u with
    | none => none
    | some t =>
      match matFront s t.core with
      | some d =>
        (match d.pair with
         | some (j, v, _) =>
           if d.iss.uid == u && v == c.iss.uid && j == k && d.stage == .running then some (t.core, d) else none
         | none => none)
      | none => none

/-- The even team's command of a pair. -/
def evenOf (c d : MatCmd) : MatCmd :=
  match c.pair with
  | some (_, _, true) => c
  | _ => d

/-- What running a command or a pair comes to: the state, the command as changed, its partner with its core, the next unit,
and the faults by command number. -/
structure RunRes where
  st : State
  cmd : MatCmd
  mate : Option (Nat × MatCmd)
  next : Nat
  faults : List (Nat × EFault)
  deriving DecidableEq, Repr

/-- The units of a running command: of a pair those of its even command (R241). -/
def matUnits (s : State) (c : MatCmd) : Nat :=
  match pairMate s c with
  | some (_, d) => (evenOf c d).op.units
  | none => c.op.units

/-- Units from the next one up to unit hi, at most, of a running command performed, with its partner's (R223, R227, R241); none while
the cinch is not fixed. -/
def runMat (s : State) (c : MatCmd) (hi : Nat) : Option RunRes :=
  if c.stage != .running || c.posted.isSome then none
  else if c.pair.isSome then
    match pairMate s c with
    | some (core, d) =>
      if d.posted.isSome then none
      else
        let src := evenOf c d
        let r := streamRun src [c, d] (hi - c.n) s c.n
        some { st := r.1, cmd := c, mate := some (core, d), next := r.2.1, faults := r.2.2 }
    | none => none
  else if c.op.streams then
    let r := streamRun c [c] (hi - c.n) s c.n
    some { st := r.1, cmd := c, mate := none, next := r.2.1, faults := r.2.2 }
  else
    let r := plainRun (hi - c.n) s c c.n
    some { st := r.1, cmd := r.2.1, mate := none, next := r.2.2.1
           faults := match r.2.2.2 with
             | some f => [(c.iss.seq, f)]
             | none => [] }

/-- The values of an mread (R237): a lane that meets a poisoned element is lost (R97). -/
def readPend (t : Team) (p : Pend) (regs : List Nat) (tile cg : Nat) (lanes : Mask) : Pend :=
  let rows := (lanesOf lanes).map (fun l =>
    let tr := laneRow tile l
    (l, (List.range 8).map (fun j => accKey tr.1 tr.2 (8 * cg + j))))
  let lost := fun (x : Nat × List Nat) => x.2.any (fun k => sget false t.tileBad k)
  { p with
    writes := (rows.filter (fun x => !lost x)).flatMap (fun x => (regs.zip x.2).map (fun rk => (regKey x.1 rk.1, accOf t rk.2)))
    losses := (rows.filter lost).map (fun x => regLoss x.1) }

/-- A command's last effect: its entry frees, its mask or registers are written, its flag decrements (R30, R230, R231, R237,
R250). -/
def endMat (s : State) (core : Nat) (c : MatCmd) : State :=
  let s := { dropMat s core c.iss.seq with fresh := s.fresh + 2 ^ 100 }
  match c.op, findTeam s c.iss.uid with
  | .wload .., some t =>
    releaseOf (setTeam s { t with plane := racePlane s c t.plane, shadow := racePlane s c t.shadow }) c.iss
  | .mread regs tile cg lanes, some t =>
    match findPend t c.iss.seq with
    | some p => finishPend s t.uid (readPend t p regs tile cg lanes)
    | none => s
  | .sieve d m, some t =>
    let ws := (sieveMask (c.cfg.getD t.sieve) d.nt c.buf).zipIdx.filterMap (fun w =>
      if c.gone.contains w.2 || (c.taint.contains w.2 && freeBits 1 (s.fresh + w.2) == 0) then none else some (regKey w.2 m, w.1))
    let s := landWrites { s with fresh := s.fresh + 2 ^ 20 } t.uid c.iss.handler ws
    releaseOf (lateWins s t.uid c.iss.seq c.iss.handler ((List.range 32).map (fun l => regKey l m))) c.iss
  | _, _ => releaseOf s c.iss

/-- The command is a mdrain. -/
def MatOp.isDrain (o : MatOp) : Bool :=
  match o with
  | .mdrain .. => true
  | _ => false

/-- A mdrain that stops below row hi remembers what it has begun (R228); s is the machine before its latest rows. -/
def MatCmd.begun (c : MatCmd) (s s' : State) (hi : Nat) : MatCmd :=
  if c.op.isDrain then
    { c with iss := c.iss.begun s s' ((seqFrom c.n (hi - c.n)).flatMap (drainKeys s c))
               (openSectors (drainKeys s c) c.op.units hi) }
  else c

/-- A command that a fault stops at unit k, or that its partner's fault stops (R227, R241). -/
def haltMat (s : State) (core : Nat) (c : MatCmd) (k : Nat) (fs : List (Nat × EFault)) : State :=
  match fs.find? (fun f => f.1 == c.iss.seq) with
  | some f =>
    setMat s core { c with
      stage := .frozen, n := k, posted := none, iss := { c.iss with record := some (freezeRec c.iss f.2) } }
  | none => setMat s core { c with stage := .waiting, n := k, posted := none }

/-! ### Events -/

/-- MATRIX_COMMAND_START (R219, R220, R229, R234): the front command starts once it has its leave; its team's earlier stores
are performed; the array holds its team's plane set (R218); a paired command posts (R241). -/
def execMatrixCommandStart (core : Nat) (s : State) : Out :=
  let s := fencesDone s core
  match matFront s core with
  | none => notEnabled "MATRIX_COMMAND_START"
  | some c =>
    if s.bubble.isSome || c.op.isFence || c.stage == .running || (c.op.heavy && !hasLeave s core c.iss.seq) then
      notEnabled "MATRIX_COMMAND_START"
    else
      let s := drainBelow (useLeave s core c.iss.seq) c.iss.uid core c.iss.bound
      match findTeam s c.iss.uid with
      | none => notEnabled "MATRIX_COMMAND_START"
      | some t =>
        let swap := c.op.swaps && !c.swapped
        let s := if swap then setTeam s (swapPlanes t) else s
        let c := { c with
          stage := .running, swapped := c.swapped || swap, cfg := some (c.cfg.getD t.sieve)
          posted := if c.pair.isSome then some s.clk.toNat else none }
        let s := setMat s core c
        .next (setCore s { coreOf s core with plane := some c.iss.uid })

/-- MATRIX_COMMAND_COMPLETE (R230): the last row, column or mask is written, and the flag decrements. -/
def execMatrixCommandComplete (core : Nat) (s : State) : Out :=
  match matFront s core with
  | none => notEnabled "MATRIX_COMMAND_COMPLETE"
  | some c =>
    match s.bubble.isSome, runMat s c (matUnits s c) with
    | false, some r =>
      if !r.faults.isEmpty then notEnabled "MATRIX_COMMAND_COMPLETE"
      else
        let s := endMat r.st core r.cmd
        .next (match r.mate with
          | some (other, d) => endMat s other d
          | none => s)
    | _, _ => notEnabled "MATRIX_COMMAND_COMPLETE"

/-- MATRIX_FREEZE (R227, R251): the units below the one that faults are performed, and the command waits for its delivery. -/
def execMatrixFreeze (core : Nat) (s : State) : Out :=
  match matFront s core with
  | none => notEnabled "MATRIX_FREEZE"
  | some c =>
    match s.bubble.isSome, runMat s c (matUnits s c) with
    | false, some r =>
      if r.faults.isEmpty then notEnabled "MATRIX_FREEZE"
      else
        let s := haltMat { r.st with fresh := r.st.fresh + 2 ^ 100 } core (r.cmd.begun s r.st r.next) r.next r.faults
        .next (match r.mate with
          | some (other, d) => haltMat s other d r.next r.faults
          | none => s)
    | _, _ => notEnabled "MATRIX_FREEZE"

/-- A posted command of a pair and its posted partner. -/
def postedPair (s : State) (core : Nat) : Option (MatCmd × Nat × MatCmd) :=
  match matFront s core with
  | none => none
  | some c =>
    if c.stage != .running || c.posted.isNone then none
    else
      match pairMate s c with
      | some (other, d) => if d.posted.isSome then some (c, other, d) else none
      | none => none

/-- MPAIR_CINCH (R241): both have posted commands of one kind and A format, and both stream. -/
def execMpairCinch (core : Nat) (s : State) : Out :=
  match s.bubble.isSome, postedPair s core with
  | false, some (c, other, d) =>
    if c.op.kind != d.op.kind then notEnabled "MPAIR_CINCH"
    else
      let n := max c.n d.n
      .next (setMat (setMat s core { c with posted := none, n := n }) other { d with posted := none, n := n })
  | _, _ => notEnabled "MPAIR_CINCH"

/-- A command frozen by MPAIR_LATE (R242). -/
def lateMat (s : State) (core : Nat) (c : MatCmd) (aux : Nat) : State :=
  haltMat s core c c.n [(c.iss.seq, { cls := 0x13, addr := 0, aux := BitVec.ofNat 64 aux })]

/-- MPAIR_LATE (R242): 4,096 counted cycles have passed without the partner's post, or the two commands differ. -/
def execMpairLate (core : Nat) (s : State) : Out :=
  match s.bubble.isSome, matFront s core, postedPair s core with
  | false, _, some (c, other, d) =>
    if c.op.kind = d.op.kind then notEnabled "MPAIR_LATE" else .next (lateMat (lateMat s core c 2) other d 2)
  | false, some c, none =>
    match c.stage == .running, c.posted with
    | true, some p => if p + 4096 < s.clk.toNat then .next (lateMat s core c 1) else notEnabled "MPAIR_LATE"
    | _, _ => notEnabled "MPAIR_LATE"
  | _, _, _ => notEnabled "MPAIR_LATE"

/-! ### After a trap, and stops (R219, R227, R228, R251) -/

/-- The commands on their way back to the queue take the entries that are free, in their order (R219); fuel bounds their number. -/
def admitAll (core : Nat) : Nat → State → State
  | 0, s => s
  | k + 1, s =>
    match (coreOf s core).mat.find? (fun x => x.stage == .returning && teamRuns s x.iss.uid) with
    | some x => if matUsed s core < 32 then admitAll core k (setMat s core { x with stage := .waiting }) else s
    | none => s

/-- The matrix queue of a core takes its own back. -/
def admitMat (s : State) (core : Nat) : State := admitAll core (coreOf s core).mat.length s

/-- The queue of a core after the return from a trap in its retry form: the delivered commands stand at its front, behind a
running command, with the team's root; each takes the next entry that frees. -/
def thawMat (s : State) (t : Team) (seqs : List Nat) : State :=
  let c := coreOf s t.core
  let back := (c.mat.filter (fun x => seqs.contains x.iss.seq)).map (fun x =>
    { x with stage := .returning, iss := { x.iss with root := t.root, record := none } })
  let rest := c.mat.filter (fun x => !seqs.contains x.iss.seq)
  admitMat (setCore s { c with
    mat := rest.filter (fun x => x.stage == .running) ++ back ++ rest.filter (fun x => x.stage != .running) }) t.core

/-- The delivered commands cancelled (R227): their flags are released, and what they have done stays. -/
def cancelMat (s : State) (t : Team) (seqs : List Nat) : State :=
  let c := coreOf s t.core
  let s := (c.mat.filter (fun x => seqs.contains x.iss.seq)).foldl (fun s x => releaseOf s x.iss) s
  setCore s { c with mat := c.mat.filter (fun x => !seqs.contains x.iss.seq) }

/-- A command stopped at a unit boundary (R228): a free number of units are performed, and it waits again; its partner stops
at the same row. -/
def stopMat (s : State) (core : Nat) (c : MatCmd) : State :=
  let s := withdraw s [c.iss.seq]
  if c.stage == .asking then setMat s core { c with stage := .waiting }
  else if c.stage != .running then s
  else
    let hi := c.n + Config.freeNat s.fresh % (matUnits s c - c.n + 1)
    let s := { s with fresh := s.fresh + 1 }
    match runMat s c hi with
    | none => setMat s core { c with stage := .waiting, posted := none }
    | some r =>
      let s := haltMat { r.st with fresh := r.st.fresh + 2 ^ 100 } core (r.cmd.begun s r.st r.next) r.next []
      match r.mate with
      | some (other, d) => haltMat s other d r.next []
      | none => s

end Sys2Proof.Machine
end

