-- ==== Sys2Proof/Machine/System.lean ====
section
/-! DEFINITION. Special registers (R351 to R353), the return from a trap (R343, R344), trefresh (R107), leases (R393,
R394), the launch queue (R298 to R301) and fwcall (R360, R361). -/

namespace Sys2Proof.Machine

/-! ### Special registers -/

/-- The 32-lane word of a mask that holds a lane (R351 amask, dmask). -/
def maskWordOf (m : Mask) (l : Nat) : Word := m.extractLsb' (l / 32 * 32) 32

/-- What rdsr reads in a lane (R351). -/
def srValue (s : State) (t : Team) (n l : Nat) : Word :=
  let cx := findCtx s t.ctx
  let ofCtx := fun (f : Context → Word) => (cx.map f).getD 0
  match n with
  | 0x000 => s.clk.setWidth 32
  | 0x001 => (s.clk >>> 32).setWidth 32
  | 0x002 => t.icnt
  | 0x010 => maskWordOf t.active l
  | 0x011 => maskWordOf t.dead l
  | 0x012 =>
    match t.handler with
    | some h => truth ((h.rmask &&& ~~~t.dead).getLsbD l)
    | none => 0
  | 0x013 => truth (sget false t.xdead l)
  | 0x020 => (fpxOf t l).setWidth 32
  | 0x030 => t.trapvec
  | 0x031 => ofCtx Context.frqb
  | 0x032 => ofCtx Context.frqh
  | 0x033 => ofCtx Context.frqt
  | 0x040 => t.hrev
  | 0x041 => if t.leases.isEmpty then 0 else 0x10000000
  | 0x050 => t.root.rid.setWidth 32
  | 0x051 => t.root.gen.setWidth 32
  | 0x060 => truth t.hdr.repro ||| (if bubbleMode s then 2 else 0)
  | 0x070 => (coreOf s t.core).partword
  | _ => 0

/-- rdsr (R352): per-lane partial state. -/
def execRdsr (d : BitVec 5) (i : BitVec 12) (s : State) : Out :=
  withWord (.rdsr d i) s (fun _ => []) (fun _ => s1 d) fun t _ =>
    let ws := (lanesOf (candidates t)).flatMap (fun l => laneWrites s t l (s1 d) false [srValue s t i.toNat l])
    .next (finish s t (writeRegs t ws) (ws.map Prod.fst) [])

/-- A write to a register that each lane holds (R353): lanes that read poison are lost. -/
def wrsrLanes (i : Instr) (a : BitVec 5) (s : State) (f : Team → List (Nat × Word) → Team) : Out :=
  withWord i s (fun _ => s1 a) (fun _ => []) fun t _ =>
    let lost := lostLanes s t 0 (s1 a)
    let lanes := (lanesOf (candidates t)).filter (fun l => !lost.contains l)
    .next (finish s t (f t (lanes.map (fun l => (l, readSlot s t l a.toNat)))) [] (lost.map regLoss))

/-- wrsr of fpx (R353). -/
def execWrsrFpx (a : BitVec 5) (s : State) : Out :=
  wrsrLanes (.wrsrFpx a) a s fun t vs => { t with fpx := sputs 0 t.fpx (vs.map (fun v => (v.1, v.2.setWidth 4))) }

/-- wrsr of xdead (R353). -/
def execWrsrXdead (a : BitVec 5) (s : State) : Out :=
  wrsrLanes (.wrsrXdead a) a s fun t vs => { t with xdead := sputs false t.xdead (vs.map (fun v => (v.1, v.2.getLsbD 0))) }

/-- wrsr of trapvec (R353). -/
def execWrsrTrapvec (a : BitVec 5) (s : State) : Out :=
  let bad := fun (v : Word) => v.toNat % 4 != 0 && v != 0xFFFFFFFF
  withCauses (.wrsrTrapvec a) s (fun _ => s1 a) (fun _ => [])
    (fun t _ => if readable s t (lead t) (s1 a) && bad (slot t (lead t) a.toNat) then [(0x04, 0)] else []) fun t _ =>
    consume s t [lead t] (s1 a) (
      -- a pending source gives any value that trapvec can hold (R33)
      let v := readSlot s t (lead t) a.toNat
      .next (setTeam (bump s t) (advance { t with trapvec := if bad v then v &&& 0xFFFFFFFC else v })))

/-- wrsr of any other number is ILLOP with reason 0x04 (R351, R353), which the word's own check raises. -/
def execWrsr (a : BitVec 5) (i : BitVec 12) (s : State) : Out :=
  withWord (.wrsr a i) s (fun _ => s1 a) (fun _ => []) fun t _ => .next (raiseIll s t 0x04 0)

/-! ### The return from a trap (R343) -/

/-- Nothing that the handler issued is still under way (R343). -/
def handlerIdle (s : State) (t : Team) : Bool :=
  !t.pend.any Pend.handler && !(teamIssues s t.uid).any (fun x => x.1.handler)

/-- The physical addresses of n pieces of 1 KiB of a frame for reading; or the first that does not translate. -/
def readPieces (s : State) (root : RootDesc) (va : Nat) : Nat → Except EFault (List Nat)
  | 0 => .ok []
  | n + 1 =>
    match readPieces s root va n with
    | .error f => .error f
    | .ok ps =>
      let a := BitVec.ofNat 64 (va + 1024 * n)
      match translate s root a .read none with
      | .ok x => .ok (ps ++ [x.pa])
      | .fault c x => .error { cls := c, addr := a, aux := x }

/-- The team goes on after the unit at its place (R46, R343): the unit's hints are passed over. Fuel bounds their number. -/
def afterUnit (s : State) (t : Team) : Nat → State
  | 0 => setTeam s (advance t)
  | k + 1 =>
    match fetchWord s t (wordAddr t) with
    | (s, .fault c x) => raiseFetch s t c x
    | (s, .poison hop) => poisonedWord s t (wordAddr t) hop
    | (s, .word w) =>
      if fld w 29 3 == 6 && decide (t.wix < t.clause.len) then afterUnit s { t with wix := t.wix + 1 } k
      else setTeam s (advance t)

/-- The team at word wix of the clause at an address, with that clause's fields (R26, R343); k does the rest. Where the
address holds no header, or wix lies beyond the clause, a new trap of the program follows (R343). -/
def atClause (s : State) (t : Team) (hdr : Word) (wix : Nat) (k : State → Team → State) : State :=
  let at0 := goto t hdr
  match fetchWord s at0 hdr with
  | (s, .fault c x) => raiseFetch s at0 c x
  | (s, .poison hop) => poisonedWord s at0 hdr hop
  | (s, .word w) =>
    if !isHeader w then raiseWide s at0 0x02 (hdr.setWidth 64) 0
    else
      let l := (fld w 4 5).toNat
      match lowest (headerReasons (fld w 13 4) (fld w 9 4) (fld w 4 5) (fld w 2 2)) with
      | some r => raiseIll s { at0 with ir := w } r 0
      | none =>
        if l < wix then setTeam s (goto t (hdr + BitVec.ofNat 32 (4 * wix)))
        else
          k s { at0 with
            wix := wix, clause := { seta := fld w 13 4, setb := fld w 9 4, len := l, comp := fld w 2 2, yld := false } }

/-- The team goes back into the block it was taken out of (R128, R313, R343). A barrier that completed meanwhile and a copy
that completed meanwhile are over. A team that is blocked again is not current (R309). -/
def reenter (s : State) (t : Team) (b : Block) : State :=
  match b with
  | .over => l1Invalidate (setTeam s (advance t)) t.core
  | .copy n a =>
    if (teamIssues s t.uid).any (fun x => x.1.seq == n) then dropRole (setTeam s { t with block := some b }) t
    else setTeam s (goto t a)
  | b => dropIfBlocked (wakeQueues (setTeam s { t with block := some b })) t.uid

/-- The team has ended its clause, wherever it goes on (R28, R29): its core chooses anew. -/
def letSlotGo (s : State) (t : Team) : State :=
  let c := coreOf s t.core
  setCore { s with cur := none } { c with issuing := if c.issuing == some t.uid then none else c.issuing }

/-- Where the team goes on (R343). Retry with lanes left resumes the word for them, or the block; else the word after it;
with WIX 0 the header, in both forms. DEDUCED (log entry 89): a skip of an ILLOP at a header is a skip past that header, which
continues at the address after it (R46). The point was edited where HDR or WIX differ from what entry wrote. -/
def resumeAt (s : State) (t : Team) (h : Handler) (retry : Bool) (hdr : Word) (wix : Nat) (rm : Mask) : State :=
  let edited := hdr != h.hdrPc || wix != h.wix
  let own := { goto t h.pc with wix := h.stop, clause := h.clause }
  match retry && rm != 0 && !edited, h.block with
  | true, some b => reenter s own b
  | _, _ =>
    if wix = 0 then setTeam s (goto t (if !retry && h.illHdr && !edited then hdr + 4 else hdr))
    else if !edited then
      if retry && rm != 0 then setTeam s { own with wix := wix, resume := some rm } else setTeam s (advance own)
    else
      atClause s t hdr wix fun s t =>
        if retry && rm != 0 then setTeam s { t with resume := some rm } else afterUnit s t 24

/-- The return proper (R343): the frame is read, the saved state restored, and frozen commands continue or are cancelled. A
frame that cannot be read is a fault in the handler (log entry 21). -/
def leaveHandler (s : State) (t : Team) (h : Handler) (skip : Bool) : State :=
  let va := h.frameVa.toNat
  match readPieces s t.root va (frameSize t / 1024) with
  | .error f => raiseWide s t f.cls f.addr f.aux
  | .ok pas =>
    let s := pas.foldl (fun s pa => performUpTo s t pa 1024 true true) s
    let bs := pas.flatMap (fun pa => homeBytes s pa 1024)
    let hopAt := fun (off : Nat) => hopOf s (pas.getD (off / 1024) 0 + off % 1024) 4
    let keys := (List.range t.hdr.lanes).flatMap (fun l => (List.range 8).map (fun i => (l, i)))
    let rm := BitVec.ofNat 1024 (natAt bs 16 128) &&& h.rmask &&& t.live
    let t := { renew s t with
      binds := h.binds, stack := t.stack.drop (t.stack.length - h.base), handler := none, block := none
      active := h.amask &&& t.live
      regs := sputs 0 t.regs (keys.map (fun k => (regKey k.1 k.2, wordAt bs (saveOffset k.1 k.2))))
      regBad := keys.foldl (fun acc k => sput false acc (regKey k.1 k.2) (hopAt (saveOffset k.1 k.2) != 0)) t.regBad }
    let s := taintRows (setTeam s t) t (keys.map (fun k => regKey k.1 k.2))
    let s := letSlotGo s t
    let s := if skip then cancelMat (cancelCopy s t h.delivered) t h.delivered
      else thawMat (thawCopy s t h.delivered) t h.delivered
    let t := (findTeam s t.uid).getD t
    if t.active == 0 && t.live != 0 then setTeam s (resumeStep t)
    else resumeAt s t h (!skip) (wordAt bs 0) (natAt bs 4 1) rm

/-- tret and tret.skip (R343, R344): ILLOP 0x16 outside a handler; the team waits for what its handler issued. -/
def execTret (k : BitVec 1) (s : State) : Out :=
  withWord (.tret k) s (fun _ => []) (fun _ => []) fun t _ =>
    match t.handler with
    | none => .next (raiseIll s t 0x16 0)
    | some h =>
      if handlerIdle s t then .next (leaveHandler s t h (k == 1))
      else .next (setTeam s { t with block := some (.tret (k == 1)) })

/-- A team whose tret waits returns once nothing of its handler is under way (R343). -/
def finishTret (s : State) (u : Nat) : State :=
  match findTeam s u with
  | some t =>
    match t.block, t.handler with
    | some (.tret skip), some h => if handlerIdle s t then leaveHandler s { t with block := none } h skip else s
    | _, _ => s
  | none => s

/-! ### trefresh -/

/-- trefresh (R107): the team pins the root that is its context's current one at that moment (DEDUCED, log entry 115). -/
def execTrefresh (s : State) : Out :=
  withWord .trefresh s (fun _ => []) (fun _ => []) fun t _ =>
    let root := match findCtx s t.ctx with
      | some c => c.current
      | none => t.root
    .next (setTeam s (advance { t with root := root }))

/-! ### Pool accounting (R136 to R138) -/

/-- RFG of a partition word. -/
def rfgOf (w : Word) : Nat := (fld w 0 8).toNat

/-- SPG of a partition word. -/
def spgOf (w : Word) : Nat := (fld w 8 8).toNat

/-- The partition word is valid (R136). -/
def partValid (w : Word) : Bool := fld w 16 16 == 0 && decide (rfgOf w ≤ 24 ∧ rfgOf w + spgOf w ≤ 32)

/-- Units of 4 KiB of register file, of scratchpad, and tiles, that a word gives (R136). -/
def poolUnits (w : Word) : Nat × Nat × Nat := (16 * rfgOf w, 16 * spgOf w, 4 * (32 - rfgOf w - spgOf w))

/-- What one team of a kernel takes of them (R137). -/
def teamUnits (h : KHdr) : Nat × Nat × Nat := (h.grps * h.regs / 8, h.scrAlloc / 4096, h.accum)

/-- The owner and normal teams whose space a core holds: resident ones, and ended ones whose scratchpad stays (R140). -/
def poolTeams (s : State) (core : Nat) : List Team :=
  s.teams.filter (fun t => t.core == core && !t.hdr.harvest && (t.place == .resident || t.place == .ended))

/-- Granules of a core's scratchpad that leases hold or that wait for their scrub (R393, R395). -/
def leaseTaken (s : State) (core : Nat) : List Nat :=
  (s.teams.filter (fun t => t.core == core && t.hdr.harvest)).flatMap Team.leases ++ (coreOf s core).scrub

/-- The 4 KiB granules of a core's scratchpad, of n, that nothing takes (R137, R138, R393, R395). -/
def scrFree (s : State) (core n : Nat) : List Nat :=
  let taken := (poolTeams s core).flatMap Team.granules ++ leaseTaken s core
  (List.range n).filter (fun g => !taken.contains g)

/-- Clusters of a grid. -/
def Grid.total (g : Grid) : Nat := g.size.1 * g.size.2.1 * g.size.2.2

/-- The grid of a team is suspended. -/
def gridSuspended (s : State) (t : Team) : Bool :=
  match findGrid s t.ctx t.grid with
  | some g => g.st == .suspended
  | none => false

/-- A team that was saved waits to become resident again (R304, R349). -/
def waitsResume (s : State) (t : Team) : Bool := t.place == .saved && !gridSuspended s t

/-- A saved team waits for residency on a core (R304, R349, R365): its own, or where that has left the partition any of its
context's. -/
def waitsOn (s : State) (core : Nat) (t : Team) : Bool :=
  waitsResume s t &&
    (match findCtx s t.ctx with
     | some c => if c.cores.contains t.core then t.core == core else c.cores.contains core
     | none => false)

/-- Scratchpad units that owner and normal teams waiting for residency on a core need (R393): of each dispatched grid of the
core's context with clusters to place, one team's; and those of its saved teams that may go on. -/
def scrWanted (s : State) (core : Nat) : Nat :=
  (s.contexts.filter (fun c => c.cores.contains core)).foldl (fun n c =>
    (c.grids.filter (fun g => g.st == .running && !g.hdr.harvest && decide (g.next < g.total))).foldl
      (fun n g => n + g.hdr.scrAlloc / 4096) n)
    ((s.teams.filter (waitsOn s core)).foldl (fun n t => n + t.hdr.scrAlloc / 4096) 0)

/-- Leasable granules of a core (R393): the free ones but those that waiting teams need; a lease takes the lowest (log entry 47). -/
def leasable (s : State) (core : Nat) : List Nat :=
  let free := scrFree s core (poolUnits (coreOf s core).partword).2.1
  free.take (free.length - scrWanted s core)

/-- The displacement of lease (R393). -/
def leaseDisp (t : Team) (i : BitVec 12) : Word := immS (extOf t) i

/-- ILLOP 0x17 for lease and unlease by a team that is not a harvest team (R393, R394). -/
def harvestOnly (t : Team) (_ : Mods) : List (Nat × Nat) := if t.hdr.harvest then [] else [(0x17, 0)]

/-- lease (R393): ILLOP 0x17 for any other team, the target fetch of R414, BADTARGET, then the restart address and the
request. Granted granules read as zero, in the operand line buffers too. -/
def execLease (d a : BitVec 5) (i : BitVec 12) (s : State) : Out :=
  withCauses (.lease d a i) s (fun _ => s1 a) (fun _ => s1 d) harvestOnly fun t _ =>
    withLead s t (s1 a) (s1 d) (
      let restart := nextAddr t + 4 * leaseDisp t i
      let n := (readSlot s t (lead t) a.toNat).toNat
      toHeader (bump s t) t restart fun s =>
        let held := !t.leases.isEmpty
        let room := leasable s t.core
        let st := if 64 < n then 3 else if n ≠ 0 ∧ held then 2 else if n = 0 then 0 else if room.length < n then 1 else 0
        let grant := st == 0 && n != 0
        let ws := writeAll t d.toNat (BitVec.ofNat 32 st)
        let t := { t with restart := restart, leases := if grant then room.take n else t.leases
                          scr := if grant then [] else t.scr, scrBad := if grant then [] else t.scrBad }
        let s := if grant then { s with opbuf := s.opbuf.filter (fun b => b.uid != t.uid) } else s
        .next (setTeam (taint s t (ws.map Prod.fst)) (advance (writeRegs t ws))))

/-- A team without its lease (R394, R397): its queues are closed, and its granules go to the scrubber. -/
def dropLease (s : State) (t : Team) : State :=
  setTeam (scrubLeases s t) { t with leases := [], scr := [], scrBad := [], queues := [] }

/-- unlease (R394): after every earlier scratch access of the team. -/
def execUnlease (s : State) : Out :=
  withCauses .unlease s (fun _ => []) (fun _ => []) harvestOnly fun t _ =>
    if t.leases.isEmpty then .next (setTeam s (advance t))
    else
      let s := performSet s (fun e => e.uid == t.uid && e.kind == .scr t.uid)
      let t := renew s t
      .next (dropLease s (advance t))

/-! ### The launch queue (R298 to R301) -/

/-- A launch descriptor from its 64 bytes (R298). -/
def launchDesc (bs : List Byte) : LaunchDesc :=
  { khdr := dwordAt bs 0, code := dwordAt bs 8, param := dwordAt bs 16, gx := wordAt bs 24, gy := wordAt bs 28
    gz := wordAt bs 32, ctl := wordAt bs 36, indv := dwordAt bs 40, done := dwordAt bs 48 }

/-- The descriptor is malformed (R298, R300). -/
def launchBad (bs : List Byte) : Bool :=
  let d := launchDesc bs
  let ind := d.ctl.getLsbD 16
  d.khdr.toNat % 32 != 0 || d.code.toNat % 4096 != 0 || d.param.toNat % 8 != 0 || fld d.ctl 17 15 != 0 ||
    d.done.toNat % 4 != 0 || natAt bs 56 8 != 0 ||
    (if ind then d.gx != 0 || d.gy != 0 || d.gz != 0 || d.indv.toNat % 4 != 0
     else d.gx == 0 || d.gy == 0 || d.gz == 0 || d.indv != 0)

/-- The grid still holds its entry of the launch queue (R301). -/
def Grid.entered (g : Grid) : Bool := g.st == .queued || g.st == .running || g.st == .suspended

/-- A kernel header of zeros, before dispatch reads it. -/
def noHdr : KHdr := { entry := 0, partword := 0, scratch := 0, preload := 0, shape := 0, mode := 0 }

/-- A new entry of the launch queue (R301). -/
def newGrid (num : Nat) (d : LaunchDesc) (release : Option Nat) : Grid :=
  { num := num, desc := d, st := .queued, reason := 0, killTeam := 0, killClus := 0, killPc := 0, hdr := noHdr, table := []
    size := (0, 0, 0), disp := 0, next := 0, ended := 0, held := false, release := release, gbarGen := 0, gbarIn := [], roles := [] }

/-- The status of a launch (R300): a malformed descriptor before a full queue. -/
def launchStatus (c : Context) (bs : List Byte) : Nat :=
  if launchBad bs then 2 else if 256 ≤ (c.grids.filter Grid.entered).length then 1 else 0

/-- A grid pushed on a context's queue under the context's next grid number (R301). -/
def pushGrid (s : State) (c : Context) (bs : List Byte) (release : Option Nat) : State :=
  setCtx s { c with
    grids := c.grids ++ [newGrid c.nextGrid (launchDesc bs) release], nextGrid := (c.nextGrid + 1) % 2 ^ 32 }

/-- launch (R300): the descriptor is read at issue; a queued launch is a release at .dv that holds back the dispatch. -/
def execLaunch (d a : BitVec 5) (s : State) : Out :=
  withWord (.launch d a) s (fun _ => s1 a) (fun _ => s1 d) fun t _ =>
    withLead s t (s1 a) (s1 d) (
      let w := readSlot s t (lead t) a.toNat
      let s := bump s t
      withBlock s t w 64 64 fun _ =>
        let bs := readBlock s t w 64
        let s := { s with fresh := s.fresh + 2 ^ 20 }
        match findCtx s t.ctx with
        | none => .next (setTeam s (advance t))
        | some c =>
          let st := launchStatus c bs
          let ws := writeAll t d.toNat (BitVec.ofNat 32 st)
          let s := taint s t (ws.map Prod.fst)
          let s := if st = 0 then enqueue (pushGrid s c bs (some s.nextSeq)) t .launch 0 0 [] else s
          .next (setTeam s (advance (writeRegs t ws))))

/-! ### fwcall -/

/-- fwcall (R360, R361): the block is read at issue, the team's earlier accesses are released at .dv, and the team blocks
until firmware has run the command. -/
def execFwcall (d a : BitVec 5) (k : BitVec 8) (s : State) : Out :=
  withWord (.fwcall d a k) s (fun _ => s1 a) (fun _ => s2 d) fun t _ =>
    withLead s t (s1 a) (s2 d) (
      let w := readSlot s t (lead t) a.toNat
      let s := bump s t
      withBlock s t w 64 64 fun _ =>
        let bs := readBlock s t w 64
        let s := releaseNow { s with fresh := s.fresh + 2 ^ 20 } t.uid
        let dsts := regsOf t (s2 d)
        .next (setTeam s { renew s t with block := some (.fwcall k.toNat dsts w bs none s.clk.toNat false) }))

end Sys2Proof.Machine
end

