-- ==== Sys2Proof/Machine/Launch.lean ====
section
/-! DEFINITION. Dispatch, placement and residency of grids (R295 to R306, R389 to R391), the end of teams and grids (R273,
R288, R302), and leave (R311, R312). -/

namespace Sys2Proof.Machine

/-! ### Dispatch (R295 to R303) -/

/-- A kernel header from its 32 bytes (R295). -/
def kernelHeader (bs : List Byte) : KHdr :=
  { entry := wordAt bs 0, partword := wordAt bs 4, scratch := wordAt bs 8, preload := wordAt bs 12, shape := wordAt bs 16
    mode := wordAt bs 20 }

/-- A header field is out of its range or a reserved bit is set (R295; refusal reason 0x02). -/
def headerBad (bs : List Byte) : Bool :=
  let h := kernelHeader bs
  natAt bs 24 8 != 0 || fld h.scratch 22 10 != 0 || decide (2097152 < h.scr) || fld h.preload 8 24 != 0 ||
    fld h.shape 26 6 != 0 || decide (32 < h.accum) || decide (16 < h.clw * h.clh) ||
    decide (h.regs < 8 ∨ 256 < h.regs) || h.regs % 8 != 0 || fld h.mode 15 1 != 0 || fld h.mode 4 4 != 0 || h.dtable == 0

/-- The main registers that PRELOAD writes (R155). -/
def preloadRegs (h : KHdr) : List Nat :=
  (List.range 8).flatMap (fun i => if h.preload.getLsbD i then (if i = 6 then [6, 7] else if i = 7 then [8] else [i]) else [])

/-- PRELOAD selects a register at or above REGS (reason 0x04). -/
def preloadBad (h : KHdr) : Bool := (preloadRegs h).any (fun r => decide (h.regs ≤ r))

/-- The decode table that a header names is loaded (reason 0x05). -/
def tableOf (c : Context) (h : KHdr) : Option (List Word) :=
  if h.dtable = 1 then some [] else (c.tables.find? (fun t => t.id == h.dtable)).map Table.entries

/-- Teams of a kernel that an empty core holds (R136, R304). -/
def coreHolds (h : KHdr) : Nat :=
  let have_ := poolUnits h.partword
  let need := teamUnits h
  let per := fun (a b : Nat) => if b = 0 then 64 else a / b
  min (min 64 (64 / h.grps)) (min (per have_.1 need.1) (min (per have_.2.1 need.2.1) (per have_.2.2 need.2.2)))

/-- The origins of w x h rectangles that lie in one die, in the order of R305. -/
def origins (w h : Nat) : List (Nat × Nat) :=
  (List.range 8).flatMap (fun d => (List.range (17 - h)).flatMap (fun y => (List.range (33 - w)).map (fun x =>
    (32 * (d % 2) + x, 16 * (d / 2) + y))))

/-- The cores of a rectangle, in the order of cluster indices (R139, R305). -/
def rectCores (o : Nat × Nat) (w h : Nat) : List Nat :=
  (List.range (w * h)).map (fun k => o.1 + k % w + 64 * (o.2 + k / w))

/-- Clusters that an empty partition holds, by first fit (R305, R306). -/
def partitionHolds (c : Context) (h : KHdr) : Nat :=
  let cap := coreHolds h
  ((origins h.clw h.clh).foldl (fun (acc : Nat × List (Nat × Nat)) o =>
    let cs := rectCores o h.clw h.clh
    if cs.all (fun x => c.cores.contains x) then
      let n := cs.foldl (fun m x => min m (cap - sget 0 acc.2 x)) cap
      (acc.1 + n, cs.foldl (fun u x => sput 0 u x (sget 0 u x + n)) acc.2)
    else acc) (0, [])).1

/-- A rectangle of the partition lies inside one die. -/
def hasRect (c : Context) (h : KHdr) : Bool :=
  (origins h.clw h.clh).any (fun o => (rectCores o h.clw h.clh).all (fun x => c.cores.contains x))

/-- HARVEST rules of R297, or EXCL with HARVEST (reason 0x09). -/
def harvestBad (s : State) (c : Context) (h : KHdr) : Bool :=
  h.harvest && (h.grps != 1 || decide (128 < h.regs) || decide (2 < h.accum) || h.clw * h.clh != 1 || h.scr != 0 || h.coop ||
    h.repro || h.excl || !s.grants.any (fun g => g.1 == c.id))

/-- Sizes of a grid (R298, R299): from the descriptor, or the three words at INDV; none where reading them faults. Poison
faults too (log entry 22). -/
def gridSize (s : State) (c : Context) (d : LaunchDesc) : Option (Nat × Nat × Nat) :=
  if d.ctl.getLsbD 16 then
    match engGlobal s c.current d.indv 12 with
    | .ok bs _ 0 => some (natAt bs 0 4, natAt bs 4 4, natAt bs 8 4)
    | _ => none
  else some (d.gx.toNat, d.gy.toNat, d.gz.toNat)

/-- The refusal reasons of a dispatch that reads its header (R303). -/
def refusals (s : State) (c : Context) (bs : List Byte) (size : Nat × Nat × Nat) : List Nat :=
  let h := kernelHeader bs
  let total := size.1 * size.2.1 * size.2.2
  let bad := headerBad bs
  because bad 0x02 ++ because (!partValid h.partword) 0x03 ++ because (preloadBad h) 0x04 ++
    because (tableOf c h).isNone 0x05 ++
    because (!bad && partValid h.partword && (if h.harvest then decide (64 < h.regs / 8 ∨ 2 < h.accum)
      else coreHolds h == 0 || !hasRect c h)) 0x06 ++
    because (!bad && partValid h.partword && h.coop && decide (partitionHolds c h < total)) 0x07 ++
    because (decide (2 ^ 24 < total)) 0x08 ++ because (harvestBad s c h) 0x09

/-- An entry is dispatchable (R300, R301): not held, its release performed, and every older entry of its stream freed. -/
def dispatchable (s : State) (c : Context) (g : Grid) : Bool :=
  let stream := fun (x : Grid) => fld x.desc.ctl 0 16
  g.st == .queued && !g.held &&
    (match g.release with
     | some k => !s.stores.any (fun e => e.seq == k)
     | none => true) &&
    (stream g == 0xFFFF || !(c.grids.takeWhile (fun x => x.num != g.num)).any (fun x => x.entered && stream x == stream g))

/-! ### Completion of a grid (R302, R367) -/

/-- The increment of DONE (R302): through the context's current root; none where it cannot be made. -/
def doneBump (s : State) (c : Context) (va : DWord) : Option State :=
  match translate s c.current va .atomic none with
  | .fault .. => none
  | .ok x =>
    if isPeer x.pa then
      let p := (peerOf x.pa).1
      if (peerReason s p).isSome then none
      else
        let acc : Access := { lane := 0, pa := x.pa, va := va, size := 4, sgn := false, dsts := [] }
        let r : RemoteReq := { tag := 0, p := p, uid := noTeam, acc := acc, kind := 2, op := 0, lanes := [], decode := none }
        some (sendRemote s r 2 0 (bytesOf 8 1))
    else if hopOf s x.pa 4 ≠ 0 then none
    else some (homeWrite s x.pa (bytesOf 4 (natOf (homeBytes s x.pa 4) + 1)))

/-- A grid that completes or is refused (R302, R303): DONE, and its entry freed. -/
def closeGrid (s : State) (ctx num : Nat) (st : GridSt) (reason : Nat) : State :=
  match findCtx s ctx, findGrid s ctx num with
  | some c, some g =>
    let bump := if g.desc.done = 0 then some s else doneBump s c g.desc.done
    setGrid (bump.getD s) ctx { g with st := st, reason := reason + (if bump.isNone then 128 else 0) }
  | _, _ => s

/-- GRID_DISPATCH (R301 to R303): the oldest dispatchable grid's header and sizes are read and checked. -/
def execGridDispatch (ctx : Nat) (s : State) : Out :=
  match findCtx s ctx with
  | none => notEnabled "GRID_DISPATCH"
  | some c =>
    match c.grids.find? (dispatchable s c) with
    | none => notEnabled "GRID_DISPATCH"
    | some g =>
      match engGlobal s c.current g.desc.khdr 32, gridSize s c g.desc with
      | .ok bs _ 0, some size =>
        (match lowest (refusals s c bs size) with
         | some r => .next (closeGrid s ctx g.num .refused r)
         | none =>
           if size.1 * size.2.1 * size.2.2 = 0 then .next (closeGrid s ctx g.num .complete 0)
           else
             let h := kernelHeader bs
             .next (setGrid { s with nextSeq := s.nextSeq + 1 } ctx { g with
               st := .running, hdr := h, table := (tableOf c h).getD [], size := size, disp := s.nextSeq }))
      | _, _ => .next (closeGrid s ctx g.num .refused 0x01)

/-! ### Placement (R304 to R306, R339) -/

/-- Resident owner and normal teams of a core. -/
def residents (s : State) (core : Nat) : List Team :=
  s.teams.filter (fun t => t.core == core && !t.hdr.harvest && t.place == .resident)

/-- n more teams of a kernel may become resident on a core (R137, R138, R304): a repartition waits while a lease, or the scrub of
one, holds a granule outside the new word's scratchpad. -/
def coreFitsMany (s : State) (h : KHdr) (core n : Nat) : Bool :=
  let ts := residents s core
  let room := poolUnits h.partword
  let need := teamUnits h
  let used := fun (f : KHdr → Nat) => ts.foldl (fun n t => n + f t.hdr) 0
  decide (ts.length + n ≤ 64) && decide (used KHdr.grps + n * h.grps ≤ 64) &&
    ((poolTeams s core).isEmpty || (coreOf s core).partword == h.partword) &&
    decide (used (fun x => (teamUnits x).1) + n * need.1 ≤ room.1) &&
    (leaseTaken s core).all (fun g => decide (g < room.2.1)) && decide (n * need.2.1 ≤ (scrFree s core room.2.1).length) &&
    decide (used (fun x => (teamUnits x).2.2) + n * need.2.2 ≤ room.2.2)

/-- One more team of a kernel may become resident on a core. -/
def coreFits (s : State) (h : KHdr) (core : Nat) : Bool := coreFitsMany s h core 1

/-- The lowest free slot among k slots from lo. -/
def freeSlot (s : State) (core lo k : Nat) : Option Nat :=
  (seqFrom lo k).find? (fun n => !s.teams.any (fun t =>
    t.core == core && t.slot == n && (t.place == .resident || t.place == .held)))

/-- The trap frames of the live teams of a context: offset and size (R339). -/
def liveFrames (s : State) (ctx : Nat) : List (Nat × Nat) :=
  s.teams.filterMap (fun t => if t.ctx == ctx then t.frame.map (fun f => (f, frameSize t)) else none)

/-- The lowest offset of the area where a frame of a size overlaps none (R339). -/
def frameOffset (area : Nat) (used : List (Nat × Nat)) (size : Nat) : Option Nat :=
  let ok := fun (o : Nat) => decide (o + size ≤ area) && used.all (fun u => decide (o + size ≤ u.1 ∨ u.1 + u.2 ≤ o))
  lowest ((0 :: used.map (fun u => u.1 + u.2)).filter ok)

/-- Frames for n new teams of a kernel, in ascending index (R339): none without room; no frame where the context has no
area. -/
def newFrames (s : State) (c : Context) (h : KHdr) (n : Nat) : Option (List (Option Nat)) :=
  if c.tfrb = 0 then some (List.replicate n none)
  else
    let size := 1024 + 4096 * h.grps
    (List.range n).foldl (fun (acc : Option (List (Option Nat) × List (Nat × Nat))) _ =>
      match acc with
      | none => none
      | some (fs, used) =>
        match frameOffset (2 ^ (20 + c.tfrb.toNat % 16)) used size with
        | some o => some (fs ++ [some o], (o, size) :: used)
        | none => none) (some ([], liveFrames s c.id)) |>.map Prod.fst

/-- The preloaded registers of a lane (R155). -/
def preloads (h : KHdr) (d : LaunchDesc) (size : Nat × Nat × Nat) (clus index core l : Nat) : List (Nat × Word) :=
  let v := fun (n x : Nat) => (regKey l n, BitVec.ofNat 32 x)
  let all := [v 0 l, v 1 (l / 128), v 2 index, v 3 (clus % size.1), v 4 (clus / size.1 % size.2.1),
    v 5 (clus / (size.1 * size.2.1)), v 6 (d.param.toNat % 2 ^ 32), v 7 (d.param.toNat / 2 ^ 32),
    (regKey l 8, coreCoord core)]
  all.filter (fun kv => (preloadRegs h).contains (kv.1 % 256))

/-- The sieve configuration at team start (R245). -/
def SieveCfg.reset : SieveCfg := { nq := 1, sketch := [], tau := 0, sink := 0, recent := 0 }

/-- A team at its start (R155, R156, R218, R221, R245, R337, R390): at ENTRY with every lane live and active. -/
def startTeam (c : Context) (g : Grid) (uid clus index core slot : Nat) (granules : List Nat) (frame : Option Nat) : Team :=
  let h := g.hdr
  { uid := uid, ctx := c.id, grid := g.num, clus := clus, index := index, core := core, slot := slot, place := .resident
    hdr := h, desc := g.desc, table := g.table, root := c.current
    regs := (List.range h.lanes).foldl (fun m l => sputs 0 m (preloads h g.desc g.size clus index core l)) []
    regBad := [], binds := identityBinds h.regs, live := lowMask h.lanes, dead := 0, active := lowMask h.lanes
    resume := none, stack := [], pc := h.entry, wix := 0, ir := 0, fmod := Mods.zero
    clause := { seta := 15, setb := 15, len := 0, comp := 0, yld := false }, hints := none, flags := Vector.replicate 12 0
    fpx := [], xdead := [], icnt := 0, trapvec := c.trapv, hrev := 0, restart := h.entry, granules := granules, leases := [], scr := []
    scrBad := [], queues := [], tiles := [], tileBad := [], plane := Plane.reset, shadow := Plane.reset
    sieve := SieveCfg.reset, paired := none, pairCount := 0, pend := [], block := none, hold := none, trap := none
    handler := none, frame := frame, pass := none, begun := false, faulted := [], done := 0, gather := none, readyAt := 0
    wasReady := false, mredCount := Vector.replicate 4 0 }

/-- A team becomes resident on a core: its L1 data lines and instruction lines go (R88, R302, R349). -/
def freshCaches (s : State) (core : Nat) : State :=
  l1Invalidate { s with icache := s.icache.filter (fun x => x.core != core) } core

/-- A team becomes resident: its core's lines go, and a REPRO grid's first team on the core is current (R309). -/
def addTeam (s : State) (t : Team) : State :=
  let s := freshCaches { s with teams := s.teams ++ [t], nextUid := s.nextUid + 1 } t.core
  match findGrid s t.ctx t.grid with
  | some g =>
    if t.hdr.repro && !g.roles.any (fun r => r.core == t.core) then
      setGrid s t.ctx { g with roles := g.roles ++ [{ core := t.core, last := logicalIx t, held := true }] }
    else s
  | none => s

/-- The granules that one more team of a kernel takes of a core's scratchpad (R137): the lowest free ones (log entry 47). -/
def takeScr (s : State) (h : KHdr) (core : Nat) : List Nat :=
  (scrFree s core (poolUnits h.partword).2.1).take (teamUnits h).2.1

/-- The next cluster of a grid placed at an origin (R305): the cores take the grid's partition word. -/
def placeAt (s : State) (c : Context) (g : Grid) (o : Nat × Nat) (frames : List (Option Nat)) : State :=
  let h := g.hdr
  let cs := rectCores o h.clw h.clh
  let s := cs.foldl (fun s x => setCore s { coreOf s x with partword := h.partword }) s
  let k : Cluster :=
    { ctx := c.id, grid := g.num, lin := g.next, x0 := o.1, y0 := o.2, w := h.clw, h := h.clh, bars := [], ended := []
      nodes := [] }
  let s := setGrid { s with clusters := s.clusters ++ [k] } c.id { g with next := g.next + 1 }
  (cs.zipIdx.zip frames).foldl (fun s x =>
    addTeam s (startTeam c g s.nextUid g.next x.1.2 x.1.1 ((freeSlot s x.1.1 0 64).getD 0) (takeScr s h x.1.1) x.2)) s

/-- The next cluster of a grid on the first origin that fits (R305); none where none does. -/
def placeNext (s : State) (ctx num : Nat) : Option State :=
  match findCtx s ctx, findGrid s ctx num with
  | some c, some g =>
    let h := g.hdr
    if g.total ≤ g.next then none
    else
      match (origins h.clw h.clh).find? (fun o =>
          (rectCores o h.clw h.clh).all (fun x => c.cores.contains x && coreFits s h x)),
        newFrames s c h (h.clw * h.clh) with
      | some o, some fs => some (placeAt s c g o fs)
      | _, _ => none
  | _, _ => none

/-- n clusters placed, or none (R306). -/
def placeMany (ctx num : Nat) : Nat → State → Option State
  | 0, s => some s
  | n + 1, s => (placeNext s ctx num).bind (placeMany ctx num n)

/-- What the launch unit can place of a grid now: one cluster, or all of a COOP grid (R305, R306). -/
def placeGrid (s : State) (ctx : Nat) (g : Grid) : Option State :=
  if g.hdr.coop then placeMany ctx g.num (g.total - g.next) s else placeNext s ctx g.num

/-- The grid has clusters that wait for placement. -/
def waitsPlace (g : Grid) : Bool := g.st == .running && !g.hdr.harvest && decide (g.next < g.total)

/-- CLUSTER_PLACE (R305, R306): a grid dispatched earlier goes first where it can, and while a COOP grid waits no later
grid is placed. -/
def execClusterPlace (ctx grid : Nat) (s : State) : Out :=
  match findCtx s ctx, findGrid s ctx grid with
  | some c, some g =>
    let older := c.grids.filter (fun x => waitsPlace x && decide (x.disp < g.disp))
    if !waitsPlace g || older.any (fun x => x.hdr.coop || (placeGrid s ctx x).isSome) then notEnabled "CLUSTER_PLACE"
    else
      match placeGrid s ctx g with
      | some s => .next s
      | none => notEnabled "CLUSTER_PLACE"
  | _, _ => notEnabled "CLUSTER_PLACE"

/-! ### Harvest placement (R389, R391, R399) -/

/-- The context whose owner cores include a core, where it allows harvest (R365, R389). -/
def harvestOwner (s : State) (core : Nat) : Option Context :=
  s.contexts.find? (fun o => o.hvok && o.cores.contains core && o.owned.contains core)

/-- The grant of a core to a context stands (R389). -/
def granted (s : State) (ctx core : Nat) : Bool :=
  match harvestOwner s core with
  | some o => o.id != ctx && s.grants.contains (ctx, o.id)
  | none => false

/-- A team of an EXCL grid is resident on the core (R297). -/
def exclHere (s : State) (core : Nat) : Bool := (residents s core).any (fun t => t.hdr.excl)

/-- Harvest teams that hold a slot and saddlebags of a core. -/
def harvestTeams (s : State) (core : Nat) : List Team :=
  s.teams.filter (fun t => t.core == core && t.hdr.harvest && (t.place == .resident || t.place == .held))

/-- A core takes one more harvest team of a kernel (R389, R391). -/
def harvestFits (s : State) (ctx : Nat) (h : KHdr) (core : Nat) : Bool :=
  let ts := harvestTeams s core
  granted s ctx core && !exclHere s core && (freeSlot s core 64 4).isSome &&
    decide (ts.foldl (fun n t => n + t.hdr.regs / 8) 0 + h.regs / 8 ≤ 64) &&
    decide (ts.foldl (fun n t => n + t.hdr.accum) 0 + h.accum ≤ 2)

/-- The cores in the order of R305. -/
def coreOrder : List Nat := (origins 1 1).map (fun o => o.1 + 64 * o.2)

/-- A COOP grid that was dispatched earlier waits for the partition that a core belongs to: no cluster of a grid dispatched later is
placed there (R306). -/
def coopWaits (s : State) (core disp : Nat) : Bool :=
  s.contexts.any (fun o => o.cores.contains core && o.grids.any (fun x => waitsPlace x && x.hdr.coop && decide (x.disp < disp)))

/-- What the launch unit can place of a harvest grid now (R305, R306, R389, R390, R399): an evicted team of it first, else its next
cluster. -/
def harvestNext (s : State) (c : Context) (g : Grid) : Option State :=
  match coreOrder.find? (fun core => harvestFits s c.id g.hdr core && !coopWaits s core g.disp) with
  | none => none
  | some core =>
    let slot := (freeSlot s core 64 4).getD 64
    match s.teams.find? (fun t => t.ctx == c.id && t.grid == g.num && t.place == .evicted) with
    | some t =>
      some (freshCaches (setTeam s { t with place := .resident, core := core, slot := slot, wasReady := false }) core)
    | none =>
      match decide (g.next < g.total), newFrames s c g.hdr 1 with
      | true, some fs =>
        let k : Cluster :=
          { ctx := c.id, grid := g.num, lin := g.next, x0 := core % 64, y0 := core / 64, w := 1, h := 1, bars := [], ended := []
            nodes := [] }
        let s := setGrid { s with clusters := s.clusters ++ [k] } c.id { g with next := g.next + 1 }
        some (addTeam s (startTeam c g s.nextUid g.next 0 core slot [] (fs.headD none)))
      | _, _ => none

/-- A harvest grid that has been dispatched and goes on. -/
def harvests (g : Grid) : Bool := g.st == .running && g.hdr.harvest

/-- A harvest grid dispatched earlier, of whatever context, goes first where it can (R305). -/
def olderHarvest (s : State) (disp : Nat) : Bool :=
  s.contexts.any (fun o => o.grids.any (fun x => harvests x && decide (x.disp < disp) && (harvestNext s o x).isSome))

/-- HARVEST_PLACE (R305, R389). -/
def execHarvestPlace (ctx grid : Nat) (s : State) : Out :=
  match findCtx s ctx, findGrid s ctx grid with
  | some c, some g =>
    if !harvests g || olderHarvest s g.disp then notEnabled "HARVEST_PLACE"
    else
      match harvestNext s c g with
      | some s => .next s
      | none => notEnabled "HARVEST_PLACE"
  | _, _ => notEnabled "HARVEST_PLACE"

/-! ### The end of a team (R273, R288, R302) -/

/-- Nothing of the team is under way (R288): no trap, flag, command, pending instruction, block or word that awaits peers. -/
def teamQuiet (s : State) (t : Team) : Bool :=
  t.live == 0 && t.trap.isNone && t.block.isNone && t.hold.isNone && t.pend.isEmpty && t.flags.toList.all (· == 0) &&
    (teamIssues s t.uid).isEmpty

/-- A cluster whose teams have all ended gives back its scratchpads (R140). -/
def closeCluster (s : State) (ctx grid lin : Nat) : State :=
  if (clusterTeams s ctx grid lin).isEmpty then
    { s with
      teams := s.teams.filter (fun t => !(t.ctx == ctx && t.grid == grid && t.clus == lin))
      clusters := s.clusters.filter (fun k => !(k.ctx == ctx && k.grid == grid && k.lin == lin))
      partials := s.partials.filter (fun p => !(p.ctx == ctx && p.grid == grid && p.clus == lin)) }
  else s

/-- A grid whose teams have all ended completes (R302). -/
def closeIfDone (s : State) (ctx grid : Nat) : State :=
  match findGrid s ctx grid with
  | some g =>
    if g.ended == g.total * (g.hdr.clw * g.hdr.clh) && g.entered then closeGrid s ctx grid .complete 0 else s
  | none => s

/-- TEAM_END (R273, R288): the end release is made, and slot, registers, tiles, frame, lease and queues are given back. -/
def execTeamEnd (u : Nat) (s : State) : Out :=
  match findTeam s u with
  | none => notEnabled "TEAM_END"
  | some t =>
    if (t.place != .resident && t.place != .held) || !teamQuiet s t then notEnabled "TEAM_END"
    else
      let s := drainAll s u
      let s := scrubLeases s t
      let s := dropRole s t
      let s := setTeam s { renew s t with place := .ended, frame := none, leases := [], queues := [], handler := none }
      let s := dropCommands s [u]
      let s := match findCluster s t.ctx t.grid t.clus with
        | some k => setCluster s { k with ended := t.index :: k.ended }
        | none => s
      let s := match findGrid s t.ctx t.grid with
        | some g => setGrid s t.ctx { g with ended := g.ended + 1 }
        | none => s
      let s := wakeQueues s
      let s := (List.range 16).foldl (fun s i => barCheck s t.ctx t.grid t.clus i) s
      let s := rootCheck (gbarCheck s t.ctx t.grid) t.ctx t.grid t.clus
      .next (closeIfDone (closeCluster s t.ctx t.grid t.clus) t.ctx t.grid)

/-! ### Leave and bubbles (R311, R312) -/

/-- A die's budget B (R311, R375): halved while the die is throttled. -/
def Die.budget (d : Die) : Nat := if d.throttled then d.cap / 2 else d.cap

/-- The cost of an engine command by its number (R311). -/
def costOf (s : State) (seq : Nat) : Nat :=
  match s.cores.findSome? (fun c =>
    match (c.copy0 ++ c.copy1).find? (fun x => x.iss.seq == seq) with
    | some x => some (x.cost s)
    | none => (c.mat.find? (fun x => x.iss.seq == seq)).map (fun x =>
      x.cost (((findTeam s x.iss.uid).map (fun t => t.sieve.nq)).getD 1))) with
  | some n => n
  | none => 0

/-- LEAVE_GRANT (R311, R312): the oldest request of a die, where C covers its cost or is full; in bubble mode at once. -/
def execLeaveGrant (die : Nat) (s : State) : Out :=
  let d := dieOf s die
  match decide (die < 8), d.asking with
  | true, q :: rest =>
    let cost : Int := costOf s q
    if bubbleMode s || decide (cost ≤ d.tokens) || d.tokens == (d.budget : Int) then
      .next (setDie s die { d with asking := rest, granted := d.granted ++ [q], tokens := d.tokens - cost })
    else notEnabled "LEAVE_GRANT"
  | _, _ => notEnabled "LEAVE_GRANT"

/-- A die's tokens refilled: C := min(C + B, B). -/
def refill (d : Die) : Die := { d with tokens := min (d.tokens + d.budget) d.budget }

/-- The lowest C over the dies, with the B of that die. -/
def lowestDie (s : State) : Int × Nat :=
  s.dies.toList.foldl (fun acc d => if d.tokens < acc.1 then (d.tokens, d.budget) else acc) (0, 1)

/-- Cycles of a bubble (R312). -/
def bubbleLen (s : State) : Nat :=
  let m := lowestDie s
  min (((-m.1).toNat * 1300 + m.2 - 1) / m.2) 1300

/-- TOKEN_REFILL (R311, R312): at a boundary every die is refilled; in bubble mode with some C negative a bubble begins
instead. -/
def execTokenRefill (s : State) : Out :=
  if s.bubble.isSome then notEnabled "TOKEN_REFILL"
  else if bubbleMode s && decide ((lowestDie s).1 < 0) then
    .next { s with bubble := some (bubbleLen s), bubbles := s.bubbles + 1 }
  else .next { s with dies := s.dies.map refill }

/-- BUBBLE_END (R312): issue slots and engines go on, and the dies are refilled. -/
def execBubbleEnd (s : State) : Out :=
  if s.bubble.isNone then notEnabled "BUBBLE_END" else .next { s with bubble := none, dies := s.dies.map refill }

end Sys2Proof.Machine
end

