-- ==== Sys2Proof/Machine/Firmware.lean ====
section
/-! DEFINITION. Firmware's work on translation trees: the frames it hands out (R108, R358), publishing (R103, R108, R383),
MAP, UNMAP and REMAP (R115, R359), SNAPSHOT and FORK (R114), reclaiming (R110, R111), fwcall (R361), and the walks of a
die (R112, R113). -/

namespace Sys2Proof.Machine

/-! ### Free frames (R91, R108, R377) -/

/-- Two byte ranges meet. -/
def meets (a n b m : Nat) : Bool := decide (a < b + m ∧ b < a + n)

/-- The part of LPDDR6 kept for the checkpoint (R91): the range at an address meets it. -/
def meetsCkpt (m : Manifest) (pa n : Nat) : Bool :=
  m.ckptOn && ((List.range 8).any (fun d => meets pa n (0x10000000000 + d * 2 ^ 38 + 192 * 2 ^ 30) (64 * 2 ^ 30)) ||
    meets pa n 0x12FFF000000 (2 ^ 24))

/-- A page of a tier may lie at an address, as the map of the module goes: outside the strong region and its check area,
the checkpoint area, and, for GDDR7 and LPDDR6, in the tier's range (R84, R89, R91). -/
def pageRange (m : Manifest) (tier pa n : Nat) : Bool :=
  match tier with
  | 0 => isGddr pa && isGddr (pa + n - 1) && !meets pa n (m.srBase * 2 ^ 30) ((checkArea m).1 + (checkArea m).2 - m.srBase * 2 ^ 30)
  | 1 => isLpddr pa && isLpddr (pa + n - 1) && !meetsCkpt m pa n
  | _ => isPeer pa && isPeer (pa + n - 1)

/-- Bytes of a frame firmware tracks: 64 KiB units, or an 8 KiB side frame (R111, R358). -/
def FrameRec.bytes (f : FrameRec) : Nat := if f.units = 0 then 8192 else 65536 * f.units

/-- The range is free: no tracked frame, no node, none of the extra ranges, and no line whose poison was moved to LPDDR6
(R377). -/
def rangeFree (s : State) (extra : List (Nat × Nat)) (pa n : Nat) : Bool :=
  !s.frames.any (fun f => meets pa n f.pa f.bytes) && !s.nodes.any (fun x => meets pa n x.pa 4096) &&
    !extra.any (fun x => meets pa n x.1 x.2) && !s.poisonMoved.any (fun x => meets pa n (64 * x.1) 64)

/-- Firmware's choice among the free addresses base + k * size, k below slots (R108): a free value proposes one, and where
that is not free the lowest that follows something in use. -/
def choose (s : State) (ok : Nat → Bool) (base size slots : Nat) (extra : List (Nat × Nat)) : Option Nat :=
  let first := base + Config.freeNat s.fresh % slots * size
  if ok first then some first
  else
    let up := fun (a : Nat) => base + (a - base + size - 1) / size * size
    let ends := s.frames.map (fun f => f.pa + f.bytes) ++ s.nodes.map (fun x => x.pa + 4096) ++ extra.map (fun x => x.1 + x.2) ++
      s.poisonMoved.map (fun x => 64 * x.1 + 64) ++
      [base, (checkArea s.manifest).1 + (checkArea s.manifest).2] ++ (List.range 8).map (fun d => 0x10000000000 + d * 2 ^ 38)
    lowest ((ends.map up).filter ok)

/-- A free page frame of a tier and size. -/
def choosePage (s : State) (extra : List (Nat × Nat)) (tier size : Nat) : Option Nat :=
  let base := if tier = 0 then 0 else if tier = 1 then 0x10000000000 else 0x80000000000
  let span := if tier = 0 then 2 ^ 39 else if tier = 1 then 2 ^ 41 else 2 ^ 43
  choose s (fun pa => pageRange s.manifest tier pa size && rangeFree s extra pa size) base size (span / size) extra

/-- A free frame of the strong region: a node of 4 KiB, or a side frame of 8 KiB (R99, R116). -/
def chooseStrong (s : State) (extra : List (Nat × Nat)) (size : Nat) : Option Nat :=
  let base := s.manifest.srBase * 2 ^ 30
  choose s (fun pa => inStrong s.manifest pa && inStrong s.manifest (pa + size - 1) && rangeFree s extra pa size) base size
    (s.manifest.srSize * 2 ^ 30 / size) extra

/-- A range written to zero at its home (R358, R364, R372). Lines of the list moved to LPDDR6 stay there: their frames are out of the
free pool (R377). -/
def zeroRange (s : State) (pa n : Nat) : State :=
  let byte := fun (k : Nat) => decide (pa ≤ k ∧ k < pa + n)
  let line := fun (k : Nat) => decide (pa ≤ 64 * k ∧ 64 * k < pa + n)
  { s with
    mem := sdrop s.mem byte, l2 := sdrop s.l2 line, l2Bad := sdrop s.l2Bad line, poison := sdrop s.poison line
    l2First := sdrop s.l2First line, srCheck := sdrop s.srCheck line, cover := sdrop s.cover line }

/-- The lines of a range that are not plain zero: those with listed bytes, dirty lines and poisoned ones. -/
def linesIn (s : State) (pa n : Nat) : List Nat :=
  let here := fun (k : Nat) => decide (pa ≤ 64 * k ∧ 64 * k < pa + n)
  ((s.mem.map (fun (c : Host.Cell) => c.1 / 64) ++ s.l2.map Prod.fst ++ s.l2Bad.map Prod.fst ++ s.poison.map Prod.fst ++
    s.poisonMoved.map Prod.fst ++ s.srCheck.map Prod.fst).filter here).eraseDups

/-- A range copied to a zeroed one of its size; poison travels (R96, R115). -/
def copyRange (s : State) (src dst n : Nat) : State :=
  (linesIn s src n).foldl (fun s ln =>
    let into := dst + (64 * ln - src)
    let hop := lineHop s ln
    let s := homePut s into (homeBytes s (64 * ln) 64)
    if hop ≠ 0 then poisonLine s into hop else s) (zeroRange s dst n)

/-! ### Frames and nodes in use (R111, R358) -/

/-- 64 KiB frames charged to a context in a tier. -/
def chargedTo (s : State) (ctx tier : Nat) : Nat :=
  (s.frames.filter (fun f => f.charged == ctx && tierOf f.pa == some tier)).foldl (fun n f => n + f.units) 0

/-- The quota of a context in a tier (R358); aperture frames take none. -/
def quotaOf (c : Context) (tier : Nat) : Nat := if tier = 0 then c.quotaG else if tier = 1 then c.quotaL else 2 ^ 48

/-- A leaf entry's name of a frame counted, or no longer counted; a frame that no entry names is free (R111). -/
def countFrame (s : State) (pa : Nat) (up : Bool) : State :=
  { s with frames := (s.frames.map (fun f =>
      if f.pa == pa then { f with count := if up then f.count + 1 else f.count - 1 } else f)).filter (fun f =>
        up || f.pa != pa || f.count != 0) }

/-- The entries of a node (R99). -/
def nodeEntries (s : State) (pa : Nat) : List Entry := (List.range 256).map (readEntry s pa)

/-- The frames that a node's valid leaf entries name: pages and side frames. -/
def namedFrames (s : State) (pa : Nat) : List Nat :=
  (nodeEntries s pa).flatMap (fun e => if e.valid && e.leaf then e.frame :: (if e.side = 0 then [] else [e.side]) else [])

/-- The nodes of a tree, top first, with their levels. -/
def reach (s : State) : Nat → Nat → List (Nat × Nat)
  | 0, pa => [(pa, 0)]
  | l + 1, pa =>
    (pa, l + 1) :: (nodeEntries s pa).flatMap (fun e => if e.valid && !e.leaf then reach s l e.frame else [])

/-- The nodes of a root. -/
def rootNodes (s : State) (r : RootDesc) : List (Nat × Nat) := reach s r.lvl r.node

/-- New nodes recorded for a lineage; the frames they name are counted (R111). -/
def holdNodes (s : State) (lineage : Nat) (ns : List (Nat × Nat)) : State :=
  ns.foldl (fun s n =>
    match s.nodes.find? (fun x => x.pa == n.1) with
    | some x =>
      if x.lineages.contains lineage then s
      else { s with nodes := s.nodes.map (fun y => if y.pa == n.1 then { y with lineages := lineage :: y.lineages } else y) }
    | none =>
      let s := { s with nodes := s.nodes ++ [{ pa := n.1, level := n.2, lineages := [lineage] }] }
      (namedFrames s n.1).foldl (fun s f => countFrame s f true) s) s

/-! ### RIDs and context ids (R102, R111, R363) -/

/-- RIDs in use: of roots not freed, and of freed ones that no flush has recycled. -/
def usedRids (s : State) : List Nat := s.roots.map (fun r => r.desc.rid.toNat) ++ s.recycle

/-- A number from 1 to n that is not used: a free value proposes one, else the lowest is taken. -/
def chooseId (s : State) (n : Nat) (used : List Nat) : Option Nat :=
  let first := Config.freeNat s.fresh % n + 1
  if used.contains first then (seqFrom 1 (min n (used.length + 1))).find? (fun k => !used.contains k) else some first

/-- A free RID (R108). -/
def chooseRid (s : State) : Option Nat := chooseId s 65535 (usedRids s)

/-- A free context id (R363): none of a living context or one under scrub. -/
def chooseCtx (s : State) : Option Nat := chooseId s 4095 (s.contexts.map Context.id)

/-! ### Building (R108, R383) -/

/-- A publish being built: the state with new nodes written, the frames taken so far, and whether all could be had. -/
structure Build where
  st : State
  taken : List (Nat × Nat)
  ok : Bool
  deriving DecidableEq, Repr

/-- The bytes of a node. -/
def nodeBytes (es : List Entry) : List Byte := es.flatMap (fun e => bytesOf 16 (entryNat e))

/-- A new node written (R108). -/
def Build.node (b : Build) (es : List Entry) : Build × Nat :=
  match chooseStrong b.st b.taken 4096 with
  | none => ({ b with ok := false }, 0)
  | some pa =>
    ({ b with st := { homePut b.st pa (nodeBytes es) with fresh := b.st.fresh + 1 }, taken := (pa, 4096) :: b.taken }, pa)

/-- An entry that is not valid. -/
def noEntry : Entry := entryOf 0

/-- An entry that names a node. -/
def nodeEntry (gen : BitVec 16) (pa : Nat) (atten : Bool) : Entry :=
  { noEntry with gen := gen.toNat, frame := pa, atten := atten, valid := true }

/-- What a change does to an entry of a node: keeps it, replaces it, or goes on below it. -/
inductive Act where
  | keep
  | put (e : Entry)
  | down
  deriving DecidableEq, Repr

/-- The entries of a node of level l in a tree whose top lies at a level and an address (R383): a level above the top has the
one entry that leads to it. -/
def srcEntries (s : State) (l : Nat) : Option (Nat × Nat) → List Entry
  | none => List.replicate 256 noEntry
  | some (k, pa) => if k = l then nodeEntries s pa else List.replicate 256 noEntry

/-- The tree below entry i. -/
def srcChild (l i : Nat) (e : Entry) : Option (Nat × Nat) → Option (Nat × Nat)
  | none => none
  | some (k, pa) =>
    if k = l then (if e.valid && !e.leaf then some (l - 1, e.frame) else none)
    else if i = 0 then some (k, pa)
    else none

/-- A node with changed entries: none where no valid entry is left, the old node where nothing changed (R108). -/
def finishNode (l : Nat) (src : Option (Nat × Nat)) (old new : List Entry) (b : Build) : Build × Option Nat :=
  if new.all (fun e => !e.valid) then (b, none)
  else
    match src with
    | some (k, pa) => if k = l ∧ old = new then (b, some pa) else (b.node new).map id some
    | none => (b.node new).map id some

/-- The nodes of the range lo to hi changed by an action for each level, page address and entry: path copying (R108). -/
def rebuild (act : Nat → Nat → Entry → Act) (gen : BitVec 16) (lo hi : Nat) :
    Nat → Option (Nat × Nat) → Nat → Build → Build × Option Nat
  | 0, src, base, b =>
    let old := srcEntries b.st 0 src
    let new := old.zipIdx.map (fun x =>
      let a := base + x.2 * 65536
      if a < lo ∨ hi ≤ a then x.1
      else
        match act 0 a x.1 with
        | .put e => e
        | _ => x.1)
    finishNode 0 src old new b
  | l + 1, src, base, b =>
    let old := srcEntries b.st (l + 1) src
    let size := 2 ^ levelShift (l + 1)
    let r := old.zipIdx.foldl (fun (acc : Build × List Entry) x =>
      let a := base + x.2 * size
      let below := srcChild (l + 1) x.2 x.1 src
      let virt := !x.1.valid && below.isSome
      if (a + size ≤ lo ∨ hi ≤ a) ∧ !virt then (acc.1, acc.2 ++ [x.1])
      else
        match (if virt then Act.down else act (l + 1) a x.1) with
        | .keep => (acc.1, acc.2 ++ [x.1])
        | .put e => (acc.1, acc.2 ++ [e])
        | .down =>
          let r := rebuild act gen lo hi l below a acc.1
          (r.1, acc.2 ++ [match r.2 with
            | none => noEntry
            | some pa => if x.1.valid && !x.1.leaf && x.1.frame == pa then x.1 else nodeEntry gen pa x.1.atten])) (b, [])
    finishNode (l + 1) src old r.2 r.1

/-- The lowest top that still covers every leaf (R383); the ATTEN of an entry above the new top goes with it (DEDUCED, log entry
103). -/
def lowerTop (s : State) (minl : Nat) : Nat → Nat → Nat × Nat
  | 0, pa => (0, pa)
  | l + 1, pa =>
    if l + 1 ≤ minl then (l + 1, pa)
    else
      match (nodeEntries s pa).zipIdx.filter (fun x => x.1.valid) with
      | [(e, 0)] => if e.leaf then (l + 1, pa) else lowerTop s minl l e.frame
      | _ => (l + 1, pa)

/-- The top for a rebuilt tree (R108, R383): an emptied tree is the empty root of LVL 3. -/
def finishTop (c : Context) (lvl : Nat) (r : Build × Option Nat) : Build × Nat × Nat :=
  match r.2 with
  | some pa => (r.1, lowerTop r.1.st c.minl lvl pa)
  | none => ((r.1.node (List.replicate 256 noEntry)).1, 3, (r.1.node (List.replicate 256 noEntry)).2)

/-- The next GEN of a context, where R103 allows it. -/
def nextGen (s : State) (c : Context) : Option (BitVec 16) :=
  let gen := c.current.gen + 1
  match s.roots.find? (fun r => r.lineage == c.lineage) with
  | some r => if 2 ^ 15 ≤ (gen - r.desc.gen).toNat then none else some gen
  | none => some gen

/-- The publish (R103, R108, R110): the new root is current, and the old one is retired with its exclusive list. -/
def publish (s : State) (c : Context) (root : RootDesc) : State :=
  let new := rootNodes s root
  let excl := (rootNodes s c.current).map Prod.fst |>.filter (fun n => !new.any (fun x => x.1 == n))
  let s := holdNodes s c.lineage new
  let s := { s with roots := s.roots.map (fun r =>
      if r.desc.rid == c.current.rid && r.lineage == c.lineage then { r with life := .retired, excl := excl } else r) ++
        [{ lineage := c.lineage, ctx := c.id, desc := root, life := .current, snap := false, excl := [] }] }
  match findCtx s c.id with
  | some c => setCtx s { c with current := root }
  | none => s

/-! ### The map family (R359) -/

/-- The 64-byte block (R359). -/
structure MapBlock where
  va : Nat
  npg : Nat
  attr : Word
  sva : Nat
  form : Nat
  sctx : Nat
  sid : Nat
  rest : Nat
  deriving DecidableEq, Repr

/-- A block from its bytes. -/
def mapBlock (bs : List Byte) : MapBlock :=
  { va := natAt bs 0 8, npg := natAt bs 8 4, attr := wordAt bs 12, sva := natAt bs 16 8, form := natAt bs 24 2
    sctx := natAt bs 26 2, sid := natAt bs 28 4, rest := natAt bs 32 32 }

/-- SIZE, FMT and TIER of ATTR. -/
def MapBlock.lv (b : MapBlock) : Nat := (fld b.attr 16 2).toNat
def MapBlock.fmt (b : MapBlock) : Nat := (fld b.attr 12 4).toNat
def MapBlock.tier (b : MapBlock) : Nat := (fld b.attr 10 2).toNat
/-- Bytes of a page. -/
def MapBlock.size (b : MapBlock) : Nat := 2 ^ levelShift b.lv
/-- The end of the range. -/
def MapBlock.hi (b : MapBlock) : Nat := b.va + b.npg * b.size
/-- The range lies below 2^48 and starts at a page. -/
def MapBlock.rangeOk (b : MapBlock) : Bool := b.va % b.size == 0 && decide (b.hi ≤ 2 ^ 48)

/-- The new leaf of a page (R100, R359). -/
def MapBlock.leaf (b : MapBlock) (gen : BitVec 16) (f : Nat × Nat) : Entry :=
  { noEntry with
    gen := gen.toNat, side := f.2, frame := f.1, fmt := b.fmt, tier := b.tier, ex := b.attr.getLsbD 8, wr := b.attr.getLsbD 7
    rd := b.attr.getLsbD 6, leaf := true, valid := true }

/-- A reserved bit or value of ATTR is set (R357, R359). -/
def MapBlock.attrReserved (b : MapBlock) : Bool :=
  fld b.attr 18 14 != 0 || b.attr.getLsbD 9 || fld b.attr 0 6 != 0 || b.lv == 3 || decide (6 ≤ b.fmt) || b.tier == 3

/-- ATTR is refused (R359): it is reserved, or gives an entry that R101 calls malformed. -/
def MapBlock.attrBad (b : MapBlock) : Bool :=
  b.attrReserved || (b.fmt != 0 && (b.lv != 0 || b.attr.getLsbD 8))

/-- The leaf that maps an address: its level and entry, and whether ATTEN stands on its path. -/
def leafOf (s : State) (root : RootDesc) (va : Nat) : Option (Nat × Entry × Bool) :=
  if 2 ^ 48 ≤ va ∨ va / 2 ^ (levelShift root.lvl + 8) ≠ 0 then none
  else
    match walkFrom s va root.lvl root.node false with
    | .leaf l e att => some (l, e, att)
    | _ => none

/-- A leaf lies somewhere in the page of level lv at an address, below a node of level l. -/
def leafUnder (s : State) (va lv : Nat) : Nat → Nat → Bool
  | 0, node => (readEntry s node (va / 65536 % 256)).valid
  | l + 1, node =>
    let e := readEntry s node (va / 2 ^ levelShift (l + 1) % 256)
    if !e.valid then false else if e.leaf || l + 1 = lv then true else leafUnder s va lv l e.frame

/-- A leaf lies in the page of level lv at an address. -/
def occupied (s : State) (root : RootDesc) (va lv : Nat) : Bool :=
  if va / 2 ^ (levelShift root.lvl + 8) ≠ 0 then false
  else if root.lvl < lv then (nodeEntries s root.node).any Entry.valid
  else leafUnder s va lv root.lvl root.node

/-- The page addresses of a block. -/
def MapBlock.pages (b : MapBlock) : List Nat := (List.range b.npg).map (fun k => b.va + k * b.size)

/-- A leaf that holds an address reaches out of the range (R359). -/
def partly (s : State) (root : RootDesc) (lo hi va : Nat) : Bool :=
  match leafOf s root va with
  | some (l, _, _) =>
    let n := 2 ^ levelShift l
    decide (va / n * n < lo ∨ hi < va / n * n + n)
  | none => false

/-- What REMAP meets at a page (R359): 0, or its status. -/
def remapStat (s : State) (root : RootDesc) (b : MapBlock) (va : Nat) : Nat :=
  match leafOf s root va with
  | some (l, _, _) => if l = b.lv then 0 else 6
  | none => if occupied s root va b.lv then 6 else 4

/-- What form 1 meets at a source page: 0, or its status. -/
def sourceStat (s : State) (root : RootDesc) (b : MapBlock) (va : Nat) : Nat :=
  match leafOf s root va with
  | some (l, e, _) => if l = b.lv ∧ e.fmt = b.fmt ∧ e.tier = b.tier then 0 else 2
  | none => if occupied s root va b.lv then 2 else 4

/-- The first status of a list that is not 0. -/
def firstStat (ks : List Nat) : Nat := (ks.find? (fun k => k != 0)).getD 0

/-- New zeroed frames for n pages, each with a side frame for a format page, charged to a context (R358, R359). Aperture
frames are a peer's: nothing is zeroed or charged, but the entries that name them are counted (R111). -/
def newPages (b : Build) (ctx tier size fmt : Nat) : Nat → Build × List (Nat × Nat)
  | 0 => (b, [])
  | n + 1 =>
    let r := newPages b ctx tier size fmt n
    match choosePage r.1.st r.1.taken tier size with
    | none => ({ r.1 with ok := false }, r.2)
    | some pa =>
      let s := { r.1.st with fresh := r.1.st.fresh + 1 }
      let s := { (if tier = 2 then s else zeroRange s pa size) with
        frames := s.frames ++ [{ pa := pa, units := size / 65536, count := 0, charged := if tier = 2 then 0 else ctx }] }
      let b : Build := { r.1 with st := s, taken := (pa, size) :: r.1.taken }
      if fmt = 0 then (b, r.2 ++ [(pa, 0)])
      else
        match chooseStrong b.st b.taken 8192 with
        | none => ({ b with ok := false }, r.2)
        | some side =>
          let s := { zeroRange b.st side 8192 with
            frames := b.st.frames ++ [{ pa := side, units := 0, count := 0, charged := 0 }], fresh := b.st.fresh + 1 }
          ({ b with st := s, taken := (side, 8192) :: b.taken }, r.2 ++ [(pa, side)])

/-- The level of a top that covers an address (R102, R383). -/
def coverLevel (hi : Nat) : Nat := if hi ≤ 2 ^ 24 then 0 else if hi ≤ 2 ^ 32 then 1 else if hi ≤ 2 ^ 40 then 2 else 3

/-- The answer of a command: its status, the result word, and the state, which a status other than OK leaves (R357). -/
abbrev Answer := State × Nat × Nat

/-- A built tree published under a new RID: the result word is its GEN (R361). -/
def publishBuild (s0 : State) (c : Context) (gen : BitVec 16) (t : Build × Nat × Nat) : Answer :=
  if !t.1.ok then (s0, 3, 0)
  else
    match chooseRid t.1.st with
    | none => (s0, 3, 0)
    | some rid =>
      let root : RootDesc := { rid := BitVec.ofNat 16 rid, gen := gen, lvl := t.2.1, node := t.2.2 }
      (publish { t.1.st with fresh := t.1.st.fresh + 1 } c root, 0, gen.toNat)

/-- The leaves of a range set (R108). -/
def setLeaves (s0 : State) (b : Build) (c : Context) (gen : BitVec 16) (m : MapBlock) (fs : List (Nat × Nat)) : Answer :=
  let top := max c.current.lvl (max c.minl (max m.lv (coverLevel m.hi)))
  let act := fun l a _ => if l = m.lv then Act.put (m.leaf gen (fs.getD ((a - m.va) / m.size) (0, 0))) else Act.down
  publishBuild s0 c gen (finishTop c top (rebuild act gen m.va m.hi top (some (c.current.lvl, c.current.node)) 0 b))

/-- MAP and REMAP in forms 0 and 1, once their range has been checked: new frames, or the source's (R358, R359). -/
def mapPages (s : State) (c : Context) (m : MapBlock) (gen : BitVec 16) (source : Option RootDesc) : Answer :=
  let b : Build := { st := s, taken := [], ok := true }
  match source with
  | some root =>
    setLeaves s b c gen m ((List.range m.npg).map (fun k =>
      match leafOf s root (m.sva + k * m.size) with
      | some (_, e, _) => (e.frame, e.side)
      | none => (0, 0)))
  | none =>
    if quotaOf c m.tier < chargedTo s c.id m.tier + m.npg * (m.size / 65536) then (s, 3, 0)
    else
      let r := newPages b c.id m.tier m.size m.fmt m.npg
      setLeaves s r.1 c gen m r.2

/-- The source root of form 1, or none for new frames; a status where SCTX names no context. -/
def sourceOf (s : State) (c : Context) (m : MapBlock) (isMap : Bool) : Except Nat (Option RootDesc) :=
  if m.form = 0 then .ok none
  else if isMap && m.sctx != 0 then
    match findCtx s m.sctx with
    | some x => if x.dying then .error 4 else .ok (some x.current)
    | none => .error 4
  else .ok (some c.current)

/-- MAP, and REMAP in forms 0 and 1 (R359). -/
def runMap (s : State) (c : Context) (m : MapBlock) (isMap : Bool) : Answer :=
  if !m.rangeOk || (m.form == 1 && m.sva % m.size != 0) then (s, 2, 0)
  else
    match sourceOf s c m isMap with
    | .error k => (s, k, 0)
    | .ok source =>
      let k := firstStat (m.pages.map (fun a =>
        if isMap then (if occupied s c.current a m.lv then 6 else 0) else remapStat s c.current m a))
      let k := if k ≠ 0 then k else
        match source with
        | some root => firstStat ((List.range m.npg).map (fun i => sourceStat s root m (m.sva + i * m.size)))
        | none => 0
      if k ≠ 0 then (s, k, 0)
      else
        match nextGen s c with
        | none => (s, 1, 0)
        | some gen => mapPages s c m gen source

/-- UNMAP (R359): every leaf of the range is cleared, and emptied nodes go (R108). -/
def runUnmap (s : State) (c : Context) (m : MapBlock) : Answer :=
  if !m.rangeOk then (s, 2, 0)
  else if partly s c.current m.va m.hi m.va || partly s c.current m.va m.hi (m.hi - 1) then (s, 6, 0)
  else
    match nextGen s c with
    | none => (s, 1, 0)
    | some gen =>
      let act := fun _ _ (e : Entry) => if !e.valid then Act.keep else if e.leaf then Act.put noEntry else Act.down
      publishBuild s c gen (finishTop c c.current.lvl
        (rebuild act gen m.va m.hi c.current.lvl (some (c.current.lvl, c.current.node)) 0 { st := s, taken := [], ok := true }))

/-- The path of an address copied, leaf node first, with the new leaf; attenuation moves to the siblings (R115). -/
def copyPath (va lv : Nat) (gen : BitVec 16) (leaf : Entry) : Nat → Nat → Bool → Build → Build × Nat
  | l, node, att, b =>
    let es := nodeEntries b.st node
    let i := va / 2 ^ levelShift l % 256
    let e := es.getD i noEntry
    let spread := es.zipIdx.map (fun x => if att && x.1.valid && x.2 != i then { x.1 with atten := true } else x.1)
    match l with
    | 0 => b.node (spread.set i leaf)
    | l' + 1 =>
      if l' + 1 = lv then b.node (spread.set i leaf)
      else
        let r := copyPath va lv gen leaf l' e.frame (att || e.atten) b
        r.1.node (spread.set i (nodeEntry gen r.2 false))

/-- REMAP form 2 (R115): a frame that more than one entry names is copied; a new aperture frame is not (DESIGN CHOICE, log entry
113). -/
def runCopyForm (s : State) (c : Context) (m : MapBlock) : Answer :=
  if !m.rangeOk || m.npg != 1 then (s, 2, 0)
  else
    match firstStat [remapStat s c.current m m.va], leafOf s c.current m.va, nextGen s c with
    | 0, some (_, e, _), some gen =>
      let shared := match s.frames.find? (fun f => f.pa == e.frame) with
        | some f => decide (1 < f.count)
        | none => false
      if shared && decide (quotaOf c e.tier < chargedTo s c.id e.tier + m.size / 65536) then (s, 3, 0)
      else
        let b : Build := { st := s, taken := [], ok := true }
        let r := if shared then newPages b c.id e.tier m.size e.fmt 1 else (b, [(e.frame, e.side)])
        match r.1.ok, r.2 with
        | true, [(f, side)] =>
          let st := if shared then copyRange r.1.st e.frame f m.size else r.1.st
          let st := if shared && e.fmt != 0 && e.side != 0 then copyRange st e.side side 8192 else st
          let leaf := { e with frame := f, side := side, atten := false, gen := gen.toNat }
          let p := copyPath m.va m.lv gen leaf c.current.lvl c.current.node false { r.1 with st := st }
          publishBuild s c gen (finishTop c c.current.lvl (p.1, some p.2))
        | _, _ => (s, 3, 0)
    | 0, _, none => (s, 1, 0)
    | k, _, _ => (s, k, 0)

/-- A lineage number that nothing uses. -/
def newLineage (s : State) : Nat :=
  (s.roots.map RootRec.lineage ++ s.contexts.map Context.lineage).foldl max 0 + 1

/-- SNAPSHOT take (R114): a lineage with one root, which pins itself; the result word is its RID. -/
def takeSnapshot (s : State) (c : Context) : Answer :=
  match chooseRid s with
  | none => (s, 3, 0)
  | some rid =>
    let k := newLineage s
    let s' := holdNodes { s with fresh := s.fresh + 1 } k (rootNodes s c.current)
    let desc := { c.current with rid := BitVec.ofNat 16 rid }
    let rec_ : RootRec := { lineage := k, ctx := c.id, desc := desc, life := .current, snap := true, excl := [] }
    ({ s' with roots := s'.roots ++ [rec_] }, 0, rid)

/-- A snapshot dropped (R114): its root is retired, and its exclusive list is every node it reaches. -/
def retireRoot (s : State) (r : RootRec) : State :=
  { s with roots := s.roots.map (fun x => if x.desc.rid == r.desc.rid then
      { x with life := .retired, snap := false, excl := (rootNodes s r.desc).map Prod.fst } else x) }

/-- SNAPSHOT drop (R114, R359). No root of the context is published, so the result word is a free value. -/
def dropSnapshot (s : State) (c : Context) (sid : Nat) : Answer :=
  match s.roots.find? (fun r => r.snap && r.ctx == c.id && r.desc.rid.toNat == sid) with
  | some r => ({ retireRoot s r with fresh := s.fresh + 1 }, 0, Config.freeNat s.fresh % 2 ^ 32)
  | none => (s, 4, 0)

/-- A context as CTX_CREATE and FORK make it: no partition, no grid, no quota, DT-1 (R358, R363). -/
def newContext (id lineage : Nat) (root : RootDesc) (hang trapv frqb tfrb : Word) (home minl : Nat) : Context :=
  { id := id, hang := hang, trapv := trapv, home := home, minl := minl, tfrb := tfrb, frqb := frqb, frqh := 0, frqt := 0
    lineage := lineage, current := root, tables := [], quotaG := 0, quotaL := 0, cores := [], owned := [], hvok := false
    nextGrid := 1, grids := [], hangCount := 0, dying := false }

/-- Three free RIDs. -/
def threeRids (s : State) : Option (Nat × Nat × Nat) :=
  match chooseRid s with
  | none => none
  | some a =>
    match chooseId { s with fresh := s.fresh + 1 } 65535 (a :: usedRids s) with
    | none => none
    | some b => (chooseId { s with fresh := s.fresh + 2 } 65535 (a :: b :: usedRids s)).map (fun c => (a, b, c))

/-- FORK (R114): a child context with the parent's settings (log entry 23) whose tree is the parent's, both under new top
nodes that attenuate every entry; the result word is the child's id. -/
def runFork (s : State) (c : Context) (m : MapBlock) : Answer :=
  if m.npg ≠ 1 then (s, 2, 0)
  else
    match nextGen s c, chooseCtx s, threeRids { s with fresh := s.fresh + 1 } with
    | none, _, _ => (s, 1, 0)
    | some gen, some id, some (r0, r1, r2) =>
      let old := c.current
      let es := (nodeEntries s old.node).map (fun e => if e.valid then { e with atten := true } else e)
      let b : Build := { st := { s with fresh := s.fresh + 4 }, taken := [], ok := true }
      let p := b.node es
      let q := p.1.node es
      if !q.1.ok then (s, 3, 0)
      else
        let k := newLineage s
        let desc := fun (rid node : Nat) => ({ rid := BitVec.ofNat 16 rid, gen := gen, lvl := old.lvl, node := node } : RootDesc)
        let st := holdNodes q.1.st k (rootNodes s old)
        -- the child's lineage starts with a copy of the old root
        let copy : RootDesc := { old with rid := BitVec.ofNat 16 r0 }
        let st := { st with
          roots := st.roots ++ [{ lineage := k, ctx := id, desc := copy, life := .current, snap := false, excl := [] }],
          contexts := st.contexts ++
            [newContext id k copy c.hang c.trapv c.frqb c.tfrb c.home c.minl] }
        let st := publish st c (desc r1 p.2)
        match findCtx st id with
        | some x => (publish st x (desc r2 q.2), 0, id)
        | none => (s, 3, 0)
    | _, _, _ => (s, 3, 0)

/-- A command of the map family for a context (R359): its status and result word. -/
def mapFamily (s : State) (c : Context) (code : Nat) (m : MapBlock) : Answer :=
  if m.rest ≠ 0 ∨ m.npg = 0 ∨ 65536 < m.npg then (s, 2, 0)
  else
    match code with
    | 0x21 => if m.attrBad || decide (1 < m.form) then (s, 2, 0) else runMap s c m true
    | 0x22 => if m.attrBad || m.form != 0 then (s, 2, 0) else runUnmap s c m
    | 0x23 =>
      if m.attrBad || decide (2 < m.form) then (s, 2, 0) else if m.form = 2 then runCopyForm s c m else runMap s c m false
    | 0x24 =>
      if m.attrReserved then (s, 2, 0)
      else if m.form = 0 then takeSnapshot s c
      else if m.form = 1 then dropSnapshot s c m.sid
      else (s, 2, 0)
    | 0x25 => if m.attrReserved || m.form != 0 then (s, 2, 0) else runFork s c m
    | _ => (s, 2, 0)

/-! ### fwcall (R361, R362) -/

/-- The command of a team's fwcall that firmware has still to run: its code and block. -/
def fwPending : Option Block → Option (Nat × List Byte)
  | some (.fwcall code _ _ blk none _ _) => some (code, blk)
  | _ => none

/-- A block with its command's status and result. -/
def fwAnswered (b : Option Block) (stat res : Nat) : Option Block :=
  match b with
  | some (.fwcall code dsts a blk none since lim) =>
    some (.fwcall code dsts a blk (some (BitVec.ofNat 32 stat, BitVec.ofNat 32 res)) since lim)
  | b => b

/-- Firmware runs a team's fwcall (R361, R362): that of the program, which its handler interrupts, before that of the handler; an
SCTX other than 0 is DENIED. -/
def fwRun (s : State) (u : Nat) : State :=
  match findTeam s u with
  | none => s
  | some t =>
    let inHandler := t.handler.bind Handler.block
    match (if (fwPending inHandler).isSome then fwPending inHandler else fwPending t.block) with
    | none => s
    | some (code, blk) =>
      let m := mapBlock blk
      let r : Answer := match findCtx s t.ctx with
        | none => (s, 4, 0)
        | some c => if c.dying then (s, 4, 0) else if m.sctx ≠ 0 then (s, 5, 0) else mapFamily s c code m
      let t := renew r.1 t
      if (fwPending inHandler).isSome then
        setTeam r.1 { t with handler := t.handler.map (fun (h : Handler) => { h with block := fwAnswered h.block r.2.1 r.2.2 }) }
      else setTeam r.1 { t with block := fwAnswered t.block r.2.1 r.2.2 }

/-- A fwcall whose command has run completes (R361): status and result in every active lane, an acquire at .dv. -/
def fwFinish (s : State) (u : Nat) : State :=
  match findTeam s u with
  | none => s
  | some t =>
    match t.block, t.place == .resident && t.trap.isNone with
    | some (.fwcall _ dsts _ _ (some (st, res)) _ _), true =>
      let ws := (lanesOf t.active).flatMap (fun l => (dsts.zip [st, res]).map (fun x => (regKey l x.1, x.2)))
      l1Invalidate (taint (setTeam s (unblock (writeRegs t ws))) t (ws.map Prod.fst)) t.core
    | _, _ => s

/-! ### Reclaiming (R106, R110, R111) -/

/-- Holders of a root's pin (R106): teams that have not ended, engine commands, a snapshot; and the accesses that a tree has
already named a frame for, or is being walked for, so that none reaches a freed one (R107, R109). -/
def pinned (s : State) (r : RootRec) : Bool :=
  r.snap || s.teams.any (fun t => t.root.rid == r.desc.rid && t.place != .ended) ||
    s.stores.any (fun e => e.root.rid == r.desc.rid) ||
    s.teams.any (fun t => t.pend.any (fun p => p.again.any (fun a => a.scr.isNone && a.root.rid == r.desc.rid))) ||
    s.dies.toList.any (fun d => (d.walks.flatMap WalkRun.misses ++ d.misses).any (fun m => m.root.rid == r.desc.rid)) ||
    s.cores.any (fun c => (c.copy0 ++ c.copy1).any (fun x => x.iss.root.rid == r.desc.rid) ||
      c.mat.any (fun x => x.iss.root.rid == r.desc.rid))

/-- Retired roots without a pin are released (R110). -/
def markReleased (s : State) : State :=
  if s.roots.any (fun r => r.life == .retired && !pinned s r) then
    { s with roots := s.roots.map (fun r => if r.life == .retired && !pinned s r then { r with life := .released } else r) }
  else s

/-- A frame that a freed node named (R111): with its last name it is free; the frames of a context under destruction are
written to zero (R364). -/
def releaseFrame (wipe : Bool) (s : State) (pa : Nat) : State :=
  match s.frames.find? (fun f => f.pa == pa) with
  | none => s
  | some f =>
    let s := countFrame s pa false
    if wipe && f.count == 1 then zeroRange s pa f.bytes else s

/-- A node of an exclusive list (R111). -/
def releaseNode (lineage : Nat) (wipe : Bool) (s : State) (pa : Nat) : State :=
  match s.nodes.find? (fun n => n.pa == pa) with
  | none => s
  | some n =>
    match n.lineages.filter (fun k => k != lineage) with
    | [] =>
      let s := { s with dies := s.dies.map (fun d =>
        { d with leafCache := if n.level = 0 then d.leafCache.filter (fun e => e.node != pa) else d.leafCache }) }
      let s := (namedFrames s pa).foldl (releaseFrame wipe) s
      let s := { s with nodes := s.nodes.filter (fun x => x.pa != pa) }
      if wipe then zeroRange s pa 4096 else s
    | rest => { s with nodes := s.nodes.map (fun x => if x.pa == pa then { x with lineages := rest } else x) }

/-- EXCLUSIVE_LIST_PROCESS (R110, R111): the oldest root of a lineage, released, is freed. What teams that are gone have
stored is performed before its frames are given back. -/
def execExclusiveListProcess (lineage : Nat) (s : State) : Out :=
  let s := markReleased (performAll s (closeSet s (fun e => (findTeam s e.uid).isNone)))
  match s.roots.find? (fun r => r.lineage == lineage) with
  | none => notEnabled "EXCLUSIVE_LIST_PROCESS"
  | some r =>
    if r.life != .released then notEnabled "EXCLUSIVE_LIST_PROCESS"
    else
      let wipe := match findCtx s r.ctx with
        | some c => c.dying
        | none => false
      let s := r.excl.foldl (releaseNode lineage wipe) s
      .next { s with
        roots := s.roots.filter (fun x => !(x.lineage == lineage && x.desc.rid == r.desc.rid))
        recycle := s.recycle ++ [r.desc.rid.toNat] }

/-- RID_TAG_FLUSH (R111): with fewer than 1,024 RIDs free, the cache entries of freed RIDs go, with what walks are left of them,
and those RIDs may be used again. -/
def execRidTagFlush (s : State) : Out :=
  if s.recycle.isEmpty || decide (1024 ≤ 65535 - (usedRids s).length) then notEnabled "RID_TAG_FLUSH"
  else
    let old := s.recycle
    .next { s with
      recycle := []
      dies := s.dies.map (fun d => { d with
        pathCache := d.pathCache.filter (fun e => !old.contains e.rid), walks := d.walks.filter (fun w => !old.contains w.rid)
        misses := d.misses.filter (fun m => !old.contains m.key.1) })
      cores := s.cores.map (fun c => { c with leaf := c.leaf.filter (fun e => !old.contains e.rid) }) }

/-! ### Walks (R112, R113) -/

/-- TRANSLATION_WALK (R112, R113): the oldest walk of a die ends and fills the caches for every miss that it serves, and the misses
that wait take the slots that are free; no result depends on it (R109). -/
def execTranslationWalk (die : Nat) (s : State) : Out :=
  let d := dieOf s die
  match decide (die < 8), d.walks with
  | true, w :: rest =>
    let s := w.misses.foldl (fun s m => fillMiss s die m) (setDie s die { d with walks := rest })
    let d := dieOf s die
    .next (setDie s die (d.misses.foldl addMiss { d with misses := [] }))
  | _, _ => notEnabled "TRANSLATION_WALK"

end Sys2Proof.Machine
end

