-- ==== Sys2Proof/Machine/Preempt.lean ====
section
/-! DEFINITION. Trap entry as an event (R336, R338), pre-emption and resume (R346 to R349), and the revocation of harvest
teams (R395 to R400). -/

namespace Sys2Proof.Machine

/-! ### Traps that wait for the record queue (R336, R338) -/

/-- A team with records that wait to be appended, and that is not saved. -/
def stalled (s : State) (u : Nat) : Bool :=
  match findTeam s u with
  | some t => t.trap.isSome && t.place == .resident
  | none => false

/-- TRAP_ENTRY (R338): the records fit, and they are appended; then the handler is entered, or the grid ends. -/
def execTrapEntry (u : Nat) (s : State) : Out :=
  if stalled s u && !stalled (settle s u) u then .next (settle s u) else notEnabled "TRAP_ENTRY"

/-- FRQ_STALL_RETRY (R336): a stalled team looks for room again. -/
def execFrqStallRetry (u : Nat) (s : State) : Out :=
  if stalled s u then .next (settle s u) else notEnabled "FRQ_STALL_RETRY"

/-! ### Stopping a team's engine commands (R129, R228) -/

/-- The team's commands on its core stop at an element, row, column or tile boundary. -/
def stopCommands (s : State) (t : Team) : State :=
  let mine := fun (i : Issue) => i.uid == t.uid
  let s := ((coreOf s t.core).copy0.filter (fun c => mine c.iss)).foldl (fun s c => stopCopy s t.core false c) s
  let s := ((coreOf s t.core).copy1.filter (fun c => mine c.iss)).foldl (fun s c => stopCopy s t.core true c) s
  ((coreOf s t.core).mat.filter (fun c => mine c.iss)).foldl (fun s c => stopMat s t.core c) s

/-- What a core's units still hold of a team is let go: the issue slot, the plane set and the operand line buffer. -/
def letGo (s : State) (t : Team) : State :=
  let c := coreOf s t.core
  setCore { s with opbuf := s.opbuf.filter (fun b => b.uid != t.uid) } { c with
    plane := if c.plane == some t.uid then none else c.plane
    issuing := if c.issuing == some t.uid then none else c.issuing }

/-! ### Pre-emption (R346 to R348) -/

/-- A core that the team's partition does not hold (R346, R365). -/
def coreLost (s : State) (t : Team) : Bool :=
  match findCtx s t.ctx with
  | some c => !c.cores.contains t.core
  | none => true

/-- The owner and normal teams of a core that a pre-emption request names (R346). -/
def namedTeams (s : State) (core : Nat) : List Team :=
  (residents s core).filter (fun t => gridSuspended s t || coreLost s t)

/-- The records of lanes that are lost already, of a trap that waits: under LANEKILL the grid ends with them (R97). -/
def lossTrap (t : Team) : Option Trap :=
  match t.trap with
  | none => none
  | some tr =>
    match (tr.pre ++ tr.recs).filter (fun r => r.cls == 0x12 && r.lmask &&& groupOf t.dead r.grp != 0) with
    | [] => none
    | lost => some { pre := [], recs := lost, rmask := 0, fin := if t.hdr.laneKill then .kill else .lost, wide := true }

/-- A trap whose records are not reserved, at a pre-emption (R348): records of lanes that are lost already stay; any other
trap is dropped, and its word is issued again for the lanes that R163 leaves. -/
def keepTrap (t : Team) : Team :=
  match t.trap with
  | none => t
  | some tr =>
    match tr.fin with
    | .enter d => { t with trap := lossTrap t, resume := if d.isEmpty && t.block.isNone then some tr.rmask else t.resume }
    | _ => t

/-- A team halted at a pass boundary and saved (R346, R347): its commands stop, and saving is a release at .dv of all its
accesses, whose loads have taken their values. A unit that has not ended starts again with its hints (R35): for the lanes of its
resume mask, and with the values that its gather phase read (R162, R208). A word that awaits peers keeps its place, and the lanes of
which the passes have gone; a blocked team keeps its word's place (R313). -/
def saveTeam (s : State) (u : Nat) : State :=
  match findTeam s u with
  | none => s
  | some t =>
    let s := letGo (drainAll (stopCommands s t) u) t
    match findTeam s u with
    | none => s
    | some t =>
      let t := { (keepTrap t).sealed with place := .saved, begun := false, wasReady := false }
      setTeam s (if t.hold.isSome || t.block.isSome then t else { t with pass := none, faulted := [], wix := unitIx t, hints := none })

/-! ### Revocation (R396 to R400) -/

/-- The teams of the team's grid whose order on its core a resume must keep (R309, R310, R349): in reproducible mode all of them. -/
def moveGroup (s : State) (t : Team) : List Team :=
  if t.hdr.repro then s.teams.filter (fun x => x.ctx == t.ctx && x.grid == t.grid && x.core == t.core && x.place != .ended) else [t]

/-- A team may go on elsewhere (R304, R310, R349): a reproducible grid's teams of one core, all saved, go together to a core where
the grid has no team (log entry 90). -/
def mayMove (s : State) (t : Team) (core : Nat) : Bool :=
  t.core == core || !t.hdr.repro ||
    ((moveGroup s t).all (fun x => x.place == .saved) &&
      !s.teams.any (fun x => x.ctx == t.ctx && x.grid == t.grid && x.core == core))

/-- The cores on which a saved team may go on (R304, R310, R349). -/
def resumeCores (s : State) (t : Team) : List Nat :=
  match findCtx s t.ctx with
  | some c => (t.core :: c.cores).filter (fun x => c.cores.contains x && mayMove s t x)
  | none => []

/-- The machine as it would be if no lease held scratchpad and nothing were to be scrubbed. -/
def withoutLeases (s : State) : State :=
  { s with teams := s.teams.map (fun t => { t with leases := [] }), cores := s.cores.map (fun k => { k with scrub := [] }) }

/-- The kernel, and the number, of the teams that a waiting grid would have placed on a core, were no scratchpad leased (R305, R306,
R396); none of a grid that can be placed as things stand. -/
def clustersBlocked (s : State) (core : Nat) : List (KHdr × Nat) :=
  s.contexts.flatMap (fun c => (c.grids.filter (fun g => waitsPlace g && (placeGrid s c.id g).isNone)).filterMap (fun g =>
    (placeGrid (withoutLeases s) c.id g).map (fun s' =>
      (g.hdr, (s'.teams.filter (fun t => decide (s.nextUid ≤ t.uid) && t.core == core)).length))))

/-- The saved teams that could go on on a core, and nowhere as things stand, if no lease held scratchpad (R304, R396). -/
def resumesBlocked (s : State) (core : Nat) : List (KHdr × Nat) :=
  (s.teams.filter (fun t => waitsResume s t && !(resumeCores s t).any (coreFits s t.hdr))).filterMap (fun t =>
    if (resumeCores s t).find? (coreFits (withoutLeases s) t.hdr) == some core then some (t.hdr, 1) else none)

/-- The kernels of owner and normal teams that leases keep from becoming resident on a core, with the number of teams (R396). -/
def blockedByLease (s : State) (core : Nat) : List (KHdr × Nat) :=
  (clustersBlocked s core ++ resumesBlocked s core).filter (fun x => x.2 != 0)

/-- The teams fit on the core once what is being scrubbed is clean. -/
def fitsScrubbed (s : State) (x : KHdr × Nat) (core : Nat) : Bool :=
  coreFitsMany { s with cores := s.cores.map (fun k => { k with scrub := [] }) } x.1 core x.2

/-- Teams with leases in the order of R396: largest lease first, higher slot first on a tie. -/
def insertLease (t : Team) : List Team → List Team
  | [] => [t]
  | x :: rest =>
    if x.leases.length < t.leases.length ∨ (x.leases.length = t.leases.length ∧ x.slot < t.slot) then t :: x :: rest
    else x :: insertLease t rest

/-- The teams whose leases must go before some teams of a kernel fit (R396). -/
def leaseVictims (s : State) (x : KHdr × Nat) (core : Nat) : List Team → List Nat
  | [] => []
  | t :: rest =>
    if fitsScrubbed s x core then []
    else t.uid :: leaseVictims (setTeam s { t with leases := [] }) x core rest

/-- The teams of a core that are revoked for their leases (R138, R396), for everything that they block: those whose leases lie outside
the new word's scratchpad go first, as the repartition needs it. -/
def leaseRevoked (s : State) (core : Nat) : List Nat :=
  let ts := ((harvestTeams s core).filter (fun t => !t.leases.isEmpty)).foldl (fun acc t => insertLease t acc) []
  (blockedByLease s core).flatMap (fun x =>
    let out := fun (t : Team) => t.leases.any (fun g => decide ((poolUnits x.1.partword).2.1 ≤ g))
    leaseVictims s x core (ts.filter out ++ ts.filter (fun t => !out t)))

/-- The grant is gone, the core has left the owner's partition, or the team's own grid is suspended: the team leaves the
core (R396). -/
def mustLeave (s : State) (t : Team) : Bool := !granted s t.ctx t.core || gridSuspended s t

/-- A pre-emption request stands on the core (R346, R396): until RESUME a suspended grid has a team of the core saved, or
one still to be saved. -/
def coreHalted (s : State) (core : Nat) : Bool :=
  s.teams.any (fun t => t.core == core && !t.hdr.harvest && (t.place == .saved || t.place == .resident) && gridSuspended s t)

/-- The team is held while this lasts (R396). -/
def mustHold (s : State) (t : Team) : Bool := exclHere s t.core || coreHalted s t.core

/-- The v0 to v7 of every lane restored from the frame's SAVE (R398). -/
def restoreSave (s : State) (t : Team) : Team :=
  match t.handler with
  | none => t
  | some h =>
    match readPieces s t.root h.frameVa.toNat (frameSize t / 1024) with
    | .error _ => t
    | .ok pas =>
      let at_ := fun (l i : Nat) =>
        let off := saveOffset l i
        pas.getD (off / 1024) 0 + off % 1024
      let keys := (List.range t.hdr.lanes).flatMap (fun l => (List.range 8).map (fun i => (l, i)))
      { t with
        regs := sputs 0 t.regs (keys.map (fun k => (regKey k.1 k.2, wordAt (homeBytes s (at_ k.1 k.2) 4) 0)))
        regBad := keys.foldl (fun acc k => sput false acc (regKey k.1 k.2) (hopOf s (at_ k.1 k.2) 4 != 0)) t.regBad }

/-- Values still in flight to registers at a revocation (R33, R397): each has landed, or not. -/
def landLoose (s : State) (t : Team) : State :=
  let ws := t.pend.flatMap (fun p => if p.wait == .data then p.writes.map (fun w => (p.handler, w)) else [])
  let go := fun (k : Nat) => freeBits 1 (s.fresh + k) == 1
  let s := landWrites s t.uid false ((ws.filter (fun x => !x.1 && go x.2.1)).map Prod.snd)
  { landWrites s t.uid true ((ws.filter (fun x => x.1 && go x.2.1)).map Prod.snd) with fresh := s.fresh + 2 ^ 20 }

/-- The revocation sequence on one team, at a pass boundary (R397, R398, R400): the passes done keep their effects, and the rest of
the word is discarded (R208). A fwcall's command still runs, its handler's too (R361). A trap that waits raises no record; the
lanes that are lost stay lost, and so do their records (R97). DEDUCED (log entry 101): R398 speaks of traps alone. -/
def revokeTeam (s : State) (u : Nat) (into : Place) : State :=
  let s := fwRun (fwRun s u) u
  match findTeam s u with
  | none => s
  | some t =>
    let s := stopCommands s t
    let s := dropCommands (withdraw s (commandSeqs s [u])) [u]
    let s := landLoose (letGo (drainAll s u) t) t
    match findTeam s u with
    | none => s
    | some t =>
      let s := dropLease s t
      let t := restoreSave s ((findTeam s u).getD t)
      setTeam s { goto t t.restart with
        place := into, binds := identityBinds t.hdr.regs, active := t.live, stack := [], flags := Vector.replicate 12 0
        sieve := SieveCfg.reset, plane := Plane.reset, shadow := Plane.reset, pend := [], block := none, hold := none
        trap := lossTrap t, handler := none, paired := none, hrev := t.hrev + 1, wasReady := false }

/-- What a trigger does to a harvest team of a core: nothing, or the place it is revoked to (R396, R399). -/
def revocation (s : State) (leased : List Nat) (t : Team) : Option Place :=
  if mustLeave s t then some .evicted
  else if t.place != .resident then none
  else if mustHold s t || leased.contains t.uid then some .held
  else none

/-- The harvest teams of a core that are revoked now, with the places they go to. -/
def revoked (s : State) (core : Nat) : List (Nat × Place) :=
  let leased := leaseRevoked s core
  (harvestTeams s core).filterMap (fun t => (revocation s leased t).map (fun p => (t.uid, p)))

/-- A held team is evicted without a second revocation (R399). -/
def revokeOne (s : State) (x : Nat × Place) : State :=
  match findTeam s x.1 with
  | some t => if t.place == .held then setTeam s { t with place := x.2 } else revokeTeam s x.1 x.2
  | none => s

/-- HARVEST_REVOKE (R396, R397): every harvest team of the core that a trigger names is revoked. -/
def execHarvestRevoke (core : Nat) (s : State) : Out :=
  match revoked s core with
  | [] => notEnabled "HARVEST_REVOKE"
  | xs => .next (xs.foldl revokeOne s)

/-- PREEMPT_REQUEST (R346): the named teams of the core are saved, and its harvest teams are revoked. -/
def execPreemptRequest (core : Nat) (s : State) : Out :=
  match namedTeams s core with
  | [] => notEnabled "PREEMPT_REQUEST"
  | ts =>
    let s := ts.foldl (fun s t => saveTeam s t.uid) s
    .next ((harvestTeams s core).foldl (fun s t =>
      revokeOne s (t.uid, if mustLeave s t then .evicted else .held)) s)

/-- HARVEST_RESTART (R397, R398, R400): the trigger has ended, and the held team starts again at its restart address with
every live lane active; its first clause is an acquire at .dv. -/
def execHarvestRestart (u : Nat) (s : State) : Out :=
  match findTeam s u with
  | none => notEnabled "HARVEST_RESTART"
  | some t =>
    if t.place != .held || mustLeave s t || mustHold s t then notEnabled "HARVEST_RESTART"
    else .next (l1Invalidate (setTeam s { t with place := .resident }) t.core)

/-- LEASE_SCRUB (R395): the scrubber of a core has zeroed the granule at its head. -/
def execLeaseScrub (core : Nat) (s : State) : Out :=
  let c := coreOf s core
  match c.scrub with
  | [] => notEnabled "LEASE_SCRUB"
  | _ :: rest => .next (setCore s { c with scrub := rest })

/-! ### Resume (R304, R349) -/

/-- The team's commands move to another core. -/
def moveCommands (s : State) (t : Team) (core : Nat) : State :=
  let old := coreOf s t.core
  let new := coreOf s core
  let mine := fun (i : Issue) => i.uid == t.uid
  let into := fun (i : Issue) => { i with core := core }
  let s := setCore s { old with
    copy0 := old.copy0.filter (fun c => !mine c.iss), copy1 := old.copy1.filter (fun c => !mine c.iss)
    mat := old.mat.filter (fun c => !mine c.iss) }
  setCore s { new with
    copy0 := new.copy0 ++ (old.copy0.filter (fun c => mine c.iss)).map (fun c => { c with iss := into c.iss })
    copy1 := new.copy1 ++ (old.copy1.filter (fun c => mine c.iss)).map (fun c => { c with iss := into c.iss })
    mat := new.mat ++ (old.mat.filter (fun c => mine c.iss)).map (fun c => { c with iss := into c.iss }) }

/-- A resumed team's commands go back to their queues, each as an entry frees (R118, R219). -/
def returnCommands (s : State) (u core : Nat) : State :=
  let c := coreOf s core
  let back := fun (i : Issue) (st : Stage) => if i.uid == u && st.queued then .returning else st
  admitMat (admitCopy (setCore s { c with
    copy0 := c.copy0.map (fun x => { x with stage := back x.iss x.stage })
    copy1 := c.copy1.map (fun x => { x with stage := back x.iss x.stage })
    mat := c.mat.map (fun x => { x with stage := back x.iss x.stage }) }) core) core

/-- A saved team moves to another core, where it is not resident yet. -/
def moveOne (core : Nat) (s : State) (t : Team) : State := setTeam (moveCommands s t core) { t with core := core }

/-- The team, with those that must stay beside it, moves to another core; the role of current team goes with them. -/
def moveTeam (s : State) (t : Team) (core : Nat) : State :=
  if t.core = core then s
  else
    let s' := (moveGroup s t).foldl (moveOne core) s
    match t.hdr.repro, findGrid s t.ctx t.grid with
    | true, some g =>
      setGrid s' t.ctx { g with roles := (g.roles.filter (fun r => r.core != core)).map (fun r =>
        if r.core == t.core then { r with core := core } else r) }
    | _, _ => s'

/-- TEAM_RESUME (R304, R349): a saved team of a running grid goes on, on a core of its partition that has room; resuming is
an acquire at .dv, and no instruction line stays behind (R88). -/
def execTeamResume (u core : Nat) (s : State) : Out :=
  match findTeam s u with
  | none => notEnabled "TEAM_RESUME"
  | some t =>
    let mine := match findCtx s t.ctx with
      | some c => c.cores.contains core
      | none => false
    match freeSlot s core 0 64 with
    | none => notEnabled "TEAM_RESUME"
    | some slot =>
      if t.place != .saved || gridSuspended s t || !mine || !mayMove s t core || !coreFits s t.hdr core then notEnabled "TEAM_RESUME"
      else
        let s := moveTeam s t core
        let s := setCore s { coreOf s core with partword := t.hdr.partword }
        let t := { t with place := .resident, core := core, slot := slot, granules := takeScr s t.hdr core }
        let s := freshCaches (setTeam s t) core
        .next (wakeQueues (returnCommands s u core))

end Sys2Proof.Machine
end

