-- ==== Sys2Proof/Machine/Commands.lean ====
section
/-! DEFINITION. The commands that hosts send to firmware (R357 to R377): each answers one response. An event carries a command
that its stream has delivered. -/

namespace Sys2Proof.Machine

/-! ### Answering (R355, R357) -/

/-- A response: it goes out on the command's stream; a failed stream loses it (R356). -/
def respond (s : State) (r : Req) (cmd stat : Nat) (payload : List Byte) : State :=
  match findStream s r.strm with
  | some x =>
    if x.failed then s
    else
      let s := sendFrame s r.strm 2 cmd stat r.tag payload
      { s with responses := s.responses ++ [{ strm := r.strm, tag := r.tag, cmd := cmd, stat := stat, payload := payload }] }
  | none =>
    let s := sendFrame s r.strm 2 cmd stat r.tag payload
    { s with responses := s.responses ++ [{ strm := r.strm, tag := r.tag, cmd := cmd, stat := stat, payload := payload }] }

/-- A command (R357, R372): it gives the state, the status and the payload of its response; in recovery only QUERY and
ATTEST run. -/
def command (name : String) (code : Nat) (r : Req) (s : State) (k : State → State × Nat × List Byte) : Out :=
  if !s.powered || !s.booted then notEnabled name
  else if s.recovery && decide (2 < code) then .next (respond s r code 7 [])
  else
    let a := k s
    .next (respond a.1 r code a.2.1 a.2.2)

/-- A status and nothing else. -/
def stat (s : State) (k : Nat) : State × Nat × List Byte := (s, k, [])

/-- The context that a payload names at an offset, unless it is under destruction (R362). -/
def ctxAt (s : State) (p : List Byte) (o : Nat) : Option Context :=
  match findCtx s (natAt p o 4) with
  | some c => if c.dying then none else some c
  | none => none

/-- A command on a context with a payload of a given length (R358): INVALID, then NOTFOUND. -/
def onCtx (s : State) (p : List Byte) (len : Nat) (k : Context → State × Nat × List Byte) : State × Nat × List Byte :=
  if p.length ≠ len then stat s 2
  else
    match ctxAt s p 0 with
    | none => stat s 4
    | some c => k c

/-- A value of n bits as bytes, most significant first (R374). -/
def bytesBE {n : Nat} (v : BitVec n) : List Byte := (bytesOf (n / 8) v.toNat).reverse

/-! ### The module report (R376) -/

/-- STATE of the report. -/
def moduleState (s : State) : Nat :=
  (if s.recovery then 1 else 0) + (if bubbleMode s then 2 else 0) + (if s.manifest.ckptOn then 4 else 0)

/-- The two bits of a peer. -/
def peerBits (s : State) (p : Nat) : Nat :=
  match findPeer s p with
  | none => 0
  | some x => if x.failed then 2 else 1

/-- The 144 bytes of the report (R376). -/
def report (s : State) : List Byte :=
  bytesOf 4 Config.fwVersion.toNat ++ bytesOf 4 (moduleState s) ++
    (if s.recovery then List.replicate 136 0#8
     else
       s.dies.toList.flatMap (fun d => bytesOf 2 d.temp.toNat) ++ s.dies.toList.flatMap (fun d => bytesOf 4 d.budget) ++
         bytesOf 8 s.bubbles.toNat ++ bytesOf 4 s.poison.length ++ bytesOf 4 s.poisonMoved.length ++
         bytesOf 4 s.links.toNat ++ bytesOf 4 0 ++
         (List.range 64).map (fun i => BitVec.ofNat 8 ((List.range 4).foldl (fun n j => n + peerBits s (4 * i + j) * 4 ^ j) 0)))

/-- QUERY (R376). -/
def execQuery (r : Req) (s : State) : Out :=
  command "QUERY" 0x01 r s fun s => if r.payload.isEmpty then (s, 0, report s) else stat s 2

/-! ### Attestation (R373, R374) -/

/-- The 8 bytes of a die in REPAIR; in recovery no repair map has been applied (R372). -/
def repairBytes (m : Manifest) (d : Nat) : List Byte :=
  let cols := m.spareCols.getD d []
  bytesOf 1 cols.length ++ bytesOf 1 (cols.getD 0 255) ++ bytesOf 1 (cols.getD 1 255) ++ bytesOf 1 0 ++
    bytesOf 2 (m.spareRows.getD d 0) ++ bytesOf 2 0

/-- A table put among others, ascending by id. -/
def insertTable (t : Table) : List Table → List Table
  | [] => [t]
  | x :: rest => if t.id < x.id then t :: x :: rest else x :: insertTable t rest

/-- SHA-384 of a decode table as loaded (R373, R374). -/
def tableHash (es : List Word) : List Byte := sha384 (es.flatMap (fun e => bytesOf 4 e.toNat))

/-- SHA-384 of the manifest as read at boot; zero in recovery (R373, R374). -/
def manifestHash (s : State) : List Byte := if s.recovery then List.replicate 48 0#8 else sha384 s.manifest.bytes

/-- The result before its signature (R374). -/
def attestBytes (s : State) (nonce : List Byte) (ctx : Nat) (ts : List Table) : List Byte :=
  let tab := fun (t : Table) => bytesOf 4 t.id ++ bytesOf 4 0 ++ tableHash t.entries
  nonce ++ bytesBE Config.romHash ++ manifestHash s ++
    (List.range 8).flatMap (repairBytes (if s.recovery then defaultManifest else s.manifest)) ++ bytesBE Config.idPub ++
    bytesOf 4 ctx ++ bytesOf 4 (ts.length + 1) ++
    tab { id := 1, entries := dt1 } ++ ts.flatMap tab

/-- ATTEST (R373, R374). -/
def execAttest (r : Req) (s : State) : Out :=
  command "ATTEST" 0x02 r s fun s =>
    if r.payload.length ≠ 52 then stat s 2
    else
      let ctx := natAt r.payload 48 4
      match (if ctx = 0 then some [] else (ctxAt s r.payload 48).map Context.tables) with
      | none => stat s 4
      | some ts =>
        let bs := attestBytes s (r.payload.take 48) ctx (ts.foldl (fun acc t => insertTable t acc) [])
        (s, 0, bs ++ bytesBE (Config.sign bs))

/-! ### Reset (R92, R375) -/

/-- What a reset leaves (R92, R375): LPDDR6, as its home served it, with its poison; what flash holds; the temperatures, the
retired links and the model's own counters. -/
def resetModule (s : State) : State :=
  let lp := fun (k : Nat) => isLpddr (64 * k)
  let mem := s.l2.foldl (fun m ln =>
    if lp ln.1 then sputs memDefault m (ln.2.zipIdx.map (fun b => (64 * ln.1 + b.2, b.1))) else m)
      (s.mem.filter (fun (c : Host.Cell) => isLpddr c.1))
  { State.reset with
    mem := mem
    poison := (s.l2Bad.filter (fun x => lp x.1)).foldl (fun m x => sput 0 m x.1 x.2) (s.poison.filter (fun x => lp x.1))
    poisonMoved := s.poisonMoved.filter (fun x => lp x.1)
    dies := s.dies.map (fun d =>
      { Die.reset with temp := d.temp, throttled := d.throttled, tokens := if d.throttled then 332800 else 665600 })
    links := s.links, manifest := s.manifest, booted := false, responses := s.responses, fresh := s.fresh, ticks := s.ticks
    agenda := s.agenda }

/-- RESET (R375): the response goes out, then the compute side is reset and boots again. -/
def execHostReset (r : Req) (s : State) : Out :=
  if !s.powered || !s.booted then notEnabled "RESET"
  else if s.recovery then .next (respond s r 0x03 7 [])
  else if !r.payload.isEmpty then .next (respond s r 0x03 2 [])
  else .next (resetModule (respond s r 0x03 0 []))

/-! ### Peers and power (R369, R375) -/

/-- PEER_ADD (R369): the peer's stream is opened; accesses in flight to a peer that is replaced fail (R371). -/
def execPeerAdd (r : Req) (s : State) : Out :=
  command "PEER_ADD" 0x04 r s fun s =>
    let b := r.payload
    let p := natAt b 0 4
    let fam := natAt b 6 2
    if b.length ≠ 36 ∨ 255 < p ∨ 7 < natAt b 4 2 ∨ (fam ≠ 4 ∧ fam ≠ 6) then stat s 2
    else
      let x : Peer := { p := p, die := natAt b 4 2, fam := fam, ip := (b.drop 8).take 16, rctx := wordAt b 24, rbase := dwordAt b 28
                        failed := false }
      let s := (s.remote.filter (fun (q : RemoteReq) => q.p == p)).foldl (fun s q => remoteFail s q 1) s
      let s := { s with peers := s.peers.filter (fun (y : Peer) => y.p != p) ++ [x] }
      stat (setStream s { newStream (peerStream p) with ip := x.ip, syn := true }) 0

/-- POWER_CAP (R375): each die's B from 66,560 to 665,600, or 0 for the default. -/
def execPowerCap (r : Req) (s : State) : Out :=
  command "POWER_CAP" 0x05 r s fun s =>
    let vs := (List.range 8).map (fun d => natAt r.payload (4 * d) 4)
    if r.payload.length ≠ 32 ∨ vs.any (fun v => v != 0 && decide (v < 66560 ∨ 665600 < v)) then stat s 2
    else
      stat ((List.range 8).foldl (fun s d =>
        let v := vs.getD d 0
        setDie s d { dieOf s d with cap := if v = 0 then 665600 else v }) s) 0

/-! ### Contexts (R363, R364) -/

/-- A byte of the hang setting that CTX_CREATE refuses (R323). -/
def hangBad (v : Nat) : Bool := decide ((1 ≤ v ∧ v ≤ 15) ∨ 41 ≤ v)

/-- CTX_CREATE (R363): an empty root of LVL 3, no quota, DT-1. -/
def execCtxCreate (r : Req) (s : State) : Out :=
  command "CTX_CREATE" 0x10 r s fun s =>
    let b := r.payload
    let hang := wordAt b 0
    let trapv := wordAt b 4
    let frqb := wordAt b 8
    let tfrb := wordAt b 16
    if b.length ≠ 20 ∨ hang.toNat / 65536 ≠ 0 ∨ hangBad (hang.toNat % 256) ∨ hangBad (hang.toNat / 256 % 256) ∨
        (trapv.toNat % 4 ≠ 0 ∧ trapv ≠ 0xFFFFFFFF) ∨ 8 < frqb.toNat % 16 ∨ 8 < tfrb.toNat % 16 ∨ 7 < natAt b 12 2 ∨
        3 < natAt b 14 1 ∨ natAt b 15 1 ≠ 0 then stat s 2
    else
      let n : Build × Nat := Build.node { st := { s with fresh := s.fresh + 2 }, taken := [], ok := true } (List.replicate 256 noEntry)
      match chooseCtx s, chooseRid { s with fresh := s.fresh + 1 }, n.1.ok with
      | some id, some rid, true =>
        let root : RootDesc := { rid := BitVec.ofNat 16 rid, gen := 0, lvl := 3, node := n.2 }
        let k := newLineage s
        let st := holdNodes n.1.st k [(n.2, 3)]
        let rec_ : RootRec := { lineage := k, ctx := id, desc := root, life := .current, snap := false, excl := [] }
        let c := newContext id k root hang trapv frqb tfrb (natAt b 12 2) (natAt b 14 1)
        ({ st with roots := st.roots ++ [rec_], contexts := st.contexts ++ [c] }, 0, bytesOf 4 id ++ bytesOf 4 rid)
      | _, _, _ => stat s 3

/-- Accesses of teams that are gone, or of a context's, are performed: frames are given back only after them. -/
def drainGone (s : State) (ctx : Nat) : State :=
  performAll s (closeSet s (fun e =>
    match findTeam s e.uid with
    | some t => t.ctx == ctx
    | none => true))

/-- CTX_DESTROY (R362, R364): the grids end, grants and snapshots are dropped, the roots are retired; the response waits for
the scrub. Where a killed grid's report names no trap, its fields are free values. -/
def execCtxDestroy (r : Req) (s : State) : Out :=
  if !s.powered || !s.booted then notEnabled "CTX_DESTROY"
  else if s.recovery then .next (respond s r 0x11 7 [])
  else if r.payload.length ≠ 4 then .next (respond s r 0x11 2 [])
  else
    match ctxAt s r.payload 0 with
    | none => .next (respond s r 0x11 4 [])
    | some c =>
      let s := drainGone s c.id
      let s := (c.grids.filter Grid.entered).foldl (fun s g =>
        let v := fun (i m : Nat) => Config.freeNat (s.fresh + i) % m
        { killGrid s c.id g.num (v 0 16) (v 1 (2 ^ 24)) (BitVec.ofNat 32 (v 2 (2 ^ 32))) with fresh := s.fresh + 3 }) s
      let s := (s.roots.filter (fun x => x.ctx == c.id && x.life == .current)).foldl retireRoot s
      let s := { s with
        grants := s.grants.filter (fun g => g.1 != c.id && g.2 != c.id)
        frames := s.frames.map (fun f => if f.charged == c.id then { f with charged := 0 } else f)
        scrubCtx := s.scrubCtx ++ [c.id], owed := s.owed ++ [{ req := r, cmd := 0x11, ctx := c.id, grid := 0 }] }
      .next (match findCtx s c.id with
        | some x => setCtx s { x with dying := true, cores := [], owned := [], hvok := false }
        | none => s)

/-- CTX_SCRUB_DONE (R364): every root of the context is freed, its frames are zero and no core scrubs a lease any more, so that the
last zero is written; the response goes out. The scrubs of other contexts are awaited with them (DEDUCED, log entry 114). -/
def execCtxScrubDone (ctx : Nat) (s : State) : Out :=
  if !s.scrubCtx.contains ctx || s.roots.any (fun r => r.ctx == ctx) || s.cores.any (fun c => !c.scrub.isEmpty) then
    notEnabled "CTX_SCRUB_DONE"
  else
    let mine := fun (o : Owed) => o.cmd == 0x11 && o.ctx == ctx
    let s' := { s with
      contexts := s.contexts.filter (fun c => c.id != ctx), scrubCtx := s.scrubCtx.filter (fun c => c != ctx)
      owed := s.owed.filter (fun o => !mine o) }
    .next ((s.owed.filter mine).foldl (fun s o => respond s o.req 0x11 0 []) s')

/-! ### Partitions, grants and tables (R365, R366) -/

/-- The cores of a bit map at an offset of a payload, ascending. -/
def coreBits (b : List Byte) (o : Nat) : List Nat :=
  (List.range 4096).filter (fun i => (b.getD (o + i / 8) 0).getLsbD (i % 8))

/-- PART_SET (R365): removed cores lose their teams by pre-emption, which follows. -/
def execPartSet (r : Req) (s : State) : Out :=
  command "PART_SET" 0x12 r s fun s =>
    onCtx s r.payload 1032 fun c =>
      let cores := coreBits r.payload 4
      let own := coreBits r.payload 516
      let flg := natAt r.payload 1028 4
      if 1 < flg ∨ own.any (fun x => !cores.contains x) then stat s 2
      else if s.contexts.any (fun o => o.id != c.id && o.cores.any (fun x => cores.contains x)) then stat s 6
      else stat (setCtx s { c with cores := cores, owned := own, hvok := flg == 1 }) 0

/-- HARVEST_GRANT (R365): a grant given or taken back; revocation follows. -/
def execHarvestGrant (r : Req) (s : State) : Out :=
  command "HARVEST_GRANT" 0x13 r s fun s =>
    onCtx s r.payload 12 fun c =>
      match ctxAt s r.payload 4 with
      | none => stat s 4
      | some o =>
        let en := natAt r.payload 8 4
        if 1 < en ∨ c.id = o.id then stat s 2
        else
          let rest := s.grants.filter (fun g => !(g.1 == c.id && g.2 == o.id))
          stat { s with grants := if en = 1 then rest ++ [(c.id, o.id)] else rest } 0

/-- A decode table passes the checks of R40 and R42: entry 0x000 disabled, every enabled entry well formed, and no reserved
bit set in a disabled one. -/
def tableOk (es : List Word) : Bool :=
  es.length == 768 && !(es.getD 0 0).getLsbD 31 &&
    es.all (fun e => entryOk e || (!e.getLsbD 31 && fld e 26 2 == 0 && fld e 15 1 == 0))

/-- DECODE_LOAD (R366). -/
def execDecodeLoad (r : Req) (s : State) : Out :=
  command "DECODE_LOAD" 0x14 r s fun s =>
    onCtx s r.payload 3080 fun c =>
      let id := natAt r.payload 4 4
      let es := (List.range 768).map (fun i => wordAt r.payload (8 + 4 * i))
      if id < 2 ∨ 65535 < id ∨ !tableOk es then stat s 2
      else
        let there := c.tables.any (fun t => t.id == id)
        if there && c.grids.any (fun g => (g.st == .running || g.st == .suspended) && g.hdr.dtable == id) then stat s 6
        else if !there && decide (16 ≤ c.tables.length) then stat s 3
        else stat (setCtx s { c with tables := c.tables.filter (fun t => t.id != id) ++ [{ id := id, entries := es }] }) 0

/-! ### Memory of a context (R358, R359, R368) -/

/-- MEM_ALLOC (R358): the quota. -/
def execMemAlloc (r : Req) (s : State) : Out :=
  command "MEM_ALLOC" 0x20 r s fun s =>
    onCtx s r.payload 12 fun c =>
      let g := natAt r.payload 4 4
      let l := natAt r.payload 8 4
      if g < chargedTo s c.id 0 ∨ l < chargedTo s c.id 1 then stat s 6
      else stat (setCtx s { c with quotaG := g, quotaL := l }) 0

/-- A command of the map family from a host (R358, R359): the result word is that of R361. -/
def mapCommand (name : String) (code : Nat) (r : Req) (s : State) : Out :=
  command name code r s fun s =>
    onCtx s r.payload 68 fun c =>
      let a := mapFamily s c code (mapBlock (r.payload.drop 4))
      (a.1, a.2.1, if a.2.1 = 0 then bytesOf 4 a.2.2 else [])

/-- MAP (R359). -/
def execHostMap (r : Req) (s : State) : Out := mapCommand "MAP" 0x21 r s

/-- UNMAP (R359). -/
def execUnmap (r : Req) (s : State) : Out := mapCommand "UNMAP" 0x22 r s

/-- REMAP (R115, R359). -/
def execRemap (r : Req) (s : State) : Out := mapCommand "REMAP" 0x23 r s

/-- SNAPSHOT (R114). -/
def execSnapshot (r : Req) (s : State) : Out := mapCommand "SNAPSHOT" 0x24 r s

/-- FORK (R114). -/
def execFork (r : Req) (s : State) : Out := mapCommand "FORK" 0x25 r s

/-- A range of n bytes from an address as pieces inside 64 KiB pages: address and length. Fuel bounds their number. -/
def vaPieces : Nat → Nat → Nat → List (Nat × Nat)
  | 0, _, _ => []
  | _, _, 0 => []
  | k + 1, va, n =>
    let m := min n (65536 - va % 65536)
    (va, m) :: vaPieces k (va + m) (n - m)

/-- A host's range translated (R368): the physical pieces, or NOTFOUND, then DENIED. -/
def hostRange (s : State) (c : Context) (k : AccKind) (va n : Nat) : Except Nat (List (Nat × Nat)) :=
  let ps := (vaPieces (n / 65536 + 2) va n).map (fun p =>
    (p.2, if 2 ^ 64 ≤ p.1 then XRes.fault 0x06 0 else translate s c.current (BitVec.ofNat 64 p.1) k none))
  if ps.any (fun p => match p.2 with
      | .fault cls _ => cls == 0x04 || cls == 0x06
      | .ok _ => false) then .error 4
  else if ps.any (fun p => match p.2 with
      | .fault .. => true
      | .ok x => isPeer x.pa) then .error 5
  else .ok (ps.filterMap (fun p => match p.2 with
      | .ok x => some (x.pa, p.1)
      | .fault .. => none))

/-- HOST_WRITE (R368): performed at the home L2. -/
def execHostWrite (r : Req) (s : State) : Out :=
  command "HOST_WRITE" 0x26 r s fun s =>
    let b := r.payload
    if b.length < 12 then stat s 2
    else
      match ctxAt s b 0 with
      | none => stat s 4
      | some c =>
        let data := b.drop 12
        match hostRange s c .write (natAt b 4 8) data.length with
        | .error k => stat s k
        | .ok ps =>
          if data.isEmpty || decide (8176 < data.length) then stat s 2
          else stat (ps.foldl (fun (acc : State × List Byte) p =>
            (homeWrite acc.1 p.1 (acc.2.take p.2), acc.2.drop p.2)) (s, data)).1 0

/-- HOST_READ (R368): read at the home L2. -/
def execHostRead (r : Req) (s : State) : Out :=
  command "HOST_READ" 0x27 r s fun s =>
    onCtx s r.payload 16 fun c =>
      let n := natAt r.payload 12 4
      match hostRange s c .read (natAt r.payload 4 8) n with
      | .error k => stat s k
      | .ok ps =>
        if n = 0 ∨ 8192 < n then stat s 2
        else if ps.any (fun p => (List.range ((p.1 + p.2 + 63) / 64 - p.1 / 64)).any (fun i => lineHop s (p.1 / 64 + i) != 0)) then
          stat s 8
        else (s, 0, ps.flatMap (fun p => homeBytes s p.1 p.2))

/-! ### Grids (R298, R300, R367) -/

/-- LAUNCH (R300, R301, R358): the launch status, then the grid number, 0 where nothing was placed. -/
def execHostLaunch (r : Req) (s : State) : Out :=
  command "LAUNCH" 0x30 r s fun s =>
    onCtx s r.payload 68 fun c =>
      let bs := r.payload.drop 4
      let st := launchStatus c bs
      if st = 0 then (pushGrid s c bs none, 0, bytesOf 4 0 ++ bytesOf 4 c.nextGrid) else (s, 0, bytesOf 4 st ++ bytesOf 4 0)

/-- STATE of GRID_WAIT: a queued grid that is held reports suspended (R367). -/
def gridState (g : Grid) : Nat :=
  match g.st with
  | .queued => if g.held then 2 else 0
  | .running => 1
  | .suspended => 2
  | .complete => 3
  | .killed => 4
  | .refused => 5

/-- The 12 bytes of GRID_WAIT (R367). -/
def gridReport (g : Grid) : List Byte :=
  let k := g.st == .killed
  bytesOf 1 (gridState g) ++ bytesOf 1 (if g.st == .complete || g.st == .refused then g.reason else 0) ++
    bytesOf 2 (if k then g.killTeam else 0) ++ bytesOf 4 (if k then g.killClus else 0) ++
    bytesOf 4 (if k then g.killPc.toNat else 0)

/-- A waiting GRID_WAIT has its answer: the grid is no longer queued or running. -/
def gridSettled (g : Grid) : Bool := decide (2 ≤ gridState g)

/-- GRID_WAIT (R367): with a wait flag of 1 the response may be owed. -/
def execGridWait (r : Req) (s : State) : Out :=
  if !s.powered || !s.booted then notEnabled "GRID_WAIT"
  else if s.recovery then .next (respond s r 0x31 7 [])
  else if r.payload.length ≠ 12 ∨ 1 < natAt r.payload 8 4 then .next (respond s r 0x31 2 [])
  else
    match ctxAt s r.payload 0 with
    | none => .next (respond s r 0x31 4 [])
    | some c =>
      match c.grids.find? (fun g => g.num == natAt r.payload 4 4) with
      | none => .next (respond s r 0x31 4 [])
      | some g =>
        if natAt r.payload 8 4 = 0 ∨ gridSettled g then .next (respond s r 0x31 0 (gridReport g))
        else .next { s with owed := s.owed ++ [{ req := r, cmd := 0x31, ctx := c.id, grid := g.num }] }

/-- The responses that GRID_WAIT owes, where their grids have settled (R367). -/
def answerWaits (s : State) : State :=
  s.owed.foldl (fun s o =>
    if o.cmd ≠ 0x31 then s
    else
      match findGrid s o.ctx o.grid with
      | some g =>
        if gridSettled g then respond { s with owed := s.owed.filter (fun x => x != o) } o.req 0x31 0 (gridReport g) else s
      | none => s) s

/-- SUSPEND or RESUME on one grid (R367). -/
def setSuspended (on : Bool) (g : Grid) : Grid :=
  match g.st, on with
  | .queued, on => { g with held := on }
  | .running, true => { g with st := .suspended }
  | .suspended, false => { g with st := .running }
  | _, _ => g

/-- SUSPEND and RESUME (R358, R367): GRID 0 names every grid. Pre-emption and resume of the teams follow. -/
def suspendCommand (name : String) (code : Nat) (on : Bool) (r : Req) (s : State) : Out :=
  command name code r s fun s =>
    onCtx s r.payload 8 fun c =>
      let n := natAt r.payload 4 4
      if n ≠ 0 ∧ !c.grids.any (fun g => g.num == n) then stat s 4
      else stat (setCtx s { c with grids := c.grids.map (fun g => if n = 0 ∨ g.num = n then setSuspended on g else g) }) 0

/-- SUSPEND (R346, R367). -/
def execSuspend (r : Req) (s : State) : Out := suspendCommand "SUSPEND" 0x32 true r s

/-- RESUME (R349, R367). -/
def execResume (r : Req) (s : State) : Out := suspendCommand "RESUME" 0x33 false r s

end Sys2Proof.Machine
end

