-- ==== Sys2Proof/Machine/Board.lean ====
section
/-! DEFINITION. The module around its cores: L2 write-back and poison lists (R86, R96, R377), errors that no check corrects (R94),
the checkpoint (R91 to R93), reset, boot, power and temperature (R372, R375). -/

namespace Sys2Proof.Machine

/-! ### Write-back and poison lists (R86, R96, R377) -/

/-- POISON_LIST_MOVE (R377): the list of a controller is full. -/
def execPoisonListMove (ctrl : Nat) (s : State) : Out :=
  if listed s ctrl < 4096 then notEnabled "POISON_LIST_MOVE" else .next (moveList s ctrl)

/-- L2_WRITE_BACK (R86, R96): a line that L2 holds dirty or poisoned; a full list is moved first. -/
def execL2WriteBack (line : Nat) (s : State) : Out :=
  if (sget [] s.l2 line).isEmpty && sget 0 s.l2Bad line == 0 then notEnabled "L2_WRITE_BACK"
  else if listRoom s line then .next (writeBack s line)
  else notEnabled "L2_WRITE_BACK"

/-- Every line written back (R92); full lists are moved on the way. -/
def writeBackAll (s : State) : State := (s.l2.map Prod.fst ++ s.l2Bad.map Prod.fst).foldl makeWay s

/-! ### Errors that no check corrects (R94, R96, R97) -/

/-- The values of the lanes that a line of a reply serves are lost to poison: a pending instruction's loads of that line. -/
def poisonReply (t : Team) (p : Pend) (lane hop : Nat) : Option Pend :=
  match p.vas.find? (fun v => v.1 == lane) with
  | none => none
  | some v =>
    let hit := p.vas.filter (fun x => x.2.toNat / 64 == v.2.toNat / 64)
    let gone := fun (k : Nat) => hit.any (fun x => x.1 == k / 256)
    some { p with
      writes := p.writes.filter (fun w => !gone w.1), vas := p.vas.filter (fun x => !hit.contains x)
      again := p.again.filter (fun a => !hit.any (fun x => x.1 == a.acc.lane))
      losses := p.losses ++ (hit.filter (fun x => t.live.getLsbD x.1)).map (fun x => { lane := x.1, addr := x.2, hop := hop }) }

/-- The data of a performed entry of the store path are poisoned where they went (R96). -/
def poisonStored (s : State) (e : StoreEnt) (hop : Nat) : State :=
  match e.kind with
  | .scr u =>
    (List.range ((e.addr + e.data.length + 3) / 4 - e.addr / 4)).foldl
      (fun s i => putBad s (byteKey (some u) (e.addr + 4 * i), hop)) s
  | _ => poisonLine s e.addr hop

/-- A flit that travels poisoned, with its hop code (R94, R96); none where no such flit travels. -/
def poisonFlit (s : State) (hop : Nat) (flit : Flit) : Option State :=
  match flit with
  | .reply u k lane =>
    match findTeam s u with
    | none => none
    | some t =>
      match (findPend t k).filter (fun p => p.wait == .data) with
      | none => none
      | some p => (poisonReply t p lane hop).map (fun p => setTeam s (setPend t p))
  | .write k =>
    match s.stores.find? (fun e => e.seq == k) with
    | none => none
    | some e => if storeReady s e && (writesMem e || isScr e) then some (poisonStored (performEnt s e) e hop) else none
  | .line pa => if physBad s.manifest pa || isPeer pa then none else some (poisonLine s pa hop)
  | .partialSum k =>
    match s.partials[k]? with
    | none => none
    | some p => some { s with partials := s.partials.set k { p with packet := { p.packet with bad := hop } } }

/-- MESH_LINK_RETIRE (R94): the link is retired, firmware is notified, and the flit is poisoned. -/
def execMeshLinkRetire (link : Nat) (flit : Flit) (s : State) : Out :=
  match poisonFlit s 5 flit with
  | none => notEnabled "MESH_LINK_RETIRE"
  | some s => .next { s with links := s.links + 1, notices := s.notices ++ [link] }

/-- A strong-region line no longer fits its stored check (R90): an error of its bits or of the check's, which retries do not
mend. -/
def harmCheck (s : State) (ln : Nat) : State :=
  { s with srCheck := sput none s.srCheck ln (some (lineCheck s ln ^^^ (freeBits 32 s.fresh ||| 1))), fresh := s.fresh + 1 }

/-- A line that a hop finds uncorrectable (R94): 1 the GDDR7 link, 2 the check of a strong-region line, both retried in vain,
3 LPDDR6, 4 a double-bit error of L2. -/
def harmLine (s : State) (pa hop : Nat) : Option State :=
  let onArray := (sget [] s.l2 (pa / 64)).isEmpty
  if physBad s.manifest pa || isPeer pa then none
  else if hop = 2 then
    if onArray && inStrong s.manifest pa then some (harmCheck s (pa / 64)) else none
  else if (hop = 1 ∧ onArray ∧ isGddr pa) ∨ (hop = 3 ∧ onArray ∧ isLpddr pa) ∨ hop = 4 then some (poisonLine s pa hop)
  else none

/-- A double-bit error of a word of the pool that a resident team owns (R94, R96). -/
def harmPool (s : State) (u : Nat) (f : Team → Option Team) : Option State :=
  match findTeam s u with
  | some t => if t.place = .resident then (f t).map (setTeam s) else none
  | none => none

/-- An error that no check corrects strikes (R94). -/
def harm (s : State) : Harm → Option State
  | .line pa hop => harmLine s pa hop
  | .flit f => poisonFlit s 6 f
  | .scratch u w => harmPool s u fun t =>
      if scrRoom t (4 * w) 4 then some { t with scrBad := sput false t.scrBad w true } else none
  | .register u l r => harmPool s u fun t =>
      if l < t.hdr.lanes ∧ r < t.hdr.regs then some { t with regBad := sput false t.regBad (regKey l r) true } else none
  | .tile u k => harmPool s u fun t =>
      if k / 4096 < t.hdr.accum then some { t with tileBad := sput false t.tileBad k true } else none

/-! ### The checkpoint (R91 to R93) -/

/-- The address of the image header (R93). -/
def ckptHeader : Nat := 0x12FFF000000

/-- Where the image keeps a byte of GDDR7 (R91). -/
def imageAddr (pa : Nat) : Nat := 0x10000000000 + pa / 2 ^ 36 * 2 ^ 38 + 192 * 2 ^ 30 + pa % 2 ^ 36

/-- The byte of GDDR7 that an address of the checkpoint area keeps; none outside it. -/
def imageOf (pa : Nat) : Option Nat :=
  if isLpddr pa ∧ 192 * 2 ^ 30 ≤ (pa - 0x10000000000) % 2 ^ 38 then
    some ((pa - 0x10000000000) / 2 ^ 38 * 2 ^ 36 + ((pa - 0x10000000000) % 2 ^ 38 - 192 * 2 ^ 30))
  else none

/-- Bytes put into the device arrays by firmware. -/
def memPut (s : State) (pa : Nat) (bs : List Byte) : State :=
  { s with mem := sputs memDefault s.mem (bs.zipIdx.map (fun b => (pa + b.2, b.1))) }

/-- A grid has a team on a core and is not suspended, or a copy command is in flight (R91). -/
def ckptBusy (s : State) : Bool :=
  s.teams.any (fun t => (t.place == .resident || t.place == .held || t.place == .ended) && !gridSuspended s t) ||
    s.cores.any (fun c => (c.copy0 ++ c.copy1).any (fun x => x.stage.queued && teamRuns s x.iss.uid)) || s.ckpt.isSome

/-- The poisoned lines of GDDR7: those of the controllers' lists or with a failed check, then those moved to LPDDR6. -/
def poisonedLines (s : State) : List Nat × List Nat :=
  let g := fun (k : Nat) => isGddr (64 * k)
  let moved := (s.poisonMoved.map Prod.fst).filter g
  let here := ((s.srCheck.filter (fun x => checkFails s x.1)).foldl (fun m x => sput 0 m x.1 2) s.poison).map Prod.fst
  (here.filter (fun k => g k && !moved.contains k), moved)

/-- The bytes of the check area (R90, R91), of the strong-region lines that hold anything; a line of zeros has the check of one,
unless an error has left another. -/
def checkCells (s : State) : List Host.Cell :=
  let lines := ((s.mem.map (fun (c : Host.Cell) => c.1 / 64)) ++ s.srCheck.map Prod.fst).eraseDups.filter
    (fun k => inStrong s.manifest (64 * k))
  lines.flatMap (fun k => (bytesOf 4 (storedCheck s k).toNat).zipIdx.map (fun b => (checkPlace s.manifest k + b.2, b.1)))

/-- The line whose check lies at an address of the check area (R90); none elsewhere. -/
def checkedLine (m : Manifest) (pa : Nat) : Option Nat :=
  if (checkArea m).1 ≤ pa ∧ pa < (checkArea m).1 + (checkArea m).2 then some ((m.srBase * 2 ^ 30 + 16 * (pa - (checkArea m).1)) / 64)
  else none

/-- The checks that an image's check area holds, of the lines whose check is not that of the restored line (R90, R92). -/
def imageChecks (s : State) : List (Nat × Option Word) :=
  let lines := (s.mem.filterMap (fun (c : Host.Cell) => (imageOf c.1).bind (checkedLine s.manifest))).eraseDups
  lines.foldl (fun m k =>
    let w := wordAt ((List.range 4).map (fun i => sget memDefault s.mem (imageAddr (checkPlace s.manifest k + i)))) 0
    sput none m k (if w = lineCheck s k then none else some w)) []

/-- CHECKPOINT (R91 to R93): L2 is written back, STATE becomes 2, and the copy begins; the response follows it. -/
def execCheckpoint (r : Req) (s : State) : Out :=
  if !s.powered || !s.booted then notEnabled "CHECKPOINT"
  else if s.recovery then .next (respond s r 0x40 7 [])
  else if !r.payload.isEmpty || !s.manifest.ckptOn then .next (respond s r 0x40 2 [])
  else if ckptBusy s then .next (respond s r 0x40 1 [])
  else
    let s' := writeBackAll s
    let bad := poisonedLines s'
    if 2097144 < bad.1.length + bad.2.length then .next (respond s r 0x40 3 [])
    else
      let s' := memPut s' (ckptHeader + 4) (bytesOf 4 2)
      .next { s' with
        ckpt := some (.saving (s'.mem.filter (fun (c : Host.Cell) => isGddr c.1) ++ checkCells s') s.clk.toNat (bad.1 ++ bad.2) bad.2.length)
        owed := s'.owed ++ [{ req := r, cmd := 0x40, ctx := 0, grid := 0 }] }

/-- The responses that a copy owes. -/
def answerCopy (s : State) (cmd : Nat) (payload : List Byte) : State :=
  (s.owed.filter (fun o => o.cmd == cmd)).foldl (fun s o => respond s o.req cmd 0 payload)
    { s with owed := s.owed.filter (fun o => o.cmd != cmd) }

/-- CHECKPOINT_DONE (R91, R93): the image and its header stand, STATE is 1, and the response gives the header's address. -/
def execCheckpointDone (s : State) : Out :=
  match s.ckpt with
  | some (.saving image clk bad novf) =>
    let mem := image.foldl (fun m (c : Host.Cell) => sput memDefault m (imageAddr c.1) c.2)
      (sdrop s.mem (fun k => (imageOf k).isSome))
    let head := bytesOf 4 1 ++ bytesOf 4 1 ++ bytesOf 8 clk ++ bytesOf 4 s.manifest.srBase ++ bytesOf 4 s.manifest.srSize ++
      bytesOf 4 bad.length ++ bytesOf 4 novf ++ bytesOf 32 0 ++ bad.flatMap (fun k => bytesOf 8 (64 * k))
    .next (answerCopy (memPut { s with mem := mem, ckpt := none } ckptHeader head) 0x40 (bytesOf 8 ckptHeader))
  | _ => notEnabled "CHECKPOINT_DONE"

/-- A word of the image header. -/
def headerWord (s : State) (o : Nat) : Nat := natOf ((List.range 4).map (fun i => sget memDefault s.mem (ckptHeader + o + i)))

/-- RESTORE (R91 to R93): the copy back begins; the response follows it. The order of its statuses is the model's (DEDUCED, log
entry 107). -/
def execRestore (r : Req) (s : State) : Out :=
  if !s.powered || !s.booted then notEnabled "RESTORE"
  else if s.recovery then .next (respond s r 0x41 7 [])
  else if !r.payload.isEmpty || !s.manifest.ckptOn then .next (respond s r 0x41 2 [])
  else if ckptBusy s then .next (respond s r 0x41 1 [])
  else if headerWord s 4 ≠ 1 then .next (respond s r 0x41 2 [])
  else if headerWord s 16 ≠ s.manifest.srBase ∨ headerWord s 20 ≠ s.manifest.srSize then .next (respond s r 0x41 6 [])
  else .next { s with ckpt := some .restoring, owed := s.owed ++ [{ req := r, cmd := 0x41, ctx := 0, grid := 0 }] }

/-- The lines listed in the image header (R93). -/
def imagePoison (s : State) : List Nat :=
  (List.range (headerWord s 24)).map (fun i =>
    natOf ((List.range 8).map (fun j => sget memDefault s.mem (ckptHeader + 64 + 8 * i + j))) / 64)

/-- RESTORE_COMPLETE (R92): GDDR7 holds the image, L2 and L1 are invalid, and the listed lines are poisoned again, the last
NOVF of them in the list moved to LPDDR6. A listed line's hop code is not kept in the image: it is a free value. -/
def execRestoreComplete (s : State) : Out :=
  match s.ckpt with
  | some .restoring =>
    let ps := imagePoison s
    let n := ps.length - headerWord s 28
    let hop := fun (i : Nat) => 1 + Config.freeNat (s.fresh + i) % 7
    let mem := s.mem.foldl (fun m (c : Host.Cell) =>
      match imageOf c.1 with
      | some pa => if (checkedLine s.manifest pa).isSome then m else sput memDefault m pa c.2
      | none => m) (sdrop s.mem isGddr)
    let lp := fun (l : List (Nat × Nat)) => l.filter (fun x => !isGddr (64 * x.1))
    let put := fun (m : List (Nat × Nat)) (l : List (Nat × Nat)) => l.foldl (fun m x => sput 0 m x.1 (hop x.2)) m
    .next (answerCopy { s with
      mem := mem, l2 := [], l2Bad := [], l2First := [], l1 := [], srCheck := imageChecks { s with mem := mem }, cover := []
      ckpt := none, fresh := s.fresh + ps.length
      poison := put (lp s.poison) (ps.zipIdx.take n), poisonMoved := put (lp s.poisonMoved) (ps.zipIdx.drop n) } 0x41 [])
  | _ => notEnabled "RESTORE_COMPLETE"

/-! ### Reset, boot and power (R92, R372, R375) -/

/-- RESET_N (R375): held low for at least 1 µs it resets the compute side. -/
def execResetN (heldNs : Nat) (s : State) : Out :=
  if !s.powered then notEnabled "RESET_N" else if heldNs < 1000 then .next s else .next (resetModule s)

/-- The strong region that a manifest gives is one that R89 allows. -/
def regionOk (m : Manifest) : Bool :=
  decide (1 ≤ m.srSize ∧ m.srSize ≤ 32 ∧ m.srBase + m.srSize ≤ 512) && m.srBase / 64 == (m.srBase + m.srSize - 1) / 64

/-- A manifest that R89 and R354 allow: its strong region, and the MTU of each port. Another is treated as one that fails the checks
of R372 (DEDUCED, log entry 102). -/
def manifestOk (m : Manifest) : Bool := regionOk m && m.ports.all (fun p => decide (1500 ≤ p.mtu ∧ p.mtu ≤ 9216))

/-- BOOT (R372): the manifest in flash is read, which this event may say to be another; failing its checks leaves the module
in recovery; GDDR7 is zero. From an unpowered module the supply has come back, and every memory starts afresh. -/
def execBoot (flash : Option Manifest) (s : State) : Out :=
  if s.booted then notEnabled "BOOT"
  else
    let m := flash.getD s.manifest
    let good := m.valid && manifestOk m
    .next { s with
      mem := sdrop s.mem isGddr, manifest := if good then m else { m with valid := false }, recovery := !good
      ports := if good then m.ports else []
      powered := true, pwrGood := true, booted := true }

/-- Without power (R92, R375): every memory is lost; flash keeps the manifest. -/
def unpowered (s : State) : State :=
  { State.reset with
    manifest := s.manifest, powered := false, booted := false, pwrGood := false, fresh := s.fresh, ticks := s.ticks
    agenda := s.agenda, responses := s.responses }

/-- POWER_LOSS (R92): the 48 V input is removed. -/
def execPowerLoss (s : State) : Out := .next (unpowered s)

/-- THERMAL_THROTTLE (R375): a die at 100 °C or more, in units of 1/8 °C, has its budget halved. -/
def execThermalThrottle (die : Nat) (temp : BitVec 16) (s : State) : Out :=
  if !s.powered ∨ 7 < die ∨ temp.toInt < 800 then notEnabled "THERMAL_THROTTLE"
  else .next (setDie s die { dieOf s die with temp := temp, throttled := true })

/-- THERMAL_RECOVER (R375): below 90 °C the budget is whole again. -/
def execThermalRecover (die : Nat) (temp : BitVec 16) (s : State) : Out :=
  if !s.powered ∨ 7 < die ∨ 720 ≤ temp.toInt then notEnabled "THERMAL_RECOVER"
  else .next (setDie s die { dieOf s die with temp := temp, throttled := false })

/-- THERMAL_SHUTDOWN (R375): at 110 °C the module drops PWR_GOOD and switches off. -/
def execThermalShutdown (die : Nat) (temp : BitVec 16) (s : State) : Out :=
  if !s.powered ∨ 7 < die ∨ temp.toInt < 880 then notEnabled "THERMAL_SHUTDOWN"
  else
    let s := unpowered s
    .next (setDie s die { dieOf s die with temp := temp })

end Sys2Proof.Machine
end

