-- ==== Sys2Proof/Machine/Frames.lean ====
section
/-! DEFINITION. Frames that reach the module (R354 to R358, R370): which are kept, their acknowledgements, their order, and what
each type does when it is delivered. -/

namespace Sys2Proof.Machine

/-! ### Commands in frames (R357, R358) -/

/-- The command that a code names (R358); a code not listed gives INVALID. -/
def commandOf (cmd : Nat) (r : Req) (s : State) : Out :=
  match cmd with
  | 0x01 => execQuery r s
  | 0x02 => execAttest r s
  | 0x03 => execHostReset r s
  | 0x04 => execPeerAdd r s
  | 0x05 => execPowerCap r s
  | 0x10 => execCtxCreate r s
  | 0x11 => execCtxDestroy r s
  | 0x12 => execPartSet r s
  | 0x13 => execHarvestGrant r s
  | 0x14 => execDecodeLoad r s
  | 0x20 => execMemAlloc r s
  | 0x21 => execHostMap r s
  | 0x22 => execUnmap r s
  | 0x23 => execRemap r s
  | 0x24 => execSnapshot r s
  | 0x25 => execFork r s
  | 0x26 => execHostWrite r s
  | 0x27 => execHostRead r s
  | 0x30 => execHostLaunch r s
  | 0x31 => execGridWait r s
  | 0x32 => execSuspend r s
  | 0x33 => execResume r s
  | 0x40 => execCheckpoint r s
  | 0x41 => execRestore r s
  | _ => command "COMMAND" cmd r s fun s => stat s 2

/-- A command frame delivered to firmware (R355, R358). -/
def takeCommand (s : State) (f : Frame) : State :=
  match commandOf f.cmd.toNat { strm := f.strm, tag := f.tag, payload := f.payload } s with
  | .next s => s
  | _ => s

/-! ### Receiving (R354 to R356) -/

/-- A frame is a remote access, its reply, or an acknowledgement, on a stream that PEER_ADD opened (R354, R369). -/
def onPeerStream (s : State) (f : Frame) : Bool :=
  decide (3 ≤ f.type.toNat) && s.peers.any (fun (p : Peer) => peerStream p.p == f.strm)

/-- The source may send (R354): it is on the allow-list, or its stream is a peer's. Without a valid manifest there is no list,
and every source may ask QUERY and ATTEST (R372; DEDUCED, log entry 38). -/
def sourceOk (s : State) (f : Frame) : Bool := s.recovery || s.manifest.allow.contains f.ip || onPeerStream s f

/-- The frame is kept (R354 to R356): UDP port, version, type, reserved bits, length, CRC and source. -/
def frameOk (s : State) (f : Frame) : Bool :=
  (udpPorts s).contains f.udp && f.ver == 1 && decide (1 ≤ f.type.toNat ∧ f.type.toNat ≤ 7) && f.flg.toNat / 8 == 0 &&
    decide (f.payload.length ≤ 8192) && f.crc == frameCrc f && sourceOk s f

/-- An acknowledgement covers a frame that was sent (R355). -/
def acked (f g : Frame) : Bool :=
  let d := (g.seq - f.ackn).toNat
  decide (2 ^ 31 ≤ d) || (f.flg.getLsbD 2 && decide (1 ≤ d ∧ d ≤ 32) && f.sack.getLsbD (d - 1))

/-- The acknowledgement state of a frame taken in (R355): what it covers is not sent again. -/
def takeAck (x : Strm) (f : Frame) : Strm := { x with unacked := x.unacked.filter (fun g => !acked f g.1) }

/-- A frame delivered in order (R356). -/
def deliverFrame (s : State) (f : Frame) : State :=
  match f.type.toNat with
  | 1 => takeCommand s f
  | 3 | 4 | 5 => serveFrame s f
  | 6 => takeReply s f
  | _ => s

/-- FIN closes the stream of its frame (R355). -/
def closeFin (s : State) (f : Frame) : State :=
  if f.flg.getLsbD 1 then { s with streams := s.streams.filter (fun y => y.id != f.strm) } else s

/-- Frames that came early are delivered once their turn comes (R356); fuel bounds their number. -/
def drainGot : Nat → State → BitVec 32 → State
  | 0, s, _ => s
  | k + 1, s, id =>
    match findStream s id with
    | none => s
    | some x =>
      match x.got.find? (fun f => f.seq == x.expect) with
      | none => s
      | some f =>
        let s := setStream s { x with expect := x.expect + 1, got := x.got.filter (fun g => g.seq != x.expect) }
        drainGot k (closeFin (deliverFrame s f) f) id

/-- A frame is the next of its stream, comes early and is kept, or has come before (R356). -/
def arrive (s : State) (x : Strm) (f : Frame) : State :=
  if f.seq = x.expect then
    drainGot x.got.length (closeFin (deliverFrame (setStream s { x with expect := x.expect + 1 }) f) f) f.strm
  else
    let d := (f.seq - x.expect).toNat
    if 2 ^ 31 ≤ d ∨ 32 < d ∨ x.got.any (fun g => g.seq == f.seq) then setStream s x
    else setStream s { x with got := x.got ++ [f] }

/-- The stream of a frame: the one that is open, or one that its SYN opens (R355). A failed host stream may be opened again. -/
def streamFor (s : State) (f : Frame) : Option Strm :=
  let opened : Option Strm :=
    if f.flg.getLsbD 0 then some { newStream f.strm with ip := f.ip, expect := f.seq } else none
  match findStream s f.strm with
  | none => opened
  | some x => if x.failed then (if f.strm.toNat < 0xFFFFFF00 then opened else none) else some x

/-- A frame arrives (R355, R356): dropped, or its acknowledgements are taken and it is delivered in SEQ order, at once or
when the frames before it have come. SYN opens a stream and FIN closes it. -/
def receive (s : State) (f : Frame) : State :=
  if !frameOk s f then s
  else
    match streamFor s f with
    | none => s
    | some x => if f.type = 7 then closeFin (setStream s (takeAck x f)) f else arrive s (takeAck x f) f

/-- A frame event of one type. -/
def frameEvent (name : String) (ty : Nat) (f : Frame) (s : State) : Out :=
  if f.type.toNat = ty ∧ s.booted ∧ !s.recovery then .next (receive s f) else notEnabled name

/-- REMOTE_READ (R370). -/
def execRemoteRead (f : Frame) (s : State) : Out := frameEvent "REMOTE_READ" 3 f s

/-- REMOTE_WRITE (R370). -/
def execRemoteWrite (f : Frame) (s : State) : Out := frameEvent "REMOTE_WRITE" 4 f s

/-- REMOTE_ATOMIC (R370). -/
def execRemoteAtomic (f : Frame) (s : State) : Out := frameEvent "REMOTE_ATOMIC" 5 f s

/-- REMOTE_REPLY (R370). -/
def execRemoteReply (f : Frame) (s : State) : Out := frameEvent "REMOTE_REPLY" 6 f s

/-- ACKNOWLEDGEMENT (R355): no payload. -/
def execAcknowledgement (f : Frame) (s : State) : Out := frameEvent "ACKNOWLEDGEMENT" 7 f s

end Sys2Proof.Machine
end

