-- ==== Sys2Proof/Machine/Dispatch.lean ====
section
/-! DEFINITION. One arm for each constructor of Instr: the direct call of its meaning. -/

namespace Sys2Proof.Machine

/-- What an instruction does to the machine, or what an event of the module does. -/
def exec (i : Instr) (s : State) : Host.Outcome State Fault Refusal :=
  match i with
  | .clauseHeader w a b l c g f => Sys2Proof.Machine.execClauseHeader w a b l c g f s
  | .ext p => Sys2Proof.Machine.execExt p s
  | .mod r z sx c k o w => Sys2Proof.Machine.execMod r z sx c k o w s
  | .sched y l c => Sys2Proof.Machine.execSched y l c s
  | .nop => Sys2Proof.Machine.execNop s
  | .bra ix => Sys2Proof.Machine.execBra ix s
  | .bcNz c ix => Sys2Proof.Machine.execBcNz c ix s
  | .bcZ c ix => Sys2Proof.Machine.execBcZ c ix s
  | .recon ix => Sys2Proof.Machine.execRecon ix s
  | .join => Sys2Proof.Machine.execJoin s
  | .brk n ix => Sys2Proof.Machine.execBrk n ix s
  | .call c ix => Sys2Proof.Machine.execCall c ix s
  | .ret a => Sys2Proof.Machine.execRet a s
  | .jmpi a => Sys2Proof.Machine.execJmpi a s
  | .exit => Sys2Proof.Machine.execExit s
  | .exitKill => Sys2Proof.Machine.execExitKill s
  | .trap a ix => Sys2Proof.Machine.execTrap a ix s
  | .yield ix => Sys2Proof.Machine.execYield ix s
  | .cbar k => Sys2Proof.Machine.execCbar k s
  | .gbar => Sys2Proof.Machine.execGbar s
  | .wait d a b x k => Sys2Proof.Machine.execWait d a b x k s
  | .waitWakeup u => Sys2Proof.Machine.execWaitWakeup u s
  | .launch d a => Sys2Proof.Machine.execLaunch d a s
  | .tret sx => Sys2Proof.Machine.execTret sx s
  | .fwcall d a k => Sys2Proof.Machine.execFwcall d a k s
  | .trefresh => Sys2Proof.Machine.execTrefresh s
  | .lease d a ix => Sys2Proof.Machine.execLease d a ix s
  | .unlease => Sys2Proof.Machine.execUnlease s
  | .rdsr d ix => Sys2Proof.Machine.execRdsr d ix s
  | .wrsrFpx a => Sys2Proof.Machine.execWrsrFpx a s
  | .wrsrXdead a => Sys2Proof.Machine.execWrsrXdead a s
  | .wrsrTrapvec a => Sys2Proof.Machine.execWrsrTrapvec a s
  | .wrsr a ix => Sys2Proof.Machine.execWrsr a ix s
  | .mred a b h k => Sys2Proof.Machine.execMred a b h k s
  | .mredw d h => Sys2Proof.Machine.execMredw d h s
  | .add d a b u p => Sys2Proof.Machine.execAdd d a b u p s
  | .sub d a b u p => Sys2Proof.Machine.execSub d a b u p s
  | .addi d a ix => Sys2Proof.Machine.execAddi d a ix s
  | .mul d a b p => Sys2Proof.Machine.execMul d a b p s
  | .mulhiS d a b p => Sys2Proof.Machine.execMulhiS d a b p s
  | .mulhiU d a b p => Sys2Proof.Machine.execMulhiU d a b p s
  | .mad d a b c p => Sys2Proof.Machine.execMad d a b c p s
  | .minS d a b p => Sys2Proof.Machine.execMinS d a b p s
  | .minU d a b p => Sys2Proof.Machine.execMinU d a b p s
  | .maxS d a b p => Sys2Proof.Machine.execMaxS d a b p s
  | .maxU d a b p => Sys2Proof.Machine.execMaxU d a b p s
  | .abs d a p => Sys2Proof.Machine.execAbs d a p s
  | .and d a b p => Sys2Proof.Machine.execAnd d a b p s
  | .or d a b p => Sys2Proof.Machine.execOr d a b p s
  | .xor d a b p => Sys2Proof.Machine.execXor d a b p s
  | .andn d a b p => Sys2Proof.Machine.execAndn d a b p s
  | .andi d a ix => Sys2Proof.Machine.execAndi d a ix s
  | .ori d a ix => Sys2Proof.Machine.execOri d a ix s
  | .xori d a ix => Sys2Proof.Machine.execXori d a ix s
  | .shl d a b p => Sys2Proof.Machine.execShl d a b p s
  | .shr d a b p => Sys2Proof.Machine.execShr d a b p s
  | .sar d a b p => Sys2Proof.Machine.execSar d a b p s
  | .rot d a b p => Sys2Proof.Machine.execRot d a b p s
  | .shli d a n => Sys2Proof.Machine.execShli d a n s
  | .shri d a n => Sys2Proof.Machine.execShri d a n s
  | .sari d a n => Sys2Proof.Machine.execSari d a n s
  | .popc d a p => Sys2Proof.Machine.execPopc d a p s
  | .clz d a p => Sys2Proof.Machine.execClz d a p s
  | .brev d a p => Sys2Proof.Machine.execBrev d a p s
  | .bfe d a sx l o => Sys2Proof.Machine.execBfe d a sx l o s
  | .bfi d a b c p => Sys2Proof.Machine.execBfi d a b c p s
  | .cmp d a b k p => Sys2Proof.Machine.execCmp d a b k p s
  | .cmpiEq d a ix => Sys2Proof.Machine.execCmpiEq d a ix s
  | .cmpiLtS d a ix => Sys2Proof.Machine.execCmpiLtS d a ix s
  | .cmpiLtU d a ix => Sys2Proof.Machine.execCmpiLtU d a ix s
  | .cmpiNe d a ix => Sys2Proof.Machine.execCmpiNe d a ix s
  | .sel d a b c p => Sys2Proof.Machine.execSel d a b c p s
  | .movi d ix => Sys2Proof.Machine.execMovi d ix s
  | .mov d a p => Sys2Proof.Machine.execMov d a p s
  | .add64 d a b p => Sys2Proof.Machine.execAdd64 d a b p s
  | .sub64 d a b p => Sys2Proof.Machine.execSub64 d a b p s
  | .addi64 d a ix => Sys2Proof.Machine.execAddi64 d a ix s
  | .lea64 d a b u sx p => Sys2Proof.Machine.execLea64 d a b u sx p s
  | .rng d a b p => Sys2Proof.Machine.execRng d a b p s
  | .cvtI d a t sx p => Sys2Proof.Machine.execCvtI d a t sx p s
  | .dot4S8 d a b c p => Sys2Proof.Machine.execDot4S8 d a b c p s
  | .dot4U8 d a b c p => Sys2Proof.Machine.execDot4U8 d a b c p s
  | .fadd d a b p => Sys2Proof.Machine.execFadd d a b p s
  | .fsub d a b p => Sys2Proof.Machine.execFsub d a b p s
  | .fmul d a b p => Sys2Proof.Machine.execFmul d a b p s
  | .ffma d a b c p => Sys2Proof.Machine.execFfma d a b c p s
  | .fmin d a b p => Sys2Proof.Machine.execFmin d a b p s
  | .fmax d a b p => Sys2Proof.Machine.execFmax d a b p s
  | .fcmp d a b k p => Sys2Proof.Machine.execFcmp d a b k p s
  | .fabs d a p => Sys2Proof.Machine.execFabs d a p s
  | .fneg d a p => Sys2Proof.Machine.execFneg d a p s
  | .frcp d a p => Sys2Proof.Machine.execFrcp d a p s
  | .frsq d a p => Sys2Proof.Machine.execFrsq d a p s
  | .fexp2 d a p => Sys2Proof.Machine.execFexp2 d a p s
  | .flog2 d a p => Sys2Proof.Machine.execFlog2 d a p s
  | .sincosT d a p => Sys2Proof.Machine.execSincosT d a p s
  | .fround d a p => Sys2Proof.Machine.execFround d a p s
  | .fclass d a p => Sys2Proof.Machine.execFclass d a p s
  | .fscale d a b p => Sys2Proof.Machine.execFscale d a b p s
  | .cvtFi d a t sx p => Sys2Proof.Machine.execCvtFi d a t sx p s
  | .cvtIf d a t sx p => Sys2Proof.Machine.execCvtIf d a t sx p s
  | .cvtFf d a sx n t p => Sys2Proof.Machine.execCvtFf d a sx n t p s
  | .hadd2 d a b y p => Sys2Proof.Machine.execHadd2 d a b y p s
  | .hmul2 d a b y p => Sys2Proof.Machine.execHmul2 d a b y p s
  | .hfma2 d a b c p => Sys2Proof.Machine.execHfma2 d a b c p s
  | .fdot2 d a b c p => Sys2Proof.Machine.execFdot2 d a b c p s
  | .fdot4F8 d a b c p => Sys2Proof.Machine.execFdot4F8 d a b c p s
  | .shflIdx d a b sx p => Sys2Proof.Machine.execShflIdx d a b sx p s
  | .shflXor d a k => Sys2Proof.Machine.execShflXor d a k s
  | .shflPrv d a k => Sys2Proof.Machine.execShflPrv d a k s
  | .shflNxt d a k => Sys2Proof.Machine.execShflNxt d a k s
  | .voteAny d a p => Sys2Proof.Machine.execVoteAny d a p s
  | .voteAll d a p => Sys2Proof.Machine.execVoteAll d a p s
  | .ballot d a p => Sys2Proof.Machine.execBallot d a p s
  | .matchLanes d a m p => Sys2Proof.Machine.execMatchLanes d a m p s
  | .redux d a m p => Sys2Proof.Machine.execRedux d a m p s
  | .scan d a m p => Sys2Proof.Machine.execScan d a m p s
  | .cxch d a y k j => Sys2Proof.Machine.execCxch d a y k j s
  | .bcast d a k => Sys2Proof.Machine.execBcast d a k s
  | .ld t a x o => Sys2Proof.Machine.execLd t a x o s
  | .loadComplete u k => Sys2Proof.Machine.execLoadComplete u k s
  | .st t a x o => Sys2Proof.Machine.execSt t a x o s
  | .ldx t a o => Sys2Proof.Machine.execLdx t a o s
  | .ldAcq t a x o => Sys2Proof.Machine.execLdAcq t a x o s
  | .stRel t a x o => Sys2Proof.Machine.execStRel t a x o s
  | .ldAcqp t a x o => Sys2Proof.Machine.execLdAcqp t a x o s
  | .promotionRequest u core => Sys2Proof.Machine.execPromotionRequest u core s
  | .promotionRepliesComplete u => Sys2Proof.Machine.execPromotionRepliesComplete u s
  | .stNt t a x o => Sys2Proof.Machine.execStNt t a x o s
  | .ntdrain => Sys2Proof.Machine.execNtdrain s
  | .fence x => Sys2Proof.Machine.execFence x s
  | .atom d a b m p => Sys2Proof.Machine.execAtom d a b m p s
  | .cas d a b c p => Sys2Proof.Machine.execCas d a b c p s
  | .red a b m p => Sys2Proof.Machine.execRed a b m p s
  | .lds t a x o => Sys2Proof.Machine.execLds t a x o s
  | .sts t a x o => Sys2Proof.Machine.execSts t a x o s
  | .atoms d a b m p => Sys2Proof.Machine.execAtoms d a b m p s
  | .pref a o => Sys2Proof.Machine.execPref a o s
  | .qinit a b p => Sys2Proof.Machine.execQinit a b p s
  | .qsend a b p => Sys2Proof.Machine.execQsend a b p s
  | .qrecv d a p => Sys2Proof.Machine.execQrecv d a p s
  | .qtry d a p => Sys2Proof.Machine.execQtry d a p s
  | .tcopy a f => Sys2Proof.Machine.execTcopy a f s
  | .tcopyY c ix => Sys2Proof.Machine.execTcopyY c ix s
  | .tcopyx a b f => Sys2Proof.Machine.execTcopyx a b f s
  | .tfill a b f => Sys2Proof.Machine.execTfill a b f s
  | .tquery d sx => Sys2Proof.Machine.execTquery d sx s
  | .copyStart core q => Sys2Proof.Machine.execCopyStart core q s
  | .copyComplete core q => Sys2Proof.Machine.execCopyComplete core q s
  | .copyFreeze core q => Sys2Proof.Machine.execCopyFreeze core q s
  | .wload a b f k q => Sys2Proof.Machine.execWload a b f k q s
  | .mswap => Sys2Proof.Machine.execMswap s
  | .mzero n t => Sys2Proof.Machine.execMzero n t s
  | .mma a b f t k w => Sys2Proof.Machine.execMma a b f t k w s
  | .mmas a b f t k w => Sys2Proof.Machine.execMmas a b f t k w s
  | .mmak a b f t m => Sys2Proof.Machine.execMmak a b f t m s
  | .mscale a f t => Sys2Proof.Machine.execMscale a f t s
  | .mdrain a b f t k q => Sys2Proof.Machine.execMdrain a b f t k q s
  | .mread d g t => Sys2Proof.Machine.execMread d g t s
  | .mpair o => Sys2Proof.Machine.execMpair o s
  | .mfence => Sys2Proof.Machine.execMfence s
  | .scfg a b f => Sys2Proof.Machine.execScfg a b f s
  | .sieve a b f => Sys2Proof.Machine.execSieve a b f s
  | .matrixCommandStart core => Sys2Proof.Machine.execMatrixCommandStart core s
  | .matrixCommandComplete core => Sys2Proof.Machine.execMatrixCommandComplete core s
  | .matrixFreeze core => Sys2Proof.Machine.execMatrixFreeze core s
  | .mpairCinch core => Sys2Proof.Machine.execMpairCinch core s
  | .mpairLate core => Sys2Proof.Machine.execMpairLate core s
  | .bind d n r => Sys2Proof.Machine.execBind d n r s
  | .bindx d a n => Sys2Proof.Machine.execBindx d a n s
  | .trapEntry u => Sys2Proof.Machine.execTrapEntry u s
  | .frqStallRetry u => Sys2Proof.Machine.execFrqStallRetry u s
  | .translationWalk die => Sys2Proof.Machine.execTranslationWalk die s
  | .teamEnd u => Sys2Proof.Machine.execTeamEnd u s
  | .gridDispatch ctx => Sys2Proof.Machine.execGridDispatch ctx s
  | .clusterPlace ctx grid => Sys2Proof.Machine.execClusterPlace ctx grid s
  | .harvestPlace ctx grid => Sys2Proof.Machine.execHarvestPlace ctx grid s
  | .leaveGrant die => Sys2Proof.Machine.execLeaveGrant die s
  | .tokenRefill => Sys2Proof.Machine.execTokenRefill s
  | .bubbleEnd => Sys2Proof.Machine.execBubbleEnd s
  | .hang ctx => Sys2Proof.Machine.execHang ctx s
  | .mredPartialArrival k => Sys2Proof.Machine.execMredPartialArrival k s
  | .mredForward cl ch node => Sys2Proof.Machine.execMredForward cl ch node s
  | .mredGiveUp cl ch node child => Sys2Proof.Machine.execMredGiveUp cl ch node child s
  | .preemptRequest core => Sys2Proof.Machine.execPreemptRequest core s
  | .teamResume u core => Sys2Proof.Machine.execTeamResume u core s
  | .harvestRevoke core => Sys2Proof.Machine.execHarvestRevoke core s
  | .harvestRestart u => Sys2Proof.Machine.execHarvestRestart u s
  | .leaseScrub core => Sys2Proof.Machine.execLeaseScrub core s
  | .exclusiveListProcess lineage => Sys2Proof.Machine.execExclusiveListProcess lineage s
  | .ridTagFlush => Sys2Proof.Machine.execRidTagFlush s
  | .poisonListMove ctrl => Sys2Proof.Machine.execPoisonListMove ctrl s
  | .meshLinkRetire link flit => Sys2Proof.Machine.execMeshLinkRetire link flit s
  | .query r => Sys2Proof.Machine.execQuery r s
  | .attest r => Sys2Proof.Machine.execAttest r s
  | .hostReset r => Sys2Proof.Machine.execHostReset r s
  | .peerAdd r => Sys2Proof.Machine.execPeerAdd r s
  | .powerCap r => Sys2Proof.Machine.execPowerCap r s
  | .ctxCreate r => Sys2Proof.Machine.execCtxCreate r s
  | .ctxDestroy r => Sys2Proof.Machine.execCtxDestroy r s
  | .partSet r => Sys2Proof.Machine.execPartSet r s
  | .harvestGrant r => Sys2Proof.Machine.execHarvestGrant r s
  | .decodeLoad r => Sys2Proof.Machine.execDecodeLoad r s
  | .memAlloc r => Sys2Proof.Machine.execMemAlloc r s
  | .hostMap r => Sys2Proof.Machine.execHostMap r s
  | .unmap r => Sys2Proof.Machine.execUnmap r s
  | .remap r => Sys2Proof.Machine.execRemap r s
  | .snapshot r => Sys2Proof.Machine.execSnapshot r s
  | .fork r => Sys2Proof.Machine.execFork r s
  | .hostWrite r => Sys2Proof.Machine.execHostWrite r s
  | .hostRead r => Sys2Proof.Machine.execHostRead r s
  | .hostLaunch r => Sys2Proof.Machine.execHostLaunch r s
  | .gridWait r => Sys2Proof.Machine.execGridWait r s
  | .suspend r => Sys2Proof.Machine.execSuspend r s
  | .resume r => Sys2Proof.Machine.execResume r s
  | .checkpoint r => Sys2Proof.Machine.execCheckpoint r s
  | .checkpointDone => Sys2Proof.Machine.execCheckpointDone s
  | .restore r => Sys2Proof.Machine.execRestore r s
  | .ctxScrubDone ctx => Sys2Proof.Machine.execCtxScrubDone ctx s
  | .remoteRead f => Sys2Proof.Machine.execRemoteRead f s
  | .remoteWrite f => Sys2Proof.Machine.execRemoteWrite f s
  | .remoteAtomic f => Sys2Proof.Machine.execRemoteAtomic f s
  | .remoteReply f => Sys2Proof.Machine.execRemoteReply f s
  | .acknowledgement f => Sys2Proof.Machine.execAcknowledgement f s
  | .laziaRetransmitTimeout strm => Sys2Proof.Machine.execLaziaRetransmitTimeout strm s
  | .resetN heldNs => Sys2Proof.Machine.execResetN heldNs s
  | .boot flash => Sys2Proof.Machine.execBoot flash s
  | .powerLoss => Sys2Proof.Machine.execPowerLoss s
  | .thermalThrottle die temp => Sys2Proof.Machine.execThermalThrottle die temp s
  | .thermalRecover die temp => Sys2Proof.Machine.execThermalRecover die temp s
  | .thermalShutdown die temp => Sys2Proof.Machine.execThermalShutdown die temp s
  | .storePerformedAtHome k => Sys2Proof.Machine.execStorePerformedAtHome k s
  | .externalLimit u => Sys2Proof.Machine.execExternalLimit u s
  | .restoreComplete => Sys2Proof.Machine.execRestoreComplete s
  | .l2WriteBack line => Sys2Proof.Machine.execL2WriteBack line s

end Sys2Proof.Machine
end

