-- ==== Sys2Proof/Machine/Schedule.lean ====
section
/-! DEFINITION. What stands around an instruction in a step: choosing and fetching the next word (R29, R32, R307, R309), what
follows of itself once a step has been made, the passing of time, and the order of moves when no agenda gives one (log
entries 9 and 10). -/

namespace Sys2Proof.Machine

/-! ### Ready teams (R29, R32, R307, R309) -/

/-- The team is inside a clause: its next word is not a header's. -/
def midClause (t : Team) : Bool := t.wix != 0

/-- The team's ld.acqp awaits its promotion's replies (R266). An acquire orders what comes after it, so that words which use memory
(`usesMemory`) and trefresh wait for them; every other word goes on. DEDUCED (log entry 91): R266 says when the load is made and
not what the team issues meanwhile. -/
def promotes (t : Team) : Bool := (promoting t).isSome

/-- The word waits for a promotion of the team (R266; log entry 91). -/
def waitsPromotion (t : Team) (i : Instr) : Bool := promotes t && (usesMemory i || i == .trefresh)

/-- The word at the team's header, as its home holds it; none where it cannot be read or is no header. -/
def headerWord? (s : State) (t : Team) : Option Word :=
  match fetchPa s t t.pc with
  | .fault .. => none
  | .ok x =>
    let w := wordAt (homeBytes s x.pa 4) 0
    if isPeer x.pa || !isHeader w then none else some w

/-- A reproducible grid's team holds the role of current team of its core (R309). -/
def holdsRole (s : State) (t : Team) : Bool :=
  !t.hdr.repro ||
    (match findGrid s t.ctx t.grid with
     | some g => g.roles.any (fun r => r.core == t.core && r.held && r.last == logicalIx t)
     | none => false)

/-- Nothing but flags can hold the team's next word back: it is resident, with lanes, without a block or a trap that waits. A
harvest team does not issue beside an exclusive one (R397), and an exclusive one not before every harvest team of its core is
held (R401). -/
def unheld (s : State) (t : Team) : Bool :=
  t.place == .resident && t.active != 0 && t.block.isNone && t.hold.isNone && t.trap.isNone && holdsRole s t &&
    !(t.hdr.harvest && exclHere s t.core) && !(t.hdr.excl && (harvestTeams s t.core).any (fun x => x.place == .resident))

/-- The team's clause, or the rest of it, may issue (R29, R32). A header that will trap, or that delivers frozen commands,
does not wait for its flags. -/
def readyTeam (s : State) (t : Team) : Bool :=
  unheld s t && (midClause t || !(undelivered s t false).isEmpty ||
    (match headerWord? s t with
     | some w =>
       !(headerReasons (fld w 13 4) (fld w 9 4) (fld w 4 5) (fld w 2 2)).isEmpty ||
         clauseReady t (fld w 17 12) (fld w 13 4) (fld w 9 4)
     | none => true))

/-- The class of a team on its core (R14, R307): owner, normal, harvest. -/
def classOf (s : State) (t : Team) : Nat :=
  if t.hdr.harvest then 2
  else
    match findCtx s t.ctx with
    | some c => if c.owned.contains t.core then 0 else 1
    | none => 1

/-- The keys of R307 as one number, the first to go lowest. -/
def issueKey (s : State) (t : Team) : Nat :=
  ((classOf s t * 4 + (3 - t.hdr.prio)) * 2 ^ 64 + t.readyAt % 2 ^ 64) * 128 + t.slot

/-- The team with the lowest key. -/
def bestTeam (s : State) : List Team → Option Team
  | [] => none
  | t :: rest =>
    match bestTeam s rest with
    | some x => if issueKey s x < issueKey s t then some x else some t
    | none => some t

/-- The team that holds its core's issue slot: it has issued and is inside its clause, and no trap, pre-emption, revocation or
stall has stopped it (R29). A harvest team beside an exclusive one does not issue, and holds nothing (R14). -/
def slotHolder (s : State) (core : Nat) : Option Team :=
  match (coreOf s core).issuing.bind (findTeam s) with
  | none => none
  | some t =>
    if t.core == core && midClause t && t.place == .resident && t.active != 0 && t.block.isNone && t.trap.isNone &&
        !(t.hdr.harvest && exclHere s core) then some t
    else none

/-- The team whose word the core issues next (R29, R307): the one that holds the slot, and no other while it waits; else the best of
the ready ones. No core issues in a bubble (R312). -/
def pickTeam (s : State) (core : Nat) : Option Team :=
  if s.bubble.isSome then none
  else
    match slotHolder s core with
    | some t => if readyTeam s t then some t else none
    | none => bestTeam s (s.teams.filter (fun t => t.core == core && readyTeam s t))

/-! ### One word (R18, R27, R40, R105, R296) -/

/-- The entry that a word's opcode has in a decode table (R39); the empty table stands for DT-1. -/
def tableEntry (table : List Word) (w : Word) : Word :=
  let op := (fld w 22 10).toNat
  match table with
  | [] => dt1Entry op
  | es => es.getD op 0

/-- The word at the team's place is the first that it fetches (R296). -/
def firstFetch (t : Team) : Bool := t.clause.len == 0 && t.pc == t.hdr.entry

/-- A word that does not decode raises ILLOP at its place; where a mod hint stands before it that only an instruction may follow,
at the hint (R35, R37, R45). -/
def badWord (s : State) (t : Team) (w : Word) (reason : Nat) : State :=
  if modPending t && fld w 29 3 == 6 && fld w 28 1 == 1 then illAtMod s t else raiseIll s t reason 0

/-- A team's word as fetched (R27, R40, R296): a kernel's first word that is no header, a word that does not decode, or the
instruction. Any other word that is no header where one must stand shows that among its causes (R27, R45). -/
def runWord (s : State) (t : Team) (w : Word) : Out :=
  let t := { t with ir := w }
  if t.wix = 0 && !isHeader w && firstFetch t then .next (raiseWide s t 0x02 (t.pc.setWidth 64) 0)
  else
    match decodeWord (tableEntry t.table w) w with
    | .ill reason => .next (badWord s t w reason)
    | .ok i fm => if waitsPromotion t i then notEnabled "ISSUE" else exec i (setTeam s { t with fmod := fm })

/-- The word at the team's place: fetched, but for one of which some passes have gone (R29, R105). -/
def wordOfTeam (s : State) (t : Team) : State × Fetched := if t.begun then (s, .word t.ir) else fetchWord s t (wordAddr t)

/-- The core issues one word of a team (R29, R105). -/
def issueWord (s : State) (t : Team) : Out :=
  let s := { s with cur := some t.uid }
  match wordOfTeam s t with
  | (s, .fault c x) => .next (raiseFetch s t c x)
  | (s, .poison hop) => .next (poisonedWord s t (wordAddr t) hop)
  | (s, .word w) => runWord s t w

/-- The core issues the next word of the team it picks. -/
def issue (core : Nat) (s : State) : Out :=
  match pickTeam s core with
  | none => notEnabled "ISSUE"
  | some t => issueWord s t

/-! ### Passes (R162, R293, R294) -/

/-- The passes of a word with compaction off (R293): the mask words of the active mask. -/
def wordPasses (m : Mask) : List Mask :=
  ((List.range 32).map (fun k => maskOf ((lanesOf m).filter (fun l => l / 32 == k)))).filter (fun x => x != 0)

/-- The passes with compaction on (R293): pass k takes, in each of the 32 columns, the k-th active lane. -/
def columnPasses (m : Mask) : List Mask :=
  let ls := lanesOf m
  ((List.range 32).map (fun k =>
    maskOf (ls.filter (fun l => (ls.filter (fun j => j % 32 == l % 32 && decide (j < l))).length == k)))).filter (fun x => x != 0)

/-- The passes in which an instruction executes (R293, R294): COMP 1 compacts, 2 does not, and 0 compacts where that takes fewer
passes. -/
def passesOf (t : Team) (i : Instr) : List Mask :=
  let a := wordPasses t.active
  let b := columnPasses t.active
  if compacts i && (t.clause.comp == 1 || (t.clause.comp == 0 && decide (b.length < a.length))) then b else a

/-- The lanes of the first n passes of those that still have lanes to execute; with all of them a word that faults is stopped before
its trap is entered (R163). -/
def firstPasses (t : Team) (i : Instr) (n : Nat) : Option Mask :=
  let ps := (passesOf t i).filter (fun p => p &&& toDo t != 0)
  if n = 0 || ps.isEmpty then none else some ((ps.take n).foldl (· ||| ·) 0)

/-- The core issues n passes of its team's word, and the rest later: where a pre-emption, a revocation or anything else may come
between (R29, R162, R293). -/
def issuePasses (core n : Nat) (s : State) : Out :=
  match pickTeam s core with
  | none => notEnabled "PASSES"
  | some t =>
    match wordOfTeam { s with cur := some t.uid } t with
    | (s, .word w) =>
      (match decodeWord (tableEntry t.table w) w with
      | .ok i _ =>
        if stoppable i && t.wix != 0 then
          match firstPasses t i n with
          | some m => runWord s { t with pass := some m } w
          | none => notEnabled "PASSES"
        else notEnabled "PASSES"
      | .ill _ => notEnabled "PASSES")
    | _ => notEnabled "PASSES"

/-! ### What follows a step of itself -/

/-- A state mapped by f. -/
def thenDo (o : Out) (f : State → State) : Out :=
  match o with
  | .next s => .next (f s)
  | o => o

/-- A team that a block holds takes the delivery of a frozen command at once (R128, R313). -/
def deliverBlocked (s : State) (u : Nat) : State :=
  match findTeam s u with
  | none => s
  | some t =>
    let taken := match t.block with
      | some (.cbar _) | some .gbar | some (.wait ..) | some (.qsend ..) | some (.qrecv ..) | some (.copy ..)
      | some (.fwcall ..) | some (.tret _) => true
      | _ => false
    if taken && t.place == .resident && t.trap.isNone && t.live != 0 then
      match undelivered s t false with
      | [] => s
      | fs => deliver s t fs
    else s

/-- A clause that ends under YLD resets the ready time (R38), but not in reproducible mode. -/
def yieldEnd (s : State) (u : Nat) : State :=
  match findTeam s u with
  | some t =>
    if t.clause.yld && t.wix == 0 then
      let t := { t with clause := { t.clause with yld := false } }
      setTeam s (if t.hdr.repro then t else { t with wasReady := true, readyAt := s.clk.toNat + 1 })
    else s
  | none => s

/-- A team that ends inside a handler (R340): the commands that the entry delivered will be neither retried nor skipped, and
are cancelled as in the skip form (log entry 25). -/
def dropDelivered (s : State) (u : Nat) : State :=
  match findTeam s u with
  | some t =>
    match t.handler with
    | some h =>
      if t.live == 0 && t.trap.isNone && !h.delivered.isEmpty then
        let s := cancelMat (cancelCopy s t h.delivered) t h.delivered
        match findTeam s u with
        | some x => setTeam s { x with handler := some { h with delivered := [] } }
        | none => s
      else s
    | none => s
  | none => s

/-- What a team's own state leads to at once. -/
def settleTeam (s : State) (u : Nat) : State :=
  queueStep (yieldEnd (leaveOver (fwFinish (finishTret (deliverBlocked (dropDelivered (checkEnd s u) u) u) u) u) u) u) u

/-- A front command that needs leave asks for it (R120, R220, R311). -/
def askFront (s : State) (core : Nat) : State :=
  let ask := fun (q : Bool) (s : State) =>
    match copyFront s core q with
    | some c =>
      if c.stage == .waiting && c.heavy s then askLeave (setCopy s core q { c with stage := .asking }) core c.iss.seq else s
    | none => s
  let s := ask true (ask false s)
  match matFront s core with
  | some c =>
    if c.stage == .waiting && c.op.heavy then askLeave (setMat s core { c with stage := .asking }) core c.iss.seq else s
  | none => s

/-- The first of some logical team indices after another, cyclically (R309). -/
def nextAfter (last : Nat) (ixs : List Nat) : Option Nat :=
  match lowest (ixs.filter (fun i => decide (last < i))) with
  | some i => some i
  | none => lowest ixs

/-- The role of current team passes to the next team that is not blocked (R309), once no team of its grid is saved there, so that
pre-emption changes no order (R310, R349; DEDUCED, log entry 94). -/
def passRole (s : State) (ctx : Nat) (g : Grid) (r : Role) : Role :=
  let here := s.teams.filter (fun t => t.ctx == ctx && t.grid == g.num && t.core == r.core)
  if r.held || here.any (fun t => t.place == .saved) then r
  else
    let able := here.filter (fun t => t.place == .resident && t.block.isNone && t.live != 0)
    match nextAfter r.last (able.map logicalIx) with
    | some i => { r with last := i, held := true }
    | none => r

/-- Every role that nobody holds passes on. -/
def passRoles (s : State) : State :=
  { s with
    contexts := s.contexts.map (fun c =>
      { c with grids := c.grids.map (fun g => { g with roles := g.roles.map (passRole s c.id g) }) }) }

/-- The ready time of a clause (R307). -/
def noteReady (s : State) : State :=
  { s with
    teams := s.teams.map (fun t =>
      if readyTeam s t then (if t.wasReady then t else { t with wasReady := true, readyAt := s.clk.toNat })
      else { t with wasReady := false }) }

/-- A team that is no longer inside a clause has let the slot go (R29). -/
def noteIssuing (s : State) : State :=
  { s with
    cores := s.cores.map (fun c =>
      match c.issuing with
      | none => c
      | some u =>
        match findTeam s u with
        | some t => if midClause t && t.place == .resident && t.block.isNone && t.trap.isNone then c else { c with issuing := none }
        | none => { c with issuing := none }) }

/-- A team that issued and is inside its clause holds its core's slot (R29). -/
def holdSlot (s : State) : State :=
  match s.cur with
  | none => s
  | some u =>
    match findTeam s u with
    | some t => if midClause t then setCore s { coreOf s t.core with issuing := some u } else s
    | none => s

/-- What follows a step of itself: writes need noting only while an engine holds commands, and each part of the module takes what
its state entitles it to. -/
def tidy (s : State) : State :=
  let s := { holdSlot s with cur := none }
  let s := if enginesBusy s then s else { s with journal := [] }
  let s := (s.teams.map Team.uid).foldl settleTeam s
  let cores := s.cores.map CoreSt.id
  let s := cores.foldl fencesDone s
  let s := cores.foldl (fun s c => askFront (admitMat (admitCopy s c) c) c) s
  answerWaits (markReleased (noteIssuing (noteReady (passRoles s))))

/-! ### Time (R31, R242, R323, R351) -/

/-- The partner of a posted command is away or frozen: the cycle is not counted (R242). -/
def partnerAway (s : State) (c : MatCmd) : Bool :=
  match c.pair with
  | none => false
  | some (k, u, _) =>
    match findTeam s u with
    | none => true
    | some t =>
      t.place != .resident || (coreOf s t.core).mat.any (fun d => d.iss.uid == u && d.stage == .frozen &&
        (match d.pair with
         | some (j, _, _) => j == k
         | none => false))

/-- n cycles pass. -/
def passTime (s : State) (n : Nat) : State :=
  { s with
    clk := s.clk + BitVec.ofNat 64 n
    contexts := s.contexts.map (hangTick s n)
    cores := s.cores.map (fun c => { c with mat := c.mat.map (fun m =>
      match m.posted with
      | some p => if partnerAway s m then { m with posted := some (p + n) } else m
      | none => m) }) }

/-- A step takes the time that the run gives it (log entry 9). -/
def tick (s : State) : State := { passTime s (Config.elapsed s.ticks) with ticks := s.ticks + 1 }

/-! ### Moves -/

/-- One move, with what follows it. -/
def runMove (m : Move) (s : State) : Out :=
  thenDo (match m with
    | .event i => exec i s
    | .issue core => issue core s
    | .passes core n => issuePasses core n s
    | .reread u k => reread u k s
    | .frame f => if s.booted then .next (receive s f) else notEnabled "FRAME"
    | .harm h =>
      match harm s h with
      | some s => .next s
      | none => notEnabled "HARM"
    | .firmware u =>
      match findTeam s u with
      | some t =>
        if (fwPending t.block).isSome || (fwPending (t.handler.bind Handler.block)).isSome then .next (fwRun s u)
        else notEnabled "FIRMWARE"
      | none => notEnabled "FIRMWARE") (fun s => tick (tidy s))

/-- The word that a wait watches has changed, or cannot be read as before (R317). -/
def wakeDue (s : State) (t : Team) : Bool :=
  match t.block with
  | some (.wait _ _ _ va _ last _ _) =>
    match translate s t.root va .read none with
    | .ok x => !isPeer x.pa && (wordAt (homeBytes s x.pa 4) 0 != last || hopOf s x.pa 4 != 0)
    | .fault .. => true
  | _ => false

/-- What comes first: pre-emption, revocation, and traps that wait. -/
def urgentMoves (s : State) : List Move :=
  let cores := (s.teams.map Team.core).eraseDups
  cores.map (fun c => .event (.preemptRequest c)) ++ cores.map (fun c => .event (.harvestRevoke c)) ++
    (s.teams.filter (fun t => t.trap.isSome)).map (fun t => .event (.trapEntry t.uid))

/-- The events of teams. -/
def teamMoves (s : State) (t : Team) : List Move :=
  [.firmware t.uid] ++ t.pend.map (fun p => .event (.loadComplete t.uid p.seq)) ++
    (match promoting t with
     | some cs => cs.map (fun c => .event (.promotionRequest t.uid c)) ++ [.event (.promotionRepliesComplete t.uid)]
     | none => []) ++
    (if wakeDue s t then [.event (.waitWakeup t.uid)] else []) ++
    [.event (.externalLimit t.uid), .event (.teamEnd t.uid), .event (.harvestRestart t.uid)] ++
    (match t.place, findCtx s t.ctx with
     | .saved, some c => (t.core :: c.cores).map (fun k => .event (.teamResume t.uid k))
     | _, _ => [])

/-- The events of engines and pools of a core. -/
def coreMoves (c : CoreSt) : List Move :=
  [false, true].flatMap (fun q => [.event (.copyComplete c.id q), .event (.copyFreeze c.id q), .event (.copyStart c.id q)]) ++
    [.event (.mpairCinch c.id), .event (.matrixCommandComplete c.id), .event (.matrixFreeze c.id),
     .event (.matrixCommandStart c.id), .event (.mpairLate c.id), .event (.leaseScrub c.id)]

/-- The events of mesh reductions. -/
def meshMoves (s : State) : List Move :=
  (List.range s.partials.length).map (fun k => .event (.mredPartialArrival k)) ++
    s.clusters.zipIdx.flatMap (fun x => x.1.nodes.flatMap (fun n =>
      .event (.mredForward x.2 n.ch n.node) ::
        (treeChildren x.1 n.col n.node).map (fun c => .event (.mredGiveUp x.2 n.ch n.node c))))

/-- The events of contexts and firmware. -/
def firmwareMoves (s : State) : List Move :=
  s.contexts.flatMap (fun c => .event (.hang c.id) :: .event (.gridDispatch c.id) :: .event (.ctxScrubDone c.id) ::
    (c.grids.filter Grid.entered).flatMap (fun g => [.event (.clusterPlace c.id g.num), .event (.harvestPlace c.id g.num)])) ++
    (s.roots.map RootRec.lineage).eraseDups.map (fun k => .event (.exclusiveListProcess k)) ++
    (s.poison.map (fun x => ctrlOf (64 * x.1))).eraseDups.map (fun k => .event (.poisonListMove k)) ++
    [.event .ridTagFlush, .event .checkpointDone, .event .restoreComplete]

/-- Every event that the module makes of itself, in the order that log entry 10 chooses. -/
def innerMoves (s : State) : List Move :=
  [.event .bubbleEnd] ++ s.stores.map (fun e => .event (.storePerformedAtHome e.seq)) ++
    s.teams.flatMap (teamMoves s) ++ (List.range 8).map (fun d => .event (.leaveGrant d)) ++ s.cores.flatMap coreMoves ++
    meshMoves s ++ firmwareMoves s ++ (List.range 8).map (fun d => .event (.translationWalk d)) ++
    (if bubbleMode s && decide ((lowestDie s).1 < 0) then [.event .tokenRefill] else [])

/-- What is left when nothing else moves. -/
def lateMoves (s : State) : List Move :=
  (if s.dies.toList.any (fun d => !d.asking.isEmpty) then [.event .tokenRefill] else []) ++
    s.teams.map (fun t => .event (.waitWakeup t.uid))

/-- The cores that issue, in an order that goes round with the steps, so that a core which always can does not keep the others from
it. -/
def issueMoves (s : State) : List Move :=
  let cs := (s.teams.map Team.core).eraseDups
  let k := s.ticks % cs.length
  (cs.drop k ++ cs.take k).map Move.issue

/-- The moves in the order of log entry 10. -/
def defaultMoves (s : State) : List Move :=
  if !s.booted then [.event (.boot none)]
  else urgentMoves s ++ innerMoves s ++ issueMoves s ++ lateMoves s

/-- The first move of a list that is enabled. -/
def firstMove (s : State) : List Move → Option Out
  | [] => none
  | m :: rest =>
    match runMove m s with
    | .next s' => some (.next s')
    | _ => firstMove s rest

/-- A step without an agenda: the first move that is enabled, or time passes. -/
def ownStep (s : State) : Out :=
  match firstMove s (defaultMoves s) with
  | some o => o
  | none => .next (tick (tidy s))

/-- The move needs no power. -/
def unpoweredMove : Move → Bool
  | .event (.boot _) | .event .powerLoss => true
  | _ => false

/-- A step: the agenda's first move, or one of the module's own; without power nothing but the return of power. -/
def oneStep (s : State) : Out :=
  match s.agenda with
  | m :: rest =>
    if s.powered || unpoweredMove m then runMove m { s with agenda := rest } else .fault .noPower
  | [] => if s.powered then ownStep s else .fault .noPower

/-! ### A program placed from outside (State.withFetchWord) -/

/-- Addresses that the placed program uses, in GDDR7: top node, its children of levels 2 to 0, and the code page. -/
def placedNode (l : Nat) : Nat := 0x100000 + 4096 * l
def placedPage : Nat := 0x300000000

/-- A node entry placed at index 0. -/
def placedEntry (l : Nat) : Entry :=
  if l = 0 then
    { noEntry with frame := placedPage, ex := true, rd := true, wr := true, leaf := true, valid := true }
  else nodeEntry 0 (placedNode (l - 1)) false

/-- Bytes placed in an array. -/
def placeBytes (m : List Host.Cell) (pa : Nat) (bs : List Byte) : List Host.Cell :=
  sputs memDefault m (bs.zipIdx.map (fun b => (pa + b.2, b.1)))

/-- The header of the clause that a placed word stands in at word index 1: SETA names f0 and SETB f1, and another word follows
an ext or mod hint. -/
def placedHeader (w : Word) : Word :=
  let more := if fld w 29 3 == 6 && fld w 27 2 != 2 then 2 else 1
  0xE0000200 + BitVec.ofNat 32 (16 * more)

/-- The kernel of the placed program: one group, every main register, one accumulator tile, DT-1. -/
def placedHdr : KHdr :=
  { entry := 0, partword := 0x810, scratch := 4096, preload := 0, shape := 256 + 2 ^ 20, mode := 0x10000 }

/-- The launch of the placed program: its code page lies at VA 0. -/
def placedDesc : LaunchDesc :=
  { khdr := 0, code := 0, param := 0, gx := 1, gy := 1, gz := 1, ctl := 0, indv := 0, done := 0 }

/-- The root of the placed program. -/
def placedRoot : RootDesc := { rid := 1, gen := 0, lvl := 3, node := placedNode 3 }

/-- The grid of the placed program, as its dispatch and placement leave it. -/
def placedGrid : Grid :=
  { newGrid 1 placedDesc none with st := .running, hdr := placedHdr, size := (1, 1, 1), next := 1 }

/-- The context of the placed program. -/
def placedCtx : Context :=
  { newContext 1 1 placedRoot 0 0xFFFFFFFF 0 0 0 0 with cores := [0], owned := [0], grids := [placedGrid], nextGrid := 2 }

/-- The team of the placed program at its word: at the header, or inside the clause. -/
def placedTeam (u : Nat) (w : Word) : Team :=
  let t := startTeam placedCtx placedGrid u 0 0 0 0 [0] none
  if isHeader w then t
  else
    let h := placedHeader w
    { t with wix := 1, clause := { seta := 0, setb := 1, len := (fld h 4 5).toNat, comp := 0, yld := false } }

/-- The state with a program placed whose next word is w (log entry 24): a context with one grid of one team on core (0, 0),
its tree and its code, the core's partition word, and an agenda that lets the core issue. -/
def placeWord (s : State) (w : Word) : State :=
  let code := if isHeader w then bytesOf 4 w.toNat else bytesOf 4 (placedHeader w).toNat ++ bytesOf 4 w.toNat
  let mem := (List.range 4).foldl (fun m l => placeBytes m (placedNode l) (bytesOf 16 (entryNat (placedEntry l)))) s.mem
  let cluster : Cluster := { ctx := 1, grid := 1, lin := 0, x0 := 0, y0 := 0, w := 1, h := 1, bars := [], ended := [], nodes := [] }
  { setCore s { coreOf s 0 with partword := placedHdr.partword } with
    mem := placeBytes mem placedPage code
    contexts := [placedCtx], clusters := [cluster], teams := [placedTeam s.nextUid w], nextUid := s.nextUid + 1
    agenda := [.issue 0] }

end Sys2Proof.Machine
end

