-- ==== Sys2Proof/Machine/Step.lean ====
section
/-! DEFINITION. The step of the machine, and the placing of one instruction where the next step fetches it. -/

namespace Sys2Proof.Machine

/-- One step: the first move of the agenda, or the module's own choice (log entry 10). -/
def step (s : State) : Host.Outcome State Fault Refusal := oneStep s

/-- The state with an instruction placed where the next step fetches. Every row of the table has 32 bits. -/
def State.withFetchWord (s : State) (_nbits w : Nat) : State := placeWord s (BitVec.ofNat 32 w)

end Sys2Proof.Machine
end

