-- ==== Sys2Proof/Safety.lean ====
section
/-! DEFINITION. The terms in which claims are stated: steps that stop nowhere, accepted words, what a word of one team leaves
unchanged, and the invariant that every step keeps. -/

namespace Sys2Proof.Machine

/-! ### Steps and the invariant -/

/-- The answer is a next state: the step meets no stop. -/
def Safe (o : Out) : Prop := ∃ s, o = .next s

/-- The invariant of every step: the device arrays and L2 are in their canonical form, and a dirty line of L2 holds 64 bytes. -/
def State.Inv (s : State) : Prop := Memory.wf s.mem = true ∧ sok [] s.l2 = true ∧ ∀ e ∈ s.l2, e.2.length = 64

/-! ### An accepted word -/

/-- Team t issues its word i in s, or some passes of it (R293): no cause of R45 holds, and every slot named is bound (R158). -/
structure Issues (s : State) (t : Team) (i : Instr) (slots : List Nat) : Prop where
  cur : curTeam s = some t
  legal : reasons i t = []
  bound : ∀ n ∈ slots, (slotReg t n).isSome = true

/-- Team t issues its word i in s, with every pass of it (R293): none has gone before. -/
structure Accepted (s : State) (t : Team) (i : Instr) (slots : List Nat) : Prop extends Issues s t i slots where
  whole : t.pass = none
  first : t.faulted = [] ∧ t.done = 0

/-- The place after the team's word: the next word of its clause, or the header behind the clause (R27). -/
def nextPlace (t : Team) : Word × Nat := if t.wix < t.clause.len then (t.pc, t.wix + 1) else (nextAddr t, 0)

/-- The team at a place, its word counted once (R351) and over. -/
def Team.movedTo (t : Team) (p : Word × Nat) : Team :=
  { t.wordOver with icnt := if t.begun then t.icnt else t.icnt + 1, pc := p.1, wix := p.2 }

/-- The team after a word: at a place; or, where only some passes have gone, at the word, its resume mask the lanes of the other
passes (R162, R293). -/
def Team.after (t : Team) (p : Word × Nat) : Team :=
  match t.pass with
  | none => t.movedTo p
  | some m =>
    if toDo t &&& ~~~m = 0 then t.movedTo p
    else { t with icnt := if t.begun then t.icnt else t.icnt + 1, resume := some (toDo t &&& ~~~m), pass := none, begun := true }

/-! ### What a word of one team leaves alone -/

/-- A core but for the rows that asynchronous reads find rewritten (R224), the mask words that later writes have replaced (R33) and
the translations that it caches (R112). -/
def CoreSt.plain (c : CoreSt) : CoreSt := { c with mat := c.mat.map (fun m => { m with taint := [], gone := [] }), leaf := [] }

/-- A die but for its translation caches and walks (R112, R113). -/
def Die.plain (d : Die) : Die := { d with walks := [], misses := [], pathCache := [], leafCache := [] }

/-- From s to s' nothing changed but team u, what caches hold, and the count of free values drawn. -/
structure OnlyTeam (s s' : State) (u : Nat) : Prop where
  rest : s' = { s with teams := s'.teams, cores := s'.cores, dies := s'.dies, icache := s'.icache, fresh := s'.fresh }
  bytes : ∀ a, homeByte s' a = homeByte s a
  others : ∀ v, v ≠ u → findTeam s' v = findTeam s v
  cores : ∀ c, (coreOf s' c).plain = (coreOf s c).plain
  dies : ∀ d, (dieOf s' d).plain = (dieOf s d).plain

/-- The whole effect of a word on the machine is what it makes of its team. -/
def Becomes (s s' : State) (t t' : Team) : Prop := OnlyTeam s s' t.uid ∧ findTeam s' t.uid = some t'

/-- The code word at an address is a clause header that the team may fetch (R24, R105, R414): its page may be executed, it is
no peer's, its line is not poisoned, and the core's instruction cache holds no other word for it (R88). -/
def headerAt (s : State) (t : Team) (a : Word) : Prop :=
  ∃ x, fetchPa s t a = .ok x ∧ isPeer x.pa = false ∧ lineHop s (x.pa / 64) = 0 ∧
    isHeader (wordAt (homeBytes s x.pa 4) 0) = true ∧
    ∀ c, icLine s t.core (x.pa / 64) = some c → wordAt c.data (x.pa % 64) = wordAt (homeBytes s x.pa 4) 0

/-- A pending instruction but for the destinations that later writes contest (R33) and the loads that later accesses fix (R258). -/
def Pend.plain (p : Pend) : Pend := { p with contested := [], again := [] }

/-- From t to t' a word, or some passes of it, wrote registers and exception bits only: nothing else of the team changed but its
place. -/
structure OnlyRegs (t t' : Team) : Prop where
  rest : t' = { t.after (nextPlace t) with
    regs := t'.regs, regBad := t'.regBad, pend := t'.pend, fpx := t'.fpx, xdead := t'.xdead }
  pend : t'.pend.map Pend.plain = t.pend.map Pend.plain

/-- Destination slot k is the last that is bound to its register. -/
def lastOf (t : Team) (dsts : List Nat) (k : Nat) : Prop :=
  ∀ j, k < j → j < dsts.length → slotReg t (dsts.getD j 0) ≠ slotReg t (dsts.getD k 0)

/-- What a word of fixed latency does to its team (R33, R73, R168): in each lane of lanes for which known holds, destination
slot k gets word k of val; every other register is unchanged; the lane's exception bits gain those of bits; DRD is set in the
lanes of drd and unchanged elsewhere. -/
structure Wrote (s s' : State) (t : Team) (lanes dsts : List Nat) (known : Nat → Prop) (val : Nat → List Word)
    (bits : Nat → Nat) (drd : Nat → Bool) : Prop where
  machine : OnlyTeam s s' t.uid
  team : ∃ t', findTeam s' t.uid = some t' ∧ OnlyRegs t t' ∧
    (∀ l ∈ lanes, known l → ∀ k, k < dsts.length → k < (val l).length → lastOf t dsts k →
      slot t' l (dsts.getD k 0) = (val l).getD k 0) ∧
    (∀ l r, r < 256 → ¬ (l ∈ lanes ∧ ∃ n ∈ dsts, slotReg t n = some r) → reg t' l r = reg t l r) ∧
    (∀ l, fpxOf t' l = if l ∈ lanes then fpxOf t l ||| BitVec.ofNat 4 (bits l) else fpxOf t l) ∧
    (∀ l, sget false t'.xdead l = (sget false t.xdead l || (decide (l ∈ lanes) && drd l)))

end Sys2Proof.Machine
end

