-- ==== Sys2Proof/Certificates/Slice0/Obligations.lean ====
section
/-! DEFINITION. The statements for the provers. Each `def Obligations.<Name> : Prop` cites the rules of spec/ it formalises;
the definitions before it give what the rules say in the rules' own arithmetic. -/

namespace Sys2Proof.Claims

open Sys2Proof Sys2Proof.Machine

/-! ### Per-lane instructions -/

/-- What the rules give a per-lane instruction of fixed latency: predicate selector, source and destination slots, and from
the modifiers, the ext value and the source words the destination words and the exception bits. -/
structure LaneRule where
  p : BitVec 2
  srcs : List Nat
  dsts : List Nat
  fn : Mods → Option (BitVec 20) → List Word → List Word × Nat

/-- A table of such rules holds of the machine: a word of the table, in a team no lane of which reads a poisoned register, writes
in each lane of the passes that issue what its rule gives, and nothing else (R33, R73, R168, R190, R293). -/
def Obeyed (rule : Mods → Instr → Option LaneRule) : Prop :=
  ∀ (i : Instr) (s : State) (t : Team) (r : LaneRule), rule (modsOf t) i = some r →
    Issues s t i (r.srcs ++ predSlot r.p ++ r.dsts) → lostLanes s t r.p r.srcs = [] →
    ∃ s', exec i s = .next s' ∧
      Wrote s s' t (execLanes s t r.p) r.dsts (fun l => readsPending s t l (r.srcs ++ predSlot r.p) = false)
        (fun l => (r.fn (modsOf t) (extOf t) (r.srcs.map (readSlot s t l))).1)
        (fun l => if readsPending s t l (r.srcs ++ predSlot r.p) then 0
          else (r.fn (modsOf t) (extOf t) (r.srcs.map (readSlot s t l))).2) (fun _ => false)

/-- A word completes with its own effect in every state in which it issues, every slot that it names is bound and no lane
consumes poison: the next state is reached, and nothing but its team, caches and free draws differs (R29, R168, R190, R208). -/
def Completes (i : Instr) (p : BitVec 2) (srcs dsts : List Nat) : Prop :=
  ∀ (s : State) (t : Team), Issues s t i (srcs ++ predSlot p ++ dsts) → (∀ l n, regPoisoned t l n = false) →
    ∃ s', exec i s = .next s' ∧ OnlyTeam s s' t.uid

/-- A rule on one source word. -/
def on1 (p : BitVec 2) (d a : BitVec 5) (f : Mods → Word → Word) : Option LaneRule :=
  some { p := p, srcs := [a.toNat], dsts := [d.toNat], fn := fun m _ v => ([f m (v.getD 0 0)], 0) }

/-- A rule on two source words. -/
def on2 (p : BitVec 2) (d a b : BitVec 5) (f : Mods → Word → Word → Word) : Option LaneRule :=
  some { p := p, srcs := [a.toNat, b.toNat], dsts := [d.toNat], fn := fun m _ v => ([f m (v.getD 0 0) (v.getD 1 0)], 0) }

/-- A rule on three source words. -/
def on3 (p : BitVec 2) (d a b c : BitVec 5) (f : Word → Word → Word → Word) : Option LaneRule :=
  some { p := p, srcs := [a.toNat, b.toNat, c.toNat], dsts := [d.toNat],
         fn := fun _ _ v => ([f (v.getD 0 0) (v.getD 1 0) (v.getD 2 0)], 0) }

/-- A rule on one source word and an immediate; no predicate. -/
def onImm (d a : BitVec 5) (f : Option (BitVec 20) → Word → Word) : Option LaneRule :=
  some { p := 0, srcs := [a.toNat], dsts := [d.toNat], fn := fun _ e v => ([f e (v.getD 0 0)], 0) }

/-- The value of an immediate that imm12 gives with its sign, or an ext hint in full (R25, R171). -/
def immSigned (e : Option (BitVec 20)) (i : BitVec 12) : Int :=
  match e with
  | some x => (BitVec.ofNat 32 (x.toNat * 4096 + i.toNat)).toInt
  | none => i.toInt

/-- The value of an immediate that imm12 gives without sign, or an ext hint in full (R25, R171). -/
def immUnsigned (e : Option (BitVec 20)) (i : BitVec 12) : Nat :=
  match e with
  | some x => x.toNat * 4096 + i.toNat
  | none => i.toNat

/-- A number between two bounds. -/
def clamp (lo hi v : Int) : Int := if v < lo then lo else if hi < v then hi else v

/-- Arithmetic and bounds (R172 to R174). -/
def arithRule (_ : Mods) : Instr → Option LaneRule
  | .add d a b u p => on2 p d a b fun m x y =>
      if m.sat = 0 then BitVec.ofNat 32 (x.toNat + y.toNat)
      else if u = 1 then BitVec.ofInt 32 (clamp 0 (2 ^ 32 - 1) ((x.toNat : Int) + y.toNat))
      else BitVec.ofInt 32 (clamp (-2 ^ 31) (2 ^ 31 - 1) (x.toInt + y.toInt))
  | .sub d a b u p => on2 p d a b fun m x y =>
      if m.sat = 0 then BitVec.ofInt 32 ((x.toNat : Int) - y.toNat)
      else if u = 1 then BitVec.ofInt 32 (clamp 0 (2 ^ 32 - 1) ((x.toNat : Int) - y.toNat))
      else BitVec.ofInt 32 (clamp (-2 ^ 31) (2 ^ 31 - 1) (x.toInt - y.toInt))
  | .addi d a i => onImm d a fun e x => BitVec.ofInt 32 (x.toNat + immSigned e i)
  | .mul d a b p => on2 p d a b fun _ x y => BitVec.ofNat 32 (x.toNat * y.toNat)
  | .mulhiS d a b p => on2 p d a b fun _ x y => (x.signExtend 64 * y.signExtend 64).extractLsb' 32 32
  | .mulhiU d a b p => on2 p d a b fun _ x y => (x.setWidth 64 * y.setWidth 64).extractLsb' 32 32
  | .mad d a b c p => on3 p d a b c fun x y z => BitVec.ofNat 32 (x.toNat * y.toNat + z.toNat)
  | .minS d a b p => on2 p d a b fun _ x y => if x.toInt ≤ y.toInt then x else y
  | .minU d a b p => on2 p d a b fun _ x y => if x.toNat ≤ y.toNat then x else y
  | .maxS d a b p => on2 p d a b fun _ x y => if x.toInt ≤ y.toInt then y else x
  | .maxU d a b p => on2 p d a b fun _ x y => if x.toNat ≤ y.toNat then y else x
  | .abs d a p => on1 p d a fun m x =>
      if m.sat = 1 then BitVec.ofInt 32 (clamp 0 (2 ^ 31 - 1) x.toInt.natAbs) else BitVec.ofNat 32 x.toInt.natAbs
  | _ => none

/-- Logic, shifts, rotation, counts and bit fields (R175 to R179). -/
def bitRule (_ : Mods) : Instr → Option LaneRule
  | .and d a b p => on2 p d a b fun _ x y => x &&& y
  | .or d a b p => on2 p d a b fun _ x y => x ||| y
  | .xor d a b p => on2 p d a b fun _ x y => x ^^^ y
  | .andn d a b p => on2 p d a b fun _ x y => x &&& ~~~y
  | .andi d a i => onImm d a fun e x => x &&& BitVec.ofNat 32 (immUnsigned e i)
  | .ori d a i => onImm d a fun e x => x ||| BitVec.ofNat 32 (immUnsigned e i)
  | .xori d a i => onImm d a fun e x => x ^^^ BitVec.ofNat 32 (immUnsigned e i)
  | .shl d a b p => on2 p d a b fun _ x y => BitVec.ofNat 32 (x.toNat * 2 ^ (y.toNat % 64))
  | .shr d a b p => on2 p d a b fun _ x y => BitVec.ofNat 32 (x.toNat / 2 ^ (y.toNat % 64))
  | .sar d a b p => on2 p d a b fun _ x y => BitVec.ofInt 32 (x.toInt / 2 ^ (y.toNat % 64))
  | .rot d a b p => on2 p d a b fun _ x y =>
      BitVec.ofNat 32 (x.toNat * 2 ^ (y.toNat % 32) + x.toNat / 2 ^ (32 - y.toNat % 32))
  | .shli d a n => onImm d a fun _ x => BitVec.ofNat 32 (x.toNat * 2 ^ n.toNat)
  | .shri d a n => onImm d a fun _ x => BitVec.ofNat 32 (x.toNat / 2 ^ n.toNat)
  | .sari d a n => onImm d a fun _ x => BitVec.ofInt 32 (x.toInt / 2 ^ n.toNat)
  | .popc d a p => on1 p d a fun _ x => BitVec.ofNat 32 ((List.range 32).map (fun k => x.toNat / 2 ^ k % 2)).sum
  | .clz d a p => on1 p d a fun _ x => BitVec.ofNat 32 ((List.range 32).countP (fun k => decide (x.toNat < 2 ^ k)))
  | .brev d a p => on1 p d a fun _ x =>
      (BitVec.ofBoolListLE ((List.range 32).map (fun k => x.getLsbD (31 - k)))).setWidth 32
  | .bfe d a g l o => onImm d a fun _ x =>
      let f := x.toNat / 2 ^ o.toNat % 2 ^ l.toNat
      if g = 1 ∧ 2 ^ (l.toNat - 1) ≤ f then BitVec.ofInt 32 (f - 2 ^ l.toNat) else BitVec.ofNat 32 f
  | .bfi d a b c p => on3 p d a b c fun x y z =>
      let len := min (z.toNat / 256 % 64) 32
      let pos := z.toNat % 32
      let mask := BitVec.ofNat 32 ((2 ^ len - 1) * 2 ^ pos)
      (y &&& ~~~mask) ||| (BitVec.ofNat 32 (x.toNat * 2 ^ pos) &&& mask)
  | _ => none

/-- 1 where a condition holds, else 0. -/
def one (c : Prop) [Decidable c] : Word := if c then 1 else 0

/-- The unsigned value of a pair of words, low word first (R22). -/
def pairNat (lo hi : Word) : Nat := lo.toNat + 2 ^ 32 * hi.toNat

/-- The low and the high word of a number modulo 2^64. -/
def pairOf (v : Int) : List Word := [BitVec.ofInt 32 v, BitVec.ofInt 32 (v / 2 ^ 32)]

/-- The conditions of cmp (R180). -/
def cmpSays (k : Nat) (x y : Word) : Bool :=
  match k with
  | 0 => decide (x.toNat = y.toNat)
  | 1 => decide (x.toNat ≠ y.toNat)
  | 2 => decide (x.toInt < y.toInt)
  | 3 => decide (x.toInt ≤ y.toInt)
  | 4 => decide (y.toInt < x.toInt)
  | 5 => decide (y.toInt ≤ x.toInt)
  | 6 => decide (x.toNat < y.toNat)
  | 7 => decide (x.toNat ≤ y.toNat)
  | 8 => decide (y.toNat < x.toNat)
  | _ => decide (y.toNat ≤ x.toNat)

/-- A source of cvt.i as an integer (R185). -/
def cvtSource (st : BitVec 2) (lo hi : Word) : Int :=
  if st = 0 then lo.toNat else if st = 1 then lo.toInt
  else if st = 2 then pairNat lo hi else (BitVec.ofNat 64 (pairNat lo hi)).toInt

/-- Lowest and highest value of an integer type of cvt.i (R185). -/
def cvtLimits (dt : BitVec 3) : Int × Int :=
  if dt = 0 then (0, 2 ^ 8 - 1) else if dt = 1 then (-2 ^ 7, 2 ^ 7 - 1) else if dt = 2 then (0, 2 ^ 16 - 1)
  else if dt = 3 then (-2 ^ 15, 2 ^ 15 - 1) else if dt = 4 then (0, 2 ^ 32 - 1) else if dt = 5 then (-2 ^ 31, 2 ^ 31 - 1)
  else if dt = 6 then (0, 2 ^ 64 - 1) else (-2 ^ 63, 2 ^ 63 - 1)

/-- The number that cvt.i leaves, by its value in the destination type (R185). -/
def cvtValue (dt : BitVec 3) (sat : Bool) (v : Int) : Int :=
  let lim := cvtLimits dt
  if sat then clamp lim.1 lim.2 v else lim.1 + (v - lim.1) % (lim.2 - lim.1 + 1)

/-- Byte k of a word as dot4 reads it (R186). -/
def dotByte (sgn : Bool) (x : Word) (k : Nat) : Int :=
  let b := x.toNat / 2 ^ (8 * k) % 256
  if sgn ∧ 128 ≤ b then (b : Int) - 256 else b

/-- The sum of a byte dot product (R186). -/
def dotSum (sgn : Bool) (x y z : Word) : Word :=
  BitVec.ofInt 32 (z.toNat + ((List.range 4).map (fun k => dotByte sgn x k * dotByte sgn y k)).sum)

/-- rotl64 (R187). -/
def rotl64 (x : DWord) (k : Nat) : DWord := BitVec.ofNat 64 (x.toNat * 2 ^ k + x.toNat / 2 ^ (64 - k))

/-- The generator of R187. -/
def rngSays (ctr key : DWord) : DWord :=
  ([(0, 13), (1, 29), (2, 41), (3, 7), (4, 53), (5, 19), (6, 37), (7, 23)] : List (Nat × Nat)).foldl (fun x r =>
    let y := rotl64 (x + key + BitVec.ofNat 64 (r.1 * 0x6A4DB3C51E970F2B)) r.2
    y ^^^ BitVec.ofNat 64 (y.toNat / 2 ^ 32)) ctr

/-- Comparison, selection, moves, pairs, conversion, dot products and the generator (R180 to R187). -/
def wideRule (_ : Mods) : Instr → Option LaneRule
  | .cmp d a b k p => on2 p d a b fun _ x y => one (cmpSays k.toNat x y = true)
  | .cmpiEq d a i => onImm d a fun e x => one (x = BitVec.ofInt 32 (immSigned e i))
  | .cmpiNe d a i => onImm d a fun e x => one (x ≠ BitVec.ofInt 32 (immSigned e i))
  | .cmpiLtS d a i => onImm d a fun e x => one (x.toInt < immSigned e i)
  | .cmpiLtU d a i => onImm d a fun e x => one (x.toNat < immUnsigned e i)
  | .sel d a b c p => on3 p d a b c fun x y z => if z.toNat % 2 = 1 then x else y
  | .movi d i => some ⟨0, [],
      [d.toNat],
      fun _ e _ => ([BitVec.ofInt 32 (immSigned e i)], 0)⟩
  | .mov d a p => on1 p d a fun _ x => x
  | .add64 d a b p => some ⟨p, [a.toNat, a.toNat + 1, b.toNat, b.toNat + 1],
      [d.toNat, d.toNat + 1],
      fun _ _ v => (pairOf ((pairNat (v.getD 0 0) (v.getD 1 0) : Int) + pairNat (v.getD 2 0) (v.getD 3 0)), 0)⟩
  | .sub64 d a b p => some ⟨p, [a.toNat, a.toNat + 1, b.toNat, b.toNat + 1],
      [d.toNat, d.toNat + 1],
      fun _ _ v => (pairOf ((pairNat (v.getD 0 0) (v.getD 1 0) : Int) - pairNat (v.getD 2 0) (v.getD 3 0)), 0)⟩
  | .addi64 d a i => some ⟨0, [a.toNat, a.toNat + 1],
      [d.toNat, d.toNat + 1],
      fun _ e v => (pairOf (pairNat (v.getD 0 0) (v.getD 1 0) + immSigned e i), 0)⟩
  | .lea64 d a b u h p => some ⟨p, [a.toNat, a.toNat + 1, b.toNat],
      [d.toNat, d.toNat + 1],
      fun _ _ v => (pairOf (pairNat (v.getD 0 0) (v.getD 1 0) +
        (if u = 1 then ((v.getD 2 0).toNat : Int) else (v.getD 2 0).toInt) * 2 ^ h.toNat), 0)⟩
  | .cvtI d a dt st p => some ⟨p, if 2 ≤ st.toNat then [a.toNat, a.toNat + 1] else [a.toNat],
      if 6 ≤ dt.toNat then [d.toNat, d.toNat + 1] else [d.toNat],
      fun m _ v =>
        let r := cvtValue dt (m.sat == 1) (cvtSource st (v.getD 0 0) (v.getD 1 0))
        (if 6 ≤ dt.toNat then pairOf r else [BitVec.ofInt 32 r], 0)⟩
  | .dot4S8 d a b c p => on3 p d a b c fun x y z => dotSum true x y z
  | .dot4U8 d a b c p => on3 p d a b c fun x y z => dotSum false x y z
  | .rng d a b p => some ⟨p, [a.toNat, a.toNat + 1, b.toNat, b.toNat + 1],
      [d.toNat, d.toNat + 1],
      fun _ _ v => (pairOf ((rngSays (BitVec.ofNat 64 (pairNat (v.getD 0 0) (v.getD 1 0)))
        (BitVec.ofNat 64 (pairNat (v.getD 2 0) (v.getD 3 0)))).toNat : Int), 0)⟩
  | _ => none

/-! ### Floating point -/

/-- A rule on one word with exception bits. -/
def fp1 (p : BitVec 2) (d a : BitVec 5) (f : Mods → Word → Word × Nat) : Option LaneRule :=
  some ⟨p, [a.toNat], [d.toNat], fun m _ v => ([(f m (v.getD 0 0)).1], (f m (v.getD 0 0)).2)⟩

/-- A rule on two words with exception bits. -/
def fp2 (p : BitVec 2) (d a b : BitVec 5) (f : Mods → Word → Word → Word × Nat) : Option LaneRule :=
  some ⟨p, [a.toNat, b.toNat], [d.toNat],
    fun m _ v => ([(f m (v.getD 0 0) (v.getD 1 0)).1], (f m (v.getD 0 0) (v.getD 1 0)).2)⟩

/-- A rule on three words with exception bits. -/
def fp3 (p : BitVec 2) (d a b c : BitVec 5) (f : Mods → Word → Word → Word → Word × Nat) : Option LaneRule :=
  some ⟨p, [a.toNat, b.toNat, c.toNat], [d.toNat], fun m _ v =>
    ([(f m (v.getD 0 0) (v.getD 1 0) (v.getD 2 0)).1], (f m (v.getD 0 0) (v.getD 1 0) (v.getD 2 0)).2)⟩

/-- The value of a word as FP32, a subnormal read as zero under FTZ (R71, R190). -/
def f32 (m : Mods) (x : Word) : FVal := Fmt.fp32.valFtz (m.ftz == 1) x.toNat

/-- An exact value with the bits raised so far, rounded once to FP32 under RM, SAT and FTZ (R69 to R73, R193). -/
def rounded (m : Mods) (v : FVal × Nat) : Word × Nat :=
  (BitVec.ofNat 32 (roundF .fp32 m.rm.toNat (m.sat == 1) (m.ftz == 1) v.1).1,
    v.2 ||| (roundF .fp32 m.rm.toNat (m.sat == 1) (m.ftz == 1) v.1).2)

/-- The sign of an exact zero that is no sum (R69): under RD (code 3) it is -0. -/
def underRd (rm : Nat) (v : FVal) : FVal :=
  match v with
  | .fin n mag e => if mag = 0 ∧ rm = 3 then .fin true 0 0 else .fin n mag e
  | v => v

/-- An exact product with that sign of zero (R69, R193). -/
def product (m : Mods) (a b : FVal) : FVal × Nat := (underRd m.rm.toNat (fMul a b).1, (fMul a b).2)

/-- The class bit of an FP32 encoding by its value (R197). -/
def classBit (x : Word) : Nat :=
  match Fmt.fp32.val x.toNat with
  | .nan sg => if sg then 8 else 9
  | .inf neg => if neg then 0 else 7
  | .fin neg mag _ =>
    if mag = 0 then (if neg then 3 else 4)
    else if x.toNat % 2 ^ 31 < 2 ^ 23 then (if neg then 2 else 5)
    else if neg then 1 else 6

/-- Arithmetic, comparison and sign (R193 to R197). -/
def floatRule (_ : Mods) : Instr → Option LaneRule
  | .fadd d a b p => fp2 p d a b fun m x y => rounded m (fAdd m.rm.toNat (f32 m x) (f32 m y))
  | .fsub d a b p => fp2 p d a b fun m x y => rounded m (fAdd m.rm.toNat (f32 m x) (f32 m y).negate)
  | .fmul d a b p => fp2 p d a b fun m x y => rounded m (product m (f32 m x) (f32 m y))
  | .ffma d a b c p => fp3 p d a b c fun m x y z => rounded m (fFma m.rm.toNat (f32 m x) (f32 m y) (f32 m z))
  | .fscale d a b p => fp2 p d a b fun m x y =>
      rounded m (match f32 m x with
        | .fin n mag e => underRd m.rm.toNat (.fin n mag (e + y.toInt))
        | v => v, 0)
  | .fround d a p => fp1 p d a fun m x =>
      match f32 m x with
      | .fin n mag e => rounded Mods.zero (.fin n (toInteger m.rm.toNat n mag e).natAbs 0, 0)
      | v => rounded m (v, 0)
  | .fmin d a b p => fp2 p d a b fun m x y =>
      (BitVec.ofNat 32 (fMinMax false (m.ftz == 1) x.toNat y.toNat).1, (fMinMax false (m.ftz == 1) x.toNat y.toNat).2)
  | .fmax d a b p => fp2 p d a b fun m x y =>
      (BitVec.ofNat 32 (fMinMax true (m.ftz == 1) x.toNat y.toNat).1, (fMinMax true (m.ftz == 1) x.toNat y.toNat).2)
  | .fcmp d a b k p => fp2 p d a b fun m x y => fcmpWord m k.toNat x y
  | .fabs d a p => fp1 p d a fun _ x =>
      match Fmt.fp32.val x.toNat with
      | .nan sg => (0x7FC00000, if sg then flagIV else 0)
      | _ => (BitVec.ofNat 32 (x.toNat % 2 ^ 31), 0)
  | .fneg d a p => fp1 p d a fun _ x =>
      match Fmt.fp32.val x.toNat with
      | .nan sg => (0x7FC00000, if sg then flagIV else 0)
      | _ => (BitVec.ofNat 32 (x.toNat + 2 ^ 31), 0)
  | .fclass d a p => fp1 p d a fun _ x => (BitVec.ofNat 32 (2 ^ classBit x), 0)
  | .frcp d a p => fp1 p d a fun m x => (BitVec.ofNat 32 (fRcp (m.ftz == 1) x.toNat).1, (fRcp (m.ftz == 1) x.toNat).2)
  | .frsq d a p => fp1 p d a fun m x => (BitVec.ofNat 32 (fRsq (m.ftz == 1) x.toNat).1, (fRsq (m.ftz == 1) x.toNat).2)
  | .fexp2 d a p => fp1 p d a fun m x => (BitVec.ofNat 32 (fExp2 (m.ftz == 1) x.toNat).1, (fExp2 (m.ftz == 1) x.toNat).2)
  | .flog2 d a p => fp1 p d a fun m x => (BitVec.ofNat 32 (fLog2 (m.ftz == 1) x.toNat).1, (fLog2 (m.ftz == 1) x.toNat).2)
  | .sincosT d a p => some ⟨p, [a.toNat], [d.toNat, d.toNat + 1], fun _ _ v =>
      ([BitVec.ofNat 32 (fSinCos (v.getD 0 0).toNat).1, BitVec.ofNat 32 (fSinCos (v.getD 0 0).toNat).2], 0)⟩
  | _ => none

/-- The half i of a word (R68). -/
def halfOf (x : Word) (i : Nat) : Nat := x.toNat / 2 ^ (16 * i) % 2 ^ 16

/-- Two halves each rounded in a 16-bit format, low half first (R198). -/
def roundedHalves (f : Fmt) (m : Mods) (v0 v1 : FVal × Nat) : Word × Nat :=
  let r := fun (v : FVal × Nat) => roundF f m.rm.toNat (m.sat == 1) (m.ftz == 1) v.1
  (BitVec.ofNat 32 ((r v0).1 % 2 ^ 16 + (r v1).1 % 2 ^ 16 * 2 ^ 16), v0.2 ||| (r v0).2 ||| (v1.2 ||| (r v1).2))

/-- BF16 or FP16 (R198). -/
def tyFmt (y : BitVec 1) : Fmt := if y = 0 then .bf16 else .fp16

/-- A half of a word as a value of a 16-bit format. -/
def halfVal (f : Fmt) (m : Mods) (x : Word) (i : Nat) : FVal := f.valFtz (m.ftz == 1) (halfOf x i)

/-- A byte of a word as an E4M3 value (R199). -/
def byteVal (x : Word) (i : Nat) : FVal := Fmt.e4m3.val (x.toNat / 2 ^ (8 * i) % 2 ^ 8)

/-- The formats of cvt.fi's source and cvt.if's destination (R201, R202). -/
def cvtFloat (k : Nat) : Fmt := if k = 0 then .fp32 else if k = 1 then .bf16 else .fp16

/-- The integer type of a code of cvt.fi and cvt.if: width and sign (R185, R201). -/
def cvtType (dt : BitVec 3) : Nat × Bool := (8 * 2 ^ (dt.toNat / 2), dt.toNat % 2 == 1)

/-- The slots of an integer result n modulo 2^width (R185, R201). -/
def intSlots (dt : BitVec 3) (n : Nat) : List Word :=
  if 6 ≤ dt.toNat then pairOf n
  else if (cvtType dt).2 ∧ 2 ^ ((cvtType dt).1 - 1) ≤ n then [BitVec.ofInt 32 (n - 2 ^ (cvtType dt).1)]
  else [BitVec.ofNat 32 n]

/-- Packed arithmetic, dot products and conversions (R198 to R202). -/
def packedRule (m0 : Mods) : Instr → Option LaneRule
  | .hadd2 d a b y p => fp2 p d a b fun m x z =>
      roundedHalves (tyFmt y) m (fAdd m.rm.toNat (halfVal (tyFmt y) m x 0) (halfVal (tyFmt y) m z 0))
        (fAdd m.rm.toNat (halfVal (tyFmt y) m x 1) (halfVal (tyFmt y) m z 1))
  | .hmul2 d a b y p => fp2 p d a b fun m x z =>
      roundedHalves (tyFmt y) m (product m (halfVal (tyFmt y) m x 0) (halfVal (tyFmt y) m z 0))
        (product m (halfVal (tyFmt y) m x 1) (halfVal (tyFmt y) m z 1))
  | .hfma2 d a b c p => fp3 p d a b c fun m x y z =>
      roundedHalves .bf16 m (fFma m.rm.toNat (halfVal .bf16 m x 0) (halfVal .bf16 m y 0) (halfVal .bf16 m z 0))
        (fFma m.rm.toNat (halfVal .bf16 m x 1) (halfVal .bf16 m y 1) (halfVal .bf16 m z 1))
  | .fdot2 d a b c p => fp3 p d a b c fun m x y z =>
      rounded m (fDot m.rm.toNat [(halfVal .bf16 m x 0, halfVal .bf16 m y 0), (halfVal .bf16 m x 1, halfVal .bf16 m y 1)]
        (f32 m z))
  | .fdot4F8 d a b c p => fp3 p d a b c fun m x y z =>
      rounded m (fDot m.rm.toNat [(byteVal x 0, byteVal y 0), (byteVal x 1, byteVal y 1), (byteVal x 2, byteVal y 2),
        (byteVal x 3, byteVal y 3)] (f32 m z))
  | .cvtFi d a dt st p => some ⟨p, [a.toNat], if 6 ≤ dt.toNat then [d.toNat, d.toNat + 1] else [d.toNat], fun m _ v =>
      let r := floatToInt (cvtType dt).1 (cvtType dt).2 m.rm.toNat (m.sat == 1)
        ((cvtFloat st.toNat).valFtz (m.ftz == 1) ((v.getD 0 0).toNat % 2 ^ (cvtFloat st.toNat).width))
      (intSlots dt r.1, r.2)⟩
  | .cvtIf d a dt st p => some ⟨p, if 6 ≤ st.toNat then [a.toNat, a.toNat + 1] else [a.toNat], [d.toNat], fun m _ v =>
      let n := cvtSource (BitVec.ofNat 2 (st.toNat - 4)) (v.getD 0 0) (v.getD 1 0)
      let r := roundF (cvtFloat dt.toNat) m.rm.toNat (m.sat == 1) false
        (underRd m.rm.toNat (.fin (decide (n < 0)) n.natAbs 0))
      ([BitVec.ofNat 32 r.1], r.2)⟩
  | .cvtFf d a st nof dt p => some ⟨p, if m0.wid = 5 ∧ st = 0 then [a.toNat, a.toNat + 1] else [a.toNat],
      if m0.wid = 5 ∧ dt = 0 then [d.toNat, d.toNat + 1] else [d.toNat],
      fun m _ v => cvtWords m st.toNat dt.toNat (nof == 1) (if m0.wid = 5 then 2 else 1) v⟩
  | _ => none

/-! ### Across lanes -/

/-- What a rule gives one executing lane: the word, exception bits, DRD. -/
structure LaneGet where
  word : Word
  bits : Nat
  drd : Bool

/-- What the rules give a cross-lane instruction: predicate selector, source slots, destination slot, and for the executing
lanes and one of them what that lane receives (R207, R208). -/
structure CrossRule where
  p : BitVec 2
  srcs : List Nat
  d : BitVec 5
  fn : State → Team → List Nat → Nat → LaneGet

/-- Lane l's own copy of the slot. -/
def keeps (t : Team) (a : BitVec 5) (l : Nat) : LaneGet := ⟨slot t l a.toNat, 0, false⟩

/-- What lane l takes from lane u (R207, R210): 0 with DRD from a dead lane; its own copy where u is no lane of the team, which an
exited lane no longer is (R288; log entry 13). -/
def takes (t : Team) (a : BitVec 5) (l u : Nat) : LaneGet :=
  if t.hdr.lanes ≤ u then keeps t a l
  else if t.dead.getLsbD u then ⟨0, 0, true⟩
  else if t.live.getLsbD u then ⟨slot t u a.toNat, 0, false⟩
  else keeps t a l

/-- The same word for every lane. -/
def gives (w : Word) (bits : Nat) : LaneGet := ⟨w, bits, false⟩

/-- The mask word of the lanes of l's 32-lane word that meet a condition (R212, R213). -/
def maskWord (lanes : List Nat) (l : Nat) (c : Nat → Bool) : Word :=
  wordOf ((lanes.filter (fun j => j / 32 == l / 32)).filter c)

/-- What cxch compares (R215): unsigned, signed, or FP32 with -0 below +0 and NaN above all. -/
def cxchLow (ty : Nat) (x y : Word) : Bool :=
  if ty = 0 then decide (x.toNat ≤ y.toNat) else if ty = 1 then decide (x.toInt ≤ y.toInt) else cxchLe ty x y

/-- cxch in one lane (R215). -/
def cxchGets (t : Team) (a : BitVec 5) (ty k j l : Nat) : LaneGet :=
  let q := l ^^^ 2 ^ j
  if t.hdr.lanes ≤ q then ⟨cxchCanon ty (slot t l a.toNat), cxchIv ty [slot t l a.toNat], false⟩
  else if t.active.getLsbD q then
    let lo := slot t (min l q) a.toNat
    let hi := slot t (max l q) a.toNat
    let small := if cxchLow ty lo hi then lo else hi
    let large := if cxchLow ty lo hi then hi else lo
    let ascending := l / 2 ^ k % 2 = 0
    ⟨cxchCanon ty (if (l < q ∧ ascending) ∨ (q < l ∧ ¬ ascending) then small else large), cxchIv ty [lo, hi], false⟩
  else ⟨cxchCanon ty (slot t l a.toNat), cxchIv ty [slot t l a.toNat], t.dead.getLsbD q⟩

/-- Shuffles, votes, masks and compare-exchange (R210 to R213, R215). -/
def crossRule : Instr → Option CrossRule
  | .shflIdx d a b g p => some ⟨p, [a.toNat, b.toNat], d, fun _ t _ l =>
      let ix := (slot t l b.toNat).toNat
      let w := 2 ^ g.toNat
      takes t a l (if g = 0 then ix else l - l % w + ix % w)⟩
  | .shflXor d a k => some ⟨0, [a.toNat], d, fun _ t _ l => takes t a l (l ^^^ k.toNat)⟩
  | .shflPrv d a k => some ⟨0, [a.toNat], d, fun _ t _ l => if l < k.toNat then keeps t a l else takes t a l (l - k.toNat)⟩
  | .shflNxt d a k => some ⟨0, [a.toNat], d, fun _ t _ l => takes t a l (l + k.toNat)⟩
  | .bcast d a k => some ⟨0, [a.toNat], d, fun _ t _ l => takes t a l k.toNat⟩
  | .voteAny d a p => some ⟨p, [a.toNat], d, fun _ t ls _ => gives (one (∃ j ∈ ls, (slot t j a.toNat).toNat % 2 = 1)) 0⟩
  | .voteAll d a p => some ⟨p, [a.toNat], d, fun _ t ls _ => gives (one (∀ j ∈ ls, (slot t j a.toNat).toNat % 2 = 1)) 0⟩
  | .ballot d a p => some ⟨p, [a.toNat], d, fun _ t ls l =>
      gives (maskWord ls l (fun j => (slot t j a.toNat).toNat % 2 == 1)) 0⟩
  | .matchLanes d a k p => some ⟨p, if k = 1 then [a.toNat, a.toNat + 1] else [a.toNat], d, fun _ t ls l =>
      gives (maskWord ls l (fun j => slot t j a.toNat == slot t l a.toNat &&
        (k != 1 || slot t j (a.toNat + 1) == slot t l (a.toNat + 1)))) 0⟩
  | .cxch d a y k j => some ⟨0, [a.toNat], d, fun _ t _ l => cxchGets t a y.toNat k.toNat j.toNat l⟩
  | _ => none

/-- Reductions and prefixes (R81, R214): the tree over all lanes of the team, and the prefix up to the lane. -/
def reductionRule : Instr → Option CrossRule
  | .redux d a op p => some ⟨p, [a.toNat], d, fun _ t ls _ =>
      let r := (treeOf op.toNat ((List.range t.hdr.lanes).map (fun l =>
        if ls.contains l then some (slot t l a.toNat, 0) else none))).getD (0, 0)
      gives r.1 r.2⟩
  | .scan d a op p => some ⟨p, [a.toNat], d, fun _ t ls l =>
      match ((ls.filter (fun j => decide (j ≤ l))).map (fun j => some (slot t j a.toNat, 0))).foldl
        (combOpt op.toNat) none with
      | some r => gives r.1 r.2
      | none => gives 0 0⟩
  | _ => none

/-- A table of cross-lane rules holds of the machine, in a team no register of which is poisoned, no lane of which owes a source
slot, and that has not written a part of the word: every source is read before any destination is written (R207, R208). -/
def CrossObeyed (rule : Instr → Option CrossRule) : Prop :=
  ∀ (i : Instr) (s : State) (t : Team) (r : CrossRule), rule i = some r →
    Accepted s t i (r.srcs ++ predSlot r.p ++ [r.d.toNat]) → (∀ l n, regPoisoned t l n = false) →
    (∀ n ∈ r.srcs ++ predSlot r.p, slotOwed s t n = false) → t.gather = none →
    ∃ s', exec i s = .next s' ∧
      Wrote s s' t (execLanes s t r.p) [r.d.toNat] (fun _ => True)
        (fun l => [(r.fn s t (execLanes s t r.p) l).word]) (fun l => (r.fn s t (execLanes s t r.p) l).bits)
        (fun l => (r.fn s t (execLanes s t r.p) l).drd)

/-- A cross-lane word that was stopped between its write passes writes what its lanes gathered, and reads nothing again (R208). -/
def Regathered (rule : Instr → Option CrossRule) : Prop :=
  ∀ (i : Instr) (s : State) (t : Team) (r : CrossRule) (gs : List Gain), rule i = some r →
    Accepted s t i (r.srcs ++ predSlot r.p ++ [r.d.toNat]) → t.gather = some gs → (gs.map Gain.lane).Nodup →
    ∃ s', exec i s = .next s' ∧
      Wrote s s' t ((gs.map Gain.lane).filter (fun l => (candidates t).getLsbD l)) [r.d.toNat] (fun _ => True)
        (fun l => ((gs.find? (fun g => g.lane == l)).map Gain.word).toList)
        (fun l => ((gs.find? (fun g => g.lane == l)).map Gain.flags).getD 0)
        (fun l => ((gs.find? (fun g => g.lane == l)).map Gain.drd).getD false)

/-! ### Control flow -/

/-- A branch target (R24, R278): the address of the next word plus four times the displacement. -/
def target (t : Team) (disp : BitVec 17) : Word :=
  t.pc + BitVec.ofNat 32 (4 * t.wix + 4) + BitVec.ofInt 32 (4 * disp.toInt)

/-- The code address of the word after the team's word. -/
def wordAfter (t : Team) : Word := t.pc + BitVec.ofNat 32 (4 * t.wix + 4)

/-- The readiness of a clause (R32). -/
def ready (t : Team) (w : BitVec 12) (a b : BitVec 4) : Prop :=
  (∀ k < 12, w.getLsbD k = true → flagOf t k = 0) ∧ (a ≠ 15 → flagOf t a.toNat ≤ 39) ∧ (b ≠ 15 → flagOf t b.toNat ≤ 39) ∧
    t.block = none ∧ t.trap = none

/-- The hints of the unit that the team has read, or a unit that starts at its word (R35). -/
def unitOf (t : Team) : Hints := t.hints.getD ⟨t.wix, false, none, 0, 0, none⟩

/-- An active lane for which a test of a slot holds, as a mask (R280). -/
def isTaken (t : Team) (c : Nat) (test : Word → Prop) (m : Mask) : Prop :=
  ∀ l < 1024, m.getLsbD l = true ↔ t.active.getLsbD l = true ∧ test (slot t l c)

/-- The active lanes read known, good values in a slot (R33, R97). -/
def goodSlot (s : State) (t : Team) (n : Nat) : Prop :=
  ∀ l ∈ lanesOf t.active, slotPoisoned t l n = false ∧ readsPending s t l [n] = false

/-- Entry e is the top of the stack and, in a handler, above its base (R340). -/
def onTop (t : Team) (e : StackEntry) (rest : List StackEntry) : Prop :=
  t.stack = e :: rest ∧ ∀ h, t.handler = some h → h.base ≤ rest.length

/-- The resume step stops at this entry (R277). -/
def runs (e : StackEntry) : Prop := (e.kind ≠ .call ∧ e.pmask ≠ 0) ∨ (e.kind = .recon ∧ e.rmask ≠ 0)

/-- The team after the resume step from t (R277), given what the stack then was: at the first entry that has lanes to run, its
deferred path or its reconvergence; without one, no lane is left. -/
def ResumedFrom (t t' : Team) : Prop :=
  (∃ pre e rest, t.stack = pre ++ e :: rest ∧ (∀ x ∈ pre, ¬ runs x) ∧
    ((e.kind ≠ .call ∧ e.pmask ≠ 0 ∧
        t' = { t.movedTo (e.ppc, 0) with stack := { e with pmask := 0 } :: rest, active := e.pmask }) ∨
      (e.kind = .recon ∧ e.pmask = 0 ∧ e.rmask ≠ 0 ∧
        t' = { t.movedTo (e.rpc, 0) with stack := rest, active := e.rmask }))) ∨
  ((∀ x ∈ t.stack, ¬ runs x) ∧ t' = { t.movedTo (t.pc, 0) with stack := [], active := 0 })

/-- A team without lanes m (R276). -/
def Team.without (t : Team) (m : Mask) : Team :=
  { t with
    live := t.live &&& ~~~m, active := t.active &&& ~~~m
    stack := t.stack.map (fun e => { e with rmask := e.rmask &&& ~~~m, pmask := e.pmask &&& ~~~m })
    resume := t.resume.map (fun r => r &&& ~~~m) }

/-- An entry without the lanes of b (R283). -/
def StackEntry.without (b : Mask) (e : StackEntry) : StackEntry :=
  { e with rmask := e.rmask &&& ~~~b, pmask := e.pmask &&& ~~~b }

/-- A context without its grids. -/
def noGrids (c : Context) : Context := { c with grids := [] }

/-- A grid without its roles of current team (R309). -/
def noRoles (g : Grid) : Grid := { g with roles := [] }

/-- The team has given up the role of current team of its grid on its core, if it had it; no other role has changed (R309). -/
def RoleGiven (s s' : State) (t : Team) : Prop :=
  ∀ g, findGrid s t.ctx t.grid = some g → ∃ g', findGrid s' t.ctx t.grid = some g' ∧
    g'.roles = g.roles.map (fun q => if q.core = t.core ∧ q.last = logicalIx t then { q with held := false } else q)

/-- What becomes of a role of current team (R309): one that is held stays, as does one while a team of the grid is saved on the core
(log entry 94, the model's choice); any other goes to the team there that is not blocked and comes next after the last holder in
ascending logical index, cyclically. -/
def RoleGoes (s : State) (ctx : Nat) (g : Grid) (q q' : Role) : Prop :=
  let here := fun (x : Team) => x ∈ s.teams ∧ x.ctx = ctx ∧ x.grid = g.num ∧ x.core = q.core
  let able := fun l => ∃ x, here x ∧ x.place = .resident ∧ x.block = none ∧ x.live ≠ 0 ∧ logicalIx x = l
  let before := fun l m => (q.last < l ∧ (m ≤ q.last ∨ l ≤ m)) ∨ (l ≤ q.last ∧ m ≤ q.last ∧ l ≤ m)
  (q.held = true ∨ (∃ x, here x ∧ x.place = .saved) → q' = q) ∧
    (q.held = false → (∀ x, here x → x.place ≠ .saved) →
      ((∀ l, ¬ able l) → q' = q) ∧
      ∀ l, able l → (∀ m, able m → before l m) → q' = { q with last := l, held := true })

/-! ### Traps -/

/-- Where the fault record and the trap frame of a team that takes a trap lie (R333, R339), in a state in which it may enter
its handler: no handler yet, a vector, a frame, room and mapped pages for one record, and a first word that can be
fetched. The record's place holds no entry by which the frame is found, no store of the team or its core waits, and none of the
team's commands is frozen. -/
structure MayEnter (s : State) (t : Team) (c : Context) (recPa va : Nat) (pas : List Nat) : Prop where
  inv : s.Inv
  ctx : findCtx s t.ctx = some c
  outside : t.handler = none
  stay : t.place = .resident
  vector : t.trapvec ≠ 0xFFFFFFFF
  first : ∃ x, fetchPa s t t.trapvec = .ok x
  frame : frameVa s t = some va
  pieces : framePas s t va = some pas
  room : (c.frqt - c.frqh).toNat + 1 ≤ 2 ^ (8 + c.frqb.toNat % 16)
  record : ∃ x, translate s t.root (frqVa c c.frqt.toNat) .write none = .ok x ∧ x.pa = recPa
  apart : ∀ bs : List Byte, bs.length = 64 → framePas (homeWrite s recPa bs) t va = some pas
  calm : t.block = none
  quiet : ∀ e ∈ s.stores, e.uid ≠ t.uid ∧ e.core ≠ t.core
  thawed : ∀ x ∈ teamIssues s t.uid, x.2 ≠ .frozen

/-- An address lies in a trap frame's pieces of 1 KiB. -/
def inFrame (pas : List Nat) (a : Nat) : Prop := ∃ p ∈ pas, p ≤ a ∧ a < p + 1024

/-- What taking a precise trap of one record leaves (R334, R337 to R339): the record appended at index TAIL, the team in its
handler at the vector with every live lane active, v0 to v3 in each live lane the record's index, its class and the frame's
address, slots bound to the registers of their number, and what the return needs saved. -/
structure Entered (s s' : State) (t : Team) (c : Context) (recPa va : Nat) (pas : List Nat) (r : Rec) : Prop where
  others : ∀ u, u ≠ t.uid → findTeam s' u = findTeam s u
  tail : ∃ c', findCtx s' t.ctx = some c' ∧ c' = { c with frqt := c.frqt + 1, frqh := c'.frqh }
  record : ∀ k < 64, ¬ inFrame pas (recPa + k) →
    homeByte s' (recPa + k) = (recBytes t r 0 1 (c.frqt.toNat % 2 ^ 32)).getD k 0
  bytes : ∀ a, ¬ inFrame pas a → ¬ (recPa ≤ a ∧ a < recPa + 64) → homeByte s' a = homeByte s a
  team : ∃ t' h, findTeam s' t.uid = some t' ∧
    t' = { t with
      pc := t.trapvec, wix := 0, hints := none, resume := none, gather := none, active := t.live, block := none, trap := none
      pass := none, begun := false, faulted := [], done := 0, handler := some h, icnt := t'.icnt, binds := t'.binds, regs := t'.regs
      regBad := t'.regBad, pend := t'.pend } ∧
    t'.pend.map Pend.plain = t.pend.map Pend.plain ∧
    (h.binds = t.binds ∧ h.base = t.stack.length ∧ h.rmask = t.active ∧ h.amask = t.active ∧ h.frameVa.toNat = va ∧
      h.hdrPc = t.pc ∧ h.wix = unitIx t ∧ h.clause = t.clause) ∧
    (∀ n < 32, slotReg t' n = if n < t.hdr.regs then some n else none) ∧
    (∀ l ∈ lanesOf t.live, reg t' l 0 = c.frqt ∧ reg t' l 1 = BitVec.ofNat 32 r.cls ∧
      reg t' l 2 = BitVec.ofNat 32 va ∧ reg t' l 3 = BitVec.ofNat 32 (va / 2 ^ 32)) ∧
    (∀ l n, n < 256 → ¬ (l ∈ lanesOf t.live ∧ n < 4) → reg t' l n = reg t l n)

/-- The record of a precise trap (R330, R334): the lowest group that holds an active lane, with its active lanes. -/
def preciseRec (t : Team) (cls : Nat) (addr aux : DWord) : Rec :=
  { cls := cls, grp := lowLane t.active / 128, pc := t.pc + BitVec.ofNat 32 (4 * t.wix)
    lmask := groupOf t.active (lowLane t.active / 128), addr := addr, aux := aux, dlv := false }

/-- The instruction words that are neither headers nor hints. -/
def isOperation (i : Instr) : Bool :=
  match i with
  | .clauseHeader .. | .ext _ | .mod .. | .sched .. => false
  | i => !isEvent i

/-- The reasons of a header's reserved values (R26, R45). -/
def headerCauses (a b : BitVec 4) (l : BitVec 5) (c : BitVec 2) : List Nat :=
  (if a ∈ [12, 13, 14] ∨ b ∈ [12, 13, 14] ∨ c = 3 then [0x0A] else []) ++ (if l = 0 ∨ 24 < l.toNat then [0x0B] else [])

/-- The reasons for which a header or hint word is malformed where it stands (R27, R35 to R38, R45): 0x06 reserved values, 0x07
an ext hint that no instruction follows, 0x08 a mod hint that none can follow, 0x09 the order of hints, 0x0C a header inside a
clause or a hint at a header's place. -/
def unitCauses (t : Team) : Instr → List Nat
  | .clauseHeader _ a b l c _ _ =>
      (if t.wix ≠ 0 ∧ (extOf t).isSome then [0x07] else []) ++ headerCauses a b l c ++ (if t.wix ≠ 0 then [0x0C] else [])
  | .ext _ =>
      (if (extOf t).isSome ∨ (t.wix ≠ 0 ∧ t.wix = t.clause.len) then [0x07] else []) ++ (if (extOf t).isSome then [0x09] else []) ++
        (if t.wix = 0 then [0x0C] else [])
  | .mod r z g c k o w =>
      (if (⟨r, z, g, c, k, o, w⟩ : Mods).reserved then [0x06] else []) ++ (if (extOf t).isSome then [0x07] else []) ++
        (if t.wix ≠ 0 ∧ t.wix = t.clause.len then [0x08] else []) ++ (if modPending t then [0x09] else []) ++
        (if t.wix = 0 then [0x0C] else [])
  | .sched _ _ c =>
      (if c = 3 then [0x06] else []) ++ (if (extOf t).isSome then [0x07] else []) ++ (if schedPending t then [0x09] else []) ++
        (if t.wix = 0 then [0x0C] else [])
  | _ => []

/-- A header or a sched hint, before which no mod hint may stand (R35, R37). -/
def endsMod : Instr → Bool
  | .clauseHeader .. | .sched .. => true
  | _ => false

/-- The words whose operand values may show a cause of ILLOP of reason 0x04 or 0x05 (R353, R246, R133). -/
def operandsMatter (i : Instr) : Bool :=
  match i with
  | .wrsrTrapvec _ | .scfg .. | .tfill .. => true
  | _ => false

/-! ### Special registers -/

/-- What rdsr reads in lane l (R351). -/
def srSays (s : State) (t : Team) (c : Context) (l : Nat) : List (Nat × Word) :=
  [(0x000, BitVec.ofNat 32 s.clk.toNat), (0x001, BitVec.ofNat 32 (s.clk.toNat / 2 ^ 32)), (0x002, (counted t).icnt),
   (0x010, (t.active >>> (l / 32 * 32)).setWidth 32), (0x011, (t.dead >>> (l / 32 * 32)).setWidth 32),
   (0x012, match t.handler with
     | some h => one (h.rmask.getLsbD l = true ∧ t.dead.getLsbD l = false)
     | none => 0),
   (0x013, one (sget false t.xdead l = true)), (0x020, (fpxOf t l).setWidth 32), (0x030, t.trapvec), (0x031, c.frqb),
   (0x032, c.frqh), (0x033, c.frqt), (0x040, t.hrev), (0x041, if t.leases = [] then 0 else 0x10000000),
   (0x050, t.root.rid.setWidth 32), (0x051, t.root.gen.setWidth 32),
   (0x060, one (t.hdr.repro = true) ||| (if bubbleMode s then 2 else 0)), (0x070, (coreOf s t.core).partword)]

/-- The binding of n slots from d on to as many registers from m on (R159). -/
def Rebound (t t' : Team) (d m n : Nat) : Prop :=
  t' = { t.movedTo (nextPlace t) with binds := t'.binds } ∧
    ∀ k < 32, slotReg t' k = if d ≤ k ∧ k < d + n then some (m + (k - d)) else slotReg t k

/-! ### Memory -/

/-- No store of the team or of its core is under way. -/
def NoStores (s : State) (t : Team) : Prop := ∀ e ∈ s.stores, e.uid ≠ t.uid ∧ e.core ≠ t.core

/-- The address of a lane's access of format M (R23, R25): the pair at a plus the offset scaled by the size. -/
def addrOf (t : Team) (l : Nat) (a : BitVec 5) (o : BitVec 9) (size : Nat) : DWord :=
  BitVec.ofInt 64 (pairNat (slot t l a.toNat) (slot t l (a.toNat + 1)) + o.toInt * size)

/-- Every lane's access of size bytes at va is aligned, translates to pa in the module's own memory, and meets no poison
(R104, R165, R262). -/
structure LanesHit (s : State) (t : Team) (lanes : List Nat) (k : AccKind) (va : Nat → DWord) (pa : Nat → Nat)
    (size : Nat) : Prop where
  aligned : ∀ l ∈ lanes, (va l).toNat % size = 0
  mapped : ∀ l ∈ lanes, ∃ x, translate s t.root (va l) k none = .ok x ∧ x.pa = pa l
  own : ∀ l ∈ lanes, isPeer (pa l) = false
  good : ∀ l ∈ lanes, hopOf s (pa l) size = 0

/-- No executing lane reads a pending destination or a poisoned register in these slots (R33, R97). -/
def CleanLanes (s : State) (t : Team) (p : BitVec 2) (srcs : List Nat) : Prop :=
  lostLanes s t p srcs = [] ∧ ∀ l ∈ execLanes s t p, readsPending s t l srcs = false

/-- The little-endian number in n bytes (R2). -/
def leNat (b : Nat → Byte) (n : Nat) : Nat := ((List.range n).map (fun j => (b j).toNat * 256 ^ j)).sum

/-- The words that a load of size code x makes of bytes (R23). -/
def loadedWords (x : Nat) (b : Nat → Byte) : List Word :=
  match x with
  | 0 => [BitVec.ofNat 32 (leNat b 1)]
  | 1 => [BitVec.ofInt 32 (BitVec.ofNat 8 (leNat b 1)).toInt]
  | 2 => [BitVec.ofNat 32 (leNat b 2)]
  | 3 => [BitVec.ofInt 32 (BitVec.ofNat 16 (leNat b 2)).toInt]
  | 4 => [BitVec.ofNat 32 (leNat b 4)]
  | 5 => [BitVec.ofNat 32 (leNat b 4), BitVec.ofNat 32 (leNat (fun j => b (j + 4)) 4)]
  | _ => (List.range 4).map (fun k => BitVec.ofNat 32 (leNat (fun j => b (j + 4 * k)) 4))

/-- Bytes of a size code (R23). -/
def bytesOfX (x : Nat) : Nat := if x < 2 then 1 else if x < 4 then 2 else if x = 4 then 4 else if x = 5 then 8 else 16

/-- Data slots of a size code (R23). -/
def slotsOfX (x : Nat) (d : BitVec 5) : List Nat :=
  if x = 5 then [d.toNat, d.toNat + 1] else if x = 6 then [d.toNat, d.toNat + 1, d.toNat + 2, d.toNat + 3] else [d.toNat]

/-- The keys of a lane's registers of slots. -/
def keysOf (t : Team) (l : Nat) (ns : List Nat) : List Nat := ns.filterMap (fun n => (slotReg t n).map (regKey l))

/-- The pending instructions of a team are those of l, but for the destinations that writes contest (R33) and for the loads whose
values its later accesses fix (R258). -/
def Owes (t : Team) (l : List Pend) : Prop := t.pend.map Pend.plain = l.map Pend.plain

/-- The team is t at its next word, and owes what t owes; beside that it is as t but for what f changes. -/
def WentTo (t t' : Team) (f : Team → Team) : Prop := t' = f { t.movedTo (nextPlace t) with pend := t'.pend } ∧ Owes t' t.pend

/-- A flag-counted instruction is accepted (R30, R31): the team is at its next word, its flag counts one more, and it owes
what p says. -/
def Accepts (s s' : State) (t : Team) (p : Pend) : Prop :=
  (∀ u, u ≠ t.uid → findTeam s' u = findTeam s u) ∧ (∀ a, homeByte s' a = homeByte s a) ∧ s'.stores = s.stores ∧
  ∃ t', findTeam s' t.uid = some t' ∧
    t' = { t.movedTo (nextPlace t) with pend := t'.pend, flags := t'.flags } ∧ Owes t' (t.pend ++ [p]) ∧
    (∀ k < 12, flagOf t' k = flagOf t k + if k = p.flag then 1 else 0)

/-- What a load of lanes that all hit owes (R165): each lane's registers, and the words that they will get as memory stands;
whether it reads at the home, and whether it is an acquire. -/
def loadPend (s : State) (t : Team) (home acq : Bool) (lanes : List Nat) (va : Nat → DWord) (dsts : List Nat)
    (ws : Nat → List Word) : Pend :=
  { seq := s.nextSeq, flag := t.clause.seta.toNat, wait := .data, dests := lanes.flatMap (fun l => keysOf t l dsts)
    writes := lanes.flatMap (fun l => (keysOf t l dsts).zip (ws l)), vas := lanes.map (fun l => (l, va l)), losses := []
    contested := [], pc := t.pc + BitVec.ofNat 32 (4 * t.wix), handler := t.handler.isSome, again := [], home := home
    acquires := acq }

/-- No lane of a load reads a word of the trap frame that an instruction from before the trap still owes (R341). -/
def NoOwedSave (s : State) (t : Team) (lanes : List Nat) (va : Nat → DWord) (n : Nat) : Prop :=
  ∀ l ∈ lanes, readsOwedSave s t (va l).toNat n = false

/-- The scope of an instruction whose default is d (R255). -/
def scopeIs (t : Team) (d : Nat) : Nat := if (modsOf t).scope = 0 then d else (modsOf t).scope.toNat

/-- Bytes of memory from an address on. -/
def memFrom (s : State) (pa : Nat) (j : Nat) : Byte := homeByte s (pa + j)

/-- An entry that the team puts into the store path: a mark, or bytes. The store of a release at .cr or wider is read by its core's
teams from then on (R255, R264). -/
def entryOf (s : State) (t : Team) (k : StoreKind) (i addr : Nat) (data : List Byte) : StoreEnt :=
  { seq := s.nextSeq + i, core := t.core, uid := t.uid, kind := k, addr := addr, data := data
    shown := match k with
      | .rel n => decide (2 ≤ n)
      | _ => false
    root := t.root, grp := 0 }

/-- The entries that a store puts at the end of the store path (R262): each lane's bytes at its address, in lane order. They may
together write a whole line: those of one instruction, or of one core's st.nt (R262, R267). -/
def storeEntries (s : State) (t : Team) (k : StoreKind) (lanes : List Nat) (pa : Nat → Nat) (data : Nat → List Byte) :
    List StoreEnt :=
  lanes.zipIdx.map (fun l =>
    { entryOf s t k l.2 (pa l.1) (data l.1) with grp := if k = .nt then 2 ^ 64 + t.core else s.nextSeq })

/-- The entries of the store path are those of l, of which some have now been shown to the teams of their core (R255). -/
def Shown (es l : List StoreEnt) : Prop := ∀ e ∈ es, ∃ f ∈ l, e = { f with shown := e.shown }

/-- The bytes that a store of size code x takes from words (R262): the low bytes, first word first. -/
def storedBytes (x : Nat) (ws : List Word) : List Byte :=
  (List.range (bytesOfX x)).map (fun j => BitVec.ofNat 8 ((ws.getD (j / 4) 0).toNat / 256 ^ (j % 4)))

/-- The team has issued stores, and nothing else changed but what its core's L1 holds of their lines. -/
def Stored (s s' : State) (t : Team) (es : List StoreEnt) : Prop :=
  (∀ u, u ≠ t.uid → findTeam s' u = findTeam s u) ∧ (∃ t', findTeam s' t.uid = some t' ∧ WentTo t t' id) ∧
  (∀ a, homeByte s' a = homeByte s a) ∧ s'.stores = s.stores ++ es ∧
  (∀ x ∈ s.l1, x.core ≠ t.core → x ∈ s'.l1)

/-- Two lanes' words of n bytes do not overlap. -/
def Apart (lanes : List Nat) (pa : Nat → Nat) (n : Nat) : Prop :=
  ∀ l ∈ lanes, ∀ m ∈ lanes, l ≠ m → pa l + n ≤ pa m ∨ pa m + n ≤ pa l

/-- The new value that an atomic of code op makes of the old value o and the operand v on n bytes (R270). -/
def atomNew (n op o v : Nat) : Nat :=
  let a := BitVec.ofNat (8 * n) o
  let b := BitVec.ofNat (8 * n) v
  match op with
  | 0 => (o + v) % 2 ^ (8 * n)
  | 1 => (a &&& b).toNat
  | 2 => (a ||| b).toNat
  | 3 => (a ^^^ b).toNat
  | 4 => if a.toInt ≤ b.toInt then a.toNat else b.toNat
  | 5 => if a.toNat ≤ b.toNat then a.toNat else b.toNat
  | 6 => if a.toInt ≤ b.toInt then b.toNat else a.toNat
  | 7 => if a.toNat ≤ b.toNat then b.toNat else a.toNat
  | 8 => b.toNat
  | _ => fadd32 o v

/-- The words of a value of n bytes. -/
def valueWords (n v : Nat) : List Word := if n = 8 then pairOf v else [BitVec.ofNat 32 v]

/-- A lane's operand of 4 or 8 bytes. -/
def operandOf (t : Team) (l : Nat) (b : BitVec 5) (n : Nat) : Nat :=
  if n = 8 then pairNat (slot t l b.toNat) (slot t l (b.toNat + 1)) else (slot t l b.toNat).toNat

/-- The address in a pair, without offset. -/
def pairAddr (t : Team) (l : Nat) (a : BitVec 5) : DWord :=
  BitVec.ofNat 64 (pairNat (slot t l a.toNat) (slot t l (a.toNat + 1)))

/-- Bytes per operand of a 32-bit or, with WID, 64-bit atomic (R270). -/
def atomBytes (m : Mods) : Nat := if m.wid = 4 then 8 else 4

/-- Slots of an operand of an atomic. -/
def atomSlots (m : Mods) (b : BitVec 5) : List Nat := if m.wid = 4 then [b.toNat, b.toNat + 1] else [b.toNat]

/-- Each lane's word of n bytes at the home has its new value, and every other byte is as it was. -/
def NewValues (s s' : State) (lanes : List Nat) (pa : Nat → Nat) (n : Nat) (new : Nat → Nat → Nat) : Prop :=
  (∀ l ∈ lanes, leNat (memFrom s' (pa l)) n = new l (leNat (memFrom s (pa l)) n)) ∧
  (∀ a, (∀ l ∈ lanes, ¬ (pa l ≤ a ∧ a < pa l + n)) → homeByte s' a = homeByte s a)

/-- An atomic at the home is accepted (R271): each lane is owed the old value of its word, and memory holds the new values at
once. -/
def AtomDone (s s' : State) (t : Team) (lanes : List Nat) (va : Nat → DWord) (pa : Nat → Nat) (n : Nat) (dsts : List Nat)
    (new : Nat → Nat → Nat) : Prop :=
  (∀ u, u ≠ t.uid → findTeam s' u = findTeam s u) ∧
  (∃ t', findTeam s' t.uid = some t' ∧ t' = { t.movedTo (nextPlace t) with pend := t'.pend, flags := t'.flags } ∧
    Owes t' (t.pend ++ [loadPend s t true ((modsOf t).ord.getLsbD 0) lanes va dsts
      (fun l => valueWords n (leNat (memFrom s (pa l)) n))]) ∧
    (∀ k < 12, flagOf t' k = flagOf t k + if k = t.clause.seta.toNat then 1 else 0)) ∧
  NewValues s s' lanes pa n new

/-! ### Synchronisation -/

/-- A team of t's cluster that has not ended. -/
def inCluster (t x : Team) : Prop := x.ctx = t.ctx ∧ x.grid = t.grid ∧ x.clus = t.clus ∧ x.place ≠ .ended

/-- A team of t's grid that has not ended. -/
def inGrid (t x : Team) : Prop := x.ctx = t.ctx ∧ x.grid = t.grid ∧ x.place ≠ .ended

/-- The team has counted its word, and waits at it; it owes what it owed. -/
def Blocks (s' : State) (t : Team) (b : Block) : Prop :=
  ∃ t', findTeam s' t.uid = some t' ∧ t' = { t with icnt := (counted t).icnt, block := some b, pend := t'.pend } ∧ Owes t' t.pend

/-- A team that leaves a barrier: it is behind its clause. -/
def leaves (x : Team) : Team := { x.movedTo (nextPlace x) with icnt := x.icnt, block := none }

/-- The words of the page that a lane's ldx decodes (R100, R116): the number of its first element, its bytes, and what they
decode to. -/
def elemNo (va : DWord) (x : Xlat) : Nat := va.toNat % 65536 * 2 / halfBytes x.fmt

/-- The code of element j of eight (R68, R116). -/
def elemAt (s : State) (x : Xlat) (j : Nat) : Nat :=
  if x.fmt < 4 then (homeByte s (x.pa + j)).toNat
  else (homeByte s (x.pa + j / 2)).toNat / (if j % 2 = 0 then 1 else 16) % 16

/-- The four words of eight elements: two BF16 values each, the lower element in the lower half (R166). -/
def decodedWords (s : State) (x : Xlat) (scale : Nat) : List Word :=
  (List.range 4).map (fun w =>
    BitVec.ofNat 32 (bf16Elem x.fmt (elemAt s x (2 * w)) scale + 2 ^ 16 * bf16Elem x.fmt (elemAt s x (2 * w + 1)) scale))

/-- Both copies of the scales of an element are good and equal, and give this scale (R116, R117). -/
def scaleIs (s : State) (x : Xlat) (n sc : Nat) : Prop :=
  ∃ b, (∀ k ∈ (if x.fmt = 5 then [n / 64, 2048 + 4 * (n / 16384)] else [n / 32]),
      lineHop s ((x.side + k) / 64) = 0 ∧ lineHop s ((x.side + 4096 + k) / 64) = 0 ∧
      ∀ i < 64, homeByte s ((x.side + k) / 64 * 64 + i) = homeByte s ((x.side + 4096 + k) / 64 * 64 + i)) ∧
    b = (homeByte s (x.side + if x.fmt = 5 then n / 64 else n / 32)).toNat ∧
    sc = if x.fmt = 5 then q4nScale b (leNat (fun j => homeByte s (x.side + 2048 + 4 * (n / 16384) + j)) 4) else b

/-- The wait's condition on the word x and the comparand v (R317). -/
def condHolds (k : Nat) (x v : Word) : Prop :=
  match k with
  | 0 => x.toNat = v.toNat
  | 1 => x.toNat ≠ v.toNat
  | 2 => v.toNat ≤ x.toNat
  | 3 => x.toNat < v.toNat
  | 4 => v.toInt ≤ x.toInt
  | _ => x.toInt < v.toInt

/-- Registers of active lanes written with one word, others unchanged. -/
def OneWord (t t' : Team) (r : Nat) (w : Word) : Prop :=
  (∀ l ∈ lanesOf t.active, reg t' l r = w ∧ regPoisoned t' l r = false) ∧
  ∀ l q, q < 256 → ¬ (l ∈ lanesOf t.active ∧ q = r) → reg t' l q = reg t l q ∧ regPoisoned t' l q = regPoisoned t l q

/-- A word of memory that a team may read now (R104): aligned, mapped, its own module's, not poisoned, and no SAVE word that is
still owed to a register (R341). -/
def wordHere (s : State) (t : Team) (va : DWord) (w : Word) : Prop :=
  va.toNat % 4 = 0 ∧ readsOwedSave s t va.toNat 4 = false ∧ ∃ x, translate s t.root va .read none = .ok x ∧ isPeer x.pa = false ∧ hopOf s x.pa 4 = 0 ∧
    w.toNat = leNat (memFrom s x.pa) 4

/-- No team waits for a mesh reduction. -/
def NoTrees (s : State) : Prop := ∀ x ∈ s.teams, ∀ p ∈ x.pend, ∀ ch k ds, p.wait ≠ .tree ch k ds

/-- R319: the parent of node n in a cluster w wide: row trees run west and then north, column trees north and then west. -/
def parentOf (w : Nat) (col : Bool) (n : Nat) : Nat :=
  if col then (if n < w then n - 1 else n - w) else (if n % w = 0 then n - w else n - 1)

/-! ### Blocks, queues and engines -/

/-- n bytes of the team's own scratchpad at a scratch address whose cluster field says "own" (R139), aligned, in range, not
poisoned. -/
def OwnBlockAt (t : Team) (w : Word) (align n : Nat) (bs : List Byte) : Prop :=
  w.toNat / 2 ^ 24 = 16 ∧ w.toNat % align = 0 ∧
    (w.toNat % 2 ^ 24 + n ≤ t.hdr.scrAlloc ∨ w.toNat % 2 ^ 24 + n ≤ 4096 * t.leases.length) ∧
    (∀ i < n, sget false t.scrBad ((w.toNat % 2 ^ 24 + i) / 4) = false) ∧
    bs = (List.range n).map (fun i => sget 0 t.scr (w.toNat % 2 ^ 24 + i))

/-- Such a block, aligned to its size. -/
def OwnBlock (t : Team) (w : Word) (n : Nat) (bs : List Byte) : Prop := OwnBlockAt t w n n bs

/-- A little-endian field of a block. -/
def fieldAt (bs : List Byte) (o n : Nat) : Nat := leNat (fun j => bs.getD (o + j) 0) n

/-- A launch descriptor that is well formed (R298). -/
def LaunchFine (bs : List Byte) : Prop :=
  fieldAt bs 0 8 % 32 = 0 ∧ fieldAt bs 8 8 % 4096 = 0 ∧ fieldAt bs 16 8 % 8 = 0 ∧ fieldAt bs 36 4 < 2 ^ 17 ∧
    fieldAt bs 48 8 % 4 = 0 ∧ fieldAt bs 56 8 = 0 ∧
    (if fieldAt bs 36 4 < 2 ^ 16 then fieldAt bs 24 4 ≠ 0 ∧ fieldAt bs 28 4 ≠ 0 ∧ fieldAt bs 32 4 ≠ 0 ∧ fieldAt bs 40 8 = 0
     else fieldAt bs 24 4 = 0 ∧ fieldAt bs 28 4 = 0 ∧ fieldAt bs 32 4 = 0 ∧ fieldAt bs 40 8 % 4 = 0)

/-- A word of the team wrote one word in its active lanes; beside that and the store path nothing but caches changed. -/
def WroteAll (s s' : State) (t : Team) (r : Nat) (w : Word) : Prop :=
  (∀ u, u ≠ t.uid → findTeam s' u = findTeam s u) ∧ (∀ a, homeByte s' a = homeByte s a) ∧
  ∃ t', findTeam s' t.uid = some t' ∧
    WentTo t t' (fun x => { x with regs := t'.regs, regBad := t'.regBad }) ∧ OneWord t t' r w

/-- No team waits at a queue, nor did when a trap took it. -/
def NoQueueWaits (s : State) : Prop :=
  ∀ x ∈ s.teams, ∀ b, x.block = some b ∨ (∃ h, x.handler = some h ∧ h.block = some b) →
    (∀ o q h n, b ≠ .qsend o q h n) ∧ ∀ q ds l f n, b ≠ .qrecv q ds l f n

/-- A lane reads a known, good value in each of some slots (R33, R97). -/
def knownIn (s : State) (t : Team) (l : Nat) (ns : List Nat) : Prop :=
  ∀ n ∈ ns, slotPoisoned t l n = false ∧ readsPending s t l [n] = false

/-- The active lanes that a predicate selects (R21). -/
def picked (t : Team) (p : BitVec 2) : List Nat :=
  (lanesOf t.active).filter (fun l =>
    if p = 0 then true
    else if p = 3 then (slot t l 30).getLsbD 0
    else (slot t l 31).getLsbD 0 == (p == 1))

/-- Lane l is the lowest active lane that the predicate selects. -/
def Leads (t : Team) (p : BitVec 2) (l : Nat) : Prop := l ∈ picked t p ∧ ∀ j ∈ picked t p, l ≤ j

/-- The flag that an E-format word counts on (R31). -/
def flagFor (t : Team) (f : BitVec 2) : Option Nat :=
  if f = 1 then some t.clause.seta.toNat else if f = 2 then some t.clause.setb.toNat else none

/-- The issue data of a command (R106, R127, R130). -/
def IssuedBy (s : State) (t : Team) (f : Option Nat) (i : Issue) : Prop :=
  i.uid = t.uid ∧ i.core = t.core ∧ i.pc = t.pc + BitVec.ofNat 32 (4 * t.wix) ∧ i.word = t.ir ∧ i.flag = f ∧ i.root = t.root ∧
    i.bound = s.nextSeq ∧ i.record = none ∧ i.grp = lowLane t.active / 128 ∧
    i.lmask = groupOf t.active (lowLane t.active / 128)

/-- The team has posted a command that counts on flag f and gone on; the rest of the machine is as it was but for the queue. -/
def WentOn (s s' : State) (t : Team) (f : Option Nat) : Prop :=
  (∀ u, u ≠ t.uid → findTeam s' u = findTeam s u) ∧ (∀ a, homeByte s' a = homeByte s a) ∧ s'.stores = s.stores ∧
  ∃ t', findTeam s' t.uid = some t' ∧
    WentTo t t' (fun x => { x with flags := t'.flags, pairCount := t'.pairCount }) ∧
    ∀ k < 12, flagOf t' k = flagOf t k + if f = some k then 1 else 0

/-- The descriptor of a copy command as the command keeps it (R121, R122). -/
def CopyFields (bs : List Byte) (c : CopyCmd) : Prop :=
  c.src.toNat = fieldAt bs 0 8 ∧ c.dst.toNat = fieldAt bs 8 8 ∧ c.ctl.toNat = fieldAt bs 16 4 ∧ c.xlst.toNat = fieldAt bs 24 8 ∧
    c.dims = (List.range (c.ctl.toNat / 2 ^ 24 % 8 + 1)).map (fun k =>
      (fieldAt bs (32 + 12 * k) 4, (BitVec.ofNat 32 (fieldAt bs (36 + 12 * k) 4)).toInt,
        (BitVec.ofNat 32 (fieldAt bs (40 + 12 * k) 4)).toInt)) ∧
    c.n = 0

/-- The copy queue of a core that CTL's QSEL names. -/
def queueOf (s : State) (core : Nat) (c : CopyCmd) : List CopyCmd := copyQ (coreOf s core) (c.ctl.getLsbD 31)

/-- A copy command of kind k stands at the end of its queue, waiting. -/
def CopyPosted (s s' : State) (t : Team) (f : Option Nat) (kind : CopyKind) (bs : List Byte) : Prop :=
  ∃ c, IssuedBy s t f c.iss ∧ c.kind = kind ∧ CopyFields bs c ∧ c.stage = .waiting ∧
    queueOf s' t.core c = queueOf s t.core c ++ [c]

/-- Neither copy queue of the core is full, and none of the team's commands is frozen (R118, R119). -/
def CopyRoom (s : State) (t : Team) : Prop :=
  ∀ q, copyUsed s (copyQ (coreOf s t.core) q) < 32 ∧ ∀ x ∈ copyQ (coreOf s t.core) q, x.iss.uid = t.uid → x.stage ≠ .frozen

/-- A matrix or sieve command stands at the end of its core's queue. -/
def MatPosted (s s' : State) (t : Team) (f : Option Nat) (op : MatOp) : Prop :=
  ∃ (c : MatCmd), IssuedBy s t f c.iss ∧ c.op = op ∧ c.stage = .waiting ∧ c.n = 0 ∧
    (coreOf s' t.core).plain.mat = (coreOf s t.core).plain.mat ++ [{ c with taint := [], gone := [] }]

/-- The registers of n slots. -/
def regsAt (t : Team) (a : BitVec 5) (n : Nat) : List Nat := (seqFrom a.toNat n).filterMap (slotReg t)

/-- The value of a slot, or of a pair, in the lowest active lane. -/
def leadWord (t : Team) (n : BitVec 5) : Word := slot t (lowLane t.active) n.toNat
def leadPair (t : Team) (n : BitVec 5) : DWord := pairAddr t (lowLane t.active) n

/-- The base operand of wload and mdrain: a scratch address, or a pair. -/
def leadBase (t : Team) (a : BitVec 5) (q : BitVec 1) : DWord :=
  if q = 1 then (leadWord t a).setWidth 64 else leadPair t a

/-- Slots of that base. -/
def baseAt (a : BitVec 5) (q : BitVec 1) : List Nat := if q = 1 then [a.toNat] else [a.toNat, a.toNat + 1]

/-- The slots that an instruction word reads and writes (R158), beside those of the tables of lanes. -/
def otherSlots (m : Mods) : Instr → List Nat × List Nat
  | .bcNz c _ | .bcZ c _ | .tcopyY c _ => ([c.toNat], [])
  | .call c _ => ([], [c.toNat])
  | .ret a | .jmpi a | .trap a _ | .bindx _ a _ | .wrsrFpx a | .wrsrXdead a | .wrsrTrapvec a => ([a.toNat], [])
  | .tcopy a _ | .mscale a _ _ => ([a.toNat], [])
  | .wait d a b _ _ => ([a.toNat, a.toNat + 1, b.toNat], [d.toNat])
  | .launch d a | .lease d a _ => ([a.toNat], [d.toNat])
  | .fwcall d a _ => ([a.toNat], [d.toNat, d.toNat + 1])
  | .rdsr d _ | .tquery d _ => ([], [d.toNat])
  | .mred a b _ _ | .tcopyx a b _ | .tfill a b _ | .mmas a b _ _ _ _ => ([a.toNat, b.toNat], [])
  | .mredw d _ => ([], slotsOfX 6 d)
  | .ld d a x _ => ([a.toNat, a.toNat + 1], slotsOfX x.toNat d)
  | .ldAcq d a x _ | .ldAcqp d a x _ => ([a.toNat, a.toNat + 1], slotsOfX (4 + x.toNat) d)
  | .ldx d a _ => ([a.toNat, a.toNat + 1], slotsOfX 6 d)
  | .pref a _ => ([a.toNat, a.toNat + 1], [])
  | .st d a x _ | .stNt d a x _ => ([a.toNat, a.toNat + 1] ++ slotsOfX x.toNat d, [])
  | .stRel d a x _ => ([a.toNat, a.toNat + 1] ++ slotsOfX (4 + x.toNat) d, [])
  | .atom d a b _ p => ([a.toNat, a.toNat + 1] ++ atomSlots m b ++ predSlot p, atomSlots m d)
  | .red a b _ p => ([a.toNat, a.toNat + 1] ++ atomSlots m b ++ predSlot p, [])
  | .cas d a b c p => ([a.toNat, a.toNat + 1] ++ atomSlots m b ++ atomSlots m c ++ predSlot p, atomSlots m d)
  | .lds d a x _ => ([a.toNat], slotsOfX x.toNat d)
  | .sts d a x _ => ([a.toNat] ++ slotsOfX x.toNat d, [])
  | .atoms d a b k p => ([a.toNat, b.toNat] ++ (if k = 9 then [b.toNat + 1] else []) ++ predSlot p, [d.toNat])
  | .qinit a b p => ([a.toNat, b.toNat] ++ predSlot p, [])
  | .qsend a b p => ([a.toNat, b.toNat, b.toNat + 1] ++ predSlot p, [])
  | .qrecv d a p => ([a.toNat] ++ predSlot p, [d.toNat, d.toNat + 1])
  | .qtry d a p => ([a.toNat] ++ predSlot p, slotsOfX 6 d)
  | .wload a b _ _ q => (baseAt a q ++ [b.toNat], [])
  | .mma a b _ _ k _ => (seqFrom a.toNat 16 ++ (if 5 ≤ k.toNat ∧ k.toNat ≤ 8 then [b.toNat] else []), [])
  | .mdrain a b _ _ _ q => (baseAt a q ++ [b.toNat, b.toNat + 1], [])
  | .mread d _ _ => ([], seqFrom d.toNat 8)
  | .scfg a b _ => ([a.toNat, b.toNat, b.toNat + 1], [])
  | .sieve a b _ => ([a.toNat], [b.toNat])
  | .mmak a b _ _ k => ([a.toNat, b.toNat, k.toNat], [b.toNat, b.toNat + 1])
  | _ => ([], [])

/-- The slots that an instruction word reads, its predicate's among them, and writes. -/
def slotsOf (m : Mods) (i : Instr) : List Nat × List Nat :=
  match (arithRule m i <|> bitRule m i <|> wideRule m i <|> floatRule m i <|> packedRule m i), (crossRule i <|> reductionRule i) with
  | some r, _ => (r.srcs ++ predSlot r.p, r.dsts)
  | none, some r => (r.srcs ++ predSlot r.p, [r.d.toNat])
  | none, none => otherSlots m i

/-- The words whose own rule may name a cause of ILLOP in what they find (R125, R226, R246, R248, R285, R320, R322, R353, R393). -/
def ownCauses : Instr → Bool
  | .ret _ | .wrsrTrapvec _ | .lease .. | .tcopy .. | .tcopyY .. | .tcopyx .. | .tfill .. | .mred .. | .mredw .. | .wload ..
  | .mma .. | .mmas .. | .mscale .. | .mdrain .. | .mread .. | .scfg .. | .sieve .. | .mmak .. => true
  | _ => false

/-- An s8 element. -/
def s8 (b : Nat) : Int := (BitVec.ofNat 8 b).toInt

/-- A lane's A elements of an s8 row: element k is byte k of the 16 registers (R224). -/
def s8Row (t : Team) (regs : List Nat) (l k : Nat) : Int := s8 ((reg t l (regs.getD (k / 4) 0)).toNat / 256 ^ (k % 4) % 256)

/-- An element of the accumulator (R221). -/
def accAt (t : Team) (tile row col : Nat) : Word := sget 0 t.tiles ((tile * 128 + row) * 32 + col)

/-- A command at the front of its core's queue that runs alone from its first unit, of a team without poison in its planes and
tiles (R219, R229). -/
structure MatRuns (s : State) (core : Nat) (c : MatCmd) (t : Team) : Prop where
  front : matFront s core = some c
  goes : s.bubble = none
  running : c.stage = .running
  alone : c.pair = none ∧ c.posted = none
  first : c.n = 0
  team : findTeam s c.iss.uid = some t
  sound : c.taint = [] ∧ t.tileBad = [] ∧ t.plane.bad = [] ∧ t.regBad = []

/-- A completed command (R30, R230): its entry is free, its flag is decremented; beside what p says nothing of the team changed. -/
def MatDone (s s' : State) (core : Nat) (c : MatCmd) (t : Team) (p : Team → Prop) : Prop :=
  (∀ u, u ≠ t.uid → findTeam s' u = findTeam s u) ∧ (∀ a, homeByte s' a = homeByte s a) ∧
  (coreOf s' core).mat = (coreOf s core).mat.filter (fun x => x.iss.seq != c.iss.seq) ∧
  ∃ t', findTeam s' t.uid = some t' ∧ p t' ∧ ∀ k < 12, flagOf t' k = flagOf t k - if c.iss.flag = some k then 1 else 0

/-- A copy command frozen by a fault at its first unit (R127): it has begun no sector, and the journal has come to j. A matrix
command frozen at unit n (R227). -/
def frozenCopy (c : CopyCmd) (j : Nat) (r : Rec) : CopyCmd :=
  { c with stage := .frozen, n := 0, iss := { c.iss with undo := [], undoBad := [], stood := j, record := some r } }
def frozenMat (c : MatCmd) (n : Nat) (r : Rec) : MatCmd :=
  { c with stage := .frozen, n := n, posted := none, iss := { c.iss with record := some r } }

/-- The record of a frozen command (R127): it waits for its delivery. -/
def frozenRec (i : Issue) (cls : Nat) (addr aux : DWord) : Rec :=
  { cls := cls, grp := i.grp, pc := i.pc, lmask := i.lmask, addr := addr, aux := aux, dlv := true }

/-- The queue with one command replaced. -/
def replaced (l : List MatCmd) (c c' : MatCmd) : List MatCmd := l.map (fun x => if x.iss.seq = c.iss.seq then c' else x)

/-! ### The module -/

/-- The record of the next index lies at recPa (R333, R336): there is room for one record, and its page is mapped. -/
structure RecordPlace (s : State) (t : Team) (c : Context) (recPa : Nat) : Prop where
  ctx : findCtx s t.ctx = some c
  room : (c.frqt - c.frqh).toNat + 1 ≤ 2 ^ (8 + c.frqb.toNat % 16)
  record : ∃ x, translate s t.root (frqVa c c.frqt.toNat) .write none = .ok x ∧ x.pa = recPa
  quiet : ∀ e ∈ s.stores, e.uid ≠ t.uid ∧ e.core ≠ t.core
  lines : s.Inv

/-- Nothing changed but the contexts, and of them only what f maps. -/
def OnlyCtx (s s' : State) (n : Nat) (c' : Context) : Prop :=
  s' = { s with contexts := s'.contexts } ∧ findCtx s' n = some c' ∧ ∀ m, m ≠ n → findCtx s' m = findCtx s m

/-- The team has no command with an engine, and no store, value or call is under way. -/
structure Still (s : State) (t : Team) : Prop where
  known : findTeam s t.uid = some t
  stores : NoStores s t
  commands : teamIssues s t.uid = [] ∧ (∀ x ∈ (coreOf s t.core).copy0 ++ (coreOf s t.core).copy1, x.iss.uid ≠ t.uid) ∧
    ∀ x ∈ (coreOf s t.core).mat, x.iss.uid ≠ t.uid
  loads : t.pend = []
  plain : t.trap = none ∧ t.block = none ∧ t.hold = none ∧ t.handler = none

/-- C := min(C + B, B), with B halved while the die is throttled (R311, R375). -/
def refilled (d : Die) : Die :=
  let b : Int := if d.throttled then d.cap / 2 else d.cap
  { d with tokens := if d.tokens + b ≤ b then d.tokens + b else b }

/-- No team of the cluster or of the grid has arrived at a barrier. -/
def NoArrivals (s : State) (t : Team) (k : Cluster) (g : Grid) : Prop := (∀ i, (findBar k i).arrived = []) ∧ g.gbarIn = [] ∧
  findCluster s t.ctx t.grid t.clus = some k ∧ findGrid s t.ctx t.grid = some g

/-! ### Firmware, peers and the module -/

/-- The module has power and has booted, and the request's stream has not failed (R356, R372). -/
def Listens (s : State) (r : Req) : Prop :=
  s.powered = true ∧ s.booted = true ∧ ∀ x, findStream s r.strm = some x → x.failed = false

/-- A response frame of a request stands on its stream (R355). -/
def Sent (s' : State) (r : Req) (cmd st : Nat) (p : List Byte) : Prop :=
  ∃ x f n, findStream s' r.strm = some x ∧ (f, n) ∈ x.unacked ∧ f.type = 2 ∧ f.tag = r.tag ∧ f.cmd.toNat = cmd ∧ f.stat.toNat = st ∧
    f.payload = p

/-- One response was sent. -/
def Responded (s s' : State) (r : Req) (cmd st : Nat) (p : List Byte) : Prop :=
  s'.responses = s.responses ++ [⟨r.strm, r.tag, cmd, st, p⟩] ∧ Sent s' r cmd st p

/-- The machine is s with one response sent, and nothing else has changed. -/
def Answered (s s' : State) (r : Req) (cmd st : Nat) (p : List Byte) : Prop :=
  s' = { s with streams := s'.streams, responses := s'.responses } ∧ Responded s s' r cmd st p

/-- The commands of R357 with their codes, but QUERY and ATTEST. -/
def laterCommands : List ((Req → Instr) × Nat) :=
  [(.hostReset, 0x03), (.peerAdd, 0x04), (.powerCap, 0x05), (.ctxCreate, 0x10), (.ctxDestroy, 0x11), (.partSet, 0x12),
   (.harvestGrant, 0x13), (.decodeLoad, 0x14), (.memAlloc, 0x20), (.hostMap, 0x21), (.unmap, 0x22), (.remap, 0x23),
   (.snapshot, 0x24), (.fork, 0x25), (.hostWrite, 0x26), (.hostRead, 0x27), (.hostLaunch, 0x30), (.gridWait, 0x31),
   (.suspend, 0x32), (.resume, 0x33), (.checkpoint, 0x40), (.restore, 0x41)]

/-- Bit i of a bit map at an offset of a payload, least significant bit of the first byte first. -/
def bitAt (p : List Byte) (o i : Nat) : Bool := (p.getD (o + i / 8) 0).getLsbD (i % 8)

/-- The request names context c, which is not under destruction, at offset 0 of a payload of n bytes. -/
def Names (s : State) (r : Req) (n : Nat) (c : Context) : Prop :=
  s.recovery = false ∧ r.payload.length = n ∧ findCtx s (fieldAt r.payload 0 4) = some c ∧ c.dying = false

/-- The context is now c', every other as before, and beside the contexts nothing but the response has changed. -/
def CtxAnswered (s s' : State) (r : Req) (cmd : Nat) (n : Nat) (c' : Context) : Prop :=
  ∃ s1, OnlyCtx s s1 n c' ∧ Answered s1 s' r cmd 0 []

/-- ATTR of the block of a map command sets no reserved bit and no reserved value (R357, R359). -/
def AttrFine (r : Req) : Prop :=
  let a := fieldAt r.payload 16 4
  a < 3 * 2 ^ 16 ∧ a / 2 ^ 12 % 16 ≤ 5 ∧ a / 2 ^ 10 % 4 ≠ 3 ∧ a / 2 ^ 9 % 2 = 0 ∧ a % 64 = 0

/-- The map commands with their codes. -/
def mapCommands : List ((Req → Instr) × Nat) := [(.hostMap, 0x21), (.unmap, 0x22), (.remap, 0x23)]

/-- The root of the context was replaced by one of the next GEN under a RID that was not in use; the old one is retired (R103,
R108, R110). No team was moved. -/
def Published (s s' : State) (c : Context) : Prop :=
  s'.teams = s.teams ∧ s'.stores = s.stores ∧
  (∃ c', findCtx s' c.id = some c' ∧ c' = { c with current := c'.current } ∧ c'.current.gen = c.current.gen + 1 ∧
    c'.current.rid.toNat ∉ usedRids s ∧ ∃ x ∈ s'.roots, x.desc = c'.current ∧ x.lineage = c.lineage ∧ x.life = .current) ∧
  ∀ x ∈ s.roots, x.desc.rid = c.current.rid → x.lineage = c.lineage →
    ∃ y ∈ s'.roots, y.desc = x.desc ∧ y.lineage = x.lineage ∧ y.life = .retired

/-! ### The map family -/

/-- The 64-byte block of a map command (R359): VA, NPG, and TIER, FMT, SIZE and the bytes of a page from ATTR. -/
def mapVa (r : Req) : Nat := fieldAt r.payload 4 8
def mapNpg (r : Req) : Nat := fieldAt r.payload 12 4
def mapTier (r : Req) : Nat := fieldAt r.payload 16 4 / 2 ^ 10 % 4
def mapFmt (r : Req) : Nat := fieldAt r.payload 16 4 / 2 ^ 12 % 16
def mapLv (r : Req) : Nat := fieldAt r.payload 16 4 / 2 ^ 16
def mapBytes (r : Req) : Nat := 2 ^ (16 + 8 * mapLv r)

/-- The block is one that R359 does not refuse: nothing reserved is set, its entry is not malformed (R101), and its range starts at
a page and ends below 2^48. -/
def MapBlockFine (r : Req) : Prop :=
  fieldAt r.payload 36 32 = 0 ∧ 1 ≤ mapNpg r ∧ mapNpg r ≤ 65536 ∧ AttrFine r ∧
  (mapFmt r = 0 ∨ mapLv r = 0 ∧ fieldAt r.payload 16 4 / 2 ^ 8 % 2 = 0) ∧ mapVa r % mapBytes r = 0 ∧
  mapVa r + mapNpg r * mapBytes r ≤ 2 ^ 48

/-- Whatever the free values, frames can be found one after the other (R108): for each pair a page of a tier and size, or, where the
pair says 3, a frame of the strong region. -/
def Room (s : State) : List (Nat × Nat) → List (Nat × Nat) → Prop
  | _, [] => True
  | taken, x :: rest => ∀ f, ∃ pa, (if x.1 = 3 then chooseStrong { s with fresh := f } taken x.2
      else choosePage { s with fresh := f } taken x.1 x.2) = some pa ∧ Room s ((pa, x.2) :: taken) rest

/-- The frames of a command's new pages, each with a side frame on a format page (R116, R359). -/
def pageRoom (n tier size fmt : Nat) : List (Nat × Nat) :=
  (List.range n).flatMap (fun _ => (tier, size) :: if fmt = 0 then [] else [(3, 8192)])

/-- As many nodes as n pages can take: a path for each, and a new top for each level that rises (R108, R383). -/
def nodeRoom (n : Nat) : List (Nat × Nat) := List.replicate (4 * n + 4) (3, 4096)

/-- Firmware may publish for a context: R103 allows its next GEN, a RID is free, and there is room for the frames. -/
def MayPublish (s : State) (c : Context) (room : List (Nat × Nat)) : Prop :=
  (∀ x ∈ s.roots, x.lineage = c.lineage → (c.current.gen + 1 - x.desc.gen).toNat < 2 ^ 15) ∧
  (∀ f, (chooseRid { s with fresh := f }).isSome = true) ∧ Room s [] room

/-- The tree of a context as firmware keeps one, in a module whose manifest R89 allows: its nodes are frames in use, and every walk
of it ends at an absent entry or at a leaf (R104). -/
def TreeKept (s : State) (c : Context) : Prop :=
  s.Inv ∧ regionOk s.manifest = true ∧ c.minl ≤ 3 ∧ c.current.lvl ≤ 3 ∧
  (∀ n ∈ rootNodes s c.current, ∃ x ∈ s.nodes, x.pa = n.1) ∧
  ∀ a, a / 2 ^ (levelShift c.current.lvl + 8) = 0 → (∃ l, walkFrom s a c.current.lvl c.current.node false = .absent l) ∨
    ∃ l e att, walkFrom s a c.current.lvl c.current.node false = .leaf l e att

/-- The command's page that starts at an address has no leaf: it lies past the root's span, or its walk ends at an absent entry
of its level or a higher one (R359). -/
def PageFree (s : State) (r : Req) (c : Context) (a : Nat) : Prop :=
  a / 2 ^ (levelShift c.current.lvl + 8) ≠ 0 ∨
    ∃ l, mapLv r ≤ l ∧ walkFrom s a c.current.lvl c.current.node false = .absent l

/-- The command's page that starts at an address has a leaf of the size that ATTR names (R359). -/
def PageMapped (s : State) (r : Req) (root : RootDesc) (a : Nat) : Prop := ∃ e att, leafOf s root a = some (mapLv r, e, att)

/-- What MAP and REMAP ask of the pages of their range (R359). -/
def RangeMeets (s : State) (r : Req) (c : Context) (code : Nat) : Prop :=
  ∀ i < mapNpg r, if code = 0x21 then PageFree s r c (mapVa r + i * mapBytes r)
    else PageMapped s r c.current (mapVa r + i * mapBytes r)

/-- The leaf that ATTR describes, of a GEN, with its frame and side frame (R100, R359). -/
def leafGiven (r : Req) (gen : BitVec 16) (f : Nat × Nat) : Entry :=
  let a := fieldAt r.payload 16 4
  { gen := gen.toNat, side := f.2, frame := f.1, fmt := mapFmt r, tier := mapTier r, atten := false, ex := a / 2 ^ 8 % 2 == 1
    wr := a / 2 ^ 7 % 2 == 1, rd := a / 2 ^ 6 % 2 == 1, leaf := true, valid := true, spare := false }

/-- Every address outside a range has the leaf that it had; a new LVL leaves what the leaf says (R383). -/
def OtherLeaves (s s' : State) (old new : RootDesc) (lo hi : Nat) : Prop :=
  ∀ a, ¬ (lo ≤ a ∧ a < hi) → (new.lvl = old.lvl → leafOf s' new a = leafOf s old a) ∧
    (leafOf s' new a).map (fun x => (x.1, x.2.1)) = (leafOf s old a).map (fun x => (x.1, x.2.1))

/-- No entry of the tree of a root has ATTEN. -/
def NoAtten (s : State) (root : RootDesc) : Prop := ∀ n ∈ rootNodes s root, ∀ e ∈ nodeEntries s n.1, e.atten = false

/-- The bytes of frames and nodes that were in use are as before: a publish writes new ones (R108). -/
def KeepsFrames (s s' : State) : Prop :=
  ∀ a, ((∃ f ∈ s.frames, f.pa ≤ a ∧ a < f.pa + f.bytes) ∨ ∃ n ∈ s.nodes, n.pa ≤ a ∧ a < n.pa + 4096) →
    homeByte s' a = homeByte s a

/-- The pages of the range have the leaves that ATTR gives, with the frames of fs; every other address is as before. -/
def LeavesSet (s s' : State) (r : Req) (old new : RootDesc) (fs : Nat → Nat × Nat) : Prop :=
  (∀ i < mapNpg r, ∀ o < mapBytes r, ∃ att, (NoAtten s old → att = false) ∧
    leafOf s' new (mapVa r + i * mapBytes r + o) = some (mapLv r, leafGiven r new.gen (fs i), att)) ∧
  OtherLeaves s s' old new (mapVa r) (mapVa r + mapNpg r * mapBytes r)

/-- A map command has published a root for the context, and answered its GEN. -/
def MapDone (s s' : State) (r : Req) (c : Context) (code : Nat) (new : RootDesc) : Prop :=
  Published s s' c ∧ Responded s s' r code 0 (bytesOf 4 (c.current.gen + 1).toNat) ∧ KeepsFrames s s' ∧
  findCtx s' c.id = some { c with current := new }

/-- The code of a grid's STATE in GRID_WAIT (R367). -/
def stateCode (g : Grid) : Nat :=
  match g.st with
  | .queued => if g.held = true then 2 else 0
  | .running => 1
  | .suspended => 2
  | .complete => 3
  | .killed => 4
  | .refused => 5

/-- A frame that is next on a stream on which none has come early, and does not close it (R355, R356). -/
def NextFrame (s : State) (f : Frame) (x : Strm) : Prop :=
  s.booted = true ∧ s.recovery = false ∧ frameOk s f = true ∧ findStream s f.strm = some x ∧ x.failed = false ∧ x.got = [] ∧
    f.seq = x.expect ∧ f.flg.getLsbD 1 = false

/-- A reply to a peer's request (R370). -/
def Replied (s s' : State) (f : Frame) (st : Nat) (p : List Byte) : Prop :=
  s'.responses = s.responses ++ [⟨f.strm, f.tag, f.cmd.toNat, st, p⟩] ∧ s'.teams = s.teams ∧
  ∃ y g n, findStream s' f.strm = some y ∧ y.expect = f.seq + 1 ∧ (g, n) ∈ y.unacked ∧ g.type = 6 ∧ g.tag = f.tag ∧
    g.stat.toNat = st ∧ g.payload = p

/-- A peer's request (R370) whose address a context's current root maps into the module's own memory, without poison. -/
structure PeerHits (s : State) (f : Frame) (a : PeerAsk) (k : AccKind) (pa : Nat) : Prop where
  ask : peerAsk f = some a
  ctx : ∃ c, findCtx s a.rctx = some c ∧ c.dying = false ∧ ∃ y, translate s c.current a.va k none = .ok y ∧ y.pa = pa
  own : isPeer pa = false
  good : hopOf s pa a.size = 0

/-- What a peer's atomic makes of the old value (R370): codes 0 to 8 of R270, cas, or FP32 addition. -/
def peerAtom (a : PeerAsk) (old : Nat) : Nat :=
  (if a.op = 9 then (if old = fieldAt a.data 0 a.size then fieldAt a.data 8 a.size else old)
   else if a.op = 10 then fadd32 old (fieldAt a.data 0 a.size)
   else atomNew a.size a.op old (fieldAt a.data 0 a.size)) % 2 ^ (8 * a.size)

/-- An acknowledging frame covers a sent one (R355): its SEQ lies before ACKN, or its SACK bit is set. -/
def covered (f g : Frame) : Prop :=
  2 ^ 31 ≤ (g.seq - f.ackn).toNat ∨
    (f.flg.getLsbD 2 = true ∧ 1 ≤ (g.seq - f.ackn).toNat ∧ (g.seq - f.ackn).toNat ≤ 32 ∧
      f.sack.getLsbD ((g.seq - f.ackn).toNat - 1) = true)

/-- The compute side after a reset (R375): nothing runs, GDDR7 and the caches hold nothing, LPDDR6 is as its home served it, and
the boot is to come. -/
def WasReset (s s' : State) : Prop :=
  s'.teams = [] ∧ s'.contexts = [] ∧ s'.cores = [] ∧ s'.stores = [] ∧ s'.roots = [] ∧ s'.l1 = [] ∧ s'.booted = false ∧
    s'.powered = true ∧ s'.clk = 0 ∧ s'.manifest = s.manifest ∧ (∀ a, isGddr a = true → homeByte s' a = 0) ∧
    ∀ a, isLpddr a = true → homeByte s' a = homeByte s a

/-- Without power (R92, R375): every memory is lost, and nothing runs. -/
def WasCut (s s' : State) : Prop :=
  s'.powered = false ∧ s'.mem = [] ∧ s'.l2 = [] ∧ s'.teams = [] ∧ s'.contexts = [] ∧ s'.manifest = s.manifest

/-! ### Steps -/

/-- The code word at an address of a team's kernel is w, and the core fetches just it (R18, R88, R105): its page may be executed,
it is no peer's, its line is not poisoned, and the core's instruction cache holds no other word for it. -/
def codeAt (s : State) (t : Team) (a w : Word) : Prop :=
  ∃ x, fetchPa s t a = .ok x ∧ isPeer x.pa = false ∧ lineHop s (x.pa / 64) = 0 ∧ w.toNat = leNat (memFrom s x.pa) 4 ∧
    ∀ c, icLine s t.core (x.pa / 64) = some c → wordAt c.data (x.pa % 64) = w

/-! ### Numbers -/

/-- The formats that FTZ reaches (R71). -/
def plainFormats : List Fmt := [.fp32, .bf16, .fp16]

/-- The fields of an encoding (R66): sign, exponent field, fraction field. -/
def signOf (f : Fmt) (x : Nat) : Bool := x / 2 ^ (f.eb + f.mb) % 2 == 1
def expOf (f : Fmt) (x : Nat) : Nat := x / 2 ^ f.mb % 2 ^ f.eb
def fracOf (f : Fmt) (x : Nat) : Nat := x % 2 ^ f.mb

/-- The encoding is a special code of R67: an infinity or a NaN. -/
def special (f : Fmt) (x : Nat) : Prop :=
  match f with
  | .e2m1 => False
  | .e4m3 => expOf f x = 15 ∧ fracOf f x = 7
  | _ => expOf f x = 2 ^ f.eb - 1

/-- 1 or -1. -/
def signed (neg : Bool) : ℤ := if neg then -1 else 1

/-- The exact real value of an encoding that is no special code (R67). -/
def Stands (f : Fmt) (x : Nat) (v : ℝ) : Prop :=
  ¬ special f x ∧ (expOf f x = 0 → v = signed (signOf f x) * (2 : ℝ) ^ (1 - (f.bias : ℤ)) * (fracOf f x / 2 ^ f.mb)) ∧
    (expOf f x ≠ 0 → v = signed (signOf f x) * (2 : ℝ) ^ ((expOf f x : ℤ) - f.bias) * (1 + fracOf f x / 2 ^ f.mb))

/-- Whole multiples of a power of two, at most 2^b of it, the power 2^lo or more where there is a lowest one: the significand
grid of R69 and R70, with no upper limit. -/
def onGrid (b : Nat) (lo : Option ℤ) (z : ℝ) : Prop :=
  ∃ n k : ℤ, (∀ q, lo = some q → q ≤ k) ∧ |n| ≤ 2 ^ b ∧ z = n * (2 : ℝ) ^ k

/-- R69: y is what mode rm chooses for x among the members of a grid; of two that are as near, RNE takes the even one. -/
def Picked (grid even : ℝ → Prop) (rm : Nat) (x y : ℝ) : Prop :=
  grid y ∧ match rm with
    | 1 => |y| ≤ |x| ∧ 0 ≤ x * y ∧ ∀ z, grid z → |z| ≤ |x| → |z| ≤ |y|
    | 2 => x ≤ y ∧ ∀ z, grid z → x ≤ z → y ≤ z
    | 3 => y ≤ x ∧ ∀ z, grid z → z ≤ x → z ≤ y
    | 4 => ∀ z, grid z → |y - x| ≤ |z - x| ∧ (|y - x| = |z - x| → |z| ≤ |y|)
    | _ => ∀ z, grid z → |y - x| ≤ |z - x| ∧ (|y - x| = |z - x| → z ≠ y → even y)

/-- The largest finite magnitude (R67). -/
def largest (f : Fmt) : ℕ :=
  match f with
  | .fp32 => (2 ^ 24 - 1) * 2 ^ 104
  | .bf16 => (2 ^ 8 - 1) * 2 ^ 120
  | .fp16 => 65504
  | .e4m3 => 448
  | .e5m2 => 57344
  | .e2m1 => 6

/-- An overflow gives the largest finite magnitude and no infinity (R70). -/
def staysFinite (f : Fmt) (rm : Nat) (sat neg : Bool) : Prop :=
  f = .e4m3 ∨ f = .e2m1 ∨ sat = true ∨ rm = 1 ∨ (rm = 2 ∧ neg = true) ∨ (rm = 3 ∧ neg = false)

/-- R69 to R71, R73: r is the encoding and the exception bits (OF 4, UF 8) that a value x other than zero, of a sign, rounds to in a
format. y is the value chosen, and y' the one chosen where the exponent has no lower limit either. -/
def RoundedTo (f : Fmt) (rm : Nat) (sat ftz neg : Bool) (x : ℝ) (r : Nat × Nat) : Prop :=
  ∃ y y', Picked (onGrid (f.mb + 1) (some f.qmin)) (onGrid f.mb (some (f.qmin + 1))) rm x y ∧
    Picked (onGrid (f.mb + 1) none) (onGrid f.mb none) rm x y' ∧
    let normal : ℝ := 2 ^ (f.qmin + f.mb)
    let s := if neg then 2 ^ (f.eb + f.mb) else 0
    (largest f < |y| → (staysFinite f rm sat neg → r.1 = s + f.maxBits) ∧
      (¬ staysFinite f rm sat neg → r.1 = s + (2 ^ f.eb - 1) * 2 ^ f.mb) ∧
      (f = .e4m3 ∧ rm = 1 ∧ |x| < 512 → r.2 = 0) ∧ (¬ (f = .e4m3 ∧ rm = 1 ∧ |x| < 512) → r.2 = 4)) ∧
    (|y| ≤ largest f →
      (ftz = true ∧ f ∈ plainFormats ∧ y ≠ 0 ∧ |y| < normal → r = (s, 8)) ∧
      (¬ (ftz = true ∧ f ∈ plainFormats ∧ y ≠ 0 ∧ |y| < normal) → r.1 < 2 ^ f.width ∧ Stands f r.1 y ∧ signOf f r.1 = neg ∧
        (|y'| < normal ∧ y ≠ x → r.2 = 8) ∧ (¬ (|y'| < normal ∧ y ≠ x) → r.2 = 0)))

/-- An FP32 encoding is a NaN, a signalling one (R67, R72). -/
def nan32 (x : Nat) : Bool := x / 2 ^ 23 % 256 == 255 && x % 2 ^ 23 != 0
def snan32 (x : Nat) : Bool := nan32 x && decide (x % 2 ^ 23 < 2 ^ 22)

/-- An FP32 operand under FTZ: a subnormal one is the zero of its sign (R71). -/
def flush32 (ftz : Bool) (x : Nat) : Nat := if ftz && x / 2 ^ 23 % 256 == 0 then x / 2 ^ 31 * 2 ^ 31 else x

/-- A key in the order of the values of FP32 encodings without NaN: with -0 below +0, or with both equal. -/
def orderKey (zerosEqual : Bool) (x : Nat) : ℤ :=
  if x < 2 ^ 31 then x else if zerosEqual then -((x : ℤ) - 2 ^ 31) else -((x : ℤ) - 2 ^ 31) - 1

/-- The condition k of fcmp (R196). -/
def fcmpTrue (k x y : Nat) : Bool :=
  let nan := nan32 x || nan32 y
  let a := orderKey true x
  let b := orderKey true y
  match k with
  | 0 => !nan && a == b
  | 1 => nan || a != b
  | 2 => !nan && decide (a < b)
  | 3 => !nan && decide (a ≤ b)
  | 4 => !nan && decide (b < a)
  | 5 => !nan && decide (b ≤ a)
  | 6 => nan
  | _ => !nan

/-- The set G of R203, with no upper limit, and what RNE takes there on a tie. -/
def seedGrid (z : ℝ) : Prop := onGrid 15 (some (-140)) z ∨ ∃ n : ℤ, |n| ≤ 2 ^ 23 ∧ z = n * (2 : ℝ) ^ (-149 : ℤ)
def seedEven (z : ℝ) : Prop := onGrid 14 (some (-139)) z ∨ ∃ n : ℤ, |n| ≤ 2 ^ 22 ∧ z = n * (2 : ℝ) ^ (-148 : ℤ)

/-- R203: r is the seed for an exact value. -/
def SeedOf (ftz : Bool) (v : ℝ) (r : Nat × Nat) : Prop :=
  ∃ y, Picked seedGrid seedEven 0 v y ∧
    let tiny := |y| < (2 : ℝ) ^ (-126 : ℤ)
    (2 ^ 128 ≤ |y| → ∀ n, (v < 0 ↔ n = 1) → n ≤ 1 → r = (n * 2 ^ 31 + 0x7F800000, 4)) ∧
    (tiny ∧ ftz = true → ∀ n, (v < 0 ↔ n = 1) → n ≤ 1 → r = (n * 2 ^ 31, 8)) ∧
    (|y| < 2 ^ 128 → ¬ (tiny ∧ ftz = true) → r.1 < 2 ^ 32 ∧ Stands .fp32 r.1 y ∧ (tiny ∧ y ≠ v → r.2 = 8) ∧
      (¬ (tiny ∧ y ≠ v) → r.2 = 0))

/-- The element formats of cvt.ff but E8M0, code 6 (R200), and the width of a code. -/
def ffFormats : List Fmt := [.fp32, .bf16, .fp16, .e4m3, .e5m2, .e2m1]
def ffWidth (k : Nat) : Nat := [32, 16, 16, 8, 8, 4, 8].getD k 0

/-- Element i of a list of slots in a format (R68, R200): an FP32 one has a slot of its own. -/
def ffElement (k : Nat) (ws : List Word) (i : Nat) : Nat :=
  if k = 0 then (ws.getD i 0).toNat else (ws.getD 0 0).toNat / 2 ^ (ffWidth k * i) % 2 ^ ffWidth k

/-- The value of an element that cvt.ff reads (R67, R71, R75): FTZ does not reach a conversion to E8M0. -/
def ffValue (m : Mods) (st dt code : Nat) : FVal :=
  if st = 6 then (if code = 255 then .nan false else .fin false 1 ((code : ℤ) - 127))
  else (ffFormats.getD st .fp32).valFtz (m.ftz == 1 && dt != 6) code

end Sys2Proof.Claims

open Sys2Proof Sys2Proof.Machine Sys2Proof.Claims

/-- R26 to R32, R35 to R38, R291: at a header without reserved values, a team with no frozen command to take delivery of (R128)
starts the clause when it is ready, and else waits at the header. A hint word that its place allows is kept for the word it
applies to; a sched hint sets the compaction to the end of the clause and remembers YLD, and one that repeats a sched hint is
ILLOP with reason 0x09; a nop takes its issue slot and does nothing. -/
def Obligations.ClausesAndHints : Prop :=
  (∀ (s : State) (t : Team) (w : BitVec 12) (a b : BitVec 4) (l : BitVec 5) (c : BitVec 2) (g f : BitVec 1),
    curTeam s = some t → t.wix = 0 → undelivered s t false = [] →
    (a.toNat < 12 ∨ a = 15) → (b.toNat < 12 ∨ b = 15) → 1 ≤ l.toNat → l.toNat ≤ 24 → c ≠ 3 →
    (ready t w a b → ∃ s', exec (.clauseHeader w a b l c g f) s = .next s' ∧
      Becomes s s' t { t with wix := 1, hints := none, clause := ⟨a, b, l.toNat, c, false⟩ }) ∧
    (¬ ready t w a b → exec (.clauseHeader w a b l c g f) s = .next s)) ∧
  (∀ (s : State) (t : Team), curTeam s = some t → t.wix ≠ 0 →
    (∀ p, extOf t = none → t.wix < t.clause.len → ∃ s', exec (.ext p) s = .next s' ∧
      Becomes s s' t { t with icnt := (counted t).icnt, wix := t.wix + 1, hints := some { unitOf t with ext := some p } }) ∧
    (∀ r z x c k o w, (⟨r, z, x, c, k, o, w⟩ : Mods).reserved = false → extOf t = none → modPending t = false →
      t.wix < t.clause.len → ∃ s', exec (.mod r z x c k o w) s = .next s' ∧
      Becomes s s' t { t with icnt := (counted t).icnt, wix := t.wix + 1,
                              hints := some { unitOf t with mod := some ⟨r, z, x, c, k, o, w⟩, modIx := t.wix, modWord := t.ir } }) ∧
    (∀ y l c, c ≠ 3 → extOf t = none → modPending t = false → schedPending t = false → t.wix < t.clause.len →
      ∃ s', exec (.sched y l c) s = .next s' ∧
      Becomes s s' t { t with icnt := (counted t).icnt, wix := t.wix + 1, hints := some ⟨t.wix, true, none, 0, 0, none⟩,
                              clause := { t.clause with comp := c, yld := t.clause.yld || y == 1 } }) ∧
    (∀ y l c, c ≠ 3 → extOf t = none → modPending t = false → schedPending t = false → t.wix = t.clause.len →
      ∃ s', exec (.sched y l c) s = .next s' ∧
      Becomes s s' t { t.movedTo (wordAfter t, 0) with
        clause := { t.clause with comp := c, yld := t.clause.yld || y == 1 } }) ∧
    (∀ y l c, c ≠ 3 → schedPending t = true → exec (.sched y l c) s = .next (raiseIll s t 0x09 0)) ∧
    (reasons .nop t = [] → ∃ s', exec .nop s = .next s' ∧ Becomes s s' t (t.movedTo (nextPlace t))))

/-- R24, R279, R286, R308, R309: bra, yield and jmpi send the active lanes to a clause header; jmpi takes the address that every
active lane holds. yield also makes the cycle after it the team's ready time, and gives up the role of current team, if the team
holds it. -/
def Obligations.TransfersReachHeaders : Prop :=
  ∀ (s : State) (t : Team),
    (∀ disp, Accepted s t (.bra disp) [] → headerAt s t (target t disp) →
      ∃ s', exec (.bra disp) s = .next s' ∧ Becomes s s' t (t.movedTo (target t disp, 0))) ∧
    (∀ disp, Accepted s t (.yield disp) [] → headerAt s t (target t disp) →
      ∃ s' s1, exec (.yield disp) s = .next s' ∧
        Becomes s s1 t { t.movedTo (target t disp, 0) with wasReady := true, readyAt := s.clk.toNat + 1 } ∧
        s' = { s1 with contexts := s'.contexts } ∧ RoleGiven s s' t ∧
        (∀ c, (findCtx s' c).map noGrids = (findCtx s c).map noGrids) ∧
        (∀ c n, (findGrid s' c n).map noRoles = (findGrid s c n).map noRoles)) ∧
    (∀ a v, Accepted s t (.jmpi a) [a.toNat] → t.active ≠ 0 → goodSlot s t a.toNat →
      (∀ l ∈ lanesOf t.active, slot t l a.toNat = v) → v.toNat % 4 = 0 → headerAt s t v →
      ∃ s', exec (.jmpi a) s = .next s' ∧ Becomes s s' t (t.movedTo (v, 0)))

/-- R280: a conditional branch with no lane taken falls through, with every active lane taken goes to its target, and
otherwise defers the taken lanes in the innermost region and falls through with the others. Without an open region a split is
ILLOP with reason 0x14; with a full stack a second deferral is STACK_FULL. -/
def Obligations.ConditionalBranchSplits : Prop :=
  ∀ (s : State) (t : Team) (c : BitVec 5) (disp : BitVec 17) (z : Bool) (m : Mask),
    let i : Instr := if z then .bcZ c disp else .bcNz c disp
    Accepted s t i [c.toNat] → goodSlot s t c.toNat → isTaken t c.toNat (fun v => (v = 0) = (z = true)) m →
    (m = 0 → ∃ s', exec i s = .next s' ∧ Becomes s s' t (t.movedTo (nextPlace t))) ∧
    (m ≠ 0 → m = t.active → headerAt s t (target t disp) →
      ∃ s', exec i s = .next s' ∧ Becomes s s' t (t.movedTo (target t disp, 0))) ∧
    (∀ e rest, m ≠ 0 → m ≠ t.active → headerAt s t (target t disp) → onTop t e rest → e.kind ≠ .call →
      (e.pmask = 0 → ∃ s', exec i s = .next s' ∧
        Becomes s s' t { t.movedTo (wordAfter t, 0) with
          stack := { e with ppc := target t disp, pmask := m } :: rest, active := t.active &&& ~~~m }) ∧
      (e.pmask ≠ 0 → t.stack.length < 32 → ∃ s', exec i s = .next s' ∧
        Becomes s s' t { t.movedTo (wordAfter t, 0) with
          stack := ⟨.split, e.rpc, t.active, target t disp, m⟩ :: t.stack, active := t.active &&& ~~~m }) ∧
      (e.pmask ≠ 0 → 32 ≤ t.stack.length → ∀ x recPa va pas, MayEnter s t x recPa va pas → ∃ s', exec i s = .next s' ∧
        Entered s s' t x recPa va pas (preciseRec t 0x0C 0 0))) ∧
    (∀ x recPa va pas, m ≠ 0 → m ≠ t.active → (t.stack = [] ∨ ∃ e rest, t.stack = e :: rest ∧ e.kind = .call) →
      MayEnter s t x recPa va pas → ∃ s', exec i s = .next s' ∧
        Entered s s' t x recPa va pas (preciseRec t 0x01 0 (BitVec.ofNat 64 (t.ir.toNat + 0x14 * 2 ^ 32))))

/-- R277, R281 to R285, R288: recon opens a region and goes on; call links, marks the stack and goes to its target; ret drops the
marker and goes to the address that every active lane holds. join parks the active lanes and the team resumes; brk takes them
out of the n innermost regions first; exit removes them from the team. -/
def Obligations.RegionsAndReturns : Prop :=
  (∀ (s : State) (t : Team),
    (∀ disp, Accepted s t (.recon disp) [] → headerAt s t (target t disp) → t.stack.length < 32 →
      ∃ s', exec (.recon disp) s = .next s' ∧
        Becomes s s' t { t.movedTo (nextPlace t) with stack := ⟨.recon, target t disp, t.active, 0, 0⟩ :: t.stack }) ∧
    (∀ c disp, Accepted s t (.call c disp) [c.toNat] → headerAt s t (target t disp) → t.stack.length < 32 →
      ∃ s' t', exec (.call c disp) s = .next s' ∧ Becomes s s' t t' ∧
        t' = { t.movedTo (target t disp, 0) with
          stack := ⟨.call, 0, t.active, 0, 0⟩ :: t.stack, regs := t'.regs, regBad := t'.regBad, pend := t'.pend } ∧
        t'.pend.map Pend.plain = t.pend.map Pend.plain ∧
        (∀ l ∈ lanesOf t.active, slot t' l c.toNat = wordAfter t) ∧
        (∀ l r, r < 256 → ¬ (l ∈ lanesOf t.active ∧ slotReg t c.toNat = some r) → reg t' l r = reg t l r)) ∧
    (∀ a v e rest, Accepted s t (.ret a) [a.toNat] → t.active ≠ 0 → goodSlot s t a.toNat → onTop t e rest → e.kind = .call →
      (∀ l ∈ lanesOf t.active, slot t l a.toNat = v) → v.toNat % 4 = 0 → headerAt s t v →
      ∃ s', exec (.ret a) s = .next s' ∧ Becomes s s' t { t.movedTo (v, 0) with stack := rest })) ∧
  (∀ (s : State) (t : Team),
    (∀ e rest, Accepted s t .join [] → onTop t e rest → e.kind ≠ .call →
      ∃ s' t', exec .join s = .next s' ∧ Becomes s s' t t' ∧ ResumedFrom t t') ∧
    (∀ n disp pre e rest, Accepted s t (.brk n disp) [] → t.stack = pre ++ e :: rest →
      (∀ h, t.handler = some h → h.base ≤ rest.length) →
      (∀ x ∈ pre, x.kind ≠ .call) → e.kind = .recon → (pre.filter (fun x => x.kind == .recon)).length + 1 = n.toNat →
      target t disp = e.rpc →
      ∃ s' t', exec (.brk n disp) s = .next s' ∧ Becomes s s' t t' ∧
        ResumedFrom { t with stack := pre.map (StackEntry.without t.active) ++ e :: rest } t') ∧
    (Accepted s t .exit [] → (t.handler ≠ none → t.live &&& ~~~t.active = 0) → arithLanes t = [] →
      ∃ s' t', exec .exit s = .next s' ∧ Becomes s s' t t' ∧ ResumedFrom (Team.without t t.active) t'))

/-- R168, R171 to R179: integer addition, subtraction, multiplication, minima, maxima and absolute values; logic, shifts,
rotation, bit counts and bit fields. -/
def Obligations.IntegerAndBits : Prop := Obeyed arithRule ∧ Obeyed bitRule

/-- R168, R180 to R187: comparison, selection, moves, pairs, conversion, byte dot products and the generator. -/
def Obligations.ComparisonSelectionWide : Prop := Obeyed wideRule

/-- R73, R190, R193 to R197: FP32 arithmetic, comparison, sign, class and the function approximations; each form completes. The
model's choice, not a rule's: the functions of R205 and R206 are computed by series (log entry 12, DEDUCED); a lane that owes a
source raises no bit (log entry 27, DEDUCED). -/
def Obligations.FloatingPoint : Prop :=
  Obeyed floatRule ∧
  ∀ (d a b c k : BitVec 5) (p : BitVec 2),
    Completes (.fadd d a b p) p [a.toNat, b.toNat] [d.toNat] ∧
    Completes (.fsub d a b p) p [a.toNat, b.toNat] [d.toNat] ∧
    Completes (.fmul d a b p) p [a.toNat, b.toNat] [d.toNat] ∧
    Completes (.ffma d a b c p) p [a.toNat, b.toNat, c.toNat] [d.toNat] ∧
    Completes (.fmin d a b p) p [a.toNat, b.toNat] [d.toNat] ∧
    Completes (.fmax d a b p) p [a.toNat, b.toNat] [d.toNat] ∧
    Completes (.fcmp d a b k p) p [a.toNat, b.toNat] [d.toNat] ∧
    Completes (.fabs d a p) p [a.toNat] [d.toNat] ∧
    Completes (.fneg d a p) p [a.toNat] [d.toNat] ∧
    Completes (.frcp d a p) p [a.toNat] [d.toNat] ∧
    Completes (.frsq d a p) p [a.toNat] [d.toNat] ∧
    Completes (.fexp2 d a p) p [a.toNat] [d.toNat] ∧
    Completes (.flog2 d a p) p [a.toNat] [d.toNat] ∧
    Completes (.sincosT d a p) p [a.toNat] [d.toNat, d.toNat + 1] ∧
    Completes (.fround d a p) p [a.toNat] [d.toNat] ∧
    Completes (.fclass d a p) p [a.toNat] [d.toNat] ∧
    Completes (.fscale d a b p) p [a.toNat, b.toNat] [d.toNat]

/-- R73, R190, R198 to R202: packed arithmetic, dot products and conversions; each form completes. The model's choice, not a
rule's: the sign of a zero that a conversion gives (log entry 80, DEDUCED); a lane that owes a source raises no bit (log entry
27, DEDUCED). -/
def Obligations.PackedAndConversions : Prop :=
  Obeyed packedRule ∧
  ∀ (d a b c : BitVec 5) (y : BitVec 1) (p : BitVec 2),
    Completes (.hadd2 d a b y p) p [a.toNat, b.toNat] [d.toNat] ∧
    Completes (.hmul2 d a b y p) p [a.toNat, b.toNat] [d.toNat] ∧
    Completes (.hfma2 d a b c p) p [a.toNat, b.toNat, c.toNat] [d.toNat] ∧
    Completes (.fdot2 d a b c p) p [a.toNat, b.toNat, c.toNat] [d.toNat] ∧
    Completes (.fdot4F8 d a b c p) p [a.toNat, b.toNat, c.toNat] [d.toNat] ∧
    (∀ (dt : BitVec 3) (st : BitVec 2),
      Completes (.cvtFi d a dt st p) p [a.toNat] (if 6 ≤ dt.toNat then [d.toNat, d.toNat + 1] else [d.toNat])) ∧
    (∀ (dt : BitVec 2) (st : BitVec 3),
      Completes (.cvtIf d a dt st p) p (if 6 ≤ st.toNat then [a.toNat, a.toNat + 1] else [a.toNat]) [d.toNat]) ∧
    ∀ (st dt : BitVec 3) (nof : BitVec 1) (s : State) (t : Team),
      Issues s t (.cvtFf d a st nof dt p)
        ((if (modsOf t).wid = 5 ∧ st = 0 then [a.toNat, a.toNat + 1] else [a.toNat]) ++ predSlot p ++
          if (modsOf t).wid = 5 ∧ dt = 0 then [d.toNat, d.toNat + 1] else [d.toNat]) → (∀ l n, regPoisoned t l n = false) →
      ∃ s', exec (.cvtFf d a st nof dt p) s = .next s' ∧ OnlyTeam s s' t.uid

/-- R207, R208, R210 to R213, R215: shuffles, votes, masks and compare-exchange; and what a word does that was stopped between
its write passes. The model's choice, not a rule's: a lane that has exited is no lane of the team, and its reader gets its own
value (log entry 13, DEDUCED, from R207 and R288). -/
def Obligations.CrossLaneExchange : Prop := CrossObeyed crossRule ∧ Regathered crossRule

/-- R81, R207, R208, R214: reductions over a team and prefixes; both complete where lanes owe a source too. -/
def Obligations.ReductionsAndScans : Prop :=
  CrossObeyed reductionRule ∧ Regathered reductionRule ∧
  ∀ (d a op : BitVec 5) (p : BitVec 2) (s : State) (t : Team), (∀ l n, regPoisoned t l n = false) → t.gather = none →
    (Accepted s t (.redux d a op p) ([a.toNat] ++ predSlot p ++ [d.toNat]) →
      ∃ s', exec (.redux d a op p) s = .next s' ∧ OnlyTeam s s' t.uid) ∧
    (Accepted s t (.scan d a op p) ([a.toNat] ++ predSlot p ++ [d.toNat]) →
      ∃ s', exec (.scan d a op p) s = .next s' ∧ OnlyTeam s s' t.uid)

/-- R290, R337 to R339: trap takes SOFTWARE, with its immediate and the value of its slot in the lowest active lane. -/
def Obligations.SoftwareTrapEntersHandler : Prop :=
  ∀ (s : State) (t : Team) (a : BitVec 5) (i : BitVec 12) (c : Context) (recPa va : Nat) (pas : List Nat),
    Accepted s t (.trap a i) [a.toNat] → t.active ≠ 0 → goodSlot s t a.toNat → MayEnter s t c recPa va pas →
    ∃ s', exec (.trap a i) s = .next s' ∧
      Entered s s' t c recPa va pas (preciseRec t 0x14 0
        (BitVec.ofNat 64 (i.toNat + 2 ^ 32 * (slot t (lowLane t.active) a.toNat).toNat)))

/-- R27, R35 to R38, R45, R158, R337: a word with a cause of ILLOP has no effect but the trap, which names its lowest reason and
the word; a cause in the operands of wrsr of trapvec, of scfg and of tfill may be lower still. A malformed header or hint does
the same, and a mod hint that a header or a sched hint follows is itself the word at fault. A word without such a cause that
names an unbound slot raises SLOT_UNBOUND with the lowest such slot, a read before a write, where its own rule finds no cause.
That a mod hint is the word at fault where a header or a sched hint follows it is the model's choice (log entry 71, DEDUCED). -/
def Obligations.RefusedWordsTrap : Prop :=
  (∀ (i : Instr) (s : State) (t : Team) (r : Nat), isOperation i = true → curTeam s = some t → r ∈ reasons i t →
    (∀ q ∈ reasons i t, r ≤ q) → ∃ q c, q ≤ r ∧ exec i s = .next (raiseIll s t q c)) ∧
  (∀ (i : Instr) (s : State) (t : Team) (r : Nat), isOperation i = true → curTeam s = some t → r ∈ reasons i t →
    (∀ q ∈ reasons i t, r ≤ q) → (r = 4 ∨ operandsMatter i = false) →
    exec i s = .next (raiseIll s t r 0) ∧
    (∀ c recPa va pas, MayEnter s t c recPa va pas → ∃ s', exec i s = .next s' ∧
      Entered s s' t c recPa va pas (preciseRec t 0x01 0 (BitVec.ofNat 64 (t.ir.toNat + r * 2 ^ 32))))) ∧
  (∀ (i : Instr) (s : State) (t : Team) (r : Nat), curTeam s = some t → (t.wix = 0 → undelivered s t false = []) →
    (endsMod i = true → t.wix ≠ 0 → modPending t = false) → r ∈ unitCauses t i → (∀ q ∈ unitCauses t i, r ≤ q) →
    exec i s = .next (raiseIll s t r 0) ∧
    (∀ c recPa va pas, MayEnter s t c recPa va pas → ∃ s', exec i s = .next s' ∧
      Entered s s' t c recPa va pas (preciseRec t 0x01 0 (BitVec.ofNat 64 (t.ir.toNat + r * 2 ^ 32))))) ∧
  (∀ (i : Instr) (s : State) (t : Team) (h : Hints), curTeam s = some t → endsMod i = true → t.wix ≠ 0 → modPending t = true →
    t.hints = some h → exec i s = .next (raiseIll s { t with wix := h.modIx, ir := h.modWord } 0x08 0)) ∧
  (∀ (i : Instr) (s : State) (t : Team) (n : Nat), isOperation i = true → curTeam s = some t → reasons i t = [] →
    let rd := (slotsOf (modsOf t) i).1
    let wr := (slotsOf (modsOf t) i).2
    let aux : DWord := BitVec.ofNat 64 (n * 256 + if n ∈ rd then 1 else 2)
    n ∈ rd ++ wr → slotReg t n = none → (∀ k ∈ rd ++ wr, slotReg t k = none → n ≤ k) →
    (exec i s = .next (raiseWide s t 0x0E 0 aux) ∧
      ∀ c recPa va pas, MayEnter s t c recPa va pas → ∃ s', exec i s = .next s' ∧
        Entered s s' t c recPa va pas (preciseRec t 0x0E 0 aux)) ∨
    (ownCauses i = true ∧ ∃ q c, exec i s = .next (raiseIll s t q c)))

/-- R351 to R353: rdsr writes the register's value in each executing lane; wrsr of fpx and of xdead sets each executing lane's
bits from its slot; wrsr of trapvec takes a multiple of 4, or all ones, from the lowest active lane; a wrsr that names no
register that software writes has no effect but ILLOP with reason 0x04. That icnt counts the rdsr that reads it is the model's
choice (log entry 45, DEDUCED). -/
def Obligations.SpecialRegisters : Prop :=
  (∀ (s : State) (t : Team),
    (∀ d n c (v : Nat → Word), Accepted s t (.rdsr d n) [d.toNat] → findCtx s t.ctx = some c →
      (∀ l, (n.toNat, v l) ∈ srSays s t c l) → ∃ s', exec (.rdsr d n) s = .next s' ∧
      Wrote s s' t (lanesOf (candidates t)) [d.toNat] (fun _ => True) (fun l => [v l]) (fun _ => 0) (fun _ => false)) ∧
    (∀ a, Accepted s t (.wrsrFpx a) [a.toNat] → lostLanes s t 0 [a.toNat] = [] →
      ∃ s' t', exec (.wrsrFpx a) s = .next s' ∧ Becomes s s' t t' ∧
        t' = { t.movedTo (nextPlace t) with fpx := t'.fpx } ∧
        (∀ l ∈ lanesOf (candidates t), readsPending s t l [a.toNat] = false → fpxOf t' l = (slot t l a.toNat).setWidth 4) ∧
        (∀ l, l ∉ lanesOf (candidates t) → fpxOf t' l = fpxOf t l)) ∧
    (∀ a, Accepted s t (.wrsrXdead a) [a.toNat] → lostLanes s t 0 [a.toNat] = [] →
      ∃ s' t', exec (.wrsrXdead a) s = .next s' ∧ Becomes s s' t t' ∧
        t' = { t.movedTo (nextPlace t) with xdead := t'.xdead } ∧
        (∀ l ∈ lanesOf (candidates t), readsPending s t l [a.toNat] = false →
          sget false t'.xdead l = (slot t l a.toNat).getLsbD 0) ∧
        (∀ l, l ∉ lanesOf (candidates t) → sget false t'.xdead l = sget false t.xdead l)) ∧
    (∀ a, Accepted s t (.wrsrTrapvec a) [a.toNat] → t.active ≠ 0 → goodSlot s t a.toNat →
      ((slot t (lowLane t.active) a.toNat).toNat % 4 = 0 ∨ slot t (lowLane t.active) a.toNat = 0xFFFFFFFF) →
      ∃ s', exec (.wrsrTrapvec a) s = .next s' ∧
        Becomes s s' t { t.movedTo (nextPlace t) with trapvec := slot t (lowLane t.active) a.toNat })) ∧
  (∀ (s : State) (t : Team) (a : BitVec 5) (n : BitVec 12), curTeam s = some t → t.wix ≠ 0 →
    n ≠ 0x020 → n ≠ 0x013 → n ≠ 0x030 →
    exec (.wrsr a n) s = .next (raiseIll s t 0x04 0) ∧
    (∀ c recPa va pas, MayEnter s t c recPa va pas → ∃ s', exec (.wrsr a n) s = .next s' ∧
      Entered s s' t c recPa va pas (preciseRec t 0x01 0 (BitVec.ofNat 64 (t.ir.toNat + 4 * 2 ^ 32)))))

/-- R159, R160: bind and bindx bind n slots to n registers of the kernel, once for the team, and the next word sees it; bindx takes
the first register from the lowest active lane. Too many slots are ILLOP with reason 0x04; registers at or above REGS are
SLOT_UNBOUND, WHY 0x03; a slot that would stay bound to one of the registers is BIND_CLASH; they are looked for in this order, and
no binding changes. Neither takes a hint; the words of both, and those with a reserved field set, decode as the rules say. -/
def Obligations.BindMakesWindows : Prop :=
  (∀ (s : State) (t : Team) (d : BitVec 5) (m n : Nat), d.toNat + n ≤ 32 → t.hdr.regs ≤ 256 →
    let fails := fun (i : Instr) (cls : Nat) (aux : Nat) =>
      (∃ f, exec i s = .next (raiseWide { s with fresh := f } (counted t) cls 0 (BitVec.ofNat 64 aux))) ∧
      ∀ c recPa va pas, MayEnter s t c recPa va pas → ∃ s', exec i s = .next s' ∧
        Entered s s' t c recPa va pas (preciseRec t cls 0 (BitVec.ofNat 64 aux))
    let clash := fun k r => k < 32 ∧ ¬ (d.toNat ≤ k ∧ k < d.toNat + n) ∧ slotReg t k = some r ∧ m ≤ r ∧ r < m + n
    let does := fun (i : Instr) =>
      (m + n ≤ t.hdr.regs → (∀ k r, ¬ clash k r) → ∃ s' t', exec i s = .next s' ∧ Becomes s s' t t' ∧ Rebound t t' d.toNat m n) ∧
      (t.hdr.regs < m + n → fails i 0x0E (d.toNat * 256 + 3)) ∧
      (m + n ≤ t.hdr.regs → (∃ k r, clash k r) → ∃ k r, clash k r ∧ fails i 0x0F (k * 256 + r * 65536))
    (∀ k r, Accepted s t (.bind d k r) [] → n = k.toNat + 1 → m = r.toNat → does (.bind d k r)) ∧
    (∀ k a, Accepted s t (.bindx d a k) [a.toNat] → t.active ≠ 0 → goodSlot s t a.toNat → n = k.toNat + 1 →
      m = (slot t (lowLane t.active) a.toNat).toNat → does (.bindx d a k))) ∧
  (∀ (s : State) (t : Team) (d a k : BitVec 5) (n : BitVec 3) (r : BitVec 8), curTeam s = some t →
    (32 < d.toNat + n.toNat + 1 → exec (.bind d n r) s = .next (raiseIll s t 0x04 0)) ∧
    (8 ≤ k.toNat ∨ 32 < d.toNat + k.toNat + 1 → exec (.bindx d a k) s = .next (raiseIll s t 0x04 0)) ∧
    ((extOf t).isSome = true → 0x07 ∈ reasons (.bind d n r) t ∧ 0x07 ∈ reasons (.bindx d a k) t) ∧
    (hintMods t ≠ Mods.zero → 0x08 ∈ reasons (.bind d n r) t ∧ 0x08 ∈ reasons (.bindx d a k) t)) ∧
  (∀ (d a k : BitVec 5) (n : BitVec 3) (r : BitVec 8) (x : BitVec 6) (b : BitVec 5) (p : BitVec 2),
    decodeDt1 (0x280#10 ++ d ++ x ++ n ++ r) = (if x = 0 then .ok (.bind d n r) Mods.zero else .ill 0x04) ∧
    decodeDt1 (0x281#10 ++ d ++ a ++ b ++ k ++ p) = (if b = 0 ∧ p = 0 then .ok (.bindx d a k) Mods.zero else .ill 0x04)) ∧
  decodeDt1 0xA0200720 = .ok (.bind 16 7 32) Mods.zero ∧ decodeDt1 0xA070900C = .ok (.bindx 24 9 3) Mods.zero

/-- R23, R165, R265: a load of lanes that all hit, with no line of its core in L1 and no store under way, owes each executing
lane the bytes of memory at its address, in a handler but those of a SAVE word still owed (R341); an acquire at .cl or wider
leaves no line in the core's L1. R30, R157: the values of a pending instruction reach its registers, and its flag counts one
less. -/
def Obligations.LoadsOweAndComplete : Prop :=
  (∀ (s : State) (t : Team) (d a : BitVec 5) (o : BitVec 9) (pa : Nat → Nat), NoStores s t → (∀ x ∈ s.l1, x.core ≠ t.core) →
      CleanLanes s t 0 [a.toNat, a.toNat + 1] →
      (∀ x : BitVec 3, Accepted s t (.ld d a x o) ([a.toNat, a.toNat + 1] ++ slotsOfX x.toNat d) →
        LanesHit s t (execLanes s t 0) .read (fun l => addrOf t l a o (bytesOfX x.toNat)) pa (bytesOfX x.toNat) →
        NoOwedSave s t (execLanes s t 0) (fun l => addrOf t l a o (bytesOfX x.toNat)) (bytesOfX x.toNat) →
        ∃ s', exec (.ld d a x o) s = .next s' ∧
          Accepts s s' t (loadPend s t ((modsOf t).cp == 2) false (execLanes s t 0) (fun l => addrOf t l a o (bytesOfX x.toNat))
            (slotsOfX x.toNat d) (fun l => loadedWords x.toNat (memFrom s (pa l))))) ∧
      (∀ x : BitVec 1, Accepted s t (.ldAcq d a x o) ([a.toNat, a.toNat + 1] ++ slotsOfX (4 + x.toNat) d) →
        LanesHit s t (execLanes s t 0) .read (fun l => addrOf t l a o (bytesOfX (4 + x.toNat))) pa (bytesOfX (4 + x.toNat)) →
        NoOwedSave s t (execLanes s t 0) (fun l => addrOf t l a o (bytesOfX (4 + x.toNat))) (bytesOfX (4 + x.toNat)) →
        ∃ s', exec (.ldAcq d a x o) s = .next s' ∧
          Accepts s s' t (loadPend s t (decide (3 ≤ scopeIs t 4)) true (execLanes s t 0)
            (fun l => addrOf t l a o (bytesOfX (4 + x.toNat))) (slotsOfX (4 + x.toNat) d)
            (fun l => loadedWords (4 + x.toNat) (memFrom s (pa l)))) ∧
          (3 ≤ scopeIs t 4 → ∀ y ∈ s'.l1, y.core ≠ t.core))) ∧
  ∀ (s : State) (t : Team) (p : Pend), findTeam s t.uid = some t → findPend t p.seq = some p → p.wait = .data →
      p.contested = [] → p.losses = [] → t.handler = none → (p.writes.map Prod.fst).Nodup →
      ∃ s' t', exec (.loadComplete t.uid p.seq) s = .next s' ∧ Becomes s s' t t' ∧
        t' = { t with regs := t'.regs, regBad := t'.regBad, flags := t'.flags, pend := t'.pend } ∧
        (∀ w ∈ p.writes, sget 0 t'.regs w.1 = w.2 ∧ sget false t'.regBad w.1 = false) ∧
        (∀ k, k ∉ p.writes.map Prod.fst → sget 0 t'.regs k = sget 0 t.regs k ∧ sget false t'.regBad k = sget false t.regBad k) ∧
        (∀ k < 12, flagOf t' k = flagOf t k - if k = p.flag then 1 else 0) ∧
        t'.pend.map Pend.seq = (t.pend.filter (fun q => q.seq != p.seq)).map Pend.seq

/-- R262, R264, R267: a store of lanes that all hit puts each lane's bytes at its address in the store path, and leaves every
byte of memory as it is; st.rel here with no earlier store under way, which it may have to show or to perform (R255). -/
def Obligations.StoresEnterStorePath : Prop :=
  ∀ (s : State) (t : Team) (d a : BitVec 5) (o : BitVec 9) (pa : Nat → Nat),
    (∀ x : BitVec 3, ∀ nt : Bool,
      let i : Instr := if nt then .stNt d a x o else .st d a x o
      Accepted s t i ([a.toNat, a.toNat + 1] ++ slotsOfX x.toNat d) →
      CleanLanes s t 0 ([a.toNat, a.toNat + 1] ++ slotsOfX x.toNat d) →
      LanesHit s t (execLanes s t 0) .write (fun l => addrOf t l a o (bytesOfX x.toNat)) pa (bytesOfX x.toNat) →
      ∃ s', exec i s = .next s' ∧
        Stored s s' t (storeEntries s t (if nt then .nt else .st) (execLanes s t 0) pa
          (fun l => storedBytes x.toNat ((slotsOfX x.toNat d).map (slot t l))))) ∧
    (∀ x : BitVec 1, NoStores s t → Accepted s t (.stRel d a x o) ([a.toNat, a.toNat + 1] ++ slotsOfX (4 + x.toNat) d) →
      CleanLanes s t 0 ([a.toNat, a.toNat + 1] ++ slotsOfX (4 + x.toNat) d) →
      LanesHit s t (execLanes s t 0) .write (fun l => addrOf t l a o (bytesOfX (4 + x.toNat))) pa (bytesOfX (4 + x.toNat)) →
      ∃ s', exec (.stRel d a x o) s = .next s' ∧
        Stored s s' t (storeEntries s t (.rel (scopeIs t 4)) (execLanes s t 0)
          pa (fun l => storedBytes (4 + x.toNat) ((slotsOfX (4 + x.toNat) d).map (slot t l)))))

/-- R262, R271, R144: an entry of the store path that nothing must precede is performed: a store's bytes, and no others, are
written at the home; a red's word gets the operation's result; a scratch store's bytes are written in that scratchpad. -/
def Obligations.StorePathPerformsInPlace : Prop :=
  ∀ (s : State) (e : StoreEnt), s.Inv → s.stores.find? (fun f => f.seq == e.seq) = some e → storeReady s e = true →
    ∃ s', exec (.storePerformedAtHome e.seq) s = .next s' ∧ s'.stores = s.stores.filter (fun f => f.seq != e.seq) ∧
      ((e.kind = .st ∨ e.kind = .nt ∨ ∃ k, e.kind = .rel k) → s'.teams = s.teams ∧
        ∀ a, homeByte s' a =
          if e.addr ≤ a ∧ a < e.addr + e.data.length then e.data.getD (a - e.addr) 0 else homeByte s a) ∧
      (∀ op r k, e.kind = .red op r k → hopOf s e.addr e.data.length = 0 → op ≤ 8 → s'.teams = s.teams ∧
        leNat (memFrom s' e.addr) e.data.length =
          atomNew e.data.length op (leNat (memFrom s e.addr) e.data.length) (leNat (fun j => e.data.getD j 0) e.data.length) ∧
        ∀ a, ¬ (e.addr ≤ a ∧ a < e.addr + e.data.length) → homeByte s' a = homeByte s a) ∧
      (∀ u x, e.kind = .scr u → findTeam s u = some x → (∀ a, homeByte s' a = homeByte s a) ∧
        ∃ x', findTeam s' u = some x' ∧ x' = { x with scr := x'.scr, scrBad := x'.scrBad } ∧
          ∀ a, sget 0 x'.scr a =
            if e.addr ≤ a ∧ a < e.addr + e.data.length then e.data.getD (a - e.addr) 0 else sget 0 x.scr a) ∧
      ((∃ k, e.kind = .fence k ∨ e.kind = .ntdrain k) ∨ e.kind = .launch → s' = { s with stores := s'.stores })

/-- R255, R268, R269, R167: a full fence at .cl or wider leaves no store of the team or its core under way but st.nt. A release
fence at .cl or wider puts its mark in the store path, and shows the core's teams the team's earlier stores; its scratch stores
and reds are performed. ntdrain puts its mark there. An acquire or a full fence at .cl or wider leaves no line in the core's L1;
at .tm and .cr a fence with no store under way only goes on. pref changes no team and no memory. -/
def Obligations.FencesDrainAndInvalidate : Prop :=
  ∀ (s : State) (t : Team),
    (Accepted s t (.fence 0) [] → 3 ≤ scopeIs t 4 → ∃ s' t', exec (.fence 0) s = .next s' ∧ findTeam s' t.uid = some t' ∧
      WentTo t t' (fun x => { x with scr := t'.scr, scrBad := t'.scrBad }) ∧
      (∀ e ∈ s'.stores, (e.uid = t.uid ∨ e.core = t.core) → e.kind = .nt) ∧ (∀ y ∈ s'.l1, y.core ≠ t.core)) ∧
    (Accepted s t (.fence 1) [] → 3 ≤ scopeIs t 4 → ∃ s' t' es, exec (.fence 1) s = .next s' ∧ findTeam s' t.uid = some t' ∧
      WentTo t t' (fun x => { x with scr := t'.scr, scrBad := t'.scrBad }) ∧
      s'.stores = es ++ [entryOf s t (.fence (scopeIs t 4)) 0 0 []] ∧ Shown es s.stores ∧
      (∀ e ∈ es, e.uid = t.uid → e.kind ≠ .nt → e.shown = true ∧ isScr e = false ∧ isRed e = false) ∧
      (NoStores s t → Stored s s' t [entryOf s t (.fence (scopeIs t 4)) 0 0 []])) ∧
    (Accepted s t (.fence 2) [] → NoStores s t → ∃ s' t', exec (.fence 2) s = .next s' ∧ findTeam s' t.uid = some t' ∧
      WentTo t t' id ∧ (∀ a, homeByte s' a = homeByte s a) ∧ s'.stores = s.stores ∧
      (3 ≤ scopeIs t 4 → ∀ y ∈ s'.l1, y.core ≠ t.core)) ∧
    (∀ x : BitVec 3, x.toNat < 2 → Accepted s t (.fence x) [] → scopeIs t 4 < 3 → NoStores s t → ∃ s', exec (.fence x) s = .next s' ∧
      Stored s s' t []) ∧
    (Accepted s t .ntdrain [] → ∃ s', exec .ntdrain s = .next s' ∧ Stored s s' t [entryOf s t (.ntdrain (scopeIs t 4)) 0 0 []]) ∧
    (∀ a o, Accepted s t (.pref a o) [a.toNat, a.toNat + 1] → lostLanes s t 0 [a.toNat, a.toNat + 1] = [] →
      ∃ s', exec (.pref a o) s = .next s' ∧ (∀ u, u ≠ t.uid → findTeam s' u = findTeam s u) ∧
        findTeam s' t.uid = some (t.movedTo (nextPlace t)) ∧ (∀ b, homeByte s' b = homeByte s b) ∧ s'.stores = s.stores)

/-- R270, R271: atom and cas on words that no two lanes share, none of them a SAVE word still owed to a register (R341), owe each
lane its word's old value and leave the new value in memory; red puts one request for each word in the store path, and one that
acquires is performed at once. -/
def Obligations.AtomicsOnSeparateWords : Prop :=
  ∀ (s : State) (t : Team) (a b : BitVec 5) (p : BitVec 2) (pa : Nat → Nat), s.Inv → NoStores s t →
    let n := atomBytes (modsOf t)
    let va := fun l => pairAddr t l a
    LanesHit s t (execLanes s t p) .atomic va pa n → Apart (execLanes s t p) pa n →
    (∀ d k, Accepted s t (.atom d a b k p) ([a.toNat, a.toNat + 1] ++ atomSlots (modsOf t) b ++ predSlot p ++
        atomSlots (modsOf t) d) →
      CleanLanes s t p ([a.toNat, a.toNat + 1] ++ atomSlots (modsOf t) b ++ predSlot p) →
      NoOwedSave s t (execLanes s t p) va n →
      ∃ s', exec (.atom d a b k p) s = .next s' ∧
        AtomDone s s' t (execLanes s t p) va pa n (atomSlots (modsOf t) d)
          (fun l old => atomNew n k.toNat old (operandOf t l b n))) ∧
    (∀ d c, Accepted s t (.cas d a b c p) ([a.toNat, a.toNat + 1] ++ (atomSlots (modsOf t) b ++ atomSlots (modsOf t) c) ++
        predSlot p ++ atomSlots (modsOf t) d) →
      CleanLanes s t p ([a.toNat, a.toNat + 1] ++ (atomSlots (modsOf t) b ++ atomSlots (modsOf t) c) ++ predSlot p) →
      NoOwedSave s t (execLanes s t p) va n →
      ∃ s', exec (.cas d a b c p) s = .next s' ∧
        AtomDone s s' t (execLanes s t p) va pa n (atomSlots (modsOf t) d)
          (fun l old => if old = operandOf t l b n then operandOf t l c n else old)) ∧
    (∀ k, Accepted s t (.red a b k p) ([a.toNat, a.toNat + 1] ++ atomSlots (modsOf t) b ++ predSlot p) →
      CleanLanes s t p ([a.toNat, a.toNat + 1] ++ atomSlots (modsOf t) b ++ predSlot p) →
      ((modsOf t).ord.getLsbD 0 = false → ∃ s' es, exec (.red a b k p) s = .next s' ∧ Stored s s' t es ∧
        es.length = (execLanes s t p).length ∧
        ∀ l ∈ execLanes s t p, ∃ e ∈ es, e.addr = pa l ∧ leNat (fun j => e.data.getD j 0) n = operandOf t l b n ∧
          e.data.length = n ∧ e.kind = .red k.toNat ((modsOf t).ord.getLsbD 1) (scopeIs t 4)) ∧
      ((modsOf t).ord.getLsbD 0 = true → ∃ s' t', exec (.red a b k p) s = .next s' ∧ findTeam s' t.uid = some t' ∧ WentTo t t' id ∧
        (∀ u, u ≠ t.uid → findTeam s' u = findTeam s u) ∧
        NewValues s s' (execLanes s t p) pa n (fun l old => atomNew n k.toNat old (operandOf t l b n))))

/-- R139, R144, R146, R147: lds owes each lane the bytes of the scratchpad its address names; sts puts each lane's bytes in the
store path of that scratchpad; atoms on words that no two lanes share owes each lane the old word and leaves the new one. -/
def Obligations.ScratchAccesses : Prop :=
  ∀ (s : State) (t : Team) (u : Nat → Nat) (off : Nat → Nat) (y : Nat → Team), NoStores s t →
    (∀ d a x o, Accepted s t (.lds d a x o) ([a.toNat] ++ slotsOfX x.toNat d) → CleanLanes s t 0 [a.toNat] →
      let n := bytesOfX x.toNat
      let sa := fun l => BitVec.ofInt 32 ((slot t l a.toNat).toNat + BitVec.toInt o * n)
      (∀ l ∈ execLanes s t 0, (sa l).toNat % n = 0 ∧ scrAccess s t (sa l) n = some (u l, off l) ∧
        findTeam s (u l) = some (y l) ∧ scrPoisoned (y l) (off l) n = false) →
      ∃ s', exec (.lds d a x o) s = .next s' ∧
        Accepts s s' t (loadPend s t false false (execLanes s t 0) (fun l => (sa l).setWidth 64) (slotsOfX x.toNat d)
          (fun l => loadedWords x.toNat (fun j => sget 0 (y l).scr (off l + j))))) ∧
    (∀ d a x o, Accepted s t (.sts d a x o) ([a.toNat] ++ slotsOfX x.toNat d) →
      CleanLanes s t 0 ([a.toNat] ++ slotsOfX x.toNat d) →
      let n := bytesOfX x.toNat
      let sa := fun l => BitVec.ofInt 32 ((slot t l a.toNat).toNat + BitVec.toInt o * n)
      (∀ l ∈ execLanes s t 0, (sa l).toNat % n = 0 ∧ scrAccess s t (sa l) n = some (u l, off l)) →
      ∃ s', exec (.sts d a x o) s = .next s' ∧ Stored s s' t
        ((execLanes s t 0).zipIdx.map (fun l =>
          entryOf s t (.scr (u l.1)) l.2 (off l.1) (storedBytes x.toNat ((slotsOfX x.toNat d).map (slot t l.1)))))) ∧
    (∀ d a b m p, Accepted s t (.atoms d a b m p) ([a.toNat] ++ (if m = 9 then [b.toNat, b.toNat + 1] else [b.toNat]) ++
        predSlot p ++ [d.toNat]) →
      CleanLanes s t p ([a.toNat] ++ (if m = 9 then [b.toNat, b.toNat + 1] else [b.toNat]) ++ predSlot p) →
      (∀ l ∈ execLanes s t p, (slot t l a.toNat).toNat % 4 = 0 ∧ scrAccess s t (slot t l a.toNat) 4 = some (t.uid, off l) ∧
        scrPoisoned t (off l) 4 = false) → Apart (execLanes s t p) off 4 →
      ∃ s' t', exec (.atoms d a b m p) s = .next s' ∧ findTeam s' t.uid = some t' ∧
        t' = { t.movedTo (nextPlace t) with flags := t'.flags, scr := t'.scr, scrBad := t'.scrBad, pend := t'.pend } ∧
        Owes t' (t.pend ++ [loadPend s t false ((modsOf t).ord.getLsbD 0) (execLanes s t p)
          (fun l => (slot t l a.toNat).setWidth 64) [d.toNat]
          (fun l => [BitVec.ofNat 32 (leNat (fun j => sget 0 t.scr (off l + j)) 4)])]) ∧
        (∀ l ∈ execLanes s t p, leNat (fun j => sget 0 t'.scr (off l + j)) 4 =
          if m = 9 then
            (if leNat (fun j => sget 0 t.scr (off l + j)) 4 = (slot t l b.toNat).toNat then (slot t l (b.toNat + 1)).toNat
             else leNat (fun j => sget 0 t.scr (off l + j)) 4)
          else atomNew 4 m.toNat (leNat (fun j => sget 0 t.scr (off l + j)) 4) (slot t l b.toNat).toNat) ∧
        (∀ k, (∀ l ∈ execLanes s t p, ¬ (off l ≤ k ∧ k < off l + 4)) → sget 0 t'.scr k = sget 0 t.scr k) ∧
        (∀ k, homeByte s' k = homeByte s k))

/-- R78, R116, R117, R166: ldx owes each lane the eight elements at its address, decoded to BF16 with their scale. That a Q4N
block of infinite scale and zero byte is NaN is the model's choice (log entry 83, DEDUCED, from R79). -/
def Obligations.LdxDecodesElements : Prop :=
  ∀ (s : State) (t : Team) (d a : BitVec 5) (o : BitVec 9) (x : Nat → Xlat) (sc : Nat → Nat), NoStores s t →
    (∀ y ∈ s.l1, y.core ≠ t.core) → CleanLanes s t 0 [a.toNat, a.toNat + 1] →
    Accepted s t (.ldx d a o) ([a.toNat, a.toNat + 1] ++ slotsOfX 6 d) →
    (∀ l ∈ execLanes s t 0, translate s t.root (addrOf t l a o 8) .read (some [1, 2, 3, 4, 5]) = .ok (x l) ∧
      (addrOf t l a o 8).toNat % (if (x l).fmt < 4 then 8 else 4) = 0 ∧ isPeer (x l).pa = false ∧
      hopOf s (x l).pa 8 = 0 ∧ readsOwedSave s t (addrOf t l a o 8).toNat 8 = false ∧ scaleIs s (x l) (elemNo (addrOf t l a o 8) (x l)) (sc l)) →
    ∃ s', exec (.ldx d a o) s = .next s' ∧
      Accepts s s' t (loadPend s t ((modsOf t).cp == 2) false (execLanes s t 0) (fun l => addrOf t l a o 8) (slotsOfX 6 d)
        (fun l => decodedWords s (x l) (sc l)))

/-- R266: ld.acqp asks every core of its reach for a promotion, those of its cluster's rectangle and those that its teams have
moved to; a core that replies has none of its write-throughs under way but st.nt; with the last reply the lanes get the bytes
at the home and no line stays in the core's L1. -/
def Obligations.PromotionDrainsThenLoads : Prop :=
  (∀ (s : State) (t : Team) (d a : BitVec 5) (x : BitVec 1) (o : BitVec 9) (pa : Nat → Nat) (k : Cluster), NoStores s t →
    CleanLanes s t 0 [a.toNat, a.toNat + 1] → (modsOf t).scope = 0 →
    Accepted s t (.ldAcqp d a x o) ([a.toNat, a.toNat + 1] ++ slotsOfX (4 + x.toNat) d) →
    findCluster s t.ctx t.grid t.clus = some k →
    LanesHit s t (execLanes s t 0) .read (fun l => addrOf t l a o (bytesOfX (4 + x.toNat))) pa (bytesOfX (4 + x.toNat)) →
    ∃ s' p cores accs, exec (.ldAcqp d a x o) s = .next s' ∧ Accepts s s' t p ∧ p.wait = .promote cores accs ∧
      p.flag = t.clause.seta.toNat ∧ p.dests = (execLanes s t 0).flatMap (fun l => keysOf t l (slotsOfX (4 + x.toNat) d)) ∧
      (∀ c, c ∈ cores ↔ (∃ i < k.w * k.h, c = k.x0 + i % k.w + 64 * (k.y0 + i / k.w)) ∨
        ∃ x ∈ s.teams, x.ctx = t.ctx ∧ x.grid = t.grid ∧ x.clus = t.clus ∧ x.core = c) ∧
      accs.map (fun (y : Access) => (y.lane, y.pa)) = (execLanes s t 0).map (fun l => (l, pa l))) ∧
  (∀ (s : State) (t : Team) (p : Pend) (cores : List Nat) (accs : List Access) (c : Nat), findTeam s t.uid = some t →
    t.hold = none → t.pend = [p] → p.wait = .promote cores accs → c ∈ cores → peerWriteOut s c = false →
    ∃ s' t', exec (.promotionRequest t.uid c) s = .next s' ∧ (∀ e ∈ s'.stores, e.core = c → e.kind = .nt) ∧
      findTeam s' t.uid = some t' ∧
      t' = { t with
        pend := [{ p with wait := .promote (cores.filter (fun x => x != c)) accs }], scr := t'.scr, scrBad := t'.scrBad }) ∧
  (∀ (s : State) (t : Team) (p : Pend) (accs : List Access), findTeam s t.uid = some t → NoStores s t → t.hold = none →
    t.pend = [p] → p.wait = .promote [] accs → p.writes = [] →
    (∀ y ∈ accs, isPeer y.pa = false ∧ hopOf s y.pa y.size = 0 ∧ (y.size = 4 ∨ y.size = 8) ∧
      readsOwedSave s t y.va.toNat y.size = false) →
    ∃ s', exec (.promotionRepliesComplete t.uid) s = .next s' ∧ (∀ y ∈ s'.l1, y.core ≠ t.core) ∧
      (∀ b, homeByte s' b = homeByte s b) ∧
      findTeam s' t.uid = some { t with
        pend := [{ p with
          wait := .data, vas := p.vas ++ accs.map (fun y => (y.lane, y.va))
          writes := accs.flatMap (fun y =>
            y.dsts.zip (loadedWords (if y.size = 4 then 4 else 5) (memFrom s y.pa))) }] })

/-- R309, R313 to R316: cbar and gbar make a team wait until every team of its cluster, or of its grid, has arrived or ended, and
give up its role of current team (the last arrival too: log entry 94, the model's choice); the last arrival sends all of them on,
as an acquire. gbar in a grid without COOP traps. Every step ends with each role that nobody holds passed on. -/
def Obligations.BarriersWaitForAll : Prop :=
  (∀ (s : State) (c n : Nat) (g : Grid), findGrid s c n = some g → ∃ g', findGrid (passRoles s) c n = some g' ∧
    g' = { g with roles := g'.roles } ∧ g'.roles.length = g.roles.length ∧
    ∀ k (h : k < g.roles.length) (h' : k < g'.roles.length), RoleGoes s c g g.roles[k] g'.roles[k]) ∧
  ∀ (s : State) (t : Team), NoStores s t → arithLanes t = [] → t.place = .resident → t.trap = none → t.active ≠ 0 →
    (∀ k c, Accepted s t (.cbar k) [] → findCluster s t.ctx t.grid t.clus = some c →
      ((∃ x ∈ s.teams, x.uid ≠ t.uid ∧ inCluster t x ∧ x.index ≠ t.index ∧ x.index ∉ (findBar c k.toNat).arrived) →
        ∃ s' c', exec (.cbar k) s = .next s' ∧ (∀ u, u ≠ t.uid → findTeam s' u = findTeam s u) ∧
          Blocks s' t (.cbar k.toNat) ∧ RoleGiven s s' t ∧
          (∀ a, homeByte s' a = homeByte s a) ∧ findCluster s' t.ctx t.grid t.clus = some c' ∧ c' = { c with bars := c'.bars } ∧
          (∀ j, findBar c' j = if j = k.toNat then
            { findBar c j with arrived := t.index :: (findBar c j).arrived } else findBar c j)) ∧
      ((∀ x ∈ s.teams, inCluster t x → x.index = t.index ∨ x.index ∈ (findBar c k.toNat).arrived) →
        (∀ h, t.handler = some h → h.block ≠ some (.cbar k.toNat)) →
        ∃ s' c' t', exec (.cbar k) s = .next s' ∧ findTeam s' t.uid = some t' ∧ WentTo t t' (fun x => { x with block := none }) ∧
          RoleGiven s s' t ∧
          (∀ x ∈ s.teams, findTeam s x.uid = some x → x.uid ≠ t.uid → inCluster t x → x.handler = none → x.trap = none →
            x.active ≠ 0 → x.block = some (.cbar k.toNat) → findTeam s' x.uid = some (leaves x)) ∧
          (∀ y ∈ s'.l1, y.core ≠ t.core) ∧ (∀ a, homeByte s' a = homeByte s a) ∧
          findCluster s' t.ctx t.grid t.clus = some c' ∧
          findBar c' k.toNat = { findBar c k.toNat with gen := (findBar c k.toNat).gen + 1, arrived := [] })) ∧
    (∀ g, Accepted s t .gbar [] → t.hdr.coop = true → findGrid s t.ctx t.grid = some g →
      ((∃ x ∈ s.teams, x.uid ≠ t.uid ∧ inGrid t x ∧ logicalIx x ≠ logicalIx t ∧ logicalIx x ∉ g.gbarIn) →
        ∃ s', exec .gbar s = .next s' ∧ (∀ u, u ≠ t.uid → findTeam s' u = findTeam s u) ∧
          Blocks s' t .gbar ∧ RoleGiven s s' t ∧ (∀ a, homeByte s' a = homeByte s a) ∧
          (findGrid s' t.ctx t.grid).map noRoles = some (noRoles { g with gbarIn := logicalIx t :: g.gbarIn })) ∧
      ((∀ x ∈ s.teams, inGrid t x → logicalIx x = logicalIx t ∨ logicalIx x ∈ g.gbarIn) →
        (∀ h, t.handler = some h → h.block ≠ some .gbar) →
        ∃ s' t', exec .gbar s = .next s' ∧ findTeam s' t.uid = some t' ∧ WentTo t t' (fun x => { x with block := none }) ∧
          RoleGiven s s' t ∧
          (∀ x ∈ s.teams, findTeam s x.uid = some x → x.uid ≠ t.uid → inGrid t x → x.handler = none → x.trap = none →
            x.active ≠ 0 → x.block = some .gbar → findTeam s' x.uid = some (leaves x)) ∧
          (∀ y ∈ s'.l1, y.core ≠ t.core) ∧ (∀ a, homeByte s' a = homeByte s a) ∧
          (findGrid s' t.ctx t.grid).map noRoles = some (noRoles { g with gbarGen := g.gbarGen + 1, gbarIn := [] }))) ∧
    (∀ c recPa va pas, Accepted s t .gbar [] → t.hdr.coop = false → MayEnter s t c recPa va pas →
      ∃ s', exec .gbar s = .next s' ∧ Entered s s' t c recPa va pas (preciseRec t 0x0D 0 0))

/-- R319 to R322: mred posts the team's packet at its node; mredw makes the root's team owe the four result registers,
and where the tree is complete they hold the sum, the expiry mark and the contributors. A node other than the root with all its
inputs sends their sum to its parent; a partial that arrives in its limit is one more input there, one for a reduction that is
over is dropped; a child past its limit is given up. -/
def Obligations.ReductionsOnTheMesh : Prop :=
  (∀ (s : State) (t : Team) (c : Cluster), findCluster s t.ctx t.grid t.clus = some c → NoTrees s →
    (∀ a b h k, Accepted s t (.mred a b h k) [a.toNat, b.toNat] → packetHeld c t h.toNat = false →
      (∀ j < 32, slotPoisoned t j a.toNat = false ∧ readsPending s t j [a.toNat] = false) → t.active ≠ 0 →
      goodSlot s t b.toNat → (slot t (lowLane t.active) b.toNat).toNat < 2 ^ 24 →
      ∃ s' c' n, exec (.mred a b h k) s = .next s' ∧ (∀ u, u ≠ t.uid → findTeam s' u = findTeam s u) ∧
        findTeam s' t.uid = some { t.movedTo (nextPlace t) with
          mredCount := t.mredCount.setIfInBounds h.toNat (mreds t h.toNat + 1) } ∧
        (∀ x, homeByte s' x = homeByte s x) ∧
        findCluster s' t.ctx t.grid t.clus = some c' ∧ findNode c' h.toNat t.index (mreds t h.toNat) = some n ∧
        n.own = some ⟨(List.range 32).map (fun j => if t.dead.getLsbD j then none else some (slot t j a.toNat)),
          BitVec.ofNat 16 (2 ^ t.index), false, 0⟩ ∧
        n.col = (k == 1) ∧ n.win = (slot t (lowLane t.active) b.toNat).toNat ∧ n.start = some s.clk.toNat) ∧
    (∀ d h n, Accepted s t (.mredw d h) (slotsOfX 6 d) → t.index = 0 → packetHeld c t h.toNat = true →
      findNode c h.toNat 0 (mreds t h.toNat - 1) = some n →
      (nodeReady s c n = false → ∃ s' p, exec (.mredw d h) s = .next s' ∧ Accepts s s' t p ∧
        p.wait = .tree h.toNat (mreds t h.toNat - 1) ((slotsOfX 6 d).filterMap (slotReg t)) ∧
        p.flag = t.clause.seta.toNat) ∧
      (nodeReady s c n = true → mixedTree c h.toNat (mreds t h.toNat - 1) = false → (nodeSum c n).bad = 0 →
        t.handler = none → t.pend = [] →
        (∀ i < 4, ∀ j < 4, slotReg t (d.toNat + i) = slotReg t (d.toNat + j) → i = j) →
        (∀ x ∈ s.teams, x.ctx = t.ctx → x.grid = t.grid → x.clus = t.clus → x.index = 0 → x.uid = t.uid) →
        ∃ s' t', exec (.mredw d h) s = .next s' ∧ findTeam s' t.uid = some t' ∧
          (∀ l ∈ lanesOf (t.active ||| lowMask 32),
            slot t' l d.toNat = (if l < 32 then (((nodeSum c n).elems.getD l none).getD 0) else 0) ∧
            slot t' l (d.toNat + 1) = (if (nodeSum c n).expired then 1 else 0) ∧
            slot t' l (d.toNat + 2) = (nodeSum c n).contrib.setWidth 32 ∧ slot t' l (d.toNat + 3) = 0) ∧
          (∀ f < 12, flagOf t' f = flagOf t f)))) ∧
  (∀ (s : State) (cl ch node : Nat) (c : Cluster) (x : Node), s.clusters[cl]? = some c →
    c.nodes.find? (fun x => x.ch == ch && x.node == node && !x.sent && nodeReady s c x) = some x → node ≠ 0 → node < c.w * c.h →
    findCluster s c.ctx c.grid c.lin = some c →
    ∃ s' c', exec (.mredForward cl ch node) s = .next s' ∧ s'.teams = s.teams ∧ (∀ a, homeByte s' a = homeByte s a) ∧
      s'.partials = s.partials ++ [⟨c.ctx, c.grid, c.lin, ch, x.k, node, parentOf c.w x.col node, x.col, x.win, nodeSum c x⟩] ∧
      findCluster s' c.ctx c.grid c.lin = some c' ∧ ∃ y, findNode c' ch node x.k = some y ∧ y.sent = true) ∧
  (∀ (s : State) (k : Nat) (p : Partial) (c : Cluster), s.partials[k]? = some p → findCluster s p.ctx p.grid p.clus = some c →
    (reductionOver s c p = true →
      exec (.mredPartialArrival k) s = .next { s with partials := s.partials.eraseIdx k }) ∧
    (∀ x, reductionOver s c p = false → findNode c p.ch p.dst p.k = some x → childLate s c x p.src = false → NoTrees s →
      ∃ s' c', exec (.mredPartialArrival k) s = .next s' ∧ s'.partials = s.partials.eraseIdx k ∧ s'.teams = s.teams ∧
        findCluster s' p.ctx p.grid p.clus = some c' ∧
        findNode c' p.ch p.dst p.k = some
          { x with inputs := x.inputs ++ [(p.src, p.packet)], start := some (x.start.getD s.clk.toNat) })) ∧
  (∀ (s : State) (cl ch node child : Nat) (c : Cluster) (x : Node), s.clusters[cl]? = some c →
    findCluster s c.ctx c.grid c.lin = some c → NoTrees s → c.nodes = [x] → x.ch = ch → x.node = node → x.sent = false →
    child ∈ treeChildren c x.col node → childLate s c x child = true → x.inputs.all (fun i => i.1 != child) = true →
    child ∉ x.gaveUp →
    ∃ s' c', exec (.mredGiveUp cl ch node child) s = .next s' ∧ s'.teams = s.teams ∧
      findCluster s' c.ctx c.grid c.lin = some c' ∧ c'.nodes = [{ x with gaveUp := child :: x.gaveUp }])

/-- R317, R323, R324: wait reads its word at the home; a value that meets the condition is written in every active lane, as an
acquire, and the team goes on; any other leaves it blocked, and each wake-up reads again. A wait with X past its external
limit is counted by the hang detector; a hang traps the one waiting team of a context, here at a cbar, and starts the count
again. -/
def Obligations.WaitsAndHangs : Prop :=
  (∀ (s : State) (t : Team) (w : Word), NoStores s t → t.active ≠ 0 →
    (∀ d a b x k r, Accepted s t (.wait d a b x k) [a.toNat, a.toNat + 1, b.toNat, d.toNat] →
      goodSlot s t a.toNat → goodSlot s t (a.toNat + 1) → goodSlot s t b.toNat → slotReg t d.toNat = some r →
      wordHere s t (pairAddr t (lowLane t.active) a) w →
      (condHolds k.toNat w (slot t (lowLane t.active) b.toNat) →
        ∃ s' t', exec (.wait d a b x k) s = .next s' ∧ findTeam s' t.uid = some t' ∧
          WentTo t t' (fun x => { x with regs := t'.regs, regBad := t'.regBad, block := none }) ∧
          OneWord t t' r w ∧ (∀ y ∈ s'.l1, y.core ≠ t.core) ∧ (∀ c, homeByte s' c = homeByte s c)) ∧
      (¬ condHolds k.toNat w (slot t (lowLane t.active) b.toNat) →
        ∃ s', exec (.wait d a b x k) s = .next s' ∧ (∀ c, homeByte s' c = homeByte s c) ∧
          Blocks s' t (.wait (x == 1) k.toNat r (pairAddr t (lowLane t.active) a) (slot t (lowLane t.active) b.toNat) w
            s.clk.toNat false))) ∧
    (∀ ext k r va v last since lim, findTeam s t.uid = some t → t.place = .resident → t.trap = none →
      t.block = some (.wait ext k r va v last since lim) → r < 256 → k ≤ 5 → wordHere s t va w →
      (condHolds k w v → ∃ s' t', exec (.waitWakeup t.uid) s = .next s' ∧ findTeam s' t.uid = some t' ∧
        WentTo t t' (fun x => { x with icnt := t.icnt, regs := t'.regs, regBad := t'.regBad, block := none }) ∧
        OneWord t t' r w ∧ (∀ y ∈ s'.l1, y.core ≠ t.core)) ∧
      (¬ condHolds k w v → ∃ s', exec (.waitWakeup t.uid) s = .next s' ∧
        findTeam s' t.uid = some { t with block := some (.wait ext k r va v w since lim) }))) ∧
  (∀ (s : State) (t : Team) (c : Context) (k r : Nat) (va : DWord) (v last : Word) (since : Nat),
    findTeam s t.uid = some t → findCtx s t.ctx = some c → c.xlog ≠ 0 → since + 2 ^ c.xlog ≤ s.clk.toNat →
    t.block = some (.wait true k r va v last since false) →
    ∃ s', exec (.externalLimit t.uid) s = .next s' ∧
      Becomes s s' t { t with block := some (.wait true k r va v last since true) }) ∧
  (∀ (s : State) (n : Nat) (c : Context) (t : Team) (k : Nat), findCtx s n = some c → c.hlog ≠ 0 → 2 ^ c.hlog ≤ c.hangCount →
    findTeam s t.uid = some t → s.teams.filter (fun x => x.ctx == n && hangWaiting s x) = [t] → t.block = some (.cbar k) →
    exec (.hang n) s = .next (raiseWide (setCtx s { c with hangCount := 0 }) t 0x11 0
      (BitVec.ofNat 64 (2 ^ 60 + notArrived s t k * 2 ^ 40 + k * 2 ^ 32))))

/-- R107, R393 to R395: trefresh pins the context's current root; lease grants free granules as zeros, or answers why not;
unlease gives them to the scrubber. The model's choice, not a rule's: which granules a lease takes, the lowest free ones (log
entry 47, DEDUCED), and which it leaves to teams that wait for the core (log entry 26, DEDUCED). -/
def Obligations.RootPinAndLeases : Prop :=
  ∀ (s : State) (t : Team),
    (∀ c, Accepted s t .trefresh [] → findCtx s t.ctx = some c →
      ∃ s', exec .trefresh s = .next s' ∧ Becomes s s' t { t.movedTo (nextPlace t) with root := c.current }) ∧
    (∀ d a i r, Accepted s t (.lease d a i) [a.toNat, d.toNat] → t.hdr.harvest = true → t.active ≠ 0 → goodSlot s t a.toNat →
      slotReg t d.toNat = some r →
      let n := (leadWord t a).toNat
      let back := wordAfter t + BitVec.ofInt 32 (4 * immSigned (extOf t) i)
      let st : Nat := if 64 < n then 3 else if n = 0 then 0 else if t.leases ≠ [] then 2
        else if (leasable s t.core).length < n then 1 else 0
      headerAt s t back →
      ∃ s' t', exec (.lease d a i) s = .next s' ∧ Becomes s s' t t' ∧ OneWord t t' r (BitVec.ofNat 32 st) ∧
        t' = { t.movedTo (nextPlace t) with
          restart := back, regs := t'.regs, regBad := t'.regBad, pend := t'.pend
          leases := if st = 0 ∧ n ≠ 0 then (leasable s t.core).take n else t.leases
          scr := if st = 0 ∧ n ≠ 0 then [] else t.scr, scrBad := if st = 0 ∧ n ≠ 0 then [] else t.scrBad } ∧ Owes t' t.pend) ∧
    (Accepted s t .unlease [] → t.hdr.harvest = true → NoStores s t →
      ∃ s', exec .unlease s = .next s' ∧ (∀ u, u ≠ t.uid → findTeam s' u = findTeam s u) ∧
        (∀ a, homeByte s' a = homeByte s a) ∧
        findTeam s' t.uid = some (if t.leases = [] then t.movedTo (nextPlace t) else { t.movedTo (nextPlace t) with
          leases := [], scr := [], scrBad := [], queues := [] }) ∧
        (coreOf s' t.core).scrub = (coreOf s t.core).scrub ++ t.leases)

/-- R298 to R301, R361: launch answers 0 and puts a grid at the end of the context's queue, behind a release of the team's
stores; 2 for a malformed descriptor; 1 for a full queue. fwcall hands its block to firmware and blocks its team. That a
malformed descriptor answers 2 where the queue is full too is the model's choice (log entry 46, DEDUCED). -/
def Obligations.LaunchAndFirmwareCall : Prop :=
  ∀ (s : State) (t : Team) (d a : BitVec 5) (bs : List Byte), NoStores s t → t.active ≠ 0 → goodSlot s t a.toNat →
    OwnBlock t (leadWord t a) 64 bs →
    (∀ c r, Accepted s t (.launch d a) [a.toNat, d.toNat] → slotReg t d.toNat = some r → findCtx s t.ctx = some c →
      (LaunchFine bs → (c.grids.filter Grid.entered).length < 256 →
        ∃ s' g k, exec (.launch d a) s = .next s' ∧ WroteAll s s' t r 0 ∧
          findCtx s' t.ctx = some { c with grids := c.grids ++ [g], nextGrid := (c.nextGrid + 1) % 2 ^ 32 } ∧
          (g.num = c.nextGrid ∧ g.st = .queued ∧ g.held = false ∧ g.release = some k ∧
            g.desc.khdr.toNat = fieldAt bs 0 8 ∧ g.desc.code.toNat = fieldAt bs 8 8 ∧ g.desc.param.toNat = fieldAt bs 16 8 ∧
            g.desc.gx.toNat = fieldAt bs 24 4 ∧ g.desc.gy.toNat = fieldAt bs 28 4 ∧ g.desc.gz.toNat = fieldAt bs 32 4 ∧
            g.desc.ctl.toNat = fieldAt bs 36 4 ∧ g.desc.indv.toNat = fieldAt bs 40 8 ∧ g.desc.done.toNat = fieldAt bs 48 8) ∧
          s'.stores = s.stores ++ [entryOf s t .launch 0 0 []] ∧ k = s.nextSeq) ∧
      (¬ LaunchFine bs → ∃ s', exec (.launch d a) s = .next s' ∧ WroteAll s s' t r 2 ∧ s'.contexts = s.contexts) ∧
      (LaunchFine bs → 256 ≤ (c.grids.filter Grid.entered).length →
        ∃ s', exec (.launch d a) s = .next s' ∧ WroteAll s s' t r 1 ∧ s'.contexts = s.contexts)) ∧
    (∀ k, Accepted s t (.fwcall d a k) [a.toNat, d.toNat, d.toNat + 1] →
      ∃ s', exec (.fwcall d a k) s = .next s' ∧ (∀ u, u ≠ t.uid → findTeam s' u = findTeam s u) ∧
        (∀ b, homeByte s' b = homeByte s b) ∧
        Blocks s' t (.fwcall k.toNat (regsAt t d 2) (leadWord t a) bs none s.clk.toNat false))

/-- R341, R343, R344: with nothing of the handler under way and the frame's place unedited, tret goes back to the stopped word
for the lanes that frame and entry name, tret.skip to the word after it; both restore v0 to v7 from the frame, and the bindings,
stack and active lanes of the entry. A handler with something under way waits. -/
def Obligations.TrapReturnRestores : Prop :=
  ∀ (s : State) (t : Team) (k : BitVec 1) (h : Handler), Accepted s t (.tret k) [] → t.handler = some h →
    (handlerIdle s t = false → ∃ s', exec (.tret k) s = .next s' ∧
      OnlyTeam s s' t.uid ∧ Blocks s' t (.tret (k == 1))) ∧
    (∀ (pas : List Nat) (rm : Mask), handlerIdle s t = true → NoStores s t → h.delivered = [] → h.block = none →
      framePas s t h.frameVa.toNat = some pas → t.hdr.regs ≤ 256 →
      let at_ := fun i => pas.getD (i / 1024) 0 + i % 1024
      (∀ i < 1024 + 4096 * t.hdr.grps, lineHop s (at_ i / 64) = 0) →
      leNat (fun j => homeByte s (at_ j)) 4 = h.hdrPc.toNat → (homeByte s (at_ 4)).toNat = h.wix → h.wix = h.stop → h.stop ≠ 0 →
      (∀ l < 1024, rm.getLsbD l = true ↔ (homeByte s (at_ (16 + l / 8))).getLsbD (l % 8) = true ∧
        h.rmask.getLsbD l = true ∧ t.live.getLsbD l = true) →
      h.amask &&& t.live ≠ 0 → (k = 1 ∨ rm ≠ 0) →
      ∃ s' t', exec (.tret k) s = .next s' ∧ findTeam s' t.uid = some t' ∧
        (∀ u, u ≠ t.uid → findTeam s' u = findTeam s u) ∧ (∀ b, homeByte s' b = homeByte s b) ∧
        (let back := { t with pc := h.pc, wix := h.stop, clause := h.clause }
         let place : Word × Nat := if k = 1 then nextPlace back else (h.pc, h.stop)
         t' = { t.movedTo place with
           pend := t'.pend, binds := h.binds, stack := t.stack.drop (t.stack.length - h.base), handler := none, block := none
           active := h.amask &&& t.live, clause := h.clause, resume := if k = 1 then none else some rm
           regs := t'.regs, regBad := t'.regBad }) ∧ Owes t' t.pend ∧
        (∀ l < t.hdr.lanes, ∀ i < 8, (reg t' l i).toNat =
          leNat (fun j => homeByte s (at_ (1024 + 4096 * (l / 128) + 512 * i + 4 * (l % 128) + j))) 4) ∧
        (∀ l r, r < 256 → ¬ (l < t.hdr.lanes ∧ r < 8) → reg t' l r = reg t l r))

/-- R21, R149 to R153: qinit opens a queue in the team's own scratchpad with an equal allowance for each producer, and closes an
idle one; qsend appends its handle, or waits without allowance; qrecv and qtry take the oldest handle into the lanes that their
predicate selects; qrecv waits at an empty queue and qtry answers zeros. Where the predicate selects no lane each only goes on
(log entry 84). -/
def Obligations.QueuesPassHandles : Prop :=
  ∀ (s : State) (t : Team) (p : BitVec 2), NoStores s t → NoQueueWaits s → t.place = .resident →
    (∀ l ∈ lanesOf t.active, knownIn s t l (predSlot p)) →
    (picked t p = [] → ∀ i,
      ((∃ a b, i = .qinit a b p ∧ Accepted s t i ([a.toNat, b.toNat] ++ predSlot p)) ∨
        (∃ a b, i = .qsend a b p ∧ Accepted s t i ([a.toNat, b.toNat, b.toNat + 1] ++ predSlot p)) ∨
        (∃ d a, i = .qrecv d a p ∧ Accepted s t i ([a.toNat] ++ predSlot p ++ [d.toNat, d.toNat + 1])) ∨
        ∃ d a, i = .qtry d a p ∧ Accepted s t i ([a.toNat] ++ predSlot p ++ [d.toNat, d.toNat + 1, d.toNat + 2, d.toNat + 3])) →
      ∃ s' t', exec i s = .next s' ∧ Becomes s s' t t' ∧ WentTo t t' id) ∧
    ∀ l, Leads t p l →
    (∀ a b, Accepted s t (.qinit a b p) ([a.toNat, b.toNat] ++ predSlot p) → knownIn s t l [a.toNat, b.toNat] →
      let base := slot t l a.toNat
      let cw := (slot t l b.toNat).toNat
      let n := cw % 16
      let lcap := cw / 256 % 16
      let pm : BitVec 16 := BitVec.ofNat 16 (cw / 65536)
      cw / 16 % 16 = 0 → cw / 4096 % 16 = 0 → lcap ≤ 8 →
      (∀ bs, pm ≠ 0 → OwnBlockAt { t with scrBad := [] } base 8 (8 * 2 ^ lcap) bs → findQueue t n = none →
        2 ^ lcap / popCount16 pm ≠ 0 →
        ∃ s' t', exec (.qinit a b p) s = .next s' ∧ Becomes s s' t t' ∧ WentTo t t' (fun x => { x with
          queues := t.queues ++ [⟨n, base.toNat % 2 ^ 24, lcap, 0, 0, [], pm,
            (List.range 16).map (fun k => if pm.getLsbD k then 2 ^ lcap / popCount16 pm else 0)⟩] })) ∧
      (∀ q, pm = 0 → findQueue t n = some q → q.entries = [] →
        ∃ s' t', exec (.qinit a b p) s = .next s' ∧ Becomes s s' t t' ∧
          WentTo t t' (fun x => { x with queues := t.queues.filter (fun y => y.q != n) }))) ∧
    (∀ a b o n q, Accepted s t (.qsend a b p) ([a.toNat, b.toNat, b.toNat + 1] ++ predSlot p) →
      knownIn s t l [a.toNat, b.toNat, b.toNat + 1] → queueName s t (slot t l a.toNat) = some (o, n) →
      findTeam s o.uid = some o → findQueue o n = some q → q.pmask.getLsbD t.index = true →
      (0 < q.allow.getD t.index 0 →
        ∃ s' t' o' q', exec (.qsend a b p) s = .next s' ∧ findTeam s' t.uid = some t' ∧ (t'.pc, t'.wix) = nextPlace t ∧
          t'.block = none ∧ t'.regs = t.regs ∧ t'.icnt = (counted t).icnt ∧ findTeam s' o.uid = some o' ∧
          findQueue o' n = some q' ∧ q'.entries = q.entries ++ [(pairAddr t l b, t.index)] ∧
          (t.index < q.allow.length → q'.allow.getD t.index 0 = q.allow.getD t.index 0 - 1) ∧
          (∀ i < 8, sget 0 o'.scr (q.base + 8 * (q.tail % 2 ^ q.lcap) + i) =
            BitVec.ofNat 8 ((pairAddr t l b).toNat / 256 ^ i))) ∧
      (q.allow.getD t.index 0 = 0 → ∃ s', exec (.qsend a b p) s = .next s' ∧
        Blocks s' t (.qsend o.uid n (pairAddr t l b) (slot t l a.toNat)) ∧ ∀ u, u ≠ t.uid → findTeam s' u = findTeam s u)) ∧
    (∀ a n q, knownIn s t l [a.toNat] → queueName s t (slot t l a.toNat) = some (t, n) → findQueue t n = some q →
      (∀ d, Accepted s t (.qrecv d a p) ([a.toNat] ++ predSlot p ++ [d.toNat, d.toNat + 1]) → q.entries = [] →
        ∃ s', exec (.qrecv d a p) s = .next s' ∧
          Blocks s' t (.qrecv n (regsAt t d 2) (maskOf (picked t p)) t.clause.seta.toNat (slot t l a.toNat))) ∧
      (∀ d, Accepted s t (.qtry d a p) ([a.toNat] ++ predSlot p ++ [d.toNat, d.toNat + 1, d.toNat + 2, d.toNat + 3]) →
        q.entries = [] →
        ∃ s' p', exec (.qtry d a p) s = .next s' ∧ Accepts s s' t p' ∧ p'.flag = t.clause.seta.toNat ∧
          p'.writes = (picked t p).flatMap (fun l => (regsAt t d 4).map (fun r => (regKey l r, 0)))) ∧
      (∀ h k rest, q.entries = (h, k) :: rest →
        (List.range 8).map (fun i => sget 0 t.scr (q.base + 8 * (q.head % 2 ^ q.lcap) + i)) = bytesOf 8 h.toNat →
        (∀ d, Accepted s t (.qrecv d a p) ([a.toNat] ++ predSlot p ++ [d.toNat, d.toNat + 1]) →
          ∃ s' t' p', exec (.qrecv d a p) s = .next s' ∧ findTeam s' t.uid = some t' ∧
            t' = { t.movedTo (nextPlace t) with pend := t'.pend, queues := t'.queues, flags := t'.flags, block := none } ∧
            Owes t' (t.pend ++ [p']) ∧
            p'.writes = (picked t p).flatMap (fun l =>
              ((regsAt t d 2).zip [BitVec.ofNat 32 h.toNat, BitVec.ofNat 32 (h.toNat / 2 ^ 32)]).map (fun x =>
                (regKey l x.1, x.2))) ∧
            (∃ q', findQueue t' n = some q' ∧ q'.entries = rest ∧
              (k < q.allow.length → q'.allow.getD k 0 = q.allow.getD k 0 + 1)) ∧ (∀ y ∈ s'.l1, y.core ≠ t.core)) ∧
        (∀ d, Accepted s t (.qtry d a p) ([a.toNat] ++ predSlot p ++ [d.toNat, d.toNat + 1, d.toNat + 2, d.toNat + 3]) →
          ∃ s' t' p', exec (.qtry d a p) s = .next s' ∧ findTeam s' t.uid = some t' ∧
            t' = { t.movedTo (nextPlace t) with pend := t'.pend, queues := t'.queues, flags := t'.flags } ∧
            Owes t' (t.pend ++ [p']) ∧
            p'.writes = (picked t p).flatMap (fun l =>
              ((regsAt t d 4).zip [BitVec.ofNat 32 h.toNat, BitVec.ofNat 32 (h.toNat / 2 ^ 32), 1, 0]).map (fun x =>
                (regKey l x.1, x.2))) ∧
            (∃ q', findQueue t' n = some q' ∧ q'.entries = rest))))

/-- R118, R121 to R126, R133, R134: tcopy, tcopyx and tfill put a command of their descriptor on its queue, and the team goes on;
tcopy.y waits for it. tquery tells of the queues. -/
def Obligations.CopyCommandsQueue : Prop :=
  ∀ (s : State) (t : Team) (a : BitVec 5) (bs : List Byte), NoStores s t → t.active ≠ 0 →
    (goodSlot s t a.toNat → OwnBlock t (leadWord t a) 128 bs → CopyRoom s t →
      (∀ f, Accepted s t (.tcopy a f) [a.toNat] → copyChecks (parseCopy (issueOf s t none) .copy bs) bs = [] →
        ∃ s', exec (.tcopy a f) s = .next s' ∧ WentOn s s' t (flagFor t f) ∧ CopyPosted s s' t (flagFor t f) .copy bs) ∧
      (∀ b f, Accepted s t (.tcopyx a b f) [a.toNat, b.toNat] → goodSlot s t b.toNat →
        copyChecks (parseCopy (issueOf s t none) (.extent (leadWord t b)) bs) bs = [] →
        ∃ s', exec (.tcopyx a b f) s = .next s' ∧ WentOn s s' t (flagFor t f) ∧
          CopyPosted s s' t (flagFor t f) (.extent (leadWord t b)) bs) ∧
      (∀ b f, Accepted s t (.tfill a b f) [a.toNat, b.toNat] → goodSlot s t b.toNat →
        copyChecks (parseCopy (issueOf s t none) (.fill 0) bs) bs = [] →
        (fieldAt bs 16 4 / 2 ^ 16 % 16 = 6 →
          b.toNat % 2 = 0 ∧ (slotReg t (b.toNat + 1)).isSome = true ∧ goodSlot s t (b.toNat + 1)) →
        ∃ s' v, exec (.tfill a b f) s = .next s' ∧ WentOn s s' t (flagFor t f) ∧ CopyPosted s s' t (flagFor t f) (.fill v) bs ∧
          v.setWidth 32 = leadWord t b ∧ (fieldAt bs 16 4 / 2 ^ 16 % 16 = 6 → v = leadPair t b)) ∧
      (∀ i, Accepted s t (.tcopyY a i) [a.toNat] → copyChecks (parseCopy (issueOf s t none) .copy bs) bs = [] →
        headerAt s t (target t i) →
        ∃ s' n, exec (.tcopyY a i) s = .next s' ∧ CopyPosted s s' t none .copy bs ∧ Blocks s' t (.copy n (target t i)) ∧
          (∀ u, u ≠ t.uid → findTeam s' u = findTeam s u) ∧ ∀ b, homeByte s' b = homeByte s b)) ∧
    (∀ d sel r, Accepted s t (.tquery d sel) [d.toNat] → slotReg t d.toNat = some r →
      let mine := ((coreOf s t.core).copy0 ++ (coreOf s t.core).copy1).filter (fun x => x.iss.uid == t.uid)
      let froze := mine.filter (fun x => x.stage == .frozen)
      ∃ s' v, exec (.tquery d sel) s = .next s' ∧ WroteAll s s' t r v ∧
        (sel = 0 → v = BitVec.ofNat 32 (32 - copyUsed s (coreOf s t.core).copy0)) ∧
        (sel = 1 → v = BitVec.ofNat 32 (32 - copyUsed s (coreOf s t.core).copy1)) ∧
        (sel = 2 → v = BitVec.ofNat 32 mine.length) ∧ (sel = 3 → v = BitVec.ofNat 32 froze.length) ∧
        (sel = 4 → froze = [] → v = 0) ∧
        (∀ x ∈ froze, sel = 4 → (∀ y ∈ froze, y ≠ x → x.iss.seq < y.iss.seq) → v = BitVec.ofNat 32 x.n))

/-- R119, R120, R124, R127, R131: the front copy command starts when it has its leave; a command whose destinations have a home
and overlap no source and no other destination writes each element's value, and nothing else; a command whose first element
faults freezes with its record, and holds the later commands of its team. The model's choice, not a rule's: the bytes that the
cost of a copy counts, half bytes in pages of four-bit formats (log entry 97, DEDUCED), and that a command acts as a whole where
it completes (log entry 32, DEDUCED). -/
def Obligations.CopyEngineRuns : Prop :=
  ∀ (s : State) (core : Nat) (q : Bool) (c : CopyCmd), copyFront s core q = some c → s.bubble = none →
    (c.stage ≠ .running → (∀ e ∈ s.stores, e.uid ≠ c.iss.uid ∧ ¬ (e.core = core ∧ e.shown = true)) →
      ((c.ne * (if c.mode = 3 then pageNibs s c.iss.root c.dst else copyNibs c.dfmt) + 1) / 2 ≤ 65536 ∨ c.iss.seq ∈ (dieOf s (dieOfCore core)).granted) →
      ∃ s', exec (.copyStart core q) s = .next s' ∧ s'.teams = s.teams ∧ (∀ a, homeByte s' a = homeByte s a) ∧
        copyQ (coreOf s' core) q = (copyQ (coreOf s core) q).map (fun x =>
          if x.iss.seq = c.iss.seq then
            { c with
              stage := .running, mark := if c.n = 0 then s.journal.length else c.mark, draw := if c.n = 0 then s.fresh else c.draw }
          else x)) ∧
    (∀ (pa v : Nat → Nat) (ks : Nat → List Nat), s.Inv → c.stage = .running → c.n = 0 → c.mode ≠ 3 → 2 ≤ copyNibs c.dfmt →
      s.journal.length ≤ c.born → s.journal.length ≤ c.mark →
      let size := copyNibs c.dfmt / 2
      let here := fun n a => pa n ≤ a ∧ a < pa n + size
      (∀ n < c.ne, copyVal s c n = (s, .val (v n) (ks n)) ∧ copyDst s c n = (2 * pa n, none) ∧ pa n + size ≤ 2 ^ 46 ∧
        ∀ i < size, isPeer (pa n + i) = false) →
      (∀ m < c.ne, ∀ n < c.ne, m ≠ n → pa m + size ≤ pa n ∨ pa n + size ≤ pa m) →
      (∀ n < c.ne, ∀ k ∈ ks n, ∀ m < c.ne, ¬ here m k) →
      ∃ s', exec (.copyComplete core q) s = .next s' ∧
        (∀ n < c.ne, ∀ i < size, homeByte s' (pa n + i) = BitVec.ofNat 8 (v n / 256 ^ i)) ∧
        (∀ a, (∀ n < c.ne, ¬ here n a) → homeByte s' a = homeByte s a) ∧
        copyQ (coreOf s' core) q = (copyQ (coreOf s core) q).filter (fun x => x.iss.seq != c.iss.seq) ∧
        (∀ t, findTeam s c.iss.uid = some t → t.block = none → ∃ t', findTeam s' t.uid = some t' ∧
          t' = { t with flags := t'.flags } ∧
          ∀ k < 12, flagOf t' k = flagOf t k - if c.iss.flag = some k then 1 else 0)) ∧
    (∀ f, c.stage = .running → c.n = 0 → copyFault s c = some (0, f) →
      ∃ s', exec (.copyFreeze core q) s = .next s' ∧ s'.teams = s.teams ∧ (∀ a, homeByte s' a = homeByte s a) ∧
        copyQ (coreOf s' core) q = (copyQ (coreOf s core) q).map (fun x =>
          if x.iss.seq = c.iss.seq then frozenCopy c s.journal.length (frozenRec c.iss f.cls f.addr f.aux)
          else if x.iss.uid = c.iss.uid ∧ c.iss.seq < x.iss.seq ∧ (x.stage.queued = true ∨ x.stage = .returning) ∧
              x.iss.handler = false then
            { x with stage := .heldBack }
          else x))

/-- R219, R224 to R226, R231 to R239, R246 to R253: with room in its core's queue each matrix and sieve instruction posts a
command with the operands it reads at issue, and the team goes on; with the queue full it does nothing and is tried again. That
mpair pairs at once for later commands, with an entry of its own in the queue, is the model's choice (log entry 41, DEDUCED). -/
def Obligations.MatrixCommandsQueue : Prop :=
  ∀ (s : State) (t : Team), t.active ≠ 0 → NoStores s t →
    (matUsed s t.core < 32 →
      (∀ a b f k q, Accepted s t (.wload a b f k q) (baseAt a q ++ [b.toNat]) → (∀ n ∈ baseAt a q ++ [b.toNat], goodSlot s t n) →
        ¬ (k = 5 ∧ q = 1) → ∃ s', exec (.wload a b f k q) s = .next s' ∧ WentOn s s' t (flagFor t f) ∧
          MatPosted s s' t (flagFor t f) (.wload (leadBase t a q) ((leadWord t b).setWidth 64) k.toNat (q == 1))) ∧
      (Accepted s t .mswap [] → ∃ s', exec .mswap s = .next s' ∧ WentOn s s' t none ∧ MatPosted s s' t none .mswap) ∧
      (∀ n u, Accepted s t (.mzero n u) [] → u.toNat + n.toNat + 1 ≤ t.hdr.accum →
        ∃ s', exec (.mzero n u) s = .next s' ∧ WentOn s s' t none ∧ MatPosted s s' t none (.mzero (n.toNat + 1) u.toNat)) ∧
      (∀ a b f u k w, Accepted s t (.mma a b f u k w) (seqFrom a.toNat 16 ++ if 5 ≤ k.toNat ∧ k.toNat ≤ 8 then [b.toNat] else []) →
        u.toNat + t.hdr.grps ≤ t.hdr.accum → ∃ s', exec (.mma a b f u k w) s = .next s' ∧ WentOn s s' t (flagFor t f) ∧
          MatPosted s s' t (flagFor t f) (.mma (regsAt t a 16)
            (if 5 ≤ k.toNat ∧ k.toNat ≤ 8 then slotReg t b.toNat else none) u.toNat k.toNat (w == 1) t.active)) ∧
      (∀ a b f u k w, Accepted s t (.mmas a b f u k w) [a.toNat, b.toNat] → goodSlot s t a.toNat → goodSlot s t b.toNat →
        u.toNat < t.hdr.accum → (leadWord t b).toNat % 256 ≤ 127 → (leadWord t a).toNat % 4 = 0 →
        (leadWord t b).toNat / 256 % 4 = 0 → ∃ s', exec (.mmas a b f u k w) s = .next s' ∧ WentOn s s' t (flagFor t f) ∧
          MatPosted s s' t (flagFor t f) (.mmas (leadWord t a) (leadWord t b) u.toNat k.toNat (w == 1))) ∧
      (∀ a f u r, Accepted s t (.mscale a f u) [a.toNat] → u.toNat + t.hdr.grps ≤ t.hdr.accum → slotReg t a.toNat = some r →
        ∃ s', exec (.mscale a f u) s = .next s' ∧ WentOn s s' t (flagFor t f) ∧
          MatPosted s s' t (flagFor t f) (.mscale r u.toNat t.active)) ∧
      (∀ a b f u k q, Accepted s t (.mdrain a b f u k q) (baseAt a q ++ [b.toNat, b.toNat + 1]) →
        (∀ n ∈ baseAt a q ++ [b.toNat, b.toNat + 1], goodSlot s t n) → u.toNat < t.hdr.accum →
        (slot t (lowLane t.active) (b.toNat + 1)).toNat % 256 ≤ 127 → (leadBase t a q).toNat % 16 = 0 →
        (leadWord t b).toNat % 16 = 0 → ∃ s', exec (.mdrain a b f u k q) s = .next s' ∧ WentOn s s' t (flagFor t f) ∧
          MatPosted s s' t (flagFor t f) (.mdrain (leadBase t a q) ((leadWord t b).setWidth 64)
            (slot t (lowLane t.active) (b.toNat + 1)) u.toNat k.toNat (q == 1))) ∧
      (∀ d g u, Accepted s t (.mread d g u) (seqFrom d.toNat 8) → u.toNat + t.hdr.grps ≤ t.hdr.accum →
        ∃ s' p, exec (.mread d g u) s = .next s' ∧ Accepts s s' t p ∧ p.wait = .matrix ∧ p.flag = t.clause.seta.toNat ∧
          p.dests = (lanesOf t.active).flatMap (fun l => (regsAt t d 8).map (regKey l)) ∧
          MatPosted s s' t none (.mread (regsAt t d 8) u.toNat g.toNat t.active)) ∧
      (∀ a b f, Accepted s t (.scfg a b f) [a.toNat, b.toNat, b.toNat + 1] →
        (∀ n ∈ [a.toNat, b.toNat, b.toNat + 1], goodSlot s t n) →
        let ctl := slot t (lowLane t.active) (b.toNat + 1)
        ctl.toNat / 2 ^ 12 % 16 = 0 → ctl.getLsbD 3 = false → (leadWord t a).toNat % 4 = 0 → ctl.toNat / 2 ^ 16 % 4 = 0 →
        ∃ s', exec (.scfg a b f) s = .next s' ∧ WentOn s s' t (flagFor t f) ∧
          MatPosted s s' t (flagFor t f) (.scfg (leadWord t a) (leadWord t b) ctl)) ∧
      (∀ a b f bs r, Accepted s t (.sieve a b f) [a.toNat, b.toNat] → goodSlot s t a.toNat → OwnBlock t (leadWord t a) 32 bs →
        sieveBad bs = false → slotReg t b.toNat = some r →
        ∃ s', exec (.sieve a b f) s = .next s' ∧ WentOn s s' t (flagFor t f) ∧
          MatPosted s s' t (flagFor t f) (.sieve (sieveDesc bs) r)) ∧
      (∀ a b f u m bs r0 r1, Accepted s t (.mmak a b f u m) [a.toNat, b.toNat, m.toNat, b.toNat + 1] →
        goodSlot s t a.toNat → goodSlot s t b.toNat →
        (∀ l < 32, slotPoisoned t l m.toNat = false ∧ readsPending s t l [m.toNat] = false) →
        OwnBlock t (leadWord t a) 32 bs → sieveBad bs = false → u.toNat < t.hdr.accum →
        slotReg t b.toNat = some r0 → slotReg t (b.toNat + 1) = some r1 → r0 ≠ r1 →
        let nt := (sieveDesc bs).sctl.toNat % 1024 + 1
        let kept := ((List.range nt).filter (fun j =>
          decide ((leadWord t b).toNat ≤ j) && (slot t (j / 32) m.toNat).getLsbD (j % 32))).take 4
        ∃ s' t', exec (.mmak a b f u m) s = .next s' ∧ MatPosted s s' t (flagFor t f) (.mmak (sieveDesc bs) kept u.toNat) ∧
          findTeam s' t.uid = some t' ∧ WentTo t t' (fun x => { x with
            regs := t'.regs, regBad := t'.regBad, flags := t'.flags, pairCount := t'.pairCount }) ∧
          ∀ l ∈ lanesOf t.active, reg t' l r0 = BitVec.ofNat 32 (if kept.length < 4 then nt else kept.getLastD 0 + 1) ∧
            reg t' l r1 = BitVec.ofNat 32 kept.length)) ∧
    (Accepted s t .mfence [] → ∃ s', exec .mfence s = .next s' ∧ WentOn s s' t none ∧ MatPosted s s' t none .mfence) ∧
    (∀ y o, t.hdr.harvest = false → matUsed s t.core < 32 → Accepted s t (.mpair o) [] →
      s.teams.filter (fun x => x.ctx == t.ctx && x.grid == t.grid && x.clus == t.clus && x.core == t.core ^^^ 1) = [y] →
      ∃ s' t', exec (.mpair o) s = .next s' ∧ findTeam s' t.uid = some t' ∧
        WentTo t t' (fun x => { x with paired := if o = 1 then some (y.uid, t.core % 2 == 0) else none }) ∧
        (∀ u, u ≠ t.uid → findTeam s' u = findTeam s u) ∧ (∀ b, homeByte s' b = homeByte s b) ∧ s'.stores = s.stores ∧
        MatPosted s s' t none .mpair) ∧
    (32 ≤ matUsed s t.core →
      (Accepted s t .mswap [] → exec .mswap s = .next s) ∧
      (∀ n u, Accepted s t (.mzero n u) [] → u.toNat + n.toNat + 1 ≤ t.hdr.accum → exec (.mzero n u) s = .next s) ∧
      (∀ a b f k q, Accepted s t (.wload a b f k q) (baseAt a q ++ [b.toNat]) → (∀ n ∈ baseAt a q ++ [b.toNat], goodSlot s t n) →
        ¬ (k = 5 ∧ q = 1) → exec (.wload a b f k q) s = .next s) ∧
      (∀ a b f u k w, Accepted s t (.mma a b f u k w) (seqFrom a.toNat 16 ++ if 5 ≤ k.toNat ∧ k.toNat ≤ 8 then [b.toNat] else []) →
        u.toNat + t.hdr.grps ≤ t.hdr.accum → exec (.mma a b f u k w) s = .next s) ∧
      (∀ a f u, Accepted s t (.mscale a f u) [a.toNat] → u.toNat + t.hdr.grps ≤ t.hdr.accum → exec (.mscale a f u) s = .next s) ∧
      (∀ d g u, Accepted s t (.mread d g u) (seqFrom d.toNat 8) → u.toNat + t.hdr.grps ≤ t.hdr.accum →
        exec (.mread d g u) s = .next s) ∧
      (∀ y o, t.hdr.harvest = false → Accepted s t (.mpair o) [] →
        s.teams.filter (fun x => x.ctx == t.ctx && x.grid == t.grid && x.clus == t.clus && x.core == t.core ^^^ 1) = [y] →
        exec (.mpair o) s = .next s))

/-- R219, R222, R227, R229, R234, R241, R242: the command at the front of a core's matrix queue starts when it has its leave,
with the planes exchanged first where its SW asks for that. A row format that the plane's tag does not pair with freezes its
command at its first row, with no effect but the record. Two posted commands of a pair of one kind stream from the later of
their rows; of two kinds both freeze; a post without its partner's for 4,096 cycles freezes. -/
def Obligations.MatrixCommandsStartOrFreeze : Prop :=
  (∀ (s : State) (core : Nat) (c : MatCmd) (t : Team), matFront s core = some c → s.bubble = none → c.stage ≠ .running →
    c.op ≠ .mfence → (c.op.heavy = true → c.iss.seq ∈ (dieOf s (dieOfCore core)).granted) →
    (∀ e ∈ s.stores, e.uid ≠ c.iss.uid ∧ ¬ (e.core = core ∧ e.shown = true)) → findTeam s c.iss.uid = some t →
    ∃ s', exec (.matrixCommandStart core) s = .next s' ∧
      (∀ u, u ≠ t.uid → findTeam s' u = findTeam s u) ∧ (∀ a, homeByte s' a = homeByte s a) ∧
      (coreOf s' core).plane = some c.iss.uid ∧
      (coreOf s' core).mat = replaced (coreOf s core).mat c { c with
        stage := .running, swapped := c.swapped || c.op.swaps, cfg := some (c.cfg.getD t.sieve)
        posted := if c.pair = none then none else some s.clk.toNat } ∧
      findTeam s' t.uid = some (if c.op.swaps = true ∧ c.swapped = false then
        { t with plane := t.shadow, shadow := t.plane } else t)) ∧
  (∀ (s : State) (core : Nat) (c : MatCmd) (t : Team) (a : List Nat) (b : Option Nat) (u af : Nat) (sw : Bool) (lanes : Mask),
    MatRuns s core c t → c.op = .mma a b u af sw lanes → lanes ≠ 0 → pairOk af t.plane.tag = false →
    ∃ s', exec (.matrixFreeze core) s = .next s' ∧ s'.teams = s.teams ∧ (∀ x, homeByte s' x = homeByte s x) ∧
      (coreOf s' core).mat = replaced (coreOf s core).mat c (frozenMat c 0 (frozenRec c.iss 0x01 0
        (BitVec.ofNat 64 (c.iss.word.toNat + 0x12 * 2 ^ 32 + af * 2 ^ 40 + t.plane.tag * 2 ^ 44))))) ∧
  (∀ (s : State) (core : Nat), s.bubble = none →
    (∀ c other d, postedPair s core = some (c, other, d) → other ≠ core →
      (c.op.kind = d.op.kind → ∃ s', exec (.mpairCinch core) s = .next s' ∧ s'.teams = s.teams ∧
        (coreOf s' core).mat = replaced (coreOf s core).mat c { c with posted := none, n := max c.n d.n } ∧
        (coreOf s' other).mat = replaced (coreOf s other).mat d { d with posted := none, n := max c.n d.n }) ∧
      (c.op.kind ≠ d.op.kind → ∃ s', exec (.mpairLate core) s = .next s' ∧ s'.teams = s.teams ∧
        (coreOf s' core).mat = replaced (coreOf s core).mat c (frozenMat c c.n (frozenRec c.iss 0x13 0 2)) ∧
        (coreOf s' other).mat = replaced (coreOf s other).mat d (frozenMat d d.n (frozenRec d.iss 0x13 0 2)))) ∧
    (∀ c p, matFront s core = some c → c.stage = .running → c.posted = some p → p + 4096 < s.clk.toNat →
      postedPair s core = none → ∃ s', exec (.mpairLate core) s = .next s' ∧ s'.teams = s.teams ∧
        (coreOf s' core).mat = replaced (coreOf s core).mat c (frozenMat c c.n (frozenRec c.iss 0x13 0 1))))

/-- R221 to R223, R230, R232, R233, R235, R237: what completed matrix commands leave: mzero zeros, mswap the planes exchanged,
mscale each element times its row's factor, mma of s8 rows the exact dot products added and wrapped to 32 bits, mread the
elements of its columns in the lanes' registers. -/
def Obligations.MatrixCommandsCompute : Prop :=
  ∀ (s : State) (core : Nat) (c : MatCmd) (t : Team), MatRuns s core c t →
    (∀ n lo, c.op = .mzero n lo → ∃ s', exec (.matrixCommandComplete core) s = .next s' ∧ MatDone s s' core c t fun t' =>
      t' = { t with tiles := t'.tiles, flags := t'.flags } ∧
        ∀ u r j, r < 128 → j < 32 → accAt t' u r j = if lo ≤ u ∧ u < lo + n then 0 else accAt t u r j) ∧
    (c.op = .mswap → ∃ s', exec (.matrixCommandComplete core) s = .next s' ∧ MatDone s s' core c t fun t' =>
      t' = { t with plane := t.shadow, shadow := t.plane, flags := t'.flags }) ∧
    (∀ a u lanes, c.op = .mscale a u lanes → ∃ s', exec (.matrixCommandComplete core) s = .next s' ∧
      MatDone s s' core c t fun t' => t' = { t with tiles := t'.tiles, flags := t'.flags } ∧
        (∀ l ∈ lanesOf lanes, ∀ j < 32, accAt t' (u + l / 128) (l % 128) j = BitVec.ofNat 32
          (rne .fp32 (fMul (Fmt.fp32.val (accAt t (u + l / 128) (l % 128) j).toNat) (Fmt.fp32.val (reg t l a).toNat)).1)) ∧
        (∀ v r j, r < 128 → j < 32 → (∀ l ∈ lanesOf lanes, ¬ (v = u + l / 128 ∧ r = l % 128)) →
          accAt t' v r j = accAt t v r j)) ∧
    (∀ a u lanes, c.op = .mma a none u 4 false lanes → a.length = 16 → t.plane.tag = 4 → (∀ j < 32, sget 0 t.plane.colTag j = 4) →
      ∃ s', exec (.matrixCommandComplete core) s = .next s' ∧
      MatDone s s' core c t fun t' => t' = { t with tiles := t'.tiles, flags := t'.flags } ∧
        (∀ l ∈ lanesOf lanes, ∀ j < 32, accAt t' (u + l / 128) (l % 128) j = BitVec.ofInt 32
          ((accAt t (u + l / 128) (l % 128) j).toNat +
            ((List.range 64).map (fun k => s8Row t a l k * s8 (sget 0 t.plane.elems (k * 32 + j)))).sum)) ∧
        (∀ v r j, r < 128 → j < 32 → (∀ l ∈ lanesOf lanes, ¬ (v = u + l / 128 ∧ r = l % 128)) →
          accAt t' v r j = accAt t v r j)) ∧
    (∀ regs u g lanes p, c.op = .mread regs u g lanes → t.pend = [p] → p.seq = c.iss.seq → p.contested = [] → p.flag < 12 →
      p.losses = [] → t.handler = none → regs.Nodup → (∀ r ∈ regs, r < 256) → c.iss.flag = none →
      ∃ s' t', exec (.matrixCommandComplete core) s = .next s' ∧ findTeam s' t.uid = some t' ∧
        t' = { t with regs := t'.regs, regBad := t'.regBad, flags := t'.flags, pend := [] } ∧
        (∀ l ∈ lanesOf lanes, ∀ j < 8, j < regs.length →
          reg t' l (regs.getD j 0) = accAt t (u + l / 128) (l % 128) (8 * g + j)) ∧
        (∀ k < 12, flagOf t' k = flagOf t k - if k = p.flag then 1 else 0))

/-- R97, R336, R338: a stalled team's records are appended once they fit, as the event of trap entry and at a retry: a loss of
lanes is recorded and the team goes on, a trap enters its handler; while they do not fit a retry changes nothing. -/
def Obligations.StalledTrapsFinish : Prop :=
  ∀ (s : State) (t : Team) (c : Context) (r : Rec), findTeam s t.uid = some t → t.place = .resident → r.dlv = false →
    (∀ recPa, t.trap = some ⟨[], [r], 0, .lost, true⟩ → t.block = none → t.handler = none → RecordPlace s t c recPa →
      ∀ i ∈ [Instr.trapEntry t.uid, .frqStallRetry t.uid],
        ∃ s', exec i s = .next s' ∧ findTeam s' t.uid = some { t with trap := none } ∧
        (∀ u, u ≠ t.uid → findTeam s' u = findTeam s u) ∧ (findCtx s' t.ctx).map Context.frqt = some (c.frqt + 1) ∧
        (∀ k < 64, homeByte s' (recPa + k) = (recBytes t r 0 1 c.frqt.toNat).getD k 0) ∧
        (∀ a, ¬ (recPa ≤ a ∧ a < recPa + 64) → homeByte s' a = homeByte s a)) ∧
    (∀ recPa va pas, t.trap = some ⟨[], [r], t.active, .enter [], true⟩ → MayEnter s t c recPa va pas →
      ∀ i ∈ [Instr.trapEntry t.uid, .frqStallRetry t.uid], ∃ s', exec i s = .next s' ∧ Entered s s' t c recPa va pas r) ∧
    (∀ tr x, t.trap = some tr → findCtx s t.ctx = some c →
      2 ^ (8 + c.frqb.toNat % 16) < (c.frqt - c.frqh).toNat + tr.pre.length + tr.recs.length → c.frqh ≠ c.frqt →
      translate s t.root (frqVa c c.frqh.toNat) .read none = .ok x → homeByte s x.pa ≠ 0 →
      ∃ s', exec (.frqStallRetry t.uid) s = .next s' ∧ OnlyCtx s s' t.ctx c)

/-- R273, R288, R302: a team without live lanes and with nothing under way ends and gives back what it held; with the last team
of its cluster the cluster is gone, and with the last of its grid the grid completes. R289: exit.kill ends the team's grid and
nothing else: its teams and their engine commands are gone, the grid is reported as killed by the team at the instruction, and
every store under way stays, as does every byte of memory but those of sectors that its engine commands had begun. -/
def Obligations.TeamsAndGridsEnd : Prop :=
  (∀ (s : State) (t : Team), s.Inv → Accepted s t .exitKill [] →
    let mine := fun (x : Team) => x ∈ s.teams ∧ x.ctx = t.ctx ∧ x.grid = t.grid
    ∃ s', exec .exitKill s = .next s' ∧
      (∀ x ∈ s'.teams, ¬ (x.ctx = t.ctx ∧ x.grid = t.grid)) ∧
      (∀ x ∈ s.teams, ¬ (x.ctx = t.ctx ∧ x.grid = t.grid) → x ∈ s'.teams) ∧
      (∀ x, mine x → teamIssues s' x.uid = []) ∧
      (∀ g, findGrid s t.ctx t.grid = some g → findGrid s' t.ctx t.grid = some
        { g with st := .killed, killTeam := t.index, killClus := t.clus, killPc := t.pc + BitVec.ofNat 32 (4 * t.wix) }) ∧
      (∀ c n, ¬ (c = t.ctx ∧ n = t.grid) → findGrid s' c n = findGrid s c n) ∧
      (∀ a, (∀ x, mine x → ∀ i ∈ teamIssues s x.uid, a ∉ i.1.undo.map Prod.fst) → homeByte s' a = homeByte s a) ∧
      s'.stores = s.stores) ∧
  ∀ (s : State) (t : Team) (k : Cluster) (g : Grid), Still s t → t.place = .resident → t.live = 0 →
    (∀ i < 12, flagOf t i = 0) → NoArrivals s t k g → NoTrees s → NoQueueWaits s →
    ((∃ x ∈ s.teams, x.uid ≠ t.uid ∧ inCluster t x) → g.ended + 1 ≠ g.total * (g.hdr.clw * g.hdr.clh) →
      ∃ s' k' g', exec (.teamEnd t.uid) s = .next s' ∧ (∀ u, u ≠ t.uid → findTeam s' u = findTeam s u) ∧
        findTeam s' t.uid = some { t with place := .ended, frame := none, leases := [], queues := [], handler := none } ∧
        (∀ a, homeByte s' a = homeByte s a) ∧ (coreOf s' t.core).scrub = (coreOf s t.core).scrub ++ t.leases ∧
        findCluster s' t.ctx t.grid t.clus = some k' ∧ k'.ended = t.index :: k.ended ∧
        findGrid s' t.ctx t.grid = some g' ∧ noRoles g' = noRoles { g with ended := g.ended + 1 }) ∧
    ((∀ x ∈ s.teams, inCluster t x → x.uid = t.uid) → g.ended + 1 = g.total * (g.hdr.clw * g.hdr.clh) → g.st = .running →
      g.desc.done = 0 → ∃ s' g', exec (.teamEnd t.uid) s = .next s' ∧ findCluster s' t.ctx t.grid t.clus = none ∧
        (∀ x ∈ s'.teams, ¬ (x.ctx = t.ctx ∧ x.grid = t.grid ∧ x.clus = t.clus)) ∧ (∀ a, homeByte s' a = homeByte s a) ∧
        findGrid s' t.ctx t.grid = some g' ∧ g'.st = .complete ∧ g'.reason = 0)

/-- R109, R112, R113, R311, R312: the oldest request of a die whose tokens cover its cost is granted and pays; each boundary
refills every die to at most its budget, but in bubble mode with a debt a bubble begins instead, and its end refills. A walk of
a die ends and fills caches; it changes nothing else. -/
def Obligations.DiesGrantRefillAndWalk : Prop :=
  (∀ (s : State),
    (∀ die q rest, die < 8 → (dieOf s die).asking = q :: rest → ((costOf s q : Int) ≤ (dieOf s die).tokens) →
      ∃ s', exec (.leaveGrant die) s = .next s' ∧ s' = { s with dies := s'.dies } ∧
        dieOf s' die = { dieOf s die with
          asking := rest, granted := (dieOf s die).granted ++ [q], tokens := (dieOf s die).tokens - costOf s q } ∧
        ∀ e, e ≠ die → dieOf s' e = dieOf s e) ∧
    (s.bubble = none → (bubbleMode s = true → ∀ e < 8, 0 ≤ (dieOf s e).tokens) →
      ∃ s', exec .tokenRefill s = .next s' ∧ s' = { s with dies := s'.dies } ∧ ∀ e < 8, dieOf s' e = refilled (dieOf s e)) ∧
    (s.bubble = none → bubbleMode s = true → (∃ e < 8, (dieOf s e).tokens < 0) →
      ∃ n, n ≤ 1300 ∧ exec .tokenRefill s = .next { s with bubble := some n, bubbles := s.bubbles + 1 }) ∧
    (∀ n, s.bubble = some n → ∃ s', exec .bubbleEnd s = .next s' ∧ s' = { s with dies := s'.dies, bubble := none } ∧
      ∀ e < 8, dieOf s' e = refilled (dieOf s e))) ∧
  (∀ (s : State) (die : Nat) (w : WalkRun) (rest : List WalkRun), die < 8 → (dieOf s die).walks = w :: rest →
    ∃ s', exec (.translationWalk die) s = .next s' ∧ s' = { s with cores := s'.cores, dies := s'.dies } ∧
      ((dieOf s die).misses = [] → (dieOf s' die).walks = rest) ∧ (dieOf s' die).walks.length ≤ max 64 rest.length ∧
      (∀ e, (dieOf s' e).plain = (dieOf s e).plain) ∧ ∀ c, (coreOf s' c).plain = (coreOf s c).plain)

/-- R298 to R303: the oldest dispatchable grid's header is read: a refusal names the lowest reason, a grid of no cluster
completes, any other runs with its header and sizes. -/
def Obligations.DispatchReadsHeader : Prop :=
  ∀ (s : State) (n : Nat) (c : Context) (g : Grid) (bs : List Byte) (ks : List Nat), findCtx s n = some c →
    c.grids.find? (dispatchable s c) = some g → findGrid s n g.num = some g →
    engGlobal s c.current g.desc.khdr 32 = .ok bs ks 0 → g.desc.ctl.getLsbD 16 = false → g.desc.done = 0 →
    let size := (g.desc.gx.toNat, g.desc.gy.toNat, g.desc.gz.toNat)
    let total := size.1 * size.2.1 * size.2.2
    (refusals s c bs size = [] → total ≠ 0 → ∃ s' g', exec (.gridDispatch n) s = .next s' ∧ s'.teams = s.teams ∧
      findGrid s' n g.num = some g' ∧ g' = { g with
        st := .running, size := size, table := g'.table, disp := s.nextSeq
        hdr := ⟨BitVec.ofNat 32 (fieldAt bs 0 4), BitVec.ofNat 32 (fieldAt bs 4 4), BitVec.ofNat 32 (fieldAt bs 8 4),
          BitVec.ofNat 32 (fieldAt bs 12 4), BitVec.ofNat 32 (fieldAt bs 16 4), BitVec.ofNat 32 (fieldAt bs 20 4)⟩ }) ∧
    (refusals s c bs size = [] → total = 0 → ∃ s', exec (.gridDispatch n) s = .next s' ∧
      findGrid s' n g.num = some { g with st := .complete, reason := 0 }) ∧
    (∀ r, r ∈ refusals s c bs size → (∀ q ∈ refusals s c bs size, r ≤ q) → ∃ s', exec (.gridDispatch n) s = .next s' ∧
      findGrid s' n g.num = some { g with st := .refused, reason := r })

/-- R155, R304, R305, R389, R399: the next cluster of the oldest waiting grid, where it fits, starts one team for each core of
its rectangle at ENTRY with every lane live; a harvest grid places an evicted team first, else a new one. -/
def Obligations.PlacementStartsTeams : Prop :=
  ∀ (s : State) (n : Nat) (c : Context) (g : Grid), findCtx s n = some c → findGrid s n g.num = some g →
    (waitsPlace g = true → c.grids.filter (fun x => waitsPlace x && decide (x.disp < g.disp)) = [] → g.hdr.coop = false →
      (placeNext s n g.num).isSome = true →
      ∃ s' ts k g', exec (.clusterPlace n g.num) s = .next s' ∧ s'.teams = s.teams ++ ts ∧
        ts.length = g.hdr.clw * g.hdr.clh ∧ s'.clusters = s.clusters ++ [k] ∧ k.lin = g.next ∧ k.w = g.hdr.clw ∧
        k.h = g.hdr.clh ∧ findGrid s' n g.num = some g' ∧ noRoles g' = noRoles { g with next := g.next + 1 } ∧
        (∀ a, homeByte s' a = homeByte s a) ∧
        ∀ t ∈ ts, t.grid = g.num ∧ t.clus = g.next ∧ t.core ∈ c.cores ∧ t.place = .resident ∧ t.hdr = g.hdr ∧
          t.root = c.current ∧ t.trapvec = c.trapv ∧ t.pc = g.hdr.entry ∧ t.wix = 0 ∧ t.stack = [] ∧ t.dead = 0 ∧
          t.block = none ∧ t.live = lowMask g.hdr.lanes ∧ t.active = t.live ∧ t.regBad = [] ∧
          (∀ i < 12, flagOf t i = 0) ∧ (∀ i < 32, slotReg t i = if i < g.hdr.regs then some i else none) ∧
          (∀ l < g.hdr.lanes, g.hdr.preload.getLsbD 0 = true → reg t l 0 = BitVec.ofNat 32 l) ∧
          (∀ l < g.hdr.lanes, g.hdr.preload.getLsbD 2 = true → reg t l 2 = BitVec.ofNat 32 t.index) ∧
          (∀ l < g.hdr.lanes, ∀ r, 9 ≤ r → r < 256 → reg t l r = 0)) ∧
    (∀ core, g.st = .running → g.hdr.harvest = true →
      (∀ o ∈ s.contexts, ∀ x ∈ o.grids, harvests x = true → x.disp < g.disp → harvestNext s o x = none) →
      coreOrder.find? (fun k => harvestFits s n g.hdr k && !coopWaits s k g.disp) = some core →
      (∀ t, s.teams.find? (fun x => x.ctx == n && x.grid == g.num && x.place == .evicted) = some t →
        findTeam s t.uid = some t → ∃ s' m, exec (.harvestPlace n g.num) s = .next s' ∧ 64 ≤ m ∧ m < 68 ∧
          findTeam s' t.uid = some { t with place := .resident, core := core, slot := m, wasReady := false } ∧
          ∀ y ∈ s'.l1, y.core ≠ core) ∧
      ((∀ x ∈ s.teams, x.ctx = n → x.grid = g.num → x.place ≠ .evicted) → c.tfrb = 0 → g.next < g.total →
        ∃ s' t m, exec (.harvestPlace n g.num) s = .next s' ∧ s'.teams = s.teams ++ [t] ∧ t.core = core ∧ t.slot = m ∧
          64 ≤ m ∧ m < 68 ∧ t.pc = g.hdr.entry ∧ t.restart = g.hdr.entry ∧ t.place = .resident ∧ t.clus = g.next))

/-- R346 to R349: a pre-emption request saves the one named team of a core at its unit; a saved team of a grid that runs again
resumes on a core with room, as an acquire. The model's choice, not a rule's: a team saved between the hints of a unit restarts
at the first of them (log entry 66, DEDUCED), and its granules are the lowest free ones (log entry 47, DEDUCED). -/
def Obligations.PreemptedTeamsComeBack : Prop :=
  ∀ (s : State) (t : Team), findTeam s t.uid = some t →
    (Still s t → namedTeams s t.core = [t] → harvestTeams s t.core = [] → t.place = .resident →
      ∃ s', exec (.preemptRequest t.core) s = .next s' ∧ (∀ u, u ≠ t.uid → findTeam s' u = findTeam s u) ∧
        (∀ a, homeByte s' a = homeByte s a) ∧
        findTeam s' t.uid = some { t with
          place := .saved, wix := unitIx t, hints := none, pass := none, begun := false, faulted := [], wasReady := false }) ∧
    (∀ c m, t.place = .saved → gridSuspended s t = false → findCtx s t.ctx = some c → t.core ∈ c.cores →
      freeSlot s t.core 0 64 = some m → coreFits s t.hdr t.core = true → NoQueueWaits s →
      ∃ s', exec (.teamResume t.uid t.core) s = .next s' ∧ (∀ u, u ≠ t.uid → findTeam s' u = findTeam s u) ∧
        (∀ a, homeByte s' a = homeByte s a) ∧
        findTeam s' t.uid = some { t with place := .resident, slot := m, granules := takeScr s t.hdr t.core } ∧
        (∀ y ∈ s'.l1, y.core ≠ t.core) ∧ (coreOf s' t.core).partword = t.hdr.partword)

/-- R395 to R400: a revoked harvest team loses its lease and its queues and stands at its restart address with every live lane
active and hrev one higher; a held one starts again when its trigger is over; the scrubber cleans granules one by one. -/
def Obligations.HarvestTeamsAreRevoked : Prop :=
  ∀ (s : State) (t : Team), findTeam s t.uid = some t →
    (∀ p, Still s t → t.place = .resident → revoked s t.core = [(t.uid, p)] →
      ∃ s' t', exec (.harvestRevoke t.core) s = .next s' ∧ (∀ u, u ≠ t.uid → findTeam s' u = findTeam s u) ∧
        (∀ a, homeByte s' a = homeByte s a) ∧ findTeam s' t.uid = some t' ∧
        (coreOf s' t.core).scrub = (coreOf s t.core).scrub ++ t.leases ∧
        t' = { t with
          pc := t.restart, wix := 0, hints := none, resume := none, gather := none, pass := none, begun := false, faulted := [], done := 0
          place := p
          active := t.live, stack := []
          binds := t'.binds, flags := t'.flags, sieve := t'.sieve, plane := t'.plane, shadow := t'.shadow, paired := none
          leases := [], scr := [], scrBad := [], queues := [], hrev := t.hrev + 1, wasReady := false } ∧
        (∀ i < 12, flagOf t' i = 0) ∧ (∀ i < 32, slotReg t' i = if i < t.hdr.regs then some i else none)) ∧
    (t.place = .held → mustLeave s t = false → mustHold s t = false →
      ∃ s', exec (.harvestRestart t.uid) s = .next s' ∧ (∀ u, u ≠ t.uid → findTeam s' u = findTeam s u) ∧
        findTeam s' t.uid = some { t with place := .resident } ∧ ∀ y ∈ s'.l1, y.core ≠ t.core) ∧
    (∀ core g rest, (coreOf s core).scrub = g :: rest →
      ∃ s', exec (.leaseScrub core) s = .next s' ∧ s' = { s with cores := s'.cores } ∧
        coreOf s' core = { coreOf s core with scrub := rest } ∧ ∀ d, d ≠ core → coreOf s' d = coreOf s d)

/-- R110, R111: the oldest root of a lineage, once released, is freed: a node that only this lineage held is free, and its RID
may be used again after a flush of the caches. -/
def Obligations.ReclaimingFreesRoots : Prop :=
  (∀ (s : State) (r : RootRec) (c : Context) (n : NodeRec), (∀ e ∈ s.stores, (findTeam s e.uid).isSome = true) →
    s.roots = [r] → r.life = .released → findCtx s r.ctx = some c → c.dying = false → r.excl = [n.pa] → s.nodes = [n] →
    n.lineages = [r.lineage] → namedFrames s n.pa = [] →
    ∃ s', exec (.exclusiveListProcess r.lineage) s = .next s' ∧ (∀ e, (dieOf s' e).plain = (dieOf s e).plain) ∧
      s' = { s with dies := s'.dies, roots := [], nodes := [], recycle := s.recycle ++ [r.desc.rid.toNat] }) ∧
  (∀ (s : State), s.recycle ≠ [] → 65535 < (usedRids s).length + 1024 →
    ∃ s', exec .ridTagFlush s = .next s' ∧ s' = { s with recycle := [], dies := s'.dies, cores := s'.cores } ∧
      (∀ e, (dieOf s' e).plain = (dieOf s e).plain) ∧ (∀ d, (coreOf s' d).plain = (coreOf s d).plain) ∧
      (∀ e, ∀ x ∈ (dieOf s' e).pathCache, x.rid ∉ s.recycle) ∧ ∀ d, ∀ x ∈ (coreOf s' d).leaf, x.rid ∉ s.recycle)

/-- R86, R94, R96, R377: a write-back changes no byte and no poison as the home serves them; a full controller list moves to
LPDDR6 as a whole; a retired link poisons the line whose flit it lost, and firmware is told. That a packet of partial sums is
poisoned as a whole is the model's choice (log entry 93, DEDUCED). -/
def Obligations.LinesKeepBytesAndPoison : Prop :=
  ∀ (s : State),
    (∀ ln, s.Inv → (sget [] s.l2 ln ≠ [] ∨ sget 0 s.l2Bad ln ≠ 0) → listRoom s ln = true →
      ∃ s', exec (.l2WriteBack ln) s = .next s' ∧ (∀ a, homeByte s' a = homeByte s a) ∧ (∀ k, lineHop s' k = lineHop s k) ∧
        sget [] s'.l2 ln = [] ∧ s'.teams = s.teams) ∧
    (∀ ctrl, 4096 ≤ (s.poison.filter (fun x => ctrlOf (64 * x.1) == ctrl)).length → sok 0 s.poison = true →
      ∃ s', exec (.poisonListMove ctrl) s = .next s' ∧ s' = { s with poison := s'.poison, poisonMoved := s'.poisonMoved } ∧
        ∀ k, if ctrlOf (64 * k) = ctrl then sget 0 s'.poison k = 0 ∧
            sget 0 s'.poisonMoved k = (if sget 0 s.poison k ≠ 0 then sget 0 s.poison k else sget 0 s.poisonMoved k)
          else sget 0 s'.poison k = sget 0 s.poison k ∧ sget 0 s'.poisonMoved k = sget 0 s.poisonMoved k) ∧
    (∀ link pa, physBad s.manifest pa = false → isPeer pa = false →
      ∃ s', exec (.meshLinkRetire link (.line pa)) s = .next s' ∧ (∀ a, homeByte s' a = homeByte s a) ∧ s'.teams = s.teams ∧
        (∀ k, lineHop s' k = if k = pa / 64 then 5 else lineHop s k) ∧ s'.links = s.links + 1 ∧
        s'.notices = s.notices ++ [link]) ∧
    (∀ link k p, s.partials[k]? = some p →
      exec (.meshLinkRetire link (.partialSum k)) s = .next { s with
        partials := s.partials.set k { p with packet := { p.packet with bad := 5 } }
        links := s.links + 1, notices := s.notices ++ [link] })

/-- R357, R369, R372 to R376: QUERY answers the report of 144 bytes, ATTEST a signed result that begins with its nonce;
PEER_ADD enters the peer and POWER_CAP sets the budgets; in recovery every command but QUERY and ATTEST answers RECOVERY (7)
and changes nothing. -/
def Obligations.ModuleCommandsAnswer : Prop :=
  ∀ (s : State) (r : Req), Listens s r →
    (s.recovery = true → ∀ x ∈ laterCommands, ∃ s', exec (x.1 r) s = .next s' ∧ Answered s s' r x.2 7 []) ∧
    (r.payload = [] → ∃ s' p, exec (.query r) s = .next s' ∧ Answered s s' r 0x01 0 p ∧ p.length = 144 ∧
      fieldAt p 0 4 = Config.fwVersion.toNat ∧
      fieldAt p 4 4 = (if s.recovery = true then 1 else 0) + (if bubbleMode s = true then 2 else 0) +
        (if s.manifest.ckptOn = true then 4 else 0) ∧
      (s.recovery = false → (∀ d < 8, fieldAt p (8 + 2 * d) 2 = (dieOf s d).temp.toNat ∧
          fieldAt p (24 + 4 * d) 4 = (dieOf s d).budget % 2 ^ 32) ∧
        fieldAt p 56 8 = s.bubbles.toNat ∧ fieldAt p 64 4 = s.poison.length % 2 ^ 32 ∧
        fieldAt p 68 4 = s.poisonMoved.length % 2 ^ 32 ∧ fieldAt p 72 4 = s.links.toNat ∧ fieldAt p 76 4 = 0 ∧
        ∀ q < 256, fieldAt p (80 + q / 4) 1 / 4 ^ (q % 4) % 4 = (match findPeer s q with
          | none => 0
          | some x => if x.failed = true then 2 else 1)) ∧
      (s.recovery = true → ∀ i, 8 ≤ i → p.getD i 0 = 0)) ∧
    (r.payload.length = 52 → fieldAt r.payload 48 4 = 0 → ∃ s' p bs, exec (.attest r) s = .next s' ∧ Answered s s' r 0x02 0 p ∧
      p = bs ++ bytesBE (Config.sign bs) ∧ bs.take 48 = r.payload.take 48) ∧
    (s.recovery = false → r.payload.length = 36 → fieldAt r.payload 0 4 ≤ 255 → fieldAt r.payload 4 2 ≤ 7 →
      (fieldAt r.payload 6 2 = 4 ∨ fieldAt r.payload 6 2 = 6) → (∀ q ∈ s.remote, q.p ≠ fieldAt r.payload 0 4) →
      ∃ s' x, exec (.peerAdd r) s = .next s' ∧ Responded s s' r 0x04 0 [] ∧ s'.teams = s.teams ∧
        findPeer s' (fieldAt r.payload 0 4) = some x ∧ x.die = fieldAt r.payload 4 2 ∧ x.failed = false ∧
        x.rctx.toNat = fieldAt r.payload 24 4 ∧ x.rbase.toNat = fieldAt r.payload 28 8 ∧
        ∀ p, p ≠ fieldAt r.payload 0 4 → findPeer s' p = findPeer s p) ∧
    (s.recovery = false → r.payload.length = 32 →
      (∀ d < 8, fieldAt r.payload (4 * d) 4 = 0 ∨ 66560 ≤ fieldAt r.payload (4 * d) 4 ∧ fieldAt r.payload (4 * d) 4 ≤ 665600) →
      ∃ s' dies, exec (.powerCap r) s = .next s' ∧ Answered { s with dies := dies } s' r 0x05 0 [] ∧
        ∀ d < 8, dieOf s' d = { dieOf s d with
          cap := if fieldAt r.payload (4 * d) 4 = 0 then 665600 else fieldAt r.payload (4 * d) 4 })

/-- R358, R362 to R366: CTX_CREATE makes a context with an empty root, no cores and no quota; CTX_DESTROY takes a context out of
use and its response follows the scrub; PART_SET, HARVEST_GRANT, DECODE_LOAD and MEM_ALLOC set what they name. The model's
choice, not a rule's: frqh and frqt of a new context are 0 (log entry 6, DESIGN CHOICE), its GEN is 0 (log entry 7, DESIGN
CHOICE), and its response is the id and the RID (log entry 60, DEDUCED). -/
def Obligations.ContextCommandsAnswer : Prop :=
  ∀ (s : State) (r : Req), Listens s r →
    (∀ id rid pa, s.Inv → s.recovery = false → r.payload.length = 20 → fieldAt r.payload 2 2 = 0 →
      hangBad (fieldAt r.payload 0 1) = false → hangBad (fieldAt r.payload 1 1) = false →
      (fieldAt r.payload 4 4 % 4 = 0 ∨ fieldAt r.payload 4 4 = 0xFFFFFFFF) → fieldAt r.payload 8 4 % 16 ≤ 8 →
      fieldAt r.payload 16 4 % 16 ≤ 8 → fieldAt r.payload 12 2 ≤ 7 → fieldAt r.payload 14 1 ≤ 3 → fieldAt r.payload 15 1 = 0 →
      chooseCtx s = some id → chooseRid { s with fresh := s.fresh + 1 } = some rid →
      chooseStrong { s with fresh := s.fresh + 2 } [] 4096 = some pa →
      ∃ s' c, exec (.ctxCreate r) s = .next s' ∧ Responded s s' r 0x10 0 (bytesOf 4 id ++ bytesOf 4 rid) ∧
        s'.teams = s.teams ∧ findCtx s id = none ∧ findCtx s' id = some c ∧ (∀ n, n ≠ id → findCtx s' n = findCtx s n) ∧
        c.current = ⟨BitVec.ofNat 16 rid, 0, 3, pa⟩ ∧ rid ∉ usedRids s ∧ c.cores = [] ∧ c.owned = [] ∧ c.grids = [] ∧
        c.tables = [] ∧ c.quotaG = 0 ∧ c.quotaL = 0 ∧ c.frqh = 0 ∧ c.frqt = 0 ∧ c.hang.toNat = fieldAt r.payload 0 4 ∧
        c.trapv.toNat = fieldAt r.payload 4 4 ∧ c.frqb.toNat = fieldAt r.payload 8 4 ∧ c.tfrb.toNat = fieldAt r.payload 16 4 ∧
        ∀ (va : DWord) k d, va.toNat < 2 ^ 48 → ∃ aux, translate s' c.current va k d = .fault 0x04 aux) ∧
    (∀ c, Names s r 4 c → (∀ g ∈ c.grids, g.entered = false) →
      (∀ e ∈ s.stores, ∃ t, findTeam s e.uid = some t ∧ t.ctx ≠ c.id) →
      ∃ s', exec (.ctxDestroy r) s = .next s' ∧ s'.responses = s.responses ∧ s'.teams = s.teams ∧
        findCtx s' c.id = some { c with dying := true, cores := [], owned := [], hvok := false } ∧
        s'.owed = s.owed ++ [⟨r, 0x11, c.id, 0⟩] ∧ s'.scrubCtx = s.scrubCtx ++ [c.id] ∧
        (∀ g ∈ s'.grants, g ∈ s.grants ∧ g.1 ≠ c.id ∧ g.2 ≠ c.id) ∧ (∀ x ∈ s'.roots, x.ctx = c.id → x.life ≠ .current) ∧
        ∀ a, homeByte s' a = homeByte s a) ∧
    (∀ ctx, ctx ∈ s.scrubCtx → (∀ x ∈ s.roots, x.ctx ≠ ctx) → (∀ k ∈ s.cores, k.scrub = []) → s.owed = [⟨r, 0x11, ctx, 0⟩] →
      ∃ s' s1, exec (.ctxScrubDone ctx) s = .next s' ∧ Answered s1 s' r 0x11 0 [] ∧ findCtx s' ctx = none ∧
        s1 = { s with contexts := s1.contexts, scrubCtx := s1.scrubCtx, owed := [] } ∧
        (∀ n, n ≠ ctx → findCtx s' n = findCtx s n) ∧ ∀ n, n ∈ s'.scrubCtx ↔ n ∈ s.scrubCtx ∧ n ≠ ctx) ∧
    (∀ c, Names s r 1032 c → fieldAt r.payload 1028 4 ≤ 1 →
      (∀ i < 4096, bitAt r.payload 516 i = true → bitAt r.payload 4 i = true) →
      (∀ o ∈ s.contexts, o.id ≠ c.id → ∀ i ∈ o.cores, i < 4096 → bitAt r.payload 4 i = false) →
      ∃ s' c', exec (.partSet r) s = .next s' ∧ CtxAnswered s s' r 0x12 c.id c' ∧
        c' = { c with cores := c'.cores, owned := c'.owned, hvok := fieldAt r.payload 1028 4 == 1 } ∧
        ∀ i, (i ∈ c'.cores ↔ i < 4096 ∧ bitAt r.payload 4 i = true) ∧ (i ∈ c'.owned ↔ i < 4096 ∧ bitAt r.payload 516 i = true)) ∧
    (∀ c o, Names s r 12 c → findCtx s (fieldAt r.payload 4 4) = some o → o.dying = false → c.id ≠ o.id →
      fieldAt r.payload 8 4 ≤ 1 → ∃ s' gs, exec (.harvestGrant r) s = .next s' ∧ Answered { s with grants := gs } s' r 0x13 0 [] ∧
        ∀ x, x ∈ s'.grants ↔ if x = (c.id, o.id) then fieldAt r.payload 8 4 = 1 else x ∈ s.grants) ∧
    (∀ c, Names s r 3080 c →
      let id := fieldAt r.payload 4 4
      let es := (List.range 768).map (fun i => BitVec.ofNat 32 (fieldAt r.payload (8 + 4 * i) 4))
      2 ≤ id → id ≤ 65535 → tableOk es = true → c.tables.length < 16 →
      (∀ g ∈ c.grids, g.st = .running ∨ g.st = .suspended → g.hdr.dtable ≠ id) →
      ∃ s' c', exec (.decodeLoad r) s = .next s' ∧ CtxAnswered s s' r 0x14 c.id c' ∧ c' = { c with tables := c'.tables } ∧
        (c'.tables.find? (fun t => t.id == id)).map Table.entries = some es ∧
        ∀ n, n ≠ id → c'.tables.find? (fun t => t.id == n) = c.tables.find? (fun t => t.id == n)) ∧
    (∀ c, Names s r 12 c → chargedTo s c.id 0 ≤ fieldAt r.payload 4 4 → chargedTo s c.id 1 ≤ fieldAt r.payload 8 4 →
      ∃ s', exec (.memAlloc r) s = .next s' ∧
        CtxAnswered s s' r 0x20 c.id { c with quotaG := fieldAt r.payload 4 4, quotaL := fieldAt r.payload 8 4 })

/-- R103, R108, R110, R114, R357 to R359, R368: a command of the map family that fails changes nothing; MAP, UNMAP and REMAP that
succeed (MapCommandsPublish says where) publish a new root of the next GEN and answer it; SNAPSHOT keeps the current root under a
new RID; FORK makes a context of the same tree. HOST_WRITE and HOST_READ act on the bytes at the home. That a child of FORK has
its parent's settings, and no quota, core or grid, is the model's choice (log entries 23, DESIGN CHOICE, and 54, DEDUCED). -/
def Obligations.MemoryCommandsAnswer : Prop :=
  ∀ (s : State) (r : Req) (c : Context), Listens s r →
    (∀ x ∈ mapCommands, Names s r 68 c →
      ∃ s' k, exec (x.1 r) s = .next s' ∧ (k ≠ 0 → Answered s s' r x.2 k []) ∧
        (k = 0 → Published s s' c ∧ Responded s s' r x.2 0 (bytesOf 4 (c.current.gen + 1).toNat)) ∧
        ((fieldAt r.payload 12 4 = 0 ∨ 65536 < fieldAt r.payload 12 4) → k = 2)) ∧
    (∀ rid, Names s r 68 c → fieldAt r.payload 36 32 = 0 → 1 ≤ fieldAt r.payload 12 4 → fieldAt r.payload 12 4 ≤ 65536 →
      AttrFine r → fieldAt r.payload 28 2 = 0 → chooseRid s = some rid →
      ∃ s', exec (.snapshot r) s = .next s' ∧ Responded s s' r 0x24 0 (bytesOf 4 rid) ∧ s'.teams = s.teams ∧
        rid ∉ usedRids s ∧ (∀ a, homeByte s' a = homeByte s a) ∧ findCtx s' c.id = some c ∧
        ∃ x ∈ s'.roots, x.snap = true ∧ x.ctx = c.id ∧ x.life = .current ∧ x.desc = { c.current with rid := BitVec.ofNat 16 rid }) ∧
    (∀ y, Names s r 68 c → fieldAt r.payload 36 32 = 0 → 1 ≤ fieldAt r.payload 12 4 → fieldAt r.payload 12 4 ≤ 65536 →
      AttrFine r → fieldAt r.payload 28 2 = 1 →
      s.roots.find? (fun x => x.snap && x.ctx == c.id && x.desc.rid.toNat == fieldAt r.payload 32 4) = some y →
      ∃ s' w, exec (.snapshot r) s = .next s' ∧ Responded s s' r 0x24 0 (bytesOf 4 w) ∧ s'.teams = s.teams ∧
        ∀ x ∈ s'.roots, x.desc.rid = y.desc.rid → x.life = .retired ∧ x.snap = false) ∧
    (Names s r 68 c → ∃ s' k, exec (.fork r) s = .next s' ∧ (k ≠ 0 → Answered s s' r 0x25 k []) ∧
      (k = 0 → Published s s' c ∧ ∃ id x, Responded s s' r 0x25 0 (bytesOf 4 id) ∧ findCtx s id = none ∧
        findCtx s' id = some x ∧ x.grids = [] ∧ x.cores = [] ∧ x.quotaG = 0 ∧ x.quotaL = 0 ∧ x.current.lvl = c.current.lvl ∧
        x.current.gen = c.current.gen + 1 ∧ x.lineage ≠ c.lineage)) ∧
    (∀ pa n, s.Inv → s.recovery = false → r.payload.length = 12 + n → 1 ≤ n → n ≤ 8176 →
      findCtx s (fieldAt r.payload 0 4) = some c → c.dying = false →
      hostRange s c .write (fieldAt r.payload 4 8) n = .ok [(pa, n)] →
      ∃ s', exec (.hostWrite r) s = .next s' ∧ Responded s s' r 0x26 0 [] ∧ s'.teams = s.teams ∧ s'.contexts = s.contexts ∧
        ∀ a, homeByte s' a = if pa ≤ a ∧ a < pa + n then r.payload.getD (12 + (a - pa)) 0 else homeByte s a) ∧
    (∀ pa n, Names s r 16 c → fieldAt r.payload 12 4 = n → 1 ≤ n → n ≤ 8192 →
      hostRange s c .read (fieldAt r.payload 4 8) n = .ok [(pa, n)] → (∀ a, pa ≤ a → a < pa + n → lineHop s (a / 64) = 0) →
      ∃ s', exec (.hostRead r) s = .next s' ∧ Answered s s' r 0x27 0 ((List.range n).map (fun i => homeByte s (pa + i))))

/-- R103, R108, R114, R115, R359, R383: where firmware may publish and its range meets what R359 asks, MAP and REMAP of form 0
give every page of the range a leaf as ATTR says with a new frame that reads zero, in form 1 with the source page's frame; UNMAP
leaves the range no leaf; REMAP of form 2 gives its page a leaf of its own, without ATTEN, a shared frame being copied; FORK
gives parent and child the tree of the old root, with no way to write through it. Every other address keeps its leaf, and no
frame in use changes. That ATTEN on the path stays where forms 0 and 1 set a leaf is log entry 54, the model's choice. -/
def Obligations.MapCommandsPublish : Prop :=
  ∀ (s : State) (r : Req) (c : Context), Listens s r → Names s r 68 c → TreeKept s c →
    let lo := mapVa r
    let n := mapNpg r
    let size := mapBytes r
    let form := fieldAt r.payload 28 2
    (∀ x ∈ [((.hostMap r : Instr), 0x21), (.remap r, 0x23)], MapBlockFine r → form = 0 → RangeMeets s r c x.2 →
      chargedTo s c.id (mapTier r) + n * (size / 65536) ≤ quotaOf c (mapTier r) →
      MayPublish s c (pageRoom n (mapTier r) size (mapFmt r) ++ nodeRoom n) →
      ∃ s' new fs, exec x.1 s = .next s' ∧ MapDone s s' r c x.2 new ∧ LeavesSet s s' r c.current new fs ∧
        (∀ i < n, (∀ f ∈ s.frames, f.pa ≠ (fs i).1) ∧ (∀ j < n, j ≠ i → (fs j).1 ≠ (fs i).1) ∧
          (mapTier r ≠ 2 → ∀ o < size, homeByte s' ((fs i).1 + o) = 0) ∧
          if mapFmt r = 0 then (fs i).2 = 0 else ∀ o < 8192, homeByte s' ((fs i).2 + o) = 0)) ∧
    (∀ x ∈ [((.hostMap r : Instr), 0x21), (.remap r, 0x23)], ∀ (src : RootDesc) (es : Nat → Entry), MapBlockFine r →
      form = 1 → RangeMeets s r c x.2 → fieldAt r.payload 20 8 % size = 0 →
      (if x.2 = 0x21 ∧ fieldAt r.payload 30 2 ≠ 0 then
        ∃ y, findCtx s (fieldAt r.payload 30 2) = some y ∧ y.dying = false ∧ src = y.current else src = c.current) →
      (∀ i < n, (∃ att, leafOf s src (fieldAt r.payload 20 8 + i * size) = some (mapLv r, es i, att)) ∧
        (es i).fmt = mapFmt r ∧ (es i).tier = mapTier r) → MayPublish s c (nodeRoom n) →
      ∃ s' new, exec x.1 s = .next s' ∧ MapDone s s' r c x.2 new ∧
        LeavesSet s s' r c.current new (fun i => ((es i).frame, (es i).side))) ∧
    (MapBlockFine r → form = 0 → partly s c.current lo (lo + n * size) lo = false →
      partly s c.current lo (lo + n * size) (lo + n * size - 1) = false → MayPublish s c (nodeRoom n) →
      ∃ s' new, exec (.unmap r) s = .next s' ∧ MapDone s s' r c 0x22 new ∧
        (∀ a, lo ≤ a → a < lo + n * size → leafOf s' new a = none) ∧ OtherLeaves s s' c.current new lo (lo + n * size)) ∧
    (∀ e att f, MapBlockFine r → form = 2 → n = 1 → leafOf s c.current lo = some (mapLv r, e, att) →
      s.frames.find? (fun f => f.pa == e.frame) = some f → f.bytes = size →
      MayPublish s c (if 1 < f.count then pageRoom 1 e.tier size e.fmt ++ nodeRoom 1 else nodeRoom 1) →
      (1 < f.count → chargedTo s c.id e.tier + size / 65536 ≤ quotaOf c e.tier) →
      ∃ s' new p, exec (.remap r) s = .next s' ∧ MapDone s s' r c 0x23 new ∧
        (∀ o < size, leafOf s' new (lo + o) =
          some (mapLv r, { e with frame := p.1, side := p.2, atten := false, gen := new.gen.toNat }, false)) ∧
        (if 1 < f.count then (∀ y ∈ s.frames, y.pa ≠ p.1) ∧
          (e.tier ≠ 2 → ∀ o < size, homeByte s' (p.1 + o) = homeByte s (e.frame + o)) else p = (e.frame, e.side)) ∧
        ∀ a, ¬ (lo ≤ a ∧ a < lo + size) → (leafOf s' new a).map (fun x => (x.1, x.2.1.frame, x.2.2)) =
          (leafOf s c.current a).map (fun x => (x.1, x.2.1.frame, x.2.2))) ∧
    (∀ id, fieldAt r.payload 36 32 = 0 → AttrFine r → form = 0 → n = 1 → chooseCtx s = some id → (∀ f, (threeRids { s with fresh := f }).isSome = true) →
      MayPublish s c [(3, 4096), (3, 4096)] →
      ∃ s' x y, exec (.fork r) s = .next s' ∧ Published s s' c ∧ Responded s s' r 0x25 0 (bytesOf 4 id) ∧ KeepsFrames s s' ∧
        findCtx s' c.id = some x ∧ findCtx s' id = some y ∧ findCtx s id = none ∧ y.current.gen = c.current.gen + 1 ∧
        ∀ root ∈ [x.current, y.current], ∀ a,
          (leafOf s' root a).map (fun z => (z.1, z.2.1.frame, z.2.1.side, z.2.2)) =
            (leafOf s c.current a).map (fun z => (z.1, z.2.1.frame, z.2.1.side, true)) ∧
          ∀ k d v, (k = .write ∨ k = .atomic) → translate s' root (BitVec.ofNat 64 a) k d ≠ .ok v)

/-- R298, R300, R301, R367: LAUNCH from a host answers the launch status and the grid's number; GRID_WAIT answers the state of
its grid, at once or, with its flag, once the grid is neither queued nor running; SUSPEND and RESUME set it. The model's choice,
not a rule's: the flag of GRID_WAIT waits while the grid is queued too, SUSPEND and RESUME answer at once, and LAUNCH answers
status and number (log entry 60, DEDUCED); a malformed record answers before a full queue (log entry 46, DEDUCED). -/
def Obligations.GridCommandsAnswer : Prop :=
  ∀ (s : State) (r : Req) (c : Context), Listens s r →
    (Names s r 68 c → LaunchFine (r.payload.drop 4) → (c.grids.filter Grid.entered).length < 256 →
      ∃ s' s1 g, exec (.hostLaunch r) s = .next s' ∧ Answered s1 s' r 0x30 0 (bytesOf 4 0 ++ bytesOf 4 c.nextGrid) ∧
        OnlyCtx s s1 c.id { c with grids := c.grids ++ [g], nextGrid := (c.nextGrid + 1) % 2 ^ 32 } ∧
        g.num = c.nextGrid ∧ g.st = .queued ∧ g.held = false ∧ g.release = none ∧
        g.desc.khdr.toNat = fieldAt r.payload 4 8 ∧ g.desc.code.toNat = fieldAt r.payload 12 8) ∧
    (Names s r 68 c → ¬ LaunchFine (r.payload.drop 4) →
      ∃ s', exec (.hostLaunch r) s = .next s' ∧ Answered s s' r 0x30 0 (bytesOf 4 2 ++ bytesOf 4 0)) ∧
    (∀ g, Names s r 12 c → c.grids.find? (fun x => x.num == fieldAt r.payload 4 4) = some g →
      ((fieldAt r.payload 8 4 = 0 ∨ (fieldAt r.payload 8 4 = 1 ∧ 2 ≤ stateCode g)) →
        ∃ s' p, exec (.gridWait r) s = .next s' ∧ Answered s s' r 0x31 0 p ∧ p.length = 12 ∧ fieldAt p 0 1 = stateCode g ∧
          (g.st = .killed → fieldAt p 2 2 = g.killTeam % 2 ^ 16 ∧ fieldAt p 4 4 = g.killClus % 2 ^ 32 ∧
            fieldAt p 8 4 = g.killPc.toNat)) ∧
      (fieldAt r.payload 8 4 = 1 → stateCode g < 2 → ∃ s', exec (.gridWait r) s = .next s' ∧
        s' = { s with owed := s.owed ++ [⟨r, 0x31, c.id, g.num⟩] })) ∧
    (∀ g on, Names s r 8 c → fieldAt r.payload 4 4 ≠ 0 → findGrid s c.id (fieldAt r.payload 4 4) = some g →
      ∃ s' s1 c', exec (if on = true then .suspend r else .resume r) s = .next s' ∧
        Answered s1 s' r (if on = true then 0x32 else 0x33) 0 [] ∧ OnlyCtx s s1 c.id c' ∧ c' = { c with grids := c'.grids } ∧
        (∀ m, m ≠ fieldAt r.payload 4 4 → findGrid s' c.id m = findGrid s c.id m) ∧
        findGrid s' c.id (fieldAt r.payload 4 4) = some
          (if g.st = .queued then { g with held := on }
           else if g.st = .running ∧ on = true then { g with st := .suspended }
           else if g.st = .suspended ∧ on = false then { g with st := .running } else g))

/-- R91 to R93: a checkpoint begins with L2 written back and takes every byte of GDDR7 as its home served it; its end puts them
at their places in LPDDR6 and answers the header's address. A restore whose image fits puts them back, and its end answers. That
a restore loses the dirty lines of LPDDR6 is the model's choice (log entry 62, DEDUCED). -/
def Obligations.CheckpointsKeepGddr : Prop :=
  ∀ (s : State) (r : Req), Listens s r → s.Inv →
    (s.recovery = false → r.payload = [] → s.manifest.ckptOn = true → ckptBusy s = false →
      (poisonedLines (writeBackAll s)).1.length + (poisonedLines (writeBackAll s)).2.length ≤ 2097144 →
      ∃ s' img clk bad n, exec (.checkpoint r) s = .next s' ∧ s'.teams = s.teams ∧ s'.responses = s.responses ∧
        s'.ckpt = some (.saving img clk bad n) ∧ s'.owed = s.owed ++ [⟨r, 0x40, 0, 0⟩] ∧ clk = s.clk.toNat ∧
        (∀ a, isGddr a = true → physBad s.manifest a = false → sget 0 img a = homeByte s a) ∧
        (∀ i < 4, homeByte s' (ckptHeader + 4 + i) = if i = 0 then 2 else 0) ∧
        ∀ a, ¬ (ckptHeader + 4 ≤ a ∧ a < ckptHeader + 8) → homeByte s' a = homeByte s a) ∧
    (∀ img clk bad n, s.ckpt = some (.saving img clk bad n) → (img.map Prod.fst).Nodup → (∀ x ∈ img, isGddr x.1 = true) →
      bad.length ≤ 2097144 → s.owed = [⟨r, 0x40, 0, 0⟩] →
      ∃ s', exec .checkpointDone s = .next s' ∧ Responded s s' r 0x40 0 (bytesOf 8 ckptHeader) ∧ s'.ckpt = none ∧ s'.owed = [] ∧
        (∀ a, isGddr a = true → sget 0 s'.mem (imageAddr a) = sget 0 img a ∧ homeByte s' a = homeByte s a) ∧
        ∀ i < 4, sget 0 s'.mem (ckptHeader + 4 + i) = if i = 0 then 1 else 0) ∧
    (s.recovery = false → r.payload = [] → s.manifest.ckptOn = true → ckptBusy s = false → headerWord s 4 = 1 →
      headerWord s 16 = s.manifest.srBase → headerWord s 20 = s.manifest.srSize →
      exec (.restore r) s = .next { s with ckpt := some .restoring, owed := s.owed ++ [⟨r, 0x41, 0, 0⟩] }) ∧
    (s.ckpt = some .restoring → s.owed = [⟨r, 0x41, 0, 0⟩] →
      ∃ s', exec .restoreComplete s = .next s' ∧ Responded s s' r 0x41 0 [] ∧ s'.ckpt = none ∧ s'.teams = s.teams ∧ s'.l1 = [] ∧
        (∀ a, isGddr a = true → physBad s.manifest a = false → homeByte s' a = sget 0 s.mem (imageAddr a)) ∧
        ∀ a, isLpddr a = true → homeByte s' a = sget 0 s.mem a)

/-- R355, R356, R370: a peer's read, write and atomic act on the bytes at the home and are answered; a reply ends the access
that awaits it; an acknowledgement takes what it covers; without one the frames are sent again, and after 16 times the stream
fails. -/
def Obligations.FramesActOnce : Prop :=
  (∀ (s : State) (f : Frame) (x : Strm), NextFrame s f x →
    (∀ a pa, f.type = 3 → PeerHits s f a .read pa →
      ∃ s', exec (.remoteRead f) s = .next s' ∧ Replied s s' f 0 ((List.range a.size).map (fun i => homeByte s (pa + i))) ∧
        ∀ b, homeByte s' b = homeByte s b) ∧
    (∀ a pa, s.Inv → f.type = 4 → PeerHits s f a .write pa →
      ∃ s', exec (.remoteWrite f) s = .next s' ∧ Replied s s' f 0 [] ∧
        ∀ b, homeByte s' b = if pa ≤ b ∧ b < pa + a.size then f.payload.getD (24 + (b - pa)) 0 else homeByte s b) ∧
    (∀ a pa, s.Inv → f.type = 5 → PeerHits s f a .atomic pa →
      ∃ s', exec (.remoteAtomic f) s = .next s' ∧ Replied s s' f 0 (bytesOf 8 (leNat (memFrom s pa) a.size)) ∧
        leNat (memFrom s' pa) a.size = peerAtom a (leNat (memFrom s pa) a.size) ∧
        ∀ b, ¬ (pa ≤ b ∧ b < pa + a.size) → homeByte s' b = homeByte s b) ∧
    (f.type = 3 → peerAsk f = none → ∃ s', exec (.remoteRead f) s = .next s' ∧ Replied s s' f 2 [] ∧
      ∀ b, homeByte s' b = homeByte s b) ∧
    (∀ (q : RemoteReq) (t : Team) (op : MemOp) (k : Nat), f.type = 6 → f.stat = 0 → s.remote = [q] → BitVec.ofNat 32 q.tag = f.tag →
      peerStream q.p = f.strm → q.kind = 0 → q.decode = none → findTeam s q.uid = some t → t.hold = some ⟨[q.tag], op⟩ →
      t.pass = none → t.faulted = [] → op.faults = [] → op.lost = [] → op.promote = none → op.flag = some k → t.active ≠ 0 →
      ∃ s' t' p, exec (.remoteReply f) s = .next s' ∧ s'.remote = [] ∧ findTeam s' q.uid = some t' ∧
        t' = { t.movedTo (nextPlace t) with icnt := t.icnt, pend := t.pend ++ [p], flags := t'.flags, hold := none } ∧
        p.flag = k ∧ p.wait = .data ∧ p.dests = op.dests ∧
        p.writes = op.writes ++ q.acc.dsts.zip (loadWords q.acc.sgn (f.payload.take q.acc.size)) ∧
        (∀ i < 12, flagOf t' i = flagOf t i + if i = k then 1 else 0) ∧ ∀ b, homeByte s' b = homeByte s b)) ∧
  (∀ (s : State) (f : Frame) (x : Strm), s.booted = true → s.recovery = false → frameOk s f = true → f.type = 7 →
    f.flg.getLsbD 1 = false → findStream s f.strm = some x → x.failed = false →
    ∃ s' x', exec (.acknowledgement f) s = .next s' ∧ s' = { s with streams := s'.streams } ∧
      findStream s' f.strm = some x' ∧ x' = { x with unacked := x'.unacked } ∧
      (∀ g, g ∈ x'.unacked ↔ g ∈ x.unacked ∧ ¬ Claims.covered f g.1) ∧ ∀ k, k ≠ f.strm → findStream s' k = findStream s k) ∧
  (∀ (s : State) (n : Nat) (x : Strm), findStream s (BitVec.ofNat 32 n) = some x → x.failed = false → x.unacked ≠ [] →
    ((∀ f ∈ x.unacked, f.2 < 16) → ∃ s', exec (.laziaRetransmitTimeout n) s = .next s' ∧ s' = { s with streams := s'.streams } ∧
      findStream s' x.id = some { x with unacked := x.unacked.map (fun f => (f.1, f.2 + 1)) }) ∧
    ((∃ f ∈ x.unacked, 16 ≤ f.2) → (∀ q ∈ s.remote, peerStream q.p ≠ x.id) →
      ∃ s', exec (.laziaRetransmitTimeout n) s = .next s' ∧ s' = { s with
          streams := s'.streams, peers := s'.peers, owed := s.owed.filter (fun o => o.req.strm != x.id) } ∧
        findStream s' x.id = some { x with failed := true, unacked := [], got := [] } ∧
        ∀ p ∈ s'.peers, peerStream p.p = x.id → p.failed = true))

/-- R92, R372, R375: RESET, and RESET_N held for 1 µs, leave nothing running and keep LPDDR6; a boot reads the manifest, goes
into recovery where that fails its checks, and zeroes GDDR7; without power all memory is lost; a hot die's budget is halved until
it has cooled, and at 110 °C the module switches off. The model's choice, not a rule's: a reset keeps LPDDR6 as its home served
it (log entry 63, DEDUCED); a thermal shutdown is a removed supply (log entry 65, DEDUCED); a manifest with an MTU that R354 does
not allow fails its checks (log entry 102, DEDUCED). -/
def Obligations.ResetBootAndPower : Prop :=
  ∀ (s : State), s.Inv →
    (∀ r, Listens s r → s.recovery = false → r.payload = [] →
      ∃ s', exec (.hostReset r) s = .next s' ∧ WasReset s s' ∧ s'.responses = s.responses ++ [⟨r.strm, r.tag, 0x03, 0, []⟩]) ∧
    (∀ ns, s.powered = true → (1000 ≤ ns → ∃ s', exec (.resetN ns) s = .next s' ∧ WasReset s s') ∧
      (ns < 1000 → exec (.resetN ns) s = .next s)) ∧
    (∀ flash, s.booted = false →
      let m := flash.getD s.manifest
      let good := m.valid = true ∧ 1 ≤ m.srSize ∧ m.srSize ≤ 32 ∧ m.srBase + m.srSize ≤ 512 ∧
        m.srBase / 64 = (m.srBase + m.srSize - 1) / 64 ∧ ∀ p ∈ m.ports, 1500 ≤ p.mtu ∧ p.mtu ≤ 9216
      ∃ s', exec (.boot flash) s = .next s' ∧ s' = { s with
          mem := s'.mem, manifest := s'.manifest, recovery := s'.recovery, ports := s'.ports, powered := true, pwrGood := true
          booted := true } ∧
        (∀ a, sget 0 s'.mem a = if isGddr a = true then 0 else sget 0 s.mem a) ∧
        (good → s'.manifest = m ∧ s'.recovery = false ∧ s'.ports = m.ports) ∧ (¬ good → s'.recovery = true)) ∧
    (∃ s', exec .powerLoss s = .next s' ∧ WasCut s s') ∧
    (∀ die (temp : BitVec 16), s.powered = true → die < 8 →
      (800 ≤ temp.toInt → ∃ s', exec (.thermalThrottle die temp) s = .next s' ∧ s' = { s with dies := s'.dies } ∧
        dieOf s' die = { dieOf s die with temp := temp, throttled := true } ∧ ∀ e, e ≠ die → dieOf s' e = dieOf s e) ∧
      (temp.toInt < 720 → ∃ s', exec (.thermalRecover die temp) s = .next s' ∧ s' = { s with dies := s'.dies } ∧
        dieOf s' die = { dieOf s die with temp := temp, throttled := false } ∧ ∀ e, e ≠ die → dieOf s' e = dieOf s e) ∧
      (880 ≤ temp.toInt → ∃ s', exec (.thermalShutdown die temp) s = .next s' ∧ WasCut s s'))

/-- R18, R27, R29, R39 to R42: a core's issue move fetches the word at the place of the team it picks, decodes it through the
team's decode table, and executes it; around that a step only fills caches, then lets follow what follows of itself, and passes
time. -/
def Obligations.StepRunsTheDecodedWord : Prop :=
  ∀ (s : State) (t : Team) (core : Nat) (rest : List Move) (w : Word) (i : Instr) (m : Mods), s.agenda = .issue core :: rest →
    s.powered = true → pickTeam { s with agenda := rest } core = some t →
    (if t.begun = true then t.ir = w else codeAt s t (wordAddr t) w) →
    (t.wix = 0 → t.clause.len = 0 → t.pc = t.hdr.entry → isHeader w = true) →
    (promoting t = none ∨ (usesMemory i = false ∧ i ≠ .trefresh)) → decodeWord (tableEntry t.table w) w = .ok i m →
    ∃ s1, s1 = { s with agenda := rest, cur := some t.uid, icache := s1.icache, cores := s1.cores, dies := s1.dies } ∧
      (∀ c, (coreOf s1 c).plain = (coreOf s c).plain) ∧ (∀ d, (dieOf s1 d).plain = (dieOf s d).plain) ∧
      step s = thenDo (exec i (setTeam s1 { t with ir := w, fmod := m })) (fun x => tick (tidy x))

/-- R18 to R20, R26, R35 to R38, R44: decoding a word that the encoder makes of any header, hint or instruction word gives that
instruction with every operand, and a word that decodes is the one that the encoder makes of what it decodes to. -/
def Obligations.DecodeAndEncodeAgree : Prop :=
  (∀ i : Instr, i.IsWord → ∃ w, encode i = some w ∧ decodeDt1 w = .ok i Mods.zero) ∧
  ∀ (w : Word) (i : Instr) (m : Mods), decodeDt1 w = .ok i m → i.IsWord ∧ m = Mods.zero ∧ encode i = some w

/-- Words written out from the tables of spec/02_words.md, 10_integer.md, 15_way_back.md and 16_control.md decode to the
instructions they stand for. -/
def Obligations.SomeWordsDecode : Prop :=
  decodeDt1 0b11100000000001100000001001000000#32 = .ok (.clauseHeader 3 0 1 4 0 0 0) Mods.zero ∧
  decodeDt1 0b11000000000000000000000000000101#32 = .ok (.ext 5) Mods.zero ∧
  decodeDt1 0b00010000000001100001000100000001#32 = .ok (.add 3 1 2 0 1) Mods.zero ∧
  decodeDt1 0b00010000100001100001111111111111#32 = .ok (.addi 3 1 0xFFF) Mods.zero ∧
  decodeDt1 0b00000000100000011111111111111110#32 = .ok (.bra 0x1FFFE) Mods.zero ∧
  decodeDt1 0b00000000000000000000000000000000#32 = .ill 0x01

/-- Reset (R138, R311, R351, R363, R372, R375): no context, team or cluster; GDDR7 reads as zero and nothing is poisoned; every
die has its full budget, every core the partition word 0x0000_0818, and the clock is zero. -/
def Obligations.ResetState : Prop :=
  State.reset.contexts = [] ∧ State.reset.teams = [] ∧ State.reset.clusters = [] ∧ State.reset.stores = [] ∧
    State.reset.clk = 0 ∧ State.reset.bubbles = 0 ∧ (∀ a, isGddr a = true → homeByte State.reset a = 0) ∧
    (∀ k, lineHop State.reset k = 0) ∧ (∀ d < 8, (dieOf State.reset d).cap = 665600 ∧ (dieOf State.reset d).throttled = false) ∧
    ∀ c, (coreOf State.reset c).partword = 0x00000818

/-- The state after reset meets the invariant. -/
def Obligations.ResetMeetsInvariant : Prop := State.reset.Inv

/-- R86: every step keeps the device arrays and L2 in canonical form, with whole lines in L2. -/
def Obligations.StepKeepsInvariant : Prop := ∀ s s' : State, s.Inv → step s = .next s' → s'.Inv

/-- R67, R69 to R71, R73, R76: an encoding is decoded to its exact value; a finite value other than zero is rounded to a format
by its mode, with overflow, tininess and flushing as those rules say; one that has an encoding gives that encoding and raises
nothing (roundF is given the sign of a zero, which R69 decides before it: log entry 80 names the model's choice for conversions);
and a conversion to an integer rounds by its mode, and wraps or saturates with IV. -/
def Obligations.RoundingByMode : Prop :=
  (∀ (f : Fmt) (x : Nat), x < 2 ^ f.width →
    (¬ special f x → ∃ m e, f.val x = .fin (signOf f x) m e ∧ Stands f x (signed (signOf f x) * m * (2 : ℝ) ^ e)) ∧
    (special f x → f.val x = if f ≠ .e4m3 ∧ fracOf f x = 0 then .inf (signOf f x)
      else .nan (f ≠ .e4m3 && decide (fracOf f x < 2 ^ (f.mb - 1)))) ∧
    (f.valFtz false x = f.val x ∧ (f ∉ plainFormats ∨ expOf f x ≠ 0 → f.valFtz true x = f.val x)) ∧
    (f ∈ plainFormats → expOf f x = 0 → ∃ e, f.valFtz true x = .fin (signOf f x) 0 e)) ∧
  (∀ (f : Fmt) (rm : Nat) (sat ftz neg : Bool) (m : Nat) (e : ℤ), rm < 5 → 0 < m →
    RoundedTo f rm sat ftz neg (signed neg * m * (2 : ℝ) ^ e) (roundF f rm sat ftz (.fin neg m e))) ∧
  (∀ f ∈ plainFormats, ∀ (x rm : Nat) (sat : Bool), x < 2 ^ f.width → (f.val x).isNan = false →
    roundF f rm sat false (f.val x) = (x, 0)) ∧
  (∀ n ∈ [8, 16, 32, 64], ∀ (sgn sat neg sg : Bool) (rm m : Nat) (e : ℤ), rm < 5 →
    let lo : ℤ := if sgn then -2 ^ (n - 1) else 0
    let hi : ℤ := if sgn then 2 ^ (n - 1) - 1 else 2 ^ n - 1
    (∃ y : ℤ, Picked (fun z => ∃ k : ℤ, z = k) (fun z => ∃ k : ℤ, z = 2 * k) rm (signed neg * m * (2 : ℝ) ^ e) y ∧
      floatToInt n sgn rm sat (.fin neg m e) =
        if lo ≤ y ∧ y ≤ hi then ((y % 2 ^ n).toNat, 0)
        else (((if sat then (if y < lo then lo else hi) else y) % 2 ^ n).toNat, 1)) ∧
    floatToInt n sgn rm sat (.nan sg) = (0, 1) ∧
    floatToInt n sgn rm sat (.inf neg) = (if sat then ((if neg then lo else hi) % 2 ^ n).toNat else 0, 1))

/-- R71, R75, R79, R81, R194, R196, R200, R203: fmin, fmax and fcmp order FP32 values as the rules say; a seed of frcp or frsq is
the member of G nearest to the exact value; a conversion between formats follows R75's table, element by element; the pairwise
tree combines its halves; and the block scale of Q4N is rounded twice. The sign of a converted zero is the model's choice (log
entry 80). -/
def Obligations.ComparisonsSeedsConversions : Prop :=
  (∀ (isMax ftz : Bool) (x y : Nat), x < 2 ^ 32 → y < 2 ^ 32 →
    let a := flush32 ftz x
    let b := flush32 ftz y
    fMinMax isMax ftz x y =
      (if nan32 a ∧ nan32 b then 0x7FC00000 else if nan32 a then b else if nan32 b then a
        else if (orderKey false a ≤ orderKey false b) = (isMax = false) then a else b,
       if snan32 a ∨ snan32 b then 1 else 0)) ∧
  (∀ (m : Mods) (k : Nat) (x y : Word), k < 8 →
    let a := flush32 (m.ftz == 1) x.toNat
    let b := flush32 (m.ftz == 1) y.toNat
    fcmpWord m k x y = (if fcmpTrue k a b then 1 else 0,
      if (if 2 ≤ k ∧ k ≤ 5 then nan32 a ∨ nan32 b else snan32 a ∨ snan32 b) then 1 else 0)) ∧
  (∀ (ftz : Bool) (x : Nat), x < 2 ^ 32 →
    let a := flush32 ftz x
    (nan32 a = true → fRcp ftz x = (0x7FC00000, if snan32 a then 1 else 0) ∧ fRsq ftz x = fRcp ftz x) ∧
    (a = 0 → fRcp ftz x = (0x7F800000, 2) ∧ fRsq ftz x = (0x7F800000, 2)) ∧
    (a = 0x80000000 → fRcp ftz x = (0xFF800000, 2) ∧ fRsq ftz x = (0xFF800000, 2)) ∧
    (a = 0x7F800000 → fRcp ftz x = (0, 0) ∧ fRsq ftz x = (0, 0)) ∧
    (a = 0xFF800000 → fRcp ftz x = (0x80000000, 0)) ∧ (0x80000000 < a → a ≤ 0xFF800000 → fRsq ftz x = (0x7FC00000, 1)) ∧
    ∀ v, Stands .fp32 a v → v ≠ 0 → SeedOf ftz (1 / v) (fRcp ftz x) ∧ (0 < v → SeedOf ftz (1 / Real.sqrt v) (fRsq ftz x))) ∧
  (∀ (f : Fmt) (rm : Nat) (sat nof ftz neg sg : Bool) (m : Nat) (e : ℤ),
    let s := if neg then 2 ^ (f.eb + f.mb) else 0
    convF f rm sat nof ftz (.nan sg) = (if f = .e2m1 then (0, 1) else (f.nanBits, if sg then 1 else 0)) ∧
    convF f rm sat nof ftz (.inf neg) = (if f = .e4m3 then (if nof then 0x7F else s + 0x7E)
      else if f = .e2m1 then s + 7 else s + (2 ^ f.eb - 1) * 2 ^ f.mb, 0) ∧
    convF f rm sat nof ftz (.fin neg 0 e) = (if rm = 3 then 2 ^ (f.eb + f.mb) else 0, 0) ∧
    (0 < m → let r := roundF f rm sat ftz (.fin neg m e)
      convF f rm sat nof ftz (.fin neg m e) = if f = .e4m3 ∧ nof = true ∧ r.2 &&& 4 ≠ 0 then (0x7F, r.2) else r) ∧
    toE8m0 (.nan sg) = (0xFF, if sg then 1 else 0) ∧ toE8m0 (.inf neg) = (if neg then 0 else 0xFF, 1) ∧
    toE8m0 (.fin neg 0 e) = (0, 1) ∧ toE8m0 (.fin true m e) = (0, 1) ∧
    ∀ k : ℤ, (2 : ℝ) ^ k ≤ m * (2 : ℝ) ^ e → m * (2 : ℝ) ^ e < (2 : ℝ) ^ (k + 1) →
      toE8m0 (.fin false m e) = if k + 127 < 0 then (0, 0) else if 254 < k + 127 then (0xFE, 4) else ((k + 127).toNat, 0)) ∧
  ([Fmt.fp32, .bf16, .fp16, .e4m3, .e5m2].map Fmt.nanBits = [0x7FC00000, 0x7FC0, 0x7E00, 0x7F, 0x7E] ∧
    ffFormats.map Fmt.maxBits = [0x7F7FFFFF, 0x7F7F, 0x7BFF, 0x7E, 0x7B, 0x7]) ∧
  (∀ (m : Mods) (st dt n : Nat) (nof : Bool) (ws : List Word), st ≤ 6 → dt ≤ 6 → n ≤ 2 →
    let one := fun i =>
      let v := ffValue m st dt (ffElement st ws i)
      if dt = 6 then toE8m0 v else convF (ffFormats.getD dt .fp32) m.rm.toNat (m.sat == 1) nof (m.ftz == 1) v
    (∀ i < n, ffElement dt (cvtWords m st dt nof n ws).1 i = (one i).1) ∧
    (cvtWords m st dt nof n ws).2 = (List.range n).foldl (fun acc i => acc ||| (one i).2) 0) ∧
  (∀ (op : Nat) (x : Option (Word × Nat)) (a b : Word × Nat) (d : Nat) (vs ws : List (Option (Word × Nat))),
    treeOf op [x] = x ∧ combOpt op none x = x ∧ combOpt op x none = x ∧
    combOpt op (some a) (some b) = some ((reduxComb op a.1 b.1).1, a.2 ||| b.2 ||| (reduxComb op a.1 b.1).2) ∧
    (d < 10 → vs.length = 2 ^ d → ws.length = 2 ^ d → treeOf op (vs ++ ws) = combOpt op (treeOf op vs) (treeOf op ws))) ∧
  ∀ (b8 x : Nat), b8 < 256 → x < 2 ^ 32 →
    (nan32 x = true → q4nScale b8 x = 0x7FC00000) ∧ (x % 2 ^ 31 = 0x7F800000 → b8 ≠ 0 → q4nScale b8 x = x) ∧
    ∀ v, Stands .fp32 x v → (v = 0 ∨ b8 = 0 → q4nScale b8 x = x / 2 ^ 31 * 2 ^ 31) ∧
      (v ≠ 0 → b8 ≠ 0 → ∃ tq fl, Picked (onGrid 24 (some (-149))) (onGrid 23 (some (-148))) 0 ((b8 : ℝ) / 255) tq ∧
        RoundedTo .fp32 0 false false (signOf .fp32 x) (v * tq) (q4nScale b8 x, fl))

/-- R205, R206: fexp2, flog2 and sincos.t take their special operands as the tables say, and give the rounding of a value that lies
next to the exact one, the exact one where it has an encoding of its own; sincos.t is odd and even bit for bit. How near that value
lies is the model's (log entry 12, DEDUCED): the rules give no way to compute the correctly rounded result. -/
def Obligations.ElementaryFunctions : Prop :=
  (∀ (ftz : Bool) (x : Nat), x < 2 ^ 32 →
    let a := flush32 ftz x
    (nan32 a = true → fExp2 ftz x = (0x7FC00000, if snan32 a then 1 else 0) ∧ fLog2 ftz x = fExp2 ftz x) ∧
    (a = 0x7F800000 → fExp2 ftz x = (0x7F800000, 0) ∧ fLog2 ftz x = (0x7F800000, 0)) ∧
    (a = 0xFF800000 → fExp2 ftz x = (0, 0)) ∧
    (a = 0 ∨ a = 0x80000000 → fExp2 ftz x = (0x3F800000, 0) ∧ fLog2 ftz x = (0xFF800000, 2)) ∧
    (0x80000000 < a → a ≤ 0xFF800000 → fLog2 ftz x = (0x7FC00000, 1)) ∧
    ∀ v : ℝ, Stands .fp32 a v →
      (∃ w, |w - (2 : ℝ) ^ v| ≤ (2 : ℝ) ^ v / 2 ^ 30 ∧ ((∃ n : ℤ, v = n) → w = (2 : ℝ) ^ v) ∧
        RoundedTo .fp32 0 false ftz false w (fExp2 ftz x)) ∧
      (0 < v → ∃ w, |w - Real.logb 2 v| ≤ 1 / 2 ^ 30 ∧ ((∃ n : ℤ, v = (2 : ℝ) ^ n) → w = Real.logb 2 v) ∧
        (w = 0 → fLog2 ftz x = (0, 0)) ∧
        ∀ neg, (neg = true ↔ w < 0) → w ≠ 0 → RoundedTo .fp32 0 false false neg w (fLog2 ftz x))) ∧
  fSinCos 0 = (0, 0x3F800000) ∧ fSinCos (2 ^ 30) = (0x3F800000, 0) ∧ fSinCos (2 ^ 31) = (0, 0xBF800000) ∧
  fSinCos (3 * 2 ^ 30) = (0xBF800000, 0) ∧
  ∀ u, 0 < u → u < 2 ^ 32 →
    (fSinCos (2 ^ 32 - u)).2 = (fSinCos u).2 ∧
    ((fSinCos u).1 ≠ 0 → (fSinCos (2 ^ 32 - u)).1 = ((fSinCos u).1 + 2 ^ 31) % 2 ^ 32) ∧
    (u % 2 ^ 30 ≠ 0 → ∃ a b, let th := 2 * Real.pi * u / 2 ^ 32
      |a - Real.sin th| ≤ |Real.sin th| / 2 ^ 60 ∧ |b - Real.cos th| ≤ |Real.cos th| / 2 ^ 60 ∧
      ∀ neg, ((neg = true ↔ a < 0) → RoundedTo .fp32 0 false false neg a ((fSinCos u).1, 0)) ∧
        ((neg = true ↔ b < 0) → RoundedTo .fp32 0 false false neg b ((fSinCos u).2, 0)))
end

