-- ==== Sys2Proof/Laws/Sparse.lean ====
section
/-! SUPPORT. Laws of the sparse stores: a read after a write, and the canonical form that every write keeps. -/

namespace Sys2Proof.Machine

variable {β : Type}

@[simp] theorem sget_nil (d : β) (a : Nat) : sget d [] a = d := rfl

theorem sget_serase_same (d : β) (m : List (Nat × β)) (a : Nat) : sget d (serase a m) a = d := by
  induction m with
  | nil => rfl
  | cons kv m ih =>
    obtain ⟨k, w⟩ := kv
    by_cases h : a = k <;> simp [serase, sget, h] <;> simpa [h] using ih

theorem sget_serase_ne (d : β) (m : List (Nat × β)) {a b : Nat} (hab : b ≠ a) : sget d (serase a m) b = sget d m b := by
  induction m with
  | nil => rfl
  | cons kv m ih =>
    obtain ⟨k, w⟩ := kv
    by_cases h : a = k
    · subst h; simp [serase, sget, hab, ih]
    · simp [serase, sget, h, ih]

theorem sget_sinsert_ne (d : β) (m : List (Nat × β)) {a b : Nat} (v : β) (hab : b ≠ a) :
    sget d (sinsert a v m) b = sget d m b := by
  induction m with
  | nil => simp [sinsert, sget, hab]
  | cons kv m ih =>
    obtain ⟨k, w⟩ := kv
    unfold sinsert
    split <;> simp [sget, hab, ih]

theorem sget_sinsert_same (d : β) (m : List (Nat × β)) (a : Nat) (v : β) :
    sget d (sinsert a v (serase a m)) a = v := by
  induction m with
  | nil => simp [serase, sinsert, sget]
  | cons kv m ih =>
    obtain ⟨k, w⟩ := kv
    by_cases h : a = k
    · simp [serase, h] at *; exact ih
    · simp only [serase, h, if_false, sinsert]
      split <;> simp [sget, h, ih]

/-- A read at the key of a write gives the value written. -/
@[simp] theorem sget_sput_same [DecidableEq β] (d : β) (m : List (Nat × β)) (a : Nat) (v : β) :
    sget d (sput d m a v) a = v := by
  unfold sput
  split
  · next h => rw [h, sget_serase_same]
  · rw [sget_sinsert_same]

/-- A write leaves every other key alone. -/
theorem sget_sput_ne [DecidableEq β] (d : β) (m : List (Nat × β)) {a b : Nat} (v : β) (hab : b ≠ a) :
    sget d (sput d m a v) b = sget d m b := by
  unfold sput
  split
  · rw [sget_serase_ne d m hab]
  · rw [sget_sinsert_ne d _ v hab, sget_serase_ne d m hab]

theorem sget_sput [DecidableEq β] (d : β) (m : List (Nat × β)) (a b : Nat) (v : β) :
    sget d (sput d m a v) b = if b = a then v else sget d m b := by
  split
  · next h => rw [h, sget_sput_same]
  · next h => rw [sget_sput_ne d m v h]

@[simp] theorem sputs_nil [DecidableEq β] (d : β) (m : List (Nat × β)) : sputs d m [] = m := rfl

@[simp] theorem sputs_cons [DecidableEq β] (d : β) (m : List (Nat × β)) (w : Nat × β) (ws : List (Nat × β)) :
    sputs d m (w :: ws) = sputs d (sput d m w.1 w.2) ws := rfl

theorem sputs_append [DecidableEq β] (d : β) (m : List (Nat × β)) (xs ys : List (Nat × β)) :
    sputs d m (xs ++ ys) = sputs d (sputs d m xs) ys := by
  simp [sputs, List.foldl_append]

/-- Writes leave every key that they do not name alone. -/
theorem sget_sputs_ne [DecidableEq β] (d : β) (ws : List (Nat × β)) (m : List (Nat × β)) {b : Nat}
    (h : ∀ w ∈ ws, w.1 ≠ b) : sget d (sputs d m ws) b = sget d m b := by
  induction ws generalizing m with
  | nil => rfl
  | cons w ws ih =>
    rw [sputs_cons, ih _ (fun x hx => h x (List.mem_cons_of_mem _ hx)),
      sget_sput_ne d m w.2 (Ne.symm (h w List.mem_cons_self))]

/-- The last write to a key is what it reads as. -/
theorem sget_sputs_last [DecidableEq β] (d : β) (xs ys : List (Nat × β)) (m : List (Nat × β)) (a : Nat) (v : β)
    (h : ∀ w ∈ ys, w.1 ≠ a) : sget d (sputs d m (xs ++ (a, v) :: ys)) a = v := by
  rw [sputs_append, sputs_cons, sget_sputs_ne d ys _ h, sget_sput_same]

/-! ### The canonical form -/

theorem sokFrom_weaken [DecidableEq β] (d : β) (m : List (Nat × β)) (lo : Option Nat) (h : sokFrom d lo m = true) :
    sokFrom d none m = true := by
  cases m with
  | nil => rfl
  | cons kv m =>
    obtain ⟨k, w⟩ := kv
    simp [sokFrom] at *
    exact ⟨h.1.2, h.2⟩

theorem sokFrom_mono [DecidableEq β] (d : β) (m : List (Nat × β)) {a b : Nat} (hab : a ≤ b)
    (h : sokFrom d (some b) m = true) : sokFrom d (some a) m = true := by
  cases m with
  | nil => rfl
  | cons kv m =>
    obtain ⟨k, w⟩ := kv
    simp [sokFrom] at *
    exact ⟨⟨by omega, h.1.2⟩, h.2⟩

theorem serase_sokFrom [DecidableEq β] (d : β) (a : Nat) (m : List (Nat × β)) (lo : Option Nat)
    (h : sokFrom d lo m = true) : sokFrom d lo (serase a m) = true := by
  induction m generalizing lo with
  | nil => exact h
  | cons kv m ih =>
    obtain ⟨k, w⟩ := kv
    simp only [serase]
    simp only [sokFrom, Bool.and_eq_true] at h
    split
    · apply ih
      cases lo with
      | none => exact sokFrom_weaken d m _ h.2
      | some l => exact sokFrom_mono d m (Nat.le_of_lt (by simpa using h.1.1)) h.2
    · simp only [sokFrom, Bool.and_eq_true]
      exact ⟨h.1, ih _ h.2⟩

theorem sinsert_sokFrom [DecidableEq β] (d : β) (a : Nat) (v : β) (m : List (Nat × β)) (lo : Option Nat)
    (hv : v ≠ d) (hlo : ∀ l, lo = some l → l < a) (hm : ∀ w, (a, w) ∉ m) (h : sokFrom d lo m = true) :
    sokFrom d lo (sinsert a v m) = true := by
  induction m generalizing lo with
  | nil => cases lo <;> simp [sinsert, sokFrom, hv]; exact hlo _ rfl
  | cons kv m ih =>
    obtain ⟨k, w⟩ := kv
    simp only [sokFrom, Bool.and_eq_true] at h
    unfold sinsert
    split
    · next hak =>
      simp only [sokFrom, Bool.and_eq_true]
      refine ⟨⟨?_, by simpa using hv⟩, ⟨by simpa using hak, h.1.2⟩, h.2⟩
      cases lo with
      | none => rfl
      | some l => simpa using hlo l rfl
    · next hak =>
      have hne : k ≠ a := fun e => hm w (by simp [e])
      simp only [sokFrom, Bool.and_eq_true]
      refine ⟨h.1, ih _ ?_ (fun x hx => hm x (List.mem_cons_of_mem _ hx)) h.2⟩
      intro l hl
      cases hl
      omega

theorem serase_absent (a : Nat) (m : List (Nat × β)) (w : β) : (a, w) ∉ serase a m := by
  induction m with
  | nil => simp [serase]
  | cons kv m ih =>
    obtain ⟨k, v⟩ := kv
    by_cases h : a = k <;> simp [serase, h] at * <;> simp_all

/-- A write keeps the canonical form. -/
theorem sput_sok [DecidableEq β] (d : β) (m : List (Nat × β)) (a : Nat) (v : β) (h : sok d m = true) :
    sok d (sput d m a v) = true := by
  unfold sput sok at *
  split
  · exact serase_sokFrom d a m none h
  · next hv =>
    exact sinsert_sokFrom d a v _ none hv (by simp) (serase_absent a m) (serase_sokFrom d a m none h)

/-- Writes keep the canonical form. -/
theorem sputs_sok [DecidableEq β] (d : β) (ws : List (Nat × β)) (m : List (Nat × β)) (h : sok d m = true) :
    sok d (sputs d m ws) = true := by
  induction ws generalizing m with
  | nil => exact h
  | cons w ws ih => rw [sputs_cons]; exact ih _ (sput_sok d m _ _ h)

theorem filter_sokFrom [DecidableEq β] (d : β) (p : Nat × β → Bool) (m : List (Nat × β)) (lo : Option Nat)
    (h : sokFrom d lo m = true) : sokFrom d lo (m.filter p) = true := by
  induction m generalizing lo with
  | nil => exact h
  | cons kv m ih =>
    obtain ⟨k, w⟩ := kv
    simp only [sokFrom, Bool.and_eq_true] at h
    rw [List.filter_cons]
    split
    · simp only [sokFrom, Bool.and_eq_true]
      exact ⟨h.1, ih _ h.2⟩
    · apply ih
      cases lo with
      | none => exact sokFrom_weaken d m _ h.2
      | some l => exact sokFrom_mono d m (Nat.le_of_lt (by simpa using h.1.1)) h.2

/-- Dropping entries keeps the canonical form. -/
theorem filter_sok [DecidableEq β] (d : β) (p : Nat × β → Bool) (m : List (Nat × β)) (h : sok d m = true) :
    sok d (m.filter p) = true := filter_sokFrom d p m none h

theorem sdrop_sok [DecidableEq β] (d : β) (m : List (Nat × β)) (p : Nat → Bool) (h : sok d m = true) :
    sok d (sdrop m p) = true := filter_sok d _ m h

theorem sok_nil [DecidableEq β] (d : β) : sok d ([] : List (Nat × β)) = true := rfl

end Sys2Proof.Machine
end

