-- ==== Sys2Proof/Laws/State.lean ====
section
/-! SUPPORT. One lemma for each field and update: what an update of the state or of a team leaves in that field. -/

namespace Sys2Proof.Machine

/-! ### setTeam -/

@[simp] theorem setTeam_mem (s : State) (t : Team) : (setTeam s t).mem = s.mem := rfl
@[simp] theorem setTeam_l2 (s : State) (t : Team) : (setTeam s t).l2 = s.l2 := rfl
@[simp] theorem setTeam_l2Bad (s : State) (t : Team) : (setTeam s t).l2Bad = s.l2Bad := rfl
@[simp] theorem setTeam_l2First (s : State) (t : Team) : (setTeam s t).l2First = s.l2First := rfl
@[simp] theorem setTeam_poison (s : State) (t : Team) : (setTeam s t).poison = s.poison := rfl
@[simp] theorem setTeam_poisonMoved (s : State) (t : Team) : (setTeam s t).poisonMoved = s.poisonMoved := rfl
@[simp] theorem setTeam_cover (s : State) (t : Team) : (setTeam s t).cover = s.cover := rfl
@[simp] theorem setTeam_srCheck (s : State) (t : Team) : (setTeam s t).srCheck = s.srCheck := rfl
@[simp] theorem setTeam_l1 (s : State) (t : Team) : (setTeam s t).l1 = s.l1 := rfl
@[simp] theorem setTeam_icache (s : State) (t : Team) : (setTeam s t).icache = s.icache := rfl
@[simp] theorem setTeam_opbuf (s : State) (t : Team) : (setTeam s t).opbuf = s.opbuf := rfl
@[simp] theorem setTeam_journal (s : State) (t : Team) : (setTeam s t).journal = s.journal := rfl
@[simp] theorem setTeam_stores (s : State) (t : Team) : (setTeam s t).stores = s.stores := rfl
@[simp] theorem setTeam_clusters (s : State) (t : Team) : (setTeam s t).clusters = s.clusters := rfl
@[simp] theorem setTeam_partials (s : State) (t : Team) : (setTeam s t).partials = s.partials := rfl
@[simp] theorem setTeam_contexts (s : State) (t : Team) : (setTeam s t).contexts = s.contexts := rfl
@[simp] theorem setTeam_cores (s : State) (t : Team) : (setTeam s t).cores = s.cores := rfl
@[simp] theorem setTeam_dies (s : State) (t : Team) : (setTeam s t).dies = s.dies := rfl
@[simp] theorem setTeam_bubble (s : State) (t : Team) : (setTeam s t).bubble = s.bubble := rfl
@[simp] theorem setTeam_bubbles (s : State) (t : Team) : (setTeam s t).bubbles = s.bubbles := rfl
@[simp] theorem setTeam_grants (s : State) (t : Team) : (setTeam s t).grants = s.grants := rfl
@[simp] theorem setTeam_roots (s : State) (t : Team) : (setTeam s t).roots = s.roots := rfl
@[simp] theorem setTeam_nodes (s : State) (t : Team) : (setTeam s t).nodes = s.nodes := rfl
@[simp] theorem setTeam_frames (s : State) (t : Team) : (setTeam s t).frames = s.frames := rfl
@[simp] theorem setTeam_recycle (s : State) (t : Team) : (setTeam s t).recycle = s.recycle := rfl
@[simp] theorem setTeam_peers (s : State) (t : Team) : (setTeam s t).peers = s.peers := rfl
@[simp] theorem setTeam_streams (s : State) (t : Team) : (setTeam s t).streams = s.streams := rfl
@[simp] theorem setTeam_remote (s : State) (t : Team) : (setTeam s t).remote = s.remote := rfl
@[simp] theorem setTeam_nextTag (s : State) (t : Team) : (setTeam s t).nextTag = s.nextTag := rfl
@[simp] theorem setTeam_responses (s : State) (t : Team) : (setTeam s t).responses = s.responses := rfl
@[simp] theorem setTeam_owed (s : State) (t : Team) : (setTeam s t).owed = s.owed := rfl
@[simp] theorem setTeam_scrubCtx (s : State) (t : Team) : (setTeam s t).scrubCtx = s.scrubCtx := rfl
@[simp] theorem setTeam_ckpt (s : State) (t : Team) : (setTeam s t).ckpt = s.ckpt := rfl
@[simp] theorem setTeam_manifest (s : State) (t : Team) : (setTeam s t).manifest = s.manifest := rfl
@[simp] theorem setTeam_ports (s : State) (t : Team) : (setTeam s t).ports = s.ports := rfl
@[simp] theorem setTeam_recovery (s : State) (t : Team) : (setTeam s t).recovery = s.recovery := rfl
@[simp] theorem setTeam_powered (s : State) (t : Team) : (setTeam s t).powered = s.powered := rfl
@[simp] theorem setTeam_booted (s : State) (t : Team) : (setTeam s t).booted = s.booted := rfl
@[simp] theorem setTeam_pwrGood (s : State) (t : Team) : (setTeam s t).pwrGood = s.pwrGood := rfl
@[simp] theorem setTeam_links (s : State) (t : Team) : (setTeam s t).links = s.links := rfl
@[simp] theorem setTeam_notices (s : State) (t : Team) : (setTeam s t).notices = s.notices := rfl
@[simp] theorem setTeam_clk (s : State) (t : Team) : (setTeam s t).clk = s.clk := rfl
@[simp] theorem setTeam_fresh (s : State) (t : Team) : (setTeam s t).fresh = s.fresh := rfl
@[simp] theorem setTeam_ticks (s : State) (t : Team) : (setTeam s t).ticks = s.ticks := rfl
@[simp] theorem setTeam_agenda (s : State) (t : Team) : (setTeam s t).agenda = s.agenda := rfl
@[simp] theorem setTeam_cur (s : State) (t : Team) : (setTeam s t).cur = s.cur := rfl
@[simp] theorem setTeam_nextUid (s : State) (t : Team) : (setTeam s t).nextUid = s.nextUid := rfl
@[simp] theorem setTeam_nextSeq (s : State) (t : Team) : (setTeam s t).nextSeq = s.nextSeq := rfl

/-! ### setCtx -/

@[simp] theorem setCtx_mem (s : State) (c : Context) : (setCtx s c).mem = s.mem := rfl
@[simp] theorem setCtx_l2 (s : State) (c : Context) : (setCtx s c).l2 = s.l2 := rfl
@[simp] theorem setCtx_l2Bad (s : State) (c : Context) : (setCtx s c).l2Bad = s.l2Bad := rfl
@[simp] theorem setCtx_l2First (s : State) (c : Context) : (setCtx s c).l2First = s.l2First := rfl
@[simp] theorem setCtx_poison (s : State) (c : Context) : (setCtx s c).poison = s.poison := rfl
@[simp] theorem setCtx_poisonMoved (s : State) (c : Context) : (setCtx s c).poisonMoved = s.poisonMoved := rfl
@[simp] theorem setCtx_cover (s : State) (c : Context) : (setCtx s c).cover = s.cover := rfl
@[simp] theorem setCtx_srCheck (s : State) (c : Context) : (setCtx s c).srCheck = s.srCheck := rfl
@[simp] theorem setCtx_l1 (s : State) (c : Context) : (setCtx s c).l1 = s.l1 := rfl
@[simp] theorem setCtx_icache (s : State) (c : Context) : (setCtx s c).icache = s.icache := rfl
@[simp] theorem setCtx_opbuf (s : State) (c : Context) : (setCtx s c).opbuf = s.opbuf := rfl
@[simp] theorem setCtx_journal (s : State) (c : Context) : (setCtx s c).journal = s.journal := rfl
@[simp] theorem setCtx_stores (s : State) (c : Context) : (setCtx s c).stores = s.stores := rfl
@[simp] theorem setCtx_teams (s : State) (c : Context) : (setCtx s c).teams = s.teams := rfl
@[simp] theorem setCtx_clusters (s : State) (c : Context) : (setCtx s c).clusters = s.clusters := rfl
@[simp] theorem setCtx_partials (s : State) (c : Context) : (setCtx s c).partials = s.partials := rfl
@[simp] theorem setCtx_cores (s : State) (c : Context) : (setCtx s c).cores = s.cores := rfl
@[simp] theorem setCtx_dies (s : State) (c : Context) : (setCtx s c).dies = s.dies := rfl
@[simp] theorem setCtx_bubble (s : State) (c : Context) : (setCtx s c).bubble = s.bubble := rfl
@[simp] theorem setCtx_bubbles (s : State) (c : Context) : (setCtx s c).bubbles = s.bubbles := rfl
@[simp] theorem setCtx_grants (s : State) (c : Context) : (setCtx s c).grants = s.grants := rfl
@[simp] theorem setCtx_roots (s : State) (c : Context) : (setCtx s c).roots = s.roots := rfl
@[simp] theorem setCtx_nodes (s : State) (c : Context) : (setCtx s c).nodes = s.nodes := rfl
@[simp] theorem setCtx_frames (s : State) (c : Context) : (setCtx s c).frames = s.frames := rfl
@[simp] theorem setCtx_recycle (s : State) (c : Context) : (setCtx s c).recycle = s.recycle := rfl
@[simp] theorem setCtx_peers (s : State) (c : Context) : (setCtx s c).peers = s.peers := rfl
@[simp] theorem setCtx_streams (s : State) (c : Context) : (setCtx s c).streams = s.streams := rfl
@[simp] theorem setCtx_remote (s : State) (c : Context) : (setCtx s c).remote = s.remote := rfl
@[simp] theorem setCtx_nextTag (s : State) (c : Context) : (setCtx s c).nextTag = s.nextTag := rfl
@[simp] theorem setCtx_responses (s : State) (c : Context) : (setCtx s c).responses = s.responses := rfl
@[simp] theorem setCtx_owed (s : State) (c : Context) : (setCtx s c).owed = s.owed := rfl
@[simp] theorem setCtx_scrubCtx (s : State) (c : Context) : (setCtx s c).scrubCtx = s.scrubCtx := rfl
@[simp] theorem setCtx_ckpt (s : State) (c : Context) : (setCtx s c).ckpt = s.ckpt := rfl
@[simp] theorem setCtx_manifest (s : State) (c : Context) : (setCtx s c).manifest = s.manifest := rfl
@[simp] theorem setCtx_ports (s : State) (c : Context) : (setCtx s c).ports = s.ports := rfl
@[simp] theorem setCtx_recovery (s : State) (c : Context) : (setCtx s c).recovery = s.recovery := rfl
@[simp] theorem setCtx_powered (s : State) (c : Context) : (setCtx s c).powered = s.powered := rfl
@[simp] theorem setCtx_booted (s : State) (c : Context) : (setCtx s c).booted = s.booted := rfl
@[simp] theorem setCtx_pwrGood (s : State) (c : Context) : (setCtx s c).pwrGood = s.pwrGood := rfl
@[simp] theorem setCtx_links (s : State) (c : Context) : (setCtx s c).links = s.links := rfl
@[simp] theorem setCtx_notices (s : State) (c : Context) : (setCtx s c).notices = s.notices := rfl
@[simp] theorem setCtx_clk (s : State) (c : Context) : (setCtx s c).clk = s.clk := rfl
@[simp] theorem setCtx_fresh (s : State) (c : Context) : (setCtx s c).fresh = s.fresh := rfl
@[simp] theorem setCtx_ticks (s : State) (c : Context) : (setCtx s c).ticks = s.ticks := rfl
@[simp] theorem setCtx_agenda (s : State) (c : Context) : (setCtx s c).agenda = s.agenda := rfl
@[simp] theorem setCtx_cur (s : State) (c : Context) : (setCtx s c).cur = s.cur := rfl
@[simp] theorem setCtx_nextUid (s : State) (c : Context) : (setCtx s c).nextUid = s.nextUid := rfl
@[simp] theorem setCtx_nextSeq (s : State) (c : Context) : (setCtx s c).nextSeq = s.nextSeq := rfl

/-! ### setCore -/

@[simp] theorem setCore_mem (s : State) (c : CoreSt) : (setCore s c).mem = s.mem := rfl
@[simp] theorem setCore_l2 (s : State) (c : CoreSt) : (setCore s c).l2 = s.l2 := rfl
@[simp] theorem setCore_l2Bad (s : State) (c : CoreSt) : (setCore s c).l2Bad = s.l2Bad := rfl
@[simp] theorem setCore_l2First (s : State) (c : CoreSt) : (setCore s c).l2First = s.l2First := rfl
@[simp] theorem setCore_poison (s : State) (c : CoreSt) : (setCore s c).poison = s.poison := rfl
@[simp] theorem setCore_poisonMoved (s : State) (c : CoreSt) : (setCore s c).poisonMoved = s.poisonMoved := rfl
@[simp] theorem setCore_cover (s : State) (c : CoreSt) : (setCore s c).cover = s.cover := rfl
@[simp] theorem setCore_srCheck (s : State) (c : CoreSt) : (setCore s c).srCheck = s.srCheck := rfl
@[simp] theorem setCore_l1 (s : State) (c : CoreSt) : (setCore s c).l1 = s.l1 := rfl
@[simp] theorem setCore_icache (s : State) (c : CoreSt) : (setCore s c).icache = s.icache := rfl
@[simp] theorem setCore_opbuf (s : State) (c : CoreSt) : (setCore s c).opbuf = s.opbuf := rfl
@[simp] theorem setCore_journal (s : State) (c : CoreSt) : (setCore s c).journal = s.journal := rfl
@[simp] theorem setCore_stores (s : State) (c : CoreSt) : (setCore s c).stores = s.stores := rfl
@[simp] theorem setCore_teams (s : State) (c : CoreSt) : (setCore s c).teams = s.teams := rfl
@[simp] theorem setCore_clusters (s : State) (c : CoreSt) : (setCore s c).clusters = s.clusters := rfl
@[simp] theorem setCore_partials (s : State) (c : CoreSt) : (setCore s c).partials = s.partials := rfl
@[simp] theorem setCore_contexts (s : State) (c : CoreSt) : (setCore s c).contexts = s.contexts := rfl
@[simp] theorem setCore_dies (s : State) (c : CoreSt) : (setCore s c).dies = s.dies := rfl
@[simp] theorem setCore_bubble (s : State) (c : CoreSt) : (setCore s c).bubble = s.bubble := rfl
@[simp] theorem setCore_bubbles (s : State) (c : CoreSt) : (setCore s c).bubbles = s.bubbles := rfl
@[simp] theorem setCore_grants (s : State) (c : CoreSt) : (setCore s c).grants = s.grants := rfl
@[simp] theorem setCore_roots (s : State) (c : CoreSt) : (setCore s c).roots = s.roots := rfl
@[simp] theorem setCore_nodes (s : State) (c : CoreSt) : (setCore s c).nodes = s.nodes := rfl
@[simp] theorem setCore_frames (s : State) (c : CoreSt) : (setCore s c).frames = s.frames := rfl
@[simp] theorem setCore_recycle (s : State) (c : CoreSt) : (setCore s c).recycle = s.recycle := rfl
@[simp] theorem setCore_peers (s : State) (c : CoreSt) : (setCore s c).peers = s.peers := rfl
@[simp] theorem setCore_streams (s : State) (c : CoreSt) : (setCore s c).streams = s.streams := rfl
@[simp] theorem setCore_remote (s : State) (c : CoreSt) : (setCore s c).remote = s.remote := rfl
@[simp] theorem setCore_nextTag (s : State) (c : CoreSt) : (setCore s c).nextTag = s.nextTag := rfl
@[simp] theorem setCore_responses (s : State) (c : CoreSt) : (setCore s c).responses = s.responses := rfl
@[simp] theorem setCore_owed (s : State) (c : CoreSt) : (setCore s c).owed = s.owed := rfl
@[simp] theorem setCore_scrubCtx (s : State) (c : CoreSt) : (setCore s c).scrubCtx = s.scrubCtx := rfl
@[simp] theorem setCore_ckpt (s : State) (c : CoreSt) : (setCore s c).ckpt = s.ckpt := rfl
@[simp] theorem setCore_manifest (s : State) (c : CoreSt) : (setCore s c).manifest = s.manifest := rfl
@[simp] theorem setCore_ports (s : State) (c : CoreSt) : (setCore s c).ports = s.ports := rfl
@[simp] theorem setCore_recovery (s : State) (c : CoreSt) : (setCore s c).recovery = s.recovery := rfl
@[simp] theorem setCore_powered (s : State) (c : CoreSt) : (setCore s c).powered = s.powered := rfl
@[simp] theorem setCore_booted (s : State) (c : CoreSt) : (setCore s c).booted = s.booted := rfl
@[simp] theorem setCore_pwrGood (s : State) (c : CoreSt) : (setCore s c).pwrGood = s.pwrGood := rfl
@[simp] theorem setCore_links (s : State) (c : CoreSt) : (setCore s c).links = s.links := rfl
@[simp] theorem setCore_notices (s : State) (c : CoreSt) : (setCore s c).notices = s.notices := rfl
@[simp] theorem setCore_clk (s : State) (c : CoreSt) : (setCore s c).clk = s.clk := rfl
@[simp] theorem setCore_fresh (s : State) (c : CoreSt) : (setCore s c).fresh = s.fresh := rfl
@[simp] theorem setCore_ticks (s : State) (c : CoreSt) : (setCore s c).ticks = s.ticks := rfl
@[simp] theorem setCore_agenda (s : State) (c : CoreSt) : (setCore s c).agenda = s.agenda := rfl
@[simp] theorem setCore_cur (s : State) (c : CoreSt) : (setCore s c).cur = s.cur := rfl
@[simp] theorem setCore_nextUid (s : State) (c : CoreSt) : (setCore s c).nextUid = s.nextUid := rfl
@[simp] theorem setCore_nextSeq (s : State) (c : CoreSt) : (setCore s c).nextSeq = s.nextSeq := rfl

/-! ### setDie -/

@[simp] theorem setDie_mem (s : State) (d : Nat) (x : Die) : (setDie s d x).mem = s.mem := rfl
@[simp] theorem setDie_l2 (s : State) (d : Nat) (x : Die) : (setDie s d x).l2 = s.l2 := rfl
@[simp] theorem setDie_l2Bad (s : State) (d : Nat) (x : Die) : (setDie s d x).l2Bad = s.l2Bad := rfl
@[simp] theorem setDie_l2First (s : State) (d : Nat) (x : Die) : (setDie s d x).l2First = s.l2First := rfl
@[simp] theorem setDie_poison (s : State) (d : Nat) (x : Die) : (setDie s d x).poison = s.poison := rfl
@[simp] theorem setDie_poisonMoved (s : State) (d : Nat) (x : Die) : (setDie s d x).poisonMoved = s.poisonMoved := rfl
@[simp] theorem setDie_cover (s : State) (d : Nat) (x : Die) : (setDie s d x).cover = s.cover := rfl
@[simp] theorem setDie_srCheck (s : State) (d : Nat) (x : Die) : (setDie s d x).srCheck = s.srCheck := rfl
@[simp] theorem setDie_l1 (s : State) (d : Nat) (x : Die) : (setDie s d x).l1 = s.l1 := rfl
@[simp] theorem setDie_icache (s : State) (d : Nat) (x : Die) : (setDie s d x).icache = s.icache := rfl
@[simp] theorem setDie_opbuf (s : State) (d : Nat) (x : Die) : (setDie s d x).opbuf = s.opbuf := rfl
@[simp] theorem setDie_journal (s : State) (d : Nat) (x : Die) : (setDie s d x).journal = s.journal := rfl
@[simp] theorem setDie_stores (s : State) (d : Nat) (x : Die) : (setDie s d x).stores = s.stores := rfl
@[simp] theorem setDie_teams (s : State) (d : Nat) (x : Die) : (setDie s d x).teams = s.teams := rfl
@[simp] theorem setDie_clusters (s : State) (d : Nat) (x : Die) : (setDie s d x).clusters = s.clusters := rfl
@[simp] theorem setDie_partials (s : State) (d : Nat) (x : Die) : (setDie s d x).partials = s.partials := rfl
@[simp] theorem setDie_contexts (s : State) (d : Nat) (x : Die) : (setDie s d x).contexts = s.contexts := rfl
@[simp] theorem setDie_cores (s : State) (d : Nat) (x : Die) : (setDie s d x).cores = s.cores := rfl
@[simp] theorem setDie_bubble (s : State) (d : Nat) (x : Die) : (setDie s d x).bubble = s.bubble := rfl
@[simp] theorem setDie_bubbles (s : State) (d : Nat) (x : Die) : (setDie s d x).bubbles = s.bubbles := rfl
@[simp] theorem setDie_grants (s : State) (d : Nat) (x : Die) : (setDie s d x).grants = s.grants := rfl
@[simp] theorem setDie_roots (s : State) (d : Nat) (x : Die) : (setDie s d x).roots = s.roots := rfl
@[simp] theorem setDie_nodes (s : State) (d : Nat) (x : Die) : (setDie s d x).nodes = s.nodes := rfl
@[simp] theorem setDie_frames (s : State) (d : Nat) (x : Die) : (setDie s d x).frames = s.frames := rfl
@[simp] theorem setDie_recycle (s : State) (d : Nat) (x : Die) : (setDie s d x).recycle = s.recycle := rfl
@[simp] theorem setDie_peers (s : State) (d : Nat) (x : Die) : (setDie s d x).peers = s.peers := rfl
@[simp] theorem setDie_streams (s : State) (d : Nat) (x : Die) : (setDie s d x).streams = s.streams := rfl
@[simp] theorem setDie_remote (s : State) (d : Nat) (x : Die) : (setDie s d x).remote = s.remote := rfl
@[simp] theorem setDie_nextTag (s : State) (d : Nat) (x : Die) : (setDie s d x).nextTag = s.nextTag := rfl
@[simp] theorem setDie_responses (s : State) (d : Nat) (x : Die) : (setDie s d x).responses = s.responses := rfl
@[simp] theorem setDie_owed (s : State) (d : Nat) (x : Die) : (setDie s d x).owed = s.owed := rfl
@[simp] theorem setDie_scrubCtx (s : State) (d : Nat) (x : Die) : (setDie s d x).scrubCtx = s.scrubCtx := rfl
@[simp] theorem setDie_ckpt (s : State) (d : Nat) (x : Die) : (setDie s d x).ckpt = s.ckpt := rfl
@[simp] theorem setDie_manifest (s : State) (d : Nat) (x : Die) : (setDie s d x).manifest = s.manifest := rfl
@[simp] theorem setDie_ports (s : State) (d : Nat) (x : Die) : (setDie s d x).ports = s.ports := rfl
@[simp] theorem setDie_recovery (s : State) (d : Nat) (x : Die) : (setDie s d x).recovery = s.recovery := rfl
@[simp] theorem setDie_powered (s : State) (d : Nat) (x : Die) : (setDie s d x).powered = s.powered := rfl
@[simp] theorem setDie_booted (s : State) (d : Nat) (x : Die) : (setDie s d x).booted = s.booted := rfl
@[simp] theorem setDie_pwrGood (s : State) (d : Nat) (x : Die) : (setDie s d x).pwrGood = s.pwrGood := rfl
@[simp] theorem setDie_links (s : State) (d : Nat) (x : Die) : (setDie s d x).links = s.links := rfl
@[simp] theorem setDie_notices (s : State) (d : Nat) (x : Die) : (setDie s d x).notices = s.notices := rfl
@[simp] theorem setDie_clk (s : State) (d : Nat) (x : Die) : (setDie s d x).clk = s.clk := rfl
@[simp] theorem setDie_fresh (s : State) (d : Nat) (x : Die) : (setDie s d x).fresh = s.fresh := rfl
@[simp] theorem setDie_ticks (s : State) (d : Nat) (x : Die) : (setDie s d x).ticks = s.ticks := rfl
@[simp] theorem setDie_agenda (s : State) (d : Nat) (x : Die) : (setDie s d x).agenda = s.agenda := rfl
@[simp] theorem setDie_cur (s : State) (d : Nat) (x : Die) : (setDie s d x).cur = s.cur := rfl
@[simp] theorem setDie_nextUid (s : State) (d : Nat) (x : Die) : (setDie s d x).nextUid = s.nextUid := rfl
@[simp] theorem setDie_nextSeq (s : State) (d : Nat) (x : Die) : (setDie s d x).nextSeq = s.nextSeq := rfl

/-! ### setCluster -/

@[simp] theorem setCluster_mem (s : State) (k : Cluster) : (setCluster s k).mem = s.mem := rfl
@[simp] theorem setCluster_l2 (s : State) (k : Cluster) : (setCluster s k).l2 = s.l2 := rfl
@[simp] theorem setCluster_l2Bad (s : State) (k : Cluster) : (setCluster s k).l2Bad = s.l2Bad := rfl
@[simp] theorem setCluster_l2First (s : State) (k : Cluster) : (setCluster s k).l2First = s.l2First := rfl
@[simp] theorem setCluster_poison (s : State) (k : Cluster) : (setCluster s k).poison = s.poison := rfl
@[simp] theorem setCluster_poisonMoved (s : State) (k : Cluster) : (setCluster s k).poisonMoved = s.poisonMoved := rfl
@[simp] theorem setCluster_cover (s : State) (k : Cluster) : (setCluster s k).cover = s.cover := rfl
@[simp] theorem setCluster_srCheck (s : State) (k : Cluster) : (setCluster s k).srCheck = s.srCheck := rfl
@[simp] theorem setCluster_l1 (s : State) (k : Cluster) : (setCluster s k).l1 = s.l1 := rfl
@[simp] theorem setCluster_icache (s : State) (k : Cluster) : (setCluster s k).icache = s.icache := rfl
@[simp] theorem setCluster_opbuf (s : State) (k : Cluster) : (setCluster s k).opbuf = s.opbuf := rfl
@[simp] theorem setCluster_journal (s : State) (k : Cluster) : (setCluster s k).journal = s.journal := rfl
@[simp] theorem setCluster_stores (s : State) (k : Cluster) : (setCluster s k).stores = s.stores := rfl
@[simp] theorem setCluster_teams (s : State) (k : Cluster) : (setCluster s k).teams = s.teams := rfl
@[simp] theorem setCluster_partials (s : State) (k : Cluster) : (setCluster s k).partials = s.partials := rfl
@[simp] theorem setCluster_contexts (s : State) (k : Cluster) : (setCluster s k).contexts = s.contexts := rfl
@[simp] theorem setCluster_cores (s : State) (k : Cluster) : (setCluster s k).cores = s.cores := rfl
@[simp] theorem setCluster_dies (s : State) (k : Cluster) : (setCluster s k).dies = s.dies := rfl
@[simp] theorem setCluster_bubble (s : State) (k : Cluster) : (setCluster s k).bubble = s.bubble := rfl
@[simp] theorem setCluster_bubbles (s : State) (k : Cluster) : (setCluster s k).bubbles = s.bubbles := rfl
@[simp] theorem setCluster_grants (s : State) (k : Cluster) : (setCluster s k).grants = s.grants := rfl
@[simp] theorem setCluster_roots (s : State) (k : Cluster) : (setCluster s k).roots = s.roots := rfl
@[simp] theorem setCluster_nodes (s : State) (k : Cluster) : (setCluster s k).nodes = s.nodes := rfl
@[simp] theorem setCluster_frames (s : State) (k : Cluster) : (setCluster s k).frames = s.frames := rfl
@[simp] theorem setCluster_recycle (s : State) (k : Cluster) : (setCluster s k).recycle = s.recycle := rfl
@[simp] theorem setCluster_peers (s : State) (k : Cluster) : (setCluster s k).peers = s.peers := rfl
@[simp] theorem setCluster_streams (s : State) (k : Cluster) : (setCluster s k).streams = s.streams := rfl
@[simp] theorem setCluster_remote (s : State) (k : Cluster) : (setCluster s k).remote = s.remote := rfl
@[simp] theorem setCluster_nextTag (s : State) (k : Cluster) : (setCluster s k).nextTag = s.nextTag := rfl
@[simp] theorem setCluster_responses (s : State) (k : Cluster) : (setCluster s k).responses = s.responses := rfl
@[simp] theorem setCluster_owed (s : State) (k : Cluster) : (setCluster s k).owed = s.owed := rfl
@[simp] theorem setCluster_scrubCtx (s : State) (k : Cluster) : (setCluster s k).scrubCtx = s.scrubCtx := rfl
@[simp] theorem setCluster_ckpt (s : State) (k : Cluster) : (setCluster s k).ckpt = s.ckpt := rfl
@[simp] theorem setCluster_manifest (s : State) (k : Cluster) : (setCluster s k).manifest = s.manifest := rfl
@[simp] theorem setCluster_ports (s : State) (k : Cluster) : (setCluster s k).ports = s.ports := rfl
@[simp] theorem setCluster_recovery (s : State) (k : Cluster) : (setCluster s k).recovery = s.recovery := rfl
@[simp] theorem setCluster_powered (s : State) (k : Cluster) : (setCluster s k).powered = s.powered := rfl
@[simp] theorem setCluster_booted (s : State) (k : Cluster) : (setCluster s k).booted = s.booted := rfl
@[simp] theorem setCluster_pwrGood (s : State) (k : Cluster) : (setCluster s k).pwrGood = s.pwrGood := rfl
@[simp] theorem setCluster_links (s : State) (k : Cluster) : (setCluster s k).links = s.links := rfl
@[simp] theorem setCluster_notices (s : State) (k : Cluster) : (setCluster s k).notices = s.notices := rfl
@[simp] theorem setCluster_clk (s : State) (k : Cluster) : (setCluster s k).clk = s.clk := rfl
@[simp] theorem setCluster_fresh (s : State) (k : Cluster) : (setCluster s k).fresh = s.fresh := rfl
@[simp] theorem setCluster_ticks (s : State) (k : Cluster) : (setCluster s k).ticks = s.ticks := rfl
@[simp] theorem setCluster_agenda (s : State) (k : Cluster) : (setCluster s k).agenda = s.agenda := rfl
@[simp] theorem setCluster_cur (s : State) (k : Cluster) : (setCluster s k).cur = s.cur := rfl
@[simp] theorem setCluster_nextUid (s : State) (k : Cluster) : (setCluster s k).nextUid = s.nextUid := rfl
@[simp] theorem setCluster_nextSeq (s : State) (k : Cluster) : (setCluster s k).nextSeq = s.nextSeq := rfl

/-! ### taint -/

@[simp] theorem taint_mem (s : State) (t : Team) (ks : List Nat) : (taint s t ks).mem = s.mem := rfl
@[simp] theorem taint_l2 (s : State) (t : Team) (ks : List Nat) : (taint s t ks).l2 = s.l2 := rfl
@[simp] theorem taint_l2Bad (s : State) (t : Team) (ks : List Nat) : (taint s t ks).l2Bad = s.l2Bad := rfl
@[simp] theorem taint_l2First (s : State) (t : Team) (ks : List Nat) : (taint s t ks).l2First = s.l2First := rfl
@[simp] theorem taint_poison (s : State) (t : Team) (ks : List Nat) : (taint s t ks).poison = s.poison := rfl
@[simp] theorem taint_poisonMoved (s : State) (t : Team) (ks : List Nat) : (taint s t ks).poisonMoved = s.poisonMoved := rfl
@[simp] theorem taint_cover (s : State) (t : Team) (ks : List Nat) : (taint s t ks).cover = s.cover := rfl
@[simp] theorem taint_srCheck (s : State) (t : Team) (ks : List Nat) : (taint s t ks).srCheck = s.srCheck := rfl
@[simp] theorem taint_l1 (s : State) (t : Team) (ks : List Nat) : (taint s t ks).l1 = s.l1 := rfl
@[simp] theorem taint_icache (s : State) (t : Team) (ks : List Nat) : (taint s t ks).icache = s.icache := rfl
@[simp] theorem taint_opbuf (s : State) (t : Team) (ks : List Nat) : (taint s t ks).opbuf = s.opbuf := rfl
@[simp] theorem taint_journal (s : State) (t : Team) (ks : List Nat) : (taint s t ks).journal = s.journal := rfl
@[simp] theorem taint_stores (s : State) (t : Team) (ks : List Nat) : (taint s t ks).stores = s.stores := rfl
@[simp] theorem taint_teams (s : State) (t : Team) (ks : List Nat) : (taint s t ks).teams = s.teams := rfl
@[simp] theorem taint_clusters (s : State) (t : Team) (ks : List Nat) : (taint s t ks).clusters = s.clusters := rfl
@[simp] theorem taint_partials (s : State) (t : Team) (ks : List Nat) : (taint s t ks).partials = s.partials := rfl
@[simp] theorem taint_contexts (s : State) (t : Team) (ks : List Nat) : (taint s t ks).contexts = s.contexts := rfl
@[simp] theorem taint_dies (s : State) (t : Team) (ks : List Nat) : (taint s t ks).dies = s.dies := rfl
@[simp] theorem taint_bubble (s : State) (t : Team) (ks : List Nat) : (taint s t ks).bubble = s.bubble := rfl
@[simp] theorem taint_bubbles (s : State) (t : Team) (ks : List Nat) : (taint s t ks).bubbles = s.bubbles := rfl
@[simp] theorem taint_grants (s : State) (t : Team) (ks : List Nat) : (taint s t ks).grants = s.grants := rfl
@[simp] theorem taint_roots (s : State) (t : Team) (ks : List Nat) : (taint s t ks).roots = s.roots := rfl
@[simp] theorem taint_nodes (s : State) (t : Team) (ks : List Nat) : (taint s t ks).nodes = s.nodes := rfl
@[simp] theorem taint_frames (s : State) (t : Team) (ks : List Nat) : (taint s t ks).frames = s.frames := rfl
@[simp] theorem taint_recycle (s : State) (t : Team) (ks : List Nat) : (taint s t ks).recycle = s.recycle := rfl
@[simp] theorem taint_peers (s : State) (t : Team) (ks : List Nat) : (taint s t ks).peers = s.peers := rfl
@[simp] theorem taint_streams (s : State) (t : Team) (ks : List Nat) : (taint s t ks).streams = s.streams := rfl
@[simp] theorem taint_remote (s : State) (t : Team) (ks : List Nat) : (taint s t ks).remote = s.remote := rfl
@[simp] theorem taint_nextTag (s : State) (t : Team) (ks : List Nat) : (taint s t ks).nextTag = s.nextTag := rfl
@[simp] theorem taint_responses (s : State) (t : Team) (ks : List Nat) : (taint s t ks).responses = s.responses := rfl
@[simp] theorem taint_owed (s : State) (t : Team) (ks : List Nat) : (taint s t ks).owed = s.owed := rfl
@[simp] theorem taint_scrubCtx (s : State) (t : Team) (ks : List Nat) : (taint s t ks).scrubCtx = s.scrubCtx := rfl
@[simp] theorem taint_ckpt (s : State) (t : Team) (ks : List Nat) : (taint s t ks).ckpt = s.ckpt := rfl
@[simp] theorem taint_manifest (s : State) (t : Team) (ks : List Nat) : (taint s t ks).manifest = s.manifest := rfl
@[simp] theorem taint_ports (s : State) (t : Team) (ks : List Nat) : (taint s t ks).ports = s.ports := rfl
@[simp] theorem taint_recovery (s : State) (t : Team) (ks : List Nat) : (taint s t ks).recovery = s.recovery := rfl
@[simp] theorem taint_powered (s : State) (t : Team) (ks : List Nat) : (taint s t ks).powered = s.powered := rfl
@[simp] theorem taint_booted (s : State) (t : Team) (ks : List Nat) : (taint s t ks).booted = s.booted := rfl
@[simp] theorem taint_pwrGood (s : State) (t : Team) (ks : List Nat) : (taint s t ks).pwrGood = s.pwrGood := rfl
@[simp] theorem taint_links (s : State) (t : Team) (ks : List Nat) : (taint s t ks).links = s.links := rfl
@[simp] theorem taint_notices (s : State) (t : Team) (ks : List Nat) : (taint s t ks).notices = s.notices := rfl
@[simp] theorem taint_clk (s : State) (t : Team) (ks : List Nat) : (taint s t ks).clk = s.clk := rfl
@[simp] theorem taint_fresh (s : State) (t : Team) (ks : List Nat) : (taint s t ks).fresh = s.fresh := rfl
@[simp] theorem taint_ticks (s : State) (t : Team) (ks : List Nat) : (taint s t ks).ticks = s.ticks := rfl
@[simp] theorem taint_agenda (s : State) (t : Team) (ks : List Nat) : (taint s t ks).agenda = s.agenda := rfl
@[simp] theorem taint_cur (s : State) (t : Team) (ks : List Nat) : (taint s t ks).cur = s.cur := rfl
@[simp] theorem taint_nextUid (s : State) (t : Team) (ks : List Nat) : (taint s t ks).nextUid = s.nextUid := rfl
@[simp] theorem taint_nextSeq (s : State) (t : Team) (ks : List Nat) : (taint s t ks).nextSeq = s.nextSeq := rfl

/-! ### bump -/

@[simp] theorem bump_mem (s : State) (t : Team) : (bump s t).mem = s.mem := by unfold bump; split <;> rfl
@[simp] theorem bump_l2 (s : State) (t : Team) : (bump s t).l2 = s.l2 := by unfold bump; split <;> rfl
@[simp] theorem bump_l2Bad (s : State) (t : Team) : (bump s t).l2Bad = s.l2Bad := by unfold bump; split <;> rfl
@[simp] theorem bump_l2First (s : State) (t : Team) : (bump s t).l2First = s.l2First := by unfold bump; split <;> rfl
@[simp] theorem bump_poison (s : State) (t : Team) : (bump s t).poison = s.poison := by unfold bump; split <;> rfl
@[simp] theorem bump_poisonMoved (s : State) (t : Team) : (bump s t).poisonMoved = s.poisonMoved := by unfold bump; split <;> rfl
@[simp] theorem bump_cover (s : State) (t : Team) : (bump s t).cover = s.cover := by unfold bump; split <;> rfl
@[simp] theorem bump_srCheck (s : State) (t : Team) : (bump s t).srCheck = s.srCheck := by unfold bump; split <;> rfl
@[simp] theorem bump_l1 (s : State) (t : Team) : (bump s t).l1 = s.l1 := by unfold bump; split <;> rfl
@[simp] theorem bump_icache (s : State) (t : Team) : (bump s t).icache = s.icache := by unfold bump; split <;> rfl
@[simp] theorem bump_opbuf (s : State) (t : Team) : (bump s t).opbuf = s.opbuf := by unfold bump; split <;> rfl
@[simp] theorem bump_journal (s : State) (t : Team) : (bump s t).journal = s.journal := by unfold bump; split <;> rfl
@[simp] theorem bump_stores (s : State) (t : Team) : (bump s t).stores = s.stores := by unfold bump; split <;> rfl
@[simp] theorem bump_teams (s : State) (t : Team) : (bump s t).teams = s.teams := by unfold bump; split <;> rfl
@[simp] theorem bump_clusters (s : State) (t : Team) : (bump s t).clusters = s.clusters := by unfold bump; split <;> rfl
@[simp] theorem bump_partials (s : State) (t : Team) : (bump s t).partials = s.partials := by unfold bump; split <;> rfl
@[simp] theorem bump_contexts (s : State) (t : Team) : (bump s t).contexts = s.contexts := by unfold bump; split <;> rfl
@[simp] theorem bump_cores (s : State) (t : Team) : (bump s t).cores = s.cores := by unfold bump; split <;> rfl
@[simp] theorem bump_dies (s : State) (t : Team) : (bump s t).dies = s.dies := by unfold bump; split <;> rfl
@[simp] theorem bump_bubble (s : State) (t : Team) : (bump s t).bubble = s.bubble := by unfold bump; split <;> rfl
@[simp] theorem bump_bubbles (s : State) (t : Team) : (bump s t).bubbles = s.bubbles := by unfold bump; split <;> rfl
@[simp] theorem bump_grants (s : State) (t : Team) : (bump s t).grants = s.grants := by unfold bump; split <;> rfl
@[simp] theorem bump_roots (s : State) (t : Team) : (bump s t).roots = s.roots := by unfold bump; split <;> rfl
@[simp] theorem bump_nodes (s : State) (t : Team) : (bump s t).nodes = s.nodes := by unfold bump; split <;> rfl
@[simp] theorem bump_frames (s : State) (t : Team) : (bump s t).frames = s.frames := by unfold bump; split <;> rfl
@[simp] theorem bump_recycle (s : State) (t : Team) : (bump s t).recycle = s.recycle := by unfold bump; split <;> rfl
@[simp] theorem bump_peers (s : State) (t : Team) : (bump s t).peers = s.peers := by unfold bump; split <;> rfl
@[simp] theorem bump_streams (s : State) (t : Team) : (bump s t).streams = s.streams := by unfold bump; split <;> rfl
@[simp] theorem bump_remote (s : State) (t : Team) : (bump s t).remote = s.remote := by unfold bump; split <;> rfl
@[simp] theorem bump_nextTag (s : State) (t : Team) : (bump s t).nextTag = s.nextTag := by unfold bump; split <;> rfl
@[simp] theorem bump_responses (s : State) (t : Team) : (bump s t).responses = s.responses := by unfold bump; split <;> rfl
@[simp] theorem bump_owed (s : State) (t : Team) : (bump s t).owed = s.owed := by unfold bump; split <;> rfl
@[simp] theorem bump_scrubCtx (s : State) (t : Team) : (bump s t).scrubCtx = s.scrubCtx := by unfold bump; split <;> rfl
@[simp] theorem bump_ckpt (s : State) (t : Team) : (bump s t).ckpt = s.ckpt := by unfold bump; split <;> rfl
@[simp] theorem bump_manifest (s : State) (t : Team) : (bump s t).manifest = s.manifest := by unfold bump; split <;> rfl
@[simp] theorem bump_ports (s : State) (t : Team) : (bump s t).ports = s.ports := by unfold bump; split <;> rfl
@[simp] theorem bump_recovery (s : State) (t : Team) : (bump s t).recovery = s.recovery := by unfold bump; split <;> rfl
@[simp] theorem bump_powered (s : State) (t : Team) : (bump s t).powered = s.powered := by unfold bump; split <;> rfl
@[simp] theorem bump_booted (s : State) (t : Team) : (bump s t).booted = s.booted := by unfold bump; split <;> rfl
@[simp] theorem bump_pwrGood (s : State) (t : Team) : (bump s t).pwrGood = s.pwrGood := by unfold bump; split <;> rfl
@[simp] theorem bump_links (s : State) (t : Team) : (bump s t).links = s.links := by unfold bump; split <;> rfl
@[simp] theorem bump_notices (s : State) (t : Team) : (bump s t).notices = s.notices := by unfold bump; split <;> rfl
@[simp] theorem bump_clk (s : State) (t : Team) : (bump s t).clk = s.clk := by unfold bump; split <;> rfl
@[simp] theorem bump_ticks (s : State) (t : Team) : (bump s t).ticks = s.ticks := by unfold bump; split <;> rfl
@[simp] theorem bump_agenda (s : State) (t : Team) : (bump s t).agenda = s.agenda := by unfold bump; split <;> rfl
@[simp] theorem bump_cur (s : State) (t : Team) : (bump s t).cur = s.cur := by unfold bump; split <;> rfl
@[simp] theorem bump_nextUid (s : State) (t : Team) : (bump s t).nextUid = s.nextUid := by unfold bump; split <;> rfl
@[simp] theorem bump_nextSeq (s : State) (t : Team) : (bump s t).nextSeq = s.nextSeq := by unfold bump; split <;> rfl

/-! ### setGrid -/

@[simp] theorem setGrid_mem (s : State) (c : Nat) (g : Grid) : (setGrid s c g).mem = s.mem := by unfold setGrid; split <;> rfl
@[simp] theorem setGrid_l2 (s : State) (c : Nat) (g : Grid) : (setGrid s c g).l2 = s.l2 := by unfold setGrid; split <;> rfl
@[simp] theorem setGrid_l2Bad (s : State) (c : Nat) (g : Grid) : (setGrid s c g).l2Bad = s.l2Bad := by unfold setGrid; split <;> rfl
@[simp] theorem setGrid_l2First (s : State) (c : Nat) (g : Grid) : (setGrid s c g).l2First = s.l2First := by unfold setGrid; split <;> rfl
@[simp] theorem setGrid_poison (s : State) (c : Nat) (g : Grid) : (setGrid s c g).poison = s.poison := by unfold setGrid; split <;> rfl
@[simp] theorem setGrid_poisonMoved (s : State) (c : Nat) (g : Grid) : (setGrid s c g).poisonMoved = s.poisonMoved := by unfold setGrid; split <;> rfl
@[simp] theorem setGrid_cover (s : State) (c : Nat) (g : Grid) : (setGrid s c g).cover = s.cover := by unfold setGrid; split <;> rfl
@[simp] theorem setGrid_srCheck (s : State) (c : Nat) (g : Grid) : (setGrid s c g).srCheck = s.srCheck := by unfold setGrid; split <;> rfl
@[simp] theorem setGrid_l1 (s : State) (c : Nat) (g : Grid) : (setGrid s c g).l1 = s.l1 := by unfold setGrid; split <;> rfl
@[simp] theorem setGrid_icache (s : State) (c : Nat) (g : Grid) : (setGrid s c g).icache = s.icache := by unfold setGrid; split <;> rfl
@[simp] theorem setGrid_opbuf (s : State) (c : Nat) (g : Grid) : (setGrid s c g).opbuf = s.opbuf := by unfold setGrid; split <;> rfl
@[simp] theorem setGrid_journal (s : State) (c : Nat) (g : Grid) : (setGrid s c g).journal = s.journal := by unfold setGrid; split <;> rfl
@[simp] theorem setGrid_stores (s : State) (c : Nat) (g : Grid) : (setGrid s c g).stores = s.stores := by unfold setGrid; split <;> rfl
@[simp] theorem setGrid_teams (s : State) (c : Nat) (g : Grid) : (setGrid s c g).teams = s.teams := by unfold setGrid; split <;> rfl
@[simp] theorem setGrid_clusters (s : State) (c : Nat) (g : Grid) : (setGrid s c g).clusters = s.clusters := by unfold setGrid; split <;> rfl
@[simp] theorem setGrid_partials (s : State) (c : Nat) (g : Grid) : (setGrid s c g).partials = s.partials := by unfold setGrid; split <;> rfl
@[simp] theorem setGrid_cores (s : State) (c : Nat) (g : Grid) : (setGrid s c g).cores = s.cores := by unfold setGrid; split <;> rfl
@[simp] theorem setGrid_dies (s : State) (c : Nat) (g : Grid) : (setGrid s c g).dies = s.dies := by unfold setGrid; split <;> rfl
@[simp] theorem setGrid_bubble (s : State) (c : Nat) (g : Grid) : (setGrid s c g).bubble = s.bubble := by unfold setGrid; split <;> rfl
@[simp] theorem setGrid_bubbles (s : State) (c : Nat) (g : Grid) : (setGrid s c g).bubbles = s.bubbles := by unfold setGrid; split <;> rfl
@[simp] theorem setGrid_grants (s : State) (c : Nat) (g : Grid) : (setGrid s c g).grants = s.grants := by unfold setGrid; split <;> rfl
@[simp] theorem setGrid_roots (s : State) (c : Nat) (g : Grid) : (setGrid s c g).roots = s.roots := by unfold setGrid; split <;> rfl
@[simp] theorem setGrid_nodes (s : State) (c : Nat) (g : Grid) : (setGrid s c g).nodes = s.nodes := by unfold setGrid; split <;> rfl
@[simp] theorem setGrid_frames (s : State) (c : Nat) (g : Grid) : (setGrid s c g).frames = s.frames := by unfold setGrid; split <;> rfl
@[simp] theorem setGrid_recycle (s : State) (c : Nat) (g : Grid) : (setGrid s c g).recycle = s.recycle := by unfold setGrid; split <;> rfl
@[simp] theorem setGrid_peers (s : State) (c : Nat) (g : Grid) : (setGrid s c g).peers = s.peers := by unfold setGrid; split <;> rfl
@[simp] theorem setGrid_streams (s : State) (c : Nat) (g : Grid) : (setGrid s c g).streams = s.streams := by unfold setGrid; split <;> rfl
@[simp] theorem setGrid_remote (s : State) (c : Nat) (g : Grid) : (setGrid s c g).remote = s.remote := by unfold setGrid; split <;> rfl
@[simp] theorem setGrid_nextTag (s : State) (c : Nat) (g : Grid) : (setGrid s c g).nextTag = s.nextTag := by unfold setGrid; split <;> rfl
@[simp] theorem setGrid_responses (s : State) (c : Nat) (g : Grid) : (setGrid s c g).responses = s.responses := by unfold setGrid; split <;> rfl
@[simp] theorem setGrid_owed (s : State) (c : Nat) (g : Grid) : (setGrid s c g).owed = s.owed := by unfold setGrid; split <;> rfl
@[simp] theorem setGrid_scrubCtx (s : State) (c : Nat) (g : Grid) : (setGrid s c g).scrubCtx = s.scrubCtx := by unfold setGrid; split <;> rfl
@[simp] theorem setGrid_ckpt (s : State) (c : Nat) (g : Grid) : (setGrid s c g).ckpt = s.ckpt := by unfold setGrid; split <;> rfl
@[simp] theorem setGrid_manifest (s : State) (c : Nat) (g : Grid) : (setGrid s c g).manifest = s.manifest := by unfold setGrid; split <;> rfl
@[simp] theorem setGrid_ports (s : State) (c : Nat) (g : Grid) : (setGrid s c g).ports = s.ports := by unfold setGrid; split <;> rfl
@[simp] theorem setGrid_recovery (s : State) (c : Nat) (g : Grid) : (setGrid s c g).recovery = s.recovery := by unfold setGrid; split <;> rfl
@[simp] theorem setGrid_powered (s : State) (c : Nat) (g : Grid) : (setGrid s c g).powered = s.powered := by unfold setGrid; split <;> rfl
@[simp] theorem setGrid_booted (s : State) (c : Nat) (g : Grid) : (setGrid s c g).booted = s.booted := by unfold setGrid; split <;> rfl
@[simp] theorem setGrid_pwrGood (s : State) (c : Nat) (g : Grid) : (setGrid s c g).pwrGood = s.pwrGood := by unfold setGrid; split <;> rfl
@[simp] theorem setGrid_links (s : State) (c : Nat) (g : Grid) : (setGrid s c g).links = s.links := by unfold setGrid; split <;> rfl
@[simp] theorem setGrid_notices (s : State) (c : Nat) (g : Grid) : (setGrid s c g).notices = s.notices := by unfold setGrid; split <;> rfl
@[simp] theorem setGrid_clk (s : State) (c : Nat) (g : Grid) : (setGrid s c g).clk = s.clk := by unfold setGrid; split <;> rfl
@[simp] theorem setGrid_fresh (s : State) (c : Nat) (g : Grid) : (setGrid s c g).fresh = s.fresh := by unfold setGrid; split <;> rfl
@[simp] theorem setGrid_ticks (s : State) (c : Nat) (g : Grid) : (setGrid s c g).ticks = s.ticks := by unfold setGrid; split <;> rfl
@[simp] theorem setGrid_agenda (s : State) (c : Nat) (g : Grid) : (setGrid s c g).agenda = s.agenda := by unfold setGrid; split <;> rfl
@[simp] theorem setGrid_cur (s : State) (c : Nat) (g : Grid) : (setGrid s c g).cur = s.cur := by unfold setGrid; split <;> rfl
@[simp] theorem setGrid_nextUid (s : State) (c : Nat) (g : Grid) : (setGrid s c g).nextUid = s.nextUid := by unfold setGrid; split <;> rfl
@[simp] theorem setGrid_nextSeq (s : State) (c : Nat) (g : Grid) : (setGrid s c g).nextSeq = s.nextSeq := by unfold setGrid; split <;> rfl

/-! ### goto -/

@[simp] theorem goto_uid (t : Team) (a : Word) : (goto t a).uid = t.uid := rfl
@[simp] theorem goto_ctx (t : Team) (a : Word) : (goto t a).ctx = t.ctx := rfl
@[simp] theorem goto_grid (t : Team) (a : Word) : (goto t a).grid = t.grid := rfl
@[simp] theorem goto_clus (t : Team) (a : Word) : (goto t a).clus = t.clus := rfl
@[simp] theorem goto_index (t : Team) (a : Word) : (goto t a).index = t.index := rfl
@[simp] theorem goto_core (t : Team) (a : Word) : (goto t a).core = t.core := rfl
@[simp] theorem goto_slot (t : Team) (a : Word) : (goto t a).slot = t.slot := rfl
@[simp] theorem goto_place (t : Team) (a : Word) : (goto t a).place = t.place := rfl
@[simp] theorem goto_hdr (t : Team) (a : Word) : (goto t a).hdr = t.hdr := rfl
@[simp] theorem goto_desc (t : Team) (a : Word) : (goto t a).desc = t.desc := rfl
@[simp] theorem goto_table (t : Team) (a : Word) : (goto t a).table = t.table := rfl
@[simp] theorem goto_root (t : Team) (a : Word) : (goto t a).root = t.root := rfl
@[simp] theorem goto_regs (t : Team) (a : Word) : (goto t a).regs = t.regs := rfl
@[simp] theorem goto_regBad (t : Team) (a : Word) : (goto t a).regBad = t.regBad := rfl
@[simp] theorem goto_binds (t : Team) (a : Word) : (goto t a).binds = t.binds := rfl
@[simp] theorem goto_live (t : Team) (a : Word) : (goto t a).live = t.live := rfl
@[simp] theorem goto_dead (t : Team) (a : Word) : (goto t a).dead = t.dead := rfl
@[simp] theorem goto_active (t : Team) (a : Word) : (goto t a).active = t.active := rfl
@[simp] theorem goto_stack (t : Team) (a : Word) : (goto t a).stack = t.stack := rfl
@[simp] theorem goto_ir (t : Team) (a : Word) : (goto t a).ir = t.ir := rfl
@[simp] theorem goto_fmod (t : Team) (a : Word) : (goto t a).fmod = t.fmod := rfl
@[simp] theorem goto_clause (t : Team) (a : Word) : (goto t a).clause = t.clause := rfl
@[simp] theorem goto_flags (t : Team) (a : Word) : (goto t a).flags = t.flags := rfl
@[simp] theorem goto_fpx (t : Team) (a : Word) : (goto t a).fpx = t.fpx := rfl
@[simp] theorem goto_xdead (t : Team) (a : Word) : (goto t a).xdead = t.xdead := rfl
@[simp] theorem goto_icnt (t : Team) (a : Word) : (goto t a).icnt = t.icnt := rfl
@[simp] theorem goto_trapvec (t : Team) (a : Word) : (goto t a).trapvec = t.trapvec := rfl
@[simp] theorem goto_hrev (t : Team) (a : Word) : (goto t a).hrev = t.hrev := rfl
@[simp] theorem goto_restart (t : Team) (a : Word) : (goto t a).restart = t.restart := rfl
@[simp] theorem goto_granules (t : Team) (a : Word) : (goto t a).granules = t.granules := rfl
@[simp] theorem goto_leases (t : Team) (a : Word) : (goto t a).leases = t.leases := rfl
@[simp] theorem goto_scr (t : Team) (a : Word) : (goto t a).scr = t.scr := rfl
@[simp] theorem goto_scrBad (t : Team) (a : Word) : (goto t a).scrBad = t.scrBad := rfl
@[simp] theorem goto_queues (t : Team) (a : Word) : (goto t a).queues = t.queues := rfl
@[simp] theorem goto_tiles (t : Team) (a : Word) : (goto t a).tiles = t.tiles := rfl
@[simp] theorem goto_tileBad (t : Team) (a : Word) : (goto t a).tileBad = t.tileBad := rfl
@[simp] theorem goto_plane (t : Team) (a : Word) : (goto t a).plane = t.plane := rfl
@[simp] theorem goto_shadow (t : Team) (a : Word) : (goto t a).shadow = t.shadow := rfl
@[simp] theorem goto_sieve (t : Team) (a : Word) : (goto t a).sieve = t.sieve := rfl
@[simp] theorem goto_paired (t : Team) (a : Word) : (goto t a).paired = t.paired := rfl
@[simp] theorem goto_pairCount (t : Team) (a : Word) : (goto t a).pairCount = t.pairCount := rfl
@[simp] theorem goto_pend (t : Team) (a : Word) : (goto t a).pend = t.pend := rfl
@[simp] theorem goto_block (t : Team) (a : Word) : (goto t a).block = t.block := rfl
@[simp] theorem goto_hold (t : Team) (a : Word) : (goto t a).hold = t.hold := rfl
@[simp] theorem goto_trap (t : Team) (a : Word) : (goto t a).trap = t.trap := rfl
@[simp] theorem goto_handler (t : Team) (a : Word) : (goto t a).handler = t.handler := rfl
@[simp] theorem goto_frame (t : Team) (a : Word) : (goto t a).frame = t.frame := rfl
@[simp] theorem goto_pass (t : Team) (a : Word) : (goto t a).pass = none := rfl
@[simp] theorem goto_begun (t : Team) (a : Word) : (goto t a).begun = false := rfl
@[simp] theorem goto_readyAt (t : Team) (a : Word) : (goto t a).readyAt = t.readyAt := rfl
@[simp] theorem goto_wasReady (t : Team) (a : Word) : (goto t a).wasReady = t.wasReady := rfl
@[simp] theorem goto_mredCount (t : Team) (a : Word) : (goto t a).mredCount = t.mredCount := rfl

/-! ### counted -/

@[simp] theorem counted_uid (t : Team) : (counted t).uid = t.uid := rfl
@[simp] theorem counted_ctx (t : Team) : (counted t).ctx = t.ctx := rfl
@[simp] theorem counted_grid (t : Team) : (counted t).grid = t.grid := rfl
@[simp] theorem counted_clus (t : Team) : (counted t).clus = t.clus := rfl
@[simp] theorem counted_index (t : Team) : (counted t).index = t.index := rfl
@[simp] theorem counted_core (t : Team) : (counted t).core = t.core := rfl
@[simp] theorem counted_slot (t : Team) : (counted t).slot = t.slot := rfl
@[simp] theorem counted_place (t : Team) : (counted t).place = t.place := rfl
@[simp] theorem counted_hdr (t : Team) : (counted t).hdr = t.hdr := rfl
@[simp] theorem counted_desc (t : Team) : (counted t).desc = t.desc := rfl
@[simp] theorem counted_table (t : Team) : (counted t).table = t.table := rfl
@[simp] theorem counted_root (t : Team) : (counted t).root = t.root := rfl
@[simp] theorem counted_regs (t : Team) : (counted t).regs = t.regs := rfl
@[simp] theorem counted_regBad (t : Team) : (counted t).regBad = t.regBad := rfl
@[simp] theorem counted_binds (t : Team) : (counted t).binds = t.binds := rfl
@[simp] theorem counted_live (t : Team) : (counted t).live = t.live := rfl
@[simp] theorem counted_dead (t : Team) : (counted t).dead = t.dead := rfl
@[simp] theorem counted_active (t : Team) : (counted t).active = t.active := rfl
@[simp] theorem counted_resume (t : Team) : (counted t).resume = t.resume := rfl
@[simp] theorem counted_stack (t : Team) : (counted t).stack = t.stack := rfl
@[simp] theorem counted_pc (t : Team) : (counted t).pc = t.pc := rfl
@[simp] theorem counted_wix (t : Team) : (counted t).wix = t.wix := rfl
@[simp] theorem counted_ir (t : Team) : (counted t).ir = t.ir := rfl
@[simp] theorem counted_fmod (t : Team) : (counted t).fmod = t.fmod := rfl
@[simp] theorem counted_clause (t : Team) : (counted t).clause = t.clause := rfl
@[simp] theorem counted_hints (t : Team) : (counted t).hints = t.hints := rfl
@[simp] theorem counted_flags (t : Team) : (counted t).flags = t.flags := rfl
@[simp] theorem counted_fpx (t : Team) : (counted t).fpx = t.fpx := rfl
@[simp] theorem counted_xdead (t : Team) : (counted t).xdead = t.xdead := rfl
@[simp] theorem counted_trapvec (t : Team) : (counted t).trapvec = t.trapvec := rfl
@[simp] theorem counted_hrev (t : Team) : (counted t).hrev = t.hrev := rfl
@[simp] theorem counted_restart (t : Team) : (counted t).restart = t.restart := rfl
@[simp] theorem counted_granules (t : Team) : (counted t).granules = t.granules := rfl
@[simp] theorem counted_leases (t : Team) : (counted t).leases = t.leases := rfl
@[simp] theorem counted_scr (t : Team) : (counted t).scr = t.scr := rfl
@[simp] theorem counted_scrBad (t : Team) : (counted t).scrBad = t.scrBad := rfl
@[simp] theorem counted_queues (t : Team) : (counted t).queues = t.queues := rfl
@[simp] theorem counted_tiles (t : Team) : (counted t).tiles = t.tiles := rfl
@[simp] theorem counted_tileBad (t : Team) : (counted t).tileBad = t.tileBad := rfl
@[simp] theorem counted_plane (t : Team) : (counted t).plane = t.plane := rfl
@[simp] theorem counted_shadow (t : Team) : (counted t).shadow = t.shadow := rfl
@[simp] theorem counted_sieve (t : Team) : (counted t).sieve = t.sieve := rfl
@[simp] theorem counted_paired (t : Team) : (counted t).paired = t.paired := rfl
@[simp] theorem counted_pairCount (t : Team) : (counted t).pairCount = t.pairCount := rfl
@[simp] theorem counted_pend (t : Team) : (counted t).pend = t.pend := rfl
@[simp] theorem counted_block (t : Team) : (counted t).block = t.block := rfl
@[simp] theorem counted_hold (t : Team) : (counted t).hold = t.hold := rfl
@[simp] theorem counted_trap (t : Team) : (counted t).trap = t.trap := rfl
@[simp] theorem counted_handler (t : Team) : (counted t).handler = t.handler := rfl
@[simp] theorem counted_frame (t : Team) : (counted t).frame = t.frame := rfl
@[simp] theorem counted_pass (t : Team) : (counted t).pass = t.pass := rfl
@[simp] theorem counted_begun (t : Team) : (counted t).begun = t.begun := rfl
@[simp] theorem counted_faulted (t : Team) : (counted t).faulted = t.faulted := rfl
@[simp] theorem counted_done (t : Team) : (counted t).done = t.done := rfl
@[simp] theorem counted_gather (t : Team) : (counted t).gather = t.gather := rfl
@[simp] theorem counted_readyAt (t : Team) : (counted t).readyAt = t.readyAt := rfl
@[simp] theorem counted_wasReady (t : Team) : (counted t).wasReady = t.wasReady := rfl
@[simp] theorem counted_mredCount (t : Team) : (counted t).mredCount = t.mredCount := rfl

/-! ### advance -/

@[simp] theorem advance_uid (t : Team) : (advance t).uid = t.uid := by unfold advance; split <;> rfl
@[simp] theorem advance_ctx (t : Team) : (advance t).ctx = t.ctx := by unfold advance; split <;> rfl
@[simp] theorem advance_grid (t : Team) : (advance t).grid = t.grid := by unfold advance; split <;> rfl
@[simp] theorem advance_clus (t : Team) : (advance t).clus = t.clus := by unfold advance; split <;> rfl
@[simp] theorem advance_index (t : Team) : (advance t).index = t.index := by unfold advance; split <;> rfl
@[simp] theorem advance_core (t : Team) : (advance t).core = t.core := by unfold advance; split <;> rfl
@[simp] theorem advance_slot (t : Team) : (advance t).slot = t.slot := by unfold advance; split <;> rfl
@[simp] theorem advance_place (t : Team) : (advance t).place = t.place := by unfold advance; split <;> rfl
@[simp] theorem advance_hdr (t : Team) : (advance t).hdr = t.hdr := by unfold advance; split <;> rfl
@[simp] theorem advance_desc (t : Team) : (advance t).desc = t.desc := by unfold advance; split <;> rfl
@[simp] theorem advance_table (t : Team) : (advance t).table = t.table := by unfold advance; split <;> rfl
@[simp] theorem advance_root (t : Team) : (advance t).root = t.root := by unfold advance; split <;> rfl
@[simp] theorem advance_regs (t : Team) : (advance t).regs = t.regs := by unfold advance; split <;> rfl
@[simp] theorem advance_regBad (t : Team) : (advance t).regBad = t.regBad := by unfold advance; split <;> rfl
@[simp] theorem advance_binds (t : Team) : (advance t).binds = t.binds := by unfold advance; split <;> rfl
@[simp] theorem advance_live (t : Team) : (advance t).live = t.live := by unfold advance; split <;> rfl
@[simp] theorem advance_dead (t : Team) : (advance t).dead = t.dead := by unfold advance; split <;> rfl
@[simp] theorem advance_active (t : Team) : (advance t).active = t.active := by unfold advance; split <;> rfl
@[simp] theorem advance_stack (t : Team) : (advance t).stack = t.stack := by unfold advance; split <;> rfl
@[simp] theorem advance_ir (t : Team) : (advance t).ir = t.ir := by unfold advance; split <;> rfl
@[simp] theorem advance_fmod (t : Team) : (advance t).fmod = t.fmod := by unfold advance; split <;> rfl
@[simp] theorem advance_clause (t : Team) : (advance t).clause = t.clause := by unfold advance; split <;> rfl
@[simp] theorem advance_flags (t : Team) : (advance t).flags = t.flags := by unfold advance; split <;> rfl
@[simp] theorem advance_fpx (t : Team) : (advance t).fpx = t.fpx := by unfold advance; split <;> rfl
@[simp] theorem advance_xdead (t : Team) : (advance t).xdead = t.xdead := by unfold advance; split <;> rfl
@[simp] theorem advance_icnt (t : Team) : (advance t).icnt = t.icnt := by unfold advance; split <;> rfl
@[simp] theorem advance_trapvec (t : Team) : (advance t).trapvec = t.trapvec := by unfold advance; split <;> rfl
@[simp] theorem advance_hrev (t : Team) : (advance t).hrev = t.hrev := by unfold advance; split <;> rfl
@[simp] theorem advance_restart (t : Team) : (advance t).restart = t.restart := by unfold advance; split <;> rfl
@[simp] theorem advance_granules (t : Team) : (advance t).granules = t.granules := by unfold advance; split <;> rfl
@[simp] theorem advance_leases (t : Team) : (advance t).leases = t.leases := by unfold advance; split <;> rfl
@[simp] theorem advance_scr (t : Team) : (advance t).scr = t.scr := by unfold advance; split <;> rfl
@[simp] theorem advance_scrBad (t : Team) : (advance t).scrBad = t.scrBad := by unfold advance; split <;> rfl
@[simp] theorem advance_queues (t : Team) : (advance t).queues = t.queues := by unfold advance; split <;> rfl
@[simp] theorem advance_tiles (t : Team) : (advance t).tiles = t.tiles := by unfold advance; split <;> rfl
@[simp] theorem advance_tileBad (t : Team) : (advance t).tileBad = t.tileBad := by unfold advance; split <;> rfl
@[simp] theorem advance_plane (t : Team) : (advance t).plane = t.plane := by unfold advance; split <;> rfl
@[simp] theorem advance_shadow (t : Team) : (advance t).shadow = t.shadow := by unfold advance; split <;> rfl
@[simp] theorem advance_sieve (t : Team) : (advance t).sieve = t.sieve := by unfold advance; split <;> rfl
@[simp] theorem advance_paired (t : Team) : (advance t).paired = t.paired := by unfold advance; split <;> rfl
@[simp] theorem advance_pairCount (t : Team) : (advance t).pairCount = t.pairCount := by unfold advance; split <;> rfl
@[simp] theorem advance_pend (t : Team) : (advance t).pend = t.pend := by unfold advance; split <;> rfl
@[simp] theorem advance_block (t : Team) : (advance t).block = t.block := by unfold advance; split <;> rfl
@[simp] theorem advance_hold (t : Team) : (advance t).hold = t.hold := by unfold advance; split <;> rfl
@[simp] theorem advance_trap (t : Team) : (advance t).trap = t.trap := by unfold advance; split <;> rfl
@[simp] theorem advance_handler (t : Team) : (advance t).handler = t.handler := by unfold advance; split <;> rfl
@[simp] theorem advance_frame (t : Team) : (advance t).frame = t.frame := by unfold advance; split <;> rfl
@[simp] theorem advance_pass (t : Team) : (advance t).pass = none := by unfold advance; split <;> rfl
@[simp] theorem advance_begun (t : Team) : (advance t).begun = false := by unfold advance; split <;> rfl
@[simp] theorem advance_readyAt (t : Team) : (advance t).readyAt = t.readyAt := by unfold advance; split <;> rfl
@[simp] theorem advance_wasReady (t : Team) : (advance t).wasReady = t.wasReady := by unfold advance; split <;> rfl
@[simp] theorem advance_mredCount (t : Team) : (advance t).mredCount = t.mredCount := by unfold advance; split <;> rfl

/-! ### flagMap -/

@[simp] theorem flagMap_uid (t : Team) (i : Nat) (f : Nat → Nat) : (flagMap t i f).uid = t.uid := rfl
@[simp] theorem flagMap_ctx (t : Team) (i : Nat) (f : Nat → Nat) : (flagMap t i f).ctx = t.ctx := rfl
@[simp] theorem flagMap_grid (t : Team) (i : Nat) (f : Nat → Nat) : (flagMap t i f).grid = t.grid := rfl
@[simp] theorem flagMap_clus (t : Team) (i : Nat) (f : Nat → Nat) : (flagMap t i f).clus = t.clus := rfl
@[simp] theorem flagMap_index (t : Team) (i : Nat) (f : Nat → Nat) : (flagMap t i f).index = t.index := rfl
@[simp] theorem flagMap_core (t : Team) (i : Nat) (f : Nat → Nat) : (flagMap t i f).core = t.core := rfl
@[simp] theorem flagMap_slot (t : Team) (i : Nat) (f : Nat → Nat) : (flagMap t i f).slot = t.slot := rfl
@[simp] theorem flagMap_place (t : Team) (i : Nat) (f : Nat → Nat) : (flagMap t i f).place = t.place := rfl
@[simp] theorem flagMap_hdr (t : Team) (i : Nat) (f : Nat → Nat) : (flagMap t i f).hdr = t.hdr := rfl
@[simp] theorem flagMap_desc (t : Team) (i : Nat) (f : Nat → Nat) : (flagMap t i f).desc = t.desc := rfl
@[simp] theorem flagMap_table (t : Team) (i : Nat) (f : Nat → Nat) : (flagMap t i f).table = t.table := rfl
@[simp] theorem flagMap_root (t : Team) (i : Nat) (f : Nat → Nat) : (flagMap t i f).root = t.root := rfl
@[simp] theorem flagMap_regs (t : Team) (i : Nat) (f : Nat → Nat) : (flagMap t i f).regs = t.regs := rfl
@[simp] theorem flagMap_regBad (t : Team) (i : Nat) (f : Nat → Nat) : (flagMap t i f).regBad = t.regBad := rfl
@[simp] theorem flagMap_binds (t : Team) (i : Nat) (f : Nat → Nat) : (flagMap t i f).binds = t.binds := rfl
@[simp] theorem flagMap_live (t : Team) (i : Nat) (f : Nat → Nat) : (flagMap t i f).live = t.live := rfl
@[simp] theorem flagMap_dead (t : Team) (i : Nat) (f : Nat → Nat) : (flagMap t i f).dead = t.dead := rfl
@[simp] theorem flagMap_active (t : Team) (i : Nat) (f : Nat → Nat) : (flagMap t i f).active = t.active := rfl
@[simp] theorem flagMap_resume (t : Team) (i : Nat) (f : Nat → Nat) : (flagMap t i f).resume = t.resume := rfl
@[simp] theorem flagMap_stack (t : Team) (i : Nat) (f : Nat → Nat) : (flagMap t i f).stack = t.stack := rfl
@[simp] theorem flagMap_pc (t : Team) (i : Nat) (f : Nat → Nat) : (flagMap t i f).pc = t.pc := rfl
@[simp] theorem flagMap_wix (t : Team) (i : Nat) (f : Nat → Nat) : (flagMap t i f).wix = t.wix := rfl
@[simp] theorem flagMap_ir (t : Team) (i : Nat) (f : Nat → Nat) : (flagMap t i f).ir = t.ir := rfl
@[simp] theorem flagMap_fmod (t : Team) (i : Nat) (f : Nat → Nat) : (flagMap t i f).fmod = t.fmod := rfl
@[simp] theorem flagMap_clause (t : Team) (i : Nat) (f : Nat → Nat) : (flagMap t i f).clause = t.clause := rfl
@[simp] theorem flagMap_hints (t : Team) (i : Nat) (f : Nat → Nat) : (flagMap t i f).hints = t.hints := rfl
@[simp] theorem flagMap_fpx (t : Team) (i : Nat) (f : Nat → Nat) : (flagMap t i f).fpx = t.fpx := rfl
@[simp] theorem flagMap_xdead (t : Team) (i : Nat) (f : Nat → Nat) : (flagMap t i f).xdead = t.xdead := rfl
@[simp] theorem flagMap_icnt (t : Team) (i : Nat) (f : Nat → Nat) : (flagMap t i f).icnt = t.icnt := rfl
@[simp] theorem flagMap_trapvec (t : Team) (i : Nat) (f : Nat → Nat) : (flagMap t i f).trapvec = t.trapvec := rfl
@[simp] theorem flagMap_hrev (t : Team) (i : Nat) (f : Nat → Nat) : (flagMap t i f).hrev = t.hrev := rfl
@[simp] theorem flagMap_restart (t : Team) (i : Nat) (f : Nat → Nat) : (flagMap t i f).restart = t.restart := rfl
@[simp] theorem flagMap_granules (t : Team) (i : Nat) (f : Nat → Nat) : (flagMap t i f).granules = t.granules := rfl
@[simp] theorem flagMap_leases (t : Team) (i : Nat) (f : Nat → Nat) : (flagMap t i f).leases = t.leases := rfl
@[simp] theorem flagMap_scr (t : Team) (i : Nat) (f : Nat → Nat) : (flagMap t i f).scr = t.scr := rfl
@[simp] theorem flagMap_scrBad (t : Team) (i : Nat) (f : Nat → Nat) : (flagMap t i f).scrBad = t.scrBad := rfl
@[simp] theorem flagMap_queues (t : Team) (i : Nat) (f : Nat → Nat) : (flagMap t i f).queues = t.queues := rfl
@[simp] theorem flagMap_tiles (t : Team) (i : Nat) (f : Nat → Nat) : (flagMap t i f).tiles = t.tiles := rfl
@[simp] theorem flagMap_tileBad (t : Team) (i : Nat) (f : Nat → Nat) : (flagMap t i f).tileBad = t.tileBad := rfl
@[simp] theorem flagMap_plane (t : Team) (i : Nat) (f : Nat → Nat) : (flagMap t i f).plane = t.plane := rfl
@[simp] theorem flagMap_shadow (t : Team) (i : Nat) (f : Nat → Nat) : (flagMap t i f).shadow = t.shadow := rfl
@[simp] theorem flagMap_sieve (t : Team) (i : Nat) (f : Nat → Nat) : (flagMap t i f).sieve = t.sieve := rfl
@[simp] theorem flagMap_paired (t : Team) (i : Nat) (f : Nat → Nat) : (flagMap t i f).paired = t.paired := rfl
@[simp] theorem flagMap_pairCount (t : Team) (i : Nat) (f : Nat → Nat) : (flagMap t i f).pairCount = t.pairCount := rfl
@[simp] theorem flagMap_pend (t : Team) (i : Nat) (f : Nat → Nat) : (flagMap t i f).pend = t.pend := rfl
@[simp] theorem flagMap_block (t : Team) (i : Nat) (f : Nat → Nat) : (flagMap t i f).block = t.block := rfl
@[simp] theorem flagMap_hold (t : Team) (i : Nat) (f : Nat → Nat) : (flagMap t i f).hold = t.hold := rfl
@[simp] theorem flagMap_trap (t : Team) (i : Nat) (f : Nat → Nat) : (flagMap t i f).trap = t.trap := rfl
@[simp] theorem flagMap_handler (t : Team) (i : Nat) (f : Nat → Nat) : (flagMap t i f).handler = t.handler := rfl
@[simp] theorem flagMap_frame (t : Team) (i : Nat) (f : Nat → Nat) : (flagMap t i f).frame = t.frame := rfl
@[simp] theorem flagMap_pass (t : Team) (i : Nat) (f : Nat → Nat) : (flagMap t i f).pass = t.pass := rfl
@[simp] theorem flagMap_begun (t : Team) (i : Nat) (f : Nat → Nat) : (flagMap t i f).begun = t.begun := rfl
@[simp] theorem flagMap_faulted (t : Team) (i : Nat) (f : Nat → Nat) : (flagMap t i f).faulted = t.faulted := rfl
@[simp] theorem flagMap_done (t : Team) (i : Nat) (f : Nat → Nat) : (flagMap t i f).done = t.done := rfl
@[simp] theorem flagMap_gather (t : Team) (i : Nat) (f : Nat → Nat) : (flagMap t i f).gather = t.gather := rfl
@[simp] theorem flagMap_readyAt (t : Team) (i : Nat) (f : Nat → Nat) : (flagMap t i f).readyAt = t.readyAt := rfl
@[simp] theorem flagMap_wasReady (t : Team) (i : Nat) (f : Nat → Nat) : (flagMap t i f).wasReady = t.wasReady := rfl
@[simp] theorem flagMap_mredCount (t : Team) (i : Nat) (f : Nat → Nat) : (flagMap t i f).mredCount = t.mredCount := rfl

/-! ### writeRegs -/

@[simp] theorem writeRegs_uid (t : Team) (ws : List (Nat × Word)) : (writeRegs t ws).uid = t.uid := rfl
@[simp] theorem writeRegs_ctx (t : Team) (ws : List (Nat × Word)) : (writeRegs t ws).ctx = t.ctx := rfl
@[simp] theorem writeRegs_grid (t : Team) (ws : List (Nat × Word)) : (writeRegs t ws).grid = t.grid := rfl
@[simp] theorem writeRegs_clus (t : Team) (ws : List (Nat × Word)) : (writeRegs t ws).clus = t.clus := rfl
@[simp] theorem writeRegs_index (t : Team) (ws : List (Nat × Word)) : (writeRegs t ws).index = t.index := rfl
@[simp] theorem writeRegs_core (t : Team) (ws : List (Nat × Word)) : (writeRegs t ws).core = t.core := rfl
@[simp] theorem writeRegs_slot (t : Team) (ws : List (Nat × Word)) : (writeRegs t ws).slot = t.slot := rfl
@[simp] theorem writeRegs_place (t : Team) (ws : List (Nat × Word)) : (writeRegs t ws).place = t.place := rfl
@[simp] theorem writeRegs_hdr (t : Team) (ws : List (Nat × Word)) : (writeRegs t ws).hdr = t.hdr := rfl
@[simp] theorem writeRegs_desc (t : Team) (ws : List (Nat × Word)) : (writeRegs t ws).desc = t.desc := rfl
@[simp] theorem writeRegs_table (t : Team) (ws : List (Nat × Word)) : (writeRegs t ws).table = t.table := rfl
@[simp] theorem writeRegs_root (t : Team) (ws : List (Nat × Word)) : (writeRegs t ws).root = t.root := rfl
@[simp] theorem writeRegs_binds (t : Team) (ws : List (Nat × Word)) : (writeRegs t ws).binds = t.binds := rfl
@[simp] theorem writeRegs_live (t : Team) (ws : List (Nat × Word)) : (writeRegs t ws).live = t.live := rfl
@[simp] theorem writeRegs_dead (t : Team) (ws : List (Nat × Word)) : (writeRegs t ws).dead = t.dead := rfl
@[simp] theorem writeRegs_active (t : Team) (ws : List (Nat × Word)) : (writeRegs t ws).active = t.active := rfl
@[simp] theorem writeRegs_resume (t : Team) (ws : List (Nat × Word)) : (writeRegs t ws).resume = t.resume := rfl
@[simp] theorem writeRegs_stack (t : Team) (ws : List (Nat × Word)) : (writeRegs t ws).stack = t.stack := rfl
@[simp] theorem writeRegs_pc (t : Team) (ws : List (Nat × Word)) : (writeRegs t ws).pc = t.pc := rfl
@[simp] theorem writeRegs_wix (t : Team) (ws : List (Nat × Word)) : (writeRegs t ws).wix = t.wix := rfl
@[simp] theorem writeRegs_ir (t : Team) (ws : List (Nat × Word)) : (writeRegs t ws).ir = t.ir := rfl
@[simp] theorem writeRegs_fmod (t : Team) (ws : List (Nat × Word)) : (writeRegs t ws).fmod = t.fmod := rfl
@[simp] theorem writeRegs_clause (t : Team) (ws : List (Nat × Word)) : (writeRegs t ws).clause = t.clause := rfl
@[simp] theorem writeRegs_hints (t : Team) (ws : List (Nat × Word)) : (writeRegs t ws).hints = t.hints := rfl
@[simp] theorem writeRegs_flags (t : Team) (ws : List (Nat × Word)) : (writeRegs t ws).flags = t.flags := rfl
@[simp] theorem writeRegs_fpx (t : Team) (ws : List (Nat × Word)) : (writeRegs t ws).fpx = t.fpx := rfl
@[simp] theorem writeRegs_xdead (t : Team) (ws : List (Nat × Word)) : (writeRegs t ws).xdead = t.xdead := rfl
@[simp] theorem writeRegs_icnt (t : Team) (ws : List (Nat × Word)) : (writeRegs t ws).icnt = t.icnt := rfl
@[simp] theorem writeRegs_trapvec (t : Team) (ws : List (Nat × Word)) : (writeRegs t ws).trapvec = t.trapvec := rfl
@[simp] theorem writeRegs_hrev (t : Team) (ws : List (Nat × Word)) : (writeRegs t ws).hrev = t.hrev := rfl
@[simp] theorem writeRegs_restart (t : Team) (ws : List (Nat × Word)) : (writeRegs t ws).restart = t.restart := rfl
@[simp] theorem writeRegs_granules (t : Team) (ws : List (Nat × Word)) : (writeRegs t ws).granules = t.granules := rfl
@[simp] theorem writeRegs_leases (t : Team) (ws : List (Nat × Word)) : (writeRegs t ws).leases = t.leases := rfl
@[simp] theorem writeRegs_scr (t : Team) (ws : List (Nat × Word)) : (writeRegs t ws).scr = t.scr := rfl
@[simp] theorem writeRegs_scrBad (t : Team) (ws : List (Nat × Word)) : (writeRegs t ws).scrBad = t.scrBad := rfl
@[simp] theorem writeRegs_queues (t : Team) (ws : List (Nat × Word)) : (writeRegs t ws).queues = t.queues := rfl
@[simp] theorem writeRegs_tiles (t : Team) (ws : List (Nat × Word)) : (writeRegs t ws).tiles = t.tiles := rfl
@[simp] theorem writeRegs_tileBad (t : Team) (ws : List (Nat × Word)) : (writeRegs t ws).tileBad = t.tileBad := rfl
@[simp] theorem writeRegs_plane (t : Team) (ws : List (Nat × Word)) : (writeRegs t ws).plane = t.plane := rfl
@[simp] theorem writeRegs_shadow (t : Team) (ws : List (Nat × Word)) : (writeRegs t ws).shadow = t.shadow := rfl
@[simp] theorem writeRegs_sieve (t : Team) (ws : List (Nat × Word)) : (writeRegs t ws).sieve = t.sieve := rfl
@[simp] theorem writeRegs_paired (t : Team) (ws : List (Nat × Word)) : (writeRegs t ws).paired = t.paired := rfl
@[simp] theorem writeRegs_pairCount (t : Team) (ws : List (Nat × Word)) : (writeRegs t ws).pairCount = t.pairCount := rfl
@[simp] theorem writeRegs_block (t : Team) (ws : List (Nat × Word)) : (writeRegs t ws).block = t.block := rfl
@[simp] theorem writeRegs_hold (t : Team) (ws : List (Nat × Word)) : (writeRegs t ws).hold = t.hold := rfl
@[simp] theorem writeRegs_trap (t : Team) (ws : List (Nat × Word)) : (writeRegs t ws).trap = t.trap := rfl
@[simp] theorem writeRegs_handler (t : Team) (ws : List (Nat × Word)) : (writeRegs t ws).handler = t.handler := rfl
@[simp] theorem writeRegs_frame (t : Team) (ws : List (Nat × Word)) : (writeRegs t ws).frame = t.frame := rfl
@[simp] theorem writeRegs_pass (t : Team) (ws : List (Nat × Word)) : (writeRegs t ws).pass = t.pass := rfl
@[simp] theorem writeRegs_begun (t : Team) (ws : List (Nat × Word)) : (writeRegs t ws).begun = t.begun := rfl
@[simp] theorem writeRegs_faulted (t : Team) (ws : List (Nat × Word)) : (writeRegs t ws).faulted = t.faulted := rfl
@[simp] theorem writeRegs_done (t : Team) (ws : List (Nat × Word)) : (writeRegs t ws).done = t.done := rfl
@[simp] theorem writeRegs_gather (t : Team) (ws : List (Nat × Word)) : (writeRegs t ws).gather = t.gather := rfl
@[simp] theorem writeRegs_readyAt (t : Team) (ws : List (Nat × Word)) : (writeRegs t ws).readyAt = t.readyAt := rfl
@[simp] theorem writeRegs_wasReady (t : Team) (ws : List (Nat × Word)) : (writeRegs t ws).wasReady = t.wasReady := rfl
@[simp] theorem writeRegs_mredCount (t : Team) (ws : List (Nat × Word)) : (writeRegs t ws).mredCount = t.mredCount := rfl

/-! ### orFpx -/

@[simp] theorem orFpx_uid (t : Team) (fs : List (Nat × Nat)) : (orFpx t fs).uid = t.uid := rfl
@[simp] theorem orFpx_ctx (t : Team) (fs : List (Nat × Nat)) : (orFpx t fs).ctx = t.ctx := rfl
@[simp] theorem orFpx_grid (t : Team) (fs : List (Nat × Nat)) : (orFpx t fs).grid = t.grid := rfl
@[simp] theorem orFpx_clus (t : Team) (fs : List (Nat × Nat)) : (orFpx t fs).clus = t.clus := rfl
@[simp] theorem orFpx_index (t : Team) (fs : List (Nat × Nat)) : (orFpx t fs).index = t.index := rfl
@[simp] theorem orFpx_core (t : Team) (fs : List (Nat × Nat)) : (orFpx t fs).core = t.core := rfl
@[simp] theorem orFpx_slot (t : Team) (fs : List (Nat × Nat)) : (orFpx t fs).slot = t.slot := rfl
@[simp] theorem orFpx_place (t : Team) (fs : List (Nat × Nat)) : (orFpx t fs).place = t.place := rfl
@[simp] theorem orFpx_hdr (t : Team) (fs : List (Nat × Nat)) : (orFpx t fs).hdr = t.hdr := rfl
@[simp] theorem orFpx_desc (t : Team) (fs : List (Nat × Nat)) : (orFpx t fs).desc = t.desc := rfl
@[simp] theorem orFpx_table (t : Team) (fs : List (Nat × Nat)) : (orFpx t fs).table = t.table := rfl
@[simp] theorem orFpx_root (t : Team) (fs : List (Nat × Nat)) : (orFpx t fs).root = t.root := rfl
@[simp] theorem orFpx_regs (t : Team) (fs : List (Nat × Nat)) : (orFpx t fs).regs = t.regs := rfl
@[simp] theorem orFpx_regBad (t : Team) (fs : List (Nat × Nat)) : (orFpx t fs).regBad = t.regBad := rfl
@[simp] theorem orFpx_binds (t : Team) (fs : List (Nat × Nat)) : (orFpx t fs).binds = t.binds := rfl
@[simp] theorem orFpx_live (t : Team) (fs : List (Nat × Nat)) : (orFpx t fs).live = t.live := rfl
@[simp] theorem orFpx_dead (t : Team) (fs : List (Nat × Nat)) : (orFpx t fs).dead = t.dead := rfl
@[simp] theorem orFpx_active (t : Team) (fs : List (Nat × Nat)) : (orFpx t fs).active = t.active := rfl
@[simp] theorem orFpx_resume (t : Team) (fs : List (Nat × Nat)) : (orFpx t fs).resume = t.resume := rfl
@[simp] theorem orFpx_stack (t : Team) (fs : List (Nat × Nat)) : (orFpx t fs).stack = t.stack := rfl
@[simp] theorem orFpx_pc (t : Team) (fs : List (Nat × Nat)) : (orFpx t fs).pc = t.pc := rfl
@[simp] theorem orFpx_wix (t : Team) (fs : List (Nat × Nat)) : (orFpx t fs).wix = t.wix := rfl
@[simp] theorem orFpx_ir (t : Team) (fs : List (Nat × Nat)) : (orFpx t fs).ir = t.ir := rfl
@[simp] theorem orFpx_fmod (t : Team) (fs : List (Nat × Nat)) : (orFpx t fs).fmod = t.fmod := rfl
@[simp] theorem orFpx_clause (t : Team) (fs : List (Nat × Nat)) : (orFpx t fs).clause = t.clause := rfl
@[simp] theorem orFpx_hints (t : Team) (fs : List (Nat × Nat)) : (orFpx t fs).hints = t.hints := rfl
@[simp] theorem orFpx_flags (t : Team) (fs : List (Nat × Nat)) : (orFpx t fs).flags = t.flags := rfl
@[simp] theorem orFpx_xdead (t : Team) (fs : List (Nat × Nat)) : (orFpx t fs).xdead = t.xdead := rfl
@[simp] theorem orFpx_icnt (t : Team) (fs : List (Nat × Nat)) : (orFpx t fs).icnt = t.icnt := rfl
@[simp] theorem orFpx_trapvec (t : Team) (fs : List (Nat × Nat)) : (orFpx t fs).trapvec = t.trapvec := rfl
@[simp] theorem orFpx_hrev (t : Team) (fs : List (Nat × Nat)) : (orFpx t fs).hrev = t.hrev := rfl
@[simp] theorem orFpx_restart (t : Team) (fs : List (Nat × Nat)) : (orFpx t fs).restart = t.restart := rfl
@[simp] theorem orFpx_granules (t : Team) (fs : List (Nat × Nat)) : (orFpx t fs).granules = t.granules := rfl
@[simp] theorem orFpx_leases (t : Team) (fs : List (Nat × Nat)) : (orFpx t fs).leases = t.leases := rfl
@[simp] theorem orFpx_scr (t : Team) (fs : List (Nat × Nat)) : (orFpx t fs).scr = t.scr := rfl
@[simp] theorem orFpx_scrBad (t : Team) (fs : List (Nat × Nat)) : (orFpx t fs).scrBad = t.scrBad := rfl
@[simp] theorem orFpx_queues (t : Team) (fs : List (Nat × Nat)) : (orFpx t fs).queues = t.queues := rfl
@[simp] theorem orFpx_tiles (t : Team) (fs : List (Nat × Nat)) : (orFpx t fs).tiles = t.tiles := rfl
@[simp] theorem orFpx_tileBad (t : Team) (fs : List (Nat × Nat)) : (orFpx t fs).tileBad = t.tileBad := rfl
@[simp] theorem orFpx_plane (t : Team) (fs : List (Nat × Nat)) : (orFpx t fs).plane = t.plane := rfl
@[simp] theorem orFpx_shadow (t : Team) (fs : List (Nat × Nat)) : (orFpx t fs).shadow = t.shadow := rfl
@[simp] theorem orFpx_sieve (t : Team) (fs : List (Nat × Nat)) : (orFpx t fs).sieve = t.sieve := rfl
@[simp] theorem orFpx_paired (t : Team) (fs : List (Nat × Nat)) : (orFpx t fs).paired = t.paired := rfl
@[simp] theorem orFpx_pairCount (t : Team) (fs : List (Nat × Nat)) : (orFpx t fs).pairCount = t.pairCount := rfl
@[simp] theorem orFpx_pend (t : Team) (fs : List (Nat × Nat)) : (orFpx t fs).pend = t.pend := rfl
@[simp] theorem orFpx_block (t : Team) (fs : List (Nat × Nat)) : (orFpx t fs).block = t.block := rfl
@[simp] theorem orFpx_hold (t : Team) (fs : List (Nat × Nat)) : (orFpx t fs).hold = t.hold := rfl
@[simp] theorem orFpx_trap (t : Team) (fs : List (Nat × Nat)) : (orFpx t fs).trap = t.trap := rfl
@[simp] theorem orFpx_handler (t : Team) (fs : List (Nat × Nat)) : (orFpx t fs).handler = t.handler := rfl
@[simp] theorem orFpx_frame (t : Team) (fs : List (Nat × Nat)) : (orFpx t fs).frame = t.frame := rfl
@[simp] theorem orFpx_pass (t : Team) (fs : List (Nat × Nat)) : (orFpx t fs).pass = t.pass := rfl
@[simp] theorem orFpx_begun (t : Team) (fs : List (Nat × Nat)) : (orFpx t fs).begun = t.begun := rfl
@[simp] theorem orFpx_faulted (t : Team) (fs : List (Nat × Nat)) : (orFpx t fs).faulted = t.faulted := rfl
@[simp] theorem orFpx_done (t : Team) (fs : List (Nat × Nat)) : (orFpx t fs).done = t.done := rfl
@[simp] theorem orFpx_gather (t : Team) (fs : List (Nat × Nat)) : (orFpx t fs).gather = t.gather := rfl
@[simp] theorem orFpx_readyAt (t : Team) (fs : List (Nat × Nat)) : (orFpx t fs).readyAt = t.readyAt := rfl
@[simp] theorem orFpx_wasReady (t : Team) (fs : List (Nat × Nat)) : (orFpx t fs).wasReady = t.wasReady := rfl
@[simp] theorem orFpx_mredCount (t : Team) (fs : List (Nat × Nat)) : (orFpx t fs).mredCount = t.mredCount := rfl

/-! ### setDrd -/

@[simp] theorem setDrd_uid (t : Team) (ls : List Nat) : (setDrd t ls).uid = t.uid := rfl
@[simp] theorem setDrd_ctx (t : Team) (ls : List Nat) : (setDrd t ls).ctx = t.ctx := rfl
@[simp] theorem setDrd_grid (t : Team) (ls : List Nat) : (setDrd t ls).grid = t.grid := rfl
@[simp] theorem setDrd_clus (t : Team) (ls : List Nat) : (setDrd t ls).clus = t.clus := rfl
@[simp] theorem setDrd_index (t : Team) (ls : List Nat) : (setDrd t ls).index = t.index := rfl
@[simp] theorem setDrd_core (t : Team) (ls : List Nat) : (setDrd t ls).core = t.core := rfl
@[simp] theorem setDrd_slot (t : Team) (ls : List Nat) : (setDrd t ls).slot = t.slot := rfl
@[simp] theorem setDrd_place (t : Team) (ls : List Nat) : (setDrd t ls).place = t.place := rfl
@[simp] theorem setDrd_hdr (t : Team) (ls : List Nat) : (setDrd t ls).hdr = t.hdr := rfl
@[simp] theorem setDrd_desc (t : Team) (ls : List Nat) : (setDrd t ls).desc = t.desc := rfl
@[simp] theorem setDrd_table (t : Team) (ls : List Nat) : (setDrd t ls).table = t.table := rfl
@[simp] theorem setDrd_root (t : Team) (ls : List Nat) : (setDrd t ls).root = t.root := rfl
@[simp] theorem setDrd_regs (t : Team) (ls : List Nat) : (setDrd t ls).regs = t.regs := rfl
@[simp] theorem setDrd_regBad (t : Team) (ls : List Nat) : (setDrd t ls).regBad = t.regBad := rfl
@[simp] theorem setDrd_binds (t : Team) (ls : List Nat) : (setDrd t ls).binds = t.binds := rfl
@[simp] theorem setDrd_live (t : Team) (ls : List Nat) : (setDrd t ls).live = t.live := rfl
@[simp] theorem setDrd_dead (t : Team) (ls : List Nat) : (setDrd t ls).dead = t.dead := rfl
@[simp] theorem setDrd_active (t : Team) (ls : List Nat) : (setDrd t ls).active = t.active := rfl
@[simp] theorem setDrd_resume (t : Team) (ls : List Nat) : (setDrd t ls).resume = t.resume := rfl
@[simp] theorem setDrd_stack (t : Team) (ls : List Nat) : (setDrd t ls).stack = t.stack := rfl
@[simp] theorem setDrd_pc (t : Team) (ls : List Nat) : (setDrd t ls).pc = t.pc := rfl
@[simp] theorem setDrd_wix (t : Team) (ls : List Nat) : (setDrd t ls).wix = t.wix := rfl
@[simp] theorem setDrd_ir (t : Team) (ls : List Nat) : (setDrd t ls).ir = t.ir := rfl
@[simp] theorem setDrd_fmod (t : Team) (ls : List Nat) : (setDrd t ls).fmod = t.fmod := rfl
@[simp] theorem setDrd_clause (t : Team) (ls : List Nat) : (setDrd t ls).clause = t.clause := rfl
@[simp] theorem setDrd_hints (t : Team) (ls : List Nat) : (setDrd t ls).hints = t.hints := rfl
@[simp] theorem setDrd_flags (t : Team) (ls : List Nat) : (setDrd t ls).flags = t.flags := rfl
@[simp] theorem setDrd_fpx (t : Team) (ls : List Nat) : (setDrd t ls).fpx = t.fpx := rfl
@[simp] theorem setDrd_icnt (t : Team) (ls : List Nat) : (setDrd t ls).icnt = t.icnt := rfl
@[simp] theorem setDrd_trapvec (t : Team) (ls : List Nat) : (setDrd t ls).trapvec = t.trapvec := rfl
@[simp] theorem setDrd_hrev (t : Team) (ls : List Nat) : (setDrd t ls).hrev = t.hrev := rfl
@[simp] theorem setDrd_restart (t : Team) (ls : List Nat) : (setDrd t ls).restart = t.restart := rfl
@[simp] theorem setDrd_granules (t : Team) (ls : List Nat) : (setDrd t ls).granules = t.granules := rfl
@[simp] theorem setDrd_leases (t : Team) (ls : List Nat) : (setDrd t ls).leases = t.leases := rfl
@[simp] theorem setDrd_scr (t : Team) (ls : List Nat) : (setDrd t ls).scr = t.scr := rfl
@[simp] theorem setDrd_scrBad (t : Team) (ls : List Nat) : (setDrd t ls).scrBad = t.scrBad := rfl
@[simp] theorem setDrd_queues (t : Team) (ls : List Nat) : (setDrd t ls).queues = t.queues := rfl
@[simp] theorem setDrd_tiles (t : Team) (ls : List Nat) : (setDrd t ls).tiles = t.tiles := rfl
@[simp] theorem setDrd_tileBad (t : Team) (ls : List Nat) : (setDrd t ls).tileBad = t.tileBad := rfl
@[simp] theorem setDrd_plane (t : Team) (ls : List Nat) : (setDrd t ls).plane = t.plane := rfl
@[simp] theorem setDrd_shadow (t : Team) (ls : List Nat) : (setDrd t ls).shadow = t.shadow := rfl
@[simp] theorem setDrd_sieve (t : Team) (ls : List Nat) : (setDrd t ls).sieve = t.sieve := rfl
@[simp] theorem setDrd_paired (t : Team) (ls : List Nat) : (setDrd t ls).paired = t.paired := rfl
@[simp] theorem setDrd_pairCount (t : Team) (ls : List Nat) : (setDrd t ls).pairCount = t.pairCount := rfl
@[simp] theorem setDrd_pend (t : Team) (ls : List Nat) : (setDrd t ls).pend = t.pend := rfl
@[simp] theorem setDrd_block (t : Team) (ls : List Nat) : (setDrd t ls).block = t.block := rfl
@[simp] theorem setDrd_hold (t : Team) (ls : List Nat) : (setDrd t ls).hold = t.hold := rfl
@[simp] theorem setDrd_trap (t : Team) (ls : List Nat) : (setDrd t ls).trap = t.trap := rfl
@[simp] theorem setDrd_handler (t : Team) (ls : List Nat) : (setDrd t ls).handler = t.handler := rfl
@[simp] theorem setDrd_frame (t : Team) (ls : List Nat) : (setDrd t ls).frame = t.frame := rfl
@[simp] theorem setDrd_pass (t : Team) (ls : List Nat) : (setDrd t ls).pass = t.pass := rfl
@[simp] theorem setDrd_begun (t : Team) (ls : List Nat) : (setDrd t ls).begun = t.begun := rfl
@[simp] theorem setDrd_faulted (t : Team) (ls : List Nat) : (setDrd t ls).faulted = t.faulted := rfl
@[simp] theorem setDrd_done (t : Team) (ls : List Nat) : (setDrd t ls).done = t.done := rfl
@[simp] theorem setDrd_gather (t : Team) (ls : List Nat) : (setDrd t ls).gather = t.gather := rfl
@[simp] theorem setDrd_readyAt (t : Team) (ls : List Nat) : (setDrd t ls).readyAt = t.readyAt := rfl
@[simp] theorem setDrd_wasReady (t : Team) (ls : List Nat) : (setDrd t ls).wasReady = t.wasReady := rfl
@[simp] theorem setDrd_mredCount (t : Team) (ls : List Nat) : (setDrd t ls).mredCount = t.mredCount := rfl

/-! ### removeLanes -/

@[simp] theorem removeLanes_uid (t : Team) (m : Mask) : (removeLanes t m).uid = t.uid := rfl
@[simp] theorem removeLanes_ctx (t : Team) (m : Mask) : (removeLanes t m).ctx = t.ctx := rfl
@[simp] theorem removeLanes_grid (t : Team) (m : Mask) : (removeLanes t m).grid = t.grid := rfl
@[simp] theorem removeLanes_clus (t : Team) (m : Mask) : (removeLanes t m).clus = t.clus := rfl
@[simp] theorem removeLanes_index (t : Team) (m : Mask) : (removeLanes t m).index = t.index := rfl
@[simp] theorem removeLanes_core (t : Team) (m : Mask) : (removeLanes t m).core = t.core := rfl
@[simp] theorem removeLanes_slot (t : Team) (m : Mask) : (removeLanes t m).slot = t.slot := rfl
@[simp] theorem removeLanes_place (t : Team) (m : Mask) : (removeLanes t m).place = t.place := rfl
@[simp] theorem removeLanes_hdr (t : Team) (m : Mask) : (removeLanes t m).hdr = t.hdr := rfl
@[simp] theorem removeLanes_desc (t : Team) (m : Mask) : (removeLanes t m).desc = t.desc := rfl
@[simp] theorem removeLanes_table (t : Team) (m : Mask) : (removeLanes t m).table = t.table := rfl
@[simp] theorem removeLanes_root (t : Team) (m : Mask) : (removeLanes t m).root = t.root := rfl
@[simp] theorem removeLanes_regs (t : Team) (m : Mask) : (removeLanes t m).regs = t.regs := rfl
@[simp] theorem removeLanes_regBad (t : Team) (m : Mask) : (removeLanes t m).regBad = t.regBad := rfl
@[simp] theorem removeLanes_binds (t : Team) (m : Mask) : (removeLanes t m).binds = t.binds := rfl
@[simp] theorem removeLanes_dead (t : Team) (m : Mask) : (removeLanes t m).dead = t.dead := rfl
@[simp] theorem removeLanes_pc (t : Team) (m : Mask) : (removeLanes t m).pc = t.pc := rfl
@[simp] theorem removeLanes_wix (t : Team) (m : Mask) : (removeLanes t m).wix = t.wix := rfl
@[simp] theorem removeLanes_ir (t : Team) (m : Mask) : (removeLanes t m).ir = t.ir := rfl
@[simp] theorem removeLanes_fmod (t : Team) (m : Mask) : (removeLanes t m).fmod = t.fmod := rfl
@[simp] theorem removeLanes_clause (t : Team) (m : Mask) : (removeLanes t m).clause = t.clause := rfl
@[simp] theorem removeLanes_hints (t : Team) (m : Mask) : (removeLanes t m).hints = t.hints := rfl
@[simp] theorem removeLanes_flags (t : Team) (m : Mask) : (removeLanes t m).flags = t.flags := rfl
@[simp] theorem removeLanes_fpx (t : Team) (m : Mask) : (removeLanes t m).fpx = t.fpx := rfl
@[simp] theorem removeLanes_xdead (t : Team) (m : Mask) : (removeLanes t m).xdead = t.xdead := rfl
@[simp] theorem removeLanes_icnt (t : Team) (m : Mask) : (removeLanes t m).icnt = t.icnt := rfl
@[simp] theorem removeLanes_trapvec (t : Team) (m : Mask) : (removeLanes t m).trapvec = t.trapvec := rfl
@[simp] theorem removeLanes_hrev (t : Team) (m : Mask) : (removeLanes t m).hrev = t.hrev := rfl
@[simp] theorem removeLanes_restart (t : Team) (m : Mask) : (removeLanes t m).restart = t.restart := rfl
@[simp] theorem removeLanes_granules (t : Team) (m : Mask) : (removeLanes t m).granules = t.granules := rfl
@[simp] theorem removeLanes_leases (t : Team) (m : Mask) : (removeLanes t m).leases = t.leases := rfl
@[simp] theorem removeLanes_scr (t : Team) (m : Mask) : (removeLanes t m).scr = t.scr := rfl
@[simp] theorem removeLanes_scrBad (t : Team) (m : Mask) : (removeLanes t m).scrBad = t.scrBad := rfl
@[simp] theorem removeLanes_queues (t : Team) (m : Mask) : (removeLanes t m).queues = t.queues := rfl
@[simp] theorem removeLanes_tiles (t : Team) (m : Mask) : (removeLanes t m).tiles = t.tiles := rfl
@[simp] theorem removeLanes_tileBad (t : Team) (m : Mask) : (removeLanes t m).tileBad = t.tileBad := rfl
@[simp] theorem removeLanes_plane (t : Team) (m : Mask) : (removeLanes t m).plane = t.plane := rfl
@[simp] theorem removeLanes_shadow (t : Team) (m : Mask) : (removeLanes t m).shadow = t.shadow := rfl
@[simp] theorem removeLanes_sieve (t : Team) (m : Mask) : (removeLanes t m).sieve = t.sieve := rfl
@[simp] theorem removeLanes_paired (t : Team) (m : Mask) : (removeLanes t m).paired = t.paired := rfl
@[simp] theorem removeLanes_pairCount (t : Team) (m : Mask) : (removeLanes t m).pairCount = t.pairCount := rfl
@[simp] theorem removeLanes_pend (t : Team) (m : Mask) : (removeLanes t m).pend = t.pend := rfl
@[simp] theorem removeLanes_block (t : Team) (m : Mask) : (removeLanes t m).block = t.block := rfl
@[simp] theorem removeLanes_hold (t : Team) (m : Mask) : (removeLanes t m).hold = t.hold := rfl
@[simp] theorem removeLanes_trap (t : Team) (m : Mask) : (removeLanes t m).trap = t.trap := rfl
@[simp] theorem removeLanes_handler (t : Team) (m : Mask) : (removeLanes t m).handler = t.handler := rfl
@[simp] theorem removeLanes_frame (t : Team) (m : Mask) : (removeLanes t m).frame = t.frame := rfl
@[simp] theorem removeLanes_pass (t : Team) (m : Mask) : (removeLanes t m).pass = t.pass := rfl
@[simp] theorem removeLanes_begun (t : Team) (m : Mask) : (removeLanes t m).begun = t.begun := rfl
@[simp] theorem removeLanes_done (t : Team) (m : Mask) : (removeLanes t m).done = t.done := rfl
@[simp] theorem removeLanes_gather (t : Team) (m : Mask) : (removeLanes t m).gather = t.gather := rfl
@[simp] theorem removeLanes_readyAt (t : Team) (m : Mask) : (removeLanes t m).readyAt = t.readyAt := rfl
@[simp] theorem removeLanes_wasReady (t : Team) (m : Mask) : (removeLanes t m).wasReady = t.wasReady := rfl
@[simp] theorem removeLanes_mredCount (t : Team) (m : Mask) : (removeLanes t m).mredCount = t.mredCount := rfl

/-! ### scrWrite -/

@[simp] theorem scrWrite_uid (t : Team) (off : Nat) (bs : List Byte) : (scrWrite t off bs).uid = t.uid := rfl
@[simp] theorem scrWrite_ctx (t : Team) (off : Nat) (bs : List Byte) : (scrWrite t off bs).ctx = t.ctx := rfl
@[simp] theorem scrWrite_grid (t : Team) (off : Nat) (bs : List Byte) : (scrWrite t off bs).grid = t.grid := rfl
@[simp] theorem scrWrite_clus (t : Team) (off : Nat) (bs : List Byte) : (scrWrite t off bs).clus = t.clus := rfl
@[simp] theorem scrWrite_index (t : Team) (off : Nat) (bs : List Byte) : (scrWrite t off bs).index = t.index := rfl
@[simp] theorem scrWrite_core (t : Team) (off : Nat) (bs : List Byte) : (scrWrite t off bs).core = t.core := rfl
@[simp] theorem scrWrite_slot (t : Team) (off : Nat) (bs : List Byte) : (scrWrite t off bs).slot = t.slot := rfl
@[simp] theorem scrWrite_place (t : Team) (off : Nat) (bs : List Byte) : (scrWrite t off bs).place = t.place := rfl
@[simp] theorem scrWrite_hdr (t : Team) (off : Nat) (bs : List Byte) : (scrWrite t off bs).hdr = t.hdr := rfl
@[simp] theorem scrWrite_desc (t : Team) (off : Nat) (bs : List Byte) : (scrWrite t off bs).desc = t.desc := rfl
@[simp] theorem scrWrite_table (t : Team) (off : Nat) (bs : List Byte) : (scrWrite t off bs).table = t.table := rfl
@[simp] theorem scrWrite_root (t : Team) (off : Nat) (bs : List Byte) : (scrWrite t off bs).root = t.root := rfl
@[simp] theorem scrWrite_regs (t : Team) (off : Nat) (bs : List Byte) : (scrWrite t off bs).regs = t.regs := rfl
@[simp] theorem scrWrite_regBad (t : Team) (off : Nat) (bs : List Byte) : (scrWrite t off bs).regBad = t.regBad := rfl
@[simp] theorem scrWrite_binds (t : Team) (off : Nat) (bs : List Byte) : (scrWrite t off bs).binds = t.binds := rfl
@[simp] theorem scrWrite_live (t : Team) (off : Nat) (bs : List Byte) : (scrWrite t off bs).live = t.live := rfl
@[simp] theorem scrWrite_dead (t : Team) (off : Nat) (bs : List Byte) : (scrWrite t off bs).dead = t.dead := rfl
@[simp] theorem scrWrite_active (t : Team) (off : Nat) (bs : List Byte) : (scrWrite t off bs).active = t.active := rfl
@[simp] theorem scrWrite_resume (t : Team) (off : Nat) (bs : List Byte) : (scrWrite t off bs).resume = t.resume := rfl
@[simp] theorem scrWrite_stack (t : Team) (off : Nat) (bs : List Byte) : (scrWrite t off bs).stack = t.stack := rfl
@[simp] theorem scrWrite_pc (t : Team) (off : Nat) (bs : List Byte) : (scrWrite t off bs).pc = t.pc := rfl
@[simp] theorem scrWrite_wix (t : Team) (off : Nat) (bs : List Byte) : (scrWrite t off bs).wix = t.wix := rfl
@[simp] theorem scrWrite_ir (t : Team) (off : Nat) (bs : List Byte) : (scrWrite t off bs).ir = t.ir := rfl
@[simp] theorem scrWrite_fmod (t : Team) (off : Nat) (bs : List Byte) : (scrWrite t off bs).fmod = t.fmod := rfl
@[simp] theorem scrWrite_clause (t : Team) (off : Nat) (bs : List Byte) : (scrWrite t off bs).clause = t.clause := rfl
@[simp] theorem scrWrite_hints (t : Team) (off : Nat) (bs : List Byte) : (scrWrite t off bs).hints = t.hints := rfl
@[simp] theorem scrWrite_flags (t : Team) (off : Nat) (bs : List Byte) : (scrWrite t off bs).flags = t.flags := rfl
@[simp] theorem scrWrite_fpx (t : Team) (off : Nat) (bs : List Byte) : (scrWrite t off bs).fpx = t.fpx := rfl
@[simp] theorem scrWrite_xdead (t : Team) (off : Nat) (bs : List Byte) : (scrWrite t off bs).xdead = t.xdead := rfl
@[simp] theorem scrWrite_icnt (t : Team) (off : Nat) (bs : List Byte) : (scrWrite t off bs).icnt = t.icnt := rfl
@[simp] theorem scrWrite_trapvec (t : Team) (off : Nat) (bs : List Byte) : (scrWrite t off bs).trapvec = t.trapvec := rfl
@[simp] theorem scrWrite_hrev (t : Team) (off : Nat) (bs : List Byte) : (scrWrite t off bs).hrev = t.hrev := rfl
@[simp] theorem scrWrite_restart (t : Team) (off : Nat) (bs : List Byte) : (scrWrite t off bs).restart = t.restart := rfl
@[simp] theorem scrWrite_granules (t : Team) (off : Nat) (bs : List Byte) : (scrWrite t off bs).granules = t.granules := rfl
@[simp] theorem scrWrite_leases (t : Team) (off : Nat) (bs : List Byte) : (scrWrite t off bs).leases = t.leases := rfl
@[simp] theorem scrWrite_queues (t : Team) (off : Nat) (bs : List Byte) : (scrWrite t off bs).queues = t.queues := rfl
@[simp] theorem scrWrite_tiles (t : Team) (off : Nat) (bs : List Byte) : (scrWrite t off bs).tiles = t.tiles := rfl
@[simp] theorem scrWrite_tileBad (t : Team) (off : Nat) (bs : List Byte) : (scrWrite t off bs).tileBad = t.tileBad := rfl
@[simp] theorem scrWrite_plane (t : Team) (off : Nat) (bs : List Byte) : (scrWrite t off bs).plane = t.plane := rfl
@[simp] theorem scrWrite_shadow (t : Team) (off : Nat) (bs : List Byte) : (scrWrite t off bs).shadow = t.shadow := rfl
@[simp] theorem scrWrite_sieve (t : Team) (off : Nat) (bs : List Byte) : (scrWrite t off bs).sieve = t.sieve := rfl
@[simp] theorem scrWrite_paired (t : Team) (off : Nat) (bs : List Byte) : (scrWrite t off bs).paired = t.paired := rfl
@[simp] theorem scrWrite_pairCount (t : Team) (off : Nat) (bs : List Byte) : (scrWrite t off bs).pairCount = t.pairCount := rfl
@[simp] theorem scrWrite_pend (t : Team) (off : Nat) (bs : List Byte) : (scrWrite t off bs).pend = t.pend := rfl
@[simp] theorem scrWrite_block (t : Team) (off : Nat) (bs : List Byte) : (scrWrite t off bs).block = t.block := rfl
@[simp] theorem scrWrite_hold (t : Team) (off : Nat) (bs : List Byte) : (scrWrite t off bs).hold = t.hold := rfl
@[simp] theorem scrWrite_trap (t : Team) (off : Nat) (bs : List Byte) : (scrWrite t off bs).trap = t.trap := rfl
@[simp] theorem scrWrite_handler (t : Team) (off : Nat) (bs : List Byte) : (scrWrite t off bs).handler = t.handler := rfl
@[simp] theorem scrWrite_frame (t : Team) (off : Nat) (bs : List Byte) : (scrWrite t off bs).frame = t.frame := rfl
@[simp] theorem scrWrite_pass (t : Team) (off : Nat) (bs : List Byte) : (scrWrite t off bs).pass = t.pass := rfl
@[simp] theorem scrWrite_begun (t : Team) (off : Nat) (bs : List Byte) : (scrWrite t off bs).begun = t.begun := rfl
@[simp] theorem scrWrite_faulted (t : Team) (off : Nat) (bs : List Byte) : (scrWrite t off bs).faulted = t.faulted := rfl
@[simp] theorem scrWrite_done (t : Team) (off : Nat) (bs : List Byte) : (scrWrite t off bs).done = t.done := rfl
@[simp] theorem scrWrite_gather (t : Team) (off : Nat) (bs : List Byte) : (scrWrite t off bs).gather = t.gather := rfl
@[simp] theorem scrWrite_readyAt (t : Team) (off : Nat) (bs : List Byte) : (scrWrite t off bs).readyAt = t.readyAt := rfl
@[simp] theorem scrWrite_wasReady (t : Team) (off : Nat) (bs : List Byte) : (scrWrite t off bs).wasReady = t.wasReady := rfl
@[simp] theorem scrWrite_mredCount (t : Team) (off : Nat) (bs : List Byte) : (scrWrite t off bs).mredCount = t.mredCount := rfl

/-! ### Lookups after updates -/

/-- The team that an update replaces is found. -/
theorem findTeam_setTeam_same (s : State) (t x : Team) (h : findTeam s t.uid = some x) :
    findTeam (setTeam s t) t.uid = some t := by
  unfold findTeam setTeam at *
  rw [List.find?_map]
  have : ((fun x => x.uid == t.uid) ∘ fun x => if (x.uid == t.uid) = true then t else x) = fun (x : Team) => x.uid == t.uid := by
    funext y
    simp only [Function.comp]
    split
    · next h => simp [h]
    · rfl
  rw [this, h]
  have hx := List.find?_some h
  simp at hx
  simp [hx]

/-- Every other team is found as before. -/
theorem findTeam_setTeam_ne (s : State) (t : Team) (v : Nat) (hv : v ≠ t.uid) : findTeam (setTeam s t) v = findTeam s v := by
  unfold findTeam setTeam
  rw [List.find?_map]
  have : ((fun x => x.uid == v) ∘ fun x => if (x.uid == t.uid) = true then t else x) = fun (x : Team) => x.uid == v := by
    funext y
    simp only [Function.comp]
    split
    · next h =>
      have h' : y.uid = t.uid := by simpa using h
      simp [h']
    · rfl
  rw [this]
  cases hf : List.find? (fun (x : Team) => x.uid == v) s.teams with
  | none => rfl
  | some y =>
    have hy := List.find?_some hf
    have hne : y.uid ≠ t.uid := by
      simp at hy
      rw [hy]; exact hv
    simp [hne]

/-- A team found has the number asked for. -/
theorem findTeam_uid {s : State} {u : Nat} {t : Team} (h : findTeam s u = some t) : t.uid = u := by
  have := List.find?_some h
  simpa using this

/-- The issuing team is found under its own number. -/
theorem findTeam_of_curTeam {s : State} {t : Team} (h : curTeam s = some t) : findTeam s t.uid = some t := by
  unfold curTeam at h
  split at h
  · rw [findTeam_uid h]; exact h
  · exact absurd h (by simp)

@[simp] theorem findTeam_setCore (s : State) (c : CoreSt) (u : Nat) : findTeam (setCore s c) u = findTeam s u := rfl
@[simp] theorem findTeam_setDie (s : State) (d : Nat) (x : Die) (u : Nat) : findTeam (setDie s d x) u = findTeam s u := rfl
@[simp] theorem findTeam_taint (s : State) (t : Team) (ks : List Nat) (u : Nat) : findTeam (taint s t ks) u = findTeam s u := rfl
@[simp] theorem findTeam_bump (s : State) (t : Team) (u : Nat) : findTeam (bump s t) u = findTeam s u := by
  unfold findTeam; rw [bump_teams]

/-- A byte as its home holds it depends on the arrays and the L2 alone. -/
theorem homeByte_congr {s s' : State} (hm : s'.mem = s.mem) (hl : s'.l2 = s.l2) (a : Nat) : homeByte s' a = homeByte s a := by
  unfold homeByte; rw [hm, hl]

@[simp] theorem insertCore_find (c : CoreSt) (l : List CoreSt) (id : Nat) :
    (insertCore c l).find? (fun x => x.id == id) = if c.id = id then some c else l.find? (fun x => x.id == id) := by
  induction l with
  | nil => simp [insertCore, List.find?_cons]; split <;> simp_all
  | cons x l ih =>
    unfold insertCore
    by_cases h1 : c.id < x.id
    · simp only [h1, if_true]
      by_cases hc : c.id = id <;> simp [List.find?_cons, hc]
    · by_cases h2 : c.id = x.id
      · simp only [h2, if_true]
        by_cases hc : x.id = id <;> simp [hc, h2]
      · simp only [h1, h2, if_false, List.find?_cons, ih]
        by_cases hc : c.id = id
        · have : ¬ x.id = id := fun e => h2 (hc.trans e.symm)
          have hb : (x.id == id) = false := by simpa using this
          simp [hc, hb]
        · simp [hc]

/-- A core's record after an update is the new one; every other core keeps its own. -/
theorem coreOf_setCore (s : State) (c : CoreSt) (id : Nat) :
    coreOf (setCore s c) id = if c.id = id then c else coreOf s id := by
  unfold coreOf setCore
  simp only [insertCore_find]
  split <;> rfl

@[simp] theorem coreOf_setTeam (s : State) (t : Team) (id : Nat) : coreOf (setTeam s t) id = coreOf s id := rfl
@[simp] theorem coreOf_setCtx (s : State) (c : Context) (id : Nat) : coreOf (setCtx s c) id = coreOf s id := rfl
@[simp] theorem coreOf_setDie (s : State) (d : Nat) (x : Die) (id : Nat) : coreOf (setDie s d x) id = coreOf s id := rfl
@[simp] theorem coreOf_bump (s : State) (t : Team) (id : Nat) : coreOf (bump s t) id = coreOf s id := by
  unfold coreOf; rw [bump_cores]

/-- The core found under a number has it. -/
@[simp] theorem coreOf_id (s : State) (id : Nat) : (coreOf s id).id = id := by
  unfold coreOf
  cases h : s.cores.find? (fun x => x.id == id) with
  | none => rfl
  | some c => simpa using List.find?_some h

end Sys2Proof.Machine
end

