-- ==== Sys2Proof/Laws/Grids.lean ====
section
/-! SUPPORT. Contexts, grids and clusters as found after one of them is replaced. -/

namespace Sys2Proof.Machine

/-- A list with the records of a key replaced, searched by key. -/
theorem find_replace {α : Type} (key : α → Nat) (l : List α) (x : α) (n : Nat) :
    (l.map (fun y => if key y == key x then x else y)).find? (fun y => key y == n) =
      if n = key x ∧ (l.find? (fun y => key y == n)).isSome = true then some x else l.find? (fun y => key y == n) := by
  induction l with
  | nil => simp
  | cons y ys ih =>
    rw [List.map_cons, List.find?_cons, List.find?_cons]
    by_cases hy : key y = key x
    · simp only [hy, beq_self_eq_true, if_true]
      by_cases hn : n = key x
      · subst hn; simp
      · have hb : (key x == n) = false := by simpa using fun e => hn e.symm
        simp only [hb]
        rw [ih]
    · have hyb : (key y == key x) = false := by simpa using hy
      simp only [hyb, Bool.false_eq_true, if_false]
      by_cases hyn : key y = n
      · subst hyn
        have : ¬ (key y = key x ∧ (some y).isSome = true) := fun e => hy e.1
        simp only [beq_self_eq_true, if_neg this]
      · have hb : (key y == n) = false := by simpa using hyn
        simp only [hb]
        rw [ih]

theorem findCtx_setCtx (s : State) (x : Context) (c : Nat) :
    findCtx (setCtx s x) c = if c = x.id ∧ (findCtx s c).isSome = true then some x else findCtx s c :=
  find_replace Context.id s.contexts x c

/-- A context found has the number asked for. -/
theorem findCtx_id {s : State} {c : Nat} {x : Context} (h : findCtx s c = some x) : x.id = c := by
  have := List.find?_some h
  simpa using this

/-- A grid replaced is found under its number; every other grid of every context is as before. -/
theorem findGrid_setGrid (s : State) (c : Nat) (g : Grid) (d n : Nat) :
    findGrid (setGrid s c g) d n = if d = c ∧ n = g.num ∧ (findGrid s d n).isSome = true then some g else findGrid s d n := by
  unfold setGrid
  cases hc : findCtx s c with
  | none =>
    simp only
    split
    · rename_i h
      obtain ⟨rfl, -, h⟩ := h
      unfold findGrid at h
      rw [hc] at h
      simp at h
    · rfl
  | some x =>
    have hid := findCtx_id hc
    simp only
    unfold findGrid
    rw [findCtx_setCtx]
    by_cases hd : d = c
    · subst hd
      rw [hc]
      simp only [hid, Option.isSome_some, and_self, if_true, true_and]
      rw [find_replace Grid.num x.grids g n]
    · have hdx : ¬ (d = x.id ∧ (findCtx s d).isSome = true) := fun e => hd (e.1.trans hid)
      simp only [if_neg hdx]
      rw [if_neg (fun e => hd e.1)]

/-- Replacing a grid keeps every other field of every context. -/
theorem findCtx_setGrid (s : State) (c : Nat) (g : Grid) (d : Nat) :
    (findCtx (setGrid s c g) d).map (fun x => { x with grids := [] }) = (findCtx s d).map (fun x => { x with grids := [] }) := by
  unfold setGrid
  cases hc : findCtx s c with
  | none => rfl
  | some x =>
    have hid := findCtx_id hc
    simp only
    rw [findCtx_setCtx]
    split
    · rename_i h
      have hd : d = c := h.1.trans hid
      subst hd
      rw [hc]
      rfl
    · rfl

end Sys2Proof.Machine
end

