-- ==== Sys2Proof/Laws/Words.lean ====
section
/-! SUPPORT. What the shared operations of instruction words do: the front of a word, the end of a word, and the per-lane
instructions of fixed latency. -/

namespace Sys2Proof.Machine

/-! ### The front of a word -/

@[simp] theorem lowest_nil : lowest [] = none := rfl

theorem filter_isNone_eq_nil (t : Team) (l slots : List Nat) (h : ∀ n ∈ l, n ∈ slots)
    (hb : ∀ n ∈ slots, (slotReg t n).isSome = true) : l.filter (fun n => (slotReg t n).isNone) = [] := by
  rw [List.filter_eq_nil_iff]
  intro n hn
  have := hb n (h n hn)
  simp [Option.isNone_iff_eq_none, Option.isSome_iff_ne_none] at *
  exact this

/-- No slot at fault where every slot is bound. -/
theorem unboundOf_none (t : Team) (r w slots : List Nat) (hr : ∀ n ∈ r, n ∈ slots) (hw : ∀ n ∈ w, n ∈ slots)
    (hb : ∀ n ∈ slots, (slotReg t n).isSome = true) : unboundOf t r w = none := by
  unfold unboundOf
  simp only [filter_isNone_eq_nil t r slots hr hb, filter_isNone_eq_nil t w slots hw hb, List.nil_append, lowest_nil]

/-- No cause among none (R45). -/
@[simp] theorem lowestCause_nil : lowestCause [] = none := rfl

/-- A word without a cause of R45, of its own rule or of every word's, runs its own effect (R45, R158, R332), counted (R351), its
team's loads fixed where it orders accesses (R258). -/
theorem withCauses_issues {s : State} {t : Team} {i : Instr} {slots : List Nat} (h : Issues s t i slots)
    (r w : Mods → List Nat) (own : Team → Mods → List (Nat × Nat)) (k : Team → Mods → Out)
    (hr : ∀ n ∈ r (modsOf t), n ∈ slots) (hw : ∀ n ∈ w (modsOf t), n ∈ slots) (ho : own t (modsOf t) = []) :
    withCauses i s r w own k = k (sealFor i (modsOf t) (counted t)) (modsOf t) := by
  unfold withCauses
  rw [h.cur]
  simp only [h.legal, ho, List.map_nil, List.append_nil, lowestCause_nil]
  rw [unboundOf_none t (r (modsOf t)) (w (modsOf t)) slots hr hw h.bound]

/-- The same of a word whose rule names no cause in its operands. -/
theorem withWord_issues {s : State} {t : Team} {i : Instr} {slots : List Nat} (h : Issues s t i slots)
    (r w : Mods → List Nat) (k : Team → Mods → Out) (hr : ∀ n ∈ r (modsOf t), n ∈ slots) (hw : ∀ n ∈ w (modsOf t), n ∈ slots) :
    withWord i s r w k = k (sealFor i (modsOf t) (counted t)) (modsOf t) := withCauses_issues h r w _ k hr hw rfl

/-- A word that fixes no loads leaves its team's loads as they are. -/
theorem sealFor_of_not {i : Instr} {m : Mods} (h : fixesLoads i m = false) (t : Team) : sealFor i m t = t := by
  unfold sealFor
  rw [h]
  rfl

/-- A word with a cause of R45 raises ILLOP by the lowest one. -/
theorem withCauses_illop {s : State} {t : Team} {i : Instr} (h : curTeam s = some t) {n c : Nat}
    (r w : Mods → List Nat) (own : Team → Mods → List (Nat × Nat)) (k : Team → Mods → Out)
    (hn : lowestCause ((reasons i t).map (fun r => (r, 0)) ++ own t (modsOf t)) = some (n, c)) :
    withCauses i s r w own k = .next (raiseIll s t n c) := by
  unfold withCauses
  rw [h]
  simp only [hn]

/-- Without a cause of R45, an unbound slot raises SLOT_UNBOUND (R158). -/
theorem withCauses_unbound {s : State} {t : Team} {i : Instr} (h : curTeam s = some t) (hl : reasons i t = []) {n why : Nat}
    (r w : Mods → List Nat) (own : Team → Mods → List (Nat × Nat)) (k : Team → Mods → Out) (ho : own t (modsOf t) = [])
    (hu : unboundOf t (r (modsOf t)) (w (modsOf t)) = some (n, why)) :
    withCauses i s r w own k = .next (raiseWide s t 0x0E 0 (BitVec.ofNat 64 (n * 256 + why))) := by
  unfold withCauses
  rw [h]
  simp only [hl, ho, List.map_nil, List.append_nil, lowestCause_nil, hu]

/-! ### The end of a word -/

/-- A word that loses no lane ends with its writes seen and its team at the next word. -/
theorem finish_nil (s : State) (t t' : Team) (keys : List Nat) :
    finish s t t' keys [] = setTeam (taint (bump s t) t keys) (endWord t') := rfl

theorem taintCmd_plain (t : Team) (w : Bool) (ks : List Nat) (c : MatCmd) :
    ({ taintCmd t w ks c with taint := [], gone := [] } : MatCmd) = { c with taint := [], gone := [] } := by
  unfold taintCmd
  split
  · simp only
    split
    · rfl
    · rfl
    · split <;> rfl
    · rfl
  · rfl

/-- Noting rewritten rows changes no core otherwise. -/
theorem coreOf_taintBy_plain (w : Bool) (s : State) (t : Team) (ks : List Nat) (id : Nat) :
    (coreOf (taintBy w s t ks) id).plain = (coreOf s id).plain := by
  unfold coreOf taintBy
  simp only [List.find?_map]
  have : ((fun x => x.id == id) ∘ fun c =>
      if (c.id == t.core) = true then { c with mat := c.mat.map (taintCmd t w ks) } else c) =
      fun (x : CoreSt) => x.id == id := by
    funext y
    simp only [Function.comp]
    split <;> rfl
  rw [this]
  cases s.cores.find? (fun x => x.id == id) with
  | none => rfl
  | some c =>
    simp only [Option.map_some, Option.getD_some]
    split
    · unfold CoreSt.plain
      simp only [List.map_map]
      congr 1
      apply List.map_congr_left
      intro m _
      exact taintCmd_plain _ _ _ _
    · rfl

theorem coreOf_taint_plain (s : State) (t : Team) (ks : List Nat) (id : Nat) :
    (coreOf (taint s t ks) id).plain = (coreOf s id).plain := coreOf_taintBy_plain true s t ks id

/-- The place of a team after its word. -/
theorem advance_eq (t : Team) : advance t = { t.wordOver with pc := (nextPlace t).1, wix := (nextPlace t).2 } := by
  unfold advance nextPlace goto
  split <;> rfl

/-- The end of a word leaves all of a team but its place, its gathered gains and its passes. -/
theorem endWord_eq (t : Team) : endWord t = { t with
    pc := (endWord t).pc, wix := (endWord t).wix, hints := (endWord t).hints, resume := (endWord t).resume
    gather := (endWord t).gather, pass := (endWord t).pass, begun := (endWord t).begun
    faulted := (endWord t).faulted, done := (endWord t).done } := by
  unfold endWord
  rw [advance_eq]
  split
  · rfl
  · split <;> rfl

/-- A word with no passes left goes to the next place. -/
theorem endWord_none {t : Team} (h : t.pass = none) : endWord t = advance t := by unfold endWord; rw [h]

@[simp] theorem endWord_uid (t : Team) : (endWord t).uid = t.uid := by rw [endWord_eq]
@[simp] theorem endWord_binds (t : Team) : (endWord t).binds = t.binds := by rw [endWord_eq]
@[simp] theorem endWord_regs (t : Team) : (endWord t).regs = t.regs := by rw [endWord_eq]
@[simp] theorem endWord_fpx (t : Team) : (endWord t).fpx = t.fpx := by rw [endWord_eq]
@[simp] theorem endWord_xdead (t : Team) : (endWord t).xdead = t.xdead := by rw [endWord_eq]
@[simp] theorem endWord_pend (t : Team) : (endWord t).pend = t.pend := by rw [endWord_eq]

/-- What the end of a word that loses no lane leaves alone. -/
theorem finish_onlyTeam (s : State) (t t' : Team) (keys : List Nat) (hu : t'.uid = t.uid) :
    OnlyTeam s (finish s t t' keys []) t.uid := by
  rw [finish_nil]
  refine ⟨?_, fun a => ?_, fun v hv => ?_, fun c => ?_, fun d => ?_⟩
  · unfold setTeam taint taintBy bump; split <;> rfl
  · exact homeByte_congr (by simp) (by simp) a
  · rw [findTeam_setTeam_ne _ _ _ (by simpa [hu] using hv)]; simp
  · simp only [coreOf_setTeam, coreOf_taint_plain, coreOf_bump]
  · unfold dieOf; simp

theorem findTeam_finish (s : State) (t t' : Team) (keys : List Nat) (hu : t'.uid = t.uid)
    (h : findTeam s t.uid = some t) : findTeam (finish s t t' keys []) t.uid = some (endWord t') := by
  rw [finish_nil]
  have ha : (endWord t').uid = t.uid := by simp [hu]
  rw [← ha]
  apply findTeam_setTeam_same (x := t)
  rw [ha]; simpa using h

/-! ### Register writes -/

/-- Keys of different lanes or registers differ. -/
theorem regKey_inj {l l' r r' : Nat} (hr : r < 256) (hr' : r' < 256) (h : regKey l r = regKey l' r') : l = l' ∧ r = r' := by
  unfold regKey at h
  omega

/-- A bound slot names a register below 256. -/
theorem slotReg_lt {t : Team} {n r : Nat} (h : slotReg t n = some r) : r < 256 := by
  unfold slotReg at h
  simp only [Option.map_eq_some_iff] at h
  obtain ⟨x, _, hx⟩ := h
  have := x.isLt
  omega

theorem mem_laneWrites {s : State} {t : Team} {l : Nat} {ds : List Nat} {u : Bool} {ws : List Word} {w : Nat × Word}
    (h : w ∈ laneWrites s t l ds u ws) : ∃ n ∈ ds, ∃ r, slotReg t n = some r ∧ w.1 = regKey l r := by
  unfold laneWrites at h
  rw [List.mem_filterMap] at h
  obtain ⟨⟨n, v⟩, hm, hw⟩ := h
  have hn := (List.of_mem_zip hm).1
  cases hr : slotReg t n with
  | none => simp [hr] at hw
  | some r =>
    simp [hr] at hw
    exact ⟨n, hn, r, hr, by rw [← hw]⟩

theorem laneWrites_false (s : State) (t : Team) (l : Nat) (ds : List Nat) (ws : List Word) :
    laneWrites s t l ds false ws = (ds.zip ws).filterMap (fun dw => (slotReg t dw.1).map (fun r => (regKey l r, dw.2))) := by
  unfold laneWrites
  congr 1
  funext dw
  cases slotReg t dw.1 <;> simp

/-- Lanes of a list of lanes that do not write a register leave it. -/
theorem sget_laneWrites_ne (s : State) (t : Team) (m : List (Nat × Word)) (lanes : List Nat) (ds : List Nat) (u : Nat → Bool)
    (v : Nat → List Word) {l r : Nat} (hr : r < 256) (h : ¬ (l ∈ lanes ∧ ∃ n ∈ ds, slotReg t n = some r)) :
    sget 0 (sputs 0 m (lanes.flatMap (fun l => laneWrites s t l ds (u l) (v l)))) (regKey l r) = sget 0 m (regKey l r) := by
  apply sget_sputs_ne
  intro w hw he
  rw [List.mem_flatMap] at hw
  obtain ⟨l', hl', hw⟩ := hw
  obtain ⟨n, hn, r', hr', hk⟩ := mem_laneWrites hw
  obtain ⟨rfl, rfl⟩ := regKey_inj (slotReg_lt hr') hr (hk.symm.trans he)
  exact h ⟨hl', n, hn, hr'⟩

/-- A lane's destination slot gets its word, unless a later slot of the instruction is bound to the same register. -/
theorem sget_laneWrites (s : State) (t : Team) (m : List (Nat × Word)) (lanes : List Nat) (ds : List Nat) (u : Nat → Bool)
    (v : Nat → List Word) {l k r : Nat} (hn : lanes.Nodup) (hl : l ∈ lanes) (hu : u l = false) (hk : k < ds.length)
    (hv : k < (v l).length) (hlast : lastOf t ds k) (hr : slotReg t (ds.getD k 0) = some r) :
    sget 0 (sputs 0 m (lanes.flatMap (fun l => laneWrites s t l ds (u l) (v l)))) (regKey l r) = (v l).getD k 0 := by
  obtain ⟨xs, ys, rfl⟩ := List.append_of_mem hl
  have hys : l ∉ ys := by
    have := (List.nodup_append.mp hn).2.1
    exact (List.nodup_cons.mp this).1
  rw [List.flatMap_append, List.flatMap_cons]
  have hz : ds.zip (v l) = (ds.zip (v l)).take k ++ (ds.getD k 0, (v l).getD k 0) :: (ds.zip (v l)).drop (k + 1) := by
    have hlen : k < (ds.zip (v l)).length := by rw [List.length_zip]; omega
    have he : (ds.zip (v l))[k] = (ds.getD k 0, (v l).getD k 0) := by
      rw [List.getElem_zip]
      simp [List.getD_eq_getElem?_getD, hk, hv]
    rw [← he, ← List.drop_eq_getElem_cons hlen, List.take_append_drop]
  have hlw : laneWrites s t l ds (u l) (v l) =
      ((ds.zip (v l)).take k).filterMap (fun dw => (slotReg t dw.1).map (fun r => (regKey l r, dw.2))) ++
        (regKey l r, (v l).getD k 0) ::
          ((ds.zip (v l)).drop (k + 1)).filterMap (fun dw => (slotReg t dw.1).map (fun r => (regKey l r, dw.2))) := by
    rw [hu, laneWrites_false]
    conv => lhs; rw [hz]
    rw [List.filterMap_append, List.filterMap_cons]
    simp only [hr, Option.map_some]
  rw [hlw, List.append_assoc, List.cons_append, ← List.append_assoc]
  apply sget_sputs_last
  intro w hw he
  rw [List.mem_append] at hw
  rcases hw with hw | hw
  · rw [List.mem_filterMap] at hw
    obtain ⟨⟨n, x⟩, hm, hw⟩ := hw
    rw [Option.map_eq_some_iff] at hw
    obtain ⟨r', hr', hw⟩ := hw
    subst hw
    obtain ⟨-, hrr⟩ := regKey_inj (slotReg_lt hr') (slotReg_lt hr) he
    subst hrr
    obtain ⟨j, hj, hje⟩ := List.getElem_of_mem hm
    rw [List.length_drop, List.length_zip] at hj
    rw [List.getElem_drop, List.getElem_zip] at hje
    have hjd : k + 1 + j < ds.length := by omega
    apply hlast (k + 1 + j) (by omega) hjd
    have h1 : ds.getD (k + 1 + j) 0 = n := by
      simp [List.getD_eq_getElem?_getD, hjd]
      exact (Prod.mk.inj hje).1
    rw [h1]
    exact hr'.trans hr.symm
  · rw [List.mem_flatMap] at hw
    obtain ⟨l', hl', hw⟩ := hw
    obtain ⟨n, hn', r', hr', hk'⟩ := mem_laneWrites hw
    obtain ⟨rfl, -⟩ := regKey_inj (slotReg_lt hr') (slotReg_lt hr) (hk'.symm.trans he)
    exact hys hl'

/-- Exception bits of lanes after an instruction (R73). -/
theorem fpxOf_orFpx (t : Team) (lanes : List Nat) (b : Nat → Nat) (hn : lanes.Nodup) (l : Nat) :
    fpxOf (orFpx t (lanes.map (fun l => (l, b l)))) l =
      if l ∈ lanes then fpxOf t l ||| BitVec.ofNat 4 (b l) else fpxOf t l := by
  unfold fpxOf orFpx
  simp only [List.foldl_map]
  generalize t.fpx = m
  induction lanes generalizing m with
  | nil => simp
  | cons x xs ih =>
    obtain ⟨hx, hxs⟩ := List.nodup_cons.mp hn
    rw [List.foldl_cons, ih hxs]
    by_cases h : l = x
    · subst h
      simp [hx]
    · simp only [List.mem_cons, h, false_or]
      split <;> rw [sget_sput_ne _ _ _ h]

theorem lanesOf_nodup (m : Mask) : (lanesOf m).Nodup := List.Pairwise.filter _ List.nodup_range

/-- Counting a word changes nothing that a lane reads. -/
theorem readSlot_counted (s : State) (t : Team) (l n : Nat) : readSlot s (counted t) l n = readSlot s t l n := rfl
theorem execLanes_counted (s : State) (t : Team) (p : BitVec 2) : execLanes s (counted t) p = execLanes s t p := rfl
theorem lostLanes_counted (s : State) (t : Team) (p : BitVec 2) (srcs : List Nat) :
    lostLanes s (counted t) p srcs = lostLanes s t p srcs := rfl
theorem readsPending_counted (s : State) (t : Team) (l : Nat) (srcs : List Nat) :
    readsPending s (counted t) l srcs = readsPending s t l srcs := rfl
theorem extOf_counted (t : Team) : extOf (counted t) = extOf t := rfl
theorem slotReg_counted (t : Team) (n : Nat) : slotReg (counted t) n = slotReg t n := rfl

theorem execLanes_nodup (s : State) (t : Team) (p : BitVec 2) : (execLanes s t p).Nodup :=
  List.Pairwise.filter _ (lanesOf_nodup _)

theorem writeRegs_pend (t : Team) (ws : List (Nat × Word)) :
    (writeRegs t ws).pend.map Pend.plain = t.pend.map Pend.plain := by
  unfold writeRegs
  simp only [List.map_map]
  apply List.map_congr_left
  intro p _
  rfl

end Sys2Proof.Machine
end

