-- ==== Sys2Proof/Laws/Lanes.lean ====
section
/-! SUPPORT. What every per-lane instruction of fixed latency and every cross-lane instruction does to its team. -/

namespace Sys2Proof.Machine

/-- Drawing free values changes nothing that a claim sees. -/
theorem OnlyTeam.fresh {s s' : State} {u n : Nat} (h : OnlyTeam { s with fresh := n } s' u) : OnlyTeam s s' u :=
  ⟨h.rest, fun a => (h.bytes a).trans rfl, fun v hv => (h.others v hv).trans rfl, fun c => (h.cores c).trans rfl,
    fun d => (h.dies d).trans rfl⟩

theorem xdead_setDrd (t : Team) (ds : List Nat) (l : Nat) :
    sget false (setDrd t ds).xdead l = (sget false t.xdead l || decide (l ∈ ds)) := by
  unfold setDrd
  simp only
  generalize t.xdead = m
  induction ds generalizing m with
  | nil => simp
  | cons x xs ih =>
    rw [List.foldl_cons, ih]
    by_cases h : l = x
    · subst h; simp
    · rw [sget_sput_ne _ _ _ h]; simp [h]

theorem setDrd_nil (t : Team) : setDrd t [] = t := rfl

/-- The team that a word of fixed latency leaves: registers, exception bits and DRD written for a list of lanes. -/
def wroteTeam (s : State) (t : Team) (lanes dsts ds : List Nat) (u : Nat → Bool) (v : Nat → List Word) (b : Nat → Nat) : Team :=
  setDrd (orFpx (writeRegs (counted t) (lanes.flatMap (fun l => laneWrites s (counted t) l dsts (u l) (v l))))
    (lanes.map (fun l => (l, b l)))) ds

/-- A team with registers, poisoned registers, pending instructions, exception bits and DRD replaced. -/
def Team.withRegs (t : Team) (r : List (Nat × Word)) (rb : List (Nat × Bool)) (p : List Pend) (f : List (Nat × BitVec 4))
    (x : List (Nat × Bool)) : Team := { t with regs := r, regBad := rb, pend := p, fpx := f, xdead := x }

theorem writeRegs_withRegs (t : Team) (ws : List (Nat × Word)) :
    writeRegs t ws = t.withRegs (writeRegs t ws).regs (writeRegs t ws).regBad (writeRegs t ws).pend t.fpx t.xdead := rfl

theorem orFpx_withRegs (t : Team) (r rb p f x) (fs : List (Nat × Nat)) : orFpx (t.withRegs r rb p f x) fs =
    t.withRegs r rb p (orFpx (t.withRegs r rb p f x) fs).fpx x := rfl

theorem setDrd_withRegs (t : Team) (r rb p f x) (ds : List Nat) : setDrd (t.withRegs r rb p f x) ds =
    t.withRegs r rb p f (setDrd (t.withRegs r rb p f x) ds).xdead := rfl

theorem endWord_counted_withRegs (t : Team) (r rb p f x) : endWord ((counted t).withRegs r rb p f x) =
    (t.after (nextPlace t)).withRegs r rb p f x := by
  have ht : toDo ((counted t).withRegs r rb p f x) = toDo t := rfl
  have hp : ((counted t).withRegs r rb p f x).pass = t.pass := rfl
  unfold Team.after endWord
  rw [advance_eq, ht, hp]
  cases t.pass with
  | none => rfl
  | some m => dsimp only; split <;> rfl

theorem onlyRegs_withRegs (t : Team) (r rb p f x) (hp : p.map Pend.plain = t.pend.map Pend.plain) :
    OnlyRegs t ((t.after (nextPlace t)).withRegs r rb p f x) := ⟨rfl, hp⟩

theorem wroteTeam_only (s : State) (t : Team) (lanes dsts ds : List Nat) (u : Nat → Bool) (v : Nat → List Word) (b : Nat → Nat) :
    OnlyRegs t (endWord (wroteTeam s t lanes dsts ds u v b)) := by
  unfold wroteTeam
  rw [writeRegs_withRegs, orFpx_withRegs, setDrd_withRegs, endWord_counted_withRegs]
  apply onlyRegs_withRegs
  rw [writeRegs_pend]
  rfl

/-- Registers, exception bits and DRD written for a list of lanes, and the end of the word. -/
theorem finish_wrote (s0 : State) (n : Nat) (t : Team) (lanes dsts keys ds : List Nat) (u : Nat → Bool)
    (v : Nat → List Word) (b : Nat → Nat) (drd : Nat → Bool) (hcur : findTeam s0 t.uid = some t) (hn : lanes.Nodup)
    (hb : ∀ n ∈ dsts, (slotReg t n).isSome = true)
    (hd : ∀ l, l ∈ ds ↔ l ∈ lanes ∧ drd l = true) :
    Wrote s0 (finish { s0 with fresh := n } (counted t) (wroteTeam s0 t lanes dsts ds u v b) keys [])
      t lanes dsts (fun l => u l = false) v b drd := by
  have ho : OnlyTeam s0 (finish { s0 with fresh := n } (counted t) (wroteTeam s0 t lanes dsts ds u v b) keys []) t.uid :=
    OnlyTeam.fresh (finish_onlyTeam _ (counted t) _ keys rfl)
  have hf : findTeam (finish { s0 with fresh := n } (counted t) (wroteTeam s0 t lanes dsts ds u v b) keys []) t.uid =
      some (endWord (wroteTeam s0 t lanes dsts ds u v b)) := by
    rw [finish_nil]
    have ha : (endWord (wroteTeam s0 t lanes dsts ds u v b)).uid = t.uid := by simp [wroteTeam]
    rw [← ha]
    apply findTeam_setTeam_same (x := t)
    rw [ha]
    have : findTeam (taint (bump { s0 with fresh := n } (counted t)) (counted t) keys) t.uid = findTeam s0 t.uid := by
      simp only [findTeam_taint, findTeam_bump]; rfl
    rw [this]; exact hcur
  refine ⟨ho, _, hf, wroteTeam_only .., ?_, ?_, ?_, ?_⟩
  · intro l hl hu k hk hv hlast
    have hsr : slot (endWord (wroteTeam s0 t lanes dsts ds u v b)) l (dsts.getD k 0) =
        match slotReg t (dsts.getD k 0) with
        | some r => sget 0 (sputs 0 t.regs (lanes.flatMap (fun l => laneWrites s0 t l dsts (u l) (v l)))) (regKey l r)
        | none => 0 := by
      unfold slot slotReg reg
      rw [endWord_binds, endWord_regs]
      rfl
    rw [hsr]
    cases hr : slotReg t (dsts.getD k 0) with
    | none =>
      have hm : dsts.getD k 0 ∈ dsts := by
        simp [List.getD_eq_getElem?_getD, hk]
      have := hb _ hm
      rw [hr] at this
      cases this
    | some r => exact sget_laneWrites s0 t t.regs lanes dsts u v hn hl hu hk hv hlast hr
  · intro l r hr h
    unfold reg
    rw [endWord_regs]
    exact sget_laneWrites_ne s0 t t.regs lanes dsts u v hr h
  · intro l
    have := fpxOf_orFpx (writeRegs (counted t) (lanes.flatMap (fun l => laneWrites s0 (counted t) l dsts (u l) (v l)))) lanes b hn l
    unfold fpxOf at *
    rw [endWord_fpx]
    exact this
  · intro l
    rw [endWord_xdead]
    unfold wroteTeam
    rw [xdead_setDrd, orFpx_xdead, writeRegs_xdead, counted_xdead]
    congr 1
    by_cases h1 : l ∈ lanes <;> by_cases h2 : drd l = true <;> simp [hd, h1, h2]

theorem findTeam_of_issues {s : State} {t : Team} {i : Instr} {sl : List Nat} (h : Issues s t i sl) :
    findTeam s t.uid = some t := findTeam_of_curTeam h.cur

/-- A lane that reads no pending destination reads its registers. -/
theorem readSlot_known {s : State} {t : Team} {l : Nat} {srcs : List Nat} (h : readsPending s t l srcs = false) {n : Nat}
    (hn : n ∈ srcs) : readSlot s t l n = slot t l n := by
  unfold readsPending at h
  rw [List.any_eq_false] at h
  have := h n hn
  unfold slotPending at this
  unfold readSlot slot
  cases hr : slotReg t n with
  | none => rfl
  | some r =>
    rw [hr] at this
    simp only at this
    simp only [if_neg this]

theorem map_readSlot_known {s : State} {t : Team} {l : Nat} {srcs : List Nat} (h : readsPending s t l srcs = false) :
    srcs.map (readSlot s t l) = srcs.map (slot t l) := List.map_congr_left fun _ hn => readSlot_known h hn

/-- Every per-lane instruction of fixed latency, in the passes that issue, where no lane consumes poison (R33, R73, R168, R190,
R293). -/
theorem vecOp_wrote {i : Instr} {s : State} {p : BitVec 2} {srcs dsts : List Nat} {t : Team}
    (f : Mods → Option (BitVec 20) → List Word → List Word × Nat) (hk : ∀ m, fixesLoads i m = false)
    (ha : Issues s t i (srcs ++ predSlot p ++ dsts)) (hl : lostLanes s t p srcs = []) :
    ∃ s', vecOp i s p srcs dsts f = .next s' ∧
      Wrote s s' t (execLanes s t p) dsts (fun l => readsPending s t l (srcs ++ predSlot p) = false)
        (fun l => (f (modsOf t) (extOf t) (srcs.map (readSlot s t l))).1)
        (fun l => if readsPending s t l (srcs ++ predSlot p) then 0
          else (f (modsOf t) (extOf t) (srcs.map (readSlot s t l))).2) (fun _ => false) := by
  refine ⟨_, (withWord_issues ha _ _ _ (fun n hn => List.mem_append_left _ hn)
    (fun n hn => List.mem_append_right _ hn)).trans rfl, ?_⟩
  rw [sealFor_of_not (hk _)]
  have hlost : lostLanes s (counted t) p srcs = [] := hl
  have hf : ∀ ls : List Nat, ls.filter (fun _ => true) = ls := fun ls => List.filter_eq_self.2 (by simp)
  simp only [hlost, List.contains_nil, Bool.not_false, hf, List.map_nil, execLanes_counted]
  have hb : ∀ n ∈ dsts, (slotReg t n).isSome = true := fun n hn => ha.bound n (List.mem_append_right _ hn)
  have := finish_wrote s s.fresh t (execLanes s t p) dsts
    ((execLanes s t p).flatMap (fun l => laneWrites s (counted t) l dsts (readsPending s (counted t) l (srcs ++ predSlot p))
      (f (modsOf t) (extOf t) (srcs.map (readSlot s t l))).1) |>.map Prod.fst) []
    (fun l => readsPending s (counted t) l (srcs ++ predSlot p))
    (fun l => (f (modsOf t) (extOf t) (srcs.map (readSlot s t l))).1)
    (fun l => if readsPending s (counted t) l (srcs ++ predSlot p) then 0
      else (f (modsOf t) (extOf t) (srcs.map (readSlot s t l))).2) (fun _ => false) (findTeam_of_issues ha)
    (execLanes_nodup s t p) hb (by simp)
  unfold wroteTeam at this
  rw [setDrd_nil] at this
  simp only [List.flatMap_map, List.map_map]
  exact this

/-- A team that issues all that is left of its word drops what it gathered. -/
theorem endWord_gather (t : Team) (h : t.pass = none) (g : Option (List Gain)) : endWord { t with gather := g } = endWord t := by
  rw [endWord_none h, endWord_none (t := { t with gather := g }) h, advance_eq, advance_eq]
  rfl

theorem finish_gather (s : State) (t t' : Team) (keys : List Nat) (h : t'.pass = none) (g : Option (List Gain)) :
    finish s t { t' with gather := g } keys [] = finish s t t' keys [] := by
  rw [finish_nil, finish_nil, endWord_gather t' h]

/-- A word that issues whole executes the lanes that are left of it. -/
theorem candidates_of_whole {t : Team} (h : t.pass = none) : candidates t = toDo t := by
  unfold candidates
  rw [h]

/-- The gains of a cross-lane word that gathers, where no lane consumes poison (R97, R207, R208). -/
theorem crossOp_gathers {i : Instr} {s : State} {p : BitVec 2} {srcs : List Nat} {d : BitVec 5} {t : Team}
    (f : Team → List Nat → Nat → Gathered) (hk : ∀ m, fixesLoads i m = false)
    (ha : Accepted s t i (srcs ++ predSlot p ++ s1 d)) (hg : t.gather = none) (hl : lostLanes s t p [] = [])
    (hp : ∀ l ∈ execLanes s t p, ∀ u ∈ (f (counted t) (execLanes s t p) l).uses, readsPoison s t u.1 u.2 = false) :
    crossOp i s p srcs d f = .next (writeGains { s with fresh := s.fresh + 2 ^ 20 } (counted t) d
      ((execLanes s t p).map (fun l => gainOf s ((srcs ++ predSlot p).any (slotOwed s t)) l
        (f (counted t) (execLanes s t p) l))) []) := by
  unfold crossOp
  rw [withWord_issues ha.toIssues _ _ _ (fun n hn => List.mem_append_left _ hn) (fun n hn => List.mem_append_right _ hn),
    sealFor_of_not (hk _)]
  have hg' : (counted t).gather = none := hg
  have hc : toDo (counted t) = candidates t := (candidates_of_whole ha.whole).symm
  have hlost : lostOf s (counted t) p [] (candidates t) = [] := hl
  have hf : ∀ ls : List Nat, ls.filter (fun _ => true) = ls := fun ls => List.filter_eq_self.2 (by simp)
  have hf' : ∀ ls : List (Nat × Gathered), ls.filter (fun _ => true) = ls := fun ls => List.filter_eq_self.2 (by simp)
  have hs : selected s (counted t) p (candidates t) = execLanes s t p := rfl
  simp only [hg', hc, hlost, List.contains_nil, Bool.not_false, hf, hs, List.nil_append]
  have hbad : (((execLanes s t p).map (fun l => (l, f (counted t) (execLanes s t p) l))).filter
      (fun o => o.2.uses.any (fun u => readsPoison s (counted t) u.1 u.2))).map Prod.fst = [] := by
    rw [List.map_eq_nil_iff, List.filter_eq_nil_iff]
    intro o ho
    rw [List.mem_map] at ho
    obtain ⟨l, hl', rfl⟩ := ho
    rw [Bool.not_eq_true, List.any_eq_false]
    intro u hu
    rw [Bool.not_eq_true]
    exact hp l hl' u hu
  rw [hbad]
  simp only [List.contains_nil, Bool.not_false, hf', List.map_nil, List.map_map]
  rfl

theorem mem_lanesOf_lt {m : Mask} {l : Nat} (h : l ∈ lanesOf m) : m.getLsbD l = true := by
  unfold lanesOf at h
  exact (List.mem_filter.mp h).2

/-- Every cross-lane instruction that is not half written, where no lane consumes poison (R97, R207, R208): all sources are read
before any destination is written. -/
theorem crossOp_wrote {i : Instr} {s : State} {p : BitVec 2} {srcs : List Nat} {d : BitVec 5} {t : Team}
    (f : Team → List Nat → Nat → Gathered) (hk : ∀ m, fixesLoads i m = false)
    (ha : Accepted s t i (srcs ++ predSlot p ++ s1 d)) (hg : t.gather = none) (hl : lostLanes s t p [] = [])
    (hp : ∀ l ∈ execLanes s t p, ∀ u ∈ (f (counted t) (execLanes s t p) l).uses, readsPoison s t u.1 u.2 = false) :
    ∃ s', crossOp i s p srcs d f = .next s' ∧
      Wrote s s' t (execLanes s t p) (s1 d) (fun _ => (srcs ++ predSlot p).any (slotOwed s t) = false)
        (fun l => [(f (counted t) (execLanes s t p) l).words.getD 0 0])
        (fun l => if (srcs ++ predSlot p).any (slotOwed s t) then 0 else (f (counted t) (execLanes s t p) l).flags)
        (fun l => (f (counted t) (execLanes s t p) l).drd) := by
  refine ⟨_, crossOp_gathers f hk ha hg hl hp, ?_⟩
  have hb : ∀ n ∈ s1 d, (slotReg t n).isSome = true := fun n hn => ha.bound n (List.mem_append_right _ hn)
  generalize hgs : (execLanes s t p).map (fun l => gainOf s ((srcs ++ predSlot p).any (slotOwed s t)) l
        (f (counted t) (execLanes s t p) l)) = gs
  have hnow : gs.filter (fun g => (candidates (counted t)).getLsbD g.lane) = gs := by
    rw [List.filter_eq_self]
    intro g h
    rw [← hgs, List.mem_map] at h
    obtain ⟨l, hl', rfl⟩ := h
    have : l ∈ lanesOf (candidates t) := (List.mem_filter.mp hl').1
    exact mem_lanesOf_lt this
  have hw := finish_wrote s (s.fresh + 2 ^ 20) t (execLanes s t p) (s1 d)
    ((gs.flatMap (fun g => laneWrites { s with fresh := s.fresh + 2 ^ 20 } (counted t) g.lane (s1 d) false [g.word])).map Prod.fst)
    ((gs.filter Gain.drd).map Gain.lane) (fun _ => false)
    (fun l => [(gainOf s ((srcs ++ predSlot p).any (slotOwed s t)) l (f (counted t) (execLanes s t p) l)).word])
    (fun l => if (srcs ++ predSlot p).any (slotOwed s t) then 0 else (f (counted t) (execLanes s t p) l).flags)
    (fun l => (f (counted t) (execLanes s t p) l).drd) (findTeam_of_issues ha.toIssues)
    (execLanes_nodup s t p) hb (by
      intro l
      rw [← hgs]
      simp only [List.mem_map, List.mem_filter]
      constructor
      · rintro ⟨g, ⟨⟨l', hl', rfl⟩, hd⟩, rfl⟩
        exact ⟨hl', hd⟩
      · rintro ⟨hl', hd⟩
        exact ⟨_, ⟨⟨l, hl', rfl⟩, hd⟩, rfl⟩)
  have he : writeGains { s with fresh := s.fresh + 2 ^ 20 } (counted t) d gs [] =
      finish { s with fresh := s.fresh + 2 ^ 20 } (counted t) (wroteTeam s t (execLanes s t p) (s1 d)
        ((gs.filter Gain.drd).map Gain.lane) (fun _ => false)
        (fun l => [(gainOf s ((srcs ++ predSlot p).any (slotOwed s t)) l (f (counted t) (execLanes s t p) l)).word])
        (fun l => if (srcs ++ predSlot p).any (slotOwed s t) then 0 else (f (counted t) (execLanes s t p) l).flags))
        ((gs.flatMap (fun g => laneWrites { s with fresh := s.fresh + 2 ^ 20 } (counted t) g.lane (s1 d) false [g.word])).map
          Prod.fst) [] := by
    unfold writeGains
    rw [hnow]
    refine (finish_gather _ _ _ _ ?_ _).trans ?_
    · exact ha.whole
    · unfold wroteTeam
      subst hgs
      simp only [List.flatMap_map, List.map_map, laneWrites_false]
      rfl
  rw [he]
  refine ⟨hw.machine, ?_⟩
  obtain ⟨t', h1, h2, h3, h4, h5, h6⟩ := hw.team
  refine ⟨t', h1, h2, ?_, h4, h5, h6⟩
  intro l hl' hkn k hk' hv hlast
  have := h3 l hl' rfl k hk' hv hlast
  rw [this]
  unfold gainOf
  rw [hkn]
  rfl

end Sys2Proof.Machine
end

