-- ==== Sys2Proof/Laws/Control.lean ====
section
/-! SUPPORT. What reading a code word and moving a team do to the machine. -/

namespace Sys2Proof.Machine

/-- From s to s' only what caches hold and the count of free values drawn changed. -/
structure OnlyCaches (s s' : State) : Prop where
  rest : s' = { s with cores := s'.cores, dies := s'.dies, icache := s'.icache, fresh := s'.fresh }
  cores : ∀ c, (coreOf s' c).plain = (coreOf s c).plain
  dies : ∀ d, (dieOf s' d).plain = (dieOf s d).plain

theorem OnlyCaches.refl (s : State) : OnlyCaches s s := ⟨rfl, fun _ => rfl, fun _ => rfl⟩

theorem OnlyCaches.trans {s1 s2 s3 : State} (a : OnlyCaches s1 s2) (b : OnlyCaches s2 s3) : OnlyCaches s1 s3 :=
  ⟨by rw [b.rest, a.rest], fun c => (b.cores c).trans (a.cores c), fun d => (b.dies d).trans (a.dies d)⟩

theorem OnlyCaches.teams {s s' : State} (h : OnlyCaches s s') : s'.teams = s.teams := by rw [h.rest]
theorem OnlyCaches.mem {s s' : State} (h : OnlyCaches s s') : s'.mem = s.mem := by rw [h.rest]
theorem OnlyCaches.l2 {s s' : State} (h : OnlyCaches s s') : s'.l2 = s.l2 := by rw [h.rest]
theorem OnlyCaches.findTeam {s s' : State} (h : OnlyCaches s s') (u : Nat) :
    findTeam s' u = findTeam s u := by unfold Sys2Proof.Machine.findTeam; rw [h.teams]

theorem onlyCaches_fresh (s : State) (n : Nat) : OnlyCaches s { s with fresh := n } := ⟨rfl, fun _ => rfl, fun _ => rfl⟩
theorem onlyCaches_icFill (s : State) (c l : Nat) : OnlyCaches s (icFill s c l) := ⟨rfl, fun _ => rfl, fun _ => rfl⟩
theorem onlyCaches_icache (s : State) (l : List Line) : OnlyCaches s { s with icache := l } :=
  ⟨rfl, fun _ => rfl, fun _ => rfl⟩

theorem onlyCaches_bump (s : State) (t : Team) : OnlyCaches s (bump s t) := by
  unfold bump
  split
  · exact .refl s
  · exact onlyCaches_fresh s _

theorem onlyCaches_setCore (s : State) (c : CoreSt) (h : c.plain = (coreOf s c.id).plain) : OnlyCaches s (setCore s c) := by
  refine ⟨rfl, fun id => ?_, fun _ => rfl⟩
  rw [coreOf_setCore]
  split
  · subst_vars; exact h
  · rfl

theorem dieOf_setDie (s : State) (d : Nat) (x : Die) (e : Nat) :
    dieOf (setDie s d x) e = if e = d ∧ d < 8 then x else dieOf s e := by
  unfold dieOf setDie
  simp only [Vector.toList_setIfInBounds, List.getD_eq_getElem?_getD, List.getElem?_set, Vector.length_toList]
  by_cases h : d = e
  · subst h
    by_cases h8 : d < 8 <;> simp [h8]
  · have h' : ¬ e = d := fun x => h x.symm
    simp [h, h']

theorem onlyCaches_setDie (s : State) (d : Nat) (x : Die) (h : x.plain = (dieOf s d).plain) : OnlyCaches s (setDie s d x) := by
  refine ⟨rfl, fun _ => rfl, fun e => ?_⟩
  rw [dieOf_setDie]
  split
  · rename_i he; rw [he.1]; exact h
  · rfl

/-- A miss changes what a die's walker holds only (R113). -/
theorem addMiss_plain (d : Die) (m : Miss) : (addMiss d m).plain = d.plain := by
  unfold addMiss
  split
  · rfl
  · split
    · rfl
    · split <;> rfl

/-- Translating an address changes caches only (R109, R112, R113). -/
theorem onlyCaches_noteWalk (core : Nat) (root : RootDesc) (s : State) (va : DWord) : OnlyCaches s (noteWalk core root s va) := by
  unfold noteWalk
  split
  · exact .refl s
  · exact onlyCaches_setDie _ _ _ (addMiss_plain _ _)

theorem onlyCaches_noteWalks (s : State) (t : Team) (vas : List DWord) : OnlyCaches s (noteWalks s t vas) := by
  unfold noteWalks
  induction vas generalizing s with
  | nil => exact .refl s
  | cons v vs ih => exact (onlyCaches_noteWalk _ _ s v).trans (ih _)

theorem walkFrom_zero (s : State) (va node : Nat) (att : Bool) : walkFrom s va 0 node att =
    (let e := readEntry s node (va / 2 ^ levelShift 0 % 256)
     if !e.valid then .absent 0
     else if malformed 0 e then .malf 0
     else if e.leaf then .leaf 0 e (att || e.atten)
     else .malf 0) := rfl

theorem walkFrom_succ (s : State) (va l node : Nat) (att : Bool) : walkFrom s va (l + 1) node att =
    (let e := readEntry s node (va / 2 ^ levelShift (l + 1) % 256)
     if !e.valid then .absent (l + 1)
     else if malformed (l + 1) e then .malf (l + 1)
     else if e.leaf then .leaf (l + 1) e (att || e.atten)
     else if physBad s.manifest e.frame then .outside (l + 1)
     else walkFrom s va l e.frame (att || e.atten)) := rfl

/-- What a walk of a page table meets depends on memory and the manifest alone. -/
theorem walkFrom_congr {s s' : State} (hm : s'.mem = s.mem) (hl : s'.l2 = s.l2) (hf : s'.manifest = s.manifest) (va : Nat) (lvl node : Nat) (att : Bool) :
    walkFrom s' va lvl node att = walkFrom s va lvl node att := by
  have hr : ∀ n i, readEntry s' n i = readEntry s n i := by
    intro n i
    unfold readEntry homeBytes
    simp only [homeByte_congr hm hl]
  induction lvl generalizing node att with
  | zero => simp only [walkFrom_zero, hr]
  | succ l ih => simp only [walkFrom_succ, hr, ih, hf]

theorem translate_congr {s s' : State} (hm : s'.mem = s.mem) (hl : s'.l2 = s.l2) (hf : s'.manifest = s.manifest)
    (root : RootDesc) (va : DWord) (k : AccKind) (d : Option (List Nat)) :
    translate s' root va k d = translate s root va k d := by
  unfold translate
  simp only [walkFrom_congr hm hl hf, hf]

/-- A header that the team may fetch is fetched, and the transfer goes on (R24, R414). -/
theorem toHeader_headerAt {s : State} {t : Team} {a : Word} (h : headerAt s t a) (k : State → Out) :
    ∃ s1, OnlyCaches s s1 ∧ toHeader s t a k = k s1 := by
  obtain ⟨x, hx, hp, hh, hw, hc⟩ := h
  have hn := onlyCaches_noteWalks s t [t.desc.code + a.setWidth 64]
  have hman : (noteWalks s t [t.desc.code + a.setWidth 64]).manifest = s.manifest := by rw [hn.rest]
  have hb : ∀ n k, homeBytes (noteWalks s t [t.desc.code + a.setWidth 64]) n k = homeBytes s n k := by
    intro n k; unfold homeBytes; simp only [homeByte_congr hn.mem hn.l2]
  have hx' : fetchPa (noteWalks s t [t.desc.code + a.setWidth 64]) t a = .ok x := by
    unfold fetchPa at hx ⊢; rw [translate_congr hn.mem hn.l2 hman]; exact hx
  have hh' : lineHop (noteWalks s t [t.desc.code + a.setWidth 64]) (x.pa / 64) = 0 := by
    rw [hn.rest]; exact hh
  have hi : icLine (noteWalks s t [t.desc.code + a.setWidth 64]) t.core (x.pa / 64) = icLine s t.core (x.pa / 64) := by
    unfold noteWalks
    simp only [List.foldl_cons, List.foldl_nil]
    unfold icLine noteWalk
    split <;> rfl
  unfold toHeader fetchWord
  simp only [hx', hp, hb, hh', hi]
  cases hic : icLine s t.core (x.pa / 64) with
  | none =>
    simp only [ne_eq, not_true_eq_false, if_false, hw, if_true, Bool.false_eq_true]
    exact ⟨_, hn.trans (onlyCaches_icFill _ _ _), rfl⟩
  | some c =>
    simp only [hc c hic, and_self, if_true, hw, Bool.false_eq_true, if_false]
    exact ⟨_, hn, rfl⟩

/-- Replacing the issuing team is all that happens. -/
theorem setTeam_becomes {s : State} {t t' : Team} (h : findTeam s t.uid = some t) (hu : t'.uid = t.uid) :
    Becomes s (setTeam s t') t t' := by
  refine ⟨⟨rfl, fun _ => rfl, fun v hv => ?_, fun _ => rfl, fun _ => rfl⟩, ?_⟩
  · exact findTeam_setTeam_ne _ _ _ (by rw [hu]; exact hv)
  · rw [← hu]
    apply findTeam_setTeam_same (x := t)
    rw [hu]; exact h

/-- Cache fills before a word's effect belong to it. -/
theorem OnlyCaches.becomes {s s1 s' : State} {t t' : Team} (h : OnlyCaches s s1) (b : Becomes s1 s' t t') :
    Becomes s s' t t' := by
  obtain ⟨o, f⟩ := b
  refine ⟨⟨?_, fun a => ?_, fun v hv => ?_, fun c => ?_, fun d => ?_⟩, f⟩
  · rw [o.rest, h.rest]
  · rw [o.bytes, homeByte_congr h.mem h.l2]
  · rw [o.others v hv, h.findTeam]
  · rw [o.cores, h.cores]
  · rw [o.dies, h.dies]

/-- Cache fills, then the team replaced. -/
theorem OnlyCaches.setTeam_becomes {s s1 : State} {t t' : Team} (h : OnlyCaches s s1) (hf : Sys2Proof.Machine.findTeam s t.uid = some t)
    (hu : t'.uid = t.uid) : Becomes s (setTeam s1 t') t t' :=
  h.becomes (Sys2Proof.Machine.setTeam_becomes (by rw [h.findTeam]; exact hf) hu)

/-- A header that the team may fetch stays one while nothing but caches change. -/
theorem headerAt_caches {s s1 : State} {t : Team} {a : Word} (hc : OnlyCaches s s1) (hi : s1.icache = s.icache)
    (h : headerAt s t a) : headerAt s1 t a := by
  obtain ⟨x, hx, hp, hh, hw, hcc⟩ := h
  have hman : s1.manifest = s.manifest := by rw [hc.rest]
  have hb : ∀ n k, homeBytes s1 n k = homeBytes s n k := by
    intro n k; unfold homeBytes; simp only [homeByte_congr hc.mem hc.l2]
  refine ⟨x, ?_, hp, ?_, ?_, ?_⟩
  · unfold fetchPa at hx ⊢; rw [translate_congr hc.mem hc.l2 hman]; exact hx
  · rw [hc.rest]; exact hh
  · rw [hb]; exact hw
  · intro c h
    rw [hb]; apply hcc
    unfold icLine at h ⊢; rw [hi] at h; exact h

theorem bump_icache' (s : State) (t : Team) : (bump s t).icache = s.icache := by unfold bump; split <;> rfl

/-- A slot that is not poisoned gives no poison (R97). -/
theorem readsPoison_of_clean {s : State} {t : Team} {l n : Nat} (h : slotPoisoned t l n = false) :
    readsPoison s t l n = false := by
  unfold readsPoison
  rw [h]
  rfl

/-- Lanes that read no poison are not lost (R97). -/
theorem consume_good {s : State} {t : Team} {lanes srcs : List Nat} {k : Out}
    (h : ∀ l ∈ lanes, ∀ n ∈ srcs, readsPoison s t l n = false) : consume s t lanes srcs k = k := by
  unfold consume
  have : lanes.filter (fun l => srcs.any (readsPoison s t l)) = [] := by
    rw [List.filter_eq_nil_iff]
    intro l hl
    rw [Bool.not_eq_true, List.any_eq_false]
    intro n hn; rw [h l hl n hn]; simp
  rw [this]

/-! ### Masks -/

theorem mem_lanesOf {m : Mask} {l : Nat} : l ∈ lanesOf m ↔ m.getLsbD l = true := by
  unfold lanesOf
  rw [List.mem_filter, List.mem_range]
  constructor
  · exact And.right
  · intro h
    refine ⟨?_, h⟩
    apply Decidable.byContradiction
    intro hl
    rw [BitVec.getLsbD_of_ge _ _ (by omega)] at h
    exact absurd h (by decide)

theorem getLsbD_two_pow (l k : Nat) : (BitVec.ofNat 1024 (2 ^ l)).getLsbD k = (decide (k < 1024) && decide (l = k)) := by
  rw [BitVec.getLsbD_ofNat, Nat.testBit_two_pow]

theorem getLsbD_foldl_mask (ls : List Nat) (m : Mask) (k : Nat) :
    (ls.foldl (fun acc l => acc ||| BitVec.ofNat 1024 (2 ^ l)) m).getLsbD k = (m.getLsbD k || decide (k < 1024 ∧ k ∈ ls)) := by
  induction ls generalizing m with
  | nil => simp
  | cons x xs ih =>
    rw [List.foldl_cons, ih, BitVec.getLsbD_or, getLsbD_two_pow]
    by_cases hk : k < 1024
    · by_cases hx : x = k
      · subst hx; simp [hk]
      · have hx' : ¬ k = x := fun e => hx e.symm
        simp [hk, hx, hx']
    · simp [hk]

/-- A lane is in the mask of a list of lanes when it is in the list. -/
theorem getLsbD_maskOf (ls : List Nat) (k : Nat) : (maskOf ls).getLsbD k = decide (k < 1024 ∧ k ∈ ls) := by
  unfold maskOf
  rw [getLsbD_foldl_mask]
  simp

/-- The lowest lane of a mask that is not empty is in it. -/
theorem lowLane_mem {m : Mask} (h : m ≠ 0) : lowLane m ∈ lanesOf m := by
  unfold lowLane
  cases hl : lanesOf m with
  | nil =>
    exfalso
    apply h
    apply BitVec.eq_of_getLsbD_eq
    intro i hi
    have : i ∉ lanesOf m := by rw [hl]; simp
    rw [mem_lanesOf] at this
    simpa using this
  | cons x xs => simp

/-- A slot that holds one known value in every active lane (R285, R286). -/
theorem uniform_known {s : State} {t : Team} {n : Nat} {v : Word} (ha : t.active ≠ 0)
    (hg : ∀ l ∈ lanesOf t.active, readsPending s t l [n] = false) (hv : ∀ l ∈ lanesOf t.active, slot t l n = v) :
    uniform s t n (lanesOf t.active) = some v := by
  unfold uniform
  have hr : ∀ l ∈ lanesOf t.active, readSlot s t l n = v := by
    intro l hl
    rw [readSlot_known (srcs := [n]) (hg l hl) (by simp)]
    exact hv l hl
  have : readSlot s t ((lanesOf t.active).headD 0) n = v := hr _ (lowLane_mem ha)
  rw [this]
  simp only
  rw [if_pos]
  rw [List.all_eq_true]
  intro l hl
  rw [hr l hl]; simp

/-- A jump to the header that every active lane names (R285, R286). -/
theorem jumpTo_header {s : State} {t : Team} {n why : Nat} {v : Word} (k : State → Word → Out) (ha : t.active ≠ 0)
    (hp : ∀ l ∈ lanesOf t.active, slotPoisoned t l n = false)
    (hg : ∀ l ∈ lanesOf t.active, readsPending s t l [n] = false) (hv : ∀ l ∈ lanesOf t.active, slot t l n = v)
    (h4 : v.toNat % 4 = 0) (hh : headerAt s t v) : ∃ s1, OnlyCaches s s1 ∧ jumpTo s t n why k = k s1 v := by
  unfold jumpTo
  rw [consume_good]
  · have hs : (lanesOf t.active).filter (fun l => !readsPending s t l [n]) = lanesOf t.active :=
      List.filter_eq_self.2 (fun l hl => by rw [hg l hl]; rfl)
    have he : (lanesOf t.active).isEmpty = false := by
      cases hn : lanesOf t.active with
      | nil => have := lowLane_mem ha; rw [hn] at this; cases this
      | cons _ _ => rfl
    simp only [hs, he, uniform_known ha hg hv, Bool.false_eq_true, if_false]
    rw [if_neg (by omega)]
    have hb := onlyCaches_bump s t
    obtain ⟨s1, hc, he⟩ := toHeader_headerAt (headerAt_caches hb (bump_icache' _ _) hh) (fun s => k s v)
    rw [he]
    exact ⟨s1, hb.trans hc, rfl⟩
  · intro l hl m hm
    simp at hm; subst hm
    exact readsPoison_of_clean (hp l hl)

/-! ### The resume step -/

/-- The resume step stops at this entry (R277). -/
def stopsAt (e : StackEntry) : Prop := (e.kind ≠ .call ∧ e.pmask ≠ 0) ∨ (e.kind = .recon ∧ e.rmask ≠ 0)

theorem resumeStack_skip (pre : List StackEntry) (st : List StackEntry) (h : ∀ x ∈ pre, ¬ stopsAt x) :
    resumeStack (pre ++ st) = resumeStack st := by
  induction pre with
  | nil => rfl
  | cons x xs ih =>
    have hx := h x (by simp)
    unfold stopsAt at hx
    rw [List.cons_append, resumeStack]
    have h1 : ¬ (x.kind ≠ .call ∧ x.pmask ≠ 0) := fun e => hx (.inl e)
    have h2 : ¬ (x.kind = .recon ∧ x.rmask ≠ 0) := fun e => hx (.inr e)
    rw [if_neg h1, if_neg h2]
    exact ih (fun y hy => h y (by simp [hy]))

/-- What the resume step finds (R277): the first entry with lanes to run, or none. -/
theorem resumeStack_cases (st : List StackEntry) :
    (∃ pre e rest, st = pre ++ e :: rest ∧ (∀ x ∈ pre, ¬ stopsAt x) ∧
      ((e.kind ≠ .call ∧ e.pmask ≠ 0 ∧ resumeStack st = ({ e with pmask := 0 } :: rest, some (e.pmask, e.ppc))) ∨
       (e.kind = .recon ∧ e.pmask = 0 ∧ e.rmask ≠ 0 ∧ resumeStack st = (rest, some (e.rmask, e.rpc))))) ∨
    ((∀ x ∈ st, ¬ stopsAt x) ∧ resumeStack st = ([], none)) := by
  induction st with
  | nil => exact .inr ⟨by simp, rfl⟩
  | cons x xs ih =>
    by_cases h1 : x.kind ≠ .call ∧ x.pmask ≠ 0
    · refine .inl ⟨[], x, xs, rfl, by simp, .inl ⟨h1.1, h1.2, ?_⟩⟩
      rw [resumeStack, if_pos h1]
    · by_cases h2 : x.kind = .recon ∧ x.rmask ≠ 0
      · refine .inl ⟨[], x, xs, rfl, by simp, .inr ⟨h2.1, ?_, h2.2, ?_⟩⟩
        · apply Decidable.byContradiction
          intro hp
          exact h1 ⟨by rw [h2.1]; decide, hp⟩
        · rw [resumeStack, if_neg h1, if_pos h2]
      · have hx : ¬ stopsAt x := by
          rintro (h | h)
          · exact h1 h
          · exact h2 h
        have hr : resumeStack (x :: xs) = resumeStack xs := by rw [resumeStack, if_neg h1, if_neg h2]
        rw [hr]
        rcases ih with ⟨pre, e, rest, hst, hpre, hc⟩ | ⟨hall, hn⟩
        · refine .inl ⟨x :: pre, e, rest, by rw [hst]; rfl, ?_, hc⟩
          intro y hy
          rcases List.mem_cons.mp hy with rfl | hy
          · exact hx
          · exact hpre y hy
        · refine .inr ⟨?_, hn⟩
          intro y hy
          rcases List.mem_cons.mp hy with rfl | hy
          · exact hx
          · exact hall y hy

/-- The resume step on a team (R277). -/
theorem resumeStep_cases (t : Team) :
    (∃ pre e rest, t.stack = pre ++ e :: rest ∧ (∀ x ∈ pre, ¬ stopsAt x) ∧
      ((e.kind ≠ .call ∧ e.pmask ≠ 0 ∧
          resumeStep t = goto { t with stack := { e with pmask := 0 } :: rest, active := e.pmask } e.ppc) ∨
       (e.kind = .recon ∧ e.pmask = 0 ∧ e.rmask ≠ 0 ∧ resumeStep t = goto { t with stack := rest, active := e.rmask } e.rpc))) ∨
    ((∀ x ∈ t.stack, ¬ stopsAt x) ∧ resumeStep t = { goto t t.pc with stack := [], active := 0 }) := by
  rcases resumeStack_cases t.stack with ⟨pre, e, rest, hst, hpre, ⟨h1, h2, h3⟩ | ⟨h1, h2, h3, h4⟩⟩ | ⟨hall, hn⟩
  · refine .inl ⟨pre, e, rest, hst, hpre, .inl ⟨h1, h2, ?_⟩⟩
    unfold resumeStep; rw [h3]
  · refine .inl ⟨pre, e, rest, hst, hpre, .inr ⟨h1, h2, h3, ?_⟩⟩
    unfold resumeStep; rw [h4]
  · refine .inr ⟨hall, ?_⟩
    unfold resumeStep; rw [hn]

/-- The top entry is the team's own, in a handler too (R340). -/
theorem ownStack_top {t : Team} {e : StackEntry} {rest : List StackEntry} (hs : t.stack = e :: rest)
    (hb : ∀ h, t.handler = some h → h.base ≤ rest.length) : ∃ b, ownStack t = e :: b := by
  unfold ownStack
  cases hh : t.handler with
  | none => exact ⟨_, hs⟩
  | some hd =>
    simp only [hs]
    have := hb hd hh
    have hl : (e :: rest).length - hd.base = (rest.length - hd.base) + 1 := by simp; omega
    rw [hl]; exact ⟨_, rfl⟩

end Sys2Proof.Machine
end

