-- ==== Sys2Proof/Laws/Memory.lean ====
section
/-! SUPPORT. Memory behind the home L2: every operation that writes it keeps the canonical form, and a byte read after a write
is the byte written, or the one that was there (R86). -/

namespace Sys2Proof.Laws

open Sys2Proof Sys2Proof.Machine

/-! ### The canonical form -/

/-- The device arrays after reset are in canonical form. -/
theorem reset_mem_wf : Memory.wf State.reset.mem = true := rfl

theorem mem_serase {β : Type} {a : Nat} {x : Nat × β} {m : List (Nat × β)} (h : x ∈ serase a m) : x ∈ m := by
  induction m with
  | nil => simp [serase] at h
  | cons y rest ih =>
    obtain ⟨k, w⟩ := y
    unfold serase at h
    split at h
    · exact .tail _ (ih h)
    · cases h with
      | head => exact .head _
      | tail _ h => exact .tail _ (ih h)

theorem mem_sinsert {β : Type} {a : Nat} {v : β} {x : Nat × β} {m : List (Nat × β)} (h : x ∈ sinsert a v m) :
    x = (a, v) ∨ x ∈ m := by
  induction m with
  | nil => simpa [sinsert] using h
  | cons y rest ih =>
    obtain ⟨k, w⟩ := y
    unfold sinsert at h
    split at h
    · simpa using h
    · cases h with
      | head => exact .inr (.head _)
      | tail _ h => exact (ih h).imp id (.tail _)

/-- An entry after a write is the one written or an old one. -/
theorem mem_sput {β : Type} [DecidableEq β] {d : β} {m : List (Nat × β)} {a : Nat} {v : β} {x : Nat × β}
    (h : x ∈ sput d m a v) : (x = (a, v) ∧ v ≠ d) ∨ x ∈ m := by
  unfold sput at h
  split at h
  · exact .inr (mem_serase h)
  · exact (mem_sinsert h).imp (⟨·, ‹_›⟩) mem_serase

/-- The invariant depends on the device arrays and L2 only. -/
theorem Inv.congr {s s' : State} (h : s.Inv) (hm : s'.mem = s.mem) (hl : s'.l2 = s.l2) : s'.Inv := by
  unfold State.Inv at *; rw [hm, hl]; exact h

theorem length_spliceBytes (line : List Byte) (off : Nat) (bs : List Byte) (h : line.length = 64) (hb : off + bs.length ≤ 64) :
    (spliceBytes line off bs).length = 64 := by
  simp [spliceBytes]; omega

/-- A line as the home serves it. -/
def homeLine (s : State) (ln : Nat) : List Byte :=
  match sget [] s.l2 ln with
  | [] => (List.range 64).map (fun i => sget memDefault s.mem (64 * ln + i))
  | line => line

theorem sget_l2 {s : State} (h : s.Inv) (ln : Nat) : sget [] s.l2 ln = [] ∨ (sget [] s.l2 ln).length = 64 := by
  have key : ∀ m : List (Nat × List Byte), (∀ e ∈ m, e.2.length = 64) → sget [] m ln = [] ∨ (sget [] m ln).length = 64 := by
    intro m
    induction m with
    | nil => intro _; exact .inl rfl
    | cons y rest ih =>
      intro hm
      obtain ⟨k, w⟩ := y
      unfold sget
      split
      · exact .inr (hm _ (.head _))
      · exact ih (fun e he => hm e (.tail _ he))
  exact key s.l2 h.2.2

/-- A line as the home serves it has 64 bytes. -/
theorem homeLine_length {s : State} (h : s.Inv) (ln : Nat) : (homeLine s ln).length = 64 := by
  have := sget_l2 h ln
  unfold homeLine
  split
  · simp
  · next hne => exact this.resolve_left hne

theorem inv_l2 {s : State} (h : s.Inv) (ln : Nat) (v : List Byte) (hv : v = [] ∨ v.length = 64) :
    sok [] (sput [] s.l2 ln v) = true ∧ ∀ e ∈ sput [] s.l2 ln v, e.2.length = 64 := by
  refine ⟨sput_sok _ _ _ _ h.2.1, fun e he => ?_⟩
  obtain ⟨rfl, hne⟩ | he := mem_sput he
  · exact hv.resolve_left hne
  · exact h.2.2 e he

/-- The byte that the home serves, by its line. -/
theorem homeByte_homeLine (s : State) (a : Nat) : homeByte s a = (homeLine s (a / 64)).getD (a % 64) 0 := by
  unfold homeByte homeLine
  cases sget [] s.l2 (a / 64) with
  | nil =>
    simp only
    rw [List.getD_eq_getElem?_getD, List.getElem?_map, List.getElem?_range (by omega)]
    simp only [Option.map_some, Option.getD_some]
    congr 1; omega
  | cons x xs => rfl

/-- A line as the home serves it, byte by byte. -/
theorem homeLine_eq {s : State} (h : s.Inv) (ln : Nat) :
    homeLine s ln = (List.range 64).map (fun i => homeByte s (64 * ln + i)) := by
  apply List.ext_getElem
  · rw [homeLine_length h]; simp
  · intro i h1 h2
    rw [homeLine_length h] at h1
    rw [List.getElem_map, List.getElem_range, homeByte_homeLine]
    have e1 : (64 * ln + i) / 64 = ln := by omega
    have e2 : (64 * ln + i) % 64 = i := by omega
    rw [e1, e2, List.getD_eq_getElem?_getD, List.getElem?_eq_getElem (by rw [homeLine_length h]; exact h1)]
    rfl

/-! ### Write-back and room in L2 -/

/-- A write-back keeps the form. -/
theorem writeBack_inv {s : State} (h : s.Inv) (ln : Nat) : (writeBack s ln).Inv := by
  have hl := inv_l2 h ln [] (.inl rfl)
  unfold writeBack
  simp only
  split <;> exact ⟨sputs_sok _ _ _ h.1, hl⟩

theorem writeBack_mem (s : State) (ln : Nat) : (writeBack s ln).mem =
    sputs memDefault s.mem ((sget [] s.l2 ln).zipIdx.map (fun b => (64 * ln + b.2, b.1))) := by
  unfold writeBack
  simp only
  split <;> rfl

theorem writeBack_l2 (s : State) (ln : Nat) : (writeBack s ln).l2 = sput [] s.l2 ln [] := by
  unfold writeBack
  simp only
  split <;> rfl

/-- Bytes put one after another from an address on. -/
theorem sget_sputs_run (m : List Host.Cell) (pa k : Nat) (bs : List Byte) (a : Nat) :
    sget memDefault (sputs memDefault m ((bs.zipIdx k).map (fun b => (pa + b.2, b.1)))) a =
      if pa + k ≤ a ∧ a < pa + k + bs.length then bs.getD (a - pa - k) 0 else sget memDefault m a := by
  induction bs generalizing m k with
  | nil => simp <;> omega
  | cons b bs ih =>
    rw [List.zipIdx_cons, List.map_cons, sputs_cons, ih, sget_sput]
    simp only [List.length_cons]
    by_cases h1 : a = pa + k
    · subst h1
      rw [if_neg (by omega), if_pos rfl, if_pos (by omega)]
      have : pa + k - pa - k = 0 := by omega
      rw [this]; rfl
    · by_cases h2 : pa + (k + 1) ≤ a ∧ a < pa + (k + 1) + bs.length
      · rw [if_pos h2, if_pos (by omega)]
        have : a - pa - k = (a - pa - (k + 1)) + 1 := by omega
        rw [this, List.getD_cons_succ]
      · rw [if_neg h2, if_neg h1, if_neg (by omega)]

/-- A write-back changes no byte that the home serves (R86). -/
theorem homeByte_writeBack {s : State} (h : s.Inv) (ln a : Nat) : homeByte (writeBack s ln) a = homeByte s a := by
  unfold homeByte
  rw [writeBack_mem, writeBack_l2]
  have hz := sget_sputs_run s.mem (64 * ln) 0 (sget [] s.l2 ln) a
  rw [Nat.add_zero, Nat.sub_zero] at hz
  rw [hz]
  by_cases hk : a / 64 = ln
  · subst hk
    rw [sget_sput_same]
    rcases sget_l2 h (a / 64) with h0 | h64
    · rw [h0, if_neg (by simp only [List.length_nil]; omega)]
    · rw [if_pos (by omega)]
      cases hc : sget [] s.l2 (a / 64) with
      | nil => rw [hc] at h64; cases h64
      | cons x xs =>
        simp only
        congr 1; omega
  · rw [sget_sput_ne _ _ _ hk, if_neg]
    rcases sget_l2 h ln with h0 | h64
    · rw [h0]; simp only [List.length_nil]; omega
    · omega

/-- Making way for a poisoned line keeps the form and every byte. -/
theorem makeWay_inv {s : State} (h : s.Inv) (ln : Nat) : (makeWay s ln).Inv := by
  unfold makeWay
  exact writeBack_inv (by split <;> exact h) ln

theorem homeByte_makeWay {s : State} (h : s.Inv) (ln a : Nat) : homeByte (makeWay s ln) a = homeByte s a := by
  unfold makeWay
  rw [homeByte_writeBack (by split <;> exact h)]
  split <;> rfl

theorem makeWay_manifest (s : State) (ln : Nat) : (makeWay s ln).manifest = s.manifest := by
  unfold makeWay writeBack
  simp only
  split <;> split <;> rfl

/-- L2's making room for a line (R86): nothing, or one of its lines written back. -/
theorem l2Room_cases (s : State) (ln : Nat) :
    l2Room s ln = s ∨ ∃ v n, l2Room s ln = { makeWay s v with fresh := n } := by
  unfold l2Room
  simp only
  split
  · exact .inl rfl
  · split
    · exact .inr ⟨_, _, rfl⟩
    · exact .inl rfl

theorem l2Room_inv {s : State} (h : s.Inv) (ln : Nat) : (l2Room s ln).Inv := by
  rcases l2Room_cases s ln with e | ⟨v, n, e⟩ <;> rw [e]
  · exact h
  · exact makeWay_inv h v

theorem homeByte_l2Room {s : State} (h : s.Inv) (ln a : Nat) : homeByte (l2Room s ln) a = homeByte s a := by
  rcases l2Room_cases s ln with e | ⟨v, n, e⟩ <;> rw [e]
  exact homeByte_makeWay h v a

theorem homeLine_l2Room {s : State} (h : s.Inv) (ln k : Nat) : homeLine (l2Room s ln) k = homeLine s k := by
  rw [homeLine_eq (l2Room_inv h ln), homeLine_eq h]
  simp only [homeByte_l2Room h]

theorem l2Room_manifest (s : State) (ln : Nat) : (l2Room s ln).manifest = s.manifest := by
  rcases l2Room_cases s ln with e | ⟨v, n, e⟩ <;> rw [e]
  exact makeWay_manifest s v

/-! ### Writes -/

@[simp] theorem readCheck_mem (s : State) (ln : Nat) : (readCheck s ln).mem = s.mem := by unfold readCheck; split <;> rfl
@[simp] theorem readCheck_l2 (s : State) (ln : Nat) : (readCheck s ln).l2 = s.l2 := by unfold readCheck; split <;> rfl
@[simp] theorem readCheck_manifest (s : State) (ln : Nat) : (readCheck s ln).manifest = s.manifest := by
  unfold readCheck; split <;> rfl

theorem homeWriteLine_mem (s : State) (ln off : Nat) (bs : List Byte) : (homeWriteLine s ln off bs).mem = (l2Room s ln).mem := by
  show (ite (bs.length = 64) _ _ : State).mem = (l2Room s ln).mem
  rw [← readCheck_mem (l2Room s ln) ln]
  split <;> rfl

theorem homeWriteLine_l2 (s : State) (ln off : Nat) (bs : List Byte) :
    (homeWriteLine s ln off bs).l2 = sput [] (l2Room s ln).l2 ln (spliceBytes (homeLine (l2Room s ln) ln) off bs) := by
  show (ite (bs.length = 64) _ _ : State).l2 = _
  unfold homeLine
  rw [← readCheck_mem (l2Room s ln) ln, ← readCheck_l2 (l2Room s ln) ln]
  split <;> rfl

/-- A write inside one line keeps the form. -/
theorem homeWriteLine_inv {s : State} (h : s.Inv) (ln off : Nat) (bs : List Byte) (hb : off + bs.length ≤ 64) :
    (homeWriteLine s ln off bs).Inv := by
  have hr := l2Room_inv h ln
  have hs := inv_l2 hr ln (spliceBytes _ off bs) (.inr (length_spliceBytes _ off bs (homeLine_length hr ln) hb))
  rw [← homeWriteLine_l2] at hs
  exact ⟨(homeWriteLine_mem s ln off bs).symm ▸ hr.1, hs⟩

/-- The pieces of a run of bytes lie inside lines. -/
theorem linePieces_fit (k pa : Nat) (bs : List Byte) : ∀ p ∈ linePieces k pa bs, p.2.1 + p.2.2.length ≤ 64 := by
  induction k generalizing pa bs with
  | zero => intro p hp; simp [linePieces] at hp
  | succ k ih =>
    cases bs with
    | nil => intro p hp; simp [linePieces] at hp
    | cons b bs =>
      intro p hp
      simp only [linePieces, List.mem_cons] at hp
      obtain rfl | hp := hp
      · simp only [List.length_take]; omega
      · exact ih _ _ p hp

theorem writeLines_inv (ps : List (Nat × Nat × List Byte)) {s : State} (h : s.Inv) (hp : ∀ p ∈ ps, p.2.1 + p.2.2.length ≤ 64) :
    (ps.foldl (fun s p => homeWriteLine s p.1 p.2.1 p.2.2) s).Inv := by
  induction ps generalizing s with
  | nil => exact h
  | cons p ps ih => exact ih (homeWriteLine_inv h _ _ _ (hp p (.head _))) (fun q hq => hp q (.tail _ hq))

/-- A run of bytes written at the home keeps the form. -/
theorem homePut_inv {s : State} (h : s.Inv) (pa : Nat) (bs : List Byte) : (homePut s pa bs).Inv :=
  writeLines_inv _ h (linePieces_fit _ _ _)

theorem noteWrite_mem (s : State) (sp : Option Nat) (a n : Nat) (b : Bool) (c) : (noteWrite s sp a n b c).mem = s.mem := by
  unfold noteWrite; split <;> rfl
theorem noteWrite_l2 (s : State) (sp : Option Nat) (a n : Nat) (b : Bool) (c) : (noteWrite s sp a n b c).l2 = s.l2 := by
  unfold noteWrite; split <;> rfl

/-- A write performed at the home keeps the form. -/
theorem homeWrite_inv {s : State} (h : s.Inv) (pa : Nat) (bs : List Byte) (c) : (homeWrite s pa bs c).Inv :=
  homePut_inv (Inv.congr h (noteWrite_mem ..) (noteWrite_l2 ..)) pa bs

/-- Poison on a line keeps the form. -/
theorem poisonLine_inv {s : State} (h : s.Inv) (pa hop : Nat) : (poisonLine s pa hop).Inv := h

/-- A range zeroed keeps the form. -/
theorem zeroRange_inv {s : State} (h : s.Inv) (pa n : Nat) : (zeroRange s pa n).Inv := by
  have hl : (zeroRange s pa n).l2 = sdrop s.l2 (fun k => decide (pa ≤ 64 * k ∧ 64 * k < pa + n)) := rfl
  have hm : (zeroRange s pa n).mem = sdrop s.mem (fun k => decide (pa ≤ k ∧ k < pa + n)) := rfl
  refine ⟨hm ▸ sdrop_sok _ _ _ h.1, hl ▸ sdrop_sok _ _ _ h.2.1, fun e he => ?_⟩
  rw [hl] at he
  exact h.2.2 e (List.mem_filter.1 he).1

/-- Bytes put into the arrays keep the form. -/
theorem memPut_inv {s : State} (h : s.Inv) (pa : Nat) (bs : List Byte) : (memPut s pa bs).Inv :=
  ⟨sputs_sok _ _ _ h.1, h.2⟩

/-- A program placed in the arrays keeps their form. -/
theorem placeBytes_wf (m : List Host.Cell) (h : Memory.wf m = true) (pa : Nat) (bs : List Byte) :
    Memory.wf (placeBytes m pa bs) = true := sputs_sok _ _ _ h

/-- A fold of state changes that each keep the form keeps it. -/
theorem foldl_inv {α : Type} (f : State → α → State) (hf : ∀ s x, s.Inv → (f s x).Inv) (xs : List α) {s : State} (h : s.Inv) :
    (xs.foldl f s).Inv := by
  induction xs generalizing s with
  | nil => exact h
  | cons x xs ih => exact ih (hf s x h)

/-- A fold of writes into the arrays that each keep their form keeps it. -/
theorem foldl_wf {α : Type} (f : List Host.Cell → α → List Host.Cell)
    (hf : ∀ m x, Memory.wf m = true → Memory.wf (f m x) = true) (xs : List α) {m : List Host.Cell} (h : Memory.wf m = true) :
    Memory.wf (xs.foldl f m) = true := by
  induction xs generalizing m with
  | nil => exact h
  | cons x xs ih => exact ih (hf m x h)

/-- A range copied keeps the form (R115). -/
theorem copyRange_inv {s : State} (h : s.Inv) (src dst n : Nat) : (copyRange s src dst n).Inv := by
  refine foldl_inv _ (fun s x h => ?_) _ (zeroRange_inv h dst n)
  have hp := homePut_inv h (dst + (64 * x - src)) (homeBytes s (64 * x) 64)
  dsimp only
  split
  · exact poisonLine_inv hp _ _
  · exact hp

/-- Bytes performed in a team's scratch keep the form: no line of memory changes. -/
theorem scrStore_inv {s : State} (h : s.Inv) (core into off : Nat) (bs : List Byte) (c) : (scrStore s core into off bs c).Inv := by
  have h' := Inv.congr h (noteWrite_mem s (some into) off bs.length false c) (noteWrite_l2 s (some into) off bs.length false c)
  unfold scrStore scrPut
  generalize noteWrite s (some into) off bs.length false c = s' at h' ⊢
  split
  · exact Inv.congr h' rfl rfl
  · exact h'

/-- Noting which bytes of a poisoned line are covered changes no byte. -/
theorem noteCover_mem (s : State) (g pa n : Nat) : (noteCover s g pa n).mem = s.mem := by
  unfold noteCover
  simp only
  repeat' split
  all_goals rfl
theorem noteCover_l2 (s : State) (g pa n : Nat) : (noteCover s g pa n).l2 = s.l2 := by
  unfold noteCover
  simp only
  repeat' split
  all_goals rfl
theorem noteCover_manifest (s : State) (g pa n : Nat) : (noteCover s g pa n).manifest = s.manifest := by
  unfold noteCover
  simp only
  repeat' split
  all_goals rfl

/-- Marking a line first to evict changes no byte (R267). -/
theorem markFirst_inv {s : State} (h : s.Inv) (nt : Bool) (pa : Nat) : (markFirst s nt pa).Inv := by
  unfold markFirst; split <;> exact h

/-- An entry of the store path performed keeps the form (R262, R267, R144). -/
theorem performEnt_inv {s : State} (h : s.Inv) (e : StoreEnt) : (performEnt s e).Inv := by
  have h' : State.Inv { s with stores := s.stores.filter (fun f => f.seq != e.seq) } := h
  unfold performEnt
  dsimp only
  split
  · exact Inv.congr (markFirst_inv (homeWrite_inv h' _ _ _) _ _) (noteCover_mem ..) (noteCover_l2 ..)
  · exact Inv.congr (markFirst_inv (homeWrite_inv h' _ _ _) _ _) (noteCover_mem ..) (noteCover_l2 ..)
  · exact Inv.congr (markFirst_inv (homeWrite_inv h' _ _ _) _ _) (noteCover_mem ..) (noteCover_l2 ..)
  · split
    · exact h'
    · exact Inv.congr (homeWrite_inv h' _ _ _) rfl rfl
  · exact scrStore_inv h' _ _ _ _ _
  · exact h'
  · exact h'
  · exact h'

/-- Entries of the store path performed keep the form. -/
theorem performAll_inv {s : State} (h : s.Inv) (es : List StoreEnt) : (performAll s es).Inv :=
  foldl_inv _ (fun _ _ h => performEnt_inv h _) es h

/-- Every line written back keeps the form (R86). -/
theorem writeBackAll_inv {s : State} (h : s.Inv) : (writeBackAll s).Inv :=
  foldl_inv _ (fun s ln h => writeBack_inv (by split <;> exact h) ln) _ h

/-- A reset keeps the form (R92, R375). -/
theorem resetModule_inv {s : State} (h : s.Inv) : (resetModule s).Inv :=
  ⟨foldl_wf _ (fun m x hm => by
    dsimp only
    split
    · exact sputs_sok _ _ _ hm
    · exact hm) _ (filter_sok _ _ _ h.1), rfl,
    fun _ he => nomatch he⟩

/-- A range moved inside the arrays keeps their form (R92). -/
theorem movedArrays_wf (into : Nat → Option Nat) (xs m : List Host.Cell) (h : Memory.wf m = true) :
    Memory.wf (xs.foldl (fun m (c : Host.Cell) =>
      match into c.1 with
      | some pa => sput memDefault m pa c.2
      | none => m) m) = true :=
  foldl_wf _ (fun m x hm => by
    split
    · exact sput_sok _ _ _ _ hm
    · exact hm) _ h

/-! ### Reading after writing -/

theorem getD_spliceBytes (line bs : List Byte) (off i : Nat) (h : line.length = 64) (hb : off + bs.length ≤ 64) :
    (spliceBytes line off bs).getD i 0 =
      if off ≤ i ∧ i < off + bs.length then bs.getD (i - off) 0 else line.getD i 0 := by
  have ht : (line.take off).length = off := by simp; omega
  simp only [spliceBytes, List.append_assoc, List.getD_eq_getElem?_getD]
  by_cases h1 : i < off
  · rw [List.getElem?_append_left (by omega), List.getElem?_take, if_pos h1, if_neg (by omega)]
  · rw [List.getElem?_append_right (by omega), ht]
    by_cases h2 : i < off + bs.length
    · rw [List.getElem?_append_left (by omega), if_pos ⟨by omega, h2⟩]
    · rw [List.getElem?_append_right (by omega), List.getElem?_drop, if_neg (by omega)]
      congr 2; omega

theorem homeLine_homeWriteLine {s : State} (h : s.Inv) (ln off : Nat) (bs : List Byte) (hb : off + bs.length ≤ 64) (k : Nat) :
    homeLine (homeWriteLine s ln off bs) k = if k = ln then spliceBytes (homeLine s ln) off bs else homeLine s k := by
  have hl := length_spliceBytes _ off bs (homeLine_length h ln) hb
  rw [homeLine, homeWriteLine_l2, homeWriteLine_mem, homeLine_l2Room h]
  by_cases hk : k = ln
  · subst hk
    rw [sget_sput_same, if_pos rfl]
    cases hs : spliceBytes (homeLine s k) off bs with
    | nil => rw [hs] at hl; simp at hl
    | cons x xs => rfl
  · rw [sget_sput_ne _ _ _ hk, if_neg hk]; exact homeLine_l2Room h ln k

/-- A byte after a write inside one line (R86). -/
theorem homeByte_homeWriteLine {s : State} (h : s.Inv) (ln off : Nat) (bs : List Byte) (hb : off + bs.length ≤ 64) (a : Nat) :
    homeByte (homeWriteLine s ln off bs) a =
      if a / 64 = ln ∧ off ≤ a % 64 ∧ a % 64 < off + bs.length then bs.getD (a % 64 - off) 0 else homeByte s a := by
  rw [homeByte_homeLine, homeLine_homeWriteLine h ln off bs hb]
  split
  · next hln =>
    subst hln
    rw [getD_spliceBytes _ _ _ _ (homeLine_length h _) hb, homeByte_homeLine]
    simp only [true_and]
  · next hln => rw [if_neg (fun hx => hln hx.1), homeByte_homeLine]

theorem homeByte_writeLines (k : Nat) : ∀ (s : State) (pa : Nat) (bs : List Byte) (a : Nat), s.Inv → bs.length ≤ k →
    homeByte ((linePieces (k + 1) pa bs).foldl (fun s p => homeWriteLine s p.1 p.2.1 p.2.2) s) a =
      if pa ≤ a ∧ a < pa + bs.length then bs.getD (a - pa) 0 else homeByte s a := by
  induction k with
  | zero =>
    intro s pa bs a _ hk
    obtain rfl := List.length_eq_zero_iff.1 (Nat.le_zero.1 hk)
    rw [if_neg (by simp only [List.length_nil]; omega)]; rfl
  | succ k ih =>
    intro s pa bs a h hk
    cases hbs : bs with
    | nil => rw [if_neg (by simp only [List.length_nil]; omega)]; rfl
    | cons b rest =>
      rw [← hbs]
      have hl : 0 < bs.length := by simp [hbs]
      have e : linePieces (k + 2) pa bs =
          (pa / 64, pa % 64, bs.take (64 - pa % 64)) :: linePieces (k + 1) (pa + (64 - pa % 64)) (bs.drop (64 - pa % 64)) := by
        rw [hbs]; rfl
      rw [e, List.foldl_cons, ih _ _ _ _ (homeWriteLine_inv h _ _ _ (by simp; omega)) (by simp; omega),
        homeByte_homeWriteLine h _ _ _ (by simp; omega)]
      simp only [List.length_take, List.length_drop]
      by_cases h1 : pa + (64 - pa % 64) ≤ a ∧ a < pa + (64 - pa % 64) + (bs.length - (64 - pa % 64))
      · rw [if_pos h1, if_pos (by omega)]
        simp only [List.getD_eq_getElem?_getD, List.getElem?_drop]
        congr 2; omega
      · rw [if_neg h1]
        by_cases h2 : pa ≤ a ∧ a < pa + bs.length
        · rw [if_pos h2, if_pos (by omega)]
          simp only [List.getD_eq_getElem?_getD, List.getElem?_take]
          rw [if_pos (by omega)]
          congr 2; omega
        · rw [if_neg h2, if_neg (by omega)]

/-- A byte after a run of bytes put at the home (R86). -/
theorem homeByte_homePut {s : State} (h : s.Inv) (pa : Nat) (bs : List Byte) (a : Nat) :
    homeByte (homePut s pa bs) a = if pa ≤ a ∧ a < pa + bs.length then bs.getD (a - pa) 0 else homeByte s a :=
  homeByte_writeLines _ s pa bs a h (Nat.le_refl _)

/-- A byte after a write performed at the home (R86). -/
theorem homeByte_homeWrite {s : State} (h : s.Inv) (pa : Nat) (bs : List Byte) (a : Nat) (c) :
    homeByte (homeWrite s pa bs c) a = if pa ≤ a ∧ a < pa + bs.length then bs.getD (a - pa) 0 else homeByte s a := by
  unfold homeWrite
  rw [homeByte_homePut (Inv.congr h (noteWrite_mem ..) (noteWrite_l2 ..))]
  unfold homeByte
  rw [noteWrite_mem, noteWrite_l2]

/-! ### A translation depends on the entries of its path only (R104) -/

/-- The entries that a walk reads: node and index, top first. -/
def pathEntries (s : State) (va : Nat) : Nat → Nat → List (Nat × Nat)
  | lvl, node =>
    let e := readEntry s node (va / 2 ^ levelShift lvl % 256)
    (node, va / 2 ^ levelShift lvl % 256) ::
      (match lvl with
       | 0 => []
       | l + 1 => pathEntries s va l e.frame)

theorem walkFrom_path {s s' : State} (hm : s'.manifest = s.manifest) (va : Nat) : ∀ (lvl node : Nat) (att : Bool),
    (∀ p ∈ pathEntries s va lvl node, readEntry s' p.1 p.2 = readEntry s p.1 p.2) →
    walkFrom s' va lvl node att = walkFrom s va lvl node att
  | 0, node, att, h => by
    rw [walkFrom_zero, walkFrom_zero, h (node, _) (.head _)]
  | l + 1, node, att, h => by
    rw [walkFrom_succ, walkFrom_succ, h (node, va / 2 ^ levelShift (l + 1) % 256) (.head _)]
    dsimp only
    rw [walkFrom_path hm va l _ _ (fun p hp => h p (.tail _ hp)), hm]

/-- A translation whose path entries read alike is the same. -/
theorem translate_path {s s' : State} (root : RootDesc) (va : DWord) (k : AccKind) (d : Option (List Nat))
    (hm : s'.manifest = s.manifest)
    (h : ∀ p ∈ pathEntries s va.toNat root.lvl root.node, readEntry s' p.1 p.2 = readEntry s p.1 p.2) :
    translate s' root va k d = translate s root va k d := by
  unfold Sys2Proof.Machine.translate
  dsimp only
  rw [walkFrom_path hm va.toNat root.lvl root.node false h, hm]

theorem homeWriteLine_manifest (s : State) (ln off : Nat) (bs : List Byte) : (homeWriteLine s ln off bs).manifest = s.manifest := by
  rw [← l2Room_manifest s ln, ← readCheck_manifest (l2Room s ln) ln]
  show (ite (bs.length = 64) _ _ : State).manifest = _
  split <;> rfl

theorem homePut_manifest (s : State) (pa : Nat) (bs : List Byte) : (homePut s pa bs).manifest = s.manifest := by
  unfold homePut
  generalize linePieces (bs.length + 1) pa bs = ps
  induction ps generalizing s with
  | nil => rfl
  | cons p ps ih => rw [List.foldl_cons, ih, homeWriteLine_manifest]

theorem homeWrite_manifest (s : State) (pa : Nat) (bs : List Byte) (c) : (homeWrite s pa bs c).manifest = s.manifest := by
  unfold homeWrite
  rw [homePut_manifest]
  unfold noteWrite
  split <;> rfl

/-- Bytes written apart from an entry leave it as it reads. -/
theorem readEntry_homeWrite {s : State} (h : s.Inv) (pa : Nat) (bs : List Byte) (node ix : Nat)
    (hd : node + 16 * ix + 16 ≤ pa ∨ pa + bs.length ≤ node + 16 * ix) :
    readEntry (homeWrite s pa bs) node ix = readEntry s node ix := by
  unfold readEntry homeBytes
  congr 2
  refine List.map_congr_left fun i hi => ?_
  rw [homeByte_homeWrite h, if_neg]
  have := List.mem_range.1 hi
  omega

/-- Bytes written apart from a translation's entries leave it as it is. -/
theorem translate_homeWrite {s : State} (h : s.Inv) (pa : Nat) (bs : List Byte) (root : RootDesc) (va : DWord) (k : AccKind)
    (d : Option (List Nat))
    (hd : ∀ p ∈ pathEntries s va.toNat root.lvl root.node, p.1 + 16 * p.2 + 16 ≤ pa ∨ pa + bs.length ≤ p.1 + 16 * p.2) :
    translate (homeWrite s pa bs) root va k d = translate s root va k d :=
  translate_path root va k d (homeWrite_manifest s pa bs none) (fun p hp => readEntry_homeWrite h pa bs p.1 p.2 (hd p hp))

theorem foldr_ext {α β : Type} (f g : α → β → β) (xs : List α) (b : β) (h : ∀ i ∈ xs, ∀ acc, f i acc = g i acc) :
    xs.foldr f b = xs.foldr g b := by
  induction xs with
  | nil => rfl
  | cons x xs ih => rw [List.foldr_cons, List.foldr_cons, ih (fun i hi => h i (.tail _ hi)), h x (.head _)]

/-- Bytes written apart from the entries of a trap frame's pages leave its pieces where they are (R339). -/
theorem framePas_homeWrite {s : State} (h : s.Inv) (pa : Nat) (bs : List Byte) (t : Team) (va : Nat)
    (hd : ∀ i < frameSize t / 1024, ∀ p ∈ pathEntries s (BitVec.ofNat 64 (va + 1024 * i)).toNat t.root.lvl t.root.node,
      p.1 + 16 * p.2 + 16 ≤ pa ∨ pa + bs.length ≤ p.1 + 16 * p.2) :
    framePas (homeWrite s pa bs) t va = framePas s t va := by
  unfold framePas
  refine foldr_ext _ _ _ _ (fun i hi acc => ?_)
  have hp := hd i (List.mem_range.1 hi)
  rw [translate_homeWrite h pa bs _ _ _ _ hp, translate_homeWrite h pa bs _ _ _ _ hp]

end Sys2Proof.Laws
end

