-- ==== Sys2Proof/Tests/Slice0.lean ====
section
/-! SUPPORT. Tests: words of the spec's encodings, ill-formed words, small steps with results worked out from the spec by hand,
and for each statement states and operands that meet its hypotheses. -/

namespace Sys2Proof.Tests

set_option Elab.async false

open Sys2Proof Sys2Proof.Machine Sys2Proof.Claims

/-! ### A small machine

One context with one running grid of one team on core (0, 0). Its tree maps the VA range 0 to 0xFFFF to PA 0x3_0000_0000, for
reads, writes and fetches. The fault record queue lies at VA 0, the trap frame at 0x4000, data at 0x6000, the handler at
0x8000, and clause headers at 0x8000 and 0x9008. -/

/-- The entries of the tree, and two clause headers of one word. -/
def tree : List Host.Cell :=
  [(0x100000, 0xE1), (0x100001, 0x01), (0x100006, 0x30), (0x101000, 0x01), (0x101005, 0x01), (0x102000, 0x01), (0x102004, 0x01),
   (0x102005, 0x01), (0x103000, 0x01), (0x103004, 0x02), (0x103005, 0x01), (0x300008000, 0x10), (0x300008001, 0x02),
   (0x300008003, 0xE0), (0x300009008, 0x10), (0x300009009, 0x02), (0x30000900B, 0xE0)]

/-- A kernel of one group with one accumulator tile and every main register. -/
def kernel : KHdr := { entry := 0x8000, partword := 0x810, scratch := 65536, preload := 0, shape := 256 + 2 ^ 20, mode := 0x10000 }

def gridA : Grid := { newGrid 1 placedDesc none with st := .running, hdr := kernel, size := (1, 1, 1), next := 1 }

def ctxA : Context :=
  { newContext 1 1 placedRoot 0 0x8000 0 1 0 0 with cores := [0], owned := [0], grids := [gridA], nextGrid := 2 }

def clusterA : Cluster := { ctx := 1, grid := 1, lin := 0, x0 := 0, y0 := 0, w := 1, h := 1, bars := [], ended := [], nodes := [] }

/-- Registers of the lanes 0 to 2. -/
def lanes3 (rs : List (Nat × (Nat → Nat))) : List (Nat × Word) :=
  (List.range 3).flatMap (fun l => rs.map (fun r => (regKey l r.1, BitVec.ofNat 32 (r.2 l))))

/-- The registers: in lane l, v2 and v3 hold the address 0x6000 + 16 l, v4 the scratch address 0x1000_0000 + 16 l, v6 the code
address 0x9008, v8 to v11 the numbers 5 to 8, v14 the number 0xFF_FFFF. -/
def regsA : List (Nat × Word) :=
  lanes3 [(2, fun l => 0x6000 + 16 * l), (4, fun l => 0x10000000 + 16 * l), (6, fun _ => 0x9008), (8, fun _ => 5), (9, fun _ => 6),
    (10, fun _ => 7), (11, fun _ => 8), (14, fun _ => 0xFFFFFF)]

/-- The team at the word 1 of a clause of one word, with three lanes. -/
def teamA : Team :=
  { startTeam ctxA gridA 7 0 0 0 0 [0] none with
    pc := 0x9000, wix := 1, clause := { seta := 0, setb := 1, len := 1, comp := 0, yld := false }
    live := 7, active := 7, regs := regsA, frame := some 0x4000, trapvec := 0x8000 }

/-- The machine with one team, whose word is to run. -/
def oneTeam (t : Team) : State :=
  { State.reset with
    mem := tree, contexts := [ctxA], clusters := [clusterA], teams := [t], cur := some 7, nextUid := 8, nextSeq := 100 }

/-- The machine. -/
def stateA : State := oneTeam teamA

/-! ### Checks of hypotheses -/

def issuesB (s : State) (t : Team) (i : Instr) (slots : List Nat) : Bool :=
  decide (curTeam s = some t) && decide (reasons i t = []) && slots.all (fun n => (slotReg t n).isSome)

theorem issues_of {s : State} {t : Team} {i : Instr} {slots : List Nat} (h : issuesB s t i slots = true) :
    Issues s t i slots := by
  simp only [issuesB, Bool.and_eq_true, decide_eq_true_eq, List.all_eq_true] at h
  exact ⟨h.1.1, h.1.2, h.2⟩

def acceptedB (s : State) (t : Team) (i : Instr) (slots : List Nat) : Bool :=
  issuesB s t i slots && decide (t.pass = none) && decide (t.faulted = [] ∧ t.done = 0)

theorem accepted_of {s : State} {t : Team} {i : Instr} {slots : List Nat} (h : acceptedB s t i slots = true) :
    Accepted s t i slots := by
  simp only [acceptedB, Bool.and_eq_true, decide_eq_true_eq] at h
  exact ⟨issues_of h.1.1, h.1.2, h.2⟩

def headerB (s : State) (t : Team) (a : Word) : Bool :=
  match fetchPa s t a with
  | .ok x => !isPeer x.pa && lineHop s (x.pa / 64) == 0 && isHeader (wordAt (homeBytes s x.pa 4) 0) &&
      (icLine s t.core (x.pa / 64)).isNone
  | _ => false

theorem header_of {s : State} {t : Team} {a : Word} (h : headerB s t a = true) : headerAt s t a := by
  unfold headerB at h
  split at h
  · next x hx =>
    simp only [Bool.and_eq_true, Bool.not_eq_true', beq_iff_eq, Option.isNone_iff_eq_none] at h
    refine ⟨x, hx, h.1.1.1, h.1.1.2, h.1.2, fun c hc => ?_⟩
    rw [h.2] at hc
    exact nomatch hc
  · exact nomatch h

def goodB (s : State) (t : Team) (n : Nat) : Bool :=
  (lanesOf t.active).all (fun l => !slotPoisoned t l n && !readsPending s t l [n])

theorem good_of {s : State} {t : Team} {n : Nat} (h : goodB s t n = true) : goodSlot s t n := by
  simp only [goodB, List.all_eq_true, Bool.and_eq_true, Bool.not_eq_true'] at h
  exact h

def cleanB (s : State) (t : Team) (p : BitVec 2) (srcs : List Nat) : Bool :=
  (lostLanes s t p srcs).isEmpty && (execLanes s t p).all (fun l => !readsPending s t l srcs)

theorem clean_of {s : State} {t : Team} {p : BitVec 2} {srcs : List Nat} (h : cleanB s t p srcs = true) :
    CleanLanes s t p srcs := by
  simp only [cleanB, List.all_eq_true, Bool.and_eq_true, Bool.not_eq_true', List.isEmpty_iff] at h
  exact h

def hitB (s : State) (t : Team) (lanes : List Nat) (k : AccKind) (va : Nat → DWord) (pa : Nat → Nat) (size : Nat) : Bool :=
  lanes.all (fun l => (va l).toNat % size == 0 && !isPeer (pa l) && hopOf s (pa l) size == 0 &&
    (match translate s t.root (va l) k none with
     | .ok x => x.pa == pa l
     | _ => false))

theorem hit_of {s : State} {t : Team} {lanes : List Nat} {k : AccKind} {va : Nat → DWord} {pa : Nat → Nat} {size : Nat}
    (h : hitB s t lanes k va pa size = true) : LanesHit s t lanes k va pa size := by
  simp only [hitB, List.all_eq_true, Bool.and_eq_true, Bool.not_eq_true', beq_iff_eq] at h
  refine ⟨fun l hl => (h l hl).1.1.1, fun l hl => ?_, fun l hl => (h l hl).1.1.2, fun l hl => (h l hl).1.2⟩
  have := (h l hl).2
  split at this
  · next x hx => exact ⟨x, hx, by simpa using this⟩
  · exact nomatch this

def invB (s : State) : Bool := Memory.wf s.mem && sok [] s.l2 && s.l2.all (fun e => e.2.length == 64)

theorem inv_of {s : State} (h : invB s = true) : s.Inv := by
  simp only [invB, Bool.and_eq_true, List.all_eq_true, beq_iff_eq] at h
  exact ⟨h.1.1, h.1.2, h.2⟩

/-- The entries of a translation lie apart from 64 bytes. -/
def apartB (s : State) (root : RootDesc) (va : Nat) (pa : Nat) : Bool :=
  (Laws.pathEntries s va root.lvl root.node).all (fun p => decide (p.1 + 16 * p.2 + 16 ≤ pa ∨ pa + 64 ≤ p.1 + 16 * p.2))

def isOk (x : XRes) : Bool :=
  match x with
  | .ok _ => true
  | _ => false

def enterB (s : State) (t : Team) (c : Context) (recPa va : Nat) (pas : List Nat) : Bool :=
  invB s && decide (findCtx s t.ctx = some c) && t.handler.isNone && decide (t.place = .resident) &&
    decide (t.trapvec ≠ 0xFFFFFFFF) && isOk (fetchPa s t t.trapvec) && decide (frameVa s t = some va) &&
    decide (framePas s t va = some pas) && decide ((c.frqt - c.frqh).toNat + 1 ≤ 2 ^ (8 + c.frqb.toNat % 16)) &&
    (match translate s t.root (frqVa c c.frqt.toNat) .write none with
     | .ok x => x.pa == recPa
     | _ => false) &&
    (List.range (frameSize t / 1024)).all (fun i => apartB s t.root (BitVec.ofNat 64 (va + 1024 * i)).toNat recPa) &&
    decide (t.block = none) && s.stores.isEmpty && (teamIssues s t.uid).all (fun x => decide (x.2 ≠ .frozen))

theorem enter_of {s : State} {t : Team} {c : Context} {recPa va : Nat} {pas : List Nat} (h : enterB s t c recPa va pas = true) :
    MayEnter s t c recPa va pas := by
  simp only [enterB, Bool.and_eq_true, decide_eq_true_eq, Option.isNone_iff_eq_none] at h
  obtain ⟨⟨⟨⟨⟨⟨⟨⟨⟨⟨⟨⟨⟨h0, h1⟩, h2⟩, h3⟩, h4⟩, h5⟩, h6⟩, h7⟩, h8⟩, h9⟩, h10⟩, h11⟩, h12⟩, h13⟩ := h
  rw [List.isEmpty_iff] at h12
  refine ⟨inv_of h0, h1, h2, h3, h4, ?_, h6, h7, h8, ?_, fun bs hb => ?_, h11, fun e he => ?_, fun x hx => ?_⟩
  · unfold isOk at h5
    split at h5
    · next x hx => exact ⟨x, hx⟩
    · exact nomatch h5
  · split at h9
    · next x hx => exact ⟨x, hx, by simpa using h9⟩
    · exact nomatch h9
  · rw [Laws.framePas_homeWrite (inv_of h0), h7]
    intro i hi p hp
    have := List.all_eq_true.1 (List.all_eq_true.1 h10 i (List.mem_range.2 hi)) p hp
    rw [hb]
    exact of_decide_eq_true this
  · rw [h12] at he
    exact nomatch he
  · exact of_decide_eq_true (List.all_eq_true.1 h13 x hx)

/-- The pieces of the trap frame of the machine. -/
def framesA : List Nat := [0x300004000, 0x300004400, 0x300004800, 0x300004C00, 0x300005000]

theorem test_machine_inv : stateA.Inv := inv_of (by decide +kernel)

theorem test_machine_may_enter : MayEnter stateA teamA ctxA 0x300000000 0x4000 framesA := enter_of (by decide +kernel)

/-! ### Witnesses: clauses and control flow -/

/-- The team at a header. -/
def teamHead : Team := { teamA with wix := 0 }

/-- The team with a clause of three words. -/
def teamLong : Team := { teamA with clause := { teamA.clause with len := 3 } }

theorem flags_zero : ∀ k < 12, flagOf teamHead k = 0 := by decide +kernel

/-- ClausesAndHints: a ready header with every WAIT bit, at the highest flag number and length. -/
theorem witness_clause_header_ready : curTeam (oneTeam teamHead) = some teamHead ∧ teamHead.wix = 0 ∧
    undelivered (oneTeam teamHead) teamHead false = [] ∧ ((11 : BitVec 4).toNat < 12) ∧ (24 : BitVec 5).toNat ≤ 24 ∧
    ready teamHead 0xFFF 11 15 :=
  ⟨by decide +kernel, rfl, by decide +kernel, by decide, by decide, fun k hk _ => flags_zero k hk,
    fun _ => by decide +kernel, fun h => absurd rfl h, rfl, rfl⟩

/-- ClausesAndHints: a flag at 40 that SETA names, and one at 1 that WAIT names. -/
theorem witness_clause_header_waits :
    let t := { teamHead with flags := teamHead.flags.set 0 40 |>.set 3 1 }
    curTeam (oneTeam t) = some t ∧ t.wix = 0 ∧ undelivered (oneTeam t) t false = [] ∧ ¬ ready t 0 0 15 ∧ ¬ ready t 8 15 15 := by
  refine ⟨by decide +kernel, rfl, by decide +kernel, fun h => ?_, fun h => ?_⟩
  · exact absurd (h.2.1 (by decide)) (by decide +kernel)
  · exact absurd (h.1 3 (by decide) (by decide)) (by decide +kernel)

/-- ClausesAndHints: hint words inside a clause, and a sched and a nop as its last word. -/
theorem witness_hints : curTeam (oneTeam teamLong) = some teamLong ∧ teamLong.wix ≠ 0 ∧ extOf teamLong = none ∧
    modPending teamLong = false ∧ teamLong.wix < teamLong.clause.len ∧ (⟨4, 1, 1, 2, 4, 3, 5⟩ : Mods).reserved = false ∧
    curTeam stateA = some teamA ∧ teamA.wix = teamA.clause.len ∧ extOf teamA = none ∧ modPending teamA = false ∧
    reasons .nop teamA = [] ∧ schedPending teamLong = false ∧ schedPending teamA = false ∧ (0 : BitVec 2) ≠ 3 := by
  refine ⟨?_, ?_, ?_, ?_, ?_, ?_, ?_, ?_, ?_, ?_, ?_, ?_, ?_, ?_⟩ <;> decide +kernel

/-- The team behind a sched hint, and behind a mod hint. -/
def teamSched : Team := { teamLong with wix := 2, hints := some ⟨1, true, none, 0, 0, none⟩ }
def teamAfterMod : Team := { teamLong with wix := 2, hints := some ⟨1, false, some ⟨1, 0, 0, 0, 0, 0, 0⟩, 1, 0, none⟩ }

theorem witness_second_sched : curTeam (oneTeam teamSched) = some teamSched ∧ teamSched.wix ≠ 0 ∧ schedPending teamSched = true := by
  refine ⟨?_, ?_, ?_⟩ <;> decide +kernel

/-- TransfersReachHeaders. -/
theorem witness_transfers : Accepted stateA teamA (.bra 0) [] ∧ Accepted stateA teamA (.yield 0) [] ∧
    headerAt stateA teamA (target teamA 0) ∧ Accepted stateA teamA (.jmpi 6) [6] ∧ teamA.active ≠ 0 ∧
    goodSlot stateA teamA 6 ∧ (∀ l ∈ lanesOf teamA.active, slot teamA l 6 = 0x9008) ∧ headerAt stateA teamA 0x9008 :=
  ⟨accepted_of (by decide +kernel), accepted_of (by decide +kernel), header_of (by decide +kernel),
    accepted_of (by decide +kernel), by decide +kernel, good_of (by decide +kernel), by decide +kernel, header_of (by decide +kernel)⟩

/-- Registers with lane numbers in v12. -/
def regsLanes : List (Nat × Word) := lanes3 [(2, fun l => 0x6000 + 16 * l), (6, fun _ => 0x9008), (12, fun l => l)]

/-- The team in a region, with lane numbers in v12. -/
def teamIn (deferred : Mask) (depth : Nat) : Team :=
  { teamA with
    regs := regsLanes
    stack := List.replicate depth ⟨.recon, 0x8000, 7, 0x8000, deferred⟩ }

/-- ConditionalBranchSplits: no lane taken, every lane taken. -/
theorem witness_branch_whole : Accepted stateA teamA (.bcZ 8 0) [8] ∧ Accepted stateA teamA (.bcNz 8 0) [8] ∧
    goodSlot stateA teamA 8 ∧ isTaken teamA 8 (fun v => (v = 0) = (true = true)) 0 ∧
    isTaken teamA 8 (fun v => (v = 0) = (false = true)) teamA.active ∧ headerAt stateA teamA (target teamA 0) := by
  refine ⟨accepted_of (by decide +kernel), accepted_of (by decide +kernel), good_of (by decide +kernel), ?_, ?_,
    header_of (by decide +kernel)⟩ <;> unfold isTaken <;> decide +kernel

theorem taken_two (m : Mask) (n : Nat) : isTaken (teamIn m n) 12 (fun v => (v = 0) = (false = true)) 6 := by
  have key : ∀ l < 1024, (6 : Mask).getLsbD l = true ↔
      (teamIn 0 0).active.getLsbD l = true ∧ (slot (teamIn 0 0) l 12 = 0) = (false = true) := by decide +kernel
  exact key

theorem good_lanes (m : Mask) (n : Nat) : goodSlot (oneTeam (teamIn m n)) (teamIn m n) 12 := by
  have key : ∀ l ∈ lanesOf (teamIn 0 0).active, slotPoisoned (teamIn 0 0) l 12 = false ∧
      readsPending (oneTeam (teamIn 0 0)) (teamIn 0 0) l [12] = false := by decide +kernel
  exact key

/-- ConditionalBranchSplits: lanes 1 and 2 of 3 taken, in a region without a deferral, in one with a deferral on a stack of one
and of 31 entries, on a full stack, and without a region. -/
theorem witness_branch_split : ∀ x ∈ ([(0, 1), (1, 1), (1, 31), (1, 32), (0, 0)] : List (Mask × Nat)),
    Accepted (oneTeam (teamIn x.1 x.2)) (teamIn x.1 x.2) (.bcNz 12 0) [12] ∧
    goodSlot (oneTeam (teamIn x.1 x.2)) (teamIn x.1 x.2) 12 ∧
    isTaken (teamIn x.1 x.2) 12 (fun v => (v = 0) = (false = true)) 6 ∧ (6 : Mask) ≠ 0 ∧ 6 ≠ (teamIn x.1 x.2).active ∧
    headerAt (oneTeam (teamIn x.1 x.2)) (teamIn x.1 x.2) (target (teamIn x.1 x.2) 0) ∧
    MayEnter (oneTeam (teamIn x.1 x.2)) (teamIn x.1 x.2) ctxA 0x300000000 0x4000 framesA := by
  intro x hx
  have ha : ∀ x ∈ ([(0, 1), (1, 1), (1, 31), (1, 32), (0, 0)] : List (Mask × Nat)),
      acceptedB (oneTeam (teamIn x.1 x.2)) (teamIn x.1 x.2) (.bcNz 12 0) [12] = true ∧
      headerB (oneTeam (teamIn x.1 x.2)) (teamIn x.1 x.2) (target (teamIn x.1 x.2) 0) = true ∧
      enterB (oneTeam (teamIn x.1 x.2)) (teamIn x.1 x.2) ctxA 0x300000000 0x4000 framesA = true := by
    decide +kernel
  obtain ⟨h1, h3, h4⟩ := ha x hx
  exact ⟨accepted_of h1, good_lanes _ _, taken_two _ _, by decide +kernel, (by decide +kernel : (6 : Mask) ≠ 7), header_of h3, enter_of h4⟩

theorem witness_branch_top : onTop (teamIn 0 1) ⟨.recon, 0x8000, 7, 0x8000, 0⟩ [] ∧
    (teamIn 1 31).stack.length < 32 ∧ 32 ≤ (teamIn 1 32).stack.length ∧ (teamIn 0 0).stack = [] :=
  ⟨⟨rfl, fun _ h => nomatch h⟩, by decide +kernel, by decide +kernel, rfl⟩

/-- RegionsAndReturns: recon and call on an empty stack and at the last free entry. -/
theorem witness_regions_open : ∀ t ∈ [teamIn 0 0, teamIn 0 31], Accepted (oneTeam t) t (.recon 0) [] ∧
    Accepted (oneTeam t) t (.call 12 0) [12] ∧ headerAt (oneTeam t) t (target t 0) ∧ t.stack.length < 32 := by
  intro t ht
  have ha : ∀ t ∈ [teamIn 0 0, teamIn 0 31], acceptedB (oneTeam t) t (.recon 0) [] = true ∧
      acceptedB (oneTeam t) t (.call 12 0) [12] = true ∧ headerB (oneTeam t) t (target t 0) = true ∧ t.stack.length < 32 := by
    decide +kernel
  obtain ⟨h1, h2, h3, h4⟩ := ha t ht
  exact ⟨accepted_of h1, accepted_of h2, header_of h3, h4⟩

/-- The team in a called function. -/
def teamCalled : Team := { teamA with stack := [⟨.call, 0, 7, 0, 0⟩] }

theorem witness_ret : Accepted (oneTeam teamCalled) teamCalled (.ret 6) [6] ∧ teamCalled.active ≠ 0 ∧
    goodSlot (oneTeam teamCalled) teamCalled 6 ∧ onTop teamCalled ⟨.call, 0, 7, 0, 0⟩ [] ∧
    (∀ l ∈ lanesOf teamCalled.active, slot teamCalled l 6 = 0x9008) ∧ headerAt (oneTeam teamCalled) teamCalled 0x9008 :=
  ⟨accepted_of (by decide +kernel), by decide +kernel, good_of (by decide +kernel), ⟨rfl, fun _ h => nomatch h⟩,
    by decide +kernel, header_of (by decide +kernel)⟩

theorem witness_join : Accepted (oneTeam (teamIn 0 1)) (teamIn 0 1) .join [] ∧
    onTop (teamIn 0 1) ⟨.recon, 0x8000, 7, 0x8000, 0⟩ [] :=
  ⟨accepted_of (by decide +kernel), rfl, fun _ h => nomatch h⟩

/-- RegionsAndReturns: brk out of two regions, a split between them. -/
def teamNested : Team :=
  { teamA with stack := [⟨.recon, 0x8000, 7, 0, 0⟩, ⟨.split, 0x8000, 7, 0x8000, 8⟩, ⟨.recon, 0x9008, 7, 0, 0⟩] }

theorem witness_brk : Accepted (oneTeam teamNested) teamNested (.brk 2 0) [] ∧
    teamNested.stack = [⟨.recon, 0x8000, 7, 0, 0⟩, ⟨.split, 0x8000, 7, 0x8000, 8⟩] ++ ⟨.recon, 0x9008, 7, 0, 0⟩ :: [] ∧
    (([⟨.recon, 0x8000, 7, 0, 0⟩, ⟨.split, 0x8000, 7, 0x8000, 8⟩] : List StackEntry).filter (fun x => x.kind == .recon)).length + 1 =
      (2 : BitVec 5).toNat ∧ target teamNested 0 = 0x9008 ∧ teamNested.handler = none :=
  ⟨accepted_of (by decide +kernel), rfl, by decide +kernel, by decide +kernel, rfl⟩

theorem witness_exit : Accepted stateA teamA .exit [] ∧ teamA.handler = none ∧ arithLanes teamA = [] ∧
    Accepted stateA teamA .exitKill [] ∧ findGrid stateA teamA.ctx teamA.grid = some gridA :=
  ⟨accepted_of (by decide +kernel), rfl, by decide +kernel, accepted_of (by decide +kernel), by decide +kernel⟩

theorem witness_trap : Accepted stateA teamA (.trap 8 0xFFF) [8] ∧ teamA.active ≠ 0 ∧ goodSlot stateA teamA 8 ∧
    MayEnter stateA teamA ctxA 0x300000000 0x4000 framesA :=
  ⟨accepted_of (by decide +kernel), by decide +kernel, good_of (by decide +kernel), test_machine_may_enter⟩

/-- RefusedWordsTrap: an add whose predicate form stands under a hint that it does not take, and an add with unbound slots. -/
def teamBare : Team := { teamA with binds := teamA.binds.set 9 none |>.set 12 none }

theorem witness_refused : isOperation (.ld 12 3 4 0) = true ∧ operandsMatter (.ld 12 3 4 0) = false ∧ teamA.wix ≠ 0 ∧ curTeam stateA = some teamA ∧
    5 ∈ reasons (.ld 12 3 4 0) teamA ∧ (∀ q ∈ reasons (.ld 12 3 4 0) teamA, 5 ≤ q) ∧
    MayEnter stateA teamA ctxA 0x300000000 0x4000 framesA :=
  ⟨rfl, rfl, by decide, by decide +kernel, by decide +kernel, by decide +kernel, test_machine_may_enter⟩

/-- RefusedWordsTrap: an add and a launch with unbound slots, a read and a write. -/
theorem witness_unbound : curTeam (oneTeam teamBare) = some teamBare ∧
    ∀ x ∈ ([(.add 12 8 9 0 0, 9), (.launch 12 4, 12)] : List (Instr × Nat)),
      isOperation x.1 = true ∧ reasons x.1 teamBare = [] ∧ slotReg teamBare x.2 = none ∧
      x.2 ∈ (slotsOf (modsOf teamBare) x.1).1 ++ (slotsOf (modsOf teamBare) x.1).2 ∧
      ∀ k ∈ (slotsOf (modsOf teamBare) x.1).1 ++ (slotsOf (modsOf teamBare) x.1).2, slotReg teamBare k = none → x.2 ≤ k := by
  refine ⟨?_, ?_⟩ <;> decide +kernel

/-- RefusedWordsTrap: a header inside a clause; a header with each kind of reserved value; hints at a header's place; an ext, a
mod and a sched where none may stand; a word under two causes. -/
theorem witness_malformed : ∀ x ∈ ([(.clauseHeader 0 0 1 1 0 0 0, teamLong, 0x0C), (.clauseHeader 0 12 1 1 0 0 0, teamHead, 0x0A),
      (.clauseHeader 0 0 1 25 0 0 0, teamHead, 0x0B), (.clauseHeader 0 14 15 0 3 0 0, teamHead, 0x0A), (.ext 0, teamHead, 0x0C),
      (.mod 0 0 0 0 0 0 0, teamHead, 0x0C), (.sched 0 0 0, teamHead, 0x0C), (.ext 0, teamA, 0x07), (.mod 0 0 0 0 0 0 0, teamA, 0x08),
      (.mod 7 0 0 0 0 0 0, teamLong, 0x06), (.sched 0 0 3, teamLong, 0x06), (.mod 0 0 0 0 0 0 0, teamAfterMod, 0x09),
      (.sched 0 0 0, teamSched, 0x09)] : List (Instr × Team × Nat)),
    curTeam (oneTeam x.2.1) = some x.2.1 ∧ undelivered (oneTeam x.2.1) x.2.1 false = [] ∧
      (endsMod x.1 = true → x.2.1.wix ≠ 0 → modPending x.2.1 = false) ∧ x.2.2 ∈ unitCauses x.2.1 x.1 ∧
      ∀ q ∈ unitCauses x.2.1 x.1, x.2.2 ≤ q := by decide +kernel

theorem witness_mod_before_end : (∀ i ∈ [Instr.clauseHeader 0 0 1 1 0 0 0, .sched 0 0 0], endsMod i = true) ∧ teamAfterMod.wix ≠ 0 ∧
    curTeam (oneTeam teamAfterMod) = some teamAfterMod ∧ modPending teamAfterMod = true ∧
    teamAfterMod.hints = some ⟨1, false, some ⟨1, 0, 0, 0, 0, 0, 0⟩, 1, 0, none⟩ := by
  refine ⟨?_, ?_, ?_, ?_, ?_⟩ <;> decide +kernel

/-! ### Witnesses: registers and special registers -/

/-- A per-lane rule's hypotheses for a team. -/
def ruleB (t : Team) (rule : Mods → Instr → Option LaneRule) (i : Instr) : Bool :=
  match rule (modsOf t) i with
  | some r => issuesB (oneTeam t) t i (r.srcs ++ predSlot r.p ++ r.dsts) && (lostLanes (oneTeam t) t r.p r.srcs).isEmpty
  | none => false

theorem rule_of {t : Team} {rule : Mods → Instr → Option LaneRule} {i : Instr} (h : ruleB t rule i = true) :
    ∃ r, rule (modsOf t) i = some r ∧ Issues (oneTeam t) t i (r.srcs ++ predSlot r.p ++ r.dsts) ∧
      lostLanes (oneTeam t) t r.p r.srcs = [] := by
  unfold ruleB at h
  split at h
  · next r hr =>
    rw [Bool.and_eq_true] at h
    exact ⟨r, hr, issues_of h.1, List.isEmpty_iff.1 h.2⟩
  · exact nomatch h

/-- The team after a mod hint. -/
def teamMod (m : Mods) : Team :=
  { teamA with wix := 2, clause := { teamA.clause with len := 2 }, hints := some ⟨1, false, some m, 1, 0, none⟩ }

/-- The team after an ext hint. -/
def teamExt : Team :=
  { teamA with wix := 2, clause := { teamA.clause with len := 2 }, hints := some ⟨1, false, none, 0, 0, some 0xFFFFF⟩ }

/-- With SAT, with FTZ and every rounding mode, with the widths of pairs, and with ext, where the instruction takes it. -/
theorem witness_rules_with_hints :
    (∀ i ∈ [Instr.add 12 8 9 1 0, .sub 12 8 9 0 0, .abs 12 8 0, .cvtI 12 8 0 0 0],
      ∃ rule ∈ [arithRule, wideRule], ruleB (teamMod ⟨0, 0, 1, 0, 0, 0, 0⟩) rule i = true) ∧
    (∀ rm ∈ [0, 1, 2, 3, 4], ruleB (teamMod ⟨BitVec.ofNat 3 rm, 1, 1, 0, 0, 0, 0⟩) floatRule (.fadd 12 8 9 0) = true) ∧
    ruleB (teamMod ⟨0, 0, 0, 0, 0, 0, 5⟩) packedRule (.cvtFf 12 8 0 0 1 0) = true ∧
    (∀ i ∈ [Instr.addi 12 8 0xFFF, .movi 12 0], ∃ rule ∈ [arithRule, wideRule], ruleB teamExt rule i = true) := by
  refine ⟨?_, ?_, ?_, ?_⟩ <;> decide +kernel

/-- Two of three lanes of a word that executes in passes, and the lane that is left of it. -/
theorem witness_rules_in_passes :
    (∀ i ∈ [Instr.add 12 8 9 0 3, .mad 12 8 9 10 0], ruleB { teamA with pass := some 3 } arithRule i = true ∧
      ruleB { teamA with resume := some 4, begun := true } arithRule i = true) ∧
    ruleB { teamA with pass := some 3 } floatRule (.fadd 12 8 9 0) = true := by
  refine ⟨?_, ?_⟩ <;> decide +kernel

theorem witness_IntegerArithmetic : ∀ i ∈ [Instr.add 12 8 9 0 3, .sub 12 8 9 0 0, .addi 12 8 0xFFF, .mul 12 8 9 1,
    .mulhiS 12 8 9 2, .mulhiU 12 8 9 0, .mad 12 8 9 10 0, .minS 12 8 9 0, .minU 12 8 9 0, .maxS 12 8 9 0, .maxU 12 8 9 0,
    .abs 12 8 0], ruleB teamA arithRule i = true := by decide +kernel

theorem witness_LogicShiftsBitFields : ∀ i ∈ [Instr.and 12 8 9 0, .or 12 8 9 0, .xor 12 8 9 0, .andn 12 8 9 0, .andi 12 8 0xFFF,
    .ori 12 8 0, .xori 12 8 1, .shl 12 8 9 0, .shr 12 8 9 0, .sar 12 8 9 0, .rot 12 8 9 0, .shli 12 8 31, .shri 12 8 0,
    .sari 12 8 31, .popc 12 8 0, .clz 12 8 0, .brev 12 8 0, .bfe 12 8 1 31 0, .bfe 12 8 0 1 31, .bfi 12 8 9 10 0],
    ruleB teamA bitRule i = true := by decide +kernel

theorem witness_ComparisonSelectionWide : ∀ i ∈ [Instr.cmp 12 8 9 0 0, .cmp 12 8 9 9 0, .cmpiEq 12 8 0, .cmpiNe 12 8 0,
    .cmpiLtS 12 8 0x800, .cmpiLtU 12 8 0xFFF, .sel 12 8 9 10 0, .movi 12 0x800, .mov 12 8 0, .add64 12 8 10 0, .sub64 12 8 10 0,
    .addi64 12 8 0x800, .lea64 12 8 10 0 15 0, .lea64 12 8 10 1 0 0, .cvtI 12 8 7 3 0, .cvtI 12 8 0 0 0, .dot4S8 12 8 9 10 0,
    .dot4U8 12 8 9 10 0, .rng 12 8 10 0], ruleB teamA wideRule i = true := by decide +kernel

theorem witness_FloatingPoint : ∀ i ∈ [Instr.fadd 12 8 9 0, .fsub 12 8 9 0, .fmul 12 8 9 0, .ffma 12 8 9 10 0, .fscale 12 8 9 0,
    .fround 12 8 0, .fmin 12 8 9 0, .fmax 12 8 9 0, .fcmp 12 8 9 0 0, .fabs 12 8 0, .fneg 12 8 0, .fclass 12 8 0, .frcp 12 8 0,
    .frsq 12 8 0, .fexp2 12 8 0, .flog2 12 8 0, .sincosT 12 8 0], ruleB teamA floatRule i = true := by decide +kernel

theorem witness_PackedAndConversions : ∀ i ∈ [Instr.hadd2 12 8 9 1 0, .hmul2 12 8 9 0 0, .hfma2 12 8 9 10 0, .fdot2 12 8 9 10 0,
    .fdot4F8 12 8 9 10 0, .cvtFi 12 8 7 0 0, .cvtFi 12 8 0 2 0, .cvtIf 12 8 0 7 0, .cvtIf 12 8 2 4 0, .cvtFf 12 8 0 0 1 0],
    ruleB teamA packedRule i = true := by decide +kernel

/-- A cross-lane rule's hypotheses in the machine. -/
def crossB (rule : Instr → Option CrossRule) (i : Instr) : Bool :=
  match rule i with
  | some r => acceptedB stateA teamA i (r.srcs ++ predSlot r.p ++ [r.d.toNat]) &&
      (r.srcs ++ predSlot r.p).all (fun n => !slotOwed stateA teamA n)
  | none => false

theorem cross_of {rule : Instr → Option CrossRule} {i : Instr} (h : crossB rule i = true) :
    ∃ r, rule i = some r ∧ Accepted stateA teamA i (r.srcs ++ predSlot r.p ++ [r.d.toNat]) ∧
      (∀ l n, regPoisoned teamA l n = false) ∧ (∀ n ∈ r.srcs ++ predSlot r.p, slotOwed stateA teamA n = false) ∧
      teamA.gather = none := by
  unfold crossB at h
  split at h
  · next r hr =>
    simp only [Bool.and_eq_true, List.all_eq_true, Bool.not_eq_true'] at h
    exact ⟨r, hr, accepted_of h.1, fun _ _ => rfl, h.2, rfl⟩
  · exact nomatch h

theorem witness_CrossLaneExchange : ∀ i ∈ [Instr.shflIdx 12 8 9 0 3, .shflIdx 12 8 9 5 0, .shflXor 12 8 127, .shflPrv 12 8 1,
    .shflNxt 12 8 127, .bcast 12 8 127, .voteAny 12 8 0, .voteAll 12 8 0, .ballot 12 8 0, .matchLanes 12 8 1 0,
    .cxch 12 8 0 1 0, .cxch 12 8 2 10 9], crossB crossRule i = true := by decide +kernel

/-- A cross-lane word stopped between its write passes, with the values that two lanes of three have gathered. -/
def teamStopped : Team := { teamA with resume := some 6, gather := some [⟨1, 5, 0, false⟩, ⟨2, 6, 8, true⟩] }

theorem witness_regathered : Accepted (oneTeam teamStopped) teamStopped (.shflXor 12 8 1) [8, 12] ∧
    Accepted (oneTeam teamStopped) teamStopped (.redux 12 8 0 0) [8, 12] ∧
    teamStopped.gather = some [⟨1, 5, 0, false⟩, ⟨2, 6, 8, true⟩] ∧
    (([⟨1, 5, 0, false⟩, ⟨2, 6, 8, true⟩] : List Gain).map Gain.lane).Nodup :=
  ⟨accepted_of (by decide +kernel), accepted_of (by decide +kernel), rfl, by decide⟩

/-- FloatingPoint, PackedAndConversions: each form in a team without poison; pairs under WID, and with the predicate of w31. -/
theorem witness_completes : (∀ l n, regPoisoned teamA l n = false) ∧
    (∀ i ∈ [Instr.fadd 12 8 9 1, .fsub 12 8 9 1, .fmul 12 8 9 1, .fmin 12 8 9 1, .fmax 12 8 9 1, .fcmp 12 8 9 0 1,
      .fscale 12 8 9 1, .ffma 12 8 9 10 1, .fabs 12 8 1, .fneg 12 8 1, .frcp 12 8 1, .frsq 12 8 1, .fexp2 12 8 1, .flog2 12 8 1,
      .sincosT 12 8 1, .fround 12 8 1, .fclass 12 8 1, .hadd2 12 8 9 1 1, .hmul2 12 8 9 1 1, .hfma2 12 8 9 10 1,
      .fdot2 12 8 9 10 1, .fdot4F8 12 8 9 10 1, .cvtFi 12 8 7 0 1, .cvtIf 12 8 0 7 1, .cvtFf 12 8 1 0 0 1, .redux 12 8 0 1,
      .scan 12 8 0 1], acceptedB stateA teamA i [8, 9, 10, 31, 12, 13] = true) ∧
    (modsOf (teamMod ⟨0, 0, 0, 0, 0, 0, 5⟩)).wid = 5 ∧
    issuesB (oneTeam (teamMod ⟨0, 0, 0, 0, 0, 0, 5⟩)) (teamMod ⟨0, 0, 0, 0, 0, 0, 5⟩) (.cvtFf 12 8 0 0 0 0) [8, 9, 12, 13] = true :=
  ⟨fun _ _ => rfl, by decide +kernel, by decide +kernel, by decide +kernel⟩

theorem witness_ReductionsAndScans : ∀ i ∈ [Instr.redux 12 8 0 0, .redux 12 8 10 0, .scan 12 8 0 0, .scan 12 8 10 3],
    crossB reductionRule i = true := by decide +kernel

/-- SpecialRegisters: every readable register. -/
theorem witness_rdsr : ∀ n ∈ [0x000, 0x001, 0x002, 0x010, 0x011, 0x012, 0x013, 0x020, 0x030, 0x031, 0x032, 0x033, 0x040, 0x041,
    0x050, 0x051, 0x060, 0x070], acceptedB stateA teamA (.rdsr 12 (BitVec.ofNat 12 n)) [12] = true ∧
    findCtx stateA teamA.ctx = some ctxA ∧ ∀ l < 3, ((srSays stateA teamA ctxA l).map Prod.fst).contains n = true := by
  decide +kernel

theorem witness_wrsr : Accepted stateA teamA (.wrsrFpx 8) [8] ∧ Accepted stateA teamA (.wrsrXdead 8) [8] ∧
    lostLanes stateA teamA 0 [8] = [] ∧ Accepted stateA teamA (.wrsrTrapvec 2) [2] ∧ teamA.active ≠ 0 ∧
    goodSlot stateA teamA 2 ∧ (slot teamA (lowLane teamA.active) 2).toNat % 4 = 0 ∧
    (0x031 : BitVec 12) ≠ 0x020 ∧ MayEnter stateA teamA ctxA 0x300000000 0x4000 framesA :=
  ⟨accepted_of (by decide +kernel), accepted_of (by decide +kernel), by decide +kernel, accepted_of (by decide +kernel),
    by decide +kernel, good_of (by decide +kernel), by decide +kernel, by decide, test_machine_may_enter⟩

/-- The team with slots 28 to 31 unbound. -/
def teamFree : Team := { teamA with binds := (teamA.binds.set 28 none |>.set 29 none |>.set 30 none |>.set 31 none) }

/-- BindMakesWindows: the last four slots to the last registers of the kernel; bindx takes the first of them from a slot. -/
theorem witness_bind : (28 : BitVec 5).toNat + 4 ≤ 32 ∧ 252 + 4 ≤ teamFree.hdr.regs ∧ teamFree.hdr.regs ≤ 256 ∧
    (∀ k < 32, ¬ (28 ≤ k ∧ k < 28 + 4) → ∀ r ∈ (slotReg teamFree k).toList, ¬ (252 ≤ r ∧ r < 252 + 4)) ∧
    Accepted (oneTeam teamFree) teamFree (.bind 28 3 252) [] ∧ Accepted (oneTeam teamFree) teamFree (.bindx 28 8 3) [8] ∧
    teamFree.active ≠ 0 ∧ goodSlot (oneTeam teamFree) teamFree 8 :=
  ⟨by decide, by decide +kernel, by decide +kernel, by decide +kernel, accepted_of (by decide +kernel),
    accepted_of (by decide +kernel), by decide +kernel, good_of (by decide +kernel)⟩

/-- BindMakesWindows: registers at or above REGS, a slot that would stay bound to one of them, too many slots, and hints. -/
theorem witness_bind_fails :
    (teamFree.hdr.regs < 253 + 4 ∧ Accepted (oneTeam teamFree) teamFree (.bind 28 3 253) []) ∧
    (slotReg teamFree 3 = some 3 ∧ 4 + 4 ≤ teamFree.hdr.regs ∧ 0 + 4 ≤ teamFree.hdr.regs ∧
      Accepted (oneTeam teamFree) teamFree (.bind 28 3 0) [] ∧
      (let t := { teamFree with regs := lanes3 [(8, fun _ => 255)] }
       acceptedB (oneTeam t) t (.bindx 28 8 3) [8] = true ∧ goodB (oneTeam t) t 8 = true ∧
        t.hdr.regs < (slot t (lowLane t.active) 8).toNat + 4)) ∧
    32 < (29 : BitVec 5).toNat + (3 : BitVec 3).toNat + 1 ∧ 8 ≤ (8 : BitVec 5).toNat ∧
    (let t := { teamExt with binds := teamFree.binds }
     curTeam (oneTeam t) = some t ∧ (extOf t).isSome = true) ∧
    (curTeam (oneTeam (teamMod ⟨1, 0, 0, 0, 0, 0, 0⟩)) = some (teamMod ⟨1, 0, 0, 0, 0, 0, 0⟩) ∧
      hintMods (teamMod ⟨1, 0, 0, 0, 0, 0, 0⟩) ≠ Mods.zero) := by
  refine ⟨⟨?_, accepted_of ?_⟩, ⟨?_, ?_, ?_, accepted_of ?_, ?_⟩, ?_, ?_, ?_, ?_⟩ <;> decide +kernel

/-! ### Witnesses: memory -/

/-- Where the machine's page puts a virtual address. -/
def paOf (va : DWord) : Nat := 0x300000000 + va.toNat

/-- A load's hypotheses: accepted, clean, every lane hits. -/
def loadB (s : State) (t : Team) (i : Instr) (p : BitVec 2) (srcs dsts : List Nat) (k : AccKind) (va : Nat → DWord) (n : Nat) : Bool :=
  acceptedB s t i (srcs ++ dsts) && cleanB s t p srcs && hitB s t (execLanes s t p) k va (fun l => paOf (va l)) n

theorem load_of {s : State} {t : Team} {i : Instr} {p : BitVec 2} {srcs dsts : List Nat} {k : AccKind} {va : Nat → DWord} {n : Nat}
    (h : loadB s t i p srcs dsts k va n = true) : Accepted s t i (srcs ++ dsts) ∧ CleanLanes s t p srcs ∧
      LanesHit s t (execLanes s t p) k va (fun l => paOf (va l)) n := by
  simp only [loadB, Bool.and_eq_true] at h
  exact ⟨accepted_of h.1.1, clean_of h.1.2, hit_of h.2⟩

theorem owed_of {s : State} {t : Team} {lanes : List Nat} {va : Nat → DWord} {n : Nat}
    (h : lanes.all (fun l => !readsOwedSave s t (va l).toNat n) = true) : NoOwedSave s t lanes va n := by
  simpa [NoOwedSave] using h

theorem no_stores : NoStores stateA teamA ∧ ∀ x ∈ stateA.l1, x.core ≠ teamA.core :=
  ⟨fun _ h => (nomatch h), fun _ h => (nomatch h)⟩

/-- LoadsOweAndComplete: every size, at the lowest and the highest offset. -/
theorem witness_ld : ∀ x ∈ ([(0, 0x100), (1, 0xFF), (2, 0xFF), (3, 0x100), (4, 0), (5, 0xFF), (6, 0x100)] : List (Nat × Nat)),
    loadB stateA teamA (.ld 12 2 (BitVec.ofNat 3 x.1) (BitVec.ofNat 9 x.2)) 0 [2, 3] (slotsOfX x.1 12) .read
      (fun l => addrOf teamA l 2 (BitVec.ofNat 9 x.2) (bytesOfX x.1)) (bytesOfX x.1) = true ∧
      (execLanes stateA teamA 0).all (fun l =>
        !readsOwedSave stateA teamA (addrOf teamA l 2 (BitVec.ofNat 9 x.2) (bytesOfX x.1)).toNat (bytesOfX x.1)) = true := by decide +kernel

/-- At the widest default scope, and at .cr. -/
theorem witness_ldAcq : (∀ x ∈ ([0, 1] : List (BitVec 1)),
    loadB stateA teamA (.ldAcq 12 2 x 0) 0 [2, 3] (slotsOfX (4 + x.toNat) 12) .read
      (fun l => addrOf teamA l 2 0 (bytesOfX (4 + x.toNat))) (bytesOfX (4 + x.toNat)) = true ∧
    (execLanes stateA teamA 0).all (fun l =>
      !readsOwedSave stateA teamA (addrOf teamA l 2 0 (bytesOfX (4 + x.toNat))).toNat (bytesOfX (4 + x.toNat))) = true) ∧
    3 ≤ scopeIs teamA 4 ∧ (let t := teamMod ⟨0, 0, 0, 0, 2, 0, 0⟩
      acceptedB (oneTeam t) t (.ldAcq 12 2 0 0) [2, 3, 12] = true ∧ scopeIs t 4 < 3) := by
  refine ⟨?_, ?_, ?_, ?_⟩ <;> decide +kernel

/-- The team that owes v12 of lane 0. -/
def pendA : Pend :=
  { seq := 40, flag := 0, wait := .data, dests := [regKey 0 12], writes := [(regKey 0 12, 9)], vas := [(0, 0x6000)], losses := []
    contested := [], pc := 0x9000, handler := false, again := [], home := false, acquires := false }
def teamOwes (w : PendWait) : Team := { teamA with pend := [{ pendA with wait := w }], flags := teamA.flags.set 0 1 }

theorem witness_load_complete : let t := teamOwes .data
    findTeam (oneTeam t) t.uid = some t ∧ findPend t 40 = some pendA ∧ pendA.wait = .data ∧ pendA.contested = [] ∧
      pendA.losses = [] ∧ t.handler = none ∧ (pendA.writes.map Prod.fst).Nodup :=
  ⟨by decide +kernel, by decide +kernel, rfl, rfl, rfl, rfl, by decide⟩

/-- StoresEnterStorePath: every size, and st.rel. -/
theorem witness_st : (∀ x ∈ ([0, 2, 4, 5, 6] : List (BitVec 3)), ∀ i ∈ [Instr.st 8 2 x 0x100, .stNt 8 2 x 0xFF], ∃ o ∈ [0x100#9, 0xFF#9],
    loadB stateA teamA i 0 ([2, 3] ++ slotsOfX x.toNat 8) [] .write (fun l => addrOf teamA l 2 o (bytesOfX x.toNat))
      (bytesOfX x.toNat) = true) ∧
    (∀ x ∈ ([0, 1] : List (BitVec 1)), loadB stateA teamA (.stRel 8 2 x 0) 0 ([2, 3] ++ slotsOfX (4 + x.toNat) 8) [] .write
      (fun l => addrOf teamA l 2 0 (bytesOfX (4 + x.toNat))) (bytesOfX (4 + x.toNat)) = true) := by decide +kernel

/-- StorePathPerformsInPlace: an entry of each kind, ready at the front of the store path. -/
def entA (k : StoreKind) : StoreEnt := { seq := 90, core := 0, uid := 7, kind := k, addr := 0x30000603E, data := [1, 2, 3, 4], shown := false, root := placedRoot, grp := 0 }
def stateStores (es : List StoreEnt) : State := { stateA with stores := es }

theorem witness_store_ready : ∀ k ∈ [StoreKind.st, .nt, .rel 4, .red 0 false 4, .red 8 true 5, .scr 7, .fence 4, .ntdrain 4, .launch],
    invB (stateStores [entA k]) = true ∧
    (stateStores [entA k]).stores.find? (fun f => f.seq == (entA k).seq) = some (entA k) ∧
    storeReady (stateStores [entA k]) (entA k) = true ∧
    hopOf (stateStores [entA k]) (entA k).addr (entA k).data.length = 0 ∧ (findTeam (stateStores [entA k]) 7).isSome = true := by
  decide +kernel

/-- FencesDrainAndInvalidate: the default scope, and .cl and .tm. -/
theorem witness_fences : (∀ x ∈ ([0, 1, 2] : List (BitVec 3)), acceptedB stateA teamA (.fence x) [] = true) ∧ scopeIs teamA 4 = 4 ∧
    (let t := teamMod ⟨0, 0, 0, 0, 3, 0, 0⟩
     (∀ x ∈ ([0, 1, 2] : List (BitVec 3)), acceptedB (oneTeam t) t (.fence x) [] = true) ∧ scopeIs t 4 = 3) ∧
    (let t := teamMod ⟨0, 0, 0, 0, 1, 0, 0⟩
     (∀ x ∈ ([0, 1, 2] : List (BitVec 3)), acceptedB (oneTeam t) t (.fence x) [] = true) ∧ scopeIs t 4 < 3) ∧
    NoStores stateA teamA ∧ Accepted stateA teamA .ntdrain [] ∧ Accepted stateA teamA (.pref 2 0) [2, 3] ∧
    lostLanes stateA teamA 0 [2, 3] = [] :=
  ⟨by decide +kernel, by decide +kernel, ⟨by decide +kernel, by decide +kernel⟩, ⟨by decide +kernel, by decide +kernel⟩, no_stores.1,
    accepted_of (by decide +kernel), accepted_of (by decide +kernel), by decide +kernel⟩

/-- AtomicsOnSeparateWords: words of 4 bytes, and of 8 with WID. -/
def team64 : Team := teamMod ⟨0, 0, 0, 0, 0, 0, 4⟩

theorem lanes_apart (n : Nat) (hn : n ≤ 16) : Apart [0, 1, 2] (fun l => 0x300006000 + 16 * l) n := by
  intro l hl m hm h
  simp at hl hm
  dsimp only
  omega

theorem witness_atomics :
    (∀ i ∈ [Instr.atom 12 2 8 0 0, .atom 12 2 8 8 0, .cas 12 2 8 10 0],
      loadB stateA teamA i 0 [2, 3, 8, 10] [12] .atomic (fun l => pairAddr teamA l 2) 4 = true) ∧
    (∀ k ∈ ([0, 8] : List (BitVec 5)), loadB stateA teamA (.red 2 8 k 0) 0 [2, 3, 8] [] .atomic (fun l => pairAddr teamA l 2) 4 = true) ∧
    (∀ i ∈ [Instr.atom 12 2 8 0 0, .cas 12 2 8 10 0, .red 2 8 0 0],
      loadB (oneTeam team64) team64 i 0 [2, 3, 8, 9, 10, 11] [12, 13] .atomic (fun l => pairAddr team64 l 2) 8 = true) ∧
    (let t := teamMod ⟨0, 0, 0, 0, 0, 1, 0⟩
     loadB (oneTeam t) t (.red 2 8 0 0) 0 [2, 3, 8] [] .atomic (fun l => pairAddr t l 2) 4 = true ∧
      (modsOf t).ord.getLsbD 0 = true) ∧
    invB stateA = true ∧ atomBytes (modsOf teamA) = 4 ∧ atomBytes (modsOf team64) = 8 ∧ (modsOf teamA).ord.getLsbD 0 = false ∧
    execLanes stateA teamA 0 = [0, 1, 2] ∧ (∀ l < 3, paOf (pairAddr teamA l 2) = 0x300006000 + 16 * l) ∧
    NoOwedSave stateA teamA (execLanes stateA teamA 0) (fun l => pairAddr teamA l 2) 8 := by
  refine ⟨?_, ?_, ?_, ?_, ?_, ?_, ?_, ?_, ?_, ?_, owed_of ?_⟩ <;> decide +kernel

/-- ScratchAccesses: every size at the lowest offset, and the codes of atoms. -/
theorem witness_scratch :
    (∀ x ∈ ([0, 1, 2, 3, 4, 5, 6] : List (BitVec 3)),
      acceptedB stateA teamA (.lds 12 4 x 0) ([4] ++ slotsOfX x.toNat 12) = true ∧ cleanB stateA teamA 0 [4] = true) ∧
    (∀ x ∈ ([0, 2, 4, 5, 6] : List (BitVec 3)),
      acceptedB stateA teamA (.sts 8 4 x 0) ([4] ++ slotsOfX x.toNat 8) = true ∧
      cleanB stateA teamA 0 ([4] ++ slotsOfX x.toNat 8) = true) ∧
    (∀ m ∈ ([0, 1, 2, 3, 4, 5, 6, 7, 8, 9] : List (BitVec 5)),
      acceptedB stateA teamA (.atoms 12 4 8 m 0) ([4] ++ (if m = 9 then [8, 9] else [8]) ++ [12]) = true ∧
      cleanB stateA teamA 0 ([4] ++ if m = 9 then [8, 9] else [8]) = true) ∧
    (∀ l ∈ execLanes stateA teamA 0, ∀ n ∈ [1, 2, 4, 8, 16], (slot teamA l 4).toNat % n = 0 ∧
      scrAccess stateA teamA (slot teamA l 4) n = some (7, 16 * l) ∧ scrPoisoned teamA (16 * l) n = false) ∧
    findTeam stateA 7 = some teamA := by
  refine ⟨?_, ?_, ?_, ?_, ?_⟩ <;> decide +kernel

theorem scratch_apart : Apart (execLanes stateA teamA 0) (fun l => 16 * l) 4 := by
  rw [(by decide +kernel : execLanes stateA teamA 0 = [0, 1, 2])]
  intro l hl m hm h
  simp at hl hm
  dsimp only
  omega

/-- The machine with its page in a format (R116): the side frame lies at 0x3_0001_0000. -/
def stateFmt (f : Byte) : State :=
  { stateA with
    mem := [(0x100000, 0xE1), (0x100001, 16 * f), (0x100006, 0x30), (0x100008, 0x10), (0x10000A, 0x30), (0x101000, 0x01),
      (0x101005, 0x01), (0x102000, 0x01), (0x102004, 0x01), (0x102005, 0x01), (0x103000, 0x01), (0x103004, 0x02),
      (0x103005, 0x01), (0x300006000, 0x51)] }

/-- The address that a lane's ldx reads in a page of half-byte or byte elements. -/
def xlatFmt (f : Nat) (l : Nat) : Xlat := { pa := 0x300006000 + 16 * l, fmt := f, side := 0x300010000, lvl := 0 }

/-- LdxDecodesElements: a byte format with a scale for every 32 elements, and the format with scales of two levels. -/
theorem witness_ldx : ∀ f ∈ [1, 5], acceptedB (stateFmt (BitVec.ofNat 8 f)) teamA (.ldx 12 2 0) ([2, 3] ++ slotsOfX 6 12) = true ∧
    cleanB (stateFmt (BitVec.ofNat 8 f)) teamA 0 [2, 3] = true ∧
    ∀ l ∈ execLanes (stateFmt (BitVec.ofNat 8 f)) teamA 0,
      translate (stateFmt (BitVec.ofNat 8 f)) teamA.root (addrOf teamA l 2 0 8) .read (some [1, 2, 3, 4, 5]) = .ok (xlatFmt f l) ∧
      (addrOf teamA l 2 0 8).toNat % 8 = 0 ∧ isPeer (xlatFmt f l).pa = false ∧
      readsOwedSave (stateFmt (BitVec.ofNat 8 f)) teamA (addrOf teamA l 2 0 8).toNat 8 = false ∧
      hopOf (stateFmt (BitVec.ofNat 8 f)) (xlatFmt f l).pa 8 = 0 ∧
      (∀ k ∈ (if f = 5 then [elemNo (addrOf teamA l 2 0 8) (xlatFmt f l) / 64,
          2048 + 4 * (elemNo (addrOf teamA l 2 0 8) (xlatFmt f l) / 16384)] else [elemNo (addrOf teamA l 2 0 8) (xlatFmt f l) / 32]),
        lineHop (stateFmt (BitVec.ofNat 8 f)) ((0x300010000 + k) / 64) = 0 ∧
        lineHop (stateFmt (BitVec.ofNat 8 f)) ((0x300010000 + 4096 + k) / 64) = 0 ∧
        ∀ i < 64, homeByte (stateFmt (BitVec.ofNat 8 f)) ((0x300010000 + k) / 64 * 64 + i) =
          homeByte (stateFmt (BitVec.ofNat 8 f)) ((0x300010000 + 4096 + k) / 64 * 64 + i)) := by decide +kernel

/-- PromotionDrainsThenLoads: the issue, a reply with a store of the core under way, and the last reply. -/
def accA : Access := { lane := 0, pa := 0x300006000, va := 0x6000, size := 8, sgn := false, dsts := [regKey 0 12, regKey 0 13] }

theorem witness_promotion :
    loadB stateA teamA (.ldAcqp 12 2 1 0) 0 [2, 3] (slotsOfX 5 12) .read (fun l => addrOf teamA l 2 0 8) 8 = true ∧
    (modsOf teamA).scope = 0 ∧ findCluster stateA teamA.ctx teamA.grid teamA.clus = some clusterA ∧
    (let t := teamOwes (.promote [0] [accA])
     findTeam (stateStores [entA .st]) 7 = some teamA ∧ findTeam (oneTeam t) 7 = some t ∧ t.hold = none ∧
      t.pend = [{ pendA with wait := .promote [0] [accA] }] ∧ 0 ∈ [0] ∧
      peerWriteOut { oneTeam t with stores := [entA .st] } 0 = false) ∧
    (let t := { teamA with pend := [{ pendA with wait := .promote [] [accA], writes := [], vas := [] }] }
     findTeam (oneTeam t) 7 = some t ∧ t.hold = none ∧ isPeer accA.pa = false ∧ hopOf (oneTeam t) accA.pa accA.size = 0 ∧
      (accA.size = 4 ∨ accA.size = 8) ∧ readsOwedSave (oneTeam t) t accA.va.toNat accA.size = false) := by
  refine ⟨?_, ?_, ?_, ⟨?_, ?_, ?_, ?_, ?_, ?_⟩, ⟨?_, ?_, ?_, ?_, ?_, ?_⟩⟩ <;> decide +kernel

/-! ### Witnesses: synchronisation -/

/-- A second team of the cluster, on the core to the east. -/
def teamB : Team := { teamA with uid := 8, index := 1, core := 1 }

def clusterTwo (bars : List Bar) (nodes : List Node) : Cluster := { clusterA with w := 2, bars := bars, nodes := nodes }

/-- The machine with a cluster of two teams. -/
def twoTeams (t b : Team) (k : Cluster) : State := { oneTeam t with teams := [t, b], clusters := [k] }

theorem noTrees_of {s : State} (h : s.teams.all (fun x => x.pend.isEmpty) = true) : NoTrees s := by
  intro x hx p hp
  have := List.all_eq_true.1 h x hx
  rw [List.isEmpty_iff.1 this] at hp
  exact nomatch hp

theorem noQueueWaits_of {s : State} (h : s.teams.all (fun x => x.block.isNone && x.handler.isNone) = true) : NoQueueWaits s := by
  intro x hx b hb
  have := List.all_eq_true.1 h x hx
  simp only [Bool.and_eq_true, Option.isNone_iff_eq_none] at this
  rw [this.1, this.2] at hb
  rcases hb with hb | ⟨_, hb, _⟩ <;> exact nomatch hb

/-- BarriersWaitForAll: cbar with the other team still to come, and with it arrived, at the highest barrier number. -/
theorem witness_cbar :
    (let s := twoTeams teamA teamB (clusterTwo [] [])
     Accepted s teamA (.cbar 3) [] ∧ findCluster s 1 1 0 = some (clusterTwo [] []) ∧ NoStores s teamA ∧ arithLanes teamA = [] ∧
      teamA.place = .resident ∧ teamA.trap = none ∧ teamA.active ≠ 0 ∧ ∃ x ∈ s.teams, x.uid ≠ teamA.uid ∧ inCluster teamA x ∧ x.index ≠ teamA.index ∧
        x.index ∉ (findBar (clusterTwo [] []) 3).arrived) ∧
    (let k := clusterTwo [⟨3, 0, [1]⟩] []
     let b := { teamB with block := some (.cbar 3) }
     let s := twoTeams teamA b k
     Accepted s teamA (.cbar 3) [] ∧ findCluster s 1 1 0 = some k ∧ NoStores s teamA ∧ teamA.handler = none ∧
      (∀ x ∈ s.teams, inCluster teamA x → x.index = teamA.index ∨ x.index ∈ (findBar k 3).arrived) ∧
      findTeam s b.uid = some b ∧ inCluster teamA b ∧ b.handler = none ∧ b.trap = none ∧ b.active ≠ 0) := by
  refine ⟨⟨accepted_of (by decide +kernel), by decide +kernel, fun _ h => (nomatch h), by decide +kernel, rfl, rfl,
    by decide +kernel, teamB, .tail _ (.head _), by decide +kernel, ⟨rfl, rfl, rfl, by decide⟩, by decide +kernel, by decide +kernel⟩,
    accepted_of (by decide +kernel), by decide +kernel, fun _ h => (nomatch h), rfl, fun x hx _ => ?_, by decide +kernel,
    ⟨rfl, rfl, rfl, by decide⟩, rfl, rfl, by decide +kernel⟩
  exact (by decide +kernel : ∀ x ∈ (twoTeams teamA { teamB with block := some (.cbar 3) } (clusterTwo [⟨3, 0, [1]⟩] [])).teams,
    x.index = teamA.index ∨ x.index ∈ (findBar (clusterTwo [⟨3, 0, [1]⟩] []) 3).arrived) x hx

/-- BarriersWaitForAll: a role that nobody holds, and one of a core with a saved team. -/
def roleA : Role := { core := 0, last := 5, held := false }
def stateRole (p : Place) : State := { oneTeam { teamA with place := p } with contexts := [{ ctxA with grids := [{ gridA with roles := [roleA] }] }] }

theorem witness_roles : (∀ p ∈ [Place.resident, .saved], findGrid (stateRole p) 1 1 = some { gridA with roles := [roleA] }) ∧
    (∀ x ∈ (stateRole .resident).teams, x.place ≠ .saved) ∧
    (∃ x ∈ (stateRole .resident).teams, (x.ctx = 1 ∧ x.grid = gridA.num ∧ x.core = roleA.core) ∧ x.place = .resident ∧ x.block = none ∧
      x.live ≠ 0 ∧ logicalIx x = 0) ∧ (∀ x ∈ (stateRole .resident).teams, logicalIx x = 0) ∧
    ∃ x ∈ (stateRole .saved).teams, (x.ctx = 1 ∧ x.grid = gridA.num ∧ x.core = roleA.core) ∧ x.place = .saved := by
  refine ⟨?_, ?_, ?_, ?_, ?_⟩ <;> decide +kernel

/-- Teams of a co-operative grid, and their machine. -/
def coop (t : Team) : Team := { t with hdr := { kernel with mode := 0x10100 } }
def gridCoop (l : List Nat) : Grid := { gridA with hdr := { kernel with mode := 0x10100 }, gbarIn := l }
def stateCoop (l : List Nat) (b : Option Block) : State :=
  { twoTeams (coop teamA) { coop teamB with block := b } (clusterTwo [] []) with contexts := [{ ctxA with grids := [gridCoop l] }] }

theorem witness_gbar :
    (∀ x ∈ ([([], none), ([1], some .gbar)] : List (List Nat × Option Block)),
      acceptedB (stateCoop x.1 x.2) (coop teamA) .gbar [] = true ∧ (coop teamA).hdr.coop = true ∧
      findGrid (stateCoop x.1 x.2) 1 1 = some (gridCoop x.1)) ∧
    (∃ x ∈ (stateCoop [] none).teams, x.uid ≠ 7 ∧ inGrid (coop teamA) x ∧ logicalIx x ≠ logicalIx (coop teamA) ∧
      logicalIx x ∉ (gridCoop []).gbarIn) ∧
    (∀ x ∈ (stateCoop [1] (some .gbar)).teams, logicalIx x = logicalIx (coop teamA) ∨ logicalIx x ∈ (gridCoop [1]).gbarIn) ∧
    (let b := { coop teamB with block := some .gbar }
     findTeam (stateCoop [1] (some .gbar)) b.uid = some b ∧ inGrid (coop teamA) b ∧ b.handler = none ∧ b.trap = none ∧ b.active ≠ 0) ∧
    Accepted stateA teamA .gbar [] ∧ teamA.hdr.coop = false ∧ MayEnter stateA teamA ctxA 0x300000000 0x4000 framesA := by
  refine ⟨by decide +kernel, ⟨coop teamB, .tail _ (.head _), by decide +kernel, ⟨rfl, rfl, by decide⟩, by decide +kernel,
    by decide +kernel⟩, by decide +kernel, ⟨by decide +kernel, ⟨rfl, rfl, by decide⟩, rfl, rfl, by decide +kernel⟩,
    accepted_of (by decide +kernel), by decide +kernel, test_machine_may_enter⟩

/-- ReductionsOnTheMesh: a mred with the longest window. -/
theorem witness_mred : findCluster stateA 1 1 0 = some clusterA ∧ NoTrees stateA ∧ Accepted stateA teamA (.mred 8 14 3 1) [8, 14] ∧
    packetHeld clusterA teamA 3 = false ∧
    (∀ j < 32, slotPoisoned teamA j 8 = false ∧ readsPending stateA teamA j [8] = false) ∧ goodSlot stateA teamA 14 ∧
    (slot teamA (lowLane teamA.active) 14).toNat = 2 ^ 24 - 1 :=
  ⟨by decide +kernel, noTrees_of (by decide +kernel), accepted_of (by decide +kernel), by decide +kernel, by decide +kernel,
    good_of (by decide +kernel), by decide +kernel⟩

/-- A packet of ones of some node, and nodes that hold it. -/
def packetA (i : Nat) : Packet := { elems := List.replicate 32 (some 0x3F800000), contrib := BitVec.ofNat 16 (2 ^ i), expired := false, bad := 0 }
def nodeOf (n : Nat) (ins : List (Nat × Packet)) : Node :=
  { newNode 0 n 0 with own := some (packetA n), win := 1, start := some 0, inputs := ins }
def teamPosted : Team := { teamA with mredCount := teamA.mredCount.set 0 1 }

theorem witness_mredw : ∀ ins ∈ [[], [(1, packetA 1)]],
    acceptedB (twoTeams teamPosted teamB (clusterTwo [] [nodeOf 0 ins])) teamPosted (.mredw 12 0) (slotsOfX 6 12) = true ∧
    teamPosted.index = 0 ∧ packetHeld (clusterTwo [] [nodeOf 0 ins]) teamPosted 0 = true ∧
    findNode (clusterTwo [] [nodeOf 0 ins]) 0 0 (mreds teamPosted 0 - 1) = some (nodeOf 0 ins) ∧
    nodeReady (twoTeams teamPosted teamB (clusterTwo [] [nodeOf 0 ins])) (clusterTwo [] [nodeOf 0 ins]) (nodeOf 0 ins) = !ins.isEmpty ∧
    mixedTree (clusterTwo [] [nodeOf 0 ins]) 0 0 = false ∧ (nodeSum (clusterTwo [] [nodeOf 0 ins]) (nodeOf 0 ins)).bad = 0 ∧
    teamPosted.handler = none ∧ teamPosted.pend = [] ∧
    (∀ i < 4, ∀ j < 4, slotReg teamPosted (12 + i) = slotReg teamPosted (12 + j) → i = j) ∧
    ∀ x ∈ (twoTeams teamPosted teamB (clusterTwo [] [nodeOf 0 ins])).teams, x.index = 0 → x.uid = 7 := by decide +kernel

/-- A partial on its way from node 1 to the root. -/
def partA : Partial :=
  { ctx := 1, grid := 1, clus := 0, ch := 0, k := 0, src := 1, dst := 0, col := false, win := 1, packet := packetA 1 }

theorem witness_mesh :
    (let k := clusterTwo [] [nodeOf 1 []]
     let s := twoTeams teamA teamB k
     s.clusters[0]? = some k ∧
      k.nodes.find? (fun x => x.ch == 0 && x.node == 1 && !x.sent && nodeReady s k x) = some (nodeOf 1 []) ∧ 1 < k.w * k.h ∧
      findCluster s k.ctx k.grid k.lin = some k) ∧
    (∀ sent ∈ [true, false],
      let x := { nodeOf 0 [] with sent := sent }
      let k := clusterTwo [] [x]
      let s := { twoTeams teamPosted teamB k with partials := [partA] }
      s.partials[0]? = some partA ∧ findCluster s 1 1 0 = some k ∧ reductionOver s k partA = sent ∧ findNode k 0 0 0 = some x ∧
        childLate s k x 1 = false) ∧
    (let k := clusterTwo [] [nodeOf 0 []]
     let s := { twoTeams teamPosted teamB k with clk := 2 }
     s.clusters[0]? = some k ∧ 1 ∈ treeChildren k false 0 ∧ childLate s k (nodeOf 0 []) 1 = true ∧
      (nodeOf 0 []).inputs.all (fun i => i.1 != 1) = true ∧ 1 ∉ (nodeOf 0 []).gaveUp) ∧
    NoTrees (twoTeams teamPosted teamB (clusterTwo [] [])) :=
  ⟨by decide +kernel, by decide +kernel, by decide +kernel, noTrees_of (by decide +kernel)⟩

/-- WaitsAndHangs: memory at 0x6000 reads as 0, the comparand is 5. -/
theorem word_here : wordHere stateA teamA (pairAddr teamA 0 2) 0 :=
  ⟨by decide +kernel, by decide +kernel, ⟨0x300006000, 0, 0, 0⟩, by decide +kernel, by decide +kernel, by decide +kernel, by decide +kernel⟩

theorem witness_wait : teamA.active ≠ 0 ∧ Accepted stateA teamA (.wait 12 2 8 1 5) [2, 3, 8, 12] ∧ Accepted stateA teamA (.wait 12 2 8 0 0) [2, 3, 8, 12] ∧
    NoStores stateA teamA ∧ goodSlot stateA teamA 2 ∧ goodSlot stateA teamA 3 ∧ goodSlot stateA teamA 8 ∧ slotReg teamA 12 = some 12 ∧
    wordHere stateA teamA (pairAddr teamA (lowLane teamA.active) 2) 0 ∧
    condHolds 5 0 (slot teamA (lowLane teamA.active) 8) ∧ ¬ condHolds 0 0 (slot teamA (lowLane teamA.active) 8) := by
  refine ⟨by decide +kernel, accepted_of (by decide +kernel), accepted_of (by decide +kernel), fun _ h => (nomatch h), good_of (by decide +kernel),
    good_of (by decide +kernel), good_of (by decide +kernel), by decide +kernel, ?_, ?_, ?_⟩
  · rw [(by decide +kernel : lowLane teamA.active = 0)]; exact word_here
  · rw [(by decide +kernel : slot teamA (lowLane teamA.active) 8 = 5)]; show BitVec.toInt 0 < BitVec.toInt 5; decide
  · rw [(by decide +kernel : slot teamA (lowLane teamA.active) 8 = 5)]; show ¬ BitVec.toNat 0 = BitVec.toNat 5; decide

/-- A team blocked in a wait. -/
def teamWaits (k : Nat) (lim : Bool) : Team := { teamA with block := some (.wait true k 12 0x6000 5 0 0 lim) }

/-- The context with a hang limit of 2 cycles and an external limit of 2. -/
def ctxHang : Context := { ctxA with hang := 0x0101, hangCount := 2 }

theorem witness_wakeup : ∀ k ∈ [0, 5], let t := teamWaits k false
    let s := { oneTeam t with contexts := [ctxHang], clk := 2 }
    findTeam s t.uid = some t ∧ t.place = .resident ∧ t.trap = none ∧ t.block = some (.wait true k 12 0x6000 5 0 0 false) ∧ 12 < 256 ∧ k ≤ 5 ∧
      (condHolds k 0 5 ↔ k = 5) ∧ findCtx s t.ctx = some ctxHang ∧ ctxHang.xlog ≠ 0 ∧ 0 + 2 ^ ctxHang.xlog ≤ s.clk.toNat := by
  intro k hk
  simp only [List.mem_cons, List.not_mem_nil, or_false] at hk
  rcases hk with rfl | rfl
  · refine ⟨by decide +kernel, rfl, rfl, rfl, by decide, by decide, ?_, by decide +kernel, by decide +kernel, by decide +kernel⟩
    show (BitVec.toNat 0 = BitVec.toNat 5) ↔ _
    decide
  · refine ⟨by decide +kernel, rfl, rfl, rfl, by decide, by decide, ?_, by decide +kernel, by decide +kernel, by decide +kernel⟩
    show (BitVec.toInt 0 < BitVec.toInt 5) ↔ _
    decide

theorem witness_wakeup_word : wordHere { oneTeam (teamWaits 5 false) with contexts := [ctxHang], clk := 2 } (teamWaits 5 false) 0x6000 0 :=
  ⟨by decide +kernel, by decide +kernel, ⟨0x300006000, 0, 0, 0⟩, by decide +kernel, by decide +kernel, by decide +kernel, by decide +kernel⟩

theorem witness_hang : let t := { teamA with block := some (.cbar 0) }
    let s := { oneTeam t with contexts := [ctxHang] }
    findCtx s 1 = some ctxHang ∧ ctxHang.hlog ≠ 0 ∧ 2 ^ ctxHang.hlog ≤ ctxHang.hangCount ∧ findTeam s t.uid = some t ∧
      s.teams.filter (fun x => x.ctx == 1 && hangWaiting s x) = [t] := by
  refine ⟨?_, ?_, ?_, ?_, ?_⟩ <;> decide +kernel

/-! ### Witnesses: roots, leases, launches, calls, returns, queues -/

/-- A harvest team; its lease request is 5 granules. -/
def teamHarv : Team := { teamA with hdr := { kernel with mode := 0x10400, scratch := 4096 } }

/-- RootPinAndLeases: requests of 0, 5, 64 and 65 granules, of which the core has 128 to give; one by a team that holds some; and
one of a core whose granules are all still to be scrubbed. -/
theorem witness_lease : Accepted stateA teamA .trefresh [] ∧ findCtx stateA teamA.ctx = some ctxA ∧
    (∀ n ∈ [0, 5, 64, 65], let t := { teamHarv with regs := lanes3 [(8, fun _ => n)] }
      acceptedB (oneTeam t) t (.lease 12 8 0) [8, 12] = true ∧ t.hdr.harvest = true ∧ goodB (oneTeam t) t 8 = true ∧
      (leadWord t 8).toNat = n ∧ headerB (oneTeam t) t (wordAfter t + BitVec.ofInt 32 (4 * immSigned (extOf t) 0)) = true) ∧
    teamHarv.active ≠ 0 ∧ slotReg teamHarv 12 = some 12 ∧
    (leasable (oneTeam teamHarv) 0).length = 128 ∧ acceptedB (oneTeam { teamHarv with leases := [3] }) { teamHarv with leases := [3] }
      (.lease 12 8 0) [8, 12] = true ∧
    (let s := { oneTeam teamHarv with cores := [{ freshCore 0 with scrub := List.range 128 }] }
     acceptedB s teamHarv (.lease 12 8 0) [8, 12] = true ∧ (leasable s 0).length < 5) ∧
    Accepted (oneTeam teamHarv) teamHarv .unlease [] ∧ teamHarv.hdr.harvest = true ∧ NoStores (oneTeam teamHarv) teamHarv :=
  ⟨accepted_of (by decide +kernel), by decide +kernel, by decide +kernel, by decide +kernel, by decide +kernel, by decide +kernel,
    by decide +kernel, by decide +kernel, accepted_of (by decide +kernel), by decide +kernel, fun _ h => (nomatch h)⟩

/-- The bytes of the team's own scratchpad at a scratch address. -/
def blockOf (t : Team) (w : Word) (n : Nat) : List Byte := (List.range n).map (fun i => sget 0 t.scr (w.toNat % 2 ^ 24 + i))

def blockB (t : Team) (w : Word) (n : Nat) : Bool :=
  decide (w.toNat / 2 ^ 24 = 16) && decide (w.toNat % n = 0) && decide (w.toNat % 2 ^ 24 + n ≤ t.hdr.scrAlloc) && t.scrBad.isEmpty

theorem block_of {t : Team} {w : Word} {n : Nat} (h : blockB t w n = true) : OwnBlock t w n (blockOf t w n) := by
  simp only [blockB, Bool.and_eq_true, decide_eq_true_eq, List.isEmpty_iff] at h
  exact ⟨h.1.1.1, h.1.1.2, .inl h.1.2, fun i _ => by rw [h.2]; rfl, rfl⟩

/-- A launch descriptor of one cluster at scratch offset 0; badAt puts another byte in it. -/
def teamLaunch (extra : List (Nat × Byte)) : Team := { teamA with scr := sputs 0 [(24, 1), (28, 1), (32, 1)] extra }

/-- A context with as many grids as its queue takes. -/
def ctxFull : Context := { ctxA with grids := List.replicate 256 gridA }

/-- LaunchAndFirmwareCall: a well-formed descriptor, also with indirect sizes; one with a misaligned PARAM; a full queue. -/
theorem witness_launch :
    (∀ ex ∈ [[], [(38, 1), (24, 0), (28, 0), (32, 0)], [(16, 1)]],
      acceptedB (oneTeam (teamLaunch ex)) (teamLaunch ex) (.launch 12 4) [4, 12] = true ∧
      goodB (oneTeam (teamLaunch ex)) (teamLaunch ex) 4 = true ∧
      blockB (teamLaunch ex) (leadWord (teamLaunch ex) 4) 64 = true ∧
      acceptedB (oneTeam (teamLaunch ex)) (teamLaunch ex) (.fwcall 12 4 0x25) [4, 12, 13] = true) ∧
    (teamLaunch []).active ≠ 0 ∧ slotReg teamA 12 = some 12 ∧ findCtx stateA 1 = some ctxA ∧
    NoStores (oneTeam (teamLaunch [])) (teamLaunch []) ∧ LaunchFine (blockOf (teamLaunch []) 0x10000000 64) ∧
    LaunchFine (blockOf (teamLaunch [(38, 1), (24, 0), (28, 0), (32, 0)]) 0x10000000 64) ∧
    ¬ LaunchFine (blockOf (teamLaunch [(16, 1)]) 0x10000000 64) ∧
    (ctxA.grids.filter Grid.entered).length < 256 ∧ 256 ≤ (ctxFull.grids.filter Grid.entered).length := by
  refine ⟨by decide +kernel, by decide +kernel, by decide +kernel, by decide +kernel, fun _ h => (nomatch h), ?_, ?_, ?_,
    by decide +kernel, by decide +kernel⟩ <;> unfold LaunchFine <;> decide +kernel

/-- A team in its handler, entered at the word 1 of the clause at 0x9000. -/
def handA (blk : Option Block) : Handler :=
  { binds := teamA.binds, base := 0, rmask := 7, amask := 7, block := blk, frameVa := 0x4000, hdrPc := 0x9000, wix := 1, pc := 0x9000
    stop := 1, clause := teamA.clause, delivered := [], illHdr := false }
def teamHand : Team := { teamA with handler := some (handA none) }

/-- Its machine: the frame holds the place and lanes 0 to 2. -/
def stateHand (t : Team) : State :=
  { oneTeam t with mem := sputs 0 tree [(0x300004001, 0x90), (0x300004004, 1), (0x300004010, 7)] }

theorem witness_tret : ∀ k ∈ ([0, 1] : List (BitVec 1)), Accepted (stateHand teamHand) teamHand (.tret k) [] ∧
    handlerIdle (stateHand teamHand) teamHand = true ∧ NoStores (stateHand teamHand) teamHand ∧
    (handA none).delivered = [] ∧ (handA none).block = none ∧ (handA none).wix = (handA none).stop ∧ (handA none).stop ≠ 0 ∧
    framePas (stateHand teamHand) teamHand 0x4000 = some framesA ∧ teamHand.hdr.regs ≤ 256 ∧
    (∀ i < 1024 + 4096 * teamHand.hdr.grps, lineHop (stateHand teamHand) ((framesA.getD (i / 1024) 0 + i % 1024) / 64) = 0) ∧
    leNat (fun j => homeByte (stateHand teamHand) (framesA.getD (j / 1024) 0 + j % 1024)) 4 = 0x9000 ∧
    (homeByte (stateHand teamHand) (framesA.getD (4 / 1024) 0 + 4 % 1024)).toNat = 1 ∧
    (∀ l < 1024, (7 : Mask).getLsbD l = true ↔
      (homeByte (stateHand teamHand) (framesA.getD ((16 + l / 8) / 1024) 0 + (16 + l / 8) % 1024)).getLsbD (l % 8) = true ∧
        (7 : Mask).getLsbD l = true ∧ teamHand.live.getLsbD l = true) ∧ (7 : Mask) &&& teamHand.live ≠ 0 := by
  intro k hk
  refine ⟨accepted_of ((by decide +kernel : ∀ k ∈ ([0, 1] : List (BitVec 1)), acceptedB (stateHand teamHand) teamHand (.tret k) [] = true) k hk),
    by decide +kernel, fun _ h => (nomatch h), rfl, rfl, rfl, by decide, by decide +kernel, by decide +kernel, fun _ _ => rfl, by decide +kernel, by decide +kernel, by decide +kernel, by decide +kernel⟩

theorem witness_tret_waits : let t := { teamHand with pend := [{ pendA with handler := true }] }
    Accepted (stateHand t) t (.tret 0) [] ∧ handlerIdle (stateHand t) t = false :=
  ⟨accepted_of (by decide +kernel), by decide +kernel⟩

/-- A queue of two entries at scratch offset 0; its producer is the team itself. -/
def queueA (es : List (DWord × Nat)) (n : Nat) : SQueue :=
  { q := 0, base := 0, lcap := 1, head := 0, tail := es.length % 2, entries := es, pmask := 1, allow := n :: List.replicate 15 0 }
def teamQueue (es : List (DWord × Nat)) (n : Nat) : Team := { teamA with queues := [queueA es n], scr := [(0, 9)] }

/-- QueuesPassHandles: what the operands, predicate and lead lane of a queue instruction are, by computation. -/
def knownB (s : State) (t : Team) (ns : List Nat) : Bool :=
  (lanesOf t.active).all (fun l => ns.all (fun n => !slotPoisoned t l n && !readsPending s t l [n]))

theorem known_of {s : State} {t : Team} {ns : List Nat} (h : knownB s t ns = true) {l : Nat} (hl : l ∈ lanesOf t.active) :
    knownIn s t l ns := by
  intro n hn
  simpa using List.all_eq_true.1 (List.all_eq_true.1 h l hl) n hn

/-- Such an instruction with predicate p on a team that is alone and resident; a predicate that selects lanes selects lane 0. -/
def queueB (t : Team) (i : Instr) (p : BitVec 2) (srcs dsts : List Nat) : Bool :=
  acceptedB (oneTeam t) t i (srcs ++ predSlot p ++ dsts) && knownB (oneTeam t) t (srcs ++ predSlot p)

/-- A team whose v30 is odd in lane 0 only, and whose v31 is even: p = 1 selects no lane, 2 every lane and 3 lane 0. -/
def withPred (t : Team) : Team := { t with regs := sput 0 t.regs (regKey 0 30) 1 }

theorem witness_picked : picked (withPred teamA) 1 = [] ∧ picked (withPred teamA) 0 = [0, 1, 2] ∧ picked (withPred teamA) 2 = [0, 1, 2] ∧
    picked (withPred teamA) 3 = [0] ∧ teamA.place = .resident ∧
    ∀ x ∈ ([(.qinit 4 8 1, [4, 8], []), (.qsend 4 8 1, [4, 8, 9], []), (.qrecv 12 4 1, [4], [12, 13]),
      (.qtry 12 4 1, [4], [12, 13, 14, 15])] : List (Instr × List Nat × List Nat)),
      queueB (withPred teamA) x.1 1 x.2.1 x.2.2 = true := by
  refine ⟨?_, ?_, ?_, ?_, ?_, ?_⟩ <;> decide +kernel

theorem witness_leads (p : BitVec 2) (hp : p ≠ 1) : Leads (withPred teamA) p 0 := by
  have h : ∀ p : BitVec 2, p ≠ 1 → 0 ∈ picked (withPred teamA) p := by decide +kernel
  exact ⟨h p hp, fun _ _ => Nat.zero_le _⟩

/-- The control words of qinit for the largest ring with every producer, and for closing. -/
def teamInit (cw : Nat) : Team :=
  withPred { teamA with regs := lanes3 [(4, fun _ => 0x10000000), (8, fun _ => cw)], queues := [queueA [] 2] }

theorem witness_qinit :
    (∀ cw ∈ [0xFFFF0801, 0x00000000], ∀ p : BitVec 2, queueB (teamInit cw) (.qinit 4 8 p) p [4, 8] [] = true ∧
      (slot (teamInit cw) 0 8).toNat = cw) ∧
    blockB (teamInit 0xFFFF0801) 0x10000000 (8 * 2 ^ 8) = true ∧ slot (teamInit 0xFFFF0801) 0 4 = 0x10000000 ∧
    findQueue (teamInit 0xFFFF0801) 1 = none ∧ 2 ^ 8 / popCount16 0xFFFF ≠ 0 ∧
    findQueue (teamInit 0) 0 = some (queueA [] 2) ∧ (queueA [] 2).entries = [] := by
  refine ⟨?_, ?_, ?_, ?_, ?_, ?_, ?_⟩ <;> decide +kernel

theorem own_block_8 : OwnBlockAt { teamInit 0xFFFF0801 with scrBad := [] } 0x10000000 8 (8 * 2 ^ 8)
    (blockOf (teamInit 0xFFFF0801) 0x10000000 (8 * 2 ^ 8)) :=
  ⟨by decide +kernel, by decide +kernel, .inl (by decide +kernel), fun _ _ => rfl, rfl⟩

theorem witness_qsend : ∀ n ∈ [0, 1], ∀ p : BitVec 2, let t := withPred (teamQueue [(9, 0)] n)
    queueB t (.qsend 4 8 p) p [4, 8, 9] [] = true ∧ queueName (oneTeam t) t (slot t 0 4) = some (t, 0) ∧
      findTeam (oneTeam t) 7 = some t ∧ findQueue t 0 = some (queueA [(9, 0)] n) ∧ (queueA [(9, 0)] n).pmask.getLsbD 0 = true ∧
      (queueA [(9, 0)] n).allow.getD 0 0 = n := by decide +kernel

theorem witness_qrecv : ∀ es ∈ ([[], [(9, 0)]] : List (List (DWord × Nat))), ∀ p : BitVec 2, let t := withPred (teamQueue es 1)
    queueB t (.qrecv 12 4 p) p [4] [12, 13] = true ∧ queueB t (.qtry 12 4 p) p [4] [12, 13, 14, 15] = true ∧
      queueName (oneTeam t) t (slot t 0 4) = some (t, 0) ∧ findQueue t 0 = some (queueA es 1) ∧
      (List.range 8).map (fun i => sget 0 t.scr (0 + 8 * (0 % 2 ^ 1) + i)) = bytesOf 8 9 := by decide +kernel

theorem no_queue_waits : NoQueueWaits (oneTeam (teamQueue [] 1)) ∧ NoStores (oneTeam (teamQueue [] 1)) (teamQueue [] 1) :=
  ⟨noQueueWaits_of (by decide +kernel), fun _ h => (nomatch h)⟩

/-! ### Witnesses: the copy engine -/

/-- The team with a copy descriptor at scratch offset 0: four bytes from 0x6000 to 0x7000; extra bytes change it. -/
def teamCopy (extra : List (Nat × Byte)) : Team :=
  { teamA with scr := sputs 0 [(1, 0x60), (9, 0x70), (32, 4), (36, 1), (40, 1)] extra }

/-- The changes that make it a descriptor of tcopyx with two dimensions, of an 8-byte tfill, and of queue 1. -/
def asExtent : List (Nat × Byte) := [(1, 0), (19, 1), (44, 1), (52, 4)]
def asFill : List (Nat × Byte) := [(1, 0), (18, 0x66), (36, 0)]

theorem witness_copies :
    (let t := teamCopy []
     acceptedB (oneTeam t) t (.tcopy 4 1) [4] = true ∧ acceptedB (oneTeam t) t (.tcopy 4 2) [4] = true ∧
      acceptedB (oneTeam t) t (.tcopyY 4 0) [4] = true ∧ goodB (oneTeam t) t 4 = true ∧ blockB t (leadWord t 4) 128 = true ∧
      copyChecks (parseCopy (issueOf (oneTeam t) t none) .copy (blockOf t (leadWord t 4) 128)) (blockOf t (leadWord t 4) 128) = [] ∧
      headerB (oneTeam t) t (target t 0) = true) ∧
    (let t := teamCopy asExtent
     acceptedB (oneTeam t) t (.tcopyx 4 8 0) [4, 8] = true ∧ goodB (oneTeam t) t 8 = true ∧
      copyChecks (parseCopy (issueOf (oneTeam t) t none) (.extent (leadWord t 8)) (blockOf t (leadWord t 4) 128))
        (blockOf t (leadWord t 4) 128) = []) ∧
    (let t := teamCopy asFill
     acceptedB (oneTeam t) t (.tfill 4 8 0) [4, 8] = true ∧ goodB (oneTeam t) t 8 = true ∧ goodB (oneTeam t) t 9 = true ∧
      (slotReg t 9).isSome = true ∧ fieldAt (blockOf t (leadWord t 4) 128) 16 4 / 2 ^ 16 % 16 = 6 ∧
      copyChecks (parseCopy (issueOf (oneTeam t) t none) (.fill 0) (blockOf t (leadWord t 4) 128)) (blockOf t (leadWord t 4) 128) = []) ∧
    (∀ sel ∈ [0, 1, 2, 3, 4], acceptedB stateA teamA (.tquery 12 (BitVec.ofNat 12 sel)) [12] = true) ∧
    slotReg teamA 12 = some 12 := by
  refine ⟨?_, ?_, ?_, ?_, ?_⟩ <;> decide +kernel

theorem witness_copy_room : CopyRoom (oneTeam (teamCopy [])) (teamCopy []) ∧ NoStores (oneTeam (teamCopy [])) (teamCopy []) := by
  refine ⟨fun q => ?_, fun _ h => (nomatch h)⟩
  cases q <;> exact ⟨by decide +kernel, fun _ h => (nomatch h)⟩

/-- Issue data of a command of the team. -/
def issA (q : Nat) : Issue :=
  { seq := q, uid := 7, core := 0, pc := 0x9000, word := 0, flag := some 0, grp := 0, lmask := 7, root := placedRoot, bound := 0
    handler := false, record := none, undo := [], undoBad := [], stood := 0 }

/-- A copy command of n elements of one byte, and of one from an address that is not mapped. -/
def copyA (n : Nat) (src : DWord) (st : Stage) : CopyCmd :=
  { iss := issA 50, kind := .copy, src := src, dst := 0x7000, ctl := 0, xlst := 0, dims := [(n, 1, 1)], stage := st, n := 0, born := 0
    mark := 0, draw := 0 }

/-- The machine with a core that holds commands. -/
def stateCore (c : CoreSt) : State := { stateA with cores := [c] }
def stateCopies (l : List CopyCmd) : State := stateCore { freshCore 0 with copy0 := l }

/-- A frozen copy command. -/
def copyFrozen (n : Nat) : CopyCmd := { copyA 4 0x6000 .frozen with n := n }

/-- CopyCommandsQueue: tquery of a frozen command. -/
theorem witness_tquery : let s := stateCopies [copyFrozen 3]
    ((coreOf s 0).copy0 ++ (coreOf s 0).copy1).filter (fun x => x.iss.uid == 7) = [copyFrozen 3] ∧
      acceptedB s teamA (.tquery 12 4) [12] = true := by
  refine ⟨?_, ?_⟩ <;> decide +kernel

/-- CopyEngineRuns: the start of a command of 65,536 bytes, and of one byte more that has its leave. -/
theorem witness_copy_start :
    (let s := stateCopies [copyA 65536 0x6000 .waiting]
     copyFront s 0 false = some (copyA 65536 0x6000 .waiting) ∧ s.bubble = none ∧
      ((copyA 65536 0x6000 .waiting).ne * copyNibs (copyA 65536 0x6000 .waiting).dfmt + 1) / 2 ≤ 65536) ∧
    (let s := { stateCopies [copyA 65537 0x6000 .asking] with dies := State.reset.dies.set 0 { Die.reset with granted := [50] } }
     copyFront s 0 false = some (copyA 65537 0x6000 .asking) ∧ 50 ∈ (dieOf s (dieOfCore 0)).granted) ∧
    ∀ e ∈ (stateCopies []).stores, e.uid ≠ 7 ∧ ¬ (e.core = 0 ∧ e.shown = true) := by
  refine ⟨?_, ?_, ?_⟩ <;> decide +kernel

/-- CopyEngineRuns: an encode of 131,072 elements of half a byte needs no leave. -/
theorem witness_encode_start : let c := { copyA 131072 0x6000 .waiting with ctl := 0x60000000 }
    let s := { stateFmt 4 with cores := [{ freshCore 0 with copy0 := [c] }] }
    copyFront s 0 false = some c ∧ s.bubble = none ∧ c.mode = 3 ∧ (c.ne * pageNibs s c.iss.root c.dst + 1) / 2 ≤ 65536 := by
  refine ⟨?_, ?_, ?_, ?_⟩ <;> decide +kernel

theorem witness_copy_complete : let s := stateCopies [copyA 4 0x6000 .running]
    let c := copyA 4 0x6000 .running
    copyFront s 0 false = some c ∧ invB s = true ∧ c.stage = .running ∧ c.n = 0 ∧ c.mode ≠ 3 ∧ 2 ≤ copyNibs c.dfmt ∧
      s.journal.length ≤ c.born ∧ s.journal.length ≤ c.mark ∧ c.ne = 4 ∧ copyNibs c.dfmt / 2 = 1 ∧
      (∀ n < 4, copyVal s c n = (s, .val 0 [0x300006000 + n]) ∧ copyDst s c n = (2 * (0x300007000 + n), none) ∧
        isPeer (0x300007000 + n) = false ∧ 0x300007000 + n + 1 ≤ 2 ^ 46) ∧ (∀ m < 4, ∀ n < 4, ¬ (0x300007000 + n ≤ 0x300006000 + m)) ∧
      findTeam s 7 = some teamA ∧ teamA.block = none := by
  refine ⟨?_, ?_, ?_, ?_, ?_, ?_, ?_, ?_, ?_, ?_, ?_, ?_, ?_, ?_⟩ <;> decide +kernel

theorem witness_copy_freeze : let s := stateCopies [copyA 4 0x10000 .running]
    copyFront s 0 false = some (copyA 4 0x10000 .running) ∧ ((copyFault s (copyA 4 0x10000 .running)).map Prod.fst) = some 0 := by
  refine ⟨?_, ?_⟩ <;> decide +kernel

/-! ### Witnesses: the matrix array -/

theorem witness_matrix_accepted : ∀ x ∈ ([(.wload 2 8 1 5 0, [2, 3, 8]), (.wload 4 8 0 0 1, [4, 8]), (.mswap, []), (.mzero 0 0, []),
      (.mma 0 0 2 0 4 0, seqFrom 0 16), (.mma 0 16 0 0 5 1, seqFrom 0 16 ++ [16]), (.mmas 4 8 0 0 0 0, [4, 8]),
      (.mscale 8 0 0, [8]), (.mdrain 2 8 0 0 5 0, [2, 3, 8, 9]), (.mdrain 4 8 0 0 0 1, [4, 8, 9]), (.mread 16 3 0, seqFrom 16 8),
      (.scfg 4 8 0, [4, 8, 9]), (.sieve 4 8 0, [4, 8]), (.mmak 4 8 0 0 12, [4, 8, 12, 9]), (.mfence, [])] : List (Instr × List Nat)), acceptedB stateA teamA x.1 x.2 = true := by decide +kernel

theorem witness_matrix_operands : matUsed stateA 0 < 32 ∧ NoStores stateA teamA ∧ (∀ n ∈ [2, 3, 4, 8, 9], goodB stateA teamA n = true) ∧
    0 + 0 + 1 ≤ teamA.hdr.accum ∧ 0 + teamA.hdr.grps ≤ teamA.hdr.accum ∧ (leadWord teamA 8).toNat % 256 ≤ 127 ∧
    (leadWord teamA 4).toNat % 16 = 0 ∧ (leadWord teamA 8).toNat / 256 % 4 = 0 ∧ teamA.hdr.harvest = false ∧
    (slot teamA (lowLane teamA.active) 9).toNat / 2 ^ 12 % 16 = 0 ∧ (slot teamA (lowLane teamA.active) 9).getLsbD 3 = false ∧
    blockB teamA (leadWord teamA 4) 32 = true ∧ sieveBad (blockOf teamA (leadWord teamA 4) 32) = false ∧
    slotReg teamA 8 = some 8 ∧ slotReg teamA 9 = some 9 ∧
    (∀ l < 32, slotPoisoned teamA l 12 = false ∧ readsPending stateA teamA l [12] = false) := by
  refine ⟨by decide +kernel, fun _ h => (nomatch h), ?_, ?_, ?_, ?_, ?_, ?_, ?_, ?_, ?_, ?_, ?_, ?_, ?_, ?_⟩ <;> decide +kernel

/-- MatrixCommandsQueue: mdrain's operands, whose stride is a multiple of 16. -/
theorem witness_mdrain : let t := { teamA with regs := lanes3 [(2, fun _ => 0x6000), (4, fun _ => 0x10000000), (8, fun _ => 0x20), (9, fun _ => 127)] }
    acceptedB (oneTeam t) t (.mdrain 2 8 0 0 5 0) (baseAt 2 0 ++ [8, 9]) = true ∧ (leadBase t 2 0).toNat % 16 = 0 ∧
      (leadBase t 4 1).toNat % 16 = 0 ∧ (leadWord t 8).toNat % 16 = 0 ∧ (slot t (lowLane t.active) 9).toNat % 256 ≤ 127 := by
  refine ⟨?_, ?_, ?_, ?_, ?_⟩ <;> decide +kernel

theorem witness_mpair : (twoTeams teamA teamB (clusterTwo [] [])).teams.filter (fun x =>
    x.ctx == teamA.ctx && x.grid == teamA.grid && x.clus == teamA.clus && x.core == teamA.core ^^^ 1) = [teamB] ∧
    (∀ o ∈ ([0, 1] : List (BitVec 1)), acceptedB (twoTeams teamA teamB (clusterTwo [] [])) teamA (.mpair o) [] = true) ∧
    matUsed (twoTeams teamA teamB (clusterTwo [] [])) 0 < 32 := by
  refine ⟨?_, ?_, ?_⟩ <;> decide +kernel

/-- A matrix command. -/
def matA (q : Nat) (op : MatOp) (st : Stage) : MatCmd :=
  { iss := issA q, op := op, stage := st, n := 0, swapped := false, buf := [], cfg := none, pair := none, posted := none, taint := []
    gone := [], mark := 0, tag := 0, read := [] }
def stateMat (l : List MatCmd) : State := stateCore { freshCore 0 with mat := l }

/-- MatrixCommandsQueue: a full queue. -/
theorem witness_matrix_full : let s := stateMat ((List.range 32).map (fun q => matA q .mswap .waiting))
    32 ≤ matUsed s 0 ∧ acceptedB s teamA .mswap [] = true ∧
      (let s := { twoTeams teamA teamB (clusterTwo [] []) with cores := s.cores }
       32 ≤ matUsed s 0 ∧ acceptedB s teamA (.mpair 1) [] = true) := by
  refine ⟨?_, ?_, ?_⟩ <;> decide +kernel

/-- MatrixCommandsStartOrFreeze: an mma with SW that has its leave, and an mzero, which needs none. -/
theorem witness_matrix_start :
    (let c := matA 60 (.mma (List.range 16) none 0 4 true 7) .asking
     let s := { stateMat [c] with dies := State.reset.dies.set 0 { Die.reset with granted := [60] } }
     matFront s 0 = some c ∧ s.bubble = none ∧ c.op.heavy = true ∧ 60 ∈ (dieOf s (dieOfCore 0)).granted ∧
      findTeam s c.iss.uid = some teamA) ∧
    (let c := matA 60 (.mzero 1 0) .waiting
     matFront (stateMat [c]) 0 = some c ∧ c.op.heavy = false ∧ c.op ≠ .mfence) := by
  refine ⟨?_, ?_⟩ <;> decide +kernel

theorem runs_of {s : State} {core : Nat} {c : MatCmd} {t : Team} (h : matFront s core = some c) (hb : s.bubble = none)
    (hr : c.stage = .running) (ha : c.pair = none ∧ c.posted = none) (hn : c.n = 0) (ht : findTeam s c.iss.uid = some t)
    (hs : c.taint = [] ∧ t.tileBad = [] ∧ t.plane.bad = [] ∧ t.regBad = []) : MatRuns s core c t := ⟨h, hb, hr, ha, hn, ht, hs⟩

theorem witness_matrix_freeze : let c := matA 60 (.mma (List.range 16) none 0 4 false 7) .running
    MatRuns (stateMat [c]) 0 c teamA ∧ (7 : Mask) ≠ 0 ∧ pairOk 4 teamA.plane.tag = false :=
  ⟨runs_of (by decide +kernel) rfl rfl ⟨rfl, rfl⟩ rfl (by decide +kernel) ⟨rfl, rfl, rfl, rfl⟩, by decide +kernel, by decide +kernel⟩

/-- Two cores whose commands are posted, of one kind and of two. -/
def matPosted (q u v : Nat) (op : MatOp) : MatCmd :=
  { matA q op .running with iss := { issA q with uid := u, core := u - 7 }, pair := some (0, v, u == 7), posted := some 0 }
def statePair (op : MatOp) : State :=
  { twoTeams teamA teamB (clusterTwo [] []) with
    cores := [{ freshCore 0 with mat := [matPosted 60 7 8 (.mmas 0x10000000 0 0 4 false)] }, { freshCore 1 with mat := [matPosted 61 8 7 op] }] }

theorem witness_pair : (∀ op ∈ [MatOp.mmas 0x10000000 0 0 4 false, .mmas 0x10000000 0 0 1 false],
      postedPair (statePair op) 0 = some (matPosted 60 7 8 (.mmas 0x10000000 0 0 4 false), 1, matPosted 61 8 7 op) ∧
        (statePair op).bubble = none) ∧
    (MatOp.mmas 0x10000000 0 0 4 false).kind ≠ (MatOp.mmas 0x10000000 0 0 1 false).kind ∧
    (let c := matPosted 60 7 8 (.mmas 0x10000000 0 0 4 false)
     let s := { stateMat [c] with clk := 4097 }
     matFront s 0 = some c ∧ c.posted = some 0 ∧ 0 + 4096 < s.clk.toNat ∧ postedPair s 0 = none) := by
  refine ⟨?_, ?_, ?_⟩ <;> decide +kernel

/-- MatrixCommandsCompute: an s8 plane with ones in column 0, and a team that owes an mread. -/
def teamPlane : Team :=
  { teamA with
    plane := { tag := 4, colTag := (List.range 32).map (fun j => (j, 4)), elems := [(0, 1)], scales := [], bad := [], loader := [] } }
def pendMat : Pend := { pendA with seq := 60, wait := .matrix, writes := [], vas := [] }

theorem witness_matrix_compute :
    (∀ op ∈ [MatOp.mzero 1 0, .mswap, .mscale 8 0 7, .mma (List.range 16) none 0 4 false 7],
      let c := matA 60 op .running
      let s := { stateMat [c] with teams := [teamPlane] }
      matFront s 0 = some c ∧ s.bubble = none ∧ findTeam s c.iss.uid = some teamPlane) ∧
    (List.range 16).length = 16 ∧ teamPlane.plane.tag = 4 ∧ (∀ j < 32, sget 0 teamPlane.plane.colTag j = 4) ∧
    (let c := { matA 60 (.mread (List.range 8) 0 3 7) .running with iss := { issA 60 with flag := none } }
     let t := { teamA with pend := [pendMat] }
     let s := { stateMat [c] with teams := [t] }
     matFront s 0 = some c ∧ s.bubble = none ∧ findTeam s c.iss.uid = some t ∧ pendMat.seq = c.iss.seq ∧ pendMat.flag < 12 ∧
      t.handler = none ∧ (List.range 8).Nodup ∧ c.iss.flag = none) := by
  refine ⟨?_, ?_, ?_, ?_, ?_⟩ <;> decide +kernel

theorem witness_matrix_runs : let c := matA 60 (.mzero 1 0) .running
    MatRuns { stateMat [c] with teams := [teamPlane] } 0 c teamPlane :=
  runs_of (by decide +kernel) rfl rfl ⟨rfl, rfl⟩ rfl (by decide +kernel) ⟨rfl, rfl, rfl, rfl⟩

/-! ### Witnesses: traps, ends, dies, dispatch, placement, harvest -/

/-- A record. -/
def recA : Rec := { cls := 0x03, grp := 0, pc := 0x9000, lmask := 7, addr := 0x10000, aux := 0, dlv := false }

/-- StalledTrapsFinish: a team whose record waits: of a lost lane, of a trap, and in a full queue of 256 records. -/
def teamStalled (f : TrapEnd) : Team := { teamA with trap := some ⟨[], [recA], teamA.active, f, true⟩ }

theorem witness_stalled_lost : let t := { teamA with trap := some ⟨[], [recA], 0, .lost, true⟩ }
    findTeam (oneTeam t) t.uid = some t ∧ t.place = .resident ∧ recA.dlv = false ∧ t.block = none ∧ t.handler = none ∧
      RecordPlace (oneTeam t) t ctxA 0x300000000 :=
  ⟨by decide +kernel, rfl, rfl, rfl, rfl, by decide +kernel, by decide +kernel,
    ⟨⟨0x300000000, 0, 0, 0⟩, by decide +kernel, rfl⟩, by decide +kernel, inv_of (by decide +kernel)⟩

theorem witness_stalled_enter : let t := teamStalled (.enter [])
    findTeam (oneTeam t) t.uid = some t ∧ t.place = .resident ∧ MayEnter (oneTeam t) t ctxA 0x300000000 0x4000 framesA :=
  ⟨by decide +kernel, rfl, enter_of (by decide +kernel)⟩

theorem witness_stalled_full : let t := teamStalled (.enter [])
    let c := { ctxA with frqt := 256 }
    let s := { oneTeam t with contexts := [c], mem := sputs 0 tree [(0x300000000, 3)] }
    findTeam s t.uid = some t ∧ findCtx s t.ctx = some c ∧ 2 ^ (8 + c.frqb.toNat % 16) < (c.frqt - c.frqh).toNat + 0 + 1 ∧
      c.frqh ≠ c.frqt ∧ translate s t.root (frqVa c c.frqh.toNat) .read none = .ok ⟨0x300000000, 0, 0, 0⟩ ∧
      homeByte s 0x300000000 ≠ 0 := by
  refine ⟨?_, ?_, ?_, ?_, ?_, ?_⟩ <;> decide +kernel

/-- A team without lanes. -/
def teamGone : Team := { teamA with live := 0, active := 0 }

theorem still_of {s : State} {t : Team} (h : findTeam s t.uid = some t) (hs : s.stores = [])
    (hc : teamIssues s t.uid = []) (h0 : (coreOf s t.core).copy0 ++ (coreOf s t.core).copy1 = []) (hm : (coreOf s t.core).mat = [])
    (hp : t.pend = []) (hq : t.trap = none ∧ t.block = none ∧ t.hold = none ∧ t.handler = none) : Still s t :=
  ⟨h, fun e he => (nomatch (hs ▸ he : e ∈ [])), ⟨hc, fun x hx => (nomatch (h0 ▸ hx : x ∈ [])), fun x hx => (nomatch (hm ▸ hx : x ∈ []))⟩, hp, hq⟩

theorem arrivals_of {s : State} {t : Team} {k : Cluster} {g : Grid} (hb : k.bars = []) (hg : g.gbarIn = [])
    (hk : findCluster s t.ctx t.grid t.clus = some k) (hf : findGrid s t.ctx t.grid = some g) : NoArrivals s t k g :=
  ⟨fun i => by unfold findBar; rw [hb]; rfl, hg, hk, hf⟩

def gridTwo : Grid := { gridA with size := (2, 1, 1) }
def stateTwo : State := { twoTeams teamGone teamB (clusterTwo [] []) with contexts := [{ ctxA with grids := [gridTwo] }] }

/-- TeamsAndGridsEnd: one of two teams, and the only team of its grid. -/
theorem witness_team_ends :
    (let s := stateTwo
     Still s teamGone ∧ teamGone.live = 0 ∧ (∀ i < 12, flagOf teamGone i = 0) ∧ NoArrivals s teamGone (clusterTwo [] []) gridTwo ∧
      NoTrees s ∧ NoQueueWaits s ∧ (∃ x ∈ s.teams, x.uid ≠ teamGone.uid ∧ inCluster teamGone x) ∧
      gridTwo.ended + 1 ≠ gridTwo.total * (gridTwo.hdr.clw * gridTwo.hdr.clh)) ∧
    (let s := oneTeam teamGone
     Still s teamGone ∧ NoArrivals s teamGone clusterA gridA ∧ NoTrees s ∧ NoQueueWaits s ∧
      (∀ x ∈ s.teams, inCluster teamGone x → x.uid = teamGone.uid) ∧
      gridA.ended + 1 = gridA.total * (gridA.hdr.clw * gridA.hdr.clh) ∧ gridA.st = .running ∧ gridA.desc.done = 0) := by
  refine ⟨⟨?_, rfl, by decide +kernel, ?_, noTrees_of (by decide +kernel), noQueueWaits_of (by decide +kernel),
    ⟨teamB, .tail _ (.head _), by decide +kernel, rfl, rfl, rfl, by decide⟩, by decide +kernel⟩, ?_, ?_, noTrees_of (by decide +kernel),
    noQueueWaits_of (by decide +kernel), fun x hx _ => ?_, by decide +kernel, rfl, rfl⟩
  · exact still_of (by decide +kernel) rfl (by decide +kernel) (by decide +kernel) (by decide +kernel) rfl ⟨rfl, rfl, rfl, rfl⟩
  · exact arrivals_of rfl rfl (by decide +kernel) (by decide +kernel)
  · exact still_of (by decide +kernel) rfl (by decide +kernel) (by decide +kernel) (by decide +kernel) rfl ⟨rfl, rfl, rfl, rfl⟩
  · exact arrivals_of rfl rfl (by decide +kernel) (by decide +kernel)
  · exact (by decide +kernel : ∀ x ∈ (oneTeam teamGone).teams, x.uid = teamGone.uid) x hx

/-- TeamsAndGridsEnd: exit.kill in a grid of two teams, one with a frozen copy command, beside a team of another grid. -/
theorem witness_kill : let s := { twoTeams teamA teamB (clusterTwo [] []) with cores := [{ freshCore 0 with copy0 := [copyFrozen 3] }] }
    s.Inv ∧ Accepted s teamA .exitKill [] ∧ (teamIssues s 7).length = 1 ∧ findGrid s 1 1 = some gridA :=
  ⟨inv_of (by decide +kernel), accepted_of (by decide +kernel), by decide +kernel, by decide +kernel⟩


/-- DiesGrantRefillAndWalk: a request whose cost equals the die's tokens; a debt in bubble mode; walks of the last die. -/
theorem witness_dies :
    (let s := { stateCopies [copyA 65537 0x6000 .asking] with dies := State.reset.dies.set 0 { Die.reset with asking := [50], tokens := 2052 } }
     (dieOf s 0).asking = 50 :: [] ∧ ((costOf s 50 : Int) ≤ (dieOf s 0).tokens)) ∧
    stateA.bubble = none ∧ bubbleMode stateA = false ∧
    (let t := { teamA with hdr := { kernel with mode := 0x10200 } }
     let s := { oneTeam t with dies := State.reset.dies.set 7 { Die.reset with tokens := -1 } }
     s.bubble = none ∧ bubbleMode s = true ∧ (dieOf s 7).tokens < 0 ∧ bubbleMode (oneTeam t) = true ∧ ∀ e < 8, 0 ≤ (dieOf (oneTeam t) e).tokens) ∧
    { stateA with bubble := some 9 }.bubble = some 9 ∧
    (let s := { stateA with dies := State.reset.dies.set 7 { Die.reset with walks := [⟨1, 0, [⟨0, placedRoot, 0⟩]⟩] } }
     (dieOf s 7).walks = ⟨1, 0, [⟨0, placedRoot, 0⟩]⟩ :: [] ∧ (dieOf s 7).misses = []) := by
  refine ⟨?_, ?_, ?_, ?_, ?_, ?_⟩ <;> decide +kernel

/-- The bytes of a kernel header. -/
def hdrBytes (k : KHdr) : List Byte :=
  bytesOf 4 k.entry.toNat ++ bytesOf 4 k.partword.toNat ++ bytesOf 4 k.scratch.toNat ++ bytesOf 4 k.preload.toNat ++
    bytesOf 4 k.shape.toNat ++ bytesOf 4 k.mode.toNat ++ bytesOf 8 0

/-- A queued grid whose kernel header lies at 0x5000. -/
def gridQueued (gx : Word) : Grid := newGrid 2 { placedDesc with khdr := 0x5000, gx := gx, ctl := 0xFFFF } none
def ctxQueued (gx : Word) : Context := { ctxA with grids := [gridA, gridQueued gx] }
def stateQueued (k : KHdr) (gx : Word) : State :=
  { stateA with
    contexts := [ctxQueued gx], mem := sputs 0 tree ((hdrBytes k).zipIdx.map (fun b => (0x300005000 + b.2, b.1))) }

/-- DispatchReadsHeader: a sound header with one cluster and with none, and headers that are refused, for one reason and for
two. -/
theorem witness_dispatch :
    (∀ x ∈ ([(kernel, 1, []), (kernel, 0, []), ({ kernel with partword := 0x2018 }, 1, [3]), ({ kernel with shape := 0 }, 1, [2]),
        ({ kernel with partword := 0x2018, mode := 0 }, 1, [2, 3, 5])] : List (KHdr × Word × List Nat)),
      findCtx (stateQueued x.1 x.2.1) 1 = some (ctxQueued x.2.1) ∧
      (ctxQueued x.2.1).grids.find? (dispatchable (stateQueued x.1 x.2.1) (ctxQueued x.2.1)) = some (gridQueued x.2.1) ∧
      findGrid (stateQueued x.1 x.2.1) 1 2 = some (gridQueued x.2.1) ∧
      engGlobal (stateQueued x.1 x.2.1) placedRoot 0x5000 32 = .ok (hdrBytes x.1) ((List.range 32).map (0x300005000 + ·)) 0 ∧
      (gridQueued x.2.1).desc.ctl.getLsbD 16 = false ∧ (gridQueued x.2.1).desc.done = 0 ∧
      refusals (stateQueued x.1 x.2.1) (ctxQueued x.2.1) (hdrBytes x.1) (x.2.1.toNat, 1, 1) = x.2.2) := by decide +kernel

/-- PlacementStartsTeams: the next cluster of a grid of one core, and of one of two cores, beside one that runs. -/
def gridNext (k : KHdr) : Grid := { newGrid 2 placedDesc none with st := .running, hdr := k, size := (1, 1, 1), disp := 5 }
def ctxNext (k : KHdr) : Context := { ctxA with cores := [0, 1], owned := [0, 1], grids := [gridA, gridNext k] }
def stateNext (k : KHdr) : State := { stateA with contexts := [ctxNext k], cores := [{ freshCore 0 with partword := 0x810 }] }

theorem witness_placement : ∀ k ∈ [kernel, { kernel with shape := kernel.shape + 2 ^ 12, preload := 5 }],
    findCtx (stateNext k) 1 = some (ctxNext k) ∧ findGrid (stateNext k) 1 2 = some (gridNext k) ∧ waitsPlace (gridNext k) = true ∧
      (ctxNext k).grids.filter (fun x => waitsPlace x && decide (x.disp < (gridNext k).disp)) = [] ∧
      (gridNext k).hdr.coop = false ∧ (placeNext (stateNext k) 1 2).isSome = true := by decide +kernel

/-- The kernel of a harvest grid: 128 registers, no scratchpad. -/
def kernelHarv : KHdr := { kernel with mode := 0x10400, scratch := 0, shape := 128 + 2 ^ 20 }

/-- A second context with a running harvest grid, and the grant of the first one's cores. -/
def gridHarv : Grid := { gridA with hdr := kernelHarv, next := 0 }
def ctxHarv : Context := { newContext 2 2 { placedRoot with rid := 2 } 0 0xFFFFFFFF 0 0 0 0 with grids := [gridHarv] }
def ctxOwner : Context := { ctxA with hvok := true }
def harvTeam (p : Place) : Team := { startTeam ctxHarv gridHarv 8 0 0 0 64 [] none with place := p }
def stateHarv (ts : List Team) : State :=
  { stateA with contexts := [ctxOwner, ctxHarv], grants := [(2, 1)], teams := teamA :: ts, nextUid := 9 }

theorem witness_harvest_place : (∀ ts ∈ [[], [harvTeam .evicted]],
      findCtx (stateHarv ts) 2 = some ctxHarv ∧ findGrid (stateHarv ts) 2 1 = some gridHarv ∧
      (∀ o ∈ (stateHarv ts).contexts, ∀ x ∈ o.grids, harvests x = true → x.disp < gridHarv.disp → harvestNext (stateHarv ts) o x = none) ∧
      coreOrder.find? (fun k => harvestFits (stateHarv ts) 2 gridHarv.hdr k && !coopWaits (stateHarv ts) k gridHarv.disp) = some 0) ∧
    gridHarv.st = .running ∧ gridHarv.hdr.harvest = true ∧
    ctxHarv.tfrb = 0 ∧ gridHarv.next < gridHarv.total ∧
    (∀ x ∈ (stateHarv []).teams, x.ctx = 2 → x.grid = 1 → x.place ≠ .evicted) ∧
    (stateHarv [harvTeam .evicted]).teams.find? (fun x => x.ctx == 2 && x.grid == 1 && x.place == .evicted) =
      some (harvTeam .evicted) ∧ findTeam (stateHarv [harvTeam .evicted]) 8 = some (harvTeam .evicted) := by
  refine ⟨?_, ?_, ?_, ?_, ?_, ?_, ?_, ?_⟩ <;> decide +kernel

/-- PreemptedTeamsComeBack: the grid is suspended; a saved team of a running grid on a core of its partition. -/
def stateSuspended : State := { stateA with contexts := [{ ctxA with grids := [{ gridA with st := .suspended }] }] }

theorem witness_preempt :
    (Still stateSuspended teamA ∧ namedTeams stateSuspended 0 = [teamA] ∧ harvestTeams stateSuspended 0 = [] ∧
      teamA.place = .resident) ∧
    (let t := { teamA with place := .saved }
     findTeam (oneTeam t) t.uid = some t ∧ gridSuspended (oneTeam t) t = false ∧ findCtx (oneTeam t) t.ctx = some ctxA ∧
      t.core ∈ ctxA.cores ∧ freeSlot (oneTeam t) 0 0 64 = some 0 ∧ coreFits (oneTeam t) t.hdr 0 = true ∧ NoQueueWaits (oneTeam t)) := by
  refine ⟨⟨still_of (by decide +kernel) rfl (by decide +kernel) (by decide +kernel) (by decide +kernel) rfl ⟨rfl, rfl, rfl, rfl⟩,
    by decide +kernel, by decide +kernel, rfl⟩, by decide +kernel, by decide +kernel, by decide +kernel, by decide +kernel,
    by decide +kernel, by decide +kernel, noQueueWaits_of (by decide +kernel)⟩

/-- HarvestTeamsAreRevoked: a team whose grant is gone, one on a core with a halted owner, and a held one that may restart. -/
theorem witness_revoke :
    (let t := harvTeam .resident
     let s := { stateHarv [t] with grants := [] }
     Still s t ∧ t.place = .resident ∧ revoked s 0 = [(8, .evicted)]) ∧
    (let t := harvTeam .resident
     let s := { stateHarv [t] with contexts := [{ ctxOwner with grids := [{ gridA with st := .suspended }] }, ctxHarv] }
     Still s t ∧ revoked s 0 = [(8, .held)]) ∧
    (let t := harvTeam .held
     findTeam (stateHarv [t]) t.uid = some t ∧ t.place = .held ∧ mustLeave (stateHarv [t]) t = false ∧ mustHold (stateHarv [t]) t = false) ∧
    (coreOf (stateCore { freshCore 0 with scrub := [3, 4] }) 0).scrub = 3 :: [4] := by
  refine ⟨⟨?_, rfl, by decide +kernel⟩, ⟨?_, by decide +kernel⟩, by decide +kernel, by decide +kernel⟩
  · exact still_of (by decide +kernel) rfl (by decide +kernel) (by decide +kernel) (by decide +kernel) rfl ⟨rfl, rfl, rfl, rfl⟩
  · exact still_of (by decide +kernel) rfl (by decide +kernel) (by decide +kernel) (by decide +kernel) rfl ⟨rfl, rfl, rfl, rfl⟩

/-- ReclaimingFreesRoots: a released root with its empty top node; 64,511 RIDs in use and one to be recycled. -/
def rootA : RootRec :=
  { lineage := 1, ctx := 1, desc := { placedRoot with rid := 9, node := 0x200000 }, life := .released, snap := false, excl := [0x200000] }
def nodeA : NodeRec := { pa := 0x200000, level := 3, lineages := [1] }

def stateRids (n : Nat) : State := { stateA with recycle := List.replicate n 9 }

theorem rids_used (n : Nat) : (usedRids (stateRids n)).length = n := by simp [usedRids, stateRids, stateA, oneTeam, State.reset]

theorem witness_reclaim :
    (let s := { stateA with roots := [rootA], nodes := [nodeA] }
     (∀ e ∈ s.stores, (findTeam s e.uid).isSome = true) ∧ rootA.life = .released ∧ findCtx s rootA.ctx = some ctxA ∧ ctxA.dying = false ∧ rootA.excl = [nodeA.pa] ∧
      nodeA.lineages = [rootA.lineage] ∧ namedFrames s nodeA.pa = []) ∧
    (stateRids 64512).recycle ≠ [] ∧ 65535 < (usedRids (stateRids 64512)).length + 1024 := by
  refine ⟨?_, fun h => ?_, ?_⟩
  · decide +kernel
  · exact (by decide : (64512 : Nat) ≠ 0) (List.length_replicate.symm.trans (congrArg List.length h))
  · rw [rids_used]; decide

/-- LinesKeepBytesAndPoison: a dirty line, a poisoned one, and the lost flit of a plain line. -/
theorem witness_lines :
    (let s := { stateA with l2 := [(0xC000180, List.replicate 64 1)], l2Bad := [(0xC000200, 5)] }
     invB s = true ∧ (sget [] s.l2 0xC000180 ≠ []) ∧ listRoom s 0xC000180 = true ∧ sget 0 s.l2Bad 0xC000200 ≠ 0 ∧
      listRoom s 0xC000200 = true) ∧
    physBad stateA.manifest 0x300006000 = false ∧ isPeer 0x300006000 = false := by
  refine ⟨?_, ?_, ?_⟩ <;> decide +kernel

/-- LinesKeepBytesAndPoison: a controller whose list is full. -/
def stateFull : State := { stateA with poison := (List.range 4096).map (fun i => (256 * i, 5)) }

theorem witness_full_list : 4096 ≤ (stateFull.poison.filter (fun x => ctrlOf (64 * x.1) == 0)).length ∧ sok 0 stateFull.poison = true := by
  refine ⟨?_, ?_⟩ <;> decide +kernel

/-! ### Witnesses: commands -/

/-- A request on a host's stream. -/
def reqA (p : List Byte) : Req := { strm := 7, tag := 9, payload := p }

theorem listens_of {s : State} {r : Req} (h : (s.powered && s.booted && s.streams.isEmpty) = true) : Listens s r := by
  simp only [Bool.and_eq_true] at h
  refine ⟨h.1.1, h.1.2, fun x hx => ?_⟩
  unfold findStream at hx
  rw [List.isEmpty_iff.1 h.2] at hx
  exact nomatch hx

def namesB (s : State) (r : Req) (n : Nat) (c : Context) : Bool :=
  !s.recovery && r.payload.length == n && decide (findCtx s (fieldAt r.payload 0 4) = some c) && !c.dying

theorem names_of {s : State} {r : Req} {n : Nat} {c : Context} (h : namesB s r n c = true) : Names s r n c := by
  simpa [namesB, Names, and_assoc] using h

/-- ModuleCommandsAnswer: in recovery and outside it; PEER_ADD of the last peer; POWER_CAP at both ends of its range. -/
def payloadPeer : List Byte := bytesOf 4 255 ++ bytesOf 2 7 ++ bytesOf 2 6 ++ bytesOf 16 1 ++ bytesOf 4 1 ++ bytesOf 8 0x6000
def payloadCap : List Byte := bytesOf 4 0 ++ bytesOf 4 66560 ++ (List.range 6).flatMap (fun _ => bytesOf 4 665600)

theorem witness_module_commands : Listens stateA (reqA []) ∧ Listens { stateA with recovery := true } (reqA []) ∧
    { stateA with recovery := true }.recovery = true ∧ stateA.recovery = false ∧
    Listens stateA (reqA (List.replicate 52 0)) ∧ fieldAt (List.replicate 52 0) 48 4 = 0 ∧
    (payloadPeer.length = 36 ∧ fieldAt payloadPeer 0 4 ≤ 255 ∧ fieldAt payloadPeer 4 2 ≤ 7 ∧
      (fieldAt payloadPeer 6 2 = 4 ∨ fieldAt payloadPeer 6 2 = 6) ∧ ∀ q ∈ stateA.remote, q.p ≠ fieldAt payloadPeer 0 4) ∧
    payloadCap.length = 32 ∧
    (∀ d < 8, fieldAt payloadCap (4 * d) 4 = 0 ∨ 66560 ≤ fieldAt payloadCap (4 * d) 4 ∧ fieldAt payloadCap (4 * d) 4 ≤ 665600) := by
  refine ⟨listens_of rfl, listens_of rfl, rfl, rfl, listens_of rfl, ?_, ?_, ?_, ?_⟩ <;> decide +kernel

/-- ContextCommandsAnswer: CTX_CREATE with limits at the ends of their ranges, on a module without roots; its free choices
exist. -/
def payloadCreate : List Byte :=
  [16, 40, 0, 0, 0xFF, 0xFF, 0xFF, 0xFF, 8, 0, 0, 0, 7, 0, 3, 0, 0, 0, 0, 0]

theorem choose_first {s : State} {ok : Nat → Bool} {base size slots : Nat} {extra : List (Nat × Nat)}
    (h : ok (base + Config.freeNat s.fresh % slots * size) = true) :
    choose s ok base size slots extra = some (base + Config.freeNat s.fresh % slots * size) := by
  unfold choose
  exact if_pos h

theorem strong_in (a : Nat) (h : a < 8 * 2 ^ 30) : inStrong defaultManifest a = true :=
  decide_eq_true ⟨by show 0 * 2 ^ 30 ≤ a; omega, by show a < (0 + 8) * 2 ^ 30; omega⟩

theorem strong_free (s : State) (hm : s.manifest = defaultManifest) (hs : s.frames = [] ∧ s.nodes = [] ∧ s.poisonMoved = []) :
    ∃ pa, chooseStrong s [] 4096 = some pa := by
  have hlt : Config.freeNat s.fresh % (8 * 2 ^ 30 / 4096) < 8 * 2 ^ 30 / 4096 := Nat.mod_lt _ (by decide)
  refine ⟨0 * 2 ^ 30 + Config.freeNat s.fresh % (8 * 2 ^ 30 / 4096) * 4096, ?_⟩
  unfold chooseStrong
  rw [hm]
  refine choose_first ?_
  show (inStrong defaultManifest (0 * 2 ^ 30 + Config.freeNat s.fresh % (8 * 2 ^ 30 / 4096) * 4096) &&
    inStrong defaultManifest (0 * 2 ^ 30 + Config.freeNat s.fresh % (8 * 2 ^ 30 / 4096) * 4096 + 4096 - 1) &&
    rangeFree s [] (0 * 2 ^ 30 + Config.freeNat s.fresh % (8 * 2 ^ 30 / 4096) * 4096) 4096) = true
  generalize Config.freeNat s.fresh % (8 * 2 ^ 30 / 4096) = k at hlt
  rw [strong_in _ (by omega), strong_in _ (by omega)]
  unfold rangeFree
  rw [hs.1, hs.2.1, hs.2.2]
  rfl

theorem choices_exist : (∃ id, chooseCtx State.reset = some id) ∧ (∃ rid, chooseRid { State.reset with fresh := 1 } = some rid) ∧
    ∃ pa, chooseStrong { State.reset with fresh := 2 } [] 4096 = some pa :=
  ⟨⟨_, rfl⟩, ⟨_, rfl⟩, strong_free _ rfl ⟨rfl, rfl, rfl⟩⟩

theorem witness_ctx_create : Listens State.reset (reqA payloadCreate) ∧ State.reset.Inv ∧ payloadCreate.length = 20 ∧
    fieldAt payloadCreate 2 2 = 0 ∧ hangBad (fieldAt payloadCreate 0 1) = false ∧ hangBad (fieldAt payloadCreate 1 1) = false ∧
    (fieldAt payloadCreate 4 4 % 4 = 0 ∨ fieldAt payloadCreate 4 4 = 0xFFFFFFFF) ∧ fieldAt payloadCreate 8 4 % 16 ≤ 8 ∧
    fieldAt payloadCreate 16 4 % 16 ≤ 8 ∧ fieldAt payloadCreate 12 2 ≤ 7 ∧ fieldAt payloadCreate 14 1 ≤ 3 ∧
    fieldAt payloadCreate 15 1 = 0 := by
  refine ⟨listens_of rfl, inv_of (by decide +kernel), ?_, ?_, ?_, ?_, ?_, ?_, ?_, ?_, ?_, ?_⟩ <;> decide +kernel

/-- ContextCommandsAnswer: a context whose grid has ended; one under scrub without roots. -/
def ctxDone : Context := { ctxA with grids := [{ gridA with st := .complete }] }
def stateDone : State := { stateA with contexts := [ctxDone], teams := [], clusters := [] }

theorem witness_ctx_destroy : Listens stateDone (reqA (bytesOf 4 1)) ∧ Names stateDone (reqA (bytesOf 4 1)) 4 ctxDone ∧
    (∀ g ∈ ctxDone.grids, g.entered = false) ∧ (∀ e ∈ stateDone.stores, ∃ t, findTeam stateDone e.uid = some t ∧ t.ctx ≠ 1) ∧
    (let s := { stateDone with scrubCtx := [1], owed := [⟨reqA (bytesOf 4 1), 0x11, 1, 0⟩] }
     Listens s (reqA (bytesOf 4 1)) ∧ 1 ∈ s.scrubCtx ∧ (∀ x ∈ s.roots, x.ctx ≠ 1) ∧ (∀ k ∈ s.cores, k.scrub = []) ∧ s.owed = [⟨reqA (bytesOf 4 1), 0x11, 1, 0⟩]) :=
  ⟨listens_of rfl, names_of (by decide +kernel), by decide +kernel, fun _ h => (nomatch h), listens_of rfl, .head _,
    fun _ h => (nomatch h), fun _ h => (nomatch h), rfl⟩

/-- A payload given byte by byte. -/
def bytesBy (n : Nat) (f : Nat → Byte) : List Byte := (List.range n).map f

theorem bytesBy_at {n k : Nat} (f : Nat → Byte) (h : k < n) : (bytesBy n f).getD k 0 = f k := by
  simp [bytesBy, List.getD, List.getElem?_map, List.getElem?_range h]

/-- PART_SET of the cores 0 and 4095, 4095 an owner core, with another context that has core 1. -/
def partByte (k : Nat) : Byte :=
  if k = 0 ∨ k = 4 ∨ k = 1028 then 1 else if k = 515 ∨ k = 1027 then 0x80 else 0
def payloadPart : List Byte := bytesBy 1032 partByte
def ctxOther : Context := { ctxHarv with cores := [1] }
def stateTwoCtx : State := { stateA with contexts := [ctxA, ctxOther] }

theorem witness_part_set : Listens stateTwoCtx (reqA payloadPart) ∧ Names stateTwoCtx (reqA payloadPart) 1032 ctxA ∧
    fieldAt payloadPart 1028 4 ≤ 1 ∧ (∀ i < 4096, bitAt payloadPart 516 i = true → bitAt payloadPart 4 i = true) ∧
    (∀ o ∈ stateTwoCtx.contexts, o.id ≠ ctxA.id → ∀ i ∈ o.cores, i < 4096 → bitAt payloadPart 4 i = false) := by
  refine ⟨listens_of rfl, names_of (by decide +kernel), by decide +kernel, fun i hi h => ?_, by decide +kernel⟩
  unfold bitAt payloadPart at *
  rw [bytesBy_at _ (by omega)] at h ⊢
  unfold partByte at *
  by_cases hk : 516 + i / 8 = 1027
  · rw [if_neg (by omega), if_pos (by omega)] at h ⊢
    exact h
  · rw [if_neg (by omega), if_neg (by omega)] at h
    simp at h

/-- HARVEST_GRANT of context 2 by context 1; DECODE_LOAD of the last id with every entry disabled; MEM_ALLOC. -/
def payloadGrant : List Byte := bytesOf 4 2 ++ bytesOf 4 1 ++ bytesOf 4 1
def tableByte (k : Nat) : Byte := if k = 0 then 1 else if k = 4 ∨ k = 5 then 0xFF else 0
def payloadTable : List Byte := bytesBy 3080 tableByte

theorem table_zero : (List.range 768).map (fun i => BitVec.ofNat 32 (fieldAt payloadTable (8 + 4 * i) 4)) = List.replicate 768 0 := by
  rw [List.eq_replicate_iff]
  refine ⟨by simp, fun w hw => ?_⟩
  obtain ⟨i, hi, rfl⟩ := List.mem_map.1 hw
  have hi := List.mem_range.1 hi
  have hz : ∀ j < 4, payloadTable.getD (8 + 4 * i + j) 0 = 0 := fun j hj => by
    unfold payloadTable
    rw [bytesBy_at _ (by omega)]
    unfold tableByte
    rw [if_neg (by omega), if_neg (by omega)]
  unfold fieldAt leNat
  rw [List.map_congr_left (g := fun _ => 0) fun j hj => by
    show (payloadTable.getD (8 + 4 * i + j) 0).toNat * 256 ^ j = 0
    rw [hz j (List.mem_range.1 hj)]
    exact Nat.zero_mul _]
  decide

theorem witness_grant_table_quota :
    (Names stateTwoCtx (reqA payloadGrant) 12 ctxOther ∧ fieldAt payloadGrant 8 4 ≤ 1 ∧
      findCtx stateTwoCtx (fieldAt payloadGrant 4 4) = some ctxA ∧ ctxA.dying = false ∧ ctxOther.id ≠ ctxA.id) ∧
    (Names stateTwoCtx (reqA payloadTable) 3080 ctxA ∧ 2 ≤ fieldAt payloadTable 4 4 ∧ fieldAt payloadTable 4 4 ≤ 65535 ∧
      tableOk ((List.range 768).map (fun i => BitVec.ofNat 32 (fieldAt payloadTable (8 + 4 * i) 4))) = true ∧ ctxA.tables.length < 16 ∧
      ∀ g ∈ ctxA.grids, g.st = .running ∨ g.st = .suspended → g.hdr.dtable ≠ fieldAt payloadTable 4 4) ∧
    (Names stateTwoCtx (reqA (bytesOf 4 1 ++ bytesOf 8 0)) 12 ctxA ∧ chargedTo stateTwoCtx 1 0 ≤ 0 ∧ chargedTo stateTwoCtx 1 1 ≤ 0) := by
  rw [table_zero]
  refine ⟨⟨names_of ?_, ?_, ?_, ?_, ?_⟩, ⟨names_of ?_, ?_, ?_, ?_, ?_, ?_⟩, names_of ?_, ?_, ?_⟩ <;> decide +kernel

/-- MemoryCommandsAnswer: a block of one page, and one of none; SNAPSHOT in both forms; HOST_WRITE and HOST_READ of one byte and
of the most bytes. -/
def payloadMap (npg form sid : Nat) : List Byte :=
  bytesOf 4 1 ++ bytesOf 8 0x20000 ++ bytesOf 4 npg ++ bytesOf 4 0xC0 ++ bytesOf 8 0 ++ bytesOf 2 form ++ bytesOf 2 0 ++ bytesOf 4 sid ++
    List.replicate 32 0
def snapA : RootRec := { lineage := 3, ctx := 1, desc := { placedRoot with rid := 9 }, life := .current, snap := true, excl := [] }

theorem witness_map : (∀ x ∈ ([(1, 0, 0), (0, 0, 0), (65536, 1, 9), (65537, 0, 0)] : List (Nat × Nat × Nat)),
      Listens stateA (reqA (payloadMap x.1 x.2.1 x.2.2)) ∧ namesB stateA (reqA (payloadMap x.1 x.2.1 x.2.2)) 68 ctxA = true ∧
      fieldAt (payloadMap x.1 x.2.1 x.2.2) 36 32 = 0 ∧ fieldAt (payloadMap x.1 x.2.1 x.2.2) 12 4 = x.1 ∧
      fieldAt (payloadMap x.1 x.2.1 x.2.2) 28 2 = x.2.1) ∧ (∃ rid, chooseRid stateA = some rid) ∧
    { stateA with roots := [snapA] }.roots.find? (fun x => x.snap && x.ctx == 1 && x.desc.rid.toNat ==
      fieldAt (payloadMap 65536 1 9) 32 4) = some snapA := by
  have h : ∀ x ∈ ([(1, 0, 0), (0, 0, 0), (65536, 1, 9), (65537, 0, 0)] : List (Nat × Nat × Nat)),
      namesB stateA (reqA (payloadMap x.1 x.2.1 x.2.2)) 68 ctxA = true ∧
      fieldAt (payloadMap x.1 x.2.1 x.2.2) 36 32 = 0 ∧ fieldAt (payloadMap x.1 x.2.1 x.2.2) 12 4 = x.1 ∧
      fieldAt (payloadMap x.1 x.2.1 x.2.2) 28 2 = x.2.1 := by decide +kernel
  exact ⟨fun x hx => ⟨listens_of rfl, h x hx⟩, ⟨_, rfl⟩, by decide +kernel⟩

def rangeIs (s : State) (k : AccKind) (va n pa : Nat) : Bool :=
  match hostRange s ctxA k va n with
  | .ok [(p, m)] => p == pa && m == n
  | _ => false

theorem range_of {s : State} {k : AccKind} {va n pa : Nat} (h : rangeIs s k va n pa = true) :
    hostRange s ctxA k va n = .ok [(pa, n)] := by
  unfold rangeIs at h
  split at h
  · next p m e => simp only [Bool.and_eq_true, beq_iff_eq] at h; rw [e, h.1, h.2]
  · exact nomatch h

theorem witness_host_data : stateA.Inv ∧ stateA.recovery = false ∧ findCtx stateA 1 = some ctxA ∧ ctxA.dying = false ∧
    (∀ n ∈ [1, 8176], (bytesOf 4 1 ++ bytesOf 8 0x6000 ++ List.replicate n 0).length = 12 + n ∧
      fieldAt (bytesOf 4 1 ++ bytesOf 8 0x6000 ++ List.replicate n 0) 4 8 = 0x6000 ∧
      hostRange stateA ctxA .write 0x6000 n = .ok [(0x300006000, n)]) ∧
    (∀ n ∈ [1, 8192], Names stateA (reqA (bytesOf 4 1 ++ bytesOf 8 0x6000 ++ bytesOf 4 n)) 16 ctxA ∧
      fieldAt (bytesOf 4 1 ++ bytesOf 8 0x6000 ++ bytesOf 4 n) 12 4 = n ∧
      hostRange stateA ctxA .read 0x6000 n = .ok [(0x300006000, n)]) ∧
    ∀ a, lineHop stateA (a / 64) = 0 := by
  have hw : ∀ n ∈ [1, 8176], (bytesOf 4 1 ++ bytesOf 8 0x6000 ++ List.replicate n 0).length = 12 + n ∧
      fieldAt (bytesOf 4 1 ++ bytesOf 8 0x6000 ++ List.replicate n 0) 4 8 = 0x6000 ∧
      rangeIs stateA .write 0x6000 n 0x300006000 = true := by decide +kernel
  have hr : ∀ n ∈ [1, 8192], namesB stateA (reqA (bytesOf 4 1 ++ bytesOf 8 0x6000 ++ bytesOf 4 n)) 16 ctxA = true ∧
      fieldAt (bytesOf 4 1 ++ bytesOf 8 0x6000 ++ bytesOf 4 n) 12 4 = n ∧ rangeIs stateA .read 0x6000 n 0x300006000 = true := by
    decide +kernel
  exact ⟨test_machine_inv, rfl, by decide +kernel, rfl, fun n hn => ⟨(hw n hn).1, (hw n hn).2.1, range_of (hw n hn).2.2⟩,
    fun n hn => ⟨names_of (hr n hn).1, (hr n hn).2.1, range_of (hr n hn).2.2⟩, fun _ => rfl⟩

/-- GridCommandsAnswer: LAUNCH of a sound descriptor and of one with a misaligned KHDR; GRID_WAIT and SUSPEND of the grid. -/
def payloadLaunch (khdr : Nat) : List Byte :=
  bytesOf 4 1 ++ bytesOf 8 khdr ++ bytesOf 8 0 ++ bytesOf 8 0 ++ bytesOf 4 1 ++ bytesOf 4 1 ++ bytesOf 4 1 ++ bytesOf 4 0 ++ bytesOf 8 0 ++
    bytesOf 8 0 ++ bytesOf 8 0

theorem witness_grid_commands :
    (∀ k ∈ [0, 8], Names stateA (reqA (payloadLaunch k)) 68 ctxA) ∧ LaunchFine ((payloadLaunch 0).drop 4) ∧
    ¬ LaunchFine ((payloadLaunch 8).drop 4) ∧ (ctxA.grids.filter Grid.entered).length < 256 ∧
    (∀ f ∈ [0, 1], Names stateA (reqA (bytesOf 4 1 ++ bytesOf 4 1 ++ bytesOf 4 f)) 12 ctxA ∧
      fieldAt (bytesOf 4 1 ++ bytesOf 4 1 ++ bytesOf 4 f) 8 4 = f) ∧
    ctxA.grids.find? (fun x => x.num == fieldAt (bytesOf 4 1 ++ bytesOf 4 1) 4 4) = some gridA ∧ stateCode gridA < 2 ∧
    2 ≤ stateCode { gridA with st := .killed } ∧ Names stateA (reqA (bytesOf 4 1 ++ bytesOf 4 1)) 8 ctxA ∧
    fieldAt (bytesOf 4 1 ++ bytesOf 4 1) 4 4 ≠ 0 ∧ findGrid stateA 1 (fieldAt (bytesOf 4 1 ++ bytesOf 4 1) 4 4) = some gridA := by
  have h1 : ∀ k ∈ [0, 8], namesB stateA (reqA (payloadLaunch k)) 68 ctxA = true := by decide +kernel
  have h2 : ∀ f ∈ [0, 1], namesB stateA (reqA (bytesOf 4 1 ++ bytesOf 4 1 ++ bytesOf 4 f)) 12 ctxA = true ∧
      fieldAt (bytesOf 4 1 ++ bytesOf 4 1 ++ bytesOf 4 f) 8 4 = f := by decide +kernel
  refine ⟨fun k hk => names_of (h1 k hk), ?_, ?_, by decide +kernel, fun f hf => ⟨names_of (h2 f hf).1, (h2 f hf).2⟩, by decide +kernel,
    by decide +kernel, by decide +kernel, names_of (by decide +kernel), by decide +kernel, by decide +kernel⟩ <;>
    unfold LaunchFine <;> decide +kernel

/-! ### Witnesses: checkpoints, peers, power, steps -/

/-- CheckpointsKeepGddr: a suspended grid; an image of one byte; a header that fits. -/
theorem witness_checkpoint :
    (Listens stateSuspended (reqA []) ∧ stateSuspended.Inv ∧ stateSuspended.recovery = false ∧ (reqA []).payload = [] ∧
      stateSuspended.manifest.ckptOn = true ∧ ckptBusy stateSuspended = false ∧
      (poisonedLines (writeBackAll stateSuspended)).1.length + (poisonedLines (writeBackAll stateSuspended)).2.length ≤ 2097144) ∧
    (let s := { stateSuspended with ckpt := some (.saving [(0x300006000, 5)] 0 [] 0), owed := [⟨reqA [], 0x40, 0, 0⟩] }
     Listens s (reqA []) ∧ s.Inv ∧ (([(0x300006000, 5)] : List Host.Cell).map Prod.fst).Nodup ∧ isGddr 0x300006000 = true) ∧
    (let s := { stateSuspended with mem := sputs 0 tree [(ckptHeader + 4, 1), (ckptHeader + 20, 8)] }
     Listens s (reqA []) ∧ s.Inv ∧ ckptBusy s = false ∧ headerWord s 4 = 1 ∧ headerWord s 16 = s.manifest.srBase ∧
      headerWord s 20 = s.manifest.srSize) ∧
    (let s := { stateSuspended with ckpt := some .restoring, owed := [⟨reqA [], 0x41, 0, 0⟩] }
     Listens s (reqA []) ∧ s.Inv ∧ s.ckpt = some .restoring ∧ s.owed = [⟨reqA [], 0x41, 0, 0⟩]) := by
  refine ⟨⟨listens_of rfl, inv_of ?_, rfl, rfl, rfl, ?_, ?_⟩, ⟨listens_of rfl, inv_of ?_, ?_, ?_⟩,
    ⟨listens_of rfl, inv_of ?_, ?_, ?_, ?_, ?_⟩, listens_of rfl, inv_of ?_, rfl, rfl⟩ <;> decide +kernel

/-- A frame of peer 3 on its stream, with its CRC. -/
def frameA (ty size : Nat) (payload : List Byte) : Frame :=
  let f : Frame := { ip := [], ver := 1, type := BitVec.ofNat 8 ty, flg := 4, strm := 0xFFFFFF03, seq := 0, ackn := 0, sack := 0
                     cmd := BitVec.ofNat 16 size, stat := 0, tag := 5, payload := payload, crc := 0 }
  { f with crc := frameCrc f }
def askHead (op : Nat) : List Byte := bytesOf 4 1 ++ bytesOf 1 0 ++ bytesOf 1 op ++ bytesOf 2 0 ++ bytesOf 8 0x6000 ++ bytesOf 8 0
def peerA : Peer := { p := 3, die := 0, fam := 4, ip := List.replicate 16 0, rctx := 1, rbase := 0, failed := false }
def streamA : Strm := newStream 0xFFFFFF03
def statePeer (t : Team) : State := { oneTeam t with peers := [peerA], streams := [streamA] }

def nextFrameB (s : State) (f : Frame) (x : Strm) : Bool :=
  s.booted && !s.recovery && frameOk s f && decide (findStream s f.strm = some x) && !x.failed && x.got.isEmpty && f.seq == x.expect &&
    !f.flg.getLsbD 1

theorem nextFrame_of {s : State} {f : Frame} {x : Strm} (h : nextFrameB s f x = true) : NextFrame s f x := by
  simpa [nextFrameB, NextFrame, and_assoc] using h

def hitsB (s : State) (f : Frame) (a : PeerAsk) (k : AccKind) (pa : Nat) : Bool :=
  decide (peerAsk f = some a) && decide (findCtx s a.rctx = some ctxA) && decide (translate s placedRoot a.va k none = .ok ⟨pa, 0, 0, 0⟩) &&
    !isPeer pa && hopOf s pa a.size == 0

theorem hits_of {s : State} {f : Frame} {a : PeerAsk} {k : AccKind} {pa : Nat} (h : hitsB s f a k pa = true) : PeerHits s f a k pa := by
  simp only [hitsB, Bool.and_eq_true, decide_eq_true_eq, Bool.not_eq_true', beq_iff_eq] at h
  exact ⟨h.1.1.1.1, ⟨ctxA, h.1.1.1.2, rfl, _, h.1.1.2, rfl⟩, h.1.2, h.2⟩

/-- FramesActOnce: a read of 16 bytes, a write of one, atomics of 4 and 8 bytes with the last codes, and a malformed read. -/
theorem witness_frames :
    (nextFrameB (statePeer teamA) (frameA 3 16 (askHead 0)) streamA = true ∧
      hitsB (statePeer teamA) (frameA 3 16 (askHead 0)) ⟨1, 0, 0, 0x6000, 16, []⟩ .read 0x300006000 = true) ∧
    (nextFrameB (statePeer teamA) (frameA 4 1 (askHead 0 ++ [7])) streamA = true ∧
      hitsB (statePeer teamA) (frameA 4 1 (askHead 0 ++ [7])) ⟨1, 0, 0, 0x6000, 1, [7]⟩ .write 0x300006000 = true) ∧
    (nextFrameB (statePeer teamA) (frameA 5 4 (askHead 10 ++ bytesOf 8 7)) streamA = true ∧
      hitsB (statePeer teamA) (frameA 5 4 (askHead 10 ++ bytesOf 8 7)) ⟨1, 0, 10, 0x6000, 4, bytesOf 8 7⟩ .atomic 0x300006000 = true) ∧
    (nextFrameB (statePeer teamA) (frameA 5 8 (askHead 9 ++ bytesOf 16 0)) streamA = true ∧
      hitsB (statePeer teamA) (frameA 5 8 (askHead 9 ++ bytesOf 16 0)) ⟨1, 0, 9, 0x6000, 8, bytesOf 16 0⟩ .atomic 0x300006000 = true) ∧
    (nextFrameB (statePeer teamA) (frameA 3 3 (askHead 0)) streamA = true ∧ peerAsk (frameA 3 3 (askHead 0)) = none) := by
  refine ⟨?_, ?_, ?_, ?_, ?_⟩ <;> decide +kernel

/-- FramesActOnce: a reply to a read in flight; an acknowledgement; streams after 15 and after 16 retries. -/
def opA : MemOp :=
  { flag := some 0, faults := [], writes := [], losses := [], lost := [], dests := [regKey 0 12], vas := [], home := false
    acquire := false, acquires := false, again := [], promote := none }
def remoteA : RemoteReq :=
  { tag := 5, p := 3, uid := 7, acc := { lane := 0, pa := 0x80000006000, va := 0x6000, size := 4, sgn := false, dsts := [regKey 0 12] }
    kind := 0, op := 0, lanes := [], decode := none }

theorem witness_reply : let t := { teamA with hold := some ⟨[5], opA⟩ }
    let s := { statePeer t with remote := [remoteA] }
    let f := frameA 6 4 (bytesOf 4 9)
    NextFrame s f streamA ∧ f.stat = 0 ∧ BitVec.ofNat 32 remoteA.tag = f.tag ∧ peerStream remoteA.p = f.strm ∧ remoteA.kind = 0 ∧
      remoteA.decode = none ∧ findTeam s remoteA.uid = some t ∧
      t.hold = some ⟨[remoteA.tag], opA⟩ ∧ t.pass = none ∧ t.faulted = [] ∧ s.remote = [remoteA] ∧
      opA.faults = [] ∧ opA.lost = [] ∧ opA.promote = none ∧ opA.flag = some 0 ∧ t.active ≠ 0 ∧
      frameOk s (frameA 7 0 []) = true ∧ findStream s (frameA 7 0 []).strm = some streamA ∧ streamA.failed = false :=
  ⟨nextFrame_of (by decide +kernel), rfl, rfl, by decide +kernel, rfl, rfl, by decide +kernel, rfl, rfl, rfl, rfl, rfl, rfl, rfl, rfl,
    by decide +kernel, by decide +kernel, by decide +kernel, rfl⟩

theorem witness_retransmit : ∀ k ∈ [15, 16], let x := { streamA with unacked := [(frameA 3 4 (askHead 0), k)] }
    let s := { statePeer teamA with streams := [x] }
    findStream s (BitVec.ofNat 32 0xFFFFFF03) = some x ∧ x.failed = false ∧ x.unacked ≠ [] ∧ ∀ q ∈ s.remote, peerStream q.p ≠ x.id := by
  decide +kernel

/-- ResetBootAndPower: temperatures at the bounds, a manifest that is sound and one whose region crosses a die. -/
theorem witness_power : stateA.Inv ∧ Listens stateA (reqA []) ∧ { stateA with booted := false }.Inv ∧ stateA.powered = true ∧
    (800 ≤ (800 : BitVec 16).toInt ∧ (719 : BitVec 16).toInt < 720 ∧ (-1 : BitVec 16).toInt < 720 ∧ 880 ≤ (880 : BitVec 16).toInt) ∧
    (1 ≤ defaultManifest.srSize ∧ defaultManifest.srSize ≤ 32 ∧ defaultManifest.srBase + defaultManifest.srSize ≤ 512 ∧
      defaultManifest.srBase / 64 = (defaultManifest.srBase + defaultManifest.srSize - 1) / 64) ∧
    ¬ (60 / 64 = (60 + 8 - 1) / 64) ∧ (defaultManifest.valid = true ∧ ∀ p ∈ defaultManifest.ports, 1500 ≤ p.mtu ∧ p.mtu ≤ 9216) := by
  refine ⟨test_machine_inv, listens_of rfl, inv_of ?_, rfl, ?_, ?_, ?_, ?_⟩ <;> decide +kernel

/-- The state in which the word w is placed. -/
def placed (w : Word) : State := State.reset.withFetchWord 32 w.toNat

def stepsB (s : State) (w : Word) (pa : Nat) (i : Instr) (m : Mods) : Bool :=
  match pickTeam { s with agenda := [] } 0 with
  | some t => !t.begun && decide (fetchPa s t (wordAddr t) = .ok ⟨pa, 0, 0, 0⟩) && !isPeer pa && lineHop s (pa / 64) == 0 &&
      w.toNat == leNat (memFrom s pa) 4 && (icLine s t.core (pa / 64)).isNone && (t.wix != 0 || isHeader w) &&
      (promoting t).isNone && decide (decodeWord (tableEntry t.table w) w = .ok i m)
  | none => false

theorem steps_of {s : State} {w : Word} {pa : Nat} {i : Instr} {m : Mods} (h : stepsB s w pa i m = true) :
    ∃ t, pickTeam { s with agenda := [] } 0 = some t ∧ (if t.begun = true then t.ir = w else codeAt s t (wordAddr t) w) ∧
      (t.wix = 0 → isHeader w = true) ∧ promoting t = none ∧ decodeWord (tableEntry t.table w) w = .ok i m := by
  unfold stepsB at h
  split at h
  · next t ht =>
    simp only [Bool.and_eq_true, decide_eq_true_eq, Bool.not_eq_true', beq_iff_eq, Option.isNone_iff_eq_none, Bool.or_eq_true,
      bne_iff_ne] at h
    obtain ⟨⟨⟨⟨⟨⟨⟨⟨h0, h1⟩, h2⟩, h3⟩, h4⟩, h5⟩, h6⟩, h7⟩, h8⟩ := h
    refine ⟨t, ht, ?_, fun hw => h6.resolve_left (fun hn => hn hw), h7, h8⟩
    rw [h0, if_neg Bool.false_ne_true]
    refine ⟨_, h1, h2, h3, h4, fun c hc => ?_⟩
    rw [h5] at hc
    exact nomatch hc
  · exact nomatch h

/-- StepRunsTheDecodedWord: an add inside a clause, and a header. -/
theorem witness_step : (placed 0x10061101).agenda = [.issue 0] ∧ (placed 0x10061101).powered = true ∧
    (∃ t, pickTeam { placed 0x10061101 with agenda := [] } 0 = some t ∧
      (if t.begun = true then t.ir = 0x10061101 else codeAt (placed 0x10061101) t (wordAddr t) 0x10061101) ∧
      (t.wix = 0 → isHeader 0x10061101 = true) ∧ promoting t = none ∧
      decodeWord (tableEntry t.table 0x10061101) 0x10061101 = .ok (.add 3 1 2 0 1) Mods.zero) ∧
    (∃ t, pickTeam { placed 0xE0000210 with agenda := [] } 0 = some t ∧
      (if t.begun = true then t.ir = 0xE0000210 else codeAt (placed 0xE0000210) t (wordAddr t) 0xE0000210) ∧
      (t.wix = 0 → isHeader 0xE0000210 = true) ∧ promoting t = none ∧
      decodeWord (tableEntry t.table 0xE0000210) 0xE0000210 = .ok (.clauseHeader 0 0 1 1 0 0 0) Mods.zero) :=
  ⟨rfl, rfl, steps_of (pa := 0x300000004) (by decide +kernel), steps_of (pa := 0x300000000) (by decide +kernel)⟩

/-- StepRunsTheDecodedWord: a word between two of its passes, beside a promotion that it does not wait for. -/
theorem witness_step_in_passes :
    let t := { teamA with begun := true, ir := 0x10061101, pass := some 1, pend := [{ pendA with wait := .promote [0] [accA] }] }
    pickTeam (oneTeam t) 0 = some t ∧ (promoting t).isSome = true ∧ usesMemory (.add 3 1 2 0 1) = false ∧
      decodeWord (tableEntry t.table 0x10061101) 0x10061101 = .ok (.add 3 1 2 0 1) Mods.zero := by
  refine ⟨?_, ?_, ?_, ?_⟩ <;> decide +kernel

/-- The machine goes on. -/
def goesOn (s : State) : Bool :=
  match step s with
  | .next _ => true
  | _ => false

theorem goes_of {s : State} (h : goesOn s = true) : ∃ s', step s = .next s' := by
  unfold goesOn at h
  split at h
  · next s' e => exact ⟨s', e⟩
  · exact nomatch h

/-- StepKeepsInvariant. -/
theorem witness_step_goes_on : (placed 0x10061101).Inv ∧ ∃ s', step (placed 0x10061101) = .next s' :=
  ⟨inv_of (by decide +kernel), goes_of (by decide +kernel)⟩

/-- DecodeAndEncodeAgree. -/
theorem witness_is_word : (Instr.add 3 1 2 0 1).IsWord ∧ decodeDt1 0x10061101 = .ok (.add 3 1 2 0 1) Mods.zero :=
  ⟨⟨rfl, trivial⟩, by decide +kernel⟩

/-- RoundingByMode: the lowest subnormal of a format. -/
theorem witness_rounding : ∀ f ∈ plainFormats, 1 < 2 ^ f.width ∧ (f.val 1).isNan = false := by decide +kernel

/-! ### Witnesses: where the map commands can publish -/

theorem countP_lt {rs : List (Nat × Nat)} {r : Nat × Nat} {x y : Nat} (hr : r ∈ rs) (hxy : x ≤ y) (h1 : x < r.1 + r.2)
    (h2 : ¬ y < r.1 + r.2) :
    rs.countP (fun q => decide (y < q.1 + q.2)) < rs.countP (fun q => decide (x < q.1 + q.2)) := by
  obtain ⟨a, b, rfl⟩ := List.append_of_mem hr
  have mono : ∀ l : List (Nat × Nat), l.countP (fun q => decide (y < q.1 + q.2)) ≤ l.countP (fun q => decide (x < q.1 + q.2)) :=
    fun l => List.countP_mono_left fun q _ h => by simp only [decide_eq_true_eq] at h ⊢; omega
  have ha := mono a
  have hb := mono b
  rw [List.countP_append, List.countP_append, List.countP_cons_of_neg (by simpa using h2), List.countP_cons_of_pos (by simpa using h1)]
  omega

/-- Among the places behind ranges, and behind lo, one is free where fewer ranges lie in a region than it has room for. -/
theorem free_place {ok : Nat → Bool} {up : Nat → Nat} {ends : List Nat} {rs : List (Nat × Nat)} {lo hi size mx : Nat}
    (hup : ∀ a, lo ≤ a → a ≤ up a ∧ up a ≤ a + size)
    (hbad : ∀ a, lo ≤ a → a + size ≤ hi → ok a = false → ∃ r ∈ rs, a < r.1 + r.2 ∧ r.1 < a + size)
    (hends : ∀ r ∈ rs, r.1 + r.2 ∈ ends) (hmx : ∀ r ∈ rs, r.2 ≤ mx) :
    ∀ (m x : Nat), x ∈ ends → lo ≤ x → rs.countP (fun q => decide (x < q.1 + q.2)) ≤ m → x + (m + 1) * (2 * size + mx) ≤ hi →
      ∃ y ∈ ends, ok (up y) = true := by
  intro m
  induction m with
  | zero =>
    intro x hx hlo hc hroom
    obtain ⟨h1, h2⟩ := hup x hlo
    cases hok : ok (up x) with
    | true => exact ⟨x, hx, hok⟩
    | false =>
      obtain ⟨r, hr, h3, -⟩ := hbad (up x) (by omega) (by omega) hok
      have : 0 < rs.countP (fun q => decide (x < q.1 + q.2)) := List.countP_pos_iff.2 ⟨r, hr, by simp only [decide_eq_true_eq]; omega⟩
      omega
  | succ m ih =>
    intro x hx hlo hc hroom
    obtain ⟨h1, h2⟩ := hup x hlo
    have hm : (m + 1 + 1) * (2 * size + mx) = (m + 1) * (2 * size + mx) + (2 * size + mx) := Nat.succ_mul _ _
    cases hok : ok (up x) with
    | true => exact ⟨x, hx, hok⟩
    | false =>
      obtain ⟨r, hr, h3, h4⟩ := hbad (up x) (by omega) (by omega) hok
      have := countP_lt hr (x := x) (y := r.1 + r.2) (by omega) (by omega) (by omega)
      have := hmx r hr
      exact ih (r.1 + r.2) (hends r hr) (by omega) (by omega) (by omega)

theorem lowest_some {l : List Nat} (h : l ≠ []) : ∃ a, lowest l = some a := by
  cases l with
  | nil => exact absurd rfl h
  | cons a l => exact ⟨_, rfl⟩

/-- The ranges in use, and those of extra. -/
def inUse (s : State) (extra : List (Nat × Nat)) : List (Nat × Nat) :=
  s.frames.map (fun f => (f.pa, f.bytes)) ++ s.nodes.map (fun x => (x.pa, 4096)) ++ extra

theorem choose_some {s : State} {ok : Nat → Bool} {base size slots lo hi : Nat} {extra : List (Nat × Nat)} (hs : 0 < size)
    (hlo : base ≤ lo) (hin : lo ∈ [base, (checkArea s.manifest).1 + (checkArea s.manifest).2])
    (hbad : ∀ a, lo ≤ a → a + size ≤ hi → ok a = false → ∃ r ∈ inUse s extra, a < r.1 + r.2 ∧ r.1 < a + size)
    (hmx : ∀ r ∈ inUse s extra, r.2 ≤ 65536)
    (hroom : lo + ((inUse s extra).length + 1) * (2 * size + 65536) ≤ hi) : ∃ pa, choose s ok base size slots extra = some pa := by
  unfold choose
  dsimp only
  split
  · exact ⟨_, rfl⟩
  · next hf =>
    obtain ⟨y, hy, h⟩ := free_place (ok := ok) (up := fun a => base + (a - base + size - 1) / size * size)
      (ends := s.frames.map (fun f => f.pa + f.bytes) ++ s.nodes.map (fun x => x.pa + 4096) ++ extra.map (fun x => x.1 + x.2) ++
        s.poisonMoved.map (fun x => 64 * x.1 + 64) ++
        [base, (checkArea s.manifest).1 + (checkArea s.manifest).2] ++ (List.range 8).map (fun d => 0x10000000000 + d * 2 ^ 38))
      (rs := inUse s extra) (lo := lo) (hi := hi) (size := size) (mx := 65536)
      (fun a ha => by
        have h1 := Nat.div_add_mod (a - base + size - 1) size
        have h2 := Nat.mod_lt (a - base + size - 1) hs
        rw [Nat.mul_comm] at h1
        omega)
      hbad
      (fun r hr => by
        simp only [inUse, List.mem_append, List.mem_map] at hr ⊢
        rcases hr with (⟨f, hf, rfl⟩ | ⟨x, hx, rfl⟩) | hr
        · exact .inl (.inl (.inl (.inl (.inl ⟨f, hf, rfl⟩))))
        · exact .inl (.inl (.inl (.inl (.inr ⟨x, hx, rfl⟩))))
        · exact .inl (.inl (.inl (.inr ⟨r, hr, rfl⟩))))
      hmx (inUse s extra).length lo (by simp only [List.mem_append]; exact .inl (.inr hin)) (Nat.le_refl _) List.countP_le_length hroom
    exact lowest_some (List.ne_nil_of_mem (List.mem_filter.2 ⟨List.mem_map.2 ⟨y, hy, rfl⟩, h⟩))

theorem not_free {s : State} {extra : List (Nat × Nat)} {a n : Nat} (hm : s.poisonMoved = []) (h : rangeFree s extra a n = false) :
    ∃ r ∈ inUse s extra, a < r.1 + r.2 ∧ r.1 < a + n := by
  unfold rangeFree at h
  rw [hm, List.any_nil, Bool.not_false, Bool.and_true] at h
  simp only [inUse, List.mem_append, List.mem_map]
  by_cases hf : s.frames.any (fun f => meets a n f.pa f.bytes) = true
  · obtain ⟨f, hf, hm⟩ := List.any_eq_true.1 hf
    exact ⟨_, .inl (.inl ⟨f, hf, rfl⟩), of_decide_eq_true hm⟩
  by_cases hn : s.nodes.any (fun x => meets a n x.pa 4096) = true
  · obtain ⟨f, hf, hm⟩ := List.any_eq_true.1 hn
    exact ⟨_, .inl (.inr ⟨f, hf, rfl⟩), of_decide_eq_true hm⟩
  rw [Bool.eq_false_iff.2 hf, Bool.eq_false_iff.2 hn, Bool.not_false, Bool.true_and, Bool.true_and, Bool.not_eq_false'] at h
  obtain ⟨r, hr, hm⟩ := List.any_eq_true.1 h
  exact ⟨r, .inr hr, of_decide_eq_true hm⟩

/-- A module whose strong region lies at 0 and that has few frames and nodes. -/
structure Roomy (s : State) : Prop where
  man : s.manifest = defaultManifest
  moved : s.poisonMoved = []
  few : s.frames.length + s.nodes.length ≤ 10
  small : ∀ f ∈ s.frames, f.bytes ≤ 65536

theorem Roomy.strong {s : State} (h : Roomy s) {extra : List (Nat × Nat)} {n : Nat} (hn : n = 4096 ∨ n = 8192)
    (hx : extra.length ≤ 100) (hb : ∀ r ∈ extra, r.2 ≤ 65536) : ∃ pa, chooseStrong s extra n = some pa := by
  have hl := h.few
  unfold chooseStrong
  refine choose_some (lo := 0) (hi := 8 * 2 ^ 30) (by omega) (by rw [h.man]; exact Nat.le_refl 0) (by rw [h.man]; exact .head _) (fun a h1 h2 h3 => ?_)
    (fun r hr => ?_) ?_
  · rw [h.man, strong_in a (by omega), strong_in (a + n - 1) (by omega), Bool.true_and, Bool.true_and] at h3
    exact not_free h.moved h3
  · simp only [inUse, List.mem_append, List.mem_map] at hr
    rcases hr with (⟨f, hf, rfl⟩ | ⟨x, hx, rfl⟩) | hr
    · exact h.small f hf
    · show 4096 ≤ 65536
      omega
    · exact hb r hr
  · have : (inUse s extra).length ≤ 110 := by simp only [inUse, List.length_append, List.length_map]; omega
    have := Nat.mul_le_mul (Nat.add_le_add_right this 1) (show 2 * n + 65536 ≤ 81920 by omega)
    omega

theorem Roomy.page {s : State} (h : Roomy s) {extra : List (Nat × Nat)} (hx : extra.length ≤ 100) (hb : ∀ r ∈ extra, r.2 ≤ 65536) :
    ∃ pa, choosePage s extra 0 65536 = some pa := by
  have hl := h.few
  unfold choosePage
  refine choose_some (lo := 0x220000000) (hi := 2 ^ 39) (by omega) (Nat.zero_le _) (by rw [h.man]; decide) (fun a h1 h2 h3 => ?_)
    (fun r hr => ?_) ?_
  · have hp : pageRange s.manifest 0 a 65536 = true := by
      rw [h.man]
      have h4 : isGddr a = true := decide_eq_true (show a < 2 ^ 39 by omega)
      have h5 : isGddr (a + 65536 - 1) = true := decide_eq_true (show a + 65536 - 1 < 2 ^ 39 by omega)
      have h6 : meets a 65536 (defaultManifest.srBase * 2 ^ 30)
          ((checkArea defaultManifest).1 + (checkArea defaultManifest).2 - defaultManifest.srBase * 2 ^ 30) = false :=
        decide_eq_false (fun h => by
          have := h.1
          have : a < 0x220000000 := this
          omega)
      show (isGddr a && isGddr (a + 65536 - 1) && !meets a 65536 _ _) = true
      rw [h4, h5, h6]
      rfl
    rw [hp, Bool.true_and] at h3
    exact not_free h.moved h3
  · simp only [inUse, List.mem_append, List.mem_map] at hr
    rcases hr with (⟨f, hf, rfl⟩ | ⟨x, hx, rfl⟩) | hr
    · exact h.small f hf
    · show 4096 ≤ 65536
      omega
    · exact hb r hr
  · have : (inUse s extra).length ≤ 110 := by simp only [inUse, List.length_append, List.length_map]; omega
    have := Nat.mul_le_mul (Nat.add_le_add_right this 1) (Nat.le_refl (2 * 65536 + 65536))
    omega

/-- Such a module has room for nodes, side frames and GDDR7 pages of the lowest size. -/
theorem Roomy.room {s : State} (h : Roomy s) : ∀ (xs taken : List (Nat × Nat)),
    (∀ x ∈ xs, x = (3, 4096) ∨ x = (3, 8192) ∨ x = (0, 65536)) → taken.length + xs.length ≤ 100 → (∀ r ∈ taken, r.2 ≤ 65536) →
      Room s taken xs
  | [], _, _, _, _ => trivial
  | x :: xs, taken, hx, hl, hb => by
    intro f
    have hf : Roomy { s with fresh := f } := ⟨h.man, h.moved, h.few, h.small⟩
    have hl : taken.length + xs.length + 1 ≤ 100 := hl
    have next : ∀ n ≤ 65536, ∀ pa, Room s ((pa, n) :: taken) xs := fun n hn pa =>
      h.room xs _ (fun y hy => hx y (.tail _ hy)) (by show taken.length + 1 + xs.length ≤ 100; omega) (fun r hr => by
        rcases List.mem_cons.1 hr with rfl | hr
        · exact hn
        · exact hb r hr)
    rcases hx x (.head _) with rfl | rfl | rfl
    · obtain ⟨pa, hp⟩ := hf.strong (n := 4096) (.inl rfl) (by omega) hb
      exact ⟨pa, (if_pos rfl).trans hp, next _ (by omega) pa⟩
    · obtain ⟨pa, hp⟩ := hf.strong (n := 8192) (.inr rfl) (by omega) hb
      exact ⟨pa, (if_pos rfl).trans hp, next _ (by omega) pa⟩
    · obtain ⟨pa, hp⟩ := hf.page (by omega) hb
      exact ⟨pa, (if_neg (by decide)).trans hp, next _ (by omega) pa⟩

theorem seqFrom_nodup (a n : Nat) : (seqFrom a n).Nodup :=
  List.Nodup.map (fun x y h => by have : a + x = a + y := h; omega) List.nodup_range

/-- A number can be chosen where fewer are in use than there are. -/
theorem chooseId_some {s : State} {n : Nat} {used : List Nat} (h : used.length < n) : ∃ k, chooseId s n used = some k := by
  unfold chooseId
  dsimp only
  split
  · refine Option.isSome_iff_exists.1 (List.find?_isSome.2 (Classical.byContradiction fun hc => ?_))
    have hsub : seqFrom 1 (min n (used.length + 1)) ⊆ used := fun x hx => by
      have := fun hn => hc ⟨x, hx, hn⟩
      simpa using this
    have := (List.subperm_of_subset (seqFrom_nodup _ _) hsub).length_le
    simp only [seqFrom, List.length_map, List.length_range] at this
    omega
  · exact ⟨_, rfl⟩

theorem threeRids_some {s : State} (h : (usedRids s).length ≤ 100) : (threeRids s).isSome = true := by
  unfold threeRids
  obtain ⟨a, ha⟩ : ∃ a, chooseRid s = some a := chooseId_some (by omega)
  obtain ⟨b, hb⟩ : ∃ b, chooseId { s with fresh := s.fresh + 1 } 65535 (a :: usedRids s) = some b :=
    chooseId_some (by rw [List.length_cons]; omega)
  obtain ⟨c, hc⟩ : ∃ c, chooseId { s with fresh := s.fresh + 2 } 65535 (a :: b :: usedRids s) = some c :=
    chooseId_some (by rw [List.length_cons, List.length_cons]; omega)
  rw [ha]
  dsimp only
  rw [hb]
  dsimp only
  rw [hc]
  rfl

/-- The machine with its tree and page known to firmware; count entries name the page. -/
def ctxMap : Context := { ctxA with quotaG := 3, quotaL := 0 }
def stateMap (count : Nat) : State :=
  { stateA with
    contexts := [ctxMap], roots := [{ lineage := 1, ctx := 1, desc := placedRoot, life := .current, snap := false, excl := [] }]
    nodes := [⟨0x100000, 0, [1]⟩, ⟨0x101000, 1, [1]⟩, ⟨0x102000, 2, [1]⟩, ⟨0x103000, 3, [1]⟩]
    frames := [⟨0x300000000, 1, count, 1⟩] }

theorem roomy_map (count : Nat) : Roomy (stateMap count) :=
  ⟨rfl, rfl, by show 1 + 4 ≤ 10; decide, fun f hf => by
    rcases List.mem_singleton.1 hf with rfl
    show 65536 * 1 ≤ 65536
    decide⟩

theorem may_publish (count : Nat) (xs : List (Nat × Nat)) (hx : ∀ x ∈ xs, x = (3, 4096) ∨ x = (3, 8192) ∨ x = (0, 65536))
    (hl : xs.length ≤ 100) : MayPublish (stateMap count) ctxMap xs := by
  refine ⟨fun x hx hl => ?_, fun f => ?_, (roomy_map count).room xs [] hx (by simpa using hl) (fun _ h => nomatch h)⟩
  · rcases List.mem_singleton.1 hx with rfl
    decide
  · obtain ⟨k, hk⟩ : ∃ k, chooseRid { stateMap count with fresh := f } = some k := chooseId_some (by show 1 < 65535; decide)
    rw [hk]
    rfl

/-- The node of a level. -/
def nodeAt (l : Nat) : Nat := 0x100000 + 4096 * l

theorem sget_unlisted (m : List Host.Cell) (d : Byte) (a : Nat) (h : ∀ x ∈ m, x.1 ≠ a) : sget d m a = d := by
  induction m with
  | nil => rfl
  | cons x m ih =>
    show (if a = x.1 then x.2 else sget d m a) = d
    rw [if_neg (fun e => h x (.head _) e.symm), ih (fun y hy => h y (.tail _ hy))]

/-- Beside the first entry of each node there is nothing in the tree. -/
theorem tree_byte (count : Nat) {a : Nat} (h1 : a < 0x300000000) (h2 : 16 ≤ a % 4096) : homeByte (stateMap count) a = 0 :=
  sget_unlisted tree 0 a fun x hx e => by
    have : ∀ x ∈ tree, x.1 % 4096 < 16 ∨ 0x300000000 ≤ x.1 := by decide +kernel
    rcases this x hx with h | h <;> omega

theorem tree_entry (count : Nat) {l i : Nat} (hl : l < 4) (hi : i < 256) (h0 : i ≠ 0) :
    readEntry (stateMap count) (nodeAt l) i = entryOf 0 := by
  have h : homeBytes (stateMap count) (nodeAt l + 16 * i) 16 = List.replicate 16 0 := by
    unfold homeBytes
    rw [List.map_congr_left (g := fun _ => (0 : Byte)) fun j hj => tree_byte count
      (by have := List.mem_range.1 hj; unfold nodeAt; omega) (by have := List.mem_range.1 hj; unfold nodeAt; omega)]
    rfl
  unfold readEntry
  rw [h]
  rfl

/-- The first entry of each node: the last is the leaf. -/
theorem tree_first (count : Nat) : ∀ l < 4, (readEntry (stateMap count) (nodeAt l) 0).valid = true ∧
    malformed l (readEntry (stateMap count) (nodeAt l) 0) = false ∧ (readEntry (stateMap count) (nodeAt l) 0).leaf = (l == 0) ∧
    (readEntry (stateMap count) (nodeAt l) 0).frame = if l = 0 then 0x300000000 else nodeAt (l - 1) := by
  have : ∀ l < 4, (readEntry stateA (nodeAt l) 0).valid = true ∧
    malformed l (readEntry stateA (nodeAt l) 0) = false ∧ (readEntry stateA (nodeAt l) 0).leaf = (l == 0) ∧
    (readEntry stateA (nodeAt l) 0).frame = if l = 0 then 0x300000000 else nodeAt (l - 1) := by decide +kernel
  exact this

theorem walk_absent {s : State} {a l node : Nat} {att : Bool} (h : (readEntry s node (a / 2 ^ levelShift l % 256)).valid = false) :
    walkFrom s a l node att = .absent l := by
  cases l with
  | zero => rw [walkFrom_zero]; dsimp only; rw [h]; rfl
  | succ l => rw [walkFrom_succ]; dsimp only; rw [h]; rfl

theorem walk_leaf {s : State} {a l node : Nat} {att : Bool} {e : Entry} (h : readEntry s node (a / 2 ^ levelShift l % 256) = e)
    (h1 : e.valid = true) (h2 : malformed l e = false) (h3 : e.leaf = true) : walkFrom s a l node att = .leaf l e (att || e.atten) := by
  cases l with
  | zero => rw [walkFrom_zero]; dsimp only; rw [h, h1, h2, h3]; rfl
  | succ l => rw [walkFrom_succ]; dsimp only; rw [h, h1, h2, h3]; rfl

theorem walk_node {s : State} {a l node : Nat} {att : Bool} {e : Entry} (h : readEntry s node (a / 2 ^ levelShift (l + 1) % 256) = e)
    (h1 : e.valid = true) (h2 : malformed (l + 1) e = false) (h3 : e.leaf = false) (h4 : physBad s.manifest e.frame = false) :
    walkFrom s a (l + 1) node att = walkFrom s a l e.frame (att || e.atten) := by
  rw [walkFrom_succ]
  dsimp only
  rw [h, h1, h2, h3, h4]
  rfl

theorem node_in (count : Nat) : ∀ l < 4, physBad (stateMap count).manifest (nodeAt l) = false := by
  have : ∀ l < 4, physBad defaultManifest (nodeAt l) = false := by decide +kernel
  exact this

/-- A walk from the node of a level ends at an absent entry or at the leaf. -/
theorem walk_ends (count a : Nat) : ∀ (l : Nat) (att : Bool), l < 4 →
    (∃ k, walkFrom (stateMap count) a l (nodeAt l) att = .absent k) ∨
      ∃ k e b, walkFrom (stateMap count) a l (nodeAt l) att = .leaf k e b
  | l, att, hl => by
    have hlt : a / 2 ^ levelShift l % 256 < 256 := Nat.mod_lt _ (by omega)
    by_cases hi : a / 2 ^ levelShift l % 256 = 0
    · obtain ⟨e1, e2, e3, e4⟩ := tree_first count l hl
      cases l with
      | zero => exact .inr ⟨_, _, _, walk_leaf (by rw [hi]) e1 e2 e3⟩
      | succ l =>
        have e4 : (readEntry (stateMap count) (nodeAt (l + 1)) 0).frame = nodeAt l := e4.trans (if_neg (by omega))
        rw [walk_node (by rw [hi]) e1 e2 (e3.trans rfl) (by rw [e4]; exact node_in count l (by omega)), e4]
        exact walk_ends count a l _ (by omega)
    · exact .inl ⟨l, walk_absent (by rw [tree_entry count hl hlt hi]; rfl)⟩

theorem reach_tree (count : Nat) : ∀ l < 4, ∀ n ∈ reach (stateMap count) l (nodeAt l), ∃ k < 4, n.1 = nodeAt k
  | 0, hl, n, hn => ⟨0, hl, by rw [List.mem_singleton.1 hn]⟩
  | l + 1, hl, n, hn => by
    rcases List.mem_cons.1 hn with rfl | hn
    · exact ⟨l + 1, hl, rfl⟩
    · obtain ⟨e, he, hn⟩ := List.mem_flatMap.1 hn
      obtain ⟨i, hi, rfl⟩ := List.mem_map.1 he
      by_cases h0 : i = 0
      · obtain ⟨e1, e2, e3, e4⟩ := tree_first count (l + 1) hl
        have e4 : (readEntry (stateMap count) (nodeAt (l + 1)) 0).frame = nodeAt l := e4.trans (if_neg (by omega))
        rw [h0, e1, e3, e4] at hn
        exact reach_tree count l (by omega) n hn
      · rw [tree_entry count hl (List.mem_range.1 hi) h0] at hn
        exact nomatch hn

theorem tree_kept (count : Nat) : TreeKept (stateMap count) ctxMap := by
  refine ⟨test_machine_inv, (by decide : regionOk defaultManifest = true), by decide, by decide, fun n hn => ?_,
    fun a _ => walk_ends count a 3 false (by omega)⟩
  obtain ⟨k, hk, hn⟩ := reach_tree count 3 (by omega) n hn
  rw [hn]
  have : ∀ k < 4, ∃ x ∈ (stateMap 0).nodes, x.pa = nodeAt k := by decide +kernel
  exact this k hk

/-- A map command: of n pages of the lowest size from va on, readable and writable GDDR7, in a form, with a source or snapshot id. -/
def payloadAt (va n form attr : Nat) : List Byte :=
  bytesOf 4 1 ++ bytesOf 8 va ++ bytesOf 4 n ++ bytesOf 4 attr ++ bytesOf 8 0 ++ bytesOf 2 form ++ bytesOf 2 0 ++ bytesOf 4 0 ++
    List.replicate 32 0

theorem publish_pages (count n fmt : Nat) (hf : fmt = 0 ∨ fmt = 1) (hn : n ≤ 3) :
    MayPublish (stateMap count) ctxMap (pageRoom n 0 65536 fmt ++ nodeRoom n) := by
  refine may_publish count _ (fun x hx => ?_) ?_
  · rcases List.mem_append.1 hx with hx | hx
    · obtain ⟨_, _, hx⟩ := List.mem_flatMap.1 hx
      rcases hf with rfl | rfl
      · exact .inr (.inr (List.mem_singleton.1 hx))
      · rcases List.mem_cons.1 hx with rfl | hx
        · exact .inr (.inr rfl)
        · exact .inr (.inl (List.mem_singleton.1 hx))
    · exact .inl (List.mem_replicate.1 hx).2
  · have : n = 0 ∨ n = 1 ∨ n = 2 ∨ n = 3 := by omega
    rcases hf with rfl | rfl <;> rcases this with rfl | rfl | rfl | rfl <;> decide

theorem publish_nodes (count n : Nat) (hn : n ≤ 3) : MayPublish (stateMap count) ctxMap (nodeRoom n) :=
  may_publish count _ (fun x hx => .inl (List.mem_replicate.1 hx).2) (by rw [nodeRoom, List.length_replicate]; omega)

/-- MapCommandsPublish: MAP of three pages beside the tree's page, of a plain format and of one with a scale, to the limit of the
quota; REMAP of the tree's page in form 0. -/
theorem witness_map_new : ∀ x ∈ ([(0x21, 0x20000, 2, 0xC0), (0x21, 0x10000, 2, 0x10C0), (0x23, 0, 1, 0x1C0)] : List (Nat × Nat × Nat × Nat)),
    let r := reqA (payloadAt x.2.1 x.2.2.1 0 x.2.2.2)
    Listens (stateMap 1) r ∧ Names (stateMap 1) r 68 ctxMap ∧ MapBlockFine r ∧ fieldAt r.payload 28 2 = 0 ∧
      RangeMeets (stateMap 1) r ctxMap x.1 ∧ mapNpg r = x.2.2.1 ∧ mapTier r = 0 ∧ mapBytes r = 65536 ∧
      chargedTo (stateMap 1) 1 0 + mapNpg r * (mapBytes r / 65536) ≤ quotaOf ctxMap 0 := by
  have h : ∀ x ∈ ([(0x21, 0x20000, 2, 0xC0), (0x21, 0x10000, 2, 0x10C0), (0x23, 0, 1, 0x1C0)] : List (Nat × Nat × Nat × Nat)),
      let r := reqA (payloadAt x.2.1 x.2.2.1 0 x.2.2.2)
      namesB (stateMap 1) r 68 ctxMap = true ∧ MapBlockFine r ∧ fieldAt r.payload 28 2 = 0 ∧ mapNpg r = x.2.2.1 ∧ mapTier r = 0 ∧
      mapBytes r = 65536 ∧ mapLv r = 0 ∧ mapVa r = x.2.1 ∧
      chargedTo (stateMap 1) 1 0 + mapNpg r * (mapBytes r / 65536) ≤ quotaOf ctxMap 0 := by
    unfold MapBlockFine AttrFine
    decide +kernel
  have w : (∀ a ∈ [0x10000, 0x20000, 0x30000], walkFrom (stateMap 1) a 3 0x103000 false = .absent 0) ∧
      leafOf (stateMap 1) placedRoot 0 = some (0, readEntry (stateMap 1) 0x100000 0, false) := by
    refine ⟨?_, ?_⟩ <;> decide +kernel
  intro x hx
  obtain ⟨h1, h2, h3, h4, h5, h6, h7, h8, h9⟩ := h x hx
  refine ⟨listens_of rfl, names_of h1, h2, h3, fun i hi => ?_, h4, h5, h6, h9⟩
  unfold PageFree PageMapped
  rw [h8, h6, h7]
  rw [h4] at hi
  simp only [List.mem_cons, List.not_mem_nil, or_false] at hx
  rcases hx with rfl | rfl | rfl
  · rw [if_pos rfl]
    exact .inr ⟨0, Nat.le_refl _, w.1 _ (by dsimp only at hi; have : i = 0 ∨ i = 1 := by omega
                                            rcases this with rfl | rfl <;> decide)⟩
  · rw [if_pos rfl]
    exact .inr ⟨0, Nat.le_refl _, w.1 _ (by dsimp only at hi; have : i = 0 ∨ i = 1 := by omega
                                            rcases this with rfl | rfl <;> decide)⟩
  · rw [if_neg (by decide)]
    have : i = 0 := by dsimp only at hi; omega
    subst this
    exact ⟨_, _, w.2⟩

/-- MapCommandsPublish: MAP and REMAP of form 1 from the tree's page; UNMAP of a range that holds it; REMAP of form 2 of it, while one
entry names its frame and while two do; FORK. -/
theorem witness_map_forms :
    (∀ x ∈ ([(0x21, 0x20000), (0x23, 0)] : List (Nat × Nat)), let r := reqA (payloadAt x.2 1 1 0xC0)
      namesB (stateMap 1) r 68 ctxMap = true ∧ MapBlockFine r ∧ fieldAt r.payload 28 2 = 1 ∧ fieldAt r.payload 20 8 = 0 ∧
      fieldAt r.payload 30 2 = 0 ∧ mapNpg r = 1 ∧ mapFmt r = 0 ∧ mapTier r = 0 ∧ mapLv r = 0) ∧
    (let e := readEntry (stateMap 1) 0x100000 0
     leafOf (stateMap 1) placedRoot 0 = some (0, e, false) ∧ e.fmt = 0 ∧ e.tier = 0) ∧
    (let r := reqA (payloadAt 0 2 0 0xC0)
     namesB (stateMap 1) r 68 ctxMap = true ∧ MapBlockFine r ∧ fieldAt r.payload 28 2 = 0 ∧
      partly (stateMap 1) placedRoot 0 (0 + 2 * 65536) 0 = false ∧ partly (stateMap 1) placedRoot 0 (0 + 2 * 65536) (0 + 2 * 65536 - 1) = false) ∧
    (∀ count ∈ [1, 2], let r := reqA (payloadAt 0 1 2 0xC0)
      let e := readEntry (stateMap count) 0x100000 0
      namesB (stateMap count) r 68 ctxMap = true ∧ MapBlockFine r ∧ fieldAt r.payload 28 2 = 2 ∧ mapNpg r = 1 ∧
      leafOf (stateMap count) placedRoot (mapVa r) = some (mapLv r, e, false) ∧
      (stateMap count).frames.find? (fun f => f.pa == e.frame) = some ⟨0x300000000, 1, count, 1⟩ ∧
      (⟨0x300000000, 1, count, 1⟩ : FrameRec).bytes = mapBytes r ∧ chargedTo (stateMap count) 1 0 + 65536 / 65536 ≤ quotaOf ctxMap 0) ∧
    (let r := reqA (payloadAt 0 1 0 0)
     namesB (stateMap 1) r 68 ctxMap = true ∧ fieldAt r.payload 36 32 = 0 ∧ AttrFine r ∧ fieldAt r.payload 28 2 = 0 ∧ mapNpg r = 1) := by
  unfold MapBlockFine AttrFine
  refine ⟨?_, ?_, ?_, ?_, ?_⟩ <;> decide +kernel

theorem witness_fork : (∃ id, chooseCtx (stateMap 1) = some id) ∧
    (∀ f, (threeRids { stateMap 1 with fresh := f }).isSome = true) ∧ MayPublish (stateMap 1) ctxMap [(3, 4096), (3, 4096)] :=
  ⟨chooseId_some (by show 1 < 4095; omega), fun f => threeRids_some (by show 1 ≤ 100; omega),
    may_publish 1 _ (fun x hx => by simp at hx; exact .inl hx) (by decide)⟩

/-! ### Witnesses: numbers -/

/-- Encodings of one, of -2 and of the lowest subnormal number, and their values. -/
theorem stands_one : Stands .fp32 0x3F800000 1 :=
  ⟨by unfold special; decide, fun h => absurd h (by decide), fun _ => by
    rw [(by decide : signOf .fp32 0x3F800000 = false), (by decide : expOf .fp32 0x3F800000 = 127), (by decide : fracOf .fp32 0x3F800000 = 0)]
    norm_num [signed, Fmt.bias]⟩

theorem stands_minus_two : Stands .fp32 0xC0000000 (-2) :=
  ⟨by unfold special; decide, fun h => absurd h (by decide), fun _ => by
    rw [(by decide : signOf .fp32 0xC0000000 = true), (by decide : expOf .fp32 0xC0000000 = 128), (by decide : fracOf .fp32 0xC0000000 = 0)]
    norm_num [signed, Fmt.bias]⟩

theorem stands_least : Stands .e4m3 1 (1 / 512) :=
  ⟨by unfold special; decide, fun _ => by
    rw [(by decide : signOf .e4m3 1 = false), (by decide : fracOf .e4m3 1 = 1)]
    norm_num [signed, Fmt.bias, Fmt.mb, Fmt.eb], fun h => absurd (by decide) h⟩

/-- RoundingByMode, ComparisonsSeedsConversions, ElementaryFunctions: special and flushed encodings, operands in each range. -/
theorem witness_numbers : (special .fp32 0x7F800000 ∧ special .e4m3 0x7F ∧ ¬ special .e4m3 0x7E ∧ ¬ special .e2m1 7) ∧
    (nan32 0x7FC00000 = true ∧ snan32 0x7F800001 = true ∧ flush32 true 0x80000001 = 0x80000000 ∧ flush32 false 1 = 1) ∧
    (0x80000000 < 0x80000001 ∧ 0xBF800000 ≤ 0xFF800000) ∧ ([some (1, 0), none] : List (Option (Word × Nat))).length = 2 ^ 1 ∧
    ((2 : ℝ) ^ (-1 : ℤ) ≤ (3 : ℕ) * (2 : ℝ) ^ (-2 : ℤ) ∧ (3 : ℕ) * (2 : ℝ) ^ (-2 : ℤ) < (2 : ℝ) ^ (-1 + 1 : ℤ)) := by
  refine ⟨?_, ?_, ?_, ?_, ?_⟩
  · unfold special; decide
  · decide
  · decide
  · decide
  · constructor <;> norm_num [zpow_neg]


/-! ### Decoding: a word of every constructor, its bits written out from the encoding tables of spec/ -/

/-- Words of headers and hints (spec/02_words.md). -/
theorem test_words_hints : ∀ x ∈ ([
    (0xEA5E6F57, .clauseHeader 0x52f 3 7 0x15 1 1 1),
    (0xC00128B3, .ext 0x128b3),
    (0xCFF35000, .mod 7 1 1 3 1 2 5),
    (0xD000000D, .sched 1 1 1)] : List (Word × Instr)), decodeDt1 x.1 = .ok x.2 Mods.zero := by decide +kernel

/-- Words of control, synchronisation, system and bindings. -/
theorem test_words_control : ∀ x ∈ ([
    (0x00400000, .nop),
    (0x0081D1C5, .bra 0x1d1c5),
    (0x00E26DED, .bcNz 0x11 0x6ded),
    (0x01042C02, .bcZ 2 0x2c02),
    (0x0140DE07, .recon 0xde07),
    (0x01800000, .join),
    (0x01DC23C5, .brk 0xe 0x23c5),
    (0x02102E72, .call 8 0x2e72),
    (0x02412000, .ret 0x12),
    (0x0280E000, .jmpi 0xe),
    (0x02C00000, .exit),
    (0x02C00004, .exitKill),
    (0x03002D3B, .trap 2 0xd3b),
    (0x03412184, .yield 0x12184),
    (0x03800002, .cbar 2),
    (0x03C00000, .gbar),
    (0x043E8AB8, .wait 0x1f 8 0x15 1 6),
    (0x0467F000, .launch 0x13 0x1f),
    (0x04800004, .tret 1),
    (0x04C53096, .fwcall 2 0x13 0x96),
    (0x055A2F9F, .lease 0xd 2 0xf9f),
    (0x05800000, .unlease),
    (0x05D000BF, .rdsr 8 0xbf),
    (0x06012020, .wrsrFpx 0x12),
    (0x0601C013, .wrsrXdead 0x1c),
    (0x06005030, .wrsrTrapvec 5),
    (0x0600A7A5, .wrsr 0xa 0x7a5),
    (0x0640590C, .mred 5 0x12 1 1),
    (0x06A60010, .mredw 0x13 2),
    (0x806D2AAD, .tcopyY 0x16 0x12aad),
    (0x810A0883, .tquery 5 0x883)] : List (Word × Instr)), decodeDt1 x.1 = .ok x.2 Mods.zero := by decide +kernel

/-- Words of copy engine and matrix array. -/
theorem test_words_engines : ∀ x ∈ ([
    (0x05000000, .trefresh),
    (0x80180800, .tcopy 0xc 2),
    (0x80B7DC00, .tcopyx 0x1b 0x1d 3),
    (0x80DDBC00, .tfill 0xe 0x1b 3),
    (0x900B1C60, .wload 5 0x11 3 1 1),
    (0x90400000, .mswap),
    (0x9080038F, .mzero 0x1c 0xf),
    (0x90F26C3B, .mma 0x19 6 3 1 0xd 1),
    (0x91345615, .mmas 0x1a 5 1 0x10 0xa 1),
    (0x91704C4B, .mmak 0x18 4 3 2 0xb),
    (0x91AC0E20, .mscale 0x16 3 0x11),
    (0x91E507B3, .mdrain 0x12 0x10 1 0x1d 9 1),
    (0x92040027, .mread 2 1 7),
    (0x92400001, .mpair 1),
    (0x92800000, .mfence),
    (0x92D22400, .scfg 9 2 1),
    (0x9322FC00, .sieve 0x11 0xf 3)] : List (Word × Instr)), decodeDt1 x.1 = .ok x.2 Mods.zero := by decide +kernel

/-- Words of integer instructions. -/
theorem test_words_integer : ∀ x ∈ ([
    (0x1025BB05, .add 0x12 0x1b 0x16 1 1),
    (0x10493A85, .sub 4 0x13 0x15 1 1),
    (0x109848C4, .addi 0xc 4 0x8c4),
    (0x10EE3981, .mul 0x17 3 0x13 1),
    (0x11287803, .mulhiS 0x14 7 0x10 3),
    (0x1164EC82, .mulhiU 0x12 0xe 0x19 2),
    (0x119F3F32, .mad 0xf 0x13 0x1e 0xc 2),
    (0x11D1A303, .minS 8 0x1a 6 3),
    (0x12328183, .minU 0x19 8 3 3),
    (0x12551802, .maxS 0xa 0x11 0x10 2),
    (0x12B0F503, .maxU 0x18 0xf 0xa 3),
    (0x12C64003, .abs 3 4 3),
    (0x131C6C82, .and 0xe 6 0x19 2),
    (0x134BE802, .or 5 0x1e 0x10 2),
    (0x1385FB01, .xor 2 0x1f 0x16 1),
    (0x13F32982, .andn 0x19 0x12 0x13 2),
    (0x1417759B, .andi 0xb 0x17 0x59b),
    (0x14690948, .ori 0x14 0x10 0x948),
    (0x14B4F11A, .xori 0x1a 0xf 0x11a),
    (0x14F63F82, .shl 0x1b 3 0x1f 2),
    (0x15217B01, .shr 0x10 0x17 0x16 1),
    (0x15458B82, .sar 2 0x18 0x17 2),
    (0x15AB3B02, .rot 0x15 0x13 0x16 2),
    (0x15D57019, .shli 0xa 0x17 0x19),
    (0x163B6017, .shri 0x1d 0x16 0x17),
    (0x1643F01E, .sari 1 0x1f 0x1e),
    (0x16986003, .popc 0xc 6 3),
    (0x16C90001, .clz 4 0x10 1),
    (0x170F9002, .brev 7 0x19 2),
    (0x174B8A0D, .bfe 5 0x18 1 0x10 0xd),
    (0x179BEE41, .bfi 0xd 0x1e 0x1c 0x10 1),
    (0x17CCF6CA, .cmp 6 0xf 0xd 0x12 2),
    (0x183A5D1C, .cmpiEq 0x1d 5 0xd1c),
    (0x185DC8CE, .cmpiLtS 0xe 0x1c 0x8ce),
    (0x189376A6, .cmpiLtU 9 0x17 0x6a6),
    (0x18D96E26, .cmpiNe 0xc 0x16 0xe26),
    (0x191BF415, .sel 0xd 0x1f 8 5 1),
    (0x194C026C, .movi 6 0x26c),
    (0x19916001, .mov 8 0x16 1),
    (0x19C30D83, .add64 1 0x10 0x1b 3),
    (0x1A0C9501, .sub64 6 9 0xa 1),
    (0x1A4AE88E, .addi64 5 0xe 0x88e),
    (0x1A9949D9, .lea64 0xc 0x14 0x13 1 6 1),
    (0x1AEFC883, .rng 0x17 0x1c 0x11 3),
    (0x1B2B6066, .cvtI 0x15 0x16 6 1 2),
    (0x1B7BCCFF, .dot4S8 0x1d 0x1c 0x19 0x1f 3),
    (0x1BB52692, .dot4U8 0x1a 0x12 0xd 4 2)] : List (Word × Instr)), decodeDt1 x.1 = .ok x.2 Mods.zero := by decide +kernel

/-- Words of floating point. -/
theorem test_words_float : ∀ x ∈ ([
    (0x302AD101, .fadd 0x15 0xd 2 1),
    (0x30467781, .fsub 3 7 0xf 1),
    (0x3088BA01, .fmul 4 0xb 0x14 1),
    (0x30C81997, .ffma 4 1 0x13 5 3),
    (0x3109F603, .fmin 4 0x1f 0xc 3),
    (0x31423E01, .fmax 1 3 0x1c 1),
    (0x31A8D2D6, .fcmp 0x14 0xd 5 0x15 2),
    (0x31FEC003, .fabs 0x1f 0xc 3),
    (0x32190001, .fneg 0xc 0x10 1),
    (0x3249C002, .frcp 4 0x1c 2),
    (0x329F0002, .frsq 0xf 0x10 2),
    (0x32D43001, .fexp2 0xa 3 1),
    (0x33098002, .flog2 4 0x18 2),
    (0x33709002, .sincosT 0x18 9 2),
    (0x33B77001, .fround 0x1b 0x17 1),
    (0x33E21001, .fclass 0x11 1 1),
    (0x343F1601, .fscale 0x1f 0x11 0xc 1),
    (0x346F201E, .cvtFi 0x17 0x12 1 3 2),
    (0x34ABC03A, .cvtIf 0x15 0x1c 1 6 2),
    (0x34E2C12D, .cvtFf 0x11 0xc 2 1 3 1),
    (0x35259886, .hadd2 0x12 0x19 0x11 1 2),
    (0x356A8A05, .hmul2 0x15 8 0x14 1 1),
    (0x35B48DB7, .hfma2 0x1a 8 0x1b 0xd 3),
    (0x35F483C6, .fdot2 0x1a 8 7 0x11 2),
    (0x361980EA, .fdot4F8 0xc 0x18 1 0x1a 2)] : List (Word × Instr)), decodeDt1 x.1 = .ok x.2 Mods.zero := by decide +kernel

/-- Words of cross-lane exchange. -/
theorem test_words_lanes : ∀ x ∈ ([
    (0x5020939B, .shflIdx 0x10 9 7 6 3),
    (0x507EC1CA, .shflXor 0x1f 0xc 0x1ca),
    (0x50B5E2E5, .shflPrv 0x1a 0x1e 0x2e5),
    (0x50D9F3E6, .shflNxt 0xc 0x1f 0x3e6),
    (0x51183001, .voteAny 0xc 3 1),
    (0x51488002, .voteAll 4 8 2),
    (0x518EB001, .ballot 7 0xb 1),
    (0x51E14077, .matchLanes 0x10 0x14 0x1d 3),
    (0x52361043, .redux 0x1b 1 0x10 3),
    (0x5259A055, .scan 0xc 0x1a 0x15 1),
    (0x52B761F7, .cxch 0x1b 0x16 1 0xf 7),
    (0x52F57301, .bcast 0x1a 0x17 0x301)] : List (Word × Instr)), decodeDt1 x.1 = .ok x.2 Mods.zero := by decide +kernel

/-- Words of memory, scratchpad and queues. -/
theorem test_words_memory : ∀ x ∈ ([
    (0x600F04DF, .ld 7 0x10 2 0xdf),
    (0x6075562D, .st 0x1a 0x15 3 0x2d),
    (0x60B5FDF2, .ldx 0x1a 0x1f 0x1f2),
    (0x60F0DAEE, .ldAcq 0x18 0xd 1 0xee),
    (0x611B8BE5, .stRel 0xd 0x18 1 0x1e5),
    (0x61478A52, .ldAcqp 3 0x18 1 0x52),
    (0x618C524E, .stNt 6 5 1 0x4e),
    (0x61C00000, .ntdrain),
    (0x62000A00, .fence 5),
    (0x627AFD55, .atom 0x1d 0xf 0x1a 0x15 1),
    (0x62A9B85A, .cas 0x14 0x1b 0x10 0x16 2),
    (0x62C05905, .red 5 0x12 1 1),
    (0x63358C35, .lds 0x1a 0x18 6 0x35),
    (0x636384DF, .sts 0x11 0x18 2 0xdf),
    (0x63B87D86, .atoms 0x1c 7 0x1b 1 2),
    (0x63C07896, .pref 7 0x96),
    (0x64011403, .qinit 0x11 8 3),
    (0x6440B483, .qsend 0xb 9 3),
    (0x649DB001, .qrecv 0xe 0x1b 1),
    (0x64C5E003, .qtry 2 0x1e 3),
    (0xA00207E5, .bind 1 7 0xe5),
    (0xA07C303C, .bindx 0x1e 3 0xf)] : List (Word × Instr)), decodeDt1 x.1 = .ok x.2 Mods.zero := by decide +kernel

/-! ### Ill-formed words: one for each check -/

/-- WellFormed refuses an event, a wrsr of a register that has a constructor of its own, a reserved field, an odd pair, a form
that refuses its WID, modifiers that are not taken, reserved header fields, a reserved mod field, a reserved compaction. -/
theorem test_ill_formed_words :
    ¬ (Instr.loadComplete 0 0).WellFormed Mods.zero ∧ ¬ (Instr.wrsr 1 0x030).WellFormed Mods.zero ∧
    ¬ (Instr.cmp 1 2 3 10 0).WellFormed Mods.zero ∧ ¬ (Instr.add 1 2 3 1 0).WellFormed Mods.zero ∧
    ¬ (Instr.add64 1 2 4 0).WellFormed Mods.zero ∧ ¬ (Instr.ld 2 4 6 0).WellFormed Mods.zero ∧
    ¬ (Instr.atom 2 4 6 10 0).WellFormed ⟨0, 0, 0, 0, 0, 0, 4⟩ ∧ ¬ (Instr.and 1 2 3 0).WellFormed ⟨0, 0, 1, 0, 0, 0, 0⟩ ∧
    ¬ (Instr.clauseHeader 0 12 0 1 0 0 0).WellFormed Mods.zero ∧ ¬ (Instr.clauseHeader 0 0 0 25 0 0 0).WellFormed Mods.zero ∧
    ¬ (Instr.mod 5 0 0 0 0 0 0).WellFormed Mods.zero ∧ ¬ (Instr.sched 0 0 3).WellFormed Mods.zero := by
  refine ⟨?_, ?_, ?_, ?_, ?_, ?_, ?_, ?_, ?_, ?_, ?_, ?_⟩ <;> dsimp only [Instr.WellFormed, Instr.IsWord] <;> decide +kernel

/-- The same words without the fault, and one with the modifier that it takes. -/
theorem test_well_formed_words :
    (Instr.cmp 1 2 3 9 0).WellFormed Mods.zero ∧ (Instr.add 1 2 3 1 0).WellFormed ⟨0, 0, 1, 0, 0, 0, 0⟩ ∧
    (Instr.add64 2 4 6 0).WellFormed Mods.zero ∧ (Instr.ld 4 4 6 0).WellFormed Mods.zero ∧
    (Instr.atom 2 4 6 10 0).WellFormed Mods.zero ∧ (Instr.clauseHeader 0 15 11 24 0 0 0).WellFormed Mods.zero ∧
    (Instr.mod 4 1 1 2 5 3 5).WellFormed Mods.zero ∧ (Instr.sched 1 1 2).WellFormed Mods.zero := by
  refine ⟨?_, ?_, ?_, ?_, ?_, ?_, ?_, ?_⟩ <;> dsimp only [Instr.WellFormed, Instr.IsWord] <;> decide +kernel

/-- Words that do not decode (R18, R35, R45): opcode 0, a disabled opcode, a hint of kind 11, a reserved bit of an ext hint, a
fixed field of nop. -/
theorem test_words_that_do_not_decode : ∀ x ∈ ([(0x00000000, 0x01), (0x06C00000, 0x02), (0xD8000000, 0x06), (0xC0100000, 0x06),
    (0x00400001, 0x04)] : List (Word × Nat)), decodeDt1 x.1 = .ill x.2 := by decide +kernel

/-! ### Results that the spec works out -/

/-- A team whose slots hold these words in every lane, with modifiers. -/
def teamWith (m : Mods) (ws : List (Nat × Word)) : Team := { teamA with regs := lanes3 (ws.map (fun w => (w.1, fun _ => w.2.toNat))), fmod := m }

/-- What an instruction leaves in lane 1 of a register, and the lane's sticky bits. -/
def result (m : Mods) (ws : List (Nat × Word)) (i : Instr) (r : Nat) : Option (Word × BitVec 4) :=
  match exec i (oneTeam (teamWith m ws)) with
  | .next s => (findTeam s 7).map (fun t => (reg t 1 r, sget 0 t.fpx 1))
  | _ => none

def sat : Mods := ⟨0, 0, 1, 0, 0, 0, 0⟩
def rm (n : BitVec 3) : Mods := ⟨n, 0, 0, 0, 0, 0, 0⟩

/-- The examples of R172 and R173. -/
theorem test_add_mul :
    result Mods.zero [(5, 0xFFFFFFF0), (6, 0x20)] (.add 4 5 6 0 0) 4 = some (0x10, 0) ∧
    result sat [(5, 0xFFFFFFF0), (6, 0x20)] (.add 4 5 6 1 0) 4 = some (0xFFFFFFFF, 0) ∧
    result sat [(5, 0xFFFFFFF0), (6, 0x20)] (.add 4 5 6 0 0) 4 = some (0x10, 0) ∧
    result Mods.zero [(5, 0xFFFFFFFF), (6, 2)] (.mulhiU 4 5 6 0) 4 = some (1, 0) ∧
    result Mods.zero [(5, 0xFFFFFFFF), (6, 2)] (.mulhiS 4 5 6 0) 4 = some (0xFFFFFFFF, 0) ∧
    result Mods.zero [(5, 0xFFFFFFFF), (6, 2)] (.mul 4 5 6 0) 4 = some (0xFFFFFFFE, 0) ∧
    result Mods.zero [(5, 0x80000000)] (.abs 4 5 0) 4 = some (0x80000000, 0) ∧
    result sat [(5, 0x80000000)] (.abs 4 5 0) 4 = some (0x7FFFFFFF, 0) := by decide +kernel

/-- The examples of R176. -/
theorem test_shifts : ∀ x ∈ ([(.shl 4 5 6 0, 0), (.sar 4 5 6 0, 0xFFFFFFFF), (.rot 4 5 6 0, 3)] : List (Instr × Word)),
    result Mods.zero [(5, 0x80000001), (6, 33)] x.1 4 = some (x.2, 0) := by decide +kernel

/-- The table of R185; a 64-bit destination by both its words. -/
theorem test_cvt_i : ∀ x ∈ ([(Mods.zero, [(4, 300)], .cvtI 2 4 1 1 0, 2, 0x2C), (sat, [(4, 300)], .cvtI 2 4 1 1 0, 2, 0x7F),
      (Mods.zero, [(4, 0xFFFFFF38)], .cvtI 2 4 0 1 0, 2, 0x38), (sat, [(4, 0xFFFFFF38)], .cvtI 2 4 0 1 0, 2, 0),
      (Mods.zero, [(4, 0xFFFFFFFF)], .cvtI 2 4 5 0 0, 2, 0xFFFFFFFF), (sat, [(4, 0xFFFFFFFF)], .cvtI 2 4 5 0 0, 2, 0x7FFFFFFF),
      (Mods.zero, [(4, 0xFFFFFFFB)], .cvtI 2 4 6 1 0, 2, 0xFFFFFFFB), (Mods.zero, [(4, 0xFFFFFFFB)], .cvtI 2 4 6 1 0, 3, 0xFFFFFFFF),
      (sat, [(4, 0xFFFFFFFB)], .cvtI 2 4 6 1 0, 3, 0), (Mods.zero, [(4, 0), (5, 1)], .cvtI 2 4 4 2 0, 2, 0),
      (sat, [(4, 0), (5, 1)], .cvtI 2 4 4 2 0, 2, 0xFFFFFFFF)] : List (Mods × List (Nat × Word) × Instr × Nat × Word)),
    result x.1 x.2.1 x.2.2.1 x.2.2.2.1 = some (x.2.2.2.2, 0) := by decide +kernel

/-- The examples of R193: 2^24 + 1 is a tie. -/
theorem test_fadd : result Mods.zero [(4, 0x4B800000), (5, 0x3F800000)] (.fadd 6 4 5 0) 6 = some (0x4B800000, 0) ∧
    result (rm 2) [(4, 0x4B800000), (5, 0x3F800000)] (.fadd 6 4 5 0) 6 = some (0x4B800001, 0) := by decide +kernel

/-- The table of R77: 500.0 to E4M3 without and with NaN-on-overflow and to E5M2, 2.6 and a NaN to E2M1, 1.0 x 10^-10 to FP16,
and a tie to BF16. -/
theorem test_cvt_ff : ∀ x ∈ ([(0x3F808000, .cvtFf 3 4 0 0 1 0, 0x3F80, 0), (0x43FA0000, .cvtFf 3 4 0 0 3 0, 0x7E, flagOF),
      (0x43FA0000, .cvtFf 3 4 0 1 3 0, 0x7F, flagOF), (0x43FA0000, .cvtFf 3 4 0 0 4 0, 0x60, 0), (0x40266666, .cvtFf 3 4 0 0 5 0, 5, 0),
      (0x7FC00000, .cvtFf 3 4 0 0 5 0, 0, flagIV), (0x2EDBE6FF, .cvtFf 3 4 0 0 2 0, 0, flagUF)] : List (Word × Instr × Word × Nat)),
    result Mods.zero [(4, x.1)] x.2.1 3 = some (x.2.2.1, BitVec.ofNat 4 x.2.2.2) := by decide +kernel

/-- The tables of R77 and R202. -/
theorem test_cvt_fi_if : ∀ x ∈ ([(Mods.zero, 0xC06CCCCD, .cvtFi 3 4 1 0 0, 0xFFFFFFFC, 0), (Mods.zero, 0x4396199A, .cvtFi 3 4 1 0 0, 0x2C, flagIV),
      (sat, 0x4396199A, .cvtFi 3 4 1 0 0, 0x7F, flagIV), (Mods.zero, 0xC0200000, .cvtFi 3 4 5 0 0, 0xFFFFFFFE, 0),
      (rm 3, 0xC0200000, .cvtFi 3 4 5 0 0, 0xFFFFFFFD, 0), (Mods.zero, 70000, .cvtIf 3 4 2 4 0, 0x7C00, flagOF),
      (sat, 70000, .cvtIf 3 4 2 4 0, 0x7BFF, flagOF)] : List (Mods × Word × Instr × Word × Nat)),
    result x.1 [(4, x.2.1)] x.2.2.1 3 = some (x.2.2.2.1, BitVec.ofNat 4 x.2.2.2.2) := by decide +kernel

/-- The last row of R202: two elements under WID. -/
theorem test_cvt_ff_two : result ⟨0, 0, 0, 0, 0, 0, 5⟩ [(24, 0x3F800000), (25, 0xBE99999A)] (.cvtFf 20 24 0 0 1 0) 20 =
    some (0xBE9A3F80, 0) := by decide +kernel

/-- The seeds of R203 and the table of R204. -/
theorem test_frsq : ∀ x ∈ ([(0x40400000, 0x3F13CE00, 0), (2, 0x64800000, 0), (0, 0x7F800000, flagDZ), (0xFF800000, 0x7FC00000, flagIV)] :
    List (Word × Word × Nat)), result Mods.zero [(3, x.1)] (.frsq 4 3 0) 4 = some (x.2.1, BitVec.ofNat 4 x.2.2) := by decide +kernel

/-- R204: the refined value of 1/sqrt 3, and the residual 43,859 x 2^-30 on the way. -/
theorem test_frsq_refined :
    result Mods.zero [(3, 0x40400000), (4, 0x3F13CE00)] (.fmul 5 3 4 0) 5 = some (0x3FDDB500, 0) ∧
    result Mods.zero [(5, 0x3FDDB500), (4, 0x3F13CE00), (7, 0xBF800000)] (.ffma 6 5 4 7 0) 6 = some (0x382B5300, 0) ∧
    result Mods.zero [(8, 0xBE93CE00), (6, 0x382B5300), (4, 0x3F13CE00)] (.ffma 4 8 6 4 0) 4 = some (0x3F13CD3A, 0) := by decide +kernel

/-- Integer powers, and R205's log2 of 2^-149. -/
theorem test_exp_log : result Mods.zero [(4, 0x41200000)] (.fexp2 3 4 0) 3 = some (0x44800000, 0) ∧
    result Mods.zero [(4, 1)] (.flog2 3 4 0) 3 = some (0xC3150000, 0) ∧ result Mods.zero [(4, 0)] (.flog2 3 4 0) 3 = some (0xFF800000, BitVec.ofNat 4 flagDZ) := by
  decide +kernel

/-- R206: half a turn. -/
theorem test_sincos : result Mods.zero [(4, 0x80000000)] (.sincosT 12 4 0) 12 = some (0, 0) ∧
    result Mods.zero [(4, 0x80000000)] (.sincosT 12 4 0) 13 = some (0xBF800000, 0) := by decide +kernel

/-- R178, R179, R180, R186, R197: a field of three ones with its sign; a field put at bit 8; -1 below 1 signed and not unsigned; a
dot product with a negative byte; the class of a quiet NaN. -/
theorem test_fields : result Mods.zero [(4, 0x00000E00)] (.bfe 3 4 1 3 9) 3 = some (0xFFFFFFFF, 0) ∧
    result Mods.zero [(4, 0xAB), (5, 0xFFFFFFFF), (6, 0x00000808)] (.bfi 3 4 5 6 0) 3 = some (0xFFFFABFF, 0) ∧
    result Mods.zero [(4, 0xFFFFFFFF), (5, 1)] (.cmp 3 4 5 2 0) 3 = some (1, 0) ∧
    result Mods.zero [(4, 0xFFFFFFFF), (5, 1)] (.cmp 3 4 5 6 0) 3 = some (0, 0) ∧
    result Mods.zero [(4, 0x000000FF), (5, 0x00000003), (6, 10)] (.dot4S8 3 4 5 6 0) 3 = some (7, 0) ∧
    result Mods.zero [(4, 0x7FC00000)] (.fclass 3 4 0) 3 = some (0x200, 0) := by decide +kernel

/-- R15, R207, R210 to R215 with lanes 0 to 3 live: what a lane receives. v12 holds the lane's number, 0 in lane 3, and v8 the number 5, 0 in lane 3. -/
def laneResult (i : Instr) (l r : Nat) : Option Word :=
  match exec i (oneTeam { teamA with live := 15, active := 15, regs := lanes3 [(8, fun _ => 5), (12, fun l => l)] }) with
  | .next s => (findTeam s 7).map (fun t => reg t l r)
  | _ => none

theorem test_cross_lane :
    laneResult (.shflXor 20 12 1) 1 20 = some 0 ∧ laneResult (.shflXor 20 12 2) 0 20 = some 2 ∧
    laneResult (.shflPrv 20 12 1) 0 20 = some 0 ∧ laneResult (.bcast 20 12 2) 1 20 = some 2 ∧
    laneResult (.ballot 20 12 0) 1 20 = some 2 ∧ laneResult (.voteAny 20 12 0) 0 20 = some 1 ∧
    laneResult (.voteAll 20 12 0) 0 20 = some 0 ∧ laneResult (.matchLanes 20 8 0 0) 1 20 = some 7 ∧
    laneResult (.redux 20 12 0 0) 0 20 = some 3 ∧ laneResult (.scan 20 12 0 0) 1 20 = some 1 ∧
    laneResult (.cxch 20 12 0 2 0) 0 20 = some 0 ∧ laneResult (.cxch 20 12 0 1 0) 2 20 = some 2 := by decide +kernel

/-- One store of lane 0, and what memory holds after it is performed (R262): the bytes of 0xFFFFFF, little-endian. -/
def stored (i : Instr) : Option (List Byte) :=
  match exec i (oneTeam { teamA with live := 1, active := 1 }) with
  | .next s =>
    (match exec (.storePerformedAtHome 100) s with
     | .next s => some (homeBytes s 0x300006000 4)
     | _ => none)
  | _ => none

theorem test_store : stored (.st 14 2 4 0) = some [0xFF, 0xFF, 0xFF, 0] ∧ stored (.st 14 2 0 0) = some [0xFF, 0, 0, 0] := by
  decide +kernel

/-- The place of the team and its lanes after a word (R279, R281, R288): a backward branch by two words from the next word's
address 0x9008, and an exit. -/
def placeAfter (i : Instr) : Option (Word × Nat × Nat) :=
  match exec i stateA with
  | .next s => (findTeam s 7).map (fun t => (t.pc, t.wix, t.live.toNat))
  | _ => none

theorem test_branch_exit : placeAfter (.bra 0) = some (0x9008, 0, 7) ∧ (placeAfter .exit).map (fun x => x.2.2) = some 0 := by
  decide +kernel

/-- R69: under RD an exact zero that is no sum is -0. -/
theorem test_zero_under_rd :
    result (rm 3) [(4, 0), (5, 0x3F800000)] (.fmul 6 4 5 0) 6 = some (0x80000000, 0) ∧
    result Mods.zero [(4, 0), (5, 0x3F800000)] (.fmul 6 4 5 0) 6 = some (0, 0) ∧
    result (rm 3) [(4, 0)] (.cvtIf 6 4 0 4 0) 6 = some (0x80000000, 0) := by decide +kernel

/-- The check values of the two hashes' standards: CRC-32C of "123456789", SHA-384 of "abc" (log entry 75). -/
theorem test_hashes : crc32c [0x31, 0x32, 0x33, 0x34, 0x35, 0x36, 0x37, 0x38, 0x39] = 0xE3069283 ∧
    (sha384 [0x61, 0x62, 0x63]).take 8 = [0xCB, 0x00, 0x75, 0x3F, 0x45, 0xA3, 0x5E, 0x8B] ∧
    (sha384 [0x61, 0x62, 0x63]).drop 40 = [0x58, 0xBA, 0xEC, 0xA1, 0x34, 0xC8, 0x25, 0xA7] := by decide +kernel

end Sys2Proof.Tests
end

/-! ## Words of code: the decoder and the encoder -/

namespace Sys2Proof.Proofs

/-! ### Fields of a word -/

/-- A bit vector is made of its upper and its lower bits. -/
theorem append_eq_iff {n m : Nat} (x : BitVec n) (y : BitVec m) (w : BitVec (n + m)) :
    x ++ y = w ↔ x = w.extractLsb' m n ∧ y = w.extractLsb' 0 m := by
  constructor
  · rintro rfl
    exact ⟨BitVec.extractLsb'_append_eq_left.symm, BitVec.extractLsb'_append_eq_right.symm⟩
  · rintro ⟨rfl, rfl⟩
    exact BitVec.extractLsb'_append_extractLsb'

/-- A field of a field is a field. -/
theorem extractLsb'_extractLsb' {k : Nat} (w : BitVec k) (lo n lo' n' : Nat) (h : lo' + n' ≤ n) :
    (w.extractLsb' lo n).extractLsb' lo' n' = w.extractLsb' (lo + lo') n' := by
  ext i hi
  simp [BitVec.getElem_extractLsb', show lo' + i < n by omega, Nat.add_assoc]

/-- Bits 31-29 of a word are the upper bits of its opcode (R18). -/
theorem fld_29_3 (w : Word) : fld w 29 3 = (fld w 22 10).extractLsb' 7 3 :=
  (extractLsb'_extractLsb' w 22 10 7 3 (by decide)).symm

/-! ### The entries of DT-1 (R39, R40, R44) -/

/-- An entry of DT-1 for an operation of the map is enabled and well formed, leads to the operation, and sets no modifier; the
opcode is neither 0 nor one of a header or a hint (R18, R39). -/
theorem dt1Entry_listed : ∀ op < 1024, (formatOf op).isSome = true →
    fld (dt1Entry op) 31 1 = 1 ∧ entryOk (dt1Entry op) = true ∧ (fld (dt1Entry op) 16 10).toNat = op ∧
      modsOfFmod (fld (dt1Entry op) 0 15) = Mods.zero ∧ op ≠ 0 ∧ op < 768 := by decide +kernel

/-- The entry of any other opcode is not enabled (R39). -/
theorem dt1Entry_unlisted {op : Nat} (h : formatOf op = none) : fld (dt1Entry op) 31 1 = 0 := by
  simp only [dt1Entry, h]
  rfl

/-- Below opcode 0x300 a word is neither a header nor a hint (R18). -/
theorem fld_29_3_of_lt {w : Word} (h : (fld w 22 10).toNat < 768) : fld w 29 3 ≠ 7 ∧ fld w 29 3 ≠ 6 := by
  have h3 : (fld w 29 3).toNat = (fld w 22 10).toNat / 128 % 8 := by
    rw [fld_29_3, BitVec.extractLsb'_toNat, Nat.shiftRight_eq_div_pow]
  constructor <;> (intro e; rw [e] at h3; simp at h3; omega)

/-- Through DT-1, a word whose opcode the map lists is what its operation reads in it (R39). -/
theorem decodeDt1_listed {w : Word} (h : (formatOf (fld w 22 10).toNat).isSome = true) (i : Instr) (m : Mods) :
    decodeDt1 w = .ok i m ↔ decodeOp (fld w 22 10).toNat w = some i ∧ m = Mods.zero := by
  obtain ⟨hen, hok, hop, hm, h0, hlt⟩ := dt1Entry_listed _ (fld w 22 10).isLt h
  obtain ⟨h7, h6⟩ := fld_29_3_of_lt hlt
  have h0' : fld w 22 10 ≠ 0 := fun e => h0 (by rw [e]; rfl)
  unfold decodeDt1 decodeWord isHeader
  simp only [beq_iff_eq, h7, h6, h0', hen, hok, hop, hm, if_false, Bool.not_true, Bool.false_eq_true]
  rw [if_neg (by decide)]
  cases decodeOp (fld w 22 10).toNat w <;> simp [eq_comm]

/-- Through DT-1, a word that is no header and no hint and whose opcode the map does not list is refused. -/
theorem decodeDt1_unlisted {w : Word} (h : formatOf (fld w 22 10).toNat = none) (h7 : fld w 29 3 ≠ 7) (h6 : fld w 29 3 ≠ 6)
    (i : Instr) (m : Mods) : decodeDt1 w ≠ .ok i m := by
  unfold decodeDt1 decodeWord isHeader
  simp only [beq_iff_eq, h7, h6, dt1Entry_unlisted h, if_false, if_true]
  split <;> exact nofun

/-! ### What the decoder answers, the encoder makes -/

theorem forall_ite_eq_some {α : Type} (c : Prop) [Decidable c] (x : α) (o : Option α) (P : α → Prop) :
    (∀ i, (if c then some x else o) = some i → P i) ↔ (c → P x) ∧ (¬ c → ∀ i, o = some i → P i) := by
  by_cases h : c <;> simp [h]

/-- exit and exit.kill differ in their lower bits (R288, R289). -/
theorem encode_of_decodeOp_exit {w : Word} (hw : fld w 22 10 = 0x00b) : ∀ i, decodeOp 0x00b w = some i →
    (formatOf 0x00b).isSome = true ∧ i.IsWord ∧ encode i = some w := by
  have hwhole : 0xb#10 ++ fld w 0 22 = w := (append_eq_iff _ _ _).2 ⟨hw.symm, rfl⟩
  refine (forall_ite_eq_some _ _ _ _).2 ⟨fun h => ?_, fun _ => (forall_ite_eq_some _ _ _ _).2 ⟨fun h => ?_, fun _ => nofun⟩⟩
  · rw [beq_iff_eq.1 h] at hwhole
    exact ⟨rfl, ⟨rfl, trivial⟩, congrArg some hwhole⟩
  · rw [beq_iff_eq.1 h] at hwhole
    exact ⟨rfl, ⟨rfl, trivial⟩, congrArg some hwhole⟩

/-- The instruction that wrsr's register number selects (R353). -/
def wrsrOf (a : BitVec 5) (n : BitVec 12) : Instr :=
  if n = 0x020 then .wrsrFpx a else if n = 0x013 then .wrsrXdead a else if n = 0x030 then .wrsrTrapvec a else .wrsr a n

/-- A word of wrsr names its register in bits 11-0; bits 21-17 are zero (R353). -/
theorem decodeOp_wrsr (w : Word) :
    decodeOp 0x018 w = if fld w 17 5 = 0 then some (wrsrOf (fld w 12 5) (fld w 0 12)) else none := by
  unfold decodeOp wrsrOf
  by_cases hz : fld w 17 5 = 0
  · simp only [hz, BEq.rfl, Bool.true_and, beq_iff_eq, if_true]
    split_ifs <;> rfl
  · simp only [hz, beq_false_of_ne hz, Bool.false_and, Bool.false_eq_true, if_false]

theorem wrsrOf_isWord (a : BitVec 5) (n : BitVec 12) : (wrsrOf a n).IsWord := by
  unfold wrsrOf
  split_ifs with h1 h2 h3
  · exact ⟨rfl, trivial⟩
  · exact ⟨rfl, trivial⟩
  · exact ⟨rfl, trivial⟩
  · refine ⟨rfl, ?_⟩
    simp only [writableSr, Bool.or_eq_false_iff, beq_eq_false_iff_ne]
    exact ⟨⟨h1, h2⟩, h3⟩

theorem encode_wrsrOf (a : BitVec 5) (n : BitVec 12) : encode (wrsrOf a n) = some (0x18#10 ++ 0x0#5 ++ a ++ n) := by
  unfold wrsrOf
  split_ifs with h1 h2 h3
  · rw [h1]; rfl
  · rw [h2]; rfl
  · rw [h3]; rfl
  · rfl

theorem encode_of_decodeOp_wrsr {w : Word} (hw : fld w 22 10 = 0x018) : ∀ i, decodeOp 0x018 w = some i →
    (formatOf 0x018).isSome = true ∧ i.IsWord ∧ encode i = some w := by
  rw [decodeOp_wrsr]
  refine (forall_ite_eq_some _ _ _ _).2 ⟨fun hz => ⟨rfl, wrsrOf_isWord _ _, ?_⟩, fun _ => nofun⟩
  rw [encode_wrsrOf, Option.some.injEq, append_eq_iff]
  simp (disch := decide) only [append_eq_iff, extractLsb'_extractLsb', fld] at *
  simp [*]

/-- An operation that reads an instruction in a word is one of the DT-1 map and the instruction's own, and the encoder makes the
word of the instruction (R19, R20, R44). -/
theorem encode_of_decodeOp (op : Nat) (w : Word) (hw : fld w 22 10 = BitVec.ofNat 10 op) : ∀ i, decodeOp op w = some i →
    (formatOf op).isSome = true ∧ i.IsWord ∧ encode i = some w := by
  revert hw
  unfold decodeOp
  split
  case h_151 => exact fun _ i h => nomatch h
  case h_11 => exact encode_of_decodeOp_exit
  case h_24 => exact encode_of_decodeOp_wrsr
  all_goals
    intro hw
    simp only [forall_ite_eq_some, Option.some.injEq, forall_eq', reduceCtorEq, false_implies, implies_true, and_true,
      Bool.and_eq_true, beq_iff_eq, and_imp]
    intros
    refine ⟨rfl, ⟨rfl, trivial⟩, ?_⟩
    unfold encode
    dsimp only
    rw [Option.some.injEq, append_eq_iff]
    simp (disch := decide) only [append_eq_iff, extractLsb'_extractLsb', fld] at *
    simp [*]

/-! ### What the encoder makes, the decoder answers

One theorem for each block of internal operation numbers (R44), since the decoder tries them in turn. In every block some words
have all their bits in operands, and the others have bits that the decoder checks. -/

section

variable {i : Instr} {w : Word} (h : encode i = some w)

include h

theorem decodeOp_encode_control (hop : 0x001 ≤ iopOf i ∧ iopOf i ≤ 0x01a) (hi : i.IsWord) :
    fld w 22 10 = BitVec.ofNat 10 (iopOf i) ∧ decodeOp (iopOf i) w = some i := by
  cases i
  all_goals (unfold iopOf at hop; simp at hop)
  all_goals
    unfold encode at h
    dsimp only at h
    rw [Option.some.injEq, append_eq_iff] at h
    simp (disch := decide) only [append_eq_iff, extractLsb'_extractLsb', fld] at h ⊢
  case exit => exact ⟨by simp only [← h]; rfl, if_pos (by simp only [fld, ← h]; rfl)⟩
  case exitKill =>
    exact ⟨by simp only [← h]; rfl, (if_neg (by simp only [fld, ← h]; decide)).trans (if_pos (by simp only [fld, ← h]; rfl))⟩
  case wrsrFpx | wrsrXdead | wrsrTrapvec =>
    exact ⟨by simp only [← h]; rfl, (decodeOp_wrsr w).trans (by simp only [fld, ← h]; rfl)⟩
  case wrsr a n =>
    have hn : n ≠ 0x020 ∧ n ≠ 0x013 ∧ n ≠ 0x030 := by simpa [writableSr, and_assoc] using hi.2
    have hwrsr : wrsrOf a n = .wrsr a n := by simp only [wrsrOf, hn, if_false]
    exact ⟨by simp only [← h]; rfl, (decodeOp_wrsr w).trans (by simp only [fld, ← h, hwrsr]; rfl)⟩
  case bcNz | bcZ | brk | call | lease =>
    exact ⟨by simp only [← h]; rfl, Eq.trans (b := some _) rfl (by simp only [fld, ← h])⟩
  all_goals
    exact ⟨by simp only [← h]; rfl, Option.ite_none_right_eq_some.2 ⟨by simp only [fld, ← h]; rfl, by simp only [fld, ← h]⟩⟩

theorem decodeOp_encode_integer (hop : 0x040 ≤ iopOf i ∧ iopOf i ≤ 0x06e) :
    fld w 22 10 = BitVec.ofNat 10 (iopOf i) ∧ decodeOp (iopOf i) w = some i := by
  cases i
  all_goals (unfold iopOf at hop; simp at hop)
  all_goals
    unfold encode at h
    dsimp only at h
    rw [Option.some.injEq, append_eq_iff] at h
    simp (disch := decide) only [append_eq_iff, extractLsb'_extractLsb', fld] at h ⊢
  case addi | mad | andi | ori | xori | bfe | bfi | cmp | cmpiEq | cmpiLtS | cmpiLtU | cmpiNe | sel | addi64 | lea64 | dot4S8 | dot4U8 =>
    exact ⟨by simp only [← h]; rfl, Eq.trans (b := some _) rfl (by simp only [fld, ← h])⟩
  all_goals
    exact ⟨by simp only [← h]; rfl, Option.ite_none_right_eq_some.2 ⟨by simp only [fld, ← h]; rfl, by simp only [fld, ← h]⟩⟩

theorem decodeOp_encode_float (hop : 0x0c0 ≤ iopOf i ∧ iopOf i ≤ 0x0d8) :
    fld w 22 10 = BitVec.ofNat 10 (iopOf i) ∧ decodeOp (iopOf i) w = some i := by
  cases i
  all_goals (unfold iopOf at hop; simp at hop)
  all_goals
    unfold encode at h
    dsimp only at h
    rw [Option.some.injEq, append_eq_iff] at h
    simp (disch := decide) only [append_eq_iff, extractLsb'_extractLsb', fld] at h ⊢
  case ffma | fcmp | hfma2 | fdot2 | fdot4F8 =>
    exact ⟨by simp only [← h]; rfl, Eq.trans (b := some _) rfl (by simp only [fld, ← h])⟩
  all_goals
    exact ⟨by simp only [← h]; rfl, Option.ite_none_right_eq_some.2 ⟨by simp only [fld, ← h]; rfl, by simp only [fld, ← h]⟩⟩

theorem decodeOp_encode_crossLane (hop : 0x140 ≤ iopOf i ∧ iopOf i ≤ 0x14b) :
    fld w 22 10 = BitVec.ofNat 10 (iopOf i) ∧ decodeOp (iopOf i) w = some i := by
  cases i
  all_goals (unfold iopOf at hop; simp at hop)
  all_goals
    unfold encode at h
    dsimp only at h
    rw [Option.some.injEq, append_eq_iff] at h
    simp (disch := decide) only [append_eq_iff, extractLsb'_extractLsb', fld] at h ⊢
  all_goals
    exact ⟨by simp only [← h]; rfl, Option.ite_none_right_eq_some.2 ⟨by simp only [fld, ← h]; rfl, by simp only [fld, ← h]⟩⟩

theorem decodeOp_encode_memory (hop : 0x180 ≤ iopOf i ∧ iopOf i ≤ 0x193) :
    fld w 22 10 = BitVec.ofNat 10 (iopOf i) ∧ decodeOp (iopOf i) w = some i := by
  cases i
  all_goals (unfold iopOf at hop; simp at hop)
  all_goals
    unfold encode at h
    dsimp only at h
    rw [Option.some.injEq, append_eq_iff] at h
    simp (disch := decide) only [append_eq_iff, extractLsb'_extractLsb', fld] at h ⊢
  case ld | st | stNt | atom | cas | lds | sts | atoms =>
    exact ⟨by simp only [← h]; rfl, Eq.trans (b := some _) rfl (by simp only [fld, ← h])⟩
  all_goals
    exact ⟨by simp only [← h]; rfl, Option.ite_none_right_eq_some.2 ⟨by simp only [fld, ← h]; rfl, by simp only [fld, ← h]⟩⟩

theorem decodeOp_encode_engine (hop : 0x200 ≤ iopOf i ∧ iopOf i ≤ 0x281) :
    fld w 22 10 = BitVec.ofNat 10 (iopOf i) ∧ decodeOp (iopOf i) w = some i := by
  cases i
  all_goals (unfold iopOf at hop; simp at hop)
  all_goals
    unfold encode at h
    dsimp only at h
    rw [Option.some.injEq, append_eq_iff] at h
    simp (disch := decide) only [append_eq_iff, extractLsb'_extractLsb', fld] at h ⊢
  case tcopyY | mma | mmas | mmak | mdrain =>
    exact ⟨by simp only [← h]; rfl, Eq.trans (b := some _) rfl (by simp only [fld, ← h])⟩
  all_goals
    exact ⟨by simp only [← h]; rfl, Option.ite_none_right_eq_some.2 ⟨by simp only [fld, ← h]; rfl, by simp only [fld, ← h]⟩⟩

end

/-- Every instruction with an operation number lies in one of the blocks. -/
theorem iopOf_block (i : Instr) : iopOf i = 0 ∨ (0x001 ≤ iopOf i ∧ iopOf i ≤ 0x01a) ∨ (0x040 ≤ iopOf i ∧ iopOf i ≤ 0x06e) ∨
    (0x0c0 ≤ iopOf i ∧ iopOf i ≤ 0x0d8) ∨ (0x140 ≤ iopOf i ∧ iopOf i ≤ 0x14b) ∨ (0x180 ≤ iopOf i ∧ iopOf i ≤ 0x193) ∨
    (0x200 ≤ iopOf i ∧ iopOf i ≤ 0x281) := by
  cases i <;> exact of_decide_eq_true rfl

/-- In the word of an operation that operation reads the instruction. -/
theorem decodeOp_encode {i : Instr} {w : Word} (hi : i.IsWord) (hop : iopOf i ≠ 0) (h : encode i = some w) :
    fld w 22 10 = BitVec.ofNat 10 (iopOf i) ∧ decodeOp (iopOf i) w = some i := by
  rcases iopOf_block i with h0 | hb | hb | hb | hb | hb | hb
  · exact absurd h0 hop
  · exact decodeOp_encode_control h hb hi
  · exact decodeOp_encode_integer h hb
  · exact decodeOp_encode_float h hb
  · exact decodeOp_encode_crossLane h hb
  · exact decodeOp_encode_memory h hb
  · exact decodeOp_encode_engine h hb

theorem iopOf_lt (i : Instr) : iopOf i < 1024 := by
  rcases iopOf_block i with h | h | h | h | h | h | h <;> omega

/-- What is no event has a word. -/
theorem isEvent_or_isSome_encode (i : Instr) : (isEvent i || (encode i).isSome) = true := by
  cases i <;> rfl

theorem exists_encode {i : Instr} (h : isEvent i = false) : ∃ w, encode i = some w := by
  have := isEvent_or_isSome_encode i
  rwa [h, Bool.false_or, Option.isSome_iff_exists] at this

/-! ### Headers and hints (R26, R35 to R38) -/

/-- The word of a header by its fields (R26). -/
theorem encode_clauseHeader_iff {w : Word} {wt a b l c g f} : encode (.clauseHeader wt a b l c g f) = some w ↔
    fld w 29 3 = 7 ∧ decodeHeader w = .clauseHeader wt a b l c g f := by
  unfold encode decodeHeader
  dsimp only
  rw [Option.some.injEq, append_eq_iff]
  simp (disch := decide) only [append_eq_iff, extractLsb'_extractLsb', fld, Instr.clauseHeader.injEq]
  simp [eq_comm, and_assoc]

/-- The word of an ext hint by its fields (R36). -/
theorem encode_ext_iff {w : Word} {p} : encode (.ext p) = some w ↔
    fld w 29 3 = 6 ∧ fld w 27 2 = 0 ∧ fld w 20 7 = 0 ∧ fld w 0 20 = p := by
  unfold encode
  dsimp only
  rw [show 0xc00#12 = 6#3 ++ 0#2 ++ 0#7 from rfl, Option.some.injEq, append_eq_iff]
  simp (disch := decide) only [append_eq_iff, extractLsb'_extractLsb', fld]
  simp [eq_comm, and_assoc]

/-- The word of a mod hint by its fields (R37). -/
theorem encode_mod_iff {w : Word} {r z s c k o wd} : encode (.mod r z s c k o wd) = some w ↔
    fld w 29 3 = 6 ∧ fld w 27 2 = 1 ∧ fld w 0 12 = 0 ∧
      Instr.mod (fld w 24 3) (fld w 23 1) (fld w 22 1) (fld w 20 2) (fld w 17 3) (fld w 15 2) (fld w 12 3) =
        .mod r z s c k o wd := by
  unfold encode
  dsimp only
  rw [show 0x19#5 = 6#3 ++ 1#2 from rfl, Option.some.injEq, append_eq_iff]
  simp (disch := decide) only [append_eq_iff, extractLsb'_extractLsb', fld, Instr.mod.injEq]
  simp [eq_comm, and_assoc, and_comm]

/-- The word of a sched hint by its fields (R38). -/
theorem encode_sched_iff {w : Word} {y l c} : encode (.sched y l c) = some w ↔
    fld w 29 3 = 6 ∧ fld w 27 2 = 2 ∧ fld w 4 23 = 0 ∧ Instr.sched (fld w 3 1) (fld w 2 1) (fld w 0 2) = .sched y l c := by
  unfold encode
  dsimp only
  rw [show 0xd000000#28 = 6#3 ++ 2#2 ++ 0#23 from rfl, Option.some.injEq, append_eq_iff]
  simp (disch := decide) only [append_eq_iff, extractLsb'_extractLsb', fld, Instr.sched.injEq]
  simp [eq_comm, and_assoc]

theorem decodeDt1_of_header {w : Word} (h : fld w 29 3 = 7) : decodeDt1 w = .ok (decodeHeader w) Mods.zero := by
  unfold decodeDt1 decodeWord isHeader
  rw [h]
  rfl

theorem decodeDt1_of_hint {w : Word} (h : fld w 29 3 = 6) : decodeDt1 w = decodeHint w := by
  unfold decodeDt1 decodeWord isHeader
  rw [h]
  rfl

/-- What the decoder reads in a hint word, the encoder makes. -/
theorem encode_of_decodeHint {w : Word} {i : Instr} {m : Mods} (h6 : fld w 29 3 = 6) (h : decodeHint w = .ok i m) :
    i.IsWord ∧ m = Mods.zero ∧ encode i = some w := by
  have hkind := (fld w 27 2).isLt
  have hn : ∀ n, (fld w 27 2).toNat = n → n < 4 → fld w 27 2 = BitVec.ofNat 2 n :=
    fun n e hlt => BitVec.eq_of_toNat_eq (by simp [e, Nat.mod_eq_of_lt hlt])
  unfold decodeHint at h
  split at h
  case h_1 hk =>
    split at h
    · next hz => cases h; exact ⟨⟨rfl, trivial⟩, rfl, encode_ext_iff.2 ⟨h6, hn _ hk (by decide), beq_iff_eq.1 hz, rfl⟩⟩
    · cases h
  case h_2 hk =>
    split at h
    · next hz => cases h; exact ⟨⟨rfl, trivial⟩, rfl, encode_mod_iff.2 ⟨h6, hn _ hk (by decide), beq_iff_eq.1 hz, rfl⟩⟩
    · cases h
  case h_3 hk =>
    split at h
    · next hz => cases h; exact ⟨⟨rfl, trivial⟩, rfl, encode_sched_iff.2 ⟨h6, hn _ hk (by decide), beq_iff_eq.1 hz, rfl⟩⟩
    · cases h
  case h_4 => cases h

/-- The encoder's word of a header, hint or operation decodes to it. -/
theorem decodeDt1_encode {i : Instr} {w : Word} (hi : i.IsWord) (h : encode i = some w) : decodeDt1 w = .ok i Mods.zero := by
  by_cases hop : iopOf i = 0
  · have hkind : (decide (iopOf i = 0) && !isEvent i) = true := by simp [hop, hi.1]
    cases i
    case clauseHeader =>
      obtain ⟨h7, hd⟩ := encode_clauseHeader_iff.1 h
      rw [decodeDt1_of_header h7, hd]
    case ext =>
      obtain ⟨h6, hk, hz, rfl⟩ := encode_ext_iff.1 h
      rw [decodeDt1_of_hint h6, decodeHint, hk, hz]
      rfl
    case mod =>
      obtain ⟨h6, hk, hz, hd⟩ := encode_mod_iff.1 h
      rw [decodeDt1_of_hint h6, decodeHint, hk, hz, hd]
      rfl
    case sched =>
      obtain ⟨h6, hk, hz, hd⟩ := encode_sched_iff.1 h
      rw [decodeDt1_of_hint h6, decodeHint, hk, hz, hd]
      rfl
    all_goals exact absurd hkind Bool.false_ne_true
  · obtain ⟨hw, hd⟩ := decodeOp_encode hi hop h
    have hop' : (fld w 22 10).toNat = iopOf i := by rw [hw]; exact Nat.mod_eq_of_lt (iopOf_lt i)
    obtain ⟨hf, -, -⟩ := encode_of_decodeOp _ w hw i hd
    rw [decodeDt1_listed (by rw [hop']; exact hf), hop']
    exact ⟨hd, rfl⟩

/-- A word that decodes is the encoder's word of what it decodes to. -/
theorem encode_of_decodeDt1 {w : Word} {i : Instr} {m : Mods} (h : decodeDt1 w = .ok i m) :
    i.IsWord ∧ m = Mods.zero ∧ encode i = some w := by
  by_cases h7 : fld w 29 3 = 7
  · rw [decodeDt1_of_header h7] at h
    cases h
    exact ⟨⟨rfl, trivial⟩, rfl, encode_clauseHeader_iff.2 ⟨h7, rfl⟩⟩
  by_cases h6 : fld w 29 3 = 6
  · exact encode_of_decodeHint h6 (decodeDt1_of_hint h6 ▸ h)
  cases hf : formatOf (fld w 22 10).toNat with
  | none => exact absurd h (decodeDt1_unlisted hf h7 h6 i m)
  | some fmt =>
    obtain ⟨hd, hm⟩ := (decodeDt1_listed (by rw [hf]; rfl) i m).1 h
    obtain ⟨-, hi, he⟩ := encode_of_decodeOp _ w (by simp) i hd
    exact ⟨hi, hm, he⟩

/-- Settles O53: both directions by the fields of a word, for each header and hint, and for each operation of the DT-1 map. -/
theorem decodeAndEncodeAgree : Obligations.DecodeAndEncodeAgree := by
  constructor
  · intro i hi
    obtain ⟨w, hw⟩ := exists_encode hi.1
    exact ⟨w, hw, decodeDt1_encode hi hw⟩
  · exact fun w i m h => encode_of_decodeDt1 h

/-- Settles O54: the encoder makes the first five words, and the last has opcode 0. -/
theorem someWordsDecode : Obligations.SomeWordsDecode :=
  ⟨decodeDt1_encode ⟨rfl, trivial⟩ rfl, decodeDt1_encode ⟨rfl, trivial⟩ rfl, decodeDt1_encode ⟨rfl, trivial⟩ rfl,
    decodeDt1_encode ⟨rfl, trivial⟩ rfl, decodeDt1_encode ⟨rfl, trivial⟩ rfl, by decide⟩
end Sys2Proof.Proofs

/-! ## Transfers of control -/

namespace Sys2Proof.Proofs

open Sys2Proof Sys2Proof.Machine Sys2Proof.Claims

/-- The address of the word after the team's word. -/
theorem nextAddr_eq (t : Team) : nextAddr t = wordAfter t := by
  unfold nextAddr wordAddr wordAfter
  rw [BitVec.ofNat_add, BitVec.add_assoc]
  rfl

/-- A branch target in the model's arithmetic is the rules' (R24, R278). -/
theorem branchTarget_eq (t : Team) (disp : BitVec 17) : branchTarget t disp = target t disp := by
  have hd : (4 : BitVec 32) * disp.signExtend 32 = BitVec.ofInt 32 (4 * disp.toInt) := by
    rw [BitVec.ofInt_mul]
    rfl
  unfold branchTarget target
  rw [hd, nextAddr_eq]
  rfl

/-- A word without slots that fixes no loads runs its own effect with its word counted. -/
theorem withWord_counted {i : Instr} {s : State} {t : Team} {slots : List Nat} (h : Issues s t i slots)
    (hf : fixesLoads i (modsOf t) = false) (r w : Mods → List Nat) (k : Team → Mods → Out)
    (hr : ∀ n ∈ r (modsOf t), n ∈ slots) (hw : ∀ n ∈ w (modsOf t), n ∈ slots) :
    withWord i s r w k = k (counted t) (modsOf t) := by
  rw [withWord_issues h r w k hr hw, sealFor_of_not hf]

theorem branchTarget_counted (t : Team) (disp : BitVec 17) : branchTarget (counted t) disp = target t disp :=
  branchTarget_eq (counted t) disp

theorem exec_bra (d : BitVec 17) (s : State) : exec (.bra d) s = execBra d s := rfl
theorem exec_yield (d : BitVec 17) (s : State) : exec (.yield d) s = execYield d s := rfl
theorem exec_jmpi (a : BitVec 5) (s : State) : exec (.jmpi a) s = execJmpi a s := rfl

theorem exec_nop (s : State) : exec .nop s = execNop s := rfl

theorem exec_nop_issues {s : State} {t : Team} (h : Issues s t .nop []) :
    exec .nop s = .next (setTeam s (advance (counted t))) := by
  rw [exec_nop, execNop, withWord_counted h rfl _ _ _ (by simp) (by simp)]

theorem bra_becomes {s : State} {t : Team} {disp : BitVec 17} (h : Accepted s t (.bra disp) [])
    (hh : headerAt s t (target t disp)) :
    ∃ s', exec (.bra disp) s = .next s' ∧ Becomes s s' t (t.movedTo (target t disp, 0)) := by
  obtain ⟨s1, hc, he⟩ := toHeader_headerAt (t := counted t) hh
    fun s => .next (setTeam s (goto (counted t) (target t disp)))
  have hx : exec (.bra disp) s = toHeader s (counted t) (target t disp)
      fun s => .next (setTeam s (goto (counted t) (target t disp))) := by
    rw [exec_bra, execBra, withWord_counted h.toIssues rfl _ _ _ (by simp) (by simp), branchTarget_counted]
  exact ⟨_, hx.trans he, hc.setTeam_becomes (findTeam_of_issues h.toIssues) rfl⟩

theorem jmpi_becomes {s : State} {t : Team} {a : BitVec 5} {v : Word} (h : Accepted s t (.jmpi a) [a.toNat])
    (ha : t.active ≠ 0) (hg : goodSlot s t a.toNat) (hv : ∀ l ∈ lanesOf t.active, slot t l a.toNat = v)
    (h4 : v.toNat % 4 = 0) (hh : headerAt s t v) :
    ∃ s', exec (.jmpi a) s = .next s' ∧ Becomes s s' t (t.movedTo (v, 0)) := by
  obtain ⟨s1, hc, he⟩ := jumpTo_header (t := counted t) (why := 2) (fun s v => .next (setTeam s (goto (counted t) v))) ha
    (fun l hl => (hg l hl).1) (fun l hl => (hg l hl).2) hv h4 hh
  have hx : exec (.jmpi a) s = jumpTo s (counted t) a.toNat 2 fun s v => .next (setTeam s (goto (counted t) v)) := by
    rw [exec_jmpi, execJmpi, withWord_counted h.toIssues rfl _ _ _ (fun _ hn => hn) (by simp)]
  exact ⟨_, hx.trans he, hc.setTeam_becomes (findTeam_of_issues h.toIssues) rfl⟩

/-! ### The role of current team -/

/-- Giving up a role changes contexts alone. -/
theorem dropRole_rest (s : State) (t : Team) : dropRole s t = { s with contexts := (dropRole s t).contexts } := by
  unfold dropRole setGrid
  split
  · split <;> rfl
  · rfl

/-- A grid found has the number asked for. -/
theorem findGrid_num {s : State} {c n : Nat} {g : Grid} (h : findGrid s c n = some g) : g.num = n := by
  unfold findGrid at h
  split at h
  · simpa using List.find?_some h
  · cases h

/-- A grid after a team gave up the role of current team on its core (R309). -/
def roleGivenUp (t : Team) (g : Grid) : Grid :=
  { g with roles := g.roles.map (fun r => if r.core = t.core ∧ r.last = logicalIx t then { r with held := false } else r) }

theorem dropRole_some {s : State} {t : Team} {g : Grid} (hg : findGrid s t.ctx t.grid = some g) :
    dropRole s t = setGrid s t.ctx (roleGivenUp t g) := by
  unfold dropRole roleGivenUp
  rw [hg]
  simp only [Bool.and_eq_true, beq_iff_eq]

theorem dropRole_none {s : State} {t : Team} (hg : findGrid s t.ctx t.grid = none) : dropRole s t = s := by
  unfold dropRole
  rw [hg]

/-- The grid of a team that gives up the role is found changed in that alone; every other grid is as before. -/
theorem findGrid_dropRole_some {s : State} {t : Team} {g : Grid} (hg : findGrid s t.ctx t.grid = some g) (c n : Nat) :
    findGrid (dropRole s t) c n = if c = t.ctx ∧ n = t.grid then some (roleGivenUp t g) else findGrid s c n := by
  have hg' : g.num = t.grid := findGrid_num hg
  have hn : (roleGivenUp t g).num = t.grid := hg'
  rw [dropRole_some hg, findGrid_setGrid, hn]
  by_cases h : c = t.ctx ∧ n = t.grid
  · obtain ⟨rfl, rfl⟩ := h
    simp [hg]
  · rw [if_neg h, if_neg fun e => h ⟨e.1, e.2.1⟩]

theorem dropRole_given (s : State) (t : Team) : RoleGiven s (dropRole s t) t := fun g hg =>
  ⟨roleGivenUp t g, by rw [findGrid_dropRole_some hg, if_pos ⟨rfl, rfl⟩], rfl⟩

theorem findCtx_dropRole (s : State) (t : Team) (c : Nat) :
    (findCtx (dropRole s t) c).map noGrids = (findCtx s c).map noGrids := by
  cases hg : findGrid s t.ctx t.grid with
  | none => rw [dropRole_none hg]
  | some g =>
    rw [dropRole_some hg]
    exact findCtx_setGrid ..

theorem findGrid_dropRole (s : State) (t : Team) (c n : Nat) :
    (findGrid (dropRole s t) c n).map noRoles = (findGrid s c n).map noRoles := by
  cases hg : findGrid s t.ctx t.grid with
  | none => rw [dropRole_none hg]
  | some g =>
    rw [findGrid_dropRole_some hg]
    split
    next h =>
      rw [h.1, h.2, hg]
      rfl
    next => rfl

theorem yield_becomes {s : State} {t : Team} {disp : BitVec 17} (h : Accepted s t (.yield disp) [])
    (hh : headerAt s t (target t disp)) :
    ∃ s1, exec (.yield disp) s = .next (dropRole s1 (counted t)) ∧
      Becomes s s1 t { t.movedTo (target t disp, 0) with wasReady := true, readyAt := s.clk.toNat + 1 } := by
  obtain ⟨s1, hc, he⟩ := toHeader_headerAt (t := counted t) hh fun x => .next (dropRole (setTeam x
    (goto { counted t with wasReady := true, readyAt := x.clk.toNat + 1 } (target t disp))) (counted t))
  have hk : s1.clk = s.clk := by rw [hc.rest]
  rw [hk] at he
  refine ⟨_, ?_, hc.setTeam_becomes (findTeam_of_issues h.toIssues) rfl⟩
  rw [exec_yield, execYield, withWord_counted h.toIssues rfl _ _ _ (by simp) (by simp), branchTarget_counted]
  exact he

/-- Settles O2: a transfer to a header that may be fetched reads it and moves the team. -/
theorem transfersReachHeaders : Obligations.TransfersReachHeaders := by
  intro s t
  refine ⟨fun disp h hh => bra_becomes h hh, fun disp h hh => ?_, fun a v h ha hg hv h4 hh => jmpi_becomes h ha hg hv h4 hh⟩
  obtain ⟨s1, hx, hb⟩ := yield_becomes h hh
  have hctx : s1.contexts = s.contexts := by rw [hb.1.rest]
  have hfc : ∀ c, findCtx s1 c = findCtx s c := fun c => by unfold findCtx; rw [hctx]
  have hfg : ∀ c n, findGrid s1 c n = findGrid s c n := fun c n => by unfold findGrid; rw [hfc]
  refine ⟨_, s1, hx, hb, dropRole_rest _ _, fun g hg => dropRole_given s1 (counted t) g ?_, fun c => ?_, fun c n => ?_⟩
  · exact (hfg _ _).trans hg
  · rw [findCtx_dropRole, hfc]
  · rw [findGrid_dropRole, hfg]

end Sys2Proof.Proofs

/-! ## States for refutations -/

namespace Sys2Proof.Proofs

open Sys2Proof Sys2Proof.Machine Sys2Proof.Claims

/-- The word of a nop. -/
def nopWord : Word := 0x00400000

/-- The team of a placed nop: at word 1 of its clause. -/
def nopTeam : Team := placedTeam State.reset.nextUid nopWord

/-- The machine in which the nop is placed, with one team that is to issue. -/
def machineWith (t : Team) : State := { placeWord State.reset nopWord with teams := [t], cur := some t.uid }

/-! ## Hints -/

/-- The unit of hints of a team in the state that an outcome reaches. -/
def unitAfter (u : Nat) : Out → Option Hints
  | .next s => (findTeam s u).bind Team.hints
  | _ => none

theorem unitAfter_next {s : State} {u : Nat} {t : Team} (h : findTeam s u = some t) : unitAfter u (.next s) = t.hints := by
  simp only [unitAfter, h, Option.bind_some]

/-- A team at word 1 of a clause of three words whose unit of hints started at word 0 and holds no hint. -/
def emptyUnitTeam : Team := { nopTeam with clause := { nopTeam.clause with len := 3 }, hints := some ⟨0, false, none, 0, 0, none⟩ }

/-- A sched hint joins that unit, which keeps its start. -/
theorem emptyUnit_sched : unitAfter emptyUnitTeam.uid (exec (.sched 0 0 0) (machineWith emptyUnitTeam)) =
    some ⟨0, true, none, 0, 0, none⟩ := by decide +kernel

/-- Refutes O1: the clause on a sched hint inside a clause gives the unit the sched hint's own word as its start. In a team whose
unit holds no hint yet but started at an earlier word, which the clause does not rule out, the unit keeps that start. -/
theorem not_clausesAndHints : ¬ Obligations.ClausesAndHints := by
  rintro ⟨-, hints⟩
  obtain ⟨-, -, sched, -⟩ := hints (machineWith emptyUnitTeam) emptyUnitTeam (by decide +kernel) (by decide +kernel)
  obtain ⟨s', hx, -, hf⟩ := sched 0 0 0 (by decide) (by decide +kernel) (by decide +kernel) (by decide +kernel) (by decide +kernel)
  have h := emptyUnit_sched
  rw [hx, unitAfter_next hf] at h
  exact absurd h (by decide +kernel)

/-! ## The trap frame's address -/

/-- A handler holds its trap frame's address in 64 bits, so a team enters a handler with frames below 2^64 alone. -/
theorem Entered.va_lt {s s' : State} {t : Team} {c : Context} {recPa va : Nat} {pas : List Nat} {r : Rec}
    (h : Entered s s' t c recPa va pas r) : va < 2 ^ 64 := by
  obtain ⟨-, hd, -, -, -, ⟨-, -, -, -, hva, -⟩, -⟩ := h.team
  rw [← hva]
  exact hd.frameVa.isLt

/-- The context of the placed nop with trap frames from address 0 on. -/
def frameCtx : Context := { placedCtx with tfrb := 1 }

/-- A team at a header's place whose trap frame lies at 2^64 + 0x4000: in 64 bits, at 0x4000. -/
def farFrameTeam : Team := { nopTeam with wix := 0, trapvec := 0x8000, frame := some (2 ^ 64 + 0x4000) }

/-- The machine with that team. -/
def farFrameMachine : State := { machineWith farFrameTeam with contexts := [frameCtx] }

theorem farFrame_inv : farFrameMachine.Inv :=
  ⟨by decide +kernel, by decide +kernel, fun e he => absurd he List.not_mem_nil⟩

/-- The frame's pieces of 1 KiB. -/
def framePieces : List Nat := [0x300004000, 0x300004400, 0x300004800, 0x300004C00, 0x300005000]

theorem farFrame_pieces : framePas farFrameMachine farFrameTeam (2 ^ 64 + 0x4000) = some framePieces := by decide +kernel

/-- The entries by which the frame is found lie apart from the record. -/
theorem farFrame_entries_apart : ∀ i < frameSize farFrameTeam / 1024,
    ∀ p ∈ Laws.pathEntries farFrameMachine (BitVec.ofNat 64 (2 ^ 64 + 0x4000 + 1024 * i)).toNat farFrameTeam.root.lvl
      farFrameTeam.root.node, p.1 + 16 * p.2 + 16 ≤ 0x300000000 ∨ 0x300000000 + 64 ≤ p.1 + 16 * p.2 := by decide +kernel

/-- The address of the handler's first word. -/
def handlerXlat : Xlat := ⟨0x300008000, 0, 0, 0⟩

/-- The address of the record of index 0. -/
def recordXlat : Xlat := ⟨0x300000000, 0, 0, 0⟩

theorem farFrame_may_enter :
    MayEnter farFrameMachine farFrameTeam frameCtx 0x300000000 (2 ^ 64 + 0x4000) framePieces where
  inv := farFrame_inv
  ctx := by decide +kernel
  outside := by decide +kernel
  stay := by decide +kernel
  vector := by decide +kernel
  first := ⟨handlerXlat, by decide +kernel⟩
  frame := by decide +kernel
  pieces := farFrame_pieces
  room := by decide +kernel
  record := ⟨recordXlat, by decide +kernel, rfl⟩
  apart bs hb := by
    rw [Laws.framePas_homeWrite farFrame_inv, farFrame_pieces]
    rw [hb]
    exact farFrame_entries_apart
  calm := by decide +kernel
  quiet e he := absurd he List.not_mem_nil
  thawed := by decide +kernel

/-- Refutes O12: a nop at a header's place is ILLOP with reason 0x0C, and a team whose frame offset passes 2^64 may enter its
handler as the hypotheses of the statement have it. The handler's frame address is then the offset modulo 2^64, where the statement
asks for the whole number. -/
theorem not_refusedWordsTrap : ¬ Obligations.RefusedWordsTrap := by
  rintro ⟨-, refused, -⟩
  obtain ⟨-, enters⟩ := refused .nop farFrameMachine farFrameTeam 0x0C (by decide) (by decide +kernel) (by decide +kernel)
    (by decide +kernel) (Or.inr (by decide))
  obtain ⟨s', -, h⟩ := enters _ _ _ _ farFrame_may_enter
  exact absurd (Entered.va_lt h) (by decide)

end Sys2Proof.Proofs

/-! ## Free values drawn by what follows a step -/

namespace Sys2Proof.Proofs

open Sys2Proof Sys2Proof.Machine Sys2Proof.Claims

theorem foldl_fresh {α : Type} (f : State → α → State) (hf : ∀ s x, (f s x).fresh = s.fresh) (l : List α) (s : State) :
    (l.foldl f s).fresh = s.fresh := by
  induction l generalizing s with
  | nil => rfl
  | cons x xs ih => rw [List.foldl_cons, ih, hf]

theorem holdSlot_fresh (s : State) : (holdSlot s).fresh = s.fresh := by
  unfold holdSlot
  split
  · rfl
  · split
    · split <;> rfl
    · rfl

theorem holdSlot_teams (s : State) : (holdSlot s).teams = s.teams := by
  unfold holdSlot
  split
  · rfl
  · split
    · split <;> rfl
    · rfl

theorem popFences_fresh (core k : Nat) (s : State) : (popFences core k s).fresh = s.fresh := by
  induction k generalizing s with
  | zero => rfl
  | succ k ih =>
    unfold popFences
    split
    · split
      · exact ih _
      · rfl
    · rfl

theorem admitAll_fresh (core k : Nat) (s : State) : (admitAll core k s).fresh = s.fresh := by
  induction k generalizing s with
  | zero => rfl
  | succ k ih =>
    unfold admitAll
    split
    · split
      · exact ih _
      · rfl
    · rfl

theorem admitMat_fresh (s : State) (core : Nat) : (admitMat s core).fresh = s.fresh := admitAll_fresh ..

theorem admitCopy_fresh (s : State) (core : Nat) : (admitCopy s core).fresh = s.fresh := rfl

theorem fencesDone_fresh (s : State) (core : Nat) : (fencesDone s core).fresh = s.fresh := popFences_fresh ..

/-- The front command of a copy queue that needs leave asks for it. -/
def askCopy (core : Nat) (q : Bool) (s : State) : State :=
  match copyFront s core q with
  | some c =>
    if c.stage == .waiting && c.heavy s then askLeave (setCopy s core q { c with stage := .asking }) core c.iss.seq else s
  | none => s

/-- The front matrix command that needs leave asks for it. -/
def askMat (core : Nat) (s : State) : State :=
  match matFront s core with
  | some c =>
    if c.stage == .waiting && c.op.heavy then askLeave (setMat s core { c with stage := .asking }) core c.iss.seq else s
  | none => s

theorem askFront_eq (s : State) (core : Nat) : askFront s core = askMat core (askCopy core true (askCopy core false s)) := rfl

theorem askCopy_fresh (core : Nat) (q : Bool) (s : State) : (askCopy core q s).fresh = s.fresh := by
  unfold askCopy
  split
  · split <;> rfl
  · rfl

theorem askMat_fresh (core : Nat) (s : State) : (askMat core s).fresh = s.fresh := by
  unfold askMat
  split
  · split <;> rfl
  · rfl

theorem askFront_fresh (s : State) (core : Nat) : (askFront s core).fresh = s.fresh := by
  rw [askFront_eq, askMat_fresh, askCopy_fresh, askCopy_fresh]

theorem setStream_fresh (s : State) (x : Strm) : (setStream s x).fresh = s.fresh := by
  unfold setStream
  split <;> rfl

theorem sendFrame_fresh (s : State) (id : BitVec 32) (type cmd stat : Nat) (tag : BitVec 32) (p : List Byte) :
    (sendFrame s id type cmd stat tag p).fresh = s.fresh := by
  unfold sendFrame
  dsimp only
  split
  · rfl
  · exact setStream_fresh ..

theorem respond_fresh (s : State) (r : Req) (cmd stat : Nat) (p : List Byte) : (respond s r cmd stat p).fresh = s.fresh := by
  unfold respond
  split
  · split
    · rfl
    · exact sendFrame_fresh ..
  · exact sendFrame_fresh ..

theorem answerWaits_fresh (s : State) : (answerWaits s).fresh = s.fresh := by
  refine foldl_fresh _ (fun s o => ?_) _ _
  split
  · rfl
  · split
    · split
      · exact respond_fresh ..
      · rfl
    · rfl

theorem markReleased_fresh (s : State) : (markReleased s).fresh = s.fresh := by
  unfold markReleased
  split <;> rfl

/-- A team whose own state leads to nothing: it has live lanes, no trap, no block, no handler, and no clause under YLD. -/
structure Calm (t : Team) : Prop where
  live : t.live ≠ 0
  trap : t.trap = none
  block : t.block = none
  handler : t.handler = none
  yld : t.clause.yld = false

section
variable {s : State} {u : Nat} {t : Team} (hf : findTeam s u = some t) (hc : Calm t)
include hf hc

theorem checkEnd_calm : checkEnd s u = s := by
  unfold checkEnd
  rw [hf]
  exact if_neg fun h => hc.live h.1

theorem dropDelivered_calm : dropDelivered s u = s := by
  unfold dropDelivered
  simp only [hf, hc.handler]

theorem deliverBlocked_calm : deliverBlocked s u = s := by
  unfold deliverBlocked
  simp only [hf, hc.block]
  rfl

theorem finishTret_calm : finishTret s u = s := by
  unfold finishTret
  simp only [hf, hc.block]

theorem fwFinish_calm : fwFinish s u = s := by
  unfold fwFinish
  simp only [hf, hc.block]

theorem leaveOver_calm : leaveOver s u = s := by
  unfold leaveOver
  simp only [hf, hc.block]
  rfl

theorem yieldEnd_calm : yieldEnd s u = s := by
  unfold yieldEnd
  simp only [hf, hc.yld]
  rfl

theorem queueStep_calm : queueStep s u = s := by
  unfold queueStep
  simp only [hf, hc.block]
  split <;> rfl

/-- The own state of a calm team leads to nothing. -/
theorem settleTeam_calm : settleTeam s u = s := by
  unfold settleTeam
  rw [checkEnd_calm hf hc, dropDelivered_calm hf hc, deliverBlocked_calm hf hc, finishTret_calm hf hc, fwFinish_calm hf hc,
    leaveOver_calm hf hc, yieldEnd_calm hf hc, queueStep_calm hf hc]

end

/-- Where every team is calm, none of them changes anything of itself. -/
theorem settleTeams_calm {s : State} (h : ∀ t ∈ s.teams, Calm t) : (s.teams.map Team.uid).foldl settleTeam s = s := by
  have found : ∀ u ∈ s.teams.map Team.uid, ∃ t, findTeam s u = some t := by
    intro u hu
    obtain ⟨t, ht, rfl⟩ := List.mem_map.1 hu
    exact Option.isSome_iff_exists.1 (List.find?_isSome.2 ⟨t, ht, beq_self_eq_true _⟩)
  generalize s.teams.map Team.uid = l at found
  induction l with
  | nil => rfl
  | cons u us ih =>
    obtain ⟨t, ht⟩ := found u List.mem_cons_self
    rw [List.foldl_cons, settleTeam_calm ht (h t (List.mem_of_find?_eq_some ht)), ih fun v hv => found v (List.mem_cons_of_mem _ hv)]

/-- A state in which the core's slot is held and its writes are no longer noted, as what follows a step begins. -/
def tidyStart (s : State) : State :=
  if enginesBusy { holdSlot s with cur := none } then { holdSlot s with cur := none }
  else { holdSlot s with cur := none, journal := [] }

theorem tidyStart_fresh (s : State) : (tidyStart s).fresh = s.fresh := by
  unfold tidyStart
  split <;> exact holdSlot_fresh s

theorem tidyStart_teams (s : State) : (tidyStart s).teams = s.teams := by
  unfold tidyStart
  split <;> exact holdSlot_teams s

/-- What follows a step in the engines of every core. -/
def enginesGoOn (s : State) : State :=
  (s.cores.map CoreSt.id).foldl (fun s c => askFront (admitMat (admitCopy s c) c) c) ((s.cores.map CoreSt.id).foldl fencesDone s)

theorem enginesGoOn_fresh (s : State) : (enginesGoOn s).fresh = s.fresh := by
  unfold enginesGoOn
  rw [foldl_fresh, foldl_fresh]
  · exact fencesDone_fresh
  · exact fun s c => by rw [askFront_fresh, admitMat_fresh, admitCopy_fresh]

theorem passRoles_fresh (s : State) : (passRoles s).fresh = s.fresh := rfl

theorem noteReady_fresh (s : State) : (noteReady s).fresh = s.fresh := rfl

theorem noteIssuing_fresh (s : State) : (noteIssuing s).fresh = s.fresh := rfl

/-- The parts of what follows a step of itself, in their order. -/
theorem tidy_eq (s : State) : tidy s = answerWaits (markReleased (noteIssuing (noteReady (passRoles (enginesGoOn
    (((tidyStart s).teams.map Team.uid).foldl settleTeam (tidyStart s))))))) := rfl

/-- What follows a step of itself draws no free value where every team is calm. -/
theorem tidy_fresh {s : State} (h : ∀ t ∈ s.teams, Calm t) : (tidy s).fresh = s.fresh := by
  rw [← tidyStart_teams] at h
  rw [tidy_eq, settleTeams_calm h, answerWaits_fresh, markReleased_fresh, noteIssuing_fresh, noteReady_fresh, passRoles_fresh,
    enginesGoOn_fresh, tidyStart_fresh]

/-- The free values drawn in the state that an outcome reaches. -/
def freshOf : Out → Option Nat
  | .next s => some s.fresh
  | _ => none

/-- A state whose core 0 has a full instruction cache, without the line of the nop that it is to fetch. -/
def fullCache : State :=
  { placeWord State.reset nopWord with icache := (List.range 512).map fun k => ⟨0, k, List.replicate 64 0⟩ }

theorem fullCache_step : freshOf (step fullCache) = some 1 := by decide +kernel
theorem fullCache_teams : fullCache.teams = [nopTeam] := by rfl
theorem fullCache_pick : pickTeam { fullCache with agenda := [] } 0 = some nopTeam := by decide +kernel

theorem nopTeam_begun : nopTeam.begun = false := by decide +kernel

/-- The word that the core of that team fetches is the nop. -/
theorem fullCache_code : codeAt fullCache nopTeam (wordAddr nopTeam) nopWord := by
  refine ⟨⟨0x300000004, 0, 0, 0⟩, by decide +kernel, by decide +kernel, by decide +kernel, by decide +kernel, fun c hc => ?_⟩
  have hn : icLine fullCache nopTeam.core (0x300000004 / 64) = none := by decide +kernel
  rw [hn] at hc
  cases hc

theorem freshOf_next (s : State) (f : State → State) : freshOf (thenDo (.next s) f) = some (f s).fresh := rfl

theorem tick_fresh (s : State) : (tick s).fresh = s.fresh := rfl

/-- A nop draws no free value, and what follows it does not where every team is calm. -/
theorem nop_fresh {s : State} {t : Team} (hc : curTeam s = some t) (hr : reasons .nop t = []) (ht : ∀ x ∈ s.teams, Calm x) :
    freshOf (thenDo (exec .nop s) fun x => tick (tidy x)) = some s.fresh := by
  have hcalm : ∀ x ∈ (setTeam s (advance (counted t))).teams, Calm x := by
    intro x hx
    obtain ⟨y, hy, rfl⟩ := List.mem_map.1 hx
    split
    · obtain ⟨hl, htr, hb, hh, hy⟩ := ht t (List.mem_of_find?_eq_some (findTeam_of_curTeam hc))
      rw [advance_eq]
      exact ⟨hl, htr, hb, hh, hy⟩
    · exact ht y hy
  rw [exec_nop_issues ⟨hc, hr, by simp⟩, freshOf_next, tick_fresh, tidy_fresh hcalm, setTeam_fresh]

/-- The team of the nop as it executes the word. -/
def nopRuns : Team := { nopTeam with ir := nopWord, fmod := Mods.zero }

theorem nopRuns_calm : Calm nopRuns := by constructor <;> decide +kernel

/-- Refutes O52: where the core's instruction cache is full, the word fetched takes the place of a line that a free value
chooses, and the count of free values drawn goes up; the statement holds it where it was. -/
theorem not_stepRunsTheDecodedWord : ¬ Obligations.StepRunsTheDecodedWord := by
  intro h
  obtain ⟨s1, hs1, -, -, hstep⟩ := h fullCache nopTeam 0 [] nopWord .nop Mods.zero rfl rfl fullCache_pick
    (by rw [nopTeam_begun, if_neg Bool.false_ne_true]; exact fullCache_code) (fun hw => absurd hw (by decide +kernel))
    (Or.inl (by decide +kernel)) (by decide +kernel)
  have hteams : s1.teams = [nopTeam] := by rw [hs1]; exact fullCache_teams
  have hcur : s1.cur = some nopTeam.uid := by rw [hs1]
  have hset : (setTeam s1 nopRuns).teams = [nopRuns] := by
    unfold setTeam
    rw [hteams]
    rfl
  have hcalm : ∀ x ∈ (setTeam s1 nopRuns).teams, Calm x := by
    rw [hset]
    exact List.forall_mem_singleton.2 nopRuns_calm
  have hct : curTeam (setTeam s1 nopRuns) = some nopRuns := by
    unfold curTeam findTeam
    rw [setTeam_cur, hcur, hset]
    rfl
  have hf : freshOf (step fullCache) = some (setTeam s1 nopRuns).fresh := by
    rw [hstep]
    exact nop_fresh hct (by decide +kernel) hcalm
  have hzero : s1.fresh = 0 := by
    rw [hs1]
    exact (by decide +kernel : fullCache.fresh = 0)
  rw [fullCache_step, setTeam_fresh, hzero] at hf
  cases hf

end Sys2Proof.Proofs

/-! ## Memory instructions: what they share -/

namespace Sys2Proof.Proofs

open Sys2Proof Sys2Proof.Machine Sys2Proof.Claims

/-! ### Changes that keep memory -/

/-- From s to s' memory, translations, poison and teams are as they were: only caches, the store path and counters changed. -/
def KeepsMemory (s s' : State) : Prop :=
  s' = { s with
    dies := s'.dies, icache := s'.icache, fresh := s'.fresh, l1 := s'.l1, stores := s'.stores, nextSeq := s'.nextSeq }

namespace KeepsMemory

theorem refl (s : State) : KeepsMemory s s := rfl

variable {s s' s'' : State} (h : KeepsMemory s s')
include h

theorem trans (h' : KeepsMemory s' s'') : KeepsMemory s s'' := by
  unfold KeepsMemory at *
  rw [h', h]

theorem mem : s'.mem = s.mem := by rw [h]
theorem l2 : s'.l2 = s.l2 := by rw [h]
theorem manifest : s'.manifest = s.manifest := by rw [h]
theorem teams : s'.teams = s.teams := by rw [h]
theorem cores : s'.cores = s.cores := by rw [h]

theorem homeByte (a : Nat) : Machine.homeByte s' a = Machine.homeByte s a := homeByte_congr h.mem h.l2 a

theorem homeBytes (a n : Nat) : Machine.homeBytes s' a n = Machine.homeBytes s a n := by
  unfold Machine.homeBytes
  simp only [h.homeByte]

theorem findTeam (u : Nat) : Machine.findTeam s' u = Machine.findTeam s u := by
  unfold Machine.findTeam
  rw [h.teams]

theorem coreOf (c : Nat) : Machine.coreOf s' c = Machine.coreOf s c := by
  unfold Machine.coreOf
  rw [h.cores]

theorem hopOf (a n : Nat) : Machine.hopOf s' a n = Machine.hopOf s a n := by
  rw [h]
  rfl

theorem translate (root : RootDesc) (va : DWord) (k : AccKind) (d : Option (List Nat)) :
    Machine.translate s' root va k d = Machine.translate s root va k d := translate_congr h.mem h.l2 h.manifest root va k d

end KeepsMemory

theorem bump_keeps (s : State) (t : Team) : KeepsMemory s (bump s t) := by
  unfold bump
  split <;> rfl

theorem noteWalk_keeps (core : Nat) (root : RootDesc) (s : State) (va : DWord) : KeepsMemory s (noteWalk core root s va) := by
  unfold noteWalk
  split <;> rfl

theorem noteWalks_keeps (s : State) (t : Team) (vas : List DWord) : KeepsMemory s (noteWalks s t vas) := by
  unfold noteWalks
  induction vas generalizing s with
  | nil => exact .refl s
  | cons v vs ih => exact (noteWalk_keeps _ _ s v).trans (ih _)

/-- The front of a memory instruction changes nothing of the store path and of L1. -/
theorem noteWalks_bump (s : State) (t : Team) (vas : List DWord) :
    (noteWalks (bump s t) t vas).stores = s.stores ∧ (noteWalks (bump s t) t vas).nextSeq = s.nextSeq ∧
      (noteWalks (bump s t) t vas).l1 = s.l1 := by
  have walks (s : State) : (noteWalks s t vas).stores = s.stores ∧ (noteWalks s t vas).nextSeq = s.nextSeq ∧
      (noteWalks s t vas).l1 = s.l1 := by
    unfold noteWalks
    induction vas generalizing s with
    | nil => exact ⟨rfl, rfl, rfl⟩
    | cons v vs ih =>
      obtain ⟨h1, h2, h3⟩ := ih (noteWalk t.core t.root s v)
      rw [List.foldl_cons, h1, h2, h3]
      unfold noteWalk
      split <;> exact ⟨rfl, rfl, rfl⟩
  obtain ⟨h1, h2, h3⟩ := walks (bump s t)
  rw [h1, h2, h3]
  unfold bump
  split <;> exact ⟨rfl, rfl, rfl⟩

/-! ### No store under way -/

/-- Where no entry is chosen, none is performed. -/
theorem performSet_none {s : State} {p : StoreEnt → Bool} (h : ∀ e ∈ s.stores, p e = false) : performSet s p = s := by
  have hc : closeSet s p = [] := by
    unfold closeSet
    generalize s.stores = es at h
    induction es with
    | nil => rfl
    | cons e es ih =>
      rw [List.foldr_cons, ih fun f hf => h f (List.mem_cons_of_mem _ hf), h e List.mem_cons_self]
      rfl
  unfold performSet
  rw [hc]
  rfl

section
variable {s : State} {t : Team} (h : NoStores s t)
include h

theorem flushReleases_noStores (scope : Nat) : flushReleases s t.uid scope = s :=
  performSet_none fun e he => by simp [(h e he).1]

theorem performUpTo_noStores (pa n : Nat) (home atomic : Bool) : performUpTo s t pa n home atomic = s :=
  performSet_none fun e he => by simp [(h e he).1, (h e he).2]

theorem showNow_noStores : showNow s t.uid = s := by
  have hs : s.stores.map (fun e => if Machine.covered s t.uid e then { e with shown := true } else e) = s.stores := by
    refine (List.map_congr_left fun e he => ?_).trans (List.map_id _)
    unfold Machine.covered
    simp [(h e he).1]
  unfold showNow showAll
  rw [performSet_none fun e he => by simp [(h e he).1], hs]

theorem filter_uid_noStores : s.stores.filter (fun e => e.uid == t.uid) = [] := by
  rw [List.filter_eq_nil_iff]
  exact fun e he => by simp [(h e he).1]

theorem filter_core_noStores : s.stores.filter (fun e => e.core == t.core) = [] := by
  rw [List.filter_eq_nil_iff]
  exact fun e he => by simp [(h e he).2]

end

/-! ### Loads that can no longer be served anew -/

/-- A team whose pending loads may be served anew only as g says. -/
def Team.reread (t : Team) (g : Pend → List Reread) : Team := { t with pend := t.pend.map fun p => { p with again := g p } }

theorem sealedAt_eq (t : Team) (lines : List Nat) :
    t.sealedAt lines = Team.reread t fun p => p.again.filter fun a => !lines.contains a.line := rfl

theorem sealFor_eq (i : Instr) (m : Mods) (t : Team) : ∃ g, sealFor i m t = Team.reread t g := by
  unfold sealFor
  split
  · exact ⟨fun _ => [], rfl⟩
  · refine ⟨Pend.again, ?_⟩
    unfold Team.reread
    rw [List.map_id' t.pend]

theorem reread_plain (t : Team) (g : Pend → List Reread) : (Team.reread t g).pend.map Pend.plain = t.pend.map Pend.plain := by
  unfold Team.reread
  rw [List.map_map]
  rfl

/-- The registers that a team owes do not depend on which of its loads may be served anew. -/
theorem pendKeys_reread (s : State) (t : Team) (g : Pend → List Reread) : pendKeys s (Team.reread t g) = pendKeys s t := by
  unfold pendKeys Team.reread
  rw [List.flatMap_map]
  rfl

theorem slotPending_reread (s : State) (t : Team) (g : Pend → List Reread) : slotPending s (Team.reread t g) = slotPending s t := by
  unfold slotPending
  rw [pendKeys_reread]
  rfl

theorem readsPending_reread (s : State) (t : Team) (g : Pend → List Reread) : readsPending s (Team.reread t g) = readsPending s t := by
  unfold readsPending
  rw [slotPending_reread]

theorem readSlot_reread (s : State) (t : Team) (g : Pend → List Reread) : readSlot s (Team.reread t g) = readSlot s t := by
  unfold readSlot
  rw [pendKeys_reread]
  rfl

theorem lostLanes_reread (s : State) (t : Team) (g : Pend → List Reread) : lostLanes s (Team.reread t g) = lostLanes s t := by
  unfold lostLanes lostOf readsPoison predHolds
  rw [slotPending_reread]
  rfl

theorem execLanes_reread (s : State) (t : Team) (g : Pend → List Reread) : execLanes s (Team.reread t g) = execLanes s t := by
  unfold execLanes selected predHolds
  rw [slotPending_reread]
  rfl

/-- The lanes of a memory instruction none of which consumes poison. -/
theorem memLanes_clean {s : State} {t : Team} {p : BitVec 2} {srcs : List Nat} (h : lostLanes s t p srcs = []) :
    memLanes s t p srcs = (execLanes s t p, []) := by
  unfold memLanes
  rw [h]
  simp

/-! ### One lane's access -/

/-- The address of a lane's access from the words that it reads (R23, R25). -/
theorem addrOf_eq (t : Team) (l : Nat) (a : BitVec 5) (o : BitVec 9) (size : Nat) :
    slot64 t l a.toNat + offM o size = addrOf t l a o size := by
  unfold slot64 offM addrOf
  rw [BitVec.ofInt_add]
  congr 1
  apply BitVec.eq_of_toNat_eq
  have h1 := (slot t l a.toNat).isLt
  have h2 := (slot t l (a.toNat + 1)).isLt
  rw [BitVec.toNat_append, ← Nat.shiftLeft_add_eq_or_of_lt h1, Nat.shiftLeft_eq]
  unfold pairNat
  rw [BitVec.ofInt_natCast, BitVec.toNat_ofNat]
  omega

/-- The slots of a format M address are the pair at a. -/
theorem s2_eq (a : BitVec 5) : s2 a = [a.toNat, a.toNat + 1] := rfl

/-- A lane that reads no pending register reads its address as the rules give it. -/
theorem readAddr_known {s : State} {t : Team} {l : Nat} {srcs : List Nat} (a : BitVec 5) (o : BitVec 9) (size : Nat)
    (h : readsPending s t l srcs = false) (h0 : a.toNat ∈ srcs) (h1 : a.toNat + 1 ∈ srcs) :
    readSlot64 s t l a.toNat + offM o size = addrOf t l a o size := by
  rw [← addrOf_eq]
  unfold readSlot64 slot64
  rw [readSlot_known h h0, readSlot_known h h1]

/-- A lane that hits goes to its address (R104, R165, R262). -/
theorem tryLane_hit {s s' : State} {t : Team} {lanes : List Nat} {k : AccKind} {va : Nat → DWord} {pa : Nat → Nat} {size l : Nat}
    (h : LanesHit s t lanes k va pa size) (hs : KeepsMemory s s') (hl : l ∈ lanes) :
    ∃ x, tryLane s' t k l (va l) size none = .go x ∧ x.pa = pa l := by
  obtain ⟨x, hx, hp⟩ := h.mapped l hl
  refine ⟨x, ?_, hp⟩
  have ha := h.aligned l hl
  have hown : isPeer x.pa = false := by rw [hp]; exact h.own l hl
  unfold tryLane
  rw [hs.translate, hx]
  simp [ha, hown]

/-! ### The end of a memory instruction -/

/-- A team that holds its scratchpad as the machine has it is renewed to itself. -/
theorem renew_self {s : State} {t x : Team} (h : findTeam s t.uid = some x) (hs : t.scr = x.scr) (hb : t.scrBad = x.scrBad) :
    renew s t = t := by
  unfold renew
  rw [h]
  dsimp only
  rw [← hs, ← hb]

theorem stopsHere_whole {t : Team} (h : t.pass = none) : stopsHere t [] = false := by
  unfold stopsHere
  rw [h]
  simp

/-- The team at its next word, its word counted, with its loads served anew only as g says. -/
def Team.wentOn (t : Team) (g : Pend → List Reread) : Team :=
  { t.movedTo (nextPlace t) with pend := (Team.reread t g).pend }

theorem advance_counted_reread (t : Team) (g : Pend → List Reread) : advance (Team.reread (counted t) g) = Team.wentOn t g := by
  rw [advance_eq]
  rfl

theorem wentOn_wentTo (t : Team) (g : Pend → List Reread) : WentTo t (Team.wentOn t g) id := ⟨rfl, reread_plain t g⟩

theorem reread_reread (t : Team) (g g' : Pend → List Reread) :
    ∃ g'', Team.reread (Team.reread t g) g' = Team.reread t g'' :=
  ⟨fun p => g' { p with again := g p }, by unfold Team.reread; rw [List.map_map]; rfl⟩

end Sys2Proof.Proofs

/-! ## Stores -/

namespace Sys2Proof.Proofs

open Sys2Proof Sys2Proof.Machine Sys2Proof.Claims

theorem bytesOfX_eq : ∀ x, bytesOfX x = Machine.sizeOf x
  | 0 | 1 | 2 | 3 | 4 | 5 => rfl
  | n + 6 => by
    unfold bytesOfX
    rw [if_neg (by omega), if_neg (by omega), if_neg (by omega), if_neg (by omega)]
    rfl

theorem slotsOfX_eq (x : Nat) (d : BitVec 5) : slotsOfX x d = dataSlots x d := by
  unfold slotsOfX dataSlots
  split
  · rfl
  · split <;> rfl

theorem acqX_eq (x : BitVec 1) : acqX x = 4 + x.toNat := by
  revert x
  decide

/-- The bytes that a store takes from its data slots (R262). -/
theorem storeBytes_eq {x : Nat} (hx : x ≤ 6) (d : BitVec 5) (f : Nat → Word) :
    storeBytes (Machine.sizeOf x) ((dataSlots x d).map f) = storedBytes x ((dataSlots x d).map f) := by
  interval_cases x <;> rfl

/-- A word without a cause of R45 has no reserved value in its fields. -/
theorem reservedField_of_legal {i : Instr} {t : Team} (h : reasons i t = []) : reservedField i (modsOf t) = false := by
  unfold reasons at h
  simp only [List.append_eq_nil_iff] at h
  obtain ⟨⟨⟨⟨⟨⟨h, -⟩, -⟩, -⟩, -⟩, -⟩, -⟩ := h
  unfold because at h
  split at h
  · cases h
  · exact Bool.eq_false_iff.2 ‹_›

/-- A size code that is not reserved (R23). -/
theorem size_le {x : BitVec 3} (h : (x == 7) = false) : x.toNat ≤ 6 := by
  have hx := x.isLt
  have : x ≠ 7 := by simpa using h
  have : x.toNat ≠ 7 := fun e => this (BitVec.eq_of_toNat_eq e)
  omega

/-! ### One lane -/

theorem doneAbove_none {t : Team} (h : t.done = 0) (l : Nat) : doneAbove t l = [] := by
  unfold doneAbove
  rw [h, show lanesOf 0 = [] by unfold lanesOf; simp]
  rfl

/-- Where no pass has gone before, all of a lane's bytes are left to write. -/
theorem leftBytes_nil (size a : Nat) (bs : List Byte) : leftBytes [] size a bs = [(0, bs)] := by
  unfold leftBytes
  simp

/-- The state after a lane's bytes are put into the store path. -/
def laneStored (s : State) (t : Team) (k : StoreKind) (grp a : Nat) (bs : List Byte) : State :=
  l1Update (enqueue s t k grp a bs) t.core a bs

theorem laneStored_keeps (s : State) (t : Team) (k : StoreKind) (grp a : Nat) (bs : List Byte) :
    KeepsMemory s (laneStored s t k grp a bs) := rfl

/-- Lines of other cores stay in L1. -/
theorem laneStored_l1 {s : State} {t : Team} {k : StoreKind} {grp a : Nat} {bs : List Byte} {x : Line} (hx : x ∈ s.l1)
    (hc : x.core ≠ t.core) : x ∈ (laneStored s t k grp a bs).l1 := by
  refine List.mem_map.2 ⟨x, hx, if_neg ?_⟩
  simp [hc]

/-- A lane's entry in the store path. -/
def laneEntry (s : State) (t : Team) (k : StoreKind) (grp i a : Nat) (bs : List Byte) : StoreEnt :=
  { Claims.entryOf s t k i a bs with grp := grp }

theorem laneEntry_issuing (s : State) (t : Team) (g : Pend → List Reread) :
    laneEntry s (Team.reread (counted t) g) = laneEntry s t := rfl

theorem laneStored_stores {s s' : State} {i : Nat} (h : s'.nextSeq = s.nextSeq + i) (t : Team) (k : StoreKind) (grp a : Nat)
    (bs : List Byte) : (laneStored s' t k grp a bs).stores = s'.stores ++ [laneEntry s t k grp i a bs] := by
  unfold laneStored l1Update enqueue laneEntry Claims.entryOf
  rw [h]
  cases k <;> rfl

section
variable {s : State} {t : Team} {lanes : List Nat} {va : Nat → DWord} {pa : Nat → Nat} {size : Nat}
  (hh : LanesHit s t lanes .write va pa size) (hd : t.done = 0)
include hh hd

theorem storeLane_hit (k : StoreKind) (grp ord : Nat) {undef : Nat → Bool} (ws : Nat → List Word) {r : Run} {l : Nat}
    (hl : l ∈ lanes) (hu : undef l = false) (hs : KeepsMemory s r.s) :
    storeLane t k grp size ord undef va ws r l =
      r.touch (laneStored r.s t k grp (pa l) (storeBytes size (ws l))) (pa l) := by
  obtain ⟨x, hx, hp⟩ := tryLane_hit hh hs hl
  unfold storeLane
  simp only [doneAbove_none hd, List.filterMap_nil, hu, hx, leftBytes_nil, hp]
  rfl

/-- The lanes of a store that all hit put their entries into the store path in their order. -/
theorem storeLanes_hit (k : StoreKind) (grp ord : Nat) {undef : Nat → Bool} (ws : Nat → List Word) (ls : List Nat)
    (hl : ∀ l ∈ ls, l ∈ lanes) (hu : ∀ l ∈ ls, undef l = false) (r : Run) (hs : KeepsMemory s r.s) (i : Nat)
    (hi : r.s.nextSeq = s.nextSeq + i) :
    ∃ r', ls.foldl (storeLane t k grp size ord undef va ws) r = r' ∧ r'.op = r.op ∧ r'.tags = r.tags ∧ KeepsMemory s r'.s ∧
      r'.s.stores = r.s.stores ++ (ls.zipIdx i).map (fun l => laneEntry s t k grp l.2 (pa l.1) (storeBytes size (ws l.1))) ∧
      ∀ x ∈ r.s.l1, x.core ≠ t.core → x ∈ r'.s.l1 := by
  induction ls generalizing r i with
  | nil => exact ⟨r, rfl, rfl, rfl, hs, by simp, fun x hx _ => hx⟩
  | cons l ls ih =>
    have hlane := storeLane_hit hh hd k grp ord ws (hl l List.mem_cons_self) (hu l List.mem_cons_self) hs
    have hkeep := hs.trans (laneStored_keeps r.s t k grp (pa l) (storeBytes size (ws l)))
    obtain ⟨r', hr, hop, htags, hmem, hst, hl1⟩ := ih (fun x hx => hl x (List.mem_cons_of_mem _ hx))
      (fun x hx => hu x (List.mem_cons_of_mem _ hx)) (r.touch (laneStored r.s t k grp (pa l) (storeBytes size (ws l))) (pa l))
      hkeep (i + 1) (congrArg (· + 1) hi)
    refine ⟨r', ?_, hop, htags, hmem, ?_, fun x hx hc => hl1 x (laneStored_l1 hx hc) hc⟩
    · rw [List.foldl_cons, hlane, hr]
    · rw [hst, List.zipIdx_cons, List.map_cons, List.append_cons]
      exact congrArg (· ++ _) (laneStored_stores hi t k grp (pa l) _)

end

/-! ### The whole instruction -/

/-- A memory instruction that no flag counts and that met nothing ends its word. -/
theorem settleMem_unflagged {s : State} {t : Team} {op : MemOp} (hr : renew s t = t) (hp : t.pass = none) (hf : t.faulted = [])
    (ho : op = (startRun s none [] false false false).op) : settleMem s t op = setTeam s (advance t) := by
  subst ho
  unfold settleMem
  simp only [hr, hf]
  rw [if_neg]
  · rfl
  · exact ne_of_eq_of_ne (stopsHere_whole hp) Bool.false_ne_true

/-- The entries of a store as its lanes put them in. -/
theorem storeEntries_eq {s : State} {t : Team} {k : StoreKind} {ls : List Nat} {pa : Nat → Nat} {data data' : Nat → List Byte}
    (h : ∀ l ∈ ls, data' l = data l) :
    (ls.zipIdx 0).map (fun l => laneEntry s t k (coverGroup t k s.nextSeq) l.2 (pa l.1) (data' l.1)) =
      storeEntries s t k ls pa data := by
  refine List.map_congr_left fun l hl => ?_
  unfold laneEntry coverGroup
  rw [h l.1 (List.fst_mem_of_mem_zipIdx hl)]

/-- The team that issues a memory instruction, its word counted and its loads fixed where the word orders accesses. -/
theorem issuing_team {i : Instr} {s : State} {t : Team} {slots : List Nat} (h : Issues s t i slots) (r w : Mods → List Nat)
    (hr : ∀ n ∈ r (modsOf t), n ∈ slots) (hw : ∀ n ∈ w (modsOf t), n ∈ slots) :
    ∃ g, ∀ k : Team → Mods → Out, withWord i s r w k = k (Team.reread (counted t) g) (modsOf t) := by
  obtain ⟨g, hg⟩ := sealFor_eq i (modsOf t) (counted t)
  exact ⟨g, fun k => by rw [withWord_issues h r w k hr hw, hg]⟩

/-- Lanes hit whatever name their addresses have. -/
theorem lanesHit_congr {s : State} {t t' : Team} {ls : List Nat} {k : AccKind} {va va' : Nat → DWord} {pa : Nat → Nat} {size : Nat}
    (h : LanesHit s t ls k va pa size) (hr : t'.root = t.root) (hv : ∀ l ∈ ls, va' l = va l) : LanesHit s t' ls k va' pa size where
  aligned l hl := by rw [hv l hl]; exact h.aligned l hl
  mapped l hl := by rw [hr, hv l hl]; exact h.mapped l hl
  own := h.own
  good := h.good

/-- The lanes of a memory instruction of which none consumes poison, as its team issues. -/
theorem memLanes_issuing {s : State} {t : Team} {srcs : List Nat} (g : Pend → List Reread) (h : CleanLanes s t 0 srcs) :
    memLanes s (Team.reread (counted t) g) 0 srcs = (execLanes s t 0, []) := by
  rw [memLanes_clean]
  · rw [execLanes_reread, execLanes_counted]
  · rw [lostLanes_reread, lostLanes_counted]
    exact h.1

/-- A run that sends nothing to a peer ends its word. -/
theorem finishRun_home {t : Team} {r : Run} (h : r.tags = []) : finishRun t r = .next (settleMem r.s (t.sealedAt r.lines) r.op) := by
  unfold finishRun
  rw [h]

theorem readsPending_issuing (s : State) (t : Team) (g : Pend → List Reread) :
    readsPending s (Team.reread (counted t) g) = readsPending s t := by
  rw [readsPending_reread]
  rfl

theorem readSlot_issuing (s : State) (t : Team) (g : Pend → List Reread) :
    readSlot s (Team.reread (counted t) g) = readSlot s t := by
  rw [readSlot_reread]
  rfl

/-- A lane that reads no pending register reads its address, as its team issues. -/
theorem readAddr_issuing {s : State} {t : Team} {l : Nat} {srcs : List Nat} (g : Pend → List Reread) (a : BitVec 5) (o : BitVec 9)
    (size : Nat) (h : readsPending s t l (s2 a ++ srcs) = false) :
    readSlot64 s (Team.reread (counted t) g) l a.toNat + offM o size = addrOf t l a o size := by
  unfold readSlot64
  rw [readSlot_issuing]
  exact readAddr_known a o size h (by simp [s2_eq]) (by simp [s2_eq])

theorem readsPending_left {s : State} {t : Team} {l : Nat} {srcs srcs' : List Nat} (h : readsPending s t l (srcs ++ srcs') = false) :
    readsPending s t l srcs = false := (Bool.or_eq_false_iff.1 ((List.any_append ..).symm.trans h)).1

/-- What the lanes of a store that all hit do, and the end of its word. -/
theorem storeRun_stored {s s0 : State} {t : Team} {d a : BitVec 5} {x : Nat} {o : BitVec 9} {k : StoreKind} {ord grp : Nat}
    {pa : Nat → Nat} (g : Pend → List Reread) (hf : findTeam s t.uid = some t) (hp : t.pass = none)
    (h0 : t.faulted = [] ∧ t.done = 0) (hx : x ≤ 6) (hc : CleanLanes s t 0 (s2 a ++ dataSlots x d))
    (hh : LanesHit s t (execLanes s t 0) .write (fun l => addrOf t l a o (Machine.sizeOf x)) pa (Machine.sizeOf x))
    (hkeep : KeepsMemory s s0) (hst : s0.stores = s.stores) (hseq : s0.nextSeq = s.nextSeq) (hl1 : s0.l1 = s.l1)
    (hgrp : grp = coverGroup t k s.nextSeq) :
    ∃ s', finishRun (Team.reread (counted t) g) ((execLanes s t 0).foldl
        (storeLane (Team.reread (counted t) g) k grp (Machine.sizeOf x) ord
          (fun l => readsPending s (Team.reread (counted t) g) l (s2 a))
          (fun l => readSlot64 s (Team.reread (counted t) g) l a.toNat + offM o (Machine.sizeOf x))
          fun l => (dataSlots x d).map (readSlot s (Team.reread (counted t) g) l))
        (startRun s0 none [] false false false)) = .next s' ∧
      Stored s s' t (storeEntries s t k (execLanes s t 0) pa fun l => storedBytes x ((dataSlots x d).map (slot t l))) := by
  subst hgrp
  have hdata : ∀ l ∈ execLanes s t 0, storeBytes (Machine.sizeOf x) ((dataSlots x d).map (readSlot s (Team.reread (counted t) g) l)) =
      storedBytes x ((dataSlots x d).map (slot t l)) := by
    intro l hl
    rw [storeBytes_eq hx, readSlot_issuing]
    congr 1
    exact List.map_congr_left fun n hn => readSlot_known (hc.2 l hl) (List.mem_append_right _ hn)
  obtain ⟨r, hr, hop, htags, hmem, hes, hlines⟩ := storeLanes_hit
    (lanesHit_congr (t' := Team.reread (counted t) g) hh rfl fun l hl => readAddr_issuing g a o _ (hc.2 l hl)) h0.2 k (coverGroup t k s.nextSeq) ord
    (undef := fun l => readsPending s (Team.reread (counted t) g) l (s2 a))
    (fun l => (dataSlots x d).map (readSlot s (Team.reread (counted t) g) l)) (execLanes s t 0) (fun _ hl => hl)
    (fun l hl => by rw [readsPending_issuing]; exact readsPending_left (hc.2 l hl))
    (startRun s0 none [] false false false) hkeep 0 hseq
  obtain ⟨g', hg'⟩ := reread_reread (counted t) g fun p => p.again.filter fun b => !r.lines.contains b.line
  have hft : findTeam r.s t.uid = some t := (hmem.findTeam _).trans hf
  have hend : settleMem r.s ((Team.reread (counted t) g).sealedAt r.lines) r.op =
      setTeam r.s (Team.wentOn t g') := by
    have hren : renew r.s (Team.reread (counted t) g') = Team.reread (counted t) g' := renew_self hft rfl rfl
    rw [sealedAt_eq, hg', settleMem_unflagged hren hp h0.1 hop, advance_counted_reread]
  refine ⟨_, (congrArg (finishRun _) hr).trans ((finishRun_home htags).trans (congrArg _ hend)), fun u hu => ?_, ?_, fun b => ?_, ?_, ?_⟩
  · exact (findTeam_setTeam_ne r.s (Team.wentOn t g') u hu).trans (hmem.findTeam u)
  · exact ⟨_, findTeam_setTeam_same r.s (Team.wentOn t g') t hft, wentOn_wentTo t g'⟩
  · exact hmem.homeByte b
  · have he := storeEntries_eq (s := s) (t := t) (k := k) (pa := pa) hdata
    have hs : (startRun s0 none [] false false false).s.stores = s.stores := hst
    rw [setTeam_stores, hes, hs, ← he, laneEntry_issuing]
  · exact fun y hy hc => hlines y (hl1.symm ▸ hy) hc

/-- A store of lanes that all hit (R262, R264, R267). -/
theorem storeOp_stored {i : Instr} {s : State} {t : Team} {d a : BitVec 5} {x : Nat} {o : BitVec 9} {k : Mods → StoreKind} {ord : Nat}
    {pa : Nat → Nat} (h : Accepted s t i (s2 a ++ dataSlots x d)) (hx : x ≤ 6) (hc : CleanLanes s t 0 (s2 a ++ dataSlots x d))
    (hh : LanesHit s t (execLanes s t 0) .write (fun l => addrOf t l a o (Machine.sizeOf x)) pa (Machine.sizeOf x))
    (hk : ∀ scope, k (modsOf t) = .rel scope → NoStores s t) :
    ∃ s', storeOp i s d a x o k ord = .next s' ∧ Stored s s' t
      (storeEntries s t (k (modsOf t)) (execLanes s t 0) pa fun l => storedBytes x ((dataSlots x d).map (slot t l))) := by
  obtain ⟨g, hg⟩ := issuing_team h.toIssues (fun _ => s2 a ++ dataSlots x d) (fun _ => []) (fun _ hn => hn) (by simp)
  unfold storeOp
  rw [hg]
  simp only [memLanes_issuing g hc]
  generalize hs0 : noteWalks (bump s (Team.reread (counted t) g)) (Team.reread (counted t) g) _ = s0
  obtain ⟨hst, hseq, hl1⟩ : s0.stores = s.stores ∧ s0.nextSeq = s.nextSeq ∧ s0.l1 = s.l1 := hs0 ▸ noteWalks_bump ..
  have hkeep : KeepsMemory s s0 := hs0 ▸ (bump_keeps _ _).trans (noteWalks_keeps _ _ _)
  have hrun := storeRun_stored (k := k (modsOf t)) (ord := ord) g (findTeam_of_issues h.toIssues) h.whole h.first hx hc hh hkeep hst
    hseq hl1 rfl
  split
  next scope hscope =>
    have hno : NoStores s0 t := by
      unfold NoStores
      rw [hst]
      exact hk scope hscope
    have hshow : showNow s0 (Team.reread (counted t) g).uid = s0 := showNow_noStores hno
    rw [hshow, ite_self, hseq]
    exact hrun
  next =>
    rw [hseq]
    exact hrun

/-- A store's slots and sizes in the rules' terms. -/
theorem storeOp_enters {i : Instr} {s : State} {t : Team} {d a : BitVec 5} {x : Nat} {o : BitVec 9} {k : Mods → StoreKind} {ord : Nat}
    {pa : Nat → Nat} (h : Accepted s t i ([a.toNat, a.toNat + 1] ++ slotsOfX x d)) (hx : x ≤ 6)
    (hc : CleanLanes s t 0 ([a.toNat, a.toNat + 1] ++ slotsOfX x d))
    (hh : LanesHit s t (execLanes s t 0) .write (fun l => addrOf t l a o (bytesOfX x)) pa (bytesOfX x))
    (hk : ∀ scope, k (modsOf t) = .rel scope → NoStores s t) :
    ∃ s', storeOp i s d a x o k ord = .next s' ∧ Stored s s' t
      (storeEntries s t (k (modsOf t)) (execLanes s t 0) pa fun l => storedBytes x ((slotsOfX x d).map (slot t l))) := by
  rw [slotsOfX_eq] at *
  rw [bytesOfX_eq] at hh
  exact storeOp_stored h hx hc hh hk

theorem exec_stRel (d a : BitVec 5) (x : BitVec 1) (o : BitVec 9) (s : State) :
    exec (.stRel d a x o) s = execStRel d a x o s := rfl

theorem st_size {d a : BitVec 5} {x : BitVec 3} {o : BitVec 9} {t : Team} (h : reasons (.st d a x o) t = []) : x.toNat ≤ 6 :=
  size_le (Bool.or_eq_false_iff.1 (reservedField_of_legal h)).2

theorem stNt_size {d a : BitVec 5} {x : BitVec 3} {o : BitVec 9} {t : Team} (h : reasons (.stNt d a x o) t = []) : x.toNat ≤ 6 :=
  size_le (Bool.or_eq_false_iff.1 (reservedField_of_legal h)).2

/-- Settles O16: each lane that hits puts one entry into the store path, and nothing else happens to memory. -/
theorem storesEnterStorePath : Obligations.StoresEnterStorePath := by
  intro s t d a o pa
  refine ⟨fun x nt h hc hh => ?_, fun x hno h hc hh => ?_⟩
  · cases nt with
    | false => exact storeOp_enters (k := fun _ => .st) h (st_size h.legal) hc hh nofun
    | true => exact storeOp_enters (k := fun _ => .nt) h (stNt_size h.legal) hc hh nofun
  · have hx := x.isLt
    rw [exec_stRel, execStRel, acqX_eq]
    exact storeOp_enters (k := fun m => .rel (scopeOf m 4)) h (by omega) hc hh fun _ _ => hno

end Sys2Proof.Proofs

/-! ## Loads -/

namespace Sys2Proof.Proofs

open Sys2Proof Sys2Proof.Machine Sys2Proof.Claims

/-! ### Bytes as numbers -/

/-- Bytes read as a number, lowest first (R2). -/
theorem natOf_range (b : Nat → Byte) (n : Nat) : natOf ((List.range n).map b) = leNat b n := by
  induction n generalizing b with
  | zero => rfl
  | succ n ih =>
    have ih' := ih (fun j => b (j + 1))
    unfold leNat at *
    rw [List.range_succ_eq_map, List.map_cons, List.map_map, List.map_cons, List.map_map, List.sum_cons]
    have hs : ((List.range n).map ((fun j => (b j).toNat * 256 ^ j) ∘ Nat.succ)).sum =
        256 * ((List.range n).map (fun j => (b (j + 1)).toNat * 256 ^ j)).sum := by
      rw [← List.sum_map_mul_left]
      refine congrArg List.sum (List.map_congr_left fun j _ => ?_)
      simp only [Function.comp, Nat.succ_eq_add_one, pow_succ]
      ring
    rw [hs, ← ih', pow_zero, Nat.mul_one]
    rfl

/-- Part of the bytes from an address on. -/
theorem homeBytes_slice (s : State) (pa o n k : Nat) (h : o + k ≤ n) :
    ((homeBytes s pa n).drop o).take k = homeBytes s (pa + o) k := by
  unfold homeBytes
  apply List.ext_getElem
  · simp
    omega
  · intro i h1 h2
    simp [Nat.add_assoc]

theorem natOf_homeBytes (s : State) (pa n : Nat) : natOf (homeBytes s pa n) = leNat (memFrom s pa) n := natOf_range _ n

/-- A word of the bytes from an address on. -/
theorem wordAt_homeBytes (s : State) (pa o n : Nat) (h : o + 4 ≤ n) :
    wordAt (homeBytes s pa n) o = BitVec.ofNat 32 (leNat (fun j => memFrom s pa (j + o)) 4) := by
  unfold wordAt natAt
  rw [homeBytes_slice s pa o n 4 h, natOf_homeBytes]
  congr 2
  funext j
  unfold memFrom
  congr 1
  omega

theorem length_homeBytes (s : State) (pa n : Nat) : (homeBytes s pa n).length = n := by
  unfold homeBytes
  simp

/-- Four bytes or more are read word by word. -/
theorem loadWords_words {bs : List Byte} {n : Nat} (h : bs.length = n) (hn : 4 ≤ n) (sgn : Bool) :
    loadWords sgn bs = (List.range (n / 4)).map fun i => wordAt bs (4 * i) := by
  unfold loadWords
  split
  · omega
  · omega
  · rw [h]

/-- The words that a load makes of the bytes of memory (R23). -/
theorem loadWords_eq (s : State) (pa : Nat) {x : Nat} (hx : x ≤ 6) :
    loadWords (x == 1 || x == 3) (homeBytes s pa (Machine.sizeOf x)) = loadedWords x (memFrom s pa) := by
  have hw (n i : Nat) (h : 4 * i + 4 ≤ n) := wordAt_homeBytes s pa (4 * i) n h
  interval_cases x
  · exact congrArg (fun k => [BitVec.ofNat 32 k]) (natOf_homeBytes s pa 1)
  · exact congrArg (fun k => [(BitVec.ofNat 8 k).signExtend 32]) (natOf_homeBytes s pa 1)
  · exact congrArg (fun k => [BitVec.ofNat 32 k]) (natOf_homeBytes s pa 2)
  · exact congrArg (fun k => [(BitVec.ofNat 16 k).signExtend 32]) (natOf_homeBytes s pa 2)
  · rw [loadWords_words (length_homeBytes ..) (by decide)]
    exact congrArg (fun w => [w]) (hw 4 0 (by decide))
  · rw [loadWords_words (length_homeBytes ..) (by decide)]
    exact congrArg₂ (fun w v => [w, v]) (hw 8 0 (by decide)) (hw 8 1 (by decide))
  · rw [loadWords_words (length_homeBytes ..) (by decide)]
    refine List.map_congr_left fun i hi => hw 16 i ?_
    have : i < 4 := List.mem_range.1 hi
    change 4 * i + 4 ≤ 16
    omega

/-! ### Lines -/

/-- A leaf that a walk meets lies at a multiple of its page size. -/
theorem walkFrom_leaf {s : State} {va lvl node l : Nat} {att att' : Bool} {e : Entry}
    (h : walkFrom s va lvl node att = .leaf l e att') : e.frame % 2 ^ levelShift l = 0 := by
  have leaf {n : Nat} {e : Entry} (hm : malformed n e = false) (hl : e.leaf = true) : e.frame % 2 ^ levelShift n = 0 := by
    unfold malformed at hm
    simp only [Bool.or_eq_false_iff, hl, Bool.true_and, bne_eq_false_iff_eq] at hm
    tauto
  induction lvl generalizing node att with
  | zero =>
    rw [walkFrom_zero] at h
    dsimp only at h
    split at h
    · cases h
    · split at h
      · cases h
      next hm =>
        split at h
        next hl =>
          injection h with h1 h2
          subst h1 h2
          exact leaf (Bool.eq_false_iff.2 hm) hl
        · cases h
  | succ n ih =>
    rw [walkFrom_succ] at h
    dsimp only at h
    split at h
    · cases h
    · split at h
      · cases h
      next hm =>
        split at h
        next hl =>
          injection h with h1 h2
          subst h1 h2
          exact leaf (Bool.eq_false_iff.2 hm) hl
        · split at h
          · cases h
          · exact ih h

/-- A virtual address and its physical one agree modulo every divisor of a line's 64 bytes. -/
theorem translate_mod {s : State} {root : RootDesc} {va : DWord} {k : AccKind} {x : Xlat} {n : Nat}
    (h : Machine.translate s root va k none = .ok x) (hn : n ∣ 64) : x.pa % n = va.toNat % n := by
  unfold Machine.translate at h
  dsimp only at h
  split at h
  · cases h
  · split at h
    · cases h
    · split at h
      · cases h
      · cases h
      · cases h
      next l e att hw =>
        have hf := walkFrom_leaf hw
        have hd : n ∣ 2 ^ levelShift l := hn.trans (pow_dvd_pow 2 (by unfold levelShift; omega : 6 ≤ levelShift l))
        split at h
        · cases h
        · rw [if_neg Bool.false_ne_true] at h
          split at h
          · cases h
          · injection h with h
            rw [← h]
            obtain ⟨q, hq⟩ := hd.trans (Nat.dvd_of_mod_eq_zero hf)
            dsimp only
            rw [hq, Nat.mul_add_mod, Nat.mod_mod_of_dvd _ hd]

/-- An aligned access of a size that divides a line stays in one line. -/
theorem in_line {pa n : Nat} (hn : n ∣ 64) (h : pa % n = 0) : pa % 64 + n ≤ 64 := by
  obtain ⟨q, hq⟩ := hn
  have hm : pa % 64 % n = 0 := by rw [Nat.mod_mod_of_dvd _ ⟨q, hq⟩, h]
  obtain ⟨r, hr⟩ := Nat.dvd_of_mod_eq_zero hm
  have hlt : n * r < n * q := by
    rw [← hr, ← hq]
    exact Nat.mod_lt _ (by decide)
  have : r + 1 ≤ q := Nat.lt_of_mul_lt_mul_left hlt
  rw [hr, hq]
  calc n * r + n = n * (r + 1) := by ring
    _ ≤ n * q := Nat.mul_le_mul_left n this

theorem sizeOf_dvd : ∀ x, Machine.sizeOf x ∣ 64
  | 0 | 1 | 2 | 3 | 4 | 5 => by decide
  | _ + 6 => (by decide : 16 ∣ 64)

/-- A lane that hits accesses one line. -/
theorem hit_in_line {s : State} {t : Team} {lanes : List Nat} {k : AccKind} {va : Nat → DWord} {pa : Nat → Nat} {x l : Nat}
    (h : LanesHit s t lanes k va pa (Machine.sizeOf x)) (hl : l ∈ lanes) : pa l % 64 + Machine.sizeOf x ≤ 64 := by
  obtain ⟨y, hy, hp⟩ := h.mapped l hl
  refine in_line (sizeOf_dvd x) ?_
  rw [← hp, translate_mod hy (sizeOf_dvd x)]
  exact h.aligned l hl

end Sys2Proof.Proofs

/-! ## Loads, lane by lane -/

namespace Sys2Proof.Proofs

open Sys2Proof Sys2Proof.Machine Sys2Proof.Claims

/-- The state s' within a load that started in s: memory and the store path are as they were, and the lines of the core in L1 hold
what memory holds. -/
structure Loading (s : State) (core : Nat) (s' : State) : Prop where
  keeps : KeepsMemory s s'
  stores : s'.stores = s.stores
  seq : s'.nextSeq = s.nextSeq
  lines : ∀ x ∈ s'.l1, x.core = core → x.data = homeBytes s (64 * x.line) 64

theorem mem_evict {cap core fresh : Nat} {ls : List Line} {x : Line} (h : x ∈ evict cap core fresh ls) : x ∈ ls := by
  unfold evict at h
  dsimp only at h
  split at h
  · exact h
  · split at h
    · exact List.mem_of_mem_filter h
    · exact h

section
variable {s s' : State} {t : Team} (h : Loading s t.core s') (hno : NoStores s t)
include h hno

theorem loading_noStores : NoStores s' t := by
  unfold NoStores
  rw [h.stores]
  exact hno

/-- A line that a load miss brings in holds what memory holds. -/
theorem l1Fill_loading (ln : Nat) : Loading s t.core (l1Fill s' t.core ln) := by
  refine ⟨h.keeps.trans rfl, h.stores, h.seq, fun x hx hc => ?_⟩
  rcases List.mem_append.1 hx with hx | hx
  · exact h.lines x (mem_evict hx) hc
  · rw [List.mem_singleton] at hx
    rw [hx]
    dsimp only
    rw [filter_core_noStores (loading_noStores h hno), h.keeps.homeBytes]
    rfl

/-- A load of good bytes of one line takes them as memory holds them (R165). -/
theorem loadFrom_good {pa n : Nat} (hl : pa % 64 + n ≤ 64) (hg : hopOf s pa n = 0) (home : Bool) :
    ∃ s1, loadFrom s' t home pa n = (s1, homeBytes s pa n, 0) ∧ Loading s t.core s1 := by
  have hno' := loading_noStores h hno
  have hgood : hopOf s' pa n = 0 := (h.keeps.hopOf pa n).trans hg
  unfold loadFrom
  simp only [performUpTo_noStores hno']
  cases home with
  | true =>
    rw [if_pos rfl, filter_uid_noStores hno', hgood, h.keeps.homeBytes]
    exact ⟨s', rfl, h⟩
  | false =>
    rw [if_neg Bool.false_ne_true]
    split
    next ln hln =>
      have hp : (ln.core == t.core && ln.line == pa / 64) = true :=
        List.find?_some (p := fun x : Line => x.core == t.core && x.line == pa / 64) hln
      have hm : ln ∈ s'.l1 := List.mem_of_find?_eq_some hln
      rw [Bool.and_eq_true, beq_iff_eq, beq_iff_eq] at hp
      rw [h.lines ln hm hp.1, hp.2, homeBytes_slice _ _ _ _ _ hl, Nat.div_add_mod]
      exact ⟨s', rfl, h⟩
    next =>
      rw [if_neg (by rw [hgood]; exact fun c => c rfl)]
      have hf := l1Fill_loading h hno (pa / 64)
      rw [filter_core_noStores (loading_noStores hf hno), hf.keeps.homeBytes]
      exact ⟨_, rfl, hf⟩

end

/-- What a load's lanes add to it: their registers, words and addresses; and some that memory may serve anew. -/
structure Added (op op' : MemOp) (dests : List Nat) (writes : List (Nat × Word)) (vas : List (Nat × DWord)) : Prop where
  eq : op' = { op with dests := op.dests ++ dests, writes := op.writes ++ writes, vas := op.vas ++ vas, again := op'.again }

theorem Added.refl (op : MemOp) : Added op op [] [] [] := ⟨by simp⟩

theorem Added.trans {op op' op'' : MemOp} {d d' : List Nat} {w w' : List (Nat × Word)} {v v' : List (Nat × DWord)}
    (h : Added op op' d w v) (h' : Added op' op'' d' w' v') : Added op op'' (d ++ d') (w ++ w') (v ++ v') :=
  ⟨by rw [h'.eq, h.eq]; simp only [List.append_assoc]⟩

section
variable {s : State} {t : Team} {lanes : List Nat} {va : Nat → DWord} {pa : Nat → Nat} {x : Nat}
  (hno : NoStores s t) (hh : LanesHit s t lanes .read va pa (Machine.sizeOf x))
  (howed : NoOwedSave s t lanes va (Machine.sizeOf x))
include hno hh howed

theorem loadLane_hit (home sgn : Bool) (dsts : List Nat) (ord : Nat) {undef : Nat → Bool} {r : Run} {l : Nat} (hl : l ∈ lanes)
    (hu : undef l = false) (hs : Loading s t.core r.s) :
    ∃ r', loadLane t home sgn (Machine.sizeOf x) dsts ord undef va r l = r' ∧ r'.tags = r.tags ∧ Loading s t.core r'.s ∧
      Added r.op r'.op (laneKeys t l dsts) ((laneKeys t l dsts).zip (loadWords sgn (homeBytes s (pa l) (Machine.sizeOf x))))
        [(l, va l)] := by
  obtain ⟨y, hy, hp⟩ := tryLane_hit hh hs.keeps hl
  obtain ⟨s1, hload, hs1⟩ := loadFrom_good hs hno (hit_in_line hh hl) (hh.good l hl) home
  have hown : readsOwedSave s1 t (va l).toNat (Machine.sizeOf x) = false := by
    unfold readsOwedSave
    rw [hs1.keeps.coreOf]
    exact howed l hl
  unfold loadLane
  simp only [hu, hy, hp, hload, hown, Bool.false_eq_true, if_false]
  split
  · exact ⟨_, rfl, rfl, hs1, ⟨rfl⟩⟩
  · exact ⟨_, rfl, rfl, hs1, ⟨rfl⟩⟩

/-- The lanes of a load that all hit add what they owe in their order. -/
theorem loadLanes_hit (home sgn : Bool) (dsts : List Nat) (ord : Nat) {undef : Nat → Bool} (ls : List Nat)
    (hl : ∀ l ∈ ls, l ∈ lanes) (hu : ∀ l ∈ ls, undef l = false) (r : Run) (hs : Loading s t.core r.s) :
    ∃ r', ls.foldl (loadLane t home sgn (Machine.sizeOf x) dsts ord undef va) r = r' ∧ r'.tags = r.tags ∧
      Loading s t.core r'.s ∧
      Added r.op r'.op (ls.flatMap fun l => laneKeys t l dsts)
        (ls.flatMap fun l => (laneKeys t l dsts).zip (loadWords sgn (homeBytes s (pa l) (Machine.sizeOf x))))
        (ls.map fun l => (l, va l)) := by
  induction ls generalizing r with
  | nil => exact ⟨r, rfl, rfl, hs, .refl _⟩
  | cons l ls ih =>
    obtain ⟨r1, h1, ht1, hs1, ha1⟩ := loadLane_hit hno hh howed home sgn dsts ord (hl l List.mem_cons_self)
      (hu l List.mem_cons_self) hs
    obtain ⟨r2, h2, ht2, hs2, ha2⟩ := ih (fun y hy => hl y (List.mem_cons_of_mem _ hy))
      (fun y hy => hu y (List.mem_cons_of_mem _ hy)) r1 hs1
    refine ⟨r2, ?_, ht2.trans ht1, hs2, ?_⟩
    · rw [List.foldl_cons, h1, h2]
    · exact ha1.trans ha2

end

end Sys2Proof.Proofs

/-! ## Loads: what they owe -/

namespace Sys2Proof.Proofs

open Sys2Proof Sys2Proof.Machine Sys2Proof.Claims

/-! ### Flags -/

/-- A flag after one of the twelve is changed (R31). -/
theorem flagOf_flagMap (t : Team) (i : Nat) (f : Nat → Nat) {k : Nat} (hk : k < 12) :
    flagOf (flagMap t i f) k = if k = i then f (flagOf t k) else flagOf t k := by
  unfold flagOf flagMap
  simp only [Vector.toList_setIfInBounds, List.getD_eq_getElem?_getD, List.getElem?_set, Vector.length_toList]
  by_cases h : k = i
  · subst h
    simp [hk]
  · rw [if_neg (Ne.symm h), if_neg h]

theorem flagOf_up (t : Team) (i : Nat) {k : Nat} (hk : k < 12) :
    flagOf (flagMap t i (· + 1)) k = flagOf t k + if k = i then 1 else 0 := by
  rw [flagOf_flagMap t i _ hk]
  split <;> rfl

theorem flagOf_down (t : Team) (i : Nat) {k : Nat} (hk : k < 12) :
    flagOf (flagMap t i (· - 1)) k = flagOf t k - if k = i then 1 else 0 := by
  rw [flagOf_flagMap t i _ hk]
  split <;> rfl

/-! ### The end of a load -/

/-- The team at its next word, its word counted and its flag one higher, owing one instruction more. -/
def Team.accepting (t : Team) (g : Pend → List Reread) (p : Pend) (f : Nat) : Team :=
  { t.movedTo (nextPlace t) with pend := (Team.reread t g).pend ++ [p], flags := (flagMap t f (· + 1)).flags }

theorem advance_accepting (t : Team) (g : Pend → List Reread) (p : Pend) (f : Nat) :
    advance (flagMap { Team.reread (counted t) g with pend := (Team.reread (counted t) g).pend ++ [p] } f (· + 1)) =
      Team.accepting t g p f := by
  rw [advance_eq]
  rfl

/-- An acquire of the team's core leaves no line of it in L1 (R165, R265). -/
def acquired (s : State) (core : Nat) (acquire : Bool) : State := if acquire then l1Invalidate s core else s

/-- What a flag-counted instruction owes whose lanes have met nothing. -/
def owedPend (s : State) (t : Team) (f : Nat) (op : MemOp) : Pend :=
  { seq := s.nextSeq, flag := f, wait := .data, dests := op.dests, writes := op.writes, vas := op.vas, losses := op.losses
    contested := [], pc := wordAddr t, handler := t.handler.isSome, again := op.again, home := op.home, acquires := op.acquires }

/-- The state with one more instruction numbered. -/
def numbered (s : State) : State := { s with nextSeq := s.nextSeq + 1 }

theorem numbered_keeps (s : State) : KeepsMemory s (numbered s) := rfl

/-- A flag-counted instruction whose lanes have met nothing is accepted (R30, R31). -/
theorem settleMem_accepted {s : State} {t : Team} {op : MemOp} {f : Nat} (hr : renew s t = t) (hp : t.pass = none)
    (hf : t.faulted = []) (hfaults : op.faults = []) (hlost : op.lost = []) (hflag : op.flag = some f)
    (hpromote : op.promote = none) :
    settleMem s t op = setTeam (numbered (acquired s t.core op.acquire))
      (advance (flagMap { t with pend := t.pend ++ [owedPend (acquired s t.core op.acquire) t f op] } f (· + 1))) := by
  unfold settleMem acquired owedPend
  simp only [hr, hf, hfaults, hlost, hflag, hpromote, List.append_nil]
  rw [if_neg (ne_of_eq_of_ne (stopsHere_whole hp) Bool.false_ne_true)]
  rfl

end Sys2Proof.Proofs

/-! ## Loads: issue and completion -/

namespace Sys2Proof.Proofs

open Sys2Proof Sys2Proof.Machine Sys2Proof.Claims

theorem keysOf_eq (t : Team) (l : Nat) (ns : List Nat) : keysOf t l ns = laneKeys t l ns := by
  unfold keysOf laneKeys
  rw [List.map_filterMap]

/-- What a team owes of a SAVE copy does not depend on which of its loads may be served anew. -/
theorem readsOwedSave_issuing (s : State) (t : Team) (g : Pend → List Reread) :
    readsOwedSave s (Team.reread (counted t) g) = readsOwedSave s t := by
  unfold readsOwedSave Team.reread
  rw [List.flatMap_map]
  rfl

/-- The flag that SETA names of a load without a cause of R45 (R31, R45). -/
theorem flagNo_of_legal {i : Instr} {t : Team} (h : reasons i t = []) (hl : loadClass i = true) :
    flagNo t.clause.seta = some t.clause.seta.toNat := by
  unfold reasons at h
  simp only [List.append_eq_nil_iff] at h
  obtain ⟨-, h⟩ := h
  unfold because at h
  rw [hl] at h
  unfold flagNo
  split at h
  · cases h
  next hn =>
    refine if_neg fun h15 => hn ?_
    simp [h15]

/-- The pending instruction of a load in the rules' terms (R165). -/
theorem owedPend_eq {s s0 s' : State} {t : Team} {op : MemOp} {home acquire acquires : Bool} {ls : List Nat} {va : Nat → DWord}
    {pa : Nat → Nat} {dsts : List Nat} {x : Nat} (g : Pend → List Reread) (hx : x ≤ 6) (hs : s'.nextSeq = s.nextSeq)
    (ho : Added (startRun s0 (some t.clause.seta.toNat) [] home acquire acquires).op op (ls.flatMap fun l => laneKeys t l dsts)
      (ls.flatMap fun l => (laneKeys t l dsts).zip (loadWords (x == 1 || x == 3) (homeBytes s (pa l) (Machine.sizeOf x))))
      (ls.map fun l => (l, va l))) :
    (owedPend s' (Team.reread (counted t) g) t.clause.seta.toNat op).plain =
      (loadPend s t home acquires ls va dsts fun l => loadedWords x (memFrom s (pa l))).plain := by
  rw [ho.eq]
  unfold owedPend loadPend Pend.plain
  rw [hs]
  simp only [keysOf_eq, loadWords_eq s _ hx]
  rfl

theorem accepting_accepts {t : Team} {g : Pend → List Reread} {p q : Pend} (hp : p.plain = q.plain) :
    Owes (Team.accepting t g p q.flag) (t.pend ++ [q]) ∧
      ∀ k < 12, flagOf (Team.accepting t g p q.flag) k = flagOf t k + if k = q.flag then 1 else 0 := by
  refine ⟨?_, fun k hk => flagOf_up t q.flag hk⟩
  unfold Owes Team.accepting
  rw [List.map_append, List.map_append, reread_plain, List.map_singleton, List.map_singleton, hp]

/-- A team that goes on owing one instruction more has that instruction accepted. -/
theorem setTeam_accepts {s s1 : State} {t : Team} {g : Pend → List Reread} {p q : Pend} (hk : KeepsMemory s s1)
    (hst : s1.stores = s.stores) (hf : findTeam s t.uid = some t) (hp : p.plain = q.plain) :
    Accepts s (setTeam s1 (Team.accepting t g p q.flag)) t q := by
  obtain ⟨howes, hflags⟩ := accepting_accepts (t := t) (g := g) hp
  refine ⟨fun u hu => ?_, fun b => hk.homeByte b, hst, ?_⟩
  · exact (findTeam_setTeam_ne s1 (Team.accepting t g p q.flag) u hu).trans (hk.findTeam u)
  · exact ⟨_, findTeam_setTeam_same s1 (Team.accepting t g p q.flag) t ((hk.findTeam _).trans hf), rfl, howes, hflags⟩

theorem acquired_l1 {s : State} {core : Nat} {y : Line} (h : y ∈ (acquired s core true).l1) : y.core ≠ core := by
  have := (List.mem_filter.1 h).2
  simpa using this

theorem acquired_keeps (s : State) (core : Nat) (b : Bool) : KeepsMemory s (acquired s core b) := by
  cases b <;> rfl

/-- What the lanes of a load that all hit do, and the end of its word. -/
theorem loadRun_accepts {s s0 : State} {t : Team} {d a : BitVec 5} {x ord : Nat} {o : BitVec 9} {home acquire acquires : Bool}
    {pa : Nat → Nat} (g : Pend → List Reread) (hf : findTeam s t.uid = some t) (hp : t.pass = none) (h0 : t.faulted = [])
    (hx : x ≤ 6) (hno : NoStores s t) (hc : CleanLanes s t 0 (s2 a))
    (hh : LanesHit s t (execLanes s t 0) .read (fun l => addrOf t l a o (Machine.sizeOf x)) pa (Machine.sizeOf x))
    (howed : NoOwedSave s t (execLanes s t 0) (fun l => addrOf t l a o (Machine.sizeOf x)) (Machine.sizeOf x))
    (hs0 : Loading s t.core s0) :
    ∃ s', finishRun (Team.reread (counted t) g) ((execLanes s t 0).foldl
        (loadLane (Team.reread (counted t) g) home (x == 1 || x == 3) (Machine.sizeOf x) (dataSlots x d) ord
          (fun l => readsPending s (Team.reread (counted t) g) l (s2 a))
          (fun l => readSlot64 s (Team.reread (counted t) g) l a.toNat + offM o (Machine.sizeOf x)))
        (startRun s0 (some t.clause.seta.toNat) [] home acquire acquires)) = .next s' ∧
      Accepts s s' t (loadPend s t home acquires (execLanes s t 0) (fun l => addrOf t l a o (Machine.sizeOf x)) (dataSlots x d)
        fun l => loadedWords x (memFrom s (pa l))) ∧
      (acquire = true → ∀ y ∈ s'.l1, y.core ≠ t.core) := by
  have hva : ∀ l ∈ execLanes s t 0, readSlot64 s (Team.reread (counted t) g) l a.toNat + offM o (Machine.sizeOf x) =
      addrOf t l a o (Machine.sizeOf x) := fun l hl => readAddr_issuing (srcs := []) g a o _ (hc.2 l hl)
  obtain ⟨r, hr, htags, hload, hadd⟩ := loadLanes_hit (t := Team.reread (counted t) g) hno (lanesHit_congr hh rfl hva)
    (fun l hl => by rw [readsOwedSave_issuing, hva l hl]; exact howed l hl) home (x == 1 || x == 3) (dataSlots x d) ord
    (undef := fun l => readsPending s (Team.reread (counted t) g) l (s2 a)) (execLanes s t 0) (fun _ hl => hl)
    (fun l hl => by rw [readsPending_issuing]; exact hc.2 l hl)
    (startRun s0 (some t.clause.seta.toNat) [] home acquire acquires) hs0
  have hvas : ((execLanes s t 0).map fun l =>
      (l, readSlot64 s (Team.reread (counted t) g) l a.toNat + offM o (Machine.sizeOf x))) =
      (execLanes s t 0).map fun l => (l, addrOf t l a o (Machine.sizeOf x)) :=
    List.map_congr_left fun l hl => by rw [hva l hl]
  rw [hvas] at hadd
  obtain ⟨g', hg'⟩ := reread_reread (counted t) g fun p => p.again.filter fun b => !r.lines.contains b.line
  have hft : findTeam r.s t.uid = some t := (hload.keeps.findTeam _).trans hf
  have hren : renew r.s (Team.reread (counted t) g') = Team.reread (counted t) g' := renew_self hft rfl rfl
  have hacq : r.op.acquire = acquire := by rw [hadd.eq]; rfl
  have hend := settleMem_accepted (op := r.op) (f := t.clause.seta.toNat) hren hp h0 (by rw [hadd.eq]; rfl) (by rw [hadd.eq]; rfl)
    (by rw [hadd.eq]; rfl) (by rw [hadd.eq]; rfl)
  rw [advance_accepting, hacq] at hend
  have hseq : (acquired r.s t.core acquire).nextSeq = s.nextSeq := by rw [← hload.seq]; cases acquire <;> rfl
  have hkeeps := hload.keeps.trans ((acquired_keeps r.s t.core acquire).trans (numbered_keeps _))
  have hpend := owedPend_eq (acquire := acquire) g' hx hseq hadd
  have hst : (numbered (acquired r.s t.core acquire)).stores = s.stores := by rw [← hload.stores]; cases acquire <;> rfl
  have haccepts := setTeam_accepts (g := g') hkeeps hst hf hpend
  have hrun : finishRun (Team.reread (counted t) g) r = .next (settleMem r.s (Team.reread (counted t) g') r.op) := by
    rw [finishRun_home htags, sealedAt_eq, hg']
  rw [hr, hrun, hend]
  refine ⟨_, rfl, haccepts, ?_⟩
  rintro rfl y hy
  exact acquired_l1 hy

/-- A load of lanes that all hit, in the model's slots and sizes (R165, R265). -/
theorem loadOp_accepts {i : Instr} {s : State} {t : Team} {d a : BitVec 5} {x : Nat} {o : BitVec 9} {home : Mods → Bool}
    {acq : Mods → Nat} {pa : Nat → Nat} (h : Accepted s t i (s2 a ++ dataSlots x d)) (hclass : loadClass i = true) (hx : x ≤ 6)
    (hno : NoStores s t) (hl1 : ∀ y ∈ s.l1, y.core ≠ t.core) (hc : CleanLanes s t 0 (s2 a))
    (hh : LanesHit s t (execLanes s t 0) .read (fun l => addrOf t l a o (Machine.sizeOf x)) pa (Machine.sizeOf x))
    (howed : NoOwedSave s t (execLanes s t 0) (fun l => addrOf t l a o (Machine.sizeOf x)) (Machine.sizeOf x)) :
    ∃ s', loadOp i s d a x o home acq = .next s' ∧
      Accepts s s' t (loadPend s t (home (modsOf t)) (acq (modsOf t) != 0) (execLanes s t 0)
        (fun l => addrOf t l a o (Machine.sizeOf x)) (dataSlots x d) fun l => loadedWords x (memFrom s (pa l))) ∧
      (3 ≤ acq (modsOf t) → ∀ y ∈ s'.l1, y.core ≠ t.core) := by
  obtain ⟨g, hg⟩ := issuing_team h.toIssues (fun _ => s2 a) (fun _ => dataSlots x d) (fun _ hn => List.mem_append_left _ hn)
    (fun _ hn => List.mem_append_right _ hn)
  unfold loadOp
  rw [hg]
  simp only [memLanes_issuing g hc]
  generalize hs0 : noteWalks (bump s (Team.reread (counted t) g)) (Team.reread (counted t) g) _ = s0
  obtain ⟨hst, hseq, hlines⟩ : s0.stores = s.stores ∧ s0.nextSeq = s.nextSeq ∧ s0.l1 = s.l1 := hs0 ▸ noteWalks_bump ..
  have hkeep : KeepsMemory s s0 := hs0 ▸ (bump_keeps _ _).trans (noteWalks_keeps _ _ _)
  have hload : Loading s t.core s0 := ⟨hkeep, hst, hseq, fun y hy hcore => absurd hcore (hl1 y (hlines ▸ hy))⟩
  have hflush : flushReleases s0 (Team.reread (counted t) g).uid (acq (modsOf t)) = s0 :=
    flushReleases_noStores (loading_noStores hload hno) _
  have hflag : flagNo (Team.reread (counted t) g).clause.seta = some t.clause.seta.toNat := flagNo_of_legal h.legal hclass
  rw [hflush, ite_self, hflag]
  obtain ⟨s', hr, ha, hl⟩ := loadRun_accepts (d := d) (home := home (modsOf t)) (acquire := decide (3 ≤ acq (modsOf t)))
    (acquires := acq (modsOf t) != 0) (ord := if acq (modsOf t) = 0 then 0 else 1) g (findTeam_of_issues h.toIssues) h.whole
    h.first.1 hx hno hc hh howed hload
  exact ⟨s', hr, ha, fun h3 => hl (decide_eq_true h3)⟩

/-- The same in the rules' slots and sizes. -/
theorem loadOp_owes {i : Instr} {s : State} {t : Team} {d a : BitVec 5} {x : Nat} {o : BitVec 9} {home : Mods → Bool}
    {acq : Mods → Nat} {pa : Nat → Nat} (h : Accepted s t i ([a.toNat, a.toNat + 1] ++ slotsOfX x d)) (hclass : loadClass i = true)
    (hx : x ≤ 6) (hno : NoStores s t) (hl1 : ∀ y ∈ s.l1, y.core ≠ t.core) (hc : CleanLanes s t 0 [a.toNat, a.toNat + 1])
    (hh : LanesHit s t (execLanes s t 0) .read (fun l => addrOf t l a o (bytesOfX x)) pa (bytesOfX x))
    (howed : NoOwedSave s t (execLanes s t 0) (fun l => addrOf t l a o (bytesOfX x)) (bytesOfX x)) :
    ∃ s', loadOp i s d a x o home acq = .next s' ∧
      Accepts s s' t (loadPend s t (home (modsOf t)) (acq (modsOf t) != 0) (execLanes s t 0)
        (fun l => addrOf t l a o (bytesOfX x)) (slotsOfX x d) fun l => loadedWords x (memFrom s (pa l))) ∧
      (3 ≤ acq (modsOf t) → ∀ y ∈ s'.l1, y.core ≠ t.core) := by
  rw [slotsOfX_eq] at *
  rw [bytesOfX_eq] at *
  exact loadOp_accepts h hclass hx hno hl1 hc hh howed

theorem exec_ld (d a : BitVec 5) (x : BitVec 3) (o : BitVec 9) (s : State) : exec (.ld d a x o) s = execLd d a x o s := rfl
theorem exec_ldAcq (d a : BitVec 5) (x : BitVec 1) (o : BitVec 9) (s : State) :
    exec (.ldAcq d a x o) s = execLdAcq d a x o s := rfl
theorem exec_loadComplete (u k : Nat) (s : State) : exec (.loadComplete u k) s = execLoadComplete u k s := rfl

theorem ld_size {d a : BitVec 5} {x : BitVec 3} {o : BitVec 9} {t : Team} (h : reasons (.ld d a x o) t = []) : x.toNat ≤ 6 :=
  size_le (Bool.or_eq_false_iff.1 (reservedField_of_legal h)).2

/-- The scope of an acquire is never none. -/
theorem scopeOf_ne_zero (m : Mods) : (scopeOf m 4 != 0) = true := by
  unfold scopeOf
  split
  · rfl
  next h => simpa using fun e => h (BitVec.eq_of_toNat_eq e)

/-! ### Completion -/

/-- A pending instruction's last effect outside handlers, where no write contests its destinations and no lane is lost (R30, R157). -/
def completed (t : Team) (p : Pend) : Team :=
  flagMap { t with
    regs := sputs 0 t.regs p.writes
    regBad := p.writes.foldl (fun acc w => sput false acc w.1 false) t.regBad
    pend := (t.pend.filter (fun q => q.seq != p.seq)).map (fun q => q.yields p.seq p.handler p.dests) } p.flag (· - 1)

theorem yields_seq (p : Pend) (n : Nat) (b : Bool) (ks : List Nat) : (p.yields n b ks).seq = p.seq := by
  unfold Pend.yields
  split <;> rfl

/-- The cores after later writes have replaced mask words of earlier sieves are as before but for that (R33). -/
theorem coreOf_goneSieves_plain (s : State) (u n : Nat) (b : Bool) (ks : List Nat) (id : Nat) :
    (coreOf (goneSieves s u n b ks) id).plain = (coreOf s id).plain := by
  unfold coreOf goneSieves
  rw [List.find?_map]
  change CoreSt.plain (((s.cores.find? fun x : CoreSt => x.id == id).map _).getD _) = _
  cases s.cores.find? fun x : CoreSt => x.id == id with
  | none => rfl
  | some c =>
    simp only [Option.map_some, Option.getD_some]
    unfold CoreSt.plain
    rw [List.map_map]
    refine congrArg (fun m => ({ c with mat := m, leaf := [] } : CoreSt)) (List.map_congr_left fun m _ => ?_)
    rw [Function.comp_apply]
    split
    · split <;> rfl
    · rfl

/-- The team after the values of a pending instruction have reached its registers. -/
def landed (t : Team) (ws : List (Nat × Word)) : Team :=
  { t with regs := sputs 0 t.regs ws, regBad := ws.foldl (fun acc w => sput false acc w.1 false) t.regBad }

/-- Outside handlers all values reach the registers (R341). -/
theorem landWrites_program {s : State} {t : Team} (hf : findTeam s t.uid = some t) (hh : t.handler = none) (b : Bool)
    (ws : List (Nat × Word)) :
    landWrites s t.uid b ws = taintRows (setTeam s (landed t ws)) t (ws.map Prod.fst) := by
  unfold landWrites landed
  simp only [hf, hh, Option.isSome_none, Bool.false_and, Bool.not_false, List.filter_true]

theorem findTeam_landWrites {s : State} {t : Team} (hf : findTeam s t.uid = some t) (hh : t.handler = none) (b : Bool)
    (ws : List (Nat × Word)) (v : Nat) :
    findTeam (landWrites s t.uid b ws) v = findTeam (setTeam s (landed t ws)) v := by
  rw [landWrites_program hf hh]
  rfl

/-- Outside handlers, with nothing contested and nothing lost, the last effect of a pending instruction is its team's (R30). -/
theorem finishPend_completed {s : State} {t : Team} {p : Pend} (hf : findTeam s t.uid = some t) (hc : p.contested = [])
    (hl : p.losses = []) (hh : t.handler = none) :
    finishPend s t.uid p =
      setTeam (goneSieves (landWrites s t.uid p.handler p.writes) t.uid p.seq p.handler p.dests) (completed t p) := by
  have hland : findTeam (landWrites s t.uid p.handler p.writes) t.uid = some (landed t p.writes) :=
    (findTeam_landWrites hf hh _ _ _).trans (findTeam_setTeam_same s (landed t p.writes) t hf)
  unfold finishPend
  simp only [hc, hl, List.contains_nil, Bool.false_and, Bool.not_false, List.filter_true, List.isEmpty_nil, if_true, hland,
    List.filter_nil]
  rfl

theorem loadComplete_completed {s : State} {t : Team} {p : Pend} (hf : findTeam s t.uid = some t)
    (hp : findPend t p.seq = some p) (hw : p.wait = .data) (hc : p.contested = []) (hl : p.losses = []) (hh : t.handler = none) :
    ∃ s', exec (.loadComplete t.uid p.seq) s = .next s' ∧ Becomes s s' t (completed t p) := by
  refine ⟨finishPend s t.uid p, ?_, ?_⟩
  · rw [exec_loadComplete, execLoadComplete]
    simp only [hf, hp, hw, beq_self_eq_true, if_true]
  rw [finishPend_completed hf hc hl hh, landWrites_program hf hh]
  have hfind : ∀ v, v ≠ t.uid → findTeam (setTeam s (landed t p.writes)) v = findTeam s v := findTeam_setTeam_ne s (landed t p.writes)
  refine ⟨⟨rfl, fun a => homeByte_congr rfl rfl a, fun v hv => ?_, fun c => ?_, fun d => rfl⟩, ?_⟩
  · exact (findTeam_setTeam_ne _ (completed t p) v hv).trans (hfind v hv)
  · rw [coreOf_setTeam, coreOf_goneSieves_plain]
    exact coreOf_taintBy_plain ..
  · exact findTeam_setTeam_same _ (completed t p) (landed t p.writes) (findTeam_setTeam_same s (landed t p.writes) t hf)

/-- Registers written are no longer poisoned. -/
theorem cleared_eq (m : List (Nat × Bool)) (ws : List (Nat × Word)) :
    ws.foldl (fun acc w => sput false acc w.1 false) m = sputs false m (ws.map fun w => (w.1, false)) := by
  unfold sputs
  rw [List.foldl_map]

theorem completed_written {t : Team} {p : Pend} (hn : (p.writes.map Prod.fst).Nodup) {w : Nat × Word} (hw : w ∈ p.writes) :
    sget 0 (completed t p).regs w.1 = w.2 ∧ sget false (completed t p).regBad w.1 = false := by
  obtain ⟨xs, ys, hxy⟩ := List.append_of_mem hw
  have hys : ∀ y ∈ ys, y.1 ≠ w.1 := by
    rw [hxy, List.map_append, List.map_cons] at hn
    have := (List.nodup_cons.1 (List.nodup_append.1 hn).2.1).1
    exact fun y hy he => this (he ▸ List.mem_map_of_mem hy)
  change sget 0 (sputs 0 t.regs p.writes) w.1 = w.2 ∧ sget false (p.writes.foldl _ t.regBad) w.1 = false
  rw [cleared_eq, hxy, List.map_append, List.map_cons]
  exact ⟨sget_sputs_last 0 xs ys _ _ _ hys, sget_sputs_last false _ _ _ _ _ (List.forall_mem_map.2 hys)⟩

theorem completed_unwritten {t : Team} {p : Pend} {k : Nat} (hk : k ∉ p.writes.map Prod.fst) :
    sget 0 (completed t p).regs k = sget 0 t.regs k ∧ sget false (completed t p).regBad k = sget false t.regBad k := by
  have hne : ∀ w ∈ p.writes, w.1 ≠ k := fun w hw he => hk (he ▸ List.mem_map_of_mem hw)
  change sget 0 (sputs 0 t.regs p.writes) k = _ ∧ sget false (p.writes.foldl _ t.regBad) k = _
  rw [cleared_eq]
  exact ⟨sget_sputs_ne 0 _ _ hne, sget_sputs_ne false _ _ (List.forall_mem_map.2 hne)⟩

theorem completed_pend (t : Team) (p : Pend) :
    (completed t p).pend.map Pend.seq = (t.pend.filter (fun q => q.seq != p.seq)).map Pend.seq := by
  change ((t.pend.filter _).map fun q => q.yields p.seq p.handler p.dests).map Pend.seq = _
  rw [List.map_map]
  exact List.map_congr_left fun q _ => yields_seq q _ _ _

theorem ld_owes {s : State} {t : Team} {d a : BitVec 5} {x : BitVec 3} {o : BitVec 9} {pa : Nat → Nat}
    (h : Accepted s t (.ld d a x o) ([a.toNat, a.toNat + 1] ++ slotsOfX x.toNat d)) (hno : NoStores s t)
    (hl1 : ∀ y ∈ s.l1, y.core ≠ t.core) (hc : CleanLanes s t 0 [a.toNat, a.toNat + 1])
    (hh : LanesHit s t (execLanes s t 0) .read (fun l => addrOf t l a o (bytesOfX x.toNat)) pa (bytesOfX x.toNat))
    (howed : NoOwedSave s t (execLanes s t 0) (fun l => addrOf t l a o (bytesOfX x.toNat)) (bytesOfX x.toNat)) :
    ∃ s', exec (.ld d a x o) s = .next s' ∧
      Accepts s s' t (loadPend s t ((modsOf t).cp == 2) false (execLanes s t 0) (fun l => addrOf t l a o (bytesOfX x.toNat))
        (slotsOfX x.toNat d) (fun l => loadedWords x.toNat (memFrom s (pa l)))) := by
  obtain ⟨s', hx, ha, -⟩ := loadOp_owes (home := fun m => m.cp == 2) (acq := fun _ => 0) h rfl (ld_size h.legal) hno hl1 hc hh howed
  exact ⟨s', (exec_ld d a x o s).trans hx, ha⟩

theorem ldAcq_owes {s : State} {t : Team} {d a : BitVec 5} {x : BitVec 1} {o : BitVec 9} {pa : Nat → Nat}
    (h : Accepted s t (.ldAcq d a x o) ([a.toNat, a.toNat + 1] ++ slotsOfX (4 + x.toNat) d)) (hno : NoStores s t)
    (hl1 : ∀ y ∈ s.l1, y.core ≠ t.core) (hc : CleanLanes s t 0 [a.toNat, a.toNat + 1])
    (hh : LanesHit s t (execLanes s t 0) .read (fun l => addrOf t l a o (bytesOfX (4 + x.toNat))) pa (bytesOfX (4 + x.toNat)))
    (howed : NoOwedSave s t (execLanes s t 0) (fun l => addrOf t l a o (bytesOfX (4 + x.toNat))) (bytesOfX (4 + x.toNat))) :
    ∃ s', exec (.ldAcq d a x o) s = .next s' ∧
      Accepts s s' t (loadPend s t (decide (3 ≤ scopeIs t 4)) true (execLanes s t 0)
        (fun l => addrOf t l a o (bytesOfX (4 + x.toNat))) (slotsOfX (4 + x.toNat) d)
        (fun l => loadedWords (4 + x.toNat) (memFrom s (pa l)))) ∧
      (3 ≤ scopeIs t 4 → ∀ y ∈ s'.l1, y.core ≠ t.core) := by
  have hsize : 4 + x.toNat ≤ 6 := by
    have := x.isLt
    omega
  obtain ⟨s', hx, ha, hl⟩ := loadOp_owes (home := fun m => decide (3 ≤ scopeOf m 4)) (acq := fun m => scopeOf m 4) h rfl hsize hno
    hl1 hc hh howed
  rw [scopeOf_ne_zero] at ha
  refine ⟨s', ?_, ha, hl⟩
  rw [exec_ldAcq, execLdAcq, acqX_eq]
  exact hx

/-- Settles O15: a load of lanes that hit reads what its team's own stores and its core's lines do not change; a completion writes
registers and counts the flag down. -/
theorem loadsOweAndComplete : Obligations.LoadsOweAndComplete := by
  refine ⟨fun s t d a o pa hno hl1 hc => ⟨fun x h hh howed => ld_owes h hno hl1 hc hh howed,
    fun x h hh howed => ldAcq_owes h hno hl1 hc hh howed⟩, fun s t p hf hp hw hc hl hh hn => ?_⟩
  obtain ⟨s', hx, hb⟩ := loadComplete_completed hf hp hw hc hl hh
  exact ⟨s', completed t p, hx, hb, rfl, fun w hw => completed_written hn hw, fun k hk => completed_unwritten hk,
    fun k hk => flagOf_down _ p.flag hk, completed_pend t p⟩

end Sys2Proof.Proofs

/-! ## Rounding: what is cut off at a place, and the member of a grid that a mode chooses -/

namespace Sys2Proof.Proofs

open Sys2Proof Sys2Proof.Machine Sys2Proof.Claims

/-! ### What is cut off -/

/-- n is the integer part of X, and cut says what the rest is, as cutAt does: nothing, less than a half, a half, more. -/
def Cuts (n cut : ℕ) (X : ℝ) : Prop :=
  (cut = 0 ∧ X = n) ∨ (cut = 1 ∧ n < X ∧ X < n + 1 / 2) ∨ (cut = 2 ∧ X = n + 1 / 2) ∨ (cut = 3 ∧ n + 1 / 2 < X ∧ X < n + 1)

theorem Cuts.le {n cut : ℕ} {X : ℝ} (h : Cuts n cut X) : n ≤ X := by
  rcases h with ⟨-, h⟩ | ⟨-, h, -⟩ | ⟨-, h⟩ | ⟨-, h, -⟩ <;> linarith

theorem Cuts.lt {n cut : ℕ} {X : ℝ} (h : Cuts n cut X) : X < n + 1 := by
  rcases h with ⟨-, h⟩ | ⟨-, -, h⟩ | ⟨-, h⟩ | ⟨-, -, h⟩ <;> linarith

theorem Cuts.zero_iff {n cut : ℕ} {X : ℝ} (h : Cuts n cut X) : cut = 0 ↔ X = n := by
  rcases h with ⟨rfl, h⟩ | ⟨rfl, h, -⟩ | ⟨rfl, h⟩ | ⟨rfl, h, -⟩
  · simp [h]
  · simp [h.ne']
  · simp [h]
  · simp [(show (n : ℝ) < X by linarith).ne']

/-- A quotient by a power of two, from its remainder. -/
theorem cuts_div (m sh : ℕ) (hsh : 0 < sh) :
    Cuts (m / 2 ^ sh) (if m % 2 ^ sh = 0 then 0 else if m % 2 ^ sh < 2 ^ (sh - 1) then 1 else if m % 2 ^ sh = 2 ^ (sh - 1) then 2 else 3)
      (m / 2 ^ sh) := by
  obtain ⟨k, rfl⟩ : ∃ k, sh = k + 1 := ⟨sh - 1, by omega⟩
  have hP : (0 : ℝ) < 2 ^ (k + 1) := by positivity
  have hx : (m : ℝ) / 2 ^ (k + 1) = (m / 2 ^ (k + 1) : ℕ) + (m % 2 ^ (k + 1) : ℕ) / 2 ^ (k + 1) := by
    rw [eq_comm, ← sub_eq_zero]
    field_simp
    have := Nat.div_add_mod m (2 ^ (k + 1))
    have : (2 : ℝ) ^ (k + 1) * (m / 2 ^ (k + 1) : ℕ) + (m % 2 ^ (k + 1) : ℕ) = m := by exact_mod_cast this
    linarith
  have half : (2 : ℝ) ^ (k + 1) = 2 * 2 ^ k := by ring
  have hlt : ((m % 2 ^ (k + 1) : ℕ) : ℝ) < 2 ^ (k + 1) := by exact_mod_cast Nat.mod_lt m (by positivity)
  rw [hx]
  generalize m % 2 ^ (k + 1) = r at *
  generalize m / 2 ^ (k + 1) = n at *
  rw [Nat.add_sub_cancel]
  split
  next h => exact Or.inl ⟨rfl, by simp [h]⟩
  split
  next h0 h =>
    have h0 : (0 : ℝ) < r := by exact_mod_cast Nat.pos_of_ne_zero h0
    have h : (r : ℝ) < 2 ^ k := by exact_mod_cast h
    refine Or.inr (Or.inl ⟨rfl, by linarith [div_pos h0 hP], ?_⟩)
    have : (r : ℝ) / 2 ^ (k + 1) < 1 / 2 := by rw [div_lt_iff₀ hP]; linarith
    linarith
  split
  next h =>
    have h : (r : ℝ) = 2 ^ k := by exact_mod_cast h
    refine Or.inr (Or.inr (Or.inl ⟨rfl, ?_⟩))
    rw [h, half]
    field_simp
  next h0 h1 h2 =>
    have h : (2 : ℝ) ^ k < r := by exact_mod_cast (by omega : 2 ^ k < r)
    refine Or.inr (Or.inr (Or.inr ⟨rfl, ?_, ?_⟩))
    · have : 1 / 2 < (r : ℝ) / 2 ^ (k + 1) := by rw [lt_div_iff₀ hP]; linarith
      linarith
    · have : (r : ℝ) / 2 ^ (k + 1) < 1 := by rw [div_lt_iff₀ hP]; linarith
      linarith

/-- A difference of exponents as a natural number. -/
theorem zpow_sub_toNat {a b : ℤ} (h : b ≤ a) : (2 : ℝ) ^ (a - b) = 2 ^ (a - b).toNat := by
  rw [← zpow_natCast, Int.toNat_of_nonneg (by omega)]

/-- cutAt takes the integer part of m * 2^e / 2^q, and says what it cuts off. -/
theorem cutAt_cuts (m : ℕ) (e q : ℤ) : Cuts (cutAt m e q).1 (cutAt m e q).2 (m * 2 ^ (e - q)) := by
  unfold cutAt
  split
  next h =>
    refine Or.inl ⟨rfl, ?_⟩
    rw [zpow_sub_toNat h]
    push_cast
    rfl
  next h =>
    have hX : (m : ℝ) * 2 ^ (e - q) = m / 2 ^ (q - e).toNat := by
      rw [← zpow_sub_toNat (by omega), ← neg_sub q e, zpow_neg, div_eq_mul_inv]
    rw [hX]
    dsimp only
    split
    next h0 => exact Or.inl ⟨rfl, by simp [h0]⟩
    split
    next h0 hlog =>
      have hm : m < 2 ^ (Nat.log2 m + 1) := Nat.lt_log2_self
      have hle : 2 ^ (Nat.log2 m + 1) * 2 ≤ 2 ^ (q - e).toNat := by
        rw [← pow_succ]
        exact Nat.pow_le_pow_right (by decide) (by omega)
      have hP : (0 : ℝ) < 2 ^ (q - e).toNat := by positivity
      have h1 : (m : ℝ) * 2 < 2 ^ (q - e).toNat := by exact_mod_cast (by omega : m * 2 < 2 ^ (q - e).toNat)
      have h2 : (0 : ℝ) < m := by exact_mod_cast Nat.pos_of_ne_zero h0
      refine Or.inr (Or.inl ⟨rfl, by simpa using div_pos h2 hP, ?_⟩)
      rw [div_lt_iff₀ hP]
      push_cast
      linarith
    next => exact cuts_div m _ (by omega)

/-! ### The chosen neighbour -/

/-- The multiple that a mode chooses, from the integer part and what is cut off. -/
def chosen (rm : ℕ) (neg : Bool) (n cut : ℕ) : ℕ := if roundsUp rm neg n cut then n + 1 else n

theorem roundAt_eq (rm : ℕ) (neg : Bool) (m : ℕ) (e q : ℤ) :
    roundAt rm neg m e q = (chosen rm neg (cutAt m e q).1 (cutAt m e q).2, (cutAt m e q).2 != 0) := rfl

theorem roundsUp_exact (rm : ℕ) (neg : Bool) (n : ℕ) : roundsUp rm neg n 0 = false := by
  unfold roundsUp
  split <;> simp

@[simp] theorem chosen_exact (rm : ℕ) (neg : Bool) (n : ℕ) : chosen rm neg n 0 = n := by
  unfold chosen
  rw [roundsUp_exact]
  rfl

theorem chosen_bounds (rm : ℕ) (neg : Bool) (n cut : ℕ) : n ≤ chosen rm neg n cut ∧ chosen rm neg n cut ≤ n + 1 := by
  unfold chosen
  split <;> omega

/-- The mode for the negated value: RU and RD change places. -/
def mirror (rm : ℕ) : ℕ := if rm = 2 then 3 else if rm = 3 then 2 else rm

theorem mirror_mirror (rm : ℕ) : mirror (mirror rm) = rm := by
  unfold mirror
  split
  · next h => simp [h]
  · split
    · next h => simp [h]
    · simp [*]

theorem chosen_mirror {rm : ℕ} (h : rm < 5) (n cut : ℕ) : chosen rm true n cut = chosen (mirror rm) false n cut := by
  interval_cases rm <;> rfl

/-- What a mode chooses for a value, negated, is what the mirrored mode chooses for the negated value. -/
theorem picked_mirror {grid even : ℝ → Prop} (hg : ∀ z, grid z → grid (-z)) (he : ∀ z, even z → even (-z)) {rm : ℕ} (hrm : rm < 5)
    {x y : ℝ} (h : Picked grid even rm x y) : Picked grid even (mirror rm) (-x) (-y) := by
  obtain ⟨hy, h⟩ := h
  refine ⟨hg y hy, ?_⟩
  have swap (z : ℝ) : |(-y) - (-x)| = |y - x| ∧ |z - (-x)| = |(-z) - x| := by
    constructor
    · rw [← abs_neg]; ring_nf
    · rw [← abs_neg]; ring_nf
  interval_cases rm
  · intro z hz
    obtain ⟨h1, h2⟩ := h (-z) (hg z hz)
    rw [(swap z).1, (swap z).2]
    exact ⟨h1, fun h3 h4 => he y (h2 h3 fun h5 => h4 (by rw [← h5, neg_neg]))⟩
  · obtain ⟨h1, h2, h3⟩ := h
    refine ⟨by simpa using h1, by simpa using h2, fun z hz => by simpa using h3 z hz⟩
  · obtain ⟨h1, h2⟩ := h
    exact ⟨neg_le_neg h1, fun z hz h3 => by linarith [h2 (-z) (hg z hz) (by linarith)]⟩
  · obtain ⟨h1, h2⟩ := h
    exact ⟨neg_le_neg h1, fun z hz h3 => by linarith [h2 (-z) (hg z hz) (by linarith)]⟩
  · intro z hz
    obtain ⟨h1, h2⟩ := h (-z) (hg z hz)
    rw [(swap z).1, (swap z).2, abs_neg y]
    exact ⟨h1, fun h3 => by simpa using h2 h3⟩

/-- A member of the grid is chosen for itself. -/
theorem picked_self {grid even : ℝ → Prop} {rm : ℕ} (hrm : rm < 5) {x : ℝ} (hx : grid x) : Picked grid even rm x x := by
  refine ⟨hx, ?_⟩
  have near (z : ℝ) : |x - x| ≤ |z - x| ∧ (|x - x| = |z - x| → z = x) := by
    rw [sub_self, abs_zero]
    exact ⟨abs_nonneg _, fun h => by linarith [abs_eq_zero.1 h.symm]⟩
  interval_cases rm
  · exact fun z _ => ⟨(near z).1, fun h h' => absurd ((near z).2 h) h'⟩
  · exact ⟨le_rfl, mul_self_nonneg x, fun z _ h => h⟩
  · exact ⟨le_rfl, fun z _ h => h⟩
  · exact ⟨le_rfl, fun z _ h => h⟩
  · exact fun z _ => ⟨(near z).1, fun h => by rw [(near z).2 h]⟩

section
variable {a b x z : ℝ} (hz : z ≤ a ∨ b ≤ z)
include hz

/-- The lower neighbour is as near as any other member. -/
theorem lower_near (ha : a ≤ x) (h : x - a ≤ b - x) : |a - x| ≤ |z - x| := by
  rw [abs_of_nonpos (by linarith)]
  rcases hz with hz | hz
  · rw [abs_of_nonpos (by linarith)]; linarith
  · linarith [le_abs_self (z - x)]

theorem lower_nearest (ha : a ≤ x) (h : x - a < b - x) (he : |a - x| = |z - x|) : z = a := by
  rw [abs_of_nonpos (by linarith)] at he
  rcases hz with hz | hz
  · rw [abs_of_nonpos (by linarith)] at he; linarith
  · linarith [le_abs_self (z - x)]

theorem upper_near (hb : x ≤ b) (h : b - x ≤ x - a) : |b - x| ≤ |z - x| := by
  rw [abs_of_nonneg (by linarith)]
  rcases hz with hz | hz
  · linarith [neg_le_abs (z - x)]
  · rw [abs_of_nonneg (by linarith)]; linarith

theorem upper_nearest (hb : x ≤ b) (h : b - x < x - a) (he : |b - x| = |z - x|) : z = b := by
  rw [abs_of_nonneg (by linarith)] at he
  rcases hz with hz | hz
  · linarith [neg_le_abs (z - x)]
  · rw [abs_of_nonneg (by linarith)] at he; linarith

end

/-- The neighbours of a positive value on a grid whose step there is u: n * u and the next, with no member between them. -/
structure Neighbours (grid even : ℝ → Prop) (n : ℕ) (u : ℝ) : Prop where
  step : 0 < u
  negGrid : ∀ z, grid z → grid (-z)
  negEven : ∀ z, even z → even (-z)
  lower : grid (n * u)
  upper : grid ((n + 1) * u)
  gap : ∀ z, grid z → z ≤ n * u ∨ (n + 1) * u ≤ z
  tie : ∀ j : ℕ, 2 * j = n ∨ 2 * j = n + 1 → even ((2 * j : ℕ) * u)

/-- What each mode chooses between the two neighbours of a positive value is what R69 says. -/
theorem picked_between {grid even : ℝ → Prop} {rm n cut : ℕ} {u X : ℝ} (hrm : rm < 5) (hN : Neighbours grid even n u)
    (hc : Cuts n cut X) (h0 : cut ≠ 0) : Picked grid even rm (X * u) (chosen rm false n cut * u) := by
  have hu := hN.step
  have hlo : n * u < X * u := by
    have : (n : ℝ) < X := lt_of_le_of_ne hc.le fun h => h0 (hc.zero_iff.2 h.symm)
    exact mul_lt_mul_of_pos_right this hu
  have hhi : X * u < (n + 1) * u := mul_lt_mul_of_pos_right hc.lt hu
  have hn0 : 0 ≤ n * u := by positivity
  have hx0 : 0 ≤ X * u := hn0.trans hlo.le
  have habs (z : ℝ) (hz : grid z) : |z| ≤ n * u ∨ (n + 1) * u ≤ |z| := by
    rcases abs_choice z with h | h
    · rw [h]; exact hN.gap z hz
    · rw [h]; exact hN.gap _ (hN.negGrid z hz)
  have below : cut = 1 → X * u - n * u < (n + 1) * u - X * u := by
    intro h1
    rcases hc with ⟨h, -⟩ | ⟨-, -, h⟩ | ⟨h, -⟩ | ⟨h, -⟩
    · omega
    · nlinarith
    · omega
    · omega
  have tied : cut = 2 → X * u - n * u = (n + 1) * u - X * u := by
    intro h1
    rcases hc with ⟨h, -⟩ | ⟨h, -⟩ | ⟨-, h⟩ | ⟨h, -⟩
    · omega
    · omega
    · rw [h]; ring
    · omega
  have above : cut = 3 → (n + 1) * u - X * u < X * u - n * u := by
    intro h1
    rcases hc with ⟨h, -⟩ | ⟨h, -⟩ | ⟨h, -⟩ | ⟨-, h, -⟩
    · omega
    · omega
    · omega
    · nlinarith
  have hcut : cut = 1 ∨ cut = 2 ∨ cut = 3 := by
    rcases hc with ⟨h, -⟩ | ⟨h, -⟩ | ⟨h, -⟩ | ⟨h, -⟩ <;> omega
  have up : ((n + 1 : ℕ) : ℝ) * u = (n + 1) * u := by push_cast; ring
  interval_cases rm
  · -- RNE
    rcases hcut with rfl | rfl | rfl
    · exact ⟨hN.lower, fun z hz => ⟨lower_near (hN.gap z hz) hlo.le (below rfl).le,
        fun h hne => absurd (lower_nearest (hN.gap z hz) hlo.le (below rfl) h) hne⟩⟩
    · have hu0 : roundsUp 0 false n 2 = decide (n % 2 = 1) := by
        unfold roundsUp
        by_cases h : n % 2 = 1 <;> simp [h]
      unfold chosen
      rw [hu0]
      by_cases hodd : n % 2 = 1
      · rw [if_pos (by simpa using hodd)]
        refine ⟨by rw [up]; exact hN.upper, fun z hz => ⟨?_, fun _ _ => ?_⟩⟩
        · rw [up]; exact upper_near (hN.gap z hz) hhi.le (tied rfl).ge
        · have := hN.tie ((n + 1) / 2) (Or.inr (by omega))
          rwa [show 2 * ((n + 1) / 2) = n + 1 by omega] at this
      · rw [if_neg (by simpa using hodd)]
        refine ⟨hN.lower, fun z hz => ⟨lower_near (hN.gap z hz) hlo.le (tied rfl).le, fun _ _ => ?_⟩⟩
        have := hN.tie (n / 2) (Or.inl (by omega))
        rwa [show 2 * (n / 2) = n by omega] at this
    · change Picked grid even 0 (X * u) (((n + 1 : ℕ) : ℝ) * u)
      rw [up]
      exact ⟨hN.upper, fun z hz => ⟨upper_near (hN.gap z hz) hhi.le (above rfl).le,
        fun h hne => absurd (upper_nearest (hN.gap z hz) hhi.le (above rfl) h) hne⟩⟩
  · -- RZ
    refine ⟨hN.lower, ?_, mul_nonneg hx0 hn0, fun z hz h => ?_⟩
    · change |(n : ℝ) * u| ≤ |X * u|
      rw [abs_of_nonneg hn0, abs_of_nonneg hx0]; exact hlo.le
    · change |z| ≤ |(n : ℝ) * u|
      rw [abs_of_nonneg hn0]
      rw [abs_of_nonneg hx0] at h
      exact (habs z hz).resolve_right fun h' => by linarith
  · -- RU
    have : chosen 2 false n cut = n + 1 := by simp [chosen, roundsUp, h0]
    rw [this, up]
    exact ⟨hN.upper, hhi.le, fun z hz h => (hN.gap z hz).resolve_left fun h' => by linarith⟩
  · -- RD
    have : chosen 3 false n cut = n := by simp [chosen, roundsUp]
    rw [this]
    exact ⟨hN.lower, hlo.le, fun z hz h => (hN.gap z hz).resolve_right fun h' => by linarith⟩
  · -- RNA
    rcases hcut with rfl | rfl | rfl
    · exact ⟨hN.lower, fun z hz => ⟨lower_near (hN.gap z hz) hlo.le (below rfl).le,
        fun h => by rw [lower_nearest (hN.gap z hz) hlo.le (below rfl) h]; exact le_rfl⟩⟩
    · change Picked grid even 4 (X * u) (((n + 1 : ℕ) : ℝ) * u)
      rw [up]
      refine ⟨hN.upper, fun z hz => ⟨upper_near (hN.gap z hz) hhi.le (tied rfl).ge, fun h => ?_⟩⟩
      rw [abs_of_nonneg (by linarith : 0 ≤ (n + 1) * u)]
      rw [abs_of_nonneg (by linarith)] at h
      have hz2 := abs_le.1 h.ge
      rw [abs_of_nonneg (by linarith [tied rfl])]
      linarith
    · change Picked grid even 4 (X * u) (((n + 1 : ℕ) : ℝ) * u)
      rw [up]
      exact ⟨hN.upper, fun z hz => ⟨upper_near (hN.gap z hz) hhi.le (above rfl).le,
        fun h => by rw [upper_nearest (hN.gap z hz) hhi.le (above rfl) h]⟩⟩

@[simp] theorem signed_false : signed false = 1 := rfl
@[simp] theorem signed_true : signed true = -1 := rfl

/-- What a mode chooses for a value of either sign (R69). -/
theorem picked_of_cuts {grid even : ℝ → Prop} {rm n cut : ℕ} {u X : ℝ} {neg : Bool} (hrm : rm < 5) (hN : Neighbours grid even n u)
    (hc : Cuts n cut X) : Picked grid even rm (signed neg * (X * u)) (signed neg * (chosen rm neg n cut * u)) := by
  by_cases h0 : cut = 0
  · have hX := hc.zero_iff.1 h0
    rw [h0, chosen_exact, hX]
    refine picked_self hrm ?_
    cases neg
    · simpa using hN.lower
    · simpa using hN.negGrid _ hN.lower
  · cases neg
    · simpa using picked_between hrm hN hc h0
    · have hm : mirror rm < 5 := by unfold mirror; split <;> [decide; split <;> [decide; exact hrm]]
      have := picked_mirror hN.negGrid hN.negEven hm (picked_between hm hN hc h0)
      rw [mirror_mirror, ← chosen_mirror hrm] at this
      simpa using this

end Sys2Proof.Proofs

/-! ## Encodings: magnitudes, and the rounding to a format -/

namespace Sys2Proof.Proofs

open Sys2Proof Sys2Proof.Machine Sys2Proof.Claims

/-! ### The significand grid -/

theorem onGrid_neg {b : ℕ} {lo : Option ℤ} {z : ℝ} (h : onGrid b lo z) : onGrid b lo (-z) := by
  obtain ⟨n, k, hk, hn, rfl⟩ := h
  exact ⟨-n, k, hk, by rwa [abs_neg], by push_cast; ring⟩

theorem onGrid_mul {b : ℕ} {lo : Option ℤ} {n : ℕ} {q : ℤ} (hq : ∀ p, lo = some p → p ≤ q) (hn : n ≤ 2 ^ b) :
    onGrid b lo (n * 2 ^ q) :=
  ⟨n, q, hq, by rw [Nat.abs_cast]; exact_mod_cast hn, by push_cast; rfl⟩

/-- A multiple of a power is a multiple of a lower one. -/
theorem zpow_multiple (i : ℤ) {k q : ℤ} (h : q ≤ k) : ∃ j : ℤ, (i : ℝ) * 2 ^ k = j * 2 ^ q := by
  refine ⟨i * 2 ^ (k - q).toNat, ?_⟩
  rw [show k = (k - q) + q by ring, zpow_add₀ (by norm_num), zpow_sub_toNat h]
  push_cast
  ring_nf

/-- A multiple of u lies at n * u or below, or at the next multiple or above. -/
theorem multiple_gap (j : ℤ) (n : ℕ) {u : ℝ} (hu : 0 < u) : (j : ℝ) * u ≤ n * u ∨ (n + 1) * u ≤ j * u := by
  rcases le_or_gt j n with h | h
  · exact Or.inl (mul_le_mul_of_nonneg_right (by exact_mod_cast h) hu.le)
  · exact Or.inr (mul_le_mul_of_nonneg_right (by exact_mod_cast h) hu.le)

/-- Between n * 2^q and the next multiple the grid has no member: at its lowest power, or where n has b bits. -/
theorem onGrid_gap {b : ℕ} {lo : Option ℤ} {n : ℕ} {q : ℤ} {z : ℝ} (hn : lo = some q ∨ 2 ^ b ≤ 2 * n) (h : onGrid b lo z) :
    z ≤ n * 2 ^ q ∨ (n + 1) * 2 ^ q ≤ z := by
  obtain ⟨i, k, hk, hi, rfl⟩ := h
  rcases le_or_gt q k with hqk | hqk
  · obtain ⟨j, hj⟩ := zpow_multiple i hqk
    rw [hj]
    exact multiple_gap j n (by positivity)
  · rcases hn with hn | hn
    · exact absurd (hk q hn) (by omega)
    · left
      have hi' : (i : ℝ) ≤ 2 ^ b := by exact_mod_cast (le_abs_self i).trans hi
      have hn' : (2 : ℝ) ^ b ≤ 2 * n := by exact_mod_cast hn
      have hstep : 2 * (2 : ℝ) ^ k ≤ 2 ^ q := by
        rw [← zpow_one_add₀ (by norm_num)]
        exact zpow_le_zpow_right₀ (by norm_num) (by omega)
      have hP : (0 : ℝ) < 2 ^ k := by positivity
      calc (i : ℝ) * 2 ^ k ≤ 2 * n * 2 ^ k := mul_le_mul_of_nonneg_right (hi'.trans hn') hP.le
        _ = n * (2 * 2 ^ k) := by ring
        _ ≤ n * 2 ^ q := mul_le_mul_of_nonneg_left hstep (Nat.cast_nonneg n)

/-- The neighbours of a value on the significand grid. -/
theorem onGrid_neighbours {b : ℕ} {lo : Option ℤ} {n : ℕ} {q : ℤ} (hq : ∀ p, lo = some p → p ≤ q) (hn : n < 2 ^ (b + 1))
    (hlow : lo = some q ∨ 2 ^ b ≤ n) : Neighbours (onGrid (b + 1) lo) (onGrid b (lo.map (· + 1))) n (2 ^ q) where
  step := by positivity
  negGrid _ := onGrid_neg
  negEven _ := onGrid_neg
  lower := onGrid_mul hq hn.le
  upper := by exact_mod_cast onGrid_mul (n := n + 1) hq hn
  gap _ hz := onGrid_gap (hlow.imp_right fun h => by rw [pow_succ]; omega) hz
  tie j hj := by
    have : ((2 * j : ℕ) : ℝ) * 2 ^ q = j * 2 ^ (q + 1) := by
      rw [zpow_add_one₀ (by norm_num)]
      push_cast
      ring
    rw [this]
    rw [pow_succ] at hn
    refine onGrid_mul (fun p hp => ?_) (by omega)
    obtain ⟨p', hp', rfl⟩ := Option.map_eq_some_iff.1 hp
    exact Int.add_le_add_right (hq p' hp') 1

/-! ### The magnitude of an encoding without its sign -/

/-- The magnitude that a number of exponent and fraction fields stands for, with no upper limit of the exponent (R67, R70). -/
noncomputable def magOf (f : Fmt) (b : ℕ) : ℝ :=
  if b / 2 ^ f.mb = 0 then b * 2 ^ f.qmin else ((2 ^ f.mb + b % 2 ^ f.mb : ℕ) : ℝ) * 2 ^ (f.qmin + (b / 2 ^ f.mb : ℕ) - 1)

theorem magOf_small {f : Fmt} {b : ℕ} (h : b < 2 ^ f.mb) : magOf f b = b * 2 ^ f.qmin := by
  unfold magOf
  rw [if_pos (Nat.div_eq_of_lt h)]

theorem magOf_normal {f : Fmt} {j r : ℕ} (h : r < 2 ^ f.mb) :
    magOf f ((j + 1) * 2 ^ f.mb + r) = ((2 ^ f.mb + r : ℕ) : ℝ) * 2 ^ (f.qmin + j) := by
  have hd : ((j + 1) * 2 ^ f.mb + r) / 2 ^ f.mb = j + 1 := by
    rw [Nat.add_comm, Nat.add_mul_div_right _ _ (by positivity), Nat.div_eq_of_lt h, Nat.zero_add]
  have hm : ((j + 1) * 2 ^ f.mb + r) % 2 ^ f.mb = r := by
    rw [Nat.add_comm, Nat.add_mul_mod_self_right, Nat.mod_eq_of_lt h]
  unfold magOf
  rw [hd, hm, if_neg (by omega)]
  congr 2
  push_cast
  ring

/-- A multiple of the step of an exponent has the encoding that counts the exponent in whole fractions (R67). -/
theorem magOf_place {f : Fmt} {j N : ℕ} (hN : N ≤ 2 ^ (f.mb + 1)) (hlow : j = 0 ∨ 2 ^ f.mb ≤ N) :
    magOf f (j * 2 ^ f.mb + N) = N * 2 ^ (f.qmin + j) := by
  rw [pow_succ] at hN
  rcases lt_or_ge N (2 ^ f.mb) with h | h
  · obtain rfl : j = 0 := by omega
    rw [Nat.zero_mul, Nat.zero_add, magOf_small h]
    simp
  obtain ⟨r, rfl⟩ := Nat.exists_eq_add_of_le h
  rcases lt_or_ge r (2 ^ f.mb) with hr | hr
  · rw [show j * 2 ^ f.mb + (2 ^ f.mb + r) = (j + 1) * 2 ^ f.mb + r by ring, magOf_normal hr]
  · obtain rfl : r = 2 ^ f.mb := by omega
    rw [show j * 2 ^ f.mb + (2 ^ f.mb + 2 ^ f.mb) = (j + 1 + 1) * 2 ^ f.mb + 0 by ring, magOf_normal (by positivity)]
    rw [show f.qmin + ((j + 1 : ℕ) : ℤ) = (f.qmin + j) + 1 by push_cast; ring, zpow_add_one₀ (by norm_num)]
    push_cast
    ring

theorem magOf_succ (f : Fmt) (b : ℕ) : magOf f b < magOf f (b + 1) := by
  have hP : (0 : ℝ) < 2 ^ f.qmin := by positivity
  rcases lt_or_ge b (2 ^ f.mb) with h | h
  · rw [magOf_small h]
    have := magOf_place (f := f) (j := 0) (N := b + 1) (by rw [pow_succ]; omega) (Or.inl rfl)
    rw [Nat.zero_mul, Nat.zero_add] at this
    rw [this]
    push_cast
    rw [add_zero]
    linarith
  · obtain ⟨j, r, hr, rfl⟩ : ∃ j r, r < 2 ^ f.mb ∧ b = (j + 1) * 2 ^ f.mb + r := by
      have hd : 1 ≤ b / 2 ^ f.mb := (Nat.one_le_div_iff (by positivity)).2 h
      refine ⟨b / 2 ^ f.mb - 1, b % 2 ^ f.mb, Nat.mod_lt _ (by positivity), ?_⟩
      rw [Nat.sub_add_cancel hd, Nat.mul_comm, Nat.div_add_mod]
    rw [magOf_normal hr]
    have := magOf_place (f := f) (j := j) (N := 2 ^ f.mb + r + 1) (by rw [pow_succ]; omega) (Or.inr (by omega))
    rw [show j * 2 ^ f.mb + (2 ^ f.mb + r + 1) = (j + 1) * 2 ^ f.mb + r + 1 by ring] at this
    rw [this]
    have hP : (0 : ℝ) < 2 ^ (f.qmin + j) := by positivity
    push_cast
    nlinarith

theorem magOf_strictMono (f : Fmt) : StrictMono (magOf f) := strictMono_nat_of_lt_succ (magOf_succ f)

@[simp] theorem magOf_zero (f : Fmt) : magOf f 0 = 0 := by
  rw [magOf_small (by positivity)]
  simp

theorem magOf_nonneg (f : Fmt) (b : ℕ) : 0 ≤ magOf f b := by
  rw [← magOf_zero f]
  exact (magOf_strictMono f).monotone (Nat.zero_le b)

/-- The smallest normal magnitude. -/
theorem magOf_leastNormal (f : Fmt) : magOf f (2 ^ f.mb) = 2 ^ (f.qmin + f.mb) := by
  have := magOf_place (f := f) (j := 0) (N := 2 ^ f.mb) (by rw [pow_succ]; omega) (Or.inl rfl)
  rw [Nat.zero_mul, Nat.zero_add] at this
  rw [this, zpow_add₀ (by norm_num) f.qmin f.mb]
  push_cast
  simp [mul_comm]

/-- The largest finite encoding stands for the largest finite magnitude (R67). -/
theorem magOf_maxBits (f : Fmt) : magOf f f.maxBits = largest f := by
  cases f <;> simp only [magOf, Fmt.maxBits, Fmt.mb, Fmt.qmin, Fmt.bias, largest] <;> norm_num

theorem largest_lt_iff {f : Fmt} {b : ℕ} : (largest f : ℝ) < magOf f b ↔ f.maxBits < b := by
  rw [← magOf_maxBits, (magOf_strictMono f).lt_iff_lt]

/-! ### The fields of an encoding -/

theorem maxBits_lt (f : Fmt) : f.maxBits < 2 ^ (f.eb + f.mb) := by cases f <;> decide

theorem width_eq (f : Fmt) : 2 ^ f.width = 2 * 2 ^ (f.eb + f.mb) := by
  unfold Fmt.width
  rw [Nat.add_assoc, Nat.add_comm, pow_succ, Nat.mul_comm]

/-- The fields of a sign and a number without sign. -/
theorem fields_signBit (f : Fmt) (neg : Bool) {b : ℕ} (hb : b < 2 ^ (f.eb + f.mb)) :
    signOf f (signBit f neg + b) = neg ∧ expOf f (signBit f neg + b) = b / 2 ^ f.mb ∧ fracOf f (signBit f neg + b) = b % 2 ^ f.mb ∧
      signBit f neg + b < 2 ^ f.width := by
  have he : b / 2 ^ f.mb < 2 ^ f.eb := by
    rw [Nat.div_lt_iff_lt_mul (by positivity), ← pow_add]
    exact hb
  have hs : signBit f neg = 2 ^ f.mb * (2 ^ f.eb * neg.toNat) := by
    cases neg
    · simp [signBit]
    · simp [signBit, pow_add, Nat.mul_comm]
  refine ⟨?_, ?_, ?_, ?_⟩
  · unfold signOf
    rw [hs, ← Nat.mul_assoc, ← pow_add, Nat.add_comm f.mb, Nat.mul_add_div (by positivity), Nat.div_eq_of_lt hb]
    cases neg <;> rfl
  · unfold expOf
    rw [hs, Nat.mul_add_div (by positivity), Nat.mul_add_mod, Nat.mod_eq_of_lt he]
  · unfold fracOf
    rw [hs, Nat.mul_add_mod]
  · rw [width_eq]
    unfold signBit
    split <;> omega

/-- An encoding is its sign and a number without sign. -/
theorem encoding_eq (f : Fmt) {x : ℕ} (hx : x < 2 ^ f.width) :
    ∃ b < 2 ^ (f.eb + f.mb), x = signBit f (signOf f x) + b := by
  refine ⟨x % 2 ^ (f.eb + f.mb), Nat.mod_lt _ (by positivity), ?_⟩
  have hd : x / 2 ^ (f.eb + f.mb) < 2 := by
    rw [Nat.div_lt_iff_lt_mul (by positivity), ← width_eq]
    exact hx
  have := Nat.div_add_mod x (2 ^ (f.eb + f.mb))
  unfold signBit signOf
  interval_cases h : x / 2 ^ (f.eb + f.mb)
  · simpa using this.symm
  · simpa using this.symm

/-- The codes that are not special are those up to the largest finite one (R67). -/
theorem special_iff (f : Fmt) (neg : Bool) {b : ℕ} (hb : b < 2 ^ (f.eb + f.mb)) : special f (signBit f neg + b) ↔ f.maxBits < b := by
  obtain ⟨-, he, hf, -⟩ := fields_signBit f neg hb
  unfold special
  rw [he, hf]
  cases f
  case e2m1 => exact iff_of_false not_false (Nat.not_lt.2 (Nat.le_of_lt_succ hb))
  all_goals simp only [Fmt.eb, Fmt.mb, Fmt.maxBits] at *; omega

/-- An encoding up to the largest finite one stands for its magnitude with its sign (R67). -/
theorem stands_magOf (f : Fmt) (neg : Bool) {b : ℕ} (hb : b ≤ f.maxBits) :
    Stands f (signBit f neg + b) (signed neg * magOf f b) := by
  have hlt := hb.trans_lt (maxBits_lt f)
  obtain ⟨hs, he, hf, -⟩ := fields_signBit f neg hlt
  have hq : f.qmin = (1 - (f.bias : ℤ)) + -(f.mb : ℤ) := by unfold Fmt.qmin; ring
  refine ⟨fun h => absurd ((special_iff f neg hlt).1 h) (by omega), fun h => ?_, fun h => ?_⟩
  · rw [he] at h
    have hsm : b < 2 ^ f.mb := (Nat.div_eq_zero_iff.1 h).resolve_left (by positivity)
    rw [hs, hf, magOf_small hsm, hq, zpow_add₀ (by norm_num), zpow_neg, zpow_natCast, Nat.mod_eq_of_lt hsm]
    ring
  · rw [he] at h
    rw [hs, hf, he]
    unfold magOf
    rw [if_neg h, hq, show (1 - (f.bias : ℤ)) + -(f.mb : ℤ) + (b / 2 ^ f.mb : ℕ) - 1 = ((b / 2 ^ f.mb : ℕ) - (f.bias : ℤ)) + -(f.mb : ℤ) by ring,
      zpow_add₀ (by norm_num), zpow_neg, zpow_natCast]
    push_cast
    field_simp

theorem stands_unique {f : Fmt} {x : ℕ} {v w : ℝ} (hv : Stands f x v) (hw : Stands f x w) : v = w := by
  obtain ⟨-, h0, h1⟩ := hv
  obtain ⟨-, h0', h1'⟩ := hw
  by_cases h : expOf f x = 0
  · rw [h0 h, h0' h]
  · rw [h1 h, h1' h]

end Sys2Proof.Proofs

/-! ## Rounding to a format (R69 to R71, R73) -/

namespace Sys2Proof.Proofs

open Sys2Proof Sys2Proof.Machine Sys2Proof.Claims

/-! ### A magnitude and the number that is cut in its place -/

/-- Cutting m * 2^e at a place from lo on is cutting the magnitude A there. -/
def SameCuts (lo : ℤ) (m : ℕ) (e : ℤ) (A : ℝ) : Prop :=
  ∀ q, lo ≤ q → Cuts (cutAt m e q).1 (cutAt m e q).2 (A * 2 ^ (-q))

theorem sameCuts_exact (lo : ℤ) (m : ℕ) (e : ℤ) : SameCuts lo m e (m * 2 ^ e) := by
  intro q _
  rw [mul_assoc, ← zpow_add₀ (by norm_num), ← sub_eq_add_neg]
  exact cutAt_cuts m e q

/-- Two values between which lies no multiple of a half are cut alike. -/
theorem Cuts.sameSide {n cut : ℕ} {X Y : ℝ} (hX : ∀ j : ℕ, X ≠ j / 2) (hY : ∀ j : ℕ, Y ≠ j / 2)
    (hs : ∀ j : ℕ, (j : ℝ) / 2 < X ↔ (j : ℝ) / 2 < Y) (h : Cuts n cut X) : Cuts n cut Y := by
  have side (j : ℕ) {z : ℝ} (hz : z = j / 2) : (z < X ↔ z < Y) ∧ (X < z ↔ Y < z) := by
    subst hz
    refine ⟨hs j, ?_⟩
    rw [← not_le, ← not_le, (hX j).symm.le_iff_lt, (hY j).symm.le_iff_lt, hs j]
  have h0 := side (2 * n) (z := n) (by push_cast; ring)
  have h1 := side (2 * n + 1) (z := n + 1 / 2) (by push_cast; ring)
  have h2 := side (2 * n + 2) (z := n + 1) (by push_cast; ring)
  rcases h with ⟨-, h⟩ | ⟨hc, h, h'⟩ | ⟨-, h⟩ | ⟨hc, h, h'⟩
  · exact absurd (by rw [h]; push_cast; ring) (hX (2 * n))
  · exact Or.inr (Or.inl ⟨hc, h0.1.1 h, h1.2.1 h'⟩)
  · exact absurd (by rw [h]; push_cast; ring) (hX (2 * n + 1))
  · exact Or.inr (Or.inr (Or.inr ⟨hc, h1.1.1 h, h2.2.1 h'⟩))

/-- A value strictly between d and d + 1 lies above the same whole numbers as d, and is none. -/
theorem between_nat {d j : ℕ} {α : ℝ} (h : d < α) (h' : α < d + 1) : ((j : ℝ) < α ↔ j ≤ d) ∧ α ≠ j := by
  refine ⟨⟨fun hj => ?_, fun hj => lt_of_le_of_lt (by exact_mod_cast hj) h⟩, fun hj => ?_⟩
  · have : (j : ℝ) < d + 1 := hj.trans h'
    exact Nat.le_of_lt_succ (by exact_mod_cast this)
  · rw [hj] at h h'
    have h1 : d < j := by exact_mod_cast h
    have h2 : j < d + 1 := by exact_mod_cast h'
    omega

/-- Values strictly between d and d + 1 are cut alike at every place above the first. -/
theorem cuts_above {n cut d t : ℕ} {α β : ℝ} (hα : d < α ∧ α < d + 1) (hβ : d < β ∧ β < d + 1)
    (h : Cuts n cut (α / (2 * 2 ^ t))) : Cuts n cut (β / (2 * 2 ^ t)) := by
  have hT : (0 : ℝ) < 2 * 2 ^ t := by positivity
  have scale (j : ℕ) (x : ℝ) : ((j : ℝ) / 2 < x / (2 * 2 ^ t) ↔ ((j * 2 ^ t : ℕ) : ℝ) < x) ∧
      (x / (2 * 2 ^ t) = j / 2 ↔ x = ((j * 2 ^ t : ℕ) : ℝ)) := by
    rw [lt_div_iff₀ hT, div_eq_iff hT.ne']
    push_cast
    ring_nf
    simp
  refine Cuts.sameSide (fun j hj => ?_) (fun j hj => ?_) (fun j => ?_) h
  · exact (between_nat hα.1 hα.2).2 ((scale j α).2.1 hj)
  · exact (between_nat hβ.1 hβ.2).2 ((scale j β).2.1 hj)
  · rw [(scale j α).1, (scale j β).1, (between_nat hα.1 hα.2).1, (between_nat hβ.1 hβ.2).1]

/-- A sticky last bit stands for what lies above d, two places or more below the place of the cut. -/
theorem sameCuts_sticky {lo e : ℤ} {d st : ℕ} {A : ℝ} (hlo : e + 2 ≤ lo) (h0 : st = 0 → A = d * 2 ^ (e + 1))
    (h1 : st ≠ 0 → st = 1 ∧ d * 2 ^ (e + 1) < A ∧ A < (d + 1) * 2 ^ (e + 1)) : SameCuts lo (2 * d + st) e A := by
  by_cases hst : st = 0
  · have := sameCuts_exact lo (2 * d + st) e
    rw [hst] at this ⊢
    rw [h0 hst, zpow_add_one₀ (by norm_num)]
    convert this using 1
    push_cast
    ring_nf
  obtain ⟨rfl, hd, hd'⟩ := h1 hst
  intro q hq
  obtain ⟨t, ht⟩ : ∃ t : ℕ, q = e + 2 + t := ⟨(q - e - 2).toNat, by omega⟩
  have hP : (0 : ℝ) < 2 ^ (e + 1) := by positivity
  have hpow : (2 : ℝ) ^ q = 2 ^ (e + 1) * (2 * 2 ^ t) := by
    rw [ht, zpow_add₀ (by norm_num), zpow_natCast, show e + 2 = e + 1 + 1 by ring, zpow_add_one₀ (by norm_num) (e + 1)]
    ring
  have hX : A * 2 ^ (-q) = A / 2 ^ (e + 1) / (2 * 2 ^ t) := by
    rw [zpow_neg, hpow, div_div, div_eq_mul_inv]
  have hW : ((2 * d + 1 : ℕ) : ℝ) * 2 ^ (e - q) = (d + 1 / 2) / (2 * 2 ^ t) := by
    rw [show e - q = (e + 1) + -q + -1 by ring, zpow_add₀ (by norm_num), zpow_add₀ (by norm_num), zpow_neg 2 q, hpow]
    push_cast
    field_simp
  have hc := cutAt_cuts (2 * d + 1) e q
  rw [hW] at hc
  rw [hX]
  refine cuts_above (d := d) ⟨?_, ?_⟩ ⟨?_, ?_⟩ hc
  · linarith
  · linarith
  · rwa [lt_div_iff₀ hP]
  · rwa [div_lt_iff₀ hP]

/-! ### The logarithm's integer part -/

theorem log2_le_cast {m : ℕ} (hm : 0 < m) : (2 : ℝ) ^ (Nat.log2 m : ℤ) ≤ m := by
  rw [zpow_natCast]
  exact_mod_cast Nat.log2_self_le hm.ne'

theorem lt_log2_cast (m : ℕ) : (m : ℝ) < 2 ^ ((Nat.log2 m : ℤ) + 1) := by
  rw [← Nat.cast_add_one, zpow_natCast]
  exact_mod_cast Nat.lt_log2_self

/-- ilog is the integer part of the logarithm. -/
theorem ilog_bounds {m : ℕ} (hm : 0 < m) (e : ℤ) : (2 : ℝ) ^ ilog m e ≤ m * 2 ^ e ∧ m * 2 ^ e < (2 : ℝ) ^ (ilog m e + 1) := by
  have hP : (0 : ℝ) < 2 ^ e := by positivity
  unfold ilog
  rw [show (Nat.log2 m : ℤ) + e + 1 = (Nat.log2 m : ℤ) + 1 + e by ring, zpow_add₀ (by norm_num), zpow_add₀ (by norm_num) _ e]
  exact ⟨mul_le_mul_of_nonneg_right (log2_le_cast hm) hP.le, mul_lt_mul_of_pos_right (lt_log2_cast m) hP⟩

theorem ilog_lt_iff {m : ℕ} (hm : 0 < m) (e k : ℤ) : ilog m e < k ↔ m * 2 ^ e < (2 : ℝ) ^ k := by
  obtain ⟨h1, h2⟩ := ilog_bounds hm e
  constructor
  · intro h
    exact h2.trans_le (zpow_le_zpow_right₀ (by norm_num) (by omega))
  · intro h
    by_contra hk
    exact absurd (h.trans_le ((zpow_le_zpow_right₀ (by norm_num) (by omega)).trans h1)) (lt_irrefl _)

theorem ilog_eq {m : ℕ} {e k : ℤ} (hm : 0 < m) (h1 : (2 : ℝ) ^ k ≤ m * 2 ^ e) (h2 : m * 2 ^ e < (2 : ℝ) ^ (k + 1)) : ilog m e = k := by
  have h3 := (ilog_lt_iff hm e (k + 1)).2 h2
  have h4 : ¬ ilog m e < k := fun h => absurd ((ilog_lt_iff hm e k).1 h) (not_lt.2 h1)
  omega

/-- At the place that leaves b + 1 bits, the integer part has b + 1 bits. -/
theorem cutAt_top {m : ℕ} (hm : 0 < m) (e : ℤ) (b : ℕ) :
    2 ^ b ≤ (cutAt m e (ilog m e - b)).1 ∧ (cutAt m e (ilog m e - b)).1 < 2 ^ (b + 1) := by
  obtain ⟨h1, h2⟩ := ilog_bounds hm e
  have hc := cutAt_cuts m e (ilog m e - b)
  have hX : (m : ℝ) * 2 ^ (e - (ilog m e - b)) = m * 2 ^ e * 2 ^ ((b : ℤ) - ilog m e) := by
    rw [show e - (ilog m e - b) = e + (b - ilog m e) by ring, zpow_add₀ (by norm_num), mul_assoc]
  have hP : (0 : ℝ) < 2 ^ ((b : ℤ) - ilog m e) := by positivity
  have hb : (2 : ℝ) ^ b = 2 ^ ilog m e * 2 ^ ((b : ℤ) - ilog m e) := by
    rw [← zpow_add₀ (by norm_num), ← zpow_natCast, add_sub_cancel]
  have hlo : (2 : ℝ) ^ b ≤ m * 2 ^ (e - (ilog m e - b)) := by
    rw [hX, hb]
    exact mul_le_mul_of_nonneg_right h1 hP.le
  have hhi : (m : ℝ) * 2 ^ (e - (ilog m e - b)) < 2 ^ (b + 1) := by
    rw [hX, pow_succ, hb, mul_right_comm _ _ 2, ← zpow_add_one₀ (by norm_num)]
    exact mul_lt_mul_of_pos_right h2 hP
  have h3 : (2 ^ b : ℝ) < (cutAt m e (ilog m e - b)).1 + 1 := hlo.trans_lt hc.lt
  have h4 : ((cutAt m e (ilog m e - b)).1 : ℝ) < 2 ^ (b + 1) := hc.le.trans_lt hhi
  have h5 : 2 ^ b < (cutAt m e (ilog m e - b)).1 + 1 := by exact_mod_cast h3
  exact ⟨by omega, by exact_mod_cast h4⟩

/-- At a higher place it has no more. -/
theorem cutAt_lt {m : ℕ} (hm : 0 < m) {e q : ℤ} {b : ℕ} (hq : ilog m e - b ≤ q) : (cutAt m e q).1 < 2 ^ (b + 1) := by
  have h1 := (cutAt_cuts m e q).le
  have h2 : (m : ℝ) * 2 ^ (e - q) ≤ m * 2 ^ (e - (ilog m e - b)) :=
    mul_le_mul_of_nonneg_left (zpow_le_zpow_right₀ (by norm_num) (by omega)) (Nat.cast_nonneg m)
  have h3 := (cutAt_cuts m e (ilog m e - b)).lt
  have h4 : ((cutAt m e q).1 : ℝ) < (cutAt m e (ilog m e - b)).1 + 1 := (h1.trans h2).trans_lt h3
  have h5 : (cutAt m e q).1 < (cutAt m e (ilog m e - b)).1 + 1 := by exact_mod_cast h4
  have h6 := (cutAt_top hm e b).2
  omega

/-! ### roundFin in parts -/

/-- The place of the last bit that a format keeps of m * 2^e. -/
def placeOf (f : Fmt) (m : ℕ) (e : ℤ) : ℤ := max (ilog m e - f.mb) f.qmin

/-- The multiple of that place that a mode chooses. -/
def multOf (f : Fmt) (rm : ℕ) (neg : Bool) (m : ℕ) (e : ℤ) : ℕ :=
  chosen rm neg (cutAt m e (placeOf f m e)).1 (cutAt m e (placeOf f m e)).2

/-- Its encoding without sign, with no upper limit. -/
def bitsOf (f : Fmt) (rm : ℕ) (neg : Bool) (m : ℕ) (e : ℤ) : ℕ := (placeOf f m e - f.qmin).toNat * 2 ^ f.mb + multOf f rm neg m e

/-- The multiple that is chosen where the exponent has no lower limit either (R73). -/
def freeMult (f : Fmt) (rm : ℕ) (neg : Bool) (m : ℕ) (e : ℤ) : ℕ :=
  chosen rm neg (cutAt m e (ilog m e - f.mb)).1 (cutAt m e (ilog m e - f.mb)).2

theorem placeOf_low (f : Fmt) (m : ℕ) (e : ℤ) : f.qmin ≤ placeOf f m e ∧ ilog m e - f.mb ≤ placeOf f m e :=
  ⟨le_max_right _ _, le_max_left _ _⟩

theorem roundFin_zero (f : Fmt) (rm : ℕ) (sat ftz neg : Bool) (e : ℤ) : roundFin f rm sat ftz neg 0 e = (signBit f neg, 0) := rfl

section
variable (f : Fmt) (rm : ℕ) (sat ftz neg : Bool) {m : ℕ} (hm : 0 < m) (e : ℤ)
include hm

/-- An overflow (R70). -/
theorem roundFin_over (h : f.maxBits < bitsOf f rm neg m e) : roundFin f rm sat ftz neg m e =
    (signBit f neg + overflowBits f rm sat neg, if f = .e4m3 ∧ rm = 1 ∧ ilog m e < 9 then 0 else 4) := by
  unfold roundFin
  rw [if_neg hm.ne']
  refine (if_pos h).trans ?_
  congr 1
  simp [flagOF, and_assoc]

/-- No overflow (R71, R73). -/
theorem roundFin_within (h : bitsOf f rm neg m e ≤ f.maxBits) : roundFin f rm sat ftz neg m e =
    if ftz = true ∧ f ∈ plainFormats ∧ bitsOf f rm neg m e ≠ 0 ∧ bitsOf f rm neg m e < 2 ^ f.mb then (signBit f neg, 8)
    else (signBit f neg + bitsOf f rm neg m e,
      if ilog (max (freeMult f rm neg m e) 1) (ilog m e - f.mb) < f.qmin + f.mb ∧ (cutAt m e (placeOf f m e)).2 ≠ 0 then 8 else 0) := by
  unfold roundFin
  rw [if_neg hm.ne']
  refine (if_neg (Nat.not_lt.2 h)).trans ?_
  refine if_congr ?_ rfl ?_
  · change (ftz && _ && (bitsOf f rm neg m e != 0 && decide (bitsOf f rm neg m e < 2 ^ f.mb))) = true ↔ _
    generalize bitsOf f rm neg m e = b
    cases f <;> simp [plainFormats]
  · change (signBit f neg + bitsOf f rm neg m e, if (decide (ilog (max (freeMult f rm neg m e) 1) (ilog m e - f.mb) < f.qmin + f.mb) &&
      (cutAt m e (placeOf f m e)).2 != 0) = true then 8 else 0) = _
    simp

theorem cut_place_lt : (cutAt m e (placeOf f m e)).1 < 2 ^ (f.mb + 1) := cutAt_lt hm (le_max_left _ _)

theorem cut_place_low : placeOf f m e = f.qmin ∨ 2 ^ f.mb ≤ (cutAt m e (placeOf f m e)).1 := by
  rcases max_choice (ilog m e - f.mb) f.qmin with h | h
  · right
    unfold placeOf
    rw [h]
    exact (cutAt_top hm e f.mb).1
  · exact Or.inl h

/-- The encoding that is made stands for the multiple that was chosen. -/
theorem magOf_bitsOf : magOf f (bitsOf f rm neg m e) = multOf f rm neg m e * 2 ^ placeOf f m e := by
  have hlow := (placeOf_low f m e).1
  have hb := chosen_bounds rm neg (cutAt m e (placeOf f m e)).1 (cutAt m e (placeOf f m e)).2
  have hlt := cut_place_lt f hm e
  unfold bitsOf multOf
  rw [magOf_place (by omega)]
  · congr 2
    omega
  · rcases cut_place_low f hm e with h | h
    · exact Or.inl (by omega)
    · exact Or.inr (h.trans hb.1)

variable {A : ℝ} (hA : SameCuts (ilog m e - f.mb) m e A)
include hA

/-- A magnitude that is cut as m * 2^e is lies in the same binade. -/
theorem sameCuts_binade : (2 : ℝ) ^ ilog m e ≤ A ∧ A < 2 ^ (ilog m e + 1) := by
  have hc := hA _ le_rfl
  obtain ⟨h1, h2⟩ := cutAt_top hm e f.mb
  have h1' : (2 : ℝ) ^ f.mb ≤ A * 2 ^ (-(ilog m e - f.mb)) := (by exact_mod_cast h1 : (2 : ℝ) ^ f.mb ≤ _).trans hc.le
  have h2' : A * 2 ^ (-(ilog m e - f.mb)) < (2 : ℝ) ^ (f.mb + 1) := hc.lt.trans_le (by exact_mod_cast h2)
  have hP : (0 : ℝ) < 2 ^ (ilog m e - f.mb) := by positivity
  have hAA : A = A * 2 ^ (-(ilog m e - f.mb)) * 2 ^ (ilog m e - f.mb) := by
    rw [mul_assoc, ← zpow_add₀ (by norm_num), neg_add_cancel, zpow_zero, mul_one]
  have htop : (2 : ℝ) ^ ilog m e = 2 ^ f.mb * 2 ^ (ilog m e - f.mb) := by
    rw [← zpow_natCast, ← zpow_add₀ (by norm_num), add_sub_cancel]
  rw [zpow_add_one₀ (by norm_num), htop, mul_right_comm, ← pow_succ, hAA]
  exact ⟨mul_le_mul_of_nonneg_right h1' hP.le, mul_lt_mul_of_pos_right h2' hP⟩

/-- What is chosen at a place is what R69 chooses on the grid. -/
theorem picked_at {lo : Option ℤ} {q : ℤ} (hrm : rm < 5) (hq : ∀ p, lo = some p → p ≤ q) (hplace : ilog m e - f.mb ≤ q)
    (hlow : lo = some q ∨ 2 ^ f.mb ≤ (cutAt m e q).1) :
    Picked (onGrid (f.mb + 1) lo) (onGrid f.mb (lo.map (· + 1))) rm (signed neg * A)
      (signed neg * (chosen rm neg (cutAt m e q).1 (cutAt m e q).2 * 2 ^ q)) := by
  have := picked_of_cuts (neg := neg) hrm (onGrid_neighbours hq (cutAt_lt hm hplace) hlow) (hA q hplace)
  rwa [mul_assoc A, ← zpow_add₀ (by norm_num), neg_add_cancel, zpow_zero, mul_one] at this

end

/-! ### The rules -/

theorem abs_signed_mul (neg : Bool) {A : ℝ} (h : 0 ≤ A) : |(signed neg : ℝ) * A| = A := by
  cases neg
  · simpa using h
  · simpa using h

theorem signed_mul_inj {neg : Bool} {a b : ℝ} : (signed neg : ℝ) * a = signed neg * b ↔ a = b := by
  cases neg <;> simp

/-- The encoding of an overflow by R70. -/
theorem overflowBits_stays {f : Fmt} {rm : ℕ} {sat neg : Bool} (h : staysFinite f rm sat neg) :
    overflowBits f rm sat neg = f.maxBits := by
  unfold overflowBits
  rcases h with rfl | rfl | rfl | rfl | ⟨rfl, rfl⟩ | ⟨rfl, rfl⟩ <;> simp [Fmt.hasInf]

theorem overflowBits_leaves {f : Fmt} {rm : ℕ} {sat neg : Bool} (h : ¬ staysFinite f rm sat neg) :
    overflowBits f rm sat neg = (2 ^ f.eb - 1) * 2 ^ f.mb := by
  unfold staysFinite at h
  push Not at h
  obtain ⟨h1, h2, h3, h4, h5, h6⟩ := h
  have hinf : f.hasInf = true := by cases f <;> simp_all [Fmt.hasInf]
  unfold overflowBits
  dsimp only
  rw [hinf, if_neg (by simpa using h3)]
  split
  · exact absurd rfl h4
  · simp [h5 rfl]
  · simp [h6 rfl]
  · rfl

/-- roundFin rounds by the rules each magnitude that is cut as m * 2^e is (R69 to R71, R73). -/
theorem roundFin_roundedTo {f : Fmt} {rm : ℕ} (sat ftz neg : Bool) {m : ℕ} {e : ℤ} {A : ℝ} (hrm : rm < 5) (hm : 0 < m)
    (hA : SameCuts (ilog m e - f.mb) m e A) : RoundedTo f rm sat ftz neg (signed neg * A) (roundFin f rm sat ftz neg m e) := by
  obtain ⟨hq, hqn⟩ := placeOf_low f m e
  obtain ⟨hA1, hA2⟩ := sameCuts_binade f hm e hA
  have hA0 : 0 ≤ A := le_trans (by positivity) hA1
  refine ⟨signed neg * magOf f (bitsOf f rm neg m e), signed neg * (freeMult f rm neg m e * 2 ^ (ilog m e - f.mb)), ?_, ?_, ?_⟩
  · rw [magOf_bitsOf f rm neg hm e]
    exact picked_at f rm neg hm e hA hrm (by rintro p ⟨⟩; exact hq) hqn ((cut_place_low f hm e).imp_left fun h => by rw [h])
  · exact picked_at f rm neg hm e hA hrm (fun p hp => by cases hp) le_rfl (Or.inr (cutAt_top hm e f.mb).1)
  have hfree0 : (0 : ℝ) ≤ freeMult f rm neg m e * 2 ^ (ilog m e - f.mb) := by positivity
  have hfree : freeMult f rm neg m e ≥ 1 :=
    Nat.one_le_two_pow.trans ((cutAt_top hm e f.mb).1.trans (chosen_bounds rm neg _ _).1)
  have hlarge : (largest f : ℝ) < magOf f (bitsOf f rm neg m e) ↔ f.maxBits < bitsOf f rm neg m e := largest_lt_iff
  have hnormal : magOf f (bitsOf f rm neg m e) < 2 ^ (f.qmin + f.mb) ↔ bitsOf f rm neg m e < 2 ^ f.mb := by
    rw [← magOf_leastNormal, (magOf_strictMono f).lt_iff_lt]
  have hzero : (signed neg : ℝ) * magOf f (bitsOf f rm neg m e) ≠ 0 ↔ bitsOf f rm neg m e ≠ 0 := by
    rw [← (magOf_strictMono f).injective.ne_iff, magOf_zero]
    cases neg <;> simp
  have h512 : A < 512 ↔ ilog m e < 9 := by
    constructor
    · intro h
      by_contra h9
      have : (2 : ℝ) ^ (9 : ℤ) ≤ 2 ^ ilog m e := zpow_le_zpow_right₀ (by norm_num) (by omega)
      norm_num at this
      linarith
    · intro h
      have : (2 : ℝ) ^ (ilog m e + 1) ≤ 2 ^ (9 : ℤ) := zpow_le_zpow_right₀ (by norm_num) (by omega)
      norm_num at this
      linarith
  have htiny : ilog (max (freeMult f rm neg m e) 1) (ilog m e - f.mb) < f.qmin + f.mb ↔
      freeMult f rm neg m e * 2 ^ (ilog m e - f.mb) < (2 : ℝ) ^ (f.qmin + f.mb) := by
    rw [max_eq_left hfree, ilog_lt_iff (by omega)]
  have hexact : (cutAt m e (placeOf f m e)).2 ≠ 0 ↔ (signed neg : ℝ) * magOf f (bitsOf f rm neg m e) ≠ signed neg * A := by
    have hc := hA _ hqn
    have hP : (0 : ℝ) < 2 ^ placeOf f m e := by positivity
    have hAA : A = A * 2 ^ (-placeOf f m e) * 2 ^ placeOf f m e := by
      rw [mul_assoc, ← zpow_add₀ (by norm_num), neg_add_cancel, zpow_zero, mul_one]
    have hmul : magOf f (bitsOf f rm neg m e) = A ↔ (multOf f rm neg m e : ℝ) = A * 2 ^ (-placeOf f m e) := by
      rw [magOf_bitsOf f rm neg hm e]
      conv_lhs => rw [hAA]
      exact mul_left_inj' hP.ne'
    rw [Ne, Ne, signed_mul_inj, hmul, not_iff_not, hc.zero_iff]
    constructor
    · intro h
      have := hc.zero_iff.2 h
      unfold multOf
      rw [this, chosen_exact, h]
    · intro h
      have h1 := hc.le
      have h2 := hc.lt
      rw [← h] at h1 h2 ⊢
      have h1' : (cutAt m e (placeOf f m e)).1 ≤ multOf f rm neg m e := by exact_mod_cast h1
      have h2' : multOf f rm neg m e < (cutAt m e (placeOf f m e)).1 + 1 := by exact_mod_cast h2
      exact_mod_cast (by omega : multOf f rm neg m e = (cutAt m e (placeOf f m e)).1)
  simp only [abs_signed_mul neg (magOf_nonneg f _), abs_signed_mul neg hA0, abs_signed_mul neg hfree0]
  have hs : (if neg = true then 2 ^ (f.eb + f.mb) else 0) = signBit f neg := rfl
  rw [hs, hlarge, hnormal, hzero, h512, ← htiny, ← hexact]
  refine ⟨fun hover => ?_, fun hin => ?_⟩
  · rw [roundFin_over f rm sat ftz neg hm e hover]
    refine ⟨fun h => by rw [overflowBits_stays h], fun h => by rw [overflowBits_leaves h], fun h => if_pos h, fun h => if_neg h⟩
  · have hin' : bitsOf f rm neg m e ≤ f.maxBits := Nat.not_lt.1 (hlarge.not.1 (not_lt.2 hin))
    have hlt := hin'.trans_lt (maxBits_lt f)
    obtain ⟨hsign, -, -, hw⟩ := fields_signBit f neg hlt
    rw [roundFin_within f rm sat ftz neg hm e hin']
    refine ⟨fun h => if_pos h, fun h => ?_⟩
    rw [if_neg h]
    exact ⟨hw, stands_magOf f neg hin', hsign, fun h => if_pos h, fun h => if_neg h⟩

end Sys2Proof.Proofs

/-! ## Decoding, encodings that round to themselves, and conversion to integers (R67, R69 to R71, R76) -/

namespace Sys2Proof.Proofs

open Sys2Proof Sys2Proof.Machine Sys2Proof.Claims

/-! ### Decoding -/

/-- val by the fields of an encoding (R66, R67). -/
theorem val_fields (f : Fmt) (x : ℕ) : f.val x =
    if (f.hasInf && expOf f x == 2 ^ f.eb - 1) = true then
      if fracOf f x = 0 then .inf (signOf f x) else .nan (fracOf f x / 2 ^ (f.mb - 1) == 0)
    else if (f == .e4m3 && expOf f x == 15 && fracOf f x == 7) = true then .nan false
    else if expOf f x = 0 then .fin (signOf f x) (fracOf f x) f.qmin
    else .fin (signOf f x) (2 ^ f.mb + fracOf f x) (f.qmin + (expOf f x : ℤ) - 1) := rfl

/-- A special code is an infinity or a NaN; the top fraction bit of a signalling one is 0 (R67, R72). -/
theorem val_special {f : Fmt} {x : ℕ} (h : special f x) : f.val x = if f ≠ .e4m3 ∧ fracOf f x = 0 then .inf (signOf f x)
    else .nan (f ≠ .e4m3 && decide (fracOf f x < 2 ^ (f.mb - 1))) := by
  rw [val_fields]
  unfold special at h
  have hdiv (k : ℕ) : (fracOf f x / 2 ^ k == 0) = decide (fracOf f x < 2 ^ k) := by
    rw [Bool.eq_iff_iff, beq_iff_eq, decide_eq_true_eq, Nat.div_eq_zero_iff]
    simp
  cases f
  case e2m1 => exact h.elim
  case e4m3 => simp [Fmt.hasInf, h.1, h.2]
  all_goals
    rw [hdiv]
    simp [Fmt.hasInf, h]

theorem val_not_special {f : Fmt} {x : ℕ} (h : ¬ special f x) : f.val x =
    if expOf f x = 0 then .fin (signOf f x) (fracOf f x) f.qmin
    else .fin (signOf f x) (2 ^ f.mb + fracOf f x) (f.qmin + (expOf f x : ℤ) - 1) := by
  rw [val_fields, if_neg, if_neg]
  · cases f <;> simp_all [special]
  · cases f <;> simp_all [special, Fmt.hasInf]

/-- The significand of a number of exponent and fraction fields, and the power that it counts (R67). -/
def sigOf (f : Fmt) (b : ℕ) : ℕ := if b / 2 ^ f.mb = 0 then b else 2 ^ f.mb + b % 2 ^ f.mb
def powOf (f : Fmt) (b : ℕ) : ℤ := if b / 2 ^ f.mb = 0 then f.qmin else f.qmin + (b / 2 ^ f.mb : ℕ) - 1

theorem magOf_eq (f : Fmt) (b : ℕ) : magOf f b = sigOf f b * 2 ^ powOf f b := by
  unfold magOf sigOf powOf
  split <;> rfl

/-- A finite encoding is decoded to its significand and power. -/
theorem val_finite (f : Fmt) (neg : Bool) {b : ℕ} (hb : b ≤ f.maxBits) :
    f.val (signBit f neg + b) = .fin neg (sigOf f b) (powOf f b) := by
  have hlt := hb.trans_lt (maxBits_lt f)
  obtain ⟨hs, he, hf, -⟩ := fields_signBit f neg hlt
  rw [val_not_special (by rw [special_iff f neg hlt]; omega), hs, he, hf]
  unfold sigOf powOf
  split
  next h => rw [Nat.mod_eq_of_lt ((Nat.div_eq_zero_iff.1 h).resolve_left (by positivity))]
  next => rfl

/-- The value under FTZ (R71). -/
theorem valFtz_eq (f : Fmt) (ftz : Bool) (x : ℕ) : f.valFtz ftz x =
    if ftz = true ∧ f ∈ plainFormats ∧ expOf f x = 0 then .fin (signOf f x) 0 0 else f.val x := by
  unfold Fmt.valFtz
  change (if (ftz && _ && expOf f x == 0) = true then FVal.fin (signOf f x) 0 0 else _) = _
  cases f <;> simp [plainFormats]

/-- A finite encoding's exact value (R67). -/
theorem val_stands {f : Fmt} {x : ℕ} (hx : x < 2 ^ f.width) (h : ¬ special f x) :
    ∃ m e, f.val x = .fin (signOf f x) m e ∧ Stands f x (signed (signOf f x) * m * 2 ^ e) := by
  obtain ⟨b, hb, hxb⟩ := encoding_eq f hx
  rw [hxb, special_iff f _ hb, Nat.not_lt] at h
  refine ⟨sigOf f b, powOf f b, ?_, ?_⟩
  · conv_lhs => rw [hxb]
    exact val_finite f _ h
  · rw [mul_assoc, ← magOf_eq]
    conv => arg 2; rw [hxb]
    exact stands_magOf f _ h

/-! ### Encodings round to themselves -/

theorem cutAt_self (m : ℕ) (e : ℤ) : cutAt m e e = (m, 0) := by
  unfold cutAt
  rw [if_pos le_rfl, sub_self]
  simp

theorem sigOf_pos {f : Fmt} {b : ℕ} (hb : 0 < b) : 0 < sigOf f b := by
  unfold sigOf
  split
  · exact hb
  · positivity

theorem sigOf_powOf (f : Fmt) (b : ℕ) : (powOf f b - f.qmin).toNat * 2 ^ f.mb + sigOf f b = b := by
  unfold sigOf powOf
  split
  next => simp
  next h =>
    have hdm := Nat.div_add_mod' b (2 ^ f.mb)
    generalize b % 2 ^ f.mb = r at *
    obtain ⟨k, hk⟩ := Nat.exists_eq_add_one_of_ne_zero h
    rw [hk] at hdm ⊢
    rw [← hdm, show f.qmin + ((k + 1 : ℕ) : ℤ) - 1 - f.qmin = k by push_cast; ring, Int.toNat_natCast]
    ring

theorem placeOf_sigOf (f : Fmt) {b : ℕ} (hb : 0 < b) : placeOf f (sigOf f b) (powOf f b) = powOf f b := by
  unfold placeOf ilog
  unfold sigOf powOf
  split
  next h =>
    have hlt := (Nat.div_eq_zero_iff.1 h).resolve_left (by positivity)
    have := (Nat.log2_lt hb.ne').2 hlt
    omega
  next h =>
    have hr := Nat.mod_lt b (show 0 < 2 ^ f.mb by positivity)
    have : Nat.log2 (2 ^ f.mb + b % 2 ^ f.mb) = f.mb := by
      rw [Nat.log2_eq_iff (by positivity), pow_succ]
      omega
    rw [this]
    generalize b / 2 ^ f.mb = g at *
    omega

/-- A number of fields up to the largest finite one is rounded to itself, in every mode, and raises nothing. -/
theorem roundFin_encoding (f : Fmt) (rm : ℕ) (sat neg : Bool) {b : ℕ} (hb : b ≤ f.maxBits) :
    roundFin f rm sat false neg (sigOf f b) (powOf f b) = (signBit f neg + b, 0) := by
  rcases Nat.eq_zero_or_pos b with rfl | hpos
  · have : sigOf f 0 = 0 := by simp [sigOf]
    rw [this]
    rfl
  have hp := placeOf_sigOf f hpos
  have hbits : bitsOf f rm neg (sigOf f b) (powOf f b) = b := by
    unfold bitsOf multOf
    rw [hp, cutAt_self, chosen_exact, sigOf_powOf]
  rw [roundFin_within f rm sat false neg (sigOf_pos hpos) _ (by rwa [hbits]), hbits, hp, cutAt_self]
  simp

theorem roundF_val_finite {f : Fmt} (rm : ℕ) (sat : Bool) {x : ℕ} (hx : x < 2 ^ f.width) (h : ¬ special f x) :
    roundF f rm sat false (f.val x) = (x, 0) := by
  obtain ⟨b, hb, hxb⟩ := encoding_eq f hx
  rw [hxb, special_iff f _ hb, Nat.not_lt] at h
  rw [hxb, val_finite f _ h]
  exact roundFin_encoding f rm sat _ h

theorem special_plain {f : Fmt} {x : ℕ} (hf : f ∈ plainFormats) (h : special f x) : expOf f x = 2 ^ f.eb - 1 := by
  cases f
  case fp32 | bf16 | fp16 => exact h
  all_goals exact absurd hf (by decide)

theorem hasInf_plain {f : Fmt} (hf : f ∈ plainFormats) : f.hasInf = true := by
  revert hf
  cases f <;> decide

theorem roundF_val {f : Fmt} (hf : f ∈ plainFormats) (rm : ℕ) (sat : Bool) {x : ℕ} (hx : x < 2 ^ f.width)
    (h : (f.val x).isNan = false) : roundF f rm sat false (f.val x) = (x, 0) := by
  by_cases hs : special f x
  · obtain ⟨b, hb, hxb⟩ := encoding_eq f hx
    rw [val_special hs] at h ⊢
    split at h
    next hinf =>
      rw [if_pos hinf]
      obtain ⟨-, he, hfr, -⟩ := fields_signBit f (signOf f x) hb
      rw [← hxb] at he hfr
      have := Nat.div_add_mod' b (2 ^ f.mb)
      rw [← hfr, hinf.2, ← he, special_plain hf hs, Nat.add_zero] at this
      change (signBit f (signOf f x) + (if f.hasInf = true then (2 ^ f.eb - 1) * 2 ^ f.mb else f.maxBits), 0) = _
      rw [hasInf_plain hf, if_pos rfl, this, ← hxb]
    next => cases h
  · exact roundF_val_finite rm sat hx hs

/-! ### Conversion to integers -/

/-- The neighbours of a value among the integers. -/
theorem int_neighbours (n : ℕ) : Neighbours (fun z => ∃ k : ℤ, z = k) (fun z => ∃ k : ℤ, z = 2 * k) n 1 where
  step := one_pos
  negGrid := fun _ ⟨k, hk⟩ => ⟨-k, by rw [hk]; push_cast; rfl⟩
  negEven := fun _ ⟨k, hk⟩ => ⟨-k, by rw [hk]; push_cast; ring⟩
  lower := ⟨n, by push_cast; ring⟩
  upper := ⟨n + 1, by push_cast; ring⟩
  gap := by
    rintro _ ⟨k, rfl⟩
    simpa using multiple_gap k n one_pos
  tie j _ := ⟨j, by push_cast; ring⟩

/-- The integer that a value is rounded to is the one that R69 chooses. -/
theorem toInteger_picked {rm : ℕ} (hrm : rm < 5) (neg : Bool) (m : ℕ) (e : ℤ) :
    Picked (fun z => ∃ k : ℤ, z = k) (fun z => ∃ k : ℤ, z = 2 * k) rm (signed neg * m * 2 ^ e) (toInteger rm neg m e) := by
  have hc := cutAt_cuts m e 0
  rw [sub_zero] at hc
  have := picked_of_cuts (neg := neg) hrm (int_neighbours _) hc
  rw [mul_one, mul_one, ← mul_assoc] at this
  convert this using 1
  unfold toInteger
  rw [roundAt_eq]
  cases neg <;> simp

/-- An integer far above every range: its magnitude is at least 2^n. -/
theorem toInteger_far {n m : ℕ} {e : ℤ} (rm : ℕ) (hm : 0 < m) (h : (n : ℤ) < ilog m e) (neg : Bool) :
    if neg then toInteger rm neg m e ≤ -2 ^ n else 2 ^ n ≤ toInteger rm neg m e := by
  have hc := (cutAt_cuts m e 0).lt
  rw [sub_zero] at hc
  have hX : (2 : ℝ) ^ n ≤ m * 2 ^ e := by
    rw [← zpow_natCast]
    exact (zpow_le_zpow_right₀ (by norm_num) h.le).trans (ilog_bounds hm e).1
  have hle : 2 ^ n ≤ (cutAt m e 0).1 := by
    have : (2 ^ n : ℝ) < (cutAt m e 0).1 + 1 := hX.trans_lt hc
    exact Nat.le_of_lt_succ (by exact_mod_cast this)
  have hch := hle.trans (chosen_bounds rm neg _ (cutAt m e 0).2).1
  unfold toInteger
  rw [roundAt_eq]
  cases neg
  · simpa using (by exact_mod_cast hch : (2 : ℤ) ^ n ≤ _)
  · simpa using (by exact_mod_cast hch : (2 : ℤ) ^ n ≤ _)

theorem intRange_bounds {n : ℕ} (hn : 0 < n) (sgn : Bool) :
    -2 ^ n < (intRange n sgn).1 ∧ (intRange n sgn).1 ≤ 0 ∧ (intRange n sgn).2 < 2 ^ n ∧ 0 ≤ (intRange n sgn).2 := by
  obtain ⟨k, rfl⟩ := Nat.exists_eq_succ_of_ne_zero hn.ne'
  have : (0 : ℤ) < 2 ^ k := by positivity
  unfold intRange
  cases sgn <;> simp [pow_succ] <;> omega

/-- A finite value converted to an integer (R76). -/
theorem floatToInt_fin {n : ℕ} (hn : 0 < n) (sgn : Bool) (rm : ℕ) (sat neg : Bool) (m : ℕ) (e : ℤ) :
    floatToInt n sgn rm sat (.fin neg m e) =
      let lim := intRange n sgn
      let y := toInteger rm neg m e
      if lim.1 ≤ y ∧ y ≤ lim.2 then (wrapInt n y, 0)
      else (wrapInt n (if sat then (if y < lim.1 then lim.1 else lim.2) else y), 1) := by
  unfold floatToInt
  dsimp only
  split
  next hfar =>
    rw [Bool.and_eq_true, decide_eq_true_eq, bne_iff_ne] at hfar
    obtain ⟨h1, h2, h3, h4⟩ := intRange_bounds hn sgn
    have := toInteger_far rm (Nat.pos_of_ne_zero hfar.2) (by omega : (n : ℤ) < ilog m e) neg
    cases neg
    · rw [if_neg Bool.false_ne_true] at this
      rw [if_neg (by omega : ¬ (_ ≤ toInteger rm false m e ∧ toInteger rm false m e ≤ _)),
        if_neg (by omega : ¬ toInteger rm false m e < _)]
      cases sat <;> rfl
    · rw [if_pos rfl] at this
      rw [if_neg (by omega : ¬ (_ ≤ toInteger rm true m e ∧ toInteger rm true m e ≤ _)),
        if_pos (by omega : toInteger rm true m e < _)]
      cases sat <;> rfl
  next => rfl

/-- Settles O58: an encoding is its sign and a number without sign, in whose order the magnitudes rise; the bits that roundFin makes
are that number for the multiple it chose. -/
theorem roundingByMode : Obligations.RoundingByMode := by
  refine ⟨fun f x hx => ⟨val_stands hx, val_special, ⟨?_, fun h => ?_⟩, fun hf he => ?_⟩,
    fun f rm sat ftz neg m e hrm hm => ?_, fun f hf x rm sat hx h => roundF_val hf rm sat hx h,
    fun n hn sgn sat neg sg rm m e hrm => ?_⟩
  · rw [valFtz_eq, if_neg (fun h => Bool.false_ne_true h.1)]
  · rw [valFtz_eq, if_neg (fun h' => h.elim (fun h => h h'.2.1) fun h => h h'.2.2)]
  · exact ⟨0, by rw [valFtz_eq, if_pos ⟨rfl, hf, he⟩]⟩
  · rw [mul_assoc]
    exact roundFin_roundedTo sat ftz neg hrm hm (sameCuts_exact _ m e)
  · have hpos : 0 < n := by
      revert n
      decide
    have hlim : intRange n sgn = (if sgn then -2 ^ (n - 1) else 0, if sgn then 2 ^ (n - 1) - 1 else 2 ^ n - 1) := by
      unfold intRange
      cases sgn <;> simp
    have hwrap (v : ℤ) : wrapInt n v = (v % 2 ^ n).toNat := by
      unfold wrapInt
      push_cast
      rfl
    refine ⟨⟨toInteger rm neg m e, toInteger_picked hrm neg m e, ?_⟩, rfl, ?_⟩
    · rw [floatToInt_fin hpos, hlim]
      simp only [hwrap]
    · unfold floatToInt
      rw [hlim]
      simp only [hwrap]
      rfl

end Sys2Proof.Proofs

/-! ## Tables of per-lane rules -/

namespace Sys2Proof.Proofs

open Sys2Proof Sys2Proof.Machine Sys2Proof.Claims

/-- The model's word i, with modifiers m, is the per-lane instruction that a rule describes. -/
structure Runs (i : Instr) (m : Mods) (r : LaneRule) : Prop where
  lanes : ∀ s, curMods s = m → ∃ f, exec i s = vecOp i s r.p r.srcs r.dsts f ∧ ∀ e v, f m e v = r.fn m e v
  fixesNone : ∀ m, fixesLoads i m = false

theorem curMods_of_issues {s : State} {t : Team} {i : Instr} {slots : List Nat} (h : Issues s t i slots) : curMods s = modsOf t := by
  unfold curMods
  rw [h.cur]
  rfl

/-- A table whose rules describe the model's words is obeyed (R33, R73, R168, R190, R293). -/
theorem obeyed_of_runs {rule : Mods → Instr → Option LaneRule} (h : ∀ m i r, rule m i = some r → Runs i m r) : Obeyed rule := by
  intro i s t r hr ha hl
  obtain ⟨hlanes, hfix⟩ := h _ _ _ hr
  obtain ⟨f, hx, hf⟩ := hlanes s (curMods_of_issues ha)
  obtain ⟨s', hv, hw⟩ := vecOp_wrote f hfix ha hl
  simp only [hf] at hw
  exact ⟨s', hx.trans hv, hw⟩

/-- Where no register is poisoned no lane is lost (R97). -/
theorem lostLanes_clean {s : State} {t : Team} (h : ∀ l n, regPoisoned t l n = false) (p : BitVec 2) (srcs : List Nat) :
    lostLanes s t p srcs = [] := by
  have hr (l n : Nat) : readsPoison s t l n = false := by
    unfold readsPoison slotPoisoned
    cases slotReg t n <;> simp [h]
  unfold lostLanes lostOf
  rw [List.filter_eq_nil_iff]
  simp [hr]

/-- A word of an obeyed table completes (R29, R168, R190). -/
theorem obeyed_completes {rule : Mods → Instr → Option LaneRule} (h : Obeyed rule) {i : Instr} {r : LaneRule}
    {s : State} {t : Team} (hr : rule (modsOf t) i = some r) (ha : Issues s t i (r.srcs ++ predSlot r.p ++ r.dsts))
    (hp : ∀ l n, regPoisoned t l n = false) : ∃ s', exec i s = .next s' ∧ OnlyTeam s s' t.uid := by
  obtain ⟨s', hx, hw⟩ := h i s t r hr ha (lostLanes_clean hp _ _)
  exact ⟨s', hx, hw.machine⟩

/-- A word and its exception bits as a rule gives them. -/
def oneWord (w : Word × Nat) : List Word × Nat := ([w.1], w.2)

/-! ### FP32 arithmetic -/

theorem rdZero_eq (rm : Nat) (v : FVal) : rdZero rm v = underRd rm v := by
  cases v <;> simp [rdZero, underRd, FVal.isZero]

theorem fProd_eq (m : Mods) (a b : FVal) : fProd m.rm.toNat a b = product m a b := by
  unfold fProd product
  rw [rdZero_eq]

theorem fpRound_eq (m : Mods) (v : FVal × Nat) : fpRound m v = rounded m v := rfl

theorem fpVal_eq (m : Mods) (x : Word) : fpVal m x = f32 m x := rfl

/-- fscale's exact product with its sign of zero (R69, R193). -/
theorem scaleVal_eq (rm : Nat) (v : FVal) (k : Int) : rdZero rm (scaleVal v k) = match v with
    | .fin n mag e => underRd rm (.fin n mag (e + k))
    | v => v := by
  rw [rdZero_eq]
  cases v <;> rfl

/-- A finite FP32 operand: at most 24 bits, and at most the largest finite magnitude. -/
theorem f32_bounds {m : Mods} {x : Word} {n : Bool} {mag : Nat} {e : Int} (h : f32 m x = .fin n mag e) :
    mag < 2 ^ 24 ∧ (mag : ℝ) * 2 ^ e ≤ largest .fp32 := by
  unfold f32 at h
  rw [valFtz_eq] at h
  split at h
  · cases h
    exact ⟨by decide, by simp⟩
  · obtain ⟨b, hb, hx⟩ := encoding_eq .fp32 (x := x.toNat) x.isLt
    by_cases hs : special .fp32 x.toNat
    · rw [val_special hs] at h
      split at h <;> cases h
    · rw [hx, special_iff _ _ hb, Nat.not_lt] at hs
      rw [hx, val_finite _ _ hs] at h
      cases h
      refine ⟨?_, ?_⟩
      · unfold sigOf
        split
        next h0 => exact ((Nat.div_eq_zero_iff.1 h0).resolve_left (by decide)).trans (by decide)
        next => exact Nat.add_lt_add_left (Nat.mod_lt b (by decide)) (2 ^ 23)
      · rw [← magOf_eq, ← magOf_maxBits]
        exact (magOf_strictMono _).monotone hs

theorem largest_onGrid : onGrid (Fmt.fp32.mb + 1) (some Fmt.fp32.qmin) (largest .fp32) := by
  have h : ((2 ^ 24 - 1 : ℕ) : ℝ) * 2 ^ (104 : ℤ) = (largest .fp32 : ℕ) := by
    unfold largest
    norm_num
  rw [← h]
  exact onGrid_mul (by rintro p ⟨⟩; decide) (by decide)

/-- An integer up to the largest finite magnitude is rounded by RNE without an exception: it neither overflows nor is tiny. -/
theorem roundFin_integer_flags {N : Nat} (neg : Bool) (h : (N : ℝ) ≤ largest .fp32) :
    (roundFin .fp32 0 false false neg N 0).2 = 0 := by
  rcases Nat.eq_zero_or_pos N with rfl | hpos
  · rfl
  have hN : (1 : ℝ) ≤ N := by exact_mod_cast hpos
  have hx : |(signed neg : ℝ) * (N * 2 ^ (0 : ℤ))| = N := by rw [abs_signed_mul neg (by positivity)]; simp
  have dist {z : ℝ} : |(signed neg : ℝ) * z - signed neg * (N * 2 ^ (0 : ℤ))| = |z - N| := by
    rw [← mul_sub, abs_mul]
    cases neg <;> simp
  obtain ⟨y, y', ⟨-, hy⟩, ⟨-, hy'⟩, -, hin⟩ :=
    roundFin_roundedTo (f := .fp32) (rm := 0) false false neg (by decide) hpos (sameCuts_exact _ N 0)
  have hlarge : |y| ≤ largest .fp32 := by
    have hg : onGrid (Fmt.fp32.mb + 1) (some Fmt.fp32.qmin) (signed neg * largest .fp32) := by
      cases neg
      · simpa using largest_onGrid
      · simpa using onGrid_neg largest_onGrid
    have h1 := (hy _ hg).1
    rw [dist, abs_of_nonneg (sub_nonneg.2 h)] at h1
    have h2 := abs_sub_abs_le_abs_sub y (signed neg * (N * 2 ^ (0 : ℤ)))
    rw [hx] at h2
    linarith
  have hbig : 1 ≤ |y'| := by
    have hg : onGrid (Fmt.fp32.mb + 1) none (signed neg * 1) := by
      have := onGrid_mul (b := Fmt.fp32.mb + 1) (lo := none) (n := 1) (q := 0) (fun p hp => by cases hp) (by decide)
      cases neg
      · simpa using this
      · simpa using onGrid_neg this
    have h1 := (hy' _ hg).1
    rw [dist, abs_sub_comm 1, abs_of_nonneg (by linarith : (0 : ℝ) ≤ N - 1)] at h1
    have h2 := abs_sub_abs_le_abs_sub (signed neg * (N * 2 ^ (0 : ℤ)) : ℝ) y'
    rw [hx, abs_sub_comm] at h2
    linarith
  obtain ⟨-, -, -, -, h0⟩ := (hin hlarge).2 (fun h => Bool.false_ne_true h.1)
  refine h0 fun hlt => ?_
  have : (2 : ℝ) ^ (Fmt.fp32.qmin + Fmt.fp32.mb) ≤ 1 := by
    rw [← zpow_zero (2 : ℝ)]
    exact zpow_le_zpow_right₀ (by norm_num) (by decide)
  linarith [hlt.1]

/-- The integer that fround makes of a finite operand is no larger than the largest finite magnitude. -/
theorem toInteger_le {m : Mods} {x : Word} {n : Bool} {mag : Nat} {e : Int} (h : f32 m x = .fin n mag e) (rm : Nat) :
    ((toInteger rm n mag e).natAbs : ℝ) ≤ largest .fp32 := by
  obtain ⟨hmag, hle⟩ := f32_bounds h
  have habs : (toInteger rm n mag e).natAbs = chosen rm n (cutAt mag e 0).1 (cutAt mag e 0).2 := by
    unfold toInteger
    rw [roundAt_eq]
    cases n <;> simp
  rw [habs]
  have hc := cutAt_cuts mag e 0
  rw [sub_zero] at hc
  by_cases he : 0 ≤ e
  · have hcut : (cutAt mag e 0).2 = 0 := by
      unfold cutAt
      rw [if_pos he]
    rw [hcut, chosen_exact, ← hc.zero_iff.1 hcut]
    exact hle
  · have h1 : (mag : ℝ) * 2 ^ e ≤ mag :=
      mul_le_of_le_one_right (Nat.cast_nonneg _) (zpow_le_one_of_nonpos₀ (by norm_num) (by omega))
    have h2 : (cutAt mag e 0).1 ≤ mag := by exact_mod_cast hc.le.trans h1
    have h3 := (chosen_bounds rm n (cutAt mag e 0).1 (cutAt mag e 0).2).2
    have h4 : chosen rm n (cutAt mag e 0).1 (cutAt mag e 0).2 ≤ 2 ^ 24 := by omega
    exact_mod_cast h4.trans (by decide : 2 ^ 24 ≤ largest .fp32)

/-- fround (R193). -/
theorem froundWord_eq (m : Mods) (x : Word) : froundWord m x = match f32 m x with
    | .fin n mag e => rounded Mods.zero (.fin n (toInteger m.rm.toNat n mag e).natAbs 0, 0)
    | v => rounded m (v, 0) := by
  unfold froundWord
  rw [fpVal_eq]
  cases h : f32 m x with
  | nan sg => rfl
  | inf neg => rfl
  | fin n mag e =>
    have := roundFin_integer_flags n (toInteger_le h m.rm.toNat)
    exact Prod.ext rfl (this.symm.trans (Nat.zero_or _).symm)

/-! ### Signs and classes -/

/-- fabs and fneg act on the sign bit of what is no NaN (R195). -/
theorem signWord_eq (x : Word) {f g : Word → Word} (h : f x = g x) : signWord x f = match Fmt.fp32.val x.toNat with
    | .nan sg => (0x7FC00000, if sg then flagIV else 0)
    | _ => (g x, 0) := by
  unfold signWord
  generalize Fmt.fp32.val x.toNat = v
  cases v with
  | nan sg => rfl
  | inf neg => exact congrArg (·, 0) h
  | fin neg m e => exact congrArg (·, 0) h

theorem clear_sign (x : Word) : x &&& 0x7FFFFFFF = BitVec.ofNat 32 (x.toNat % 2 ^ 31) := by
  apply BitVec.eq_of_toNat_eq
  rw [BitVec.toNat_and, BitVec.toNat_ofNat]
  change x.toNat &&& (2 ^ 31 - 1) = _
  rw [Nat.and_two_pow_sub_one_eq_mod]
  omega

/-- Below 2^(k+1), to flip bit k is to add 2^k. -/
theorem xor_two_pow_mod (n k : Nat) : (n ^^^ 2 ^ k) % 2 ^ (k + 1) = (2 ^ k + n) % 2 ^ (k + 1) := by
  refine Nat.eq_of_testBit_eq fun i => ?_
  rw [Nat.testBit_mod_two_pow, Nat.testBit_mod_two_pow, Nat.testBit_xor, Nat.testBit_two_pow]
  rcases Nat.lt_trichotomy i k with h | rfl | h
  · rw [Nat.testBit_two_pow_add_gt h]
    simp [h.ne']
  · rw [Nat.testBit_two_pow_add_eq]
    simp
  · simp [show ¬ i < k + 1 by omega]

theorem flip_sign (x : Word) : x ^^^ 0x80000000 = BitVec.ofNat 32 (x.toNat + 2 ^ 31) := by
  have h : x ^^^ 0x80000000 = BitVec.ofNat 32 (x.toNat ^^^ 2 ^ 31) := by
    apply BitVec.eq_of_toNat_eq
    rw [BitVec.toNat_xor, BitVec.toNat_ofNat, Nat.mod_eq_of_lt (Nat.xor_lt_two_pow x.isLt (by decide))]
    rfl
  rw [h, Nat.add_comm x.toNat]
  apply BitVec.eq_of_toNat_eq
  rw [BitVec.toNat_ofNat, BitVec.toNat_ofNat]
  exact xor_two_pow_mod x.toNat 31
/-- The class bit by the fields of the encoding is that by its value (R197). -/
theorem fclassBit_eq (x : Word) : fclassBit x = classBit x := by
  have hsign : x.getLsbD 31 = signOf .fp32 x.toNat := by
    unfold signOf
    rw [BitVec.getLsbD, Nat.testBit_eq_decide_div_mod_eq]
    rfl
  have hx := x.isLt
  have hsub : x.toNat % 2 ^ 31 < 2 ^ 23 ↔ expOf .fp32 x.toNat = 0 := by
    change _ ↔ x.toNat / 2 ^ 23 % 2 ^ 8 = 0
    omega
  have hraw : fclassBit x =
      if expOf .fp32 x.toNat = 255 then
        (if fracOf .fp32 x.toNat = 0 then (if signOf .fp32 x.toNat then 0 else 7) else if 2 ^ 22 ≤ fracOf .fp32 x.toNat then 9 else 8)
      else if expOf .fp32 x.toNat = 0 then
        (if fracOf .fp32 x.toNat = 0 then (if signOf .fp32 x.toNat then 3 else 4) else if signOf .fp32 x.toNat then 2 else 5)
      else if signOf .fp32 x.toNat then 1 else 6 := by
    unfold fclassBit
    rw [hsign]
    rfl
  rw [hraw]
  unfold classBit
  by_cases hs : expOf .fp32 x.toNat = 255
  · rw [val_special (f := .fp32) hs, if_pos hs]
    by_cases hf : fracOf .fp32 x.toNat = 0
    · simp [hf]
    · have hq : (decide (fracOf .fp32 x.toNat < 2 ^ (Fmt.fp32.mb - 1)) = true) ↔ ¬ 2 ^ 22 ≤ fracOf .fp32 x.toNat := by
        rw [decide_eq_true_iff, Nat.not_le]
        rfl
      simp only [hf, and_false, if_false]
      by_cases hn : 2 ^ 22 ≤ fracOf .fp32 x.toNat <;> simp_all
  · rw [val_not_special (f := .fp32) hs, if_neg hs]
    by_cases he : expOf .fp32 x.toNat = 0
    · have := hsub.2 he
      simp only [he, if_true, this]
    · have := hsub.not.2 he
      have hpos : ¬ 2 ^ Fmt.fp32.mb + fracOf .fp32 x.toNat = 0 := fun h =>
        (Nat.two_pow_pos Fmt.fp32.mb).ne' (Nat.add_eq_zero_iff.1 h).1
      simp only [he, if_false, this, hpos]

/-! ### The table -/

theorem runs_vecOp {i : Instr} {m : Mods} {r : LaneRule} (g : Mods → Option (BitVec 20) → List Word → List Word × Nat)
    (hx : ∀ s, curMods s = m → exec i s = vecOp i s r.p r.srcs r.dsts g) (hk : ∀ m, fixesLoads i m = false)
    (hg : ∀ e v, g m e v = r.fn m e v) : Runs i m r := ⟨fun s hs => ⟨g, hx s hs, hg⟩, hk⟩

section
variable {i : Instr} {m : Mods} {r : LaneRule} {p : BitVec 2} {d a b c : BitVec 5} (hk : ∀ m, fixesLoads i m = false)
include hk

theorem runs_fp1 {f g : Mods → Word → Word × Nat} (hr : fp1 p d a f = some r) (hx : ∀ s, exec i s = vec1 i s p d a g)
    (hg : ∀ x, g m x = f m x) : Runs i m r := by
  obtain rfl := Option.some.inj hr
  exact runs_vecOp _ (fun s _ => hx s) hk fun e v => congrArg oneWord (hg _)

theorem runs_fp2 {f g : Mods → Word → Word → Word × Nat} (hr : fp2 p d a b f = some r) (hx : ∀ s, exec i s = vec2 i s p d a b g)
    (hg : ∀ x y, g m x y = f m x y) : Runs i m r := by
  obtain rfl := Option.some.inj hr
  exact runs_vecOp _ (fun s _ => hx s) hk fun e v => congrArg oneWord (hg _ _)

theorem runs_fp3 {f g : Mods → Word → Word → Word → Word × Nat} (hr : fp3 p d a b c f = some r)
    (hx : ∀ s, exec i s = vec3 i s p d a b c g) (hg : ∀ x y z, g m x y z = f m x y z) : Runs i m r := by
  obtain rfl := Option.some.inj hr
  exact runs_vecOp _ (fun s _ => hx s) hk fun e v => congrArg oneWord (hg _ _ _)

end

section
variable (d a b c k : BitVec 5) (p : BitVec 2) (s : State)

theorem exec_fadd : exec (.fadd d a b p) s = execFadd d a b p s := rfl
theorem exec_fsub : exec (.fsub d a b p) s = execFsub d a b p s := rfl
theorem exec_fmul : exec (.fmul d a b p) s = execFmul d a b p s := rfl
theorem exec_ffma : exec (.ffma d a b c p) s = execFfma d a b c p s := rfl
theorem exec_fscale : exec (.fscale d a b p) s = execFscale d a b p s := rfl
theorem exec_fround : exec (.fround d a p) s = execFround d a p s := rfl
theorem exec_fmin : exec (.fmin d a b p) s = execFmin d a b p s := rfl
theorem exec_fmax : exec (.fmax d a b p) s = execFmax d a b p s := rfl
theorem exec_fcmp : exec (.fcmp d a b k p) s = execFcmp d a b k p s := rfl
theorem exec_fabs : exec (.fabs d a p) s = execFabs d a p s := rfl
theorem exec_fneg : exec (.fneg d a p) s = execFneg d a p s := rfl
theorem exec_fclass : exec (.fclass d a p) s = execFclass d a p s := rfl
theorem exec_frcp : exec (.frcp d a p) s = execFrcp d a p s := rfl
theorem exec_frsq : exec (.frsq d a p) s = execFrsq d a p s := rfl
theorem exec_fexp2 : exec (.fexp2 d a p) s = execFexp2 d a p s := rfl
theorem exec_flog2 : exec (.flog2 d a p) s = execFlog2 d a p s := rfl
theorem exec_sincosT : exec (.sincosT d a p) s = execSincosT d a p s := rfl

end

/-! ### The table of FP32 -/

theorem floatRule_runs (m : Mods) (i : Instr) (r : LaneRule) (h : floatRule m i = some r) : Runs i m r := by
  unfold floatRule at h
  split at h
  · exact runs_fp2 (fun _ => rfl) h (exec_fadd _ _ _ _) fun _ _ => rfl
  · exact runs_fp2 (fun _ => rfl) h (exec_fsub _ _ _ _) fun _ _ => rfl
  · exact runs_fp2 (fun _ => rfl) h (exec_fmul _ _ _ _) fun _ _ => congrArg (rounded m) (fProd_eq m _ _)
  · exact runs_fp3 (fun _ => rfl) h (exec_ffma _ _ _ _ _) fun _ _ _ => rfl
  · exact runs_fp2 (fun _ => rfl) h (exec_fscale _ _ _ _) fun _ _ => congrArg (fun v => rounded m (v, 0)) (scaleVal_eq _ _ _)
  · exact runs_fp1 (fun _ => rfl) h (exec_fround _ _ _) fun _ => froundWord_eq m _
  · exact runs_fp2 (fun _ => rfl) h (exec_fmin _ _ _ _) fun _ _ => rfl
  · exact runs_fp2 (fun _ => rfl) h (exec_fmax _ _ _ _) fun _ _ => rfl
  · exact runs_fp2 (fun _ => rfl) h (exec_fcmp _ _ _ _ _) fun _ _ => rfl
  · exact runs_fp1 (fun _ => rfl) h (exec_fabs _ _ _) fun _ => signWord_eq (g := fun w => BitVec.ofNat 32 (w.toNat % 2 ^ 31)) _ (clear_sign _)
  · exact runs_fp1 (fun _ => rfl) h (exec_fneg _ _ _) fun _ => signWord_eq (g := fun w => BitVec.ofNat 32 (w.toNat + 2 ^ 31)) _ (flip_sign _)
  · exact runs_fp1 (fun _ => rfl) h (exec_fclass _ _ _) fun _ => congrArg (fun k => (BitVec.ofNat 32 (2 ^ k), 0)) (fclassBit_eq _)
  · exact runs_fp1 (fun _ => rfl) h (exec_frcp _ _ _) fun _ => rfl
  · exact runs_fp1 (fun _ => rfl) h (exec_frsq _ _ _) fun _ => rfl
  · exact runs_fp1 (fun _ => rfl) h (exec_fexp2 _ _ _) fun _ => rfl
  · exact runs_fp1 (fun _ => rfl) h (exec_flog2 _ _ _) fun _ => rfl
  · obtain rfl := Option.some.inj h
    exact runs_vecOp _ (fun s _ => exec_sincosT _ _ _ s) (fun _ => rfl) fun _ _ => rfl
  · cases h

/-- Settles O7: each FP32 word is a per-lane instruction whose function is the rule's, up to the names of signed zeros, rounded
integers, sign bits and classes. -/
theorem floatingPoint : Obligations.FloatingPoint := by
  have obeyed := obeyed_of_runs floatRule_runs
  refine ⟨obeyed, fun d a b c k p => ⟨?_, ?_, ?_, ?_, ?_, ?_, ?_, ?_, ?_, ?_, ?_, ?_, ?_, ?_, ?_, ?_, ?_⟩⟩ <;>
    exact fun s t ha hp => obeyed_completes obeyed rfl ha hp

end Sys2Proof.Proofs

/-! ## Packed arithmetic and conversions -/

namespace Sys2Proof.Proofs

open Sys2Proof Sys2Proof.Machine Sys2Proof.Claims

theorem ty16_eq (y : BitVec 1) : ty16 y = tyFmt y := by
  revert y
  decide

theorem half_eq (x : Word) (i : Nat) : half x i = halfOf x i := rfl

/-- A packed word is its two halves, each rounded (R198). -/
theorem packed_eq (f : Fmt) (m : Mods) (g : List FVal → FVal × Nat) (xs : List Word) :
    packed f m g xs = roundedHalves f m (g (xs.map fun x => halfVal f m x 0)) (g (xs.map fun x => halfVal f m x 1)) := rfl

theorem fdot2Word_eq (m : Mods) (x y z : Word) : fdot2Word m x y z = rounded m
    (fDot m.rm.toNat [(halfVal .bf16 m x 0, halfVal .bf16 m y 0), (halfVal .bf16 m x 1, halfVal .bf16 m y 1)] (f32 m z)) := rfl

theorem fdot4Word_eq (m : Mods) (x y z : Word) : fdot4Word m x y z = rounded m
    (fDot m.rm.toNat [(byteVal x 0, byteVal y 0), (byteVal x 1, byteVal y 1), (byteVal x 2, byteVal y 2),
      (byteVal x 3, byteVal y 3)] (f32 m z)) := rfl

/-! ### Integers in slots -/

theorem pair_toNat (lo hi : Word) : (pair lo hi).toNat = pairNat lo hi := by
  unfold pair pairNat
  rw [BitVec.toNat_append, ← Nat.shiftLeft_add_eq_or_of_lt lo.isLt, Nat.shiftLeft_eq, Nat.mul_comm, Nat.add_comm]

theorem intSource_eq (k : Nat) (hk : k < 4) (lo hi : Word) : intSource k lo hi = cvtSource (BitVec.ofNat 2 k) lo hi := by
  have hp : pair lo hi = BitVec.ofNat 64 (pairNat lo hi) := by
    rw [← pair_toNat]
    simp
  interval_cases k
  · rfl
  · rfl
  · exact congrArg Int.ofNat (pair_toNat lo hi)
  · exact congrArg BitVec.toInt hp

/-- The two words of a number (R22). -/
theorem pairWords_ofNat (n : Nat) : pairWords (BitVec.ofNat 64 n) = pairOf n := by
  have hlo : (BitVec.ofNat 64 n).setWidth 32 = BitVec.ofInt 32 n := by
    apply BitVec.eq_of_toNat_eq
    simp only [BitVec.toNat_setWidth, BitVec.toNat_ofNat, BitVec.ofInt_natCast]
    omega
  have hhi : (BitVec.ofNat 64 n >>> 32).setWidth 32 = BitVec.ofInt 32 ((n : Int) / 2 ^ 32) := by
    have h : (n : Int) / 2 ^ 32 = ((n / 2 ^ 32 : ℕ) : Int) := by push_cast; rfl
    rw [h]
    apply BitVec.eq_of_toNat_eq
    simp only [BitVec.toNat_setWidth, BitVec.toNat_ushiftRight, BitVec.toNat_ofNat, BitVec.ofInt_natCast, Nat.shiftRight_eq_div_pow]
    omega
  exact congrArg₂ (fun a b => [a, b]) hlo hhi

theorem intType_eq (dt : BitVec 3) : intType dt.toNat = cvtType dt := rfl

theorem cvtType_wide (dt : BitVec 3) : (cvtType dt).1 = 64 ↔ 6 ≤ dt.toNat := by
  revert dt
  decide

/-- An integer result in its slots (R185, R201). -/
theorem intResult_eq (dt : BitVec 3) (n : Nat) : intResult dt.toNat n = intSlots dt n := by
  unfold intResult intSlots
  dsimp only
  rw [intType_eq, pairWords_ofNat]
  simp only [cvtType_wide, Bool.and_eq_true, decide_eq_true_eq]
  rfl

/-- The sign of a converted zero (log entry 80). -/
theorem convZero_intVal (rm : Nat) (n : Int) : convZero rm (intVal n) = underRd rm (.fin (decide (n < 0)) n.natAbs 0) := by
  unfold convZero intVal underRd FVal.isZero
  by_cases h : n = 0
  · by_cases hr : rm = 3 <;> simp [h, hr]
  · simp [h]

/-! ### The table -/

section
variable (d a b c : BitVec 5) (y n : BitVec 1) (i j : BitVec 3) (k p : BitVec 2) (s : State)

theorem exec_hadd2 : exec (.hadd2 d a b y p) s = execHadd2 d a b y p s := rfl
theorem exec_hmul2 : exec (.hmul2 d a b y p) s = execHmul2 d a b y p s := rfl
theorem exec_hfma2 : exec (.hfma2 d a b c p) s = execHfma2 d a b c p s := rfl
theorem exec_fdot2 : exec (.fdot2 d a b c p) s = execFdot2 d a b c p s := rfl
theorem exec_fdot4F8 : exec (.fdot4F8 d a b c p) s = execFdot4F8 d a b c p s := rfl
theorem exec_cvtFi : exec (.cvtFi d a i k p) s = execCvtFi d a i k p s := rfl
theorem exec_cvtIf : exec (.cvtIf d a k i p) s = execCvtIf d a k i p s := rfl
theorem exec_cvtFf : exec (.cvtFf d a i n j p) s = execCvtFf d a i n j p s := rfl

end

theorem cvtFi_runs {d a : BitVec 5} {dt : BitVec 3} {st p : BitVec 2} {m : Mods} {r : LaneRule}
    (h : packedRule m (.cvtFi d a dt st p) = some r) : Runs (.cvtFi d a dt st p) m r := by
  obtain rfl := Option.some.inj h
  exact runs_vecOp _ (fun s _ => exec_cvtFi _ _ _ _ _ s) (fun _ => rfl) fun e v =>
    congrArg (fun w => (w, _)) (intResult_eq dt _)

theorem cvtIf_runs {d a : BitVec 5} {dt : BitVec 2} {st : BitVec 3} {p : BitVec 2} {m : Mods} {r : LaneRule}
    (h : packedRule m (.cvtIf d a dt st p) = some r) : Runs (.cvtIf d a dt st p) m r := by
  obtain rfl := Option.some.inj h
  refine runs_vecOp _ (fun s _ => exec_cvtIf _ _ _ _ _ s) (fun _ => rfl) fun e v => ?_
  dsimp only
  rw [convZero_intVal, intSource_eq _ (by omega)]
  rfl

theorem cvtFf_runs {d a : BitVec 5} {st dt : BitVec 3} {nof : BitVec 1} {p : BitVec 2} {m : Mods} {r : LaneRule}
    (h : packedRule m (.cvtFf d a st nof dt p) = some r) : Runs (.cvtFf d a st nof dt p) m r := by
  obtain rfl := Option.some.inj h
  refine runs_vecOp (fun m' _ vs => cvtWords m' st.toNat dt.toNat (nof == 1) (if m.wid = 5 then 2 else 1) vs) (fun s hs => ?_)
    (fun _ => rfl) fun e v => rfl
  rw [exec_cvtFf]
  unfold execCvtFf
  rw [hs]
  simp only [Bool.and_eq_true, beq_iff_eq]
  rfl

theorem packedRule_runs (m : Mods) (i : Instr) (r : LaneRule) (h : packedRule m i = some r) : Runs i m r := by
  unfold packedRule at h
  split at h
  · exact runs_fp2 (fun _ => rfl) h (exec_hadd2 _ _ _ _ _) fun _ _ => by rw [packed_eq, ty16_eq]; rfl
  · exact runs_fp2 (fun _ => rfl) h (exec_hmul2 _ _ _ _ _) fun _ _ => by simp only [packed_eq, ty16_eq, fProd_eq]; rfl
  · exact runs_fp3 (fun _ => rfl) h (exec_hfma2 _ _ _ _ _) fun _ _ _ => packed_eq _ _ _ _
  · exact runs_fp3 (fun _ => rfl) h (exec_fdot2 _ _ _ _ _) fun _ _ _ => fdot2Word_eq _ _ _ _
  · exact runs_fp3 (fun _ => rfl) h (exec_fdot4F8 _ _ _ _ _) fun _ _ _ => fdot4Word_eq _ _ _ _
  · exact cvtFi_runs h
  · exact cvtIf_runs h
  · exact cvtFf_runs h
  · cases h

/-- Settles O8: each packed word and conversion is a per-lane instruction whose function is the rule's, up to the names of halves,
integer slots and the sign of a converted zero. -/
theorem packedAndConversions : Obligations.PackedAndConversions := by
  have obeyed := obeyed_of_runs packedRule_runs
  refine ⟨obeyed, fun d a b c y p => ⟨?_, ?_, ?_, ?_, ?_, ?_, ?_, ?_⟩⟩
  case refine_6 => exact fun dt st s t ha hp => obeyed_completes obeyed rfl ha hp
  case refine_7 => exact fun dt st s t ha hp => obeyed_completes obeyed rfl ha hp
  case refine_8 => exact fun st dt nof s t ha hp => obeyed_completes obeyed rfl ha hp
  all_goals exact fun s t ha hp => obeyed_completes obeyed rfl ha hp

end Sys2Proof.Proofs

/-! ## Reductions and prefixes -/

namespace Sys2Proof.Proofs

open Sys2Proof Sys2Proof.Machine Sys2Proof.Claims

/-! ### A word stopped between its write passes -/

/-- The gain that a list holds for a lane. -/
theorem find_gain {gs : List Gain} (h : (gs.map Gain.lane).Nodup) {g : Gain} (hg : g ∈ gs) :
    gs.find? (fun x => x.lane == g.lane) = some g := by
  induction gs with
  | nil => cases hg
  | cons x xs ih =>
    obtain ⟨hx, hxs⟩ := List.nodup_cons.1 h
    rcases List.mem_cons.1 hg with rfl | hg
    · simp
    · have hne : x.lane ≠ g.lane := fun he => hx (he ▸ List.mem_map_of_mem hg)
      rw [List.find?_cons_of_neg (by simpa using hne)]
      exact ih hxs hg

/-- The write phase of a word that issues all that is left of it writes the gains of the lanes that may execute (R208). -/
theorem writeGains_wrote {s : State} {t : Team} {d : BitVec 5} {gs : List Gain} (hcur : findTeam s t.uid = some t)
    (hpass : t.pass = none) (hn : (gs.map Gain.lane).Nodup) (hb : ∀ n ∈ s1 d, (slotReg t n).isSome = true) :
    Wrote s (writeGains s (counted t) d gs []) t ((gs.map Gain.lane).filter (fun l => (candidates t).getLsbD l)) (s1 d)
      (fun _ => True) (fun l => ((gs.find? (fun g => g.lane == l)).map Gain.word).toList)
      (fun l => ((gs.find? (fun g => g.lane == l)).map Gain.flags).getD 0)
      (fun l => ((gs.find? (fun g => g.lane == l)).map Gain.drd).getD false) := by
  have hfind (g : Gain) (hg : g ∈ gs) := find_gain hn hg
  have hlanes : (gs.map Gain.lane).filter (fun l => (candidates t).getLsbD l) =
      (gs.filter (fun g => (candidates t).getLsbD g.lane)).map Gain.lane := List.filter_map
  generalize hnow : gs.filter (fun g => (candidates t).getLsbD g.lane) = now at hlanes
  have hmem (g : Gain) (hg : g ∈ now) : g ∈ gs := by
    rw [← hnow] at hg
    exact List.mem_of_mem_filter hg
  have hw := finish_wrote s s.fresh t ((gs.map Gain.lane).filter (fun l => (candidates t).getLsbD l)) (s1 d)
    ((now.flatMap (fun g => laneWrites s (counted t) g.lane (s1 d) false [g.word])).map Prod.fst)
    ((now.filter Gain.drd).map Gain.lane) (fun _ => false)
    (fun l => ((gs.find? (fun g => g.lane == l)).map Gain.word).toList)
    (fun l => ((gs.find? (fun g => g.lane == l)).map Gain.flags).getD 0)
    (fun l => ((gs.find? (fun g => g.lane == l)).map Gain.drd).getD false) hcur (hn.filter _) hb (by
      intro l
      rw [hlanes]
      simp only [List.mem_map, List.mem_filter]
      constructor
      · rintro ⟨g, ⟨hg, hd⟩, rfl⟩
        exact ⟨⟨g, hg, rfl⟩, by rw [hfind g (hmem g hg)]; exact hd⟩
      · rintro ⟨⟨g, hg, rfl⟩, hd⟩
        rw [hfind g (hmem g hg)] at hd
        exact ⟨g, ⟨hg, hd⟩, rfl⟩)
  have he : writeGains s (counted t) d gs [] = finish { s with fresh := s.fresh } (counted t)
      (wroteTeam s t ((gs.map Gain.lane).filter (fun l => (candidates t).getLsbD l)) (s1 d) ((now.filter Gain.drd).map Gain.lane)
        (fun _ => false) (fun l => ((gs.find? (fun g => g.lane == l)).map Gain.word).toList)
        (fun l => ((gs.find? (fun g => g.lane == l)).map Gain.flags).getD 0))
      ((now.flatMap (fun g => laneWrites s (counted t) g.lane (s1 d) false [g.word])).map Prod.fst) [] := by
    have hws : now.flatMap (fun g => laneWrites s (counted t) g.lane (s1 d) false [g.word]) =
        now.flatMap (fun g => laneWrites s (counted t) g.lane (s1 d) false
          ((gs.find? (fun x => x.lane == g.lane)).map Gain.word).toList) :=
      List.flatMap_congr fun g hg => by rw [hfind g (hmem g hg)]; rfl
    have hfs : now.map (fun g => (g.lane, g.flags)) =
        now.map (fun g => (g.lane, ((gs.find? (fun x => x.lane == g.lane)).map Gain.flags).getD 0)) :=
      List.map_congr_left fun g hg => by rw [hfind g (hmem g hg)]; rfl
    unfold writeGains
    refine (finish_gather _ _ _ _ ?_ _).trans ?_
    · exact hpass
    · have hnow' : gs.filter (fun g => (candidates (counted t)).getLsbD g.lane) = now := hnow
      unfold wroteTeam
      rw [hnow', hfs, hws, hlanes]
      simp only [List.flatMap_map, List.map_map, laneWrites_false]
      rfl
  rw [he]
  refine ⟨hw.machine, ?_⟩
  obtain ⟨t', hfound, honly, hval, hrest⟩ := hw.team
  exact ⟨t', hfound, honly, fun l hl _ => hval l hl rfl, hrest⟩

/-- A cross-lane word that was stopped between its write passes (R208). -/
theorem crossOp_regathers {i : Instr} {s : State} {p : BitVec 2} {srcs : List Nat} {d : BitVec 5} {t : Team} {gs : List Gain}
    (f : Team → List Nat → Nat → Gathered) (hk : ∀ m, fixesLoads i m = false)
    (ha : Accepted s t i (srcs ++ predSlot p ++ s1 d)) (hg : t.gather = some gs) (hn : (gs.map Gain.lane).Nodup) :
    ∃ s', crossOp i s p srcs d f = .next s' ∧
      Wrote s s' t ((gs.map Gain.lane).filter (fun l => (candidates t).getLsbD l)) [d.toNat] (fun _ => True)
        (fun l => ((gs.find? (fun g => g.lane == l)).map Gain.word).toList)
        (fun l => ((gs.find? (fun g => g.lane == l)).map Gain.flags).getD 0)
        (fun l => ((gs.find? (fun g => g.lane == l)).map Gain.drd).getD false) := by
  refine ⟨_, ?_, writeGains_wrote (findTeam_of_issues ha.toIssues) ha.whole hn fun n h =>
    ha.bound n (List.mem_append_right _ h)⟩
  unfold crossOp
  rw [withWord_issues ha.toIssues _ _ _ (fun n hn => List.mem_append_left _ hn) (fun n hn => List.mem_append_right _ hn),
    sealFor_of_not (hk _)]
  have hg' : (counted t).gather = some gs := hg
  rw [hg']

/-! ### Reading a slot that no lane owes -/

/-- A slot that no lane owes is read as its register. -/
theorem readSlot_of_not_owed {s : State} {t : Team} {n : Nat} (h : slotOwed s t n = false) (l : Nat) :
    readSlot s t l n = slot t l n := by
  unfold slotOwed at h
  unfold readSlot slot
  cases hr : slotReg t n with
  | none => rfl
  | some r =>
    rw [hr] at h
    dsimp only at h ⊢
    rw [if_neg]
    intro hc
    have := List.any_eq_false.1 h _ (List.contains_iff_mem.1 hc)
    have hlt := slotReg_lt hr
    exact this (beq_iff_eq.2 (by unfold regKey; omega))

/-- Without poisoned registers no lane's read consumes poison. -/
theorem readsPoison_clean {s : State} {t : Team} (h : ∀ l n, regPoisoned t l n = false) (l n : Nat) :
    readsPoison s t l n = false := by
  unfold readsPoison slotPoisoned
  cases slotReg t n <;> simp [h]

/-! ### Prefixes -/

theorem combOpt_some (op : Nat) (acc : Option (Word × Nat)) (v : Word × Nat) : ∃ r, combOpt op acc (some v) = some r := by
  cases acc with
  | none => exact ⟨v, rfl⟩
  | some a => exact ⟨_, rfl⟩

/-- A fold over some present values is present. -/
theorem fold_comb_ne_none (op : Nat) (v : Nat → Word × Nat) {x : Nat} (ls : List Nat) (h : x ∈ ls) :
    (ls.map fun j => some (v j)).foldl (combOpt op) none ≠ none := by
  have hsome (acc : Word × Nat) (ls : List Nat) : (ls.map fun j => some (v j)).foldl (combOpt op) (some acc) ≠ none := by
    induction ls generalizing acc with
    | nil => exact nofun
    | cons y ys ih => exact ih _
  cases ls with
  | nil => cases h
  | cons y ys => exact hsome (v y) ys

/-- The prefix found for an executing lane is the fold over the executing lanes up to it (R81, R214). -/
theorem prefixes_find (op : Nat) (v : Nat → Word) (l : Nat) (lanes : List Nat) (acc : Option (Word × Nat))
    (hs : lanes.Pairwise (· < ·)) (hl : l ∈ lanes) :
    ((prefixes op acc (lanes.map fun j => (j, v j))).find? (fun x => x.1 == l)).map Prod.snd =
      ((lanes.filter (fun j => decide (j ≤ l))).map (fun j => some (v j, 0))).foldl (combOpt op) acc := by
  induction lanes generalizing acc with
  | nil => cases hl
  | cons x xs ih =>
    obtain ⟨hx, hxs⟩ := List.pairwise_cons.1 hs
    obtain ⟨r, hr⟩ := combOpt_some op acc (v x, 0)
    rw [List.map_cons, prefixes, hr]
    dsimp only
    rcases List.mem_cons.1 hl with rfl | hl
    · have hnone : xs.filter (fun j => decide (j ≤ l)) = [] :=
        List.filter_eq_nil_iff.2 fun j hj => by simpa using hx j hj
      rw [List.find?_cons_of_pos (by simp), List.filter_cons_of_pos (by simp), hnone]
      exact hr.symm
    · have hlt := hx l hl
      rw [List.find?_cons_of_neg (by simpa using hlt.ne), List.filter_cons_of_pos (by simpa using hlt.le), ih _ hxs hl,
        List.map_cons, List.foldl_cons, hr]

theorem execLanes_ascending (s : State) (t : Team) (p : BitVec 2) : (execLanes s t p).Pairwise (· < ·) :=
  List.Pairwise.filter _ (List.Pairwise.filter _ List.pairwise_lt_range)

/-! ### The table -/

section
variable (d a op : BitVec 5) (p : BitVec 2) (s : State)

theorem exec_redux : exec (.redux d a op p) s = execRedux d a op p s := rfl
theorem exec_scan : exec (.scan d a op p) s = execScan d a op p s := rfl

/-- What redux gathers for every executing lane (R214). -/
def reduxGathers (t : Team) (lanes : List Nat) : Nat → Gathered :=
  let r := (treeOf op.toNat ((List.range t.hdr.lanes).map (fun l =>
    if lanes.contains l then some (readSlot s t l a.toNat, 0) else none))).getD (0, 0)
  fun _ => fromAll lanes a.toNat r.1 r.2

/-- What scan gathers for an executing lane (R214). -/
def scanGathers (t : Team) (lanes : List Nat) (l : Nat) : Gathered :=
  match (prefixes op.toNat none (lanes.map (fun l => (l, readSlot s t l a.toNat)))).find? (fun x => x.1 == l) with
  | some r => fromAll (lanes.filter (fun j => decide (j ≤ l))) a.toNat r.2.1 r.2.2
  | none => fromAll [] a.toNat 0 0

theorem execRedux_eq : execRedux d a op p s = crossOp (.redux d a op p) s p (s1 a) d (reduxGathers a op s) := rfl
theorem execScan_eq : execScan d a op p s = crossOp (.scan d a op p) s p (s1 a) d (scanGathers a op s) := rfl

end

/-- What redux gathers is what its rule gives (R214). -/
theorem reduxGathers_eq (a op : BitVec 5) {s : State} {t : Team} (h : slotOwed s t a.toNat = false) (lanes : List Nat) (l : Nat) :
    reduxGathers a op s (counted t) lanes l = fromAll lanes a.toNat
      (((treeOf op.toNat ((List.range t.hdr.lanes).map (fun l =>
        if lanes.contains l then some (slot t l a.toNat, 0) else none))).getD (0, 0)).1)
      (((treeOf op.toNat ((List.range t.hdr.lanes).map (fun l =>
        if lanes.contains l then some (slot t l a.toNat, 0) else none))).getD (0, 0)).2) := by
  unfold reduxGathers
  simp only [readSlot_counted, readSlot_of_not_owed h]
  rfl

/-- What scan gathers for an executing lane (R81, R214). -/
theorem scanGathers_eq (a op : BitVec 5) {s : State} {t : Team} (h : slotOwed s t a.toNat = false) {lanes : List Nat} {l : Nat}
    (hs : lanes.Pairwise (· < ·)) (hl : l ∈ lanes) :
    ∃ r, ((lanes.filter (fun j => decide (j ≤ l))).map (fun j => some (slot t j a.toNat, 0))).foldl (combOpt op.toNat) none = some r ∧
      scanGathers a op s (counted t) lanes l = fromAll (lanes.filter (fun j => decide (j ≤ l))) a.toNat r.1 r.2 := by
  have hfold := prefixes_find op.toNat (fun j => slot t j a.toNat) l lanes none hs hl
  unfold scanGathers
  simp only [readSlot_counted, readSlot_of_not_owed h]
  have hmem : l ∈ lanes.filter (fun j => decide (j ≤ l)) := List.mem_filter.2 ⟨hl, by simp⟩
  cases hf : (prefixes op.toNat none (lanes.map fun j => (j, slot t j a.toNat))).find? (fun x => x.1 == l) with
  | some r =>
    rw [hf] at hfold
    exact ⟨r.2, hfold.symm, rfl⟩
  | none =>
    rw [hf] at hfold
    exact absurd hfold.symm (fold_comb_ne_none _ _ _ hmem)

/-- What a word wrote, said by other names for what is known and for the lanes' values. -/
theorem wrote_congr {s s' : State} {t : Team} {lanes dsts : List Nat} {known known' : Nat → Prop} {val val' : Nat → List Word}
    {bits bits' : Nat → Nat} {drd drd' : Nat → Bool} (h : Wrote s s' t lanes dsts known val bits drd)
    (hk : ∀ l, known' l → known l) (he : ∀ l ∈ lanes, val l = val' l ∧ bits l = bits' l ∧ drd l = drd' l) :
    Wrote s s' t lanes dsts known' val' bits' drd' := by
  refine ⟨h.machine, ?_⟩
  obtain ⟨t', hfound, honly, hval, hother, hbits, hdrd⟩ := h.team
  refine ⟨t', hfound, honly, fun l hl hkn k hd hv hlast => ?_, hother, fun l => ?_, fun l => ?_⟩
  · obtain ⟨hv', -, -⟩ := he l hl
    rw [← hv'] at hv ⊢
    exact hval l hl (hk l hkn) k hd hv hlast
  · rw [hbits]
    split
    next hl => rw [(he l hl).2.1]
    next => rfl
  · rw [hdrd]
    by_cases hl : l ∈ lanes
    · rw [(he l hl).2.2]
    · simp [hl]

/-- A cross-lane word of the reduction table gathers with a function f, which gives each executing lane what the rule gives it
where no lane owes the source. -/
structure Gathers (i : Instr) (r : CrossRule) (f : State → Team → List Nat → Nat → Gathered) : Prop where
  runs : ∀ s, exec i s = crossOp i s r.p r.srcs r.d (f s)
  fixesNone : ∀ m, fixesLoads i m = false
  gives : ∀ s t, (∀ n ∈ r.srcs, slotOwed s t n = false) → ∀ l ∈ execLanes s t r.p,
    (f s (counted t) (execLanes s t r.p) l).words.getD 0 0 = (r.fn s t (execLanes s t r.p) l).word ∧
      (f s (counted t) (execLanes s t r.p) l).flags = (r.fn s t (execLanes s t r.p) l).bits ∧
      (f s (counted t) (execLanes s t r.p) l).drd = (r.fn s t (execLanes s t r.p) l).drd

theorem redux_gathers (d a op : BitVec 5) (p : BitVec 2) {r : CrossRule} (hr : reductionRule (.redux d a op p) = some r) :
    Gathers (.redux d a op p) r (reduxGathers a op) := by
  obtain rfl := Option.some.inj hr
  refine ⟨fun s => (exec_redux d a op p s).trans (execRedux_eq d a op p s), fun _ => rfl, fun s t h l hl => ?_⟩
  rw [reduxGathers_eq a op (h _ (List.mem_singleton_self _))]
  generalize hv : treeOf op.toNat _ = v
  simp only [hv]
  exact ⟨rfl, rfl, rfl⟩

theorem scan_gathers (d a op : BitVec 5) (p : BitVec 2) {r : CrossRule} (hr : reductionRule (.scan d a op p) = some r) :
    Gathers (.scan d a op p) r (scanGathers a op) := by
  obtain rfl := Option.some.inj hr
  refine ⟨fun s => (exec_scan d a op p s).trans (execScan_eq d a op p s), fun _ => rfl, fun s t h l hl => ?_⟩
  obtain ⟨v, hv, hs⟩ := scanGathers_eq a op (h _ (List.mem_singleton_self _)) (execLanes_ascending s t p) hl
  rw [hs]
  dsimp only
  rw [hv]
  exact ⟨rfl, rfl, rfl⟩

/-- The words of the reduction table gather. -/
theorem reductionRule_gathers {i : Instr} {r : CrossRule} (h : reductionRule i = some r) : ∃ f, Gathers i r f := by
  have h' := h
  unfold reductionRule at h
  split at h
  · exact ⟨_, redux_gathers _ _ _ _ h'⟩
  · exact ⟨_, scan_gathers _ _ _ _ h'⟩
  · cases h

section
variable {i : Instr} {r : CrossRule} {s : State} {t : Team} (hr : reductionRule i = some r)
  (ha : Accepted s t i (r.srcs ++ predSlot r.p ++ [r.d.toNat]))
include hr ha

/-- A word of the table that gathers completes; where no lane owes a source, it writes what its rule gives (R207, R208). -/
theorem reduction_wrote (hp : ∀ l n, regPoisoned t l n = false) (hg : t.gather = none) :
    ∃ s', exec i s = .next s' ∧ OnlyTeam s s' t.uid ∧ ((∀ n ∈ r.srcs ++ predSlot r.p, slotOwed s t n = false) →
      Wrote s s' t (execLanes s t r.p) [r.d.toNat] (fun _ => True)
        (fun l => [(r.fn s t (execLanes s t r.p) l).word]) (fun l => (r.fn s t (execLanes s t r.p) l).bits)
        (fun l => (r.fn s t (execLanes s t r.p) l).drd)) := by
  obtain ⟨f, hruns, hfix, hgives⟩ := reductionRule_gathers hr
  obtain ⟨s', hx, hw⟩ := crossOp_wrote (f s) hfix ha hg (lostLanes_clean hp r.p []) fun _ _ u _ => readsPoison_clean hp u.1 u.2
  refine ⟨s', (hruns s).trans hx, hw.machine, fun ho => ?_⟩
  have hany : (r.srcs ++ predSlot r.p).any (slotOwed s t) = false := by
    rw [List.any_eq_false]
    intro n hn
    rw [ho n hn]
    exact Bool.false_ne_true
  refine wrote_congr hw (fun _ _ => hany) fun l hl => ?_
  obtain ⟨hword, hflags, hdrd⟩ := hgives s t (fun n hn => ho n (List.mem_append_left _ hn)) l hl
  rw [hany, hword, hflags, hdrd]
  exact ⟨rfl, rfl, rfl⟩

/-- A word of the table that was stopped between its write passes (R208). -/
theorem reduction_rewrote {gs : List Gain} (hg : t.gather = some gs) (hn : (gs.map Gain.lane).Nodup) :
    ∃ s', exec i s = .next s' ∧
      Wrote s s' t ((gs.map Gain.lane).filter (fun l => (candidates t).getLsbD l)) [r.d.toNat] (fun _ => True)
        (fun l => ((gs.find? (fun g => g.lane == l)).map Gain.word).toList)
        (fun l => ((gs.find? (fun g => g.lane == l)).map Gain.flags).getD 0)
        (fun l => ((gs.find? (fun g => g.lane == l)).map Gain.drd).getD false) := by
  obtain ⟨f, hruns, hfix, -⟩ := reductionRule_gathers hr
  obtain ⟨s', hx, hw⟩ := crossOp_regathers (f s) hfix ha hg hn
  exact ⟨s', (hruns s).trans hx, hw⟩

end

/-- Settles O10: redux and scan gather their rule's tree and folds from registers that no lane owes, and write them, or what was
gathered before. -/
theorem reductionsAndScans : Obligations.ReductionsAndScans := by
  refine ⟨fun i s t r hr ha hp ho hg => ?_, fun i s t r gs hr ha hg hn => reduction_rewrote hr ha hg hn,
    fun d a op p s t hp hg => ⟨fun ha => ?_, fun ha => ?_⟩⟩
  · obtain ⟨s', hx, -, hw⟩ := reduction_wrote hr ha hp hg
    exact ⟨s', hx, hw ho⟩
  · obtain ⟨s', hx, hm, -⟩ := reduction_wrote (i := .redux d a op p) rfl ha hp hg
    exact ⟨s', hx, hm⟩
  · obtain ⟨s', hx, hm, -⟩ := reduction_wrote (i := .scan d a op p) rfl ha hp hg
    exact ⟨s', hx, hm⟩

end Sys2Proof.Proofs

/-! ## FP32 encodings in their order -/

namespace Sys2Proof.Proofs

open Sys2Proof Sys2Proof.Machine Sys2Proof.Claims

/-- The encoding of infinity without its sign. -/
def infBits : ℕ := 0x7F800000

/-- v is the value that an FP32 encoding is read as; a zero may have any exponent. -/
inductive Reads : ℕ → FVal → Prop
  | fin (neg : Bool) {b m : ℕ} {e : ℤ} (hb : b < infBits) (hv : (m = sigOf .fp32 b ∧ e = powOf .fp32 b) ∨ (b = 0 ∧ m = 0)) :
      Reads (signBit .fp32 neg + b) (.fin neg m e)
  | inf (neg : Bool) : Reads (signBit .fp32 neg + infBits) (.inf neg)
  | nan {a : ℕ} (h : nan32 a = true) : Reads a (.nan (snan32 a))

theorem signBit_cases (neg : Bool) : signBit .fp32 neg = if neg then 2 ^ 31 else 0 := rfl

/-- NaN is what lies above infinity, without its sign. -/
theorem nan32_signBit (neg : Bool) {b : ℕ} (hb : b ≤ infBits) : nan32 (signBit .fp32 neg + b) = false := by
  unfold infBits at hb
  rw [signBit_cases]
  unfold nan32
  rw [Bool.and_eq_false_iff, beq_eq_false_iff_ne, bne_eq_false_iff_eq]
  cases neg <;> simp only [if_true, Bool.false_eq_true, if_false] <;> omega

/-- The magnitude that a finite encoding is read as. -/
theorem reads_magnitude {b m : ℕ} {e : ℤ} (hv : (m = sigOf .fp32 b ∧ e = powOf .fp32 b) ∨ (b = 0 ∧ m = 0)) :
    (m : ℝ) * 2 ^ e = magOf .fp32 b := by
  rcases hv with ⟨rfl, rfl⟩ | ⟨rfl, rfl⟩
  · exact (magOf_eq _ _).symm
  · simp

/-- An encoding is read as its value. -/
theorem reads_val {x : ℕ} (hx : x < 2 ^ 32) : Reads x (Fmt.fp32.val x) := by
  by_cases hs : special .fp32 x
  · have he : expOf .fp32 x = 255 := hs
    rw [val_special hs]
    split
    next h =>
      have hinf : x = signBit .fp32 (signOf .fp32 x) + infBits := by
        obtain ⟨b, hb, hxb⟩ := encoding_eq .fp32 hx
        have : b = infBits := by
          rw [hxb] at he h
          obtain ⟨-, he', hf', -⟩ := fields_signBit .fp32 (signOf .fp32 x) hb
          rw [he'] at he
          rw [hf'] at h
          have h2 := Nat.div_add_mod b (2 ^ Fmt.fp32.mb)
          rw [he, h.2] at h2
          exact h2.symm
        rw [← this]
        exact hxb
      generalize signOf .fp32 x = neg at hinf ⊢
      rw [hinf]
      exact Reads.inf neg
    next h =>
      have hf : fracOf .fp32 x ≠ 0 := fun h0 => h ⟨by decide, h0⟩
      have hn : nan32 x = true := Bool.and_eq_true_iff.2 ⟨beq_iff_eq.2 he, bne_iff_ne.2 hf⟩
      have hsn : snan32 x = (Fmt.fp32 ≠ .e4m3 && decide (fracOf .fp32 x < 2 ^ (Fmt.fp32.mb - 1))) := by
        unfold snan32
        rw [hn]
        rfl
      rw [← hsn]
      exact Reads.nan hn
  · obtain ⟨b, hb, hxb⟩ := encoding_eq .fp32 hx
    rw [hxb, special_iff .fp32 _ hb, Nat.not_lt] at hs
    generalize signOf .fp32 x = neg at hxb
    rw [hxb, val_finite _ _ hs]
    exact Reads.fin neg (Nat.lt_succ_of_le hs) (Or.inl ⟨rfl, rfl⟩)

/-- An operand under FTZ is read as the value of its flushed encoding (R71). -/
theorem reads_flush32 (ftz : Bool) {x : ℕ} (hx : x < 2 ^ 32) : Reads (flush32 ftz x) (Fmt.fp32.valFtz ftz x) := by
  have hflush : flush32 ftz x = if ftz = true ∧ expOf .fp32 x = 0 then x / 2 ^ 31 * 2 ^ 31 else x := by
    unfold flush32
    simp only [Bool.and_eq_true, beq_iff_eq]
    rfl
  have hval : Fmt.fp32.valFtz ftz x =
      if ftz = true ∧ expOf .fp32 x = 0 then .fin (signOf .fp32 x) 0 0 else Fmt.fp32.val x := by
    rw [valFtz_eq]
    exact if_congr ⟨fun h => ⟨h.1, h.2.2⟩, fun h => ⟨h.1, by decide, h.2⟩⟩ rfl rfl
  rw [hflush, hval]
  split
  next h =>
    have hz : x / 2 ^ 31 * 2 ^ 31 = signBit .fp32 (signOf .fp32 x) + 0 := by
      obtain ⟨b, hb, hxb⟩ := encoding_eq .fp32 hx
      replace hb : b < 2 ^ 31 := hb
      rw [signBit_cases] at hxb ⊢
      cases hs : signOf .fp32 x <;> rw [hs] at hxb <;> simp only [if_true, Bool.false_eq_true, if_false] at hxb ⊢ <;> omega
    rw [hz]
    exact Reads.fin _ (by decide) (Or.inr ⟨rfl, rfl⟩)
  next => exact reads_val hx

/-- What is read as NaN. -/
theorem Reads.isNan {a : ℕ} {v : FVal} (h : Reads a v) : v.isNan = nan32 a ∧ v.isSnan = snan32 a := by
  cases h with
  | fin neg hb hv =>
    unfold snan32
    rw [nan32_signBit neg hb.le]
    exact ⟨rfl, rfl⟩
  | inf neg =>
    unfold snan32
    rw [nan32_signBit neg le_rfl]
    exact ⟨rfl, rfl⟩
  | nan h => exact ⟨h.symm, rfl⟩

/-- Rounding gives an encoding back (R69). -/
theorem Reads.rne {a : ℕ} {v : FVal} (h : Reads a v) (hn : nan32 a = false) : rne .fp32 v = a := by
  cases h with
  | fin neg hb hv =>
    rcases hv with ⟨rfl, rfl⟩ | ⟨rfl, rfl⟩
    · exact congrArg Prod.fst (roundFin_encoding .fp32 0 false neg (Nat.le_of_lt_succ hb))
    · rfl
  | inf neg => rfl
  | nan h => exact absurd (h.symm.trans hn) (by decide)

/-! ### Comparison -/

/-- The order of two whole numbers, from which lies below which. -/
theorem compare_congr {a b c d : ℤ} (h : a < b ↔ c < d) (h' : b < a ↔ d < c) : compare a b = compare c d := by
  rcases lt_trichotomy c d with hlt | heq | hgt
  · rw [compare_lt_iff_lt.2 hlt, compare_lt_iff_lt.2 (h.2 hlt)]
  · rw [compare_eq_iff_eq.2 heq]
    exact compare_eq_iff_eq.2 (le_antisymm (not_lt.1 (h'.not.2 heq.not_gt)) (not_lt.1 (h.not.2 heq.not_lt)))
  · rw [compare_gt_iff_gt.2 hgt, compare_gt_iff_gt.2 (h'.2 hgt)]

/-- A scaled magnitude is its value in units of the scale. -/
theorem scaled_real (neg : Bool) (m : ℕ) {e q : ℤ} (h : q ≤ e) : ((scaled neg m e q : ℤ) : ℝ) * 2 ^ q = signed neg * (m * 2 ^ e) := by
  have hp : (2 : ℝ) ^ e = 2 ^ (e - q).toNat * 2 ^ q := by
    rw [← zpow_sub_toNat h, ← zpow_add₀ (by norm_num), sub_add_cancel]
  unfold scaled
  rw [hp]
  cases neg <;> simp [signed] <;> ring

/-- Scaled magnitudes lie as their values do. -/
theorem scaled_lt_iff {n1 n2 : Bool} {m1 m2 : ℕ} {e1 e2 q : ℤ} (h1 : q ≤ e1) (h2 : q ≤ e2) :
    scaled n1 m1 e1 q < scaled n2 m2 e2 q ↔ (signed n1 : ℝ) * (m1 * 2 ^ e1) < signed n2 * (m2 * 2 ^ e2) := by
  rw [← scaled_real n1 m1 h1, ← scaled_real n2 m2 h2, mul_lt_mul_iff_left₀ (by positivity)]
  exact Int.cast_lt.symm

/-- Values lie as their signed encodings do. -/
theorem magOf_signed_lt (f : Fmt) (n1 n2 : Bool) (b1 b2 : ℕ) :
    (signed n1 : ℝ) * magOf f b1 < signed n2 * magOf f b2 ↔ signed n1 * (b1 : ℤ) < signed n2 * b2 := by
  have hlt (b c : ℕ) : magOf f b < magOf f c ↔ (b : ℤ) < c := by rw [(magOf_strictMono f).lt_iff_lt]; exact Int.ofNat_lt.symm
  have h0 (b : ℕ) := magOf_nonneg f b
  have hpos (b : ℕ) : 0 < magOf f b ↔ 0 < (b : ℤ) := by simpa using hlt 0 b
  cases n1 <;> cases n2 <;> simp only [signed, if_true, Bool.false_eq_true, if_false, Int.cast_one, Int.cast_neg, one_mul, neg_mul]
  · exact hlt b1 b2
  · exact iff_of_false (by linarith [h0 b1, h0 b2]) (by omega)
  · have h1 := hpos b1
    have h2 := hpos b2
    constructor
    · intro h
      by_contra hc
      have hb1 : ¬ 0 < magOf f b1 := h1.not.2 (by omega)
      have hb2 : ¬ 0 < magOf f b2 := h2.not.2 (by omega)
      linarith
    · intro h
      rcases Nat.eq_zero_or_pos b1 with hb | hb
      · have := h2.2 (by omega)
        linarith [h0 b1]
      · have := h1.2 (by omega)
        linarith [h0 b2]
  · rw [neg_lt_neg_iff, neg_lt_neg_iff]
    exact hlt b2 b1

theorem orderKey_true (neg : Bool) {b : ℕ} (hb : b ≤ infBits) : orderKey true (signBit .fp32 neg + b) = signed neg * b := by
  unfold infBits at hb
  rw [signBit_cases]
  unfold orderKey signed
  cases neg
  · simp only [Bool.false_eq_true, if_false, Nat.zero_add]
    rw [if_pos (by omega)]
    omega
  · simp only [if_true]
    rw [if_neg (by omega)]
    push_cast
    omega

theorem orderKey_false (neg : Bool) {b : ℕ} (hb : b ≤ infBits) :
    orderKey false (signBit .fp32 neg + b) = if neg then -(b : ℤ) - 1 else b := by
  unfold infBits at hb
  rw [signBit_cases]
  unfold orderKey
  cases neg
  · simp only [Bool.false_eq_true, if_false, Nat.zero_add]
    rw [if_pos (by omega)]
  · simp only [if_true, Bool.false_eq_true, if_false]
    rw [if_neg (by omega)]
    push_cast
    omega

/-- The key of a finite encoding lies between those of the infinities. -/
theorem signed_lt_inf (neg : Bool) {b : ℕ} (hb : b < infBits) :
    signed neg * (b : ℤ) < signed false * (infBits : ℤ) ∧ signed true * (infBits : ℤ) < signed neg * b := by
  have hpos : 0 < infBits := by decide
  cases neg <;> simp only [signed, if_true, Bool.false_eq_true, if_false] <;> omega

/-- fCmp compares by the encodings' keys (R194, R196). -/
theorem Reads.fCmp {a b : ℕ} {v w : FVal} (hv : Reads a v) (hw : Reads b w) (ha : nan32 a = false) (hb : nan32 b = false) :
    fCmp v w = compare (orderKey true a) (orderKey true b) := by
  cases hv with
  | nan h => exact absurd (h.symm.trans ha) (by decide)
  | inf n1 =>
    rw [orderKey_true n1 le_rfl]
    cases hw with
    | nan h => exact absurd (h.symm.trans hb) (by decide)
    | inf n2 =>
      rw [orderKey_true n2 le_rfl]
      revert n1 n2
      decide
    | fin n2 hb2 hv2 =>
      rw [orderKey_true n2 hb2.le]
      cases n1
      · exact (compare_gt_iff_gt.2 (signed_lt_inf n2 hb2).1).symm
      · exact (compare_lt_iff_lt.2 (signed_lt_inf n2 hb2).2).symm
  | fin n1 hb1 hv1 =>
    rw [orderKey_true n1 hb1.le]
    cases hw with
    | nan h => exact absurd (h.symm.trans hb) (by decide)
    | inf n2 =>
      rw [orderKey_true n2 le_rfl]
      cases n2
      · exact (compare_lt_iff_lt.2 (signed_lt_inf n1 hb1).1).symm
      · exact (compare_gt_iff_gt.2 (signed_lt_inf n1 hb1).2).symm
    | fin n2 hb2 hv2 =>
      rw [orderKey_true n2 hb2.le]
      refine compare_congr ?_ ?_
      · rw [scaled_lt_iff (min_le_left _ _) (min_le_right _ _), reads_magnitude hv1, reads_magnitude hv2]
        exact magOf_signed_lt _ _ _ _ _
      · rw [scaled_lt_iff (min_le_right _ _) (min_le_left _ _), reads_magnitude hv1, reads_magnitude hv2]
        exact magOf_signed_lt _ _ _ _ _

/-- The sign and the zero of what is no NaN. -/
theorem Reads.fields {a : ℕ} {v : FVal} (h : Reads a v) (hn : nan32 a = false) :
    ∃ b ≤ infBits, a = signBit .fp32 v.neg + b ∧ v.isZero = decide (b = 0) := by
  cases h with
  | fin neg hb hv =>
    refine ⟨_, hb.le, rfl, ?_⟩
    rcases hv with ⟨rfl, -⟩ | ⟨rfl, rfl⟩
    · rcases Nat.eq_zero_or_pos ‹ℕ› with rfl | hpos
      · rfl
      · rw [decide_eq_false hpos.ne']
        exact beq_eq_false_iff_ne.2 (sigOf_pos hpos).ne'
    · rfl
  | inf neg => exact ⟨infBits, le_rfl, rfl, rfl⟩
  | nan h => exact absurd (h.symm.trans hn) (by decide)

/-- fLe orders by the keys with -0 below +0 (R194). -/
theorem Reads.fLe {a b : ℕ} {v w : FVal} (hv : Reads a v) (hw : Reads b w) (ha : nan32 a = false) (hb : nan32 b = false) :
    fLe v w = decide (orderKey false a ≤ orderKey false b) := by
  have hc := hv.fCmp hw ha hb
  obtain ⟨x, hx, rfl, hzx⟩ := hv.fields ha
  obtain ⟨y, hy, rfl, hzy⟩ := hw.fields hb
  rw [orderKey_true _ hx, orderKey_true _ hy] at hc
  rw [orderKey_false _ hx, orderKey_false _ hy]
  unfold Machine.fLe
  rw [hzx, hzy]
  generalize v.neg = n1 at hc ⊢
  generalize w.neg = n2 at hc ⊢
  rcases lt_trichotomy (signed n1 * (x : ℤ)) (signed n2 * y) with h | h | h
  · rw [hc, compare_lt_iff_lt.2 h]
    refine (decide_eq_true ?_).symm
    cases n1 <;> cases n2 <;> simp [signed] at h ⊢ <;> omega
  · rw [hc, compare_eq_iff_eq.2 h]
    rcases eq_or_ne n1 n2 with rfl | hn
    · obtain rfl : x = y := by cases n1 <;> simpa [signed] using h
      cases n1 <;> simp
    · obtain ⟨rfl, rfl⟩ : x = 0 ∧ y = 0 := by
        cases n1 <;> cases n2 <;> simp [signed] at h hn <;> omega
      clear hc h
      revert n1 n2
      decide
  · rw [hc, compare_gt_iff_gt.2 h]
    refine (decide_eq_false ?_).symm
    cases n1 <;> cases n2 <;> simp [signed] at h ⊢ <;> omega

/-! ### Minima, maxima and fcmp -/

theorem ivOf_pair (v w : FVal) : ivOf [v, w] = if v.isSnan = true ∨ w.isSnan = true then 1 else 0 := by
  unfold ivOf flagIV
  simp

/-- fmin and fmax (R194). -/
theorem fMinMax_eq (isMax ftz : Bool) {x y : ℕ} (hx : x < 2 ^ 32) (hy : y < 2 ^ 32) :
    fMinMax isMax ftz x y =
      (if nan32 (flush32 ftz x) ∧ nan32 (flush32 ftz y) then 0x7FC00000 else if nan32 (flush32 ftz x) then flush32 ftz y
        else if nan32 (flush32 ftz y) then flush32 ftz x
        else if (orderKey false (flush32 ftz x) ≤ orderKey false (flush32 ftz y)) = (isMax = false) then flush32 ftz x
        else flush32 ftz y,
       if snan32 (flush32 ftz x) ∨ snan32 (flush32 ftz y) then 1 else 0) := by
  have hv := reads_flush32 ftz hx
  have hw := reads_flush32 ftz hy
  obtain ⟨hna, hsa⟩ := hv.isNan
  obtain ⟨hnb, hsb⟩ := hw.isNan
  unfold fMinMax
  dsimp only
  rw [ivOf_pair, hsa, hsb, hna, hnb]
  generalize flush32 ftz x = a at *
  generalize flush32 ftz y = b at *
  refine congrArg (·, _) ?_
  cases ha : nan32 a <;> cases hb : nan32 b
  · rw [hv.fLe hw ha hb]
    by_cases hle : orderKey false a ≤ orderKey false b <;> cases isMax <;> simp [hle, hv.rne ha, hw.rne hb]
  · simp [hv.rne ha]
  · simp [hw.rne hb]
  · rfl

/-- The conditions of fcmp, by the keys of the encodings (R196). -/
theorem fcmpHolds_eq {k a b : ℕ} {v w : FVal} (hv : Reads a v) (hw : Reads b w) (hk : k < 8) :
    fcmpHolds k v w = fcmpTrue k a b := by
  unfold fcmpHolds fcmpTrue
  rw [hv.isNan.1, hw.isNan.1]
  cases hn : (nan32 a || nan32 b)
  · obtain ⟨ha, hb⟩ := Bool.or_eq_false_iff.1 hn
    rw [hv.fCmp hw ha hb]
    generalize orderKey true a = p
    generalize orderKey true b = q
    rcases lt_trichotomy p q with h | rfl | h
    · rw [compare_lt_iff_lt.2 h]
      interval_cases k <;> simp [bne, h.le, h.ne, h, h.not_gt, h.not_ge]
    · rw [compare_eq_iff_eq.2 rfl]
      interval_cases k <;> simp
    · rw [compare_gt_iff_gt.2 h]
      interval_cases k <;> simp [bne, h.le, h.ne', h, h.not_gt, h.not_ge]
  · interval_cases k <;> rfl

/-- fcmp (R196). -/
theorem fcmpWord_eq (m : Mods) {k : ℕ} (x y : Word) (hk : k < 8) :
    fcmpWord m k x y =
      (if fcmpTrue k (flush32 (m.ftz == 1) x.toNat) (flush32 (m.ftz == 1) y.toNat) then 1 else 0,
      if (if 2 ≤ k ∧ k ≤ 5 then nan32 (flush32 (m.ftz == 1) x.toNat) ∨ nan32 (flush32 (m.ftz == 1) y.toNat)
        else snan32 (flush32 (m.ftz == 1) x.toNat) ∨ snan32 (flush32 (m.ftz == 1) y.toNat)) then 1 else 0) := by
  have hv : Reads _ (fpVal m x) := reads_flush32 (m.ftz == 1) x.isLt
  have hw : Reads _ (fpVal m y) := reads_flush32 (m.ftz == 1) y.isLt
  obtain ⟨hna, hsa⟩ := hv.isNan
  obtain ⟨hnb, hsb⟩ := hw.isNan
  unfold fcmpWord
  dsimp only
  rw [fcmpHolds_eq hv hw hk, hna, hnb, hsa, hsb]
  by_cases h : 2 ≤ k ∧ k ≤ 5 <;> simp [h, flagIV]

end Sys2Proof.Proofs

/-! ## Seeds -/

namespace Sys2Proof.Proofs

open Sys2Proof Sys2Proof.Machine Sys2Proof.Claims

/-! ### Quotients and roots with a sticky bit -/

/-- The square root by bits. -/
theorem isqrtGo_spec (n i acc : ℕ) (h1 : acc * acc ≤ n) (h2 : n < (acc + 2 ^ i) * (acc + 2 ^ i)) :
    isqrtGo n i acc * isqrtGo n i acc ≤ n ∧ n < (isqrtGo n i acc + 1) * (isqrtGo n i acc + 1) := by
  induction i generalizing acc with
  | zero => exact ⟨h1, h2⟩
  | succ i ih =>
    unfold isqrtGo
    split
    next h =>
      refine ih _ h ?_
      rwa [Nat.add_assoc, ← Nat.two_mul, ← Nat.pow_succ']
    next h => exact ih _ h1 (Nat.lt_of_not_le h)

theorem isqrt_spec {bits n : ℕ} (h : n < 2 ^ bits * 2 ^ bits) :
    isqrt bits n * isqrt bits n ≤ n ∧ n < (isqrt bits n + 1) * (isqrt bits n + 1) :=
  isqrtGo_spec n bits 0 (Nat.zero_le n) (by rwa [Nat.zero_add])

/-- d with the sticky bit st is α cut to a whole number. -/
def Sticky (d st : ℕ) (α : ℝ) : Prop := (st = 0 → α = d) ∧ (st ≠ 0 → st = 1 ∧ d < α ∧ α < d + 1)

theorem sticky_div (N : ℕ) {D : ℕ} (hD : 0 < D) : Sticky (N / D) (if N % D = 0 then 0 else 1) (N / D) := by
  have hD' : (0 : ℝ) < D := by exact_mod_cast hD
  have hdm : (D : ℝ) * (N / D : ℕ) + (N % D : ℕ) = N := by exact_mod_cast Nat.div_add_mod N D
  by_cases h : N % D = 0
  · rw [if_pos h]
    refine ⟨fun _ => ?_, fun h => absurd rfl h⟩
    rw [h, Nat.cast_zero, add_zero] at hdm
    rw [← hdm, mul_div_cancel_left₀ _ hD'.ne']
  · rw [if_neg h]
    refine ⟨fun h => absurd h one_ne_zero, fun _ => ⟨rfl, ?_, ?_⟩⟩
    · have : (0 : ℝ) < (N % D : ℕ) := by exact_mod_cast Nat.pos_of_ne_zero h
      rw [lt_div_iff₀ hD']
      linarith
    · have : ((N % D : ℕ) : ℝ) < D := by exact_mod_cast Nat.mod_lt N hD
      rw [div_lt_iff₀ hD']
      linarith

/-- A number with a sticky bit is cut as the value is, where at least 25 bits stand before it. -/
theorem sameCuts_of_sticky {d st : ℕ} {α : ℝ} (h : Sticky d st α) (hd : 2 ^ 24 ≤ d) (e : ℤ) :
    SameCuts (ilog (2 * d + st) e - 23) (2 * d + st) e (α * 2 ^ (e + 1)) := by
  have hP : (0 : ℝ) < 2 ^ (e + 1) := by positivity
  refine sameCuts_sticky ?_ (fun h0 => by rw [h.1 h0]) fun h1 => ?_
  · have : 25 ≤ Nat.log2 (2 * d + st) := (Nat.le_log2 (by omega)).2 (by omega)
    unfold ilog
    omega
  · obtain ⟨hst, hlo, hhi⟩ := h.2 h1
    exact ⟨hst, mul_lt_mul_of_pos_right hlo hP, mul_lt_mul_of_pos_right hhi hP⟩

/-! ### The set G -/

/-- The neighbours on G of a magnitude below the smallest normal one. -/
theorem seed_neighbours_low {n : ℕ} (h : n < 2 ^ 23) : Neighbours seedGrid seedEven n (2 ^ (-149 : ℤ)) where
  step := by positivity
  negGrid := fun z hz => hz.imp onGrid_neg fun ⟨i, hi, hz⟩ => ⟨-i, by rwa [abs_neg], by rw [hz]; push_cast; ring⟩
  negEven := fun z hz => hz.imp onGrid_neg fun ⟨i, hi, hz⟩ => ⟨-i, by rwa [abs_neg], by rw [hz]; push_cast; ring⟩
  lower := Or.inr ⟨n, by rw [Nat.abs_cast]; exact_mod_cast h.le, by push_cast; rfl⟩
  upper := Or.inr ⟨n + 1, by rw [abs_of_nonneg (by positivity)]; exact_mod_cast h, by push_cast; rfl⟩
  gap := by
    rintro z (⟨i, k, hk, -, rfl⟩ | ⟨i, -, rfl⟩)
    · obtain ⟨j, hj⟩ := zpow_multiple i (show (-149 : ℤ) ≤ k by have := hk _ rfl; omega)
      rw [hj]
      exact multiple_gap j n (by positivity)
    · exact multiple_gap i n (by positivity)
  tie := fun j hj => Or.inr ⟨j, by rw [Nat.abs_cast]; exact_mod_cast (by omega : j ≤ 2 ^ 22), by
    rw [show (-148 : ℤ) = 1 + -149 by norm_num, zpow_add₀ (by norm_num)]
    push_cast
    ring⟩

/-- The neighbours on G of a normal magnitude. -/
theorem seed_neighbours_high {n : ℕ} {q : ℤ} (hq : -140 ≤ q) (h : n < 2 ^ 15) (h' : 2 ^ 14 ≤ n) :
    Neighbours seedGrid seedEven n (2 ^ q) := by
  have hN := onGrid_neighbours (b := 14) (lo := some (-140)) (by rintro p ⟨⟩; exact hq) h (Or.inr h')
  have hlow (i : ℤ) (hi : |i| ≤ 2 ^ 23) : (i : ℝ) * 2 ^ (-149 : ℤ) ≤ n * 2 ^ q := by
    calc (i : ℝ) * 2 ^ (-149 : ℤ) ≤ 2 ^ 23 * 2 ^ (-149 : ℤ) := by
          gcongr
          exact_mod_cast (le_abs_self i).trans hi
      _ = 2 ^ 14 * 2 ^ (-140 : ℤ) := by norm_num
      _ ≤ n * 2 ^ q := by
          gcongr
          · exact_mod_cast h'
          · norm_num
  exact
    { step := by positivity
      negGrid := (seed_neighbours_low (n := 0) (by decide)).negGrid
      negEven := (seed_neighbours_low (n := 0) (by decide)).negEven
      lower := Or.inl hN.lower
      upper := Or.inl hN.upper
      gap := fun z hz => hz.elim (hN.gap z) fun ⟨i, hi, hz⟩ => Or.inl (hz ▸ hlow i hi)
      tie := fun j hj => Or.inl (hN.tie j hj) }

/-! ### Rounding to G -/

/-- The multiple of a place that RNE chooses. -/
def nearestAt (m : ℕ) (e q : ℤ) : ℕ := chosen 0 false (cutAt m e q).1 (cutAt m e q).2

theorem magOf_infBits : magOf .fp32 infBits = 2 ^ (128 : ℤ) := by
  have := magOf_place (f := .fp32) (j := 254) (N := 2 ^ 23) (by decide) (Or.inr le_rfl)
  rw [show infBits = 254 * 2 ^ Fmt.fp32.mb + 2 ^ 23 by rfl, this]
  norm_num [Fmt.qmin, Fmt.bias, Fmt.mb]

section
variable {m : ℕ} (hm : 0 < m) {e : ℤ}

/-- A subnormal seed as it is made. -/
theorem seedRound_low (h : ilog m e < -126) :
    seedRound m e = (nearestAt m e (-149), if (cutAt m e (-149)).2 ≠ 0 then 8 else 0) := by
  unfold seedRound
  dsimp only
  rw [if_pos h, roundAt_eq]
  dsimp only [nearestAt]
  congr 1
  by_cases hc : (cutAt m e (-149)).2 = 0 <;> simp [hc, flagUF]

/-- What is cut below half a step under a whole number is rounded below it. -/
theorem nearest_lt {m : ℕ} {e q : ℤ} {X : ℝ} {N : ℕ} (hc : Cuts (cutAt m e q).1 (cutAt m e q).2 X) (hX : X < N - 1 / 2) :
    nearestAt m e q < N := by
  unfold nearestAt chosen
  have hle := hc.le
  have hlt : (cutAt m e q).1 < N := by
    have : ((cutAt m e q).1 : ℝ) < N := by linarith
    exact_mod_cast this
  split
  next hup =>
    refine lt_of_le_of_ne hlt fun heq => ?_
    have hN : (N : ℝ) = (cutAt m e q).1 + 1 := by rw [← heq]; push_cast; rfl
    have hX' : X < (cutAt m e q).1 + 1 / 2 := by linarith
    rcases hc with ⟨h, -⟩ | ⟨h, -⟩ | ⟨-, h⟩ | ⟨-, h, -⟩
    · rw [h] at hup
      simp [roundsUp] at hup
    · rw [h] at hup
      simp [roundsUp] at hup
    · linarith
    · linarith
  next => exact hlt

/-- A value is chosen for itself just where nothing was cut off. -/
theorem nearest_exact {m : ℕ} {e q : ℤ} {X : ℝ} (hc : Cuts (cutAt m e q).1 (cutAt m e q).2 X) :
    (nearestAt m e q : ℝ) = X ↔ (cutAt m e q).2 = 0 := by
  refine ⟨fun h => ?_, fun h => ?_⟩
  · have hlt : nearestAt m e q < (cutAt m e q).1 + 1 := by
      have := hc.lt
      rw [← h] at this
      exact_mod_cast this
    have heq : nearestAt m e q = (cutAt m e q).1 := le_antisymm (Nat.le_of_lt_succ hlt) (chosen_bounds 0 false _ _).1
    rw [hc.zero_iff, ← h, heq]
  · unfold nearestAt
    rw [h, chosen_exact, hc.zero_iff.1 h]

/-- The encoding of a normal member of G. -/
def seedBits (m : ℕ) (e : ℤ) : ℕ := (ilog m e + 126).toNat * 2 ^ 23 + nearestAt m e (ilog m e - 14) * 2 ^ 9

theorem seedRound_high (h : -126 ≤ ilog m e) :
    seedRound m e = if infBits ≤ seedBits m e then (infBits, 4) else (seedBits m e, 0) := by
  unfold seedRound seedBits
  dsimp only
  rw [if_neg (by omega), roundAt_eq, show ilog m e - 14 + 140 = ilog m e + 126 by ring]
  rfl

include hm

theorem nearest_bounds : 2 ^ 14 ≤ nearestAt m e (ilog m e - 14) ∧ nearestAt m e (ilog m e - 14) ≤ 2 ^ 15 := by
  obtain ⟨h1, h2⟩ := cutAt_top hm e 14
  obtain ⟨h3, h4⟩ := chosen_bounds 0 false (cutAt m e (ilog m e - (14 : ℕ))).1 (cutAt m e (ilog m e - (14 : ℕ))).2
  exact ⟨h1.trans h3, h4.trans h2⟩

theorem seedBits_normal : 2 ^ 23 ≤ seedBits m e := by
  obtain ⟨h1, -⟩ := nearest_bounds hm (e := e)
  unfold seedBits
  omega

theorem magOf_seedBits (h : -126 ≤ ilog m e) :
    magOf .fp32 (seedBits m e) = nearestAt m e (ilog m e - 14) * 2 ^ (ilog m e - 14) := by
  obtain ⟨h1, h2⟩ := nearest_bounds hm (e := e)
  unfold seedBits
  have := magOf_place (f := .fp32) (j := (ilog m e + 126).toNat) (N := nearestAt m e (ilog m e - 14) * 2 ^ 9)
    (by change _ ≤ 2 ^ 24; omega) (Or.inr (by change 2 ^ 23 ≤ _; omega))
  refine this.trans ?_
  rw [Int.toNat_of_nonneg (by omega), show Fmt.fp32.qmin + (ilog m e + 126) = -9 + (ilog m e - 14) by
    change -149 + (ilog m e + 126) = _; ring, zpow_add₀ (by norm_num)]
  push_cast
  norm_num
  ring

end

/-- A seed with its sign, a subnormal one flushed under FTZ (R203). -/
def seedResult (ftz neg : Bool) (r : ℕ × ℕ) : ℕ × ℕ :=
  if (ftz && r.1 != 0 && decide (r.1 < 2 ^ 23)) = true then (signBit .fp32 neg, 8) else (signBit .fp32 neg + r.1, r.2)

/-- The sign bit as the rules write it. -/
theorem signBit_number {neg : Bool} {A : ℝ} (hA : 0 < A) {n : ℕ} (h : (signed neg : ℝ) * A < 0 ↔ n = 1) (hn : n ≤ 1) :
    n * 2 ^ 31 = signBit .fp32 neg := by
  cases neg
  · have : n ≠ 1 := fun h1 => absurd (h.2 h1) (by simpa [signed] using hA.le)
    obtain rfl : n = 0 := by omega
    rfl
  · obtain rfl : n = 1 := h.1 (by simpa [signed] using hA)
    rfl

/-- A positive normal seed is left as it is. -/
theorem seedResult_normal {m : ℕ} (hm : 0 < m) {e : ℤ} (h : -126 ≤ ilog m e) (ftz : Bool) :
    seedResult ftz false (seedRound m e) = seedRound m e := by
  have hbits := seedBits_normal hm (e := e)
  have hlarge : 2 ^ 23 ≤ (seedRound m e).1 := by
    rw [seedRound_high h]
    split
    · decide
    · exact hbits
  unfold seedResult
  rw [if_neg fun hsub => absurd (of_decide_eq_true (Bool.and_eq_true_iff.1 hsub).2) (not_lt.2 hlarge)]
  exact Prod.ext (Nat.zero_add _) rfl

section
variable {m : ℕ} {e : ℤ} {A : ℝ} (hA : SameCuts (ilog m e - 23) m e A)
include hA

/-- A subnormal seed (R203), where the value is not so close to the smallest normal magnitude that it rounds to it. -/
theorem seedOf_low (ftz neg : Bool) (h : ilog m e < -126) (hlow : (2 : ℝ) ^ (-128 : ℤ) ≤ A)
    (hgap : A < (2 ^ 23 - 1 / 2) * 2 ^ (-149 : ℤ)) : SeedOf ftz (signed neg * A) (seedResult ftz neg (seedRound m e)) := by
  have hP : (0 : ℝ) < 2 ^ (-149 : ℤ) := by positivity
  have hA0 : 0 < A := lt_of_lt_of_le (by positivity) hlow
  have hc := hA (-149) (by omega)
  have hAX : A = A * 2 ^ (-(-149 : ℤ)) * 2 ^ (-149 : ℤ) := by
    rw [mul_assoc, ← zpow_add₀ (by norm_num), neg_add_cancel, zpow_zero, mul_one]
  generalize A * 2 ^ (-(-149 : ℤ)) = X at hc hAX
  rw [hAX, mul_lt_mul_iff_left₀ hP] at hgap
  have hX21 : (2 : ℝ) ^ 21 ≤ X := by
    rw [hAX, show (2 : ℝ) ^ (-128 : ℤ) = 2 ^ 21 * 2 ^ (-149 : ℤ) by norm_num, mul_le_mul_iff_left₀ hP] at hlow
    exact hlow
  have hn : (cutAt m e (-149)).1 < 2 ^ 23 := by
    have : ((cutAt m e (-149)).1 : ℝ) < 2 ^ 23 := by linarith [hc.le]
    exact_mod_cast this
  have hn0 : 0 < (cutAt m e (-149)).1 := by
    have : (0 : ℝ) < (cutAt m e (-149)).1 := by linarith [hc.lt]
    exact_mod_cast this
  have hr0 : 0 < nearestAt m e (-149) := hn0.trans_le (chosen_bounds 0 false _ _).1
  have hr : nearestAt m e (-149) < 2 ^ 23 := nearest_lt hc (by exact_mod_cast hgap)
  have hmag : magOf .fp32 (nearestAt m e (-149)) = nearestAt m e (-149) * 2 ^ (-149 : ℤ) := magOf_small hr
  have hpick := picked_of_cuts (rm := 0) (neg := neg) (by decide) (seed_neighbours_low hn) hc
  rw [← hAX] at hpick
  change Picked seedGrid seedEven 0 (signed neg * A) (signed neg * (nearestAt m e (-149) * 2 ^ (-149 : ℤ))) at hpick
  rw [← hmag] at hpick
  have htiny : magOf .fp32 (nearestAt m e (-149)) < 2 ^ (-126 : ℤ) := by
    have h126 : magOf .fp32 (2 ^ 23) = 2 ^ (-126 : ℤ) := magOf_leastNormal .fp32
    rw [← h126]
    exact magOf_strictMono _ hr
  have hexact : (signed neg : ℝ) * magOf .fp32 (nearestAt m e (-149)) ≠ signed neg * A ↔ (cutAt m e (-149)).2 ≠ 0 := by
    rw [not_iff_not, signed_mul_inj, hmag, hAX, mul_left_inj' hP.ne']
    exact nearest_exact hc
  refine ⟨_, hpick, ?_⟩
  dsimp only
  rw [abs_signed_mul neg (magOf_nonneg _ _), seedRound_low h, hexact]
  have hsmall : ¬ (2 : ℝ) ^ 128 ≤ magOf .fp32 (nearestAt m e (-149)) := by
    refine not_le.2 (htiny.trans ?_)
    norm_num
  refine ⟨fun hbig => absurd hbig hsmall, fun ht n hn hn1 => ?_, fun _ hf => ?_⟩
  · rw [signBit_number hA0 hn hn1]
    unfold seedResult
    exact if_pos (Bool.and_eq_true_iff.2 ⟨Bool.and_eq_true_iff.2 ⟨ht.2, bne_iff_ne.2 hr0.ne'⟩, decide_eq_true hr⟩)
  · have hftz : ftz = false := by simpa using fun h => hf ⟨htiny, h⟩
    have hle : nearestAt m e (-149) ≤ Fmt.fp32.maxBits := hr.le.trans (by decide)
    unfold seedResult
    rw [hftz, if_neg (by simp)]
    refine ⟨(fields_signBit .fp32 neg (hle.trans_lt (maxBits_lt _))).2.2.2, stands_magOf .fp32 neg hle, fun hh => if_pos hh.2,
      fun hh => if_neg fun hcut => hh ⟨htiny, hcut⟩⟩

/-- A seed in the normal range (R203). -/
theorem seedOf_high (hm : 0 < m) (ftz neg : Bool) (h : -126 ≤ ilog m e) :
    SeedOf ftz (signed neg * A) (seedResult ftz neg (seedRound m e)) := by
  obtain ⟨hA1, -⟩ := sameCuts_binade .fp32 hm e hA
  have hA0 : 0 < A := lt_of_lt_of_le (by positivity) hA1
  obtain ⟨h14, h15⟩ := cutAt_top hm e 14
  have hpick := picked_of_cuts (rm := 0) (neg := neg) (by decide)
    (seed_neighbours_high (q := ilog m e - 14) (by omega) h15 h14) (hA (ilog m e - 14) (by omega))
  rw [mul_assoc A, ← zpow_add₀ (by norm_num), neg_add_cancel, zpow_zero, mul_one] at hpick
  change Picked seedGrid seedEven 0 (signed neg * A) (signed neg * (nearestAt m e (ilog m e - 14) * 2 ^ (ilog m e - 14))) at hpick
  rw [← magOf_seedBits hm h] at hpick
  have hbits := seedBits_normal hm (e := e)
  have hnormal : (2 : ℝ) ^ (-126 : ℤ) ≤ magOf .fp32 (seedBits m e) := by
    have h126 : magOf .fp32 (2 ^ 23) = 2 ^ (-126 : ℤ) := magOf_leastNormal .fp32
    rw [← h126]
    exact (magOf_strictMono _).monotone hbits
  have hover : (2 : ℝ) ^ 128 ≤ magOf .fp32 (seedBits m e) ↔ infBits ≤ seedBits m e := by
    rw [← (magOf_strictMono .fp32).le_iff_le, magOf_infBits]
    norm_cast
  refine ⟨_, hpick, ?_⟩
  dsimp only
  rw [abs_signed_mul neg (magOf_nonneg _ _), seedRound_high h, hover]
  refine ⟨fun hi n hn hn1 => ?_, fun ht => absurd hnormal (not_le.2 ht.1), fun hlt _ => ?_⟩
  · rw [if_pos hi, signBit_number hA0 hn hn1]
    unfold seedResult
    exact if_neg (by simp [infBits])
  · have hres : seedResult ftz neg (seedBits m e, 0) = (signBit .fp32 neg + seedBits m e, 0) := by
      unfold seedResult
      exact if_neg fun hsub => absurd (of_decide_eq_true (Bool.and_eq_true_iff.1 hsub).2) (not_lt.2 hbits)
    have hi : ¬ infBits ≤ seedBits m e := hover.not.1 (not_le.2 hlt)
    have hle : seedBits m e ≤ Fmt.fp32.maxBits := Nat.le_of_lt_succ (not_le.1 hi)
    rw [if_neg hi, hres]
    exact ⟨(fields_signBit .fp32 neg (hle.trans_lt (maxBits_lt _))).2.2.2, stands_magOf .fp32 neg hle,
      fun ht => absurd hnormal (not_le.2 ht.1), fun _ => rfl⟩

end

/-! ### Reciprocals -/

/-- 1/x and 1/sqrt(x) of a value that was read. -/
def rcpOf (ftz : Bool) : FVal → ℕ × ℕ
  | .nan s => (0x7FC00000, if s then flagIV else 0)
  | .inf neg => (signBit .fp32 neg, 0)
  | .fin neg m e =>
    if m = 0 then (signBit .fp32 neg + 0x7F800000, flagDZ)
    else seedResult ftz neg (seedRound (2 * (2 ^ 80 / m) + if 2 ^ 80 % m = 0 then 0 else 1) (-e - 81))

theorem fRcp_eq (ftz : Bool) (x : ℕ) : fRcp ftz x = rcpOf ftz (Fmt.fp32.valFtz ftz x) := by
  unfold fRcp
  cases Fmt.fp32.valFtz ftz x <;> rfl

/-- The significand of an operand other than zero has at most 24 bits. -/
theorem sigOf_bounds {b : ℕ} (h0 : 0 < b) :
    0 < sigOf .fp32 b ∧ sigOf .fp32 b < 2 ^ 24 := by
  refine ⟨sigOf_pos h0, ?_⟩
  unfold sigOf
  split
  next h => exact ((Nat.div_eq_zero_iff.1 h).resolve_left (by decide)).trans (by decide)
  next => exact Nat.add_lt_add_left (Nat.mod_lt b (by decide)) (2 ^ 23)

/-- The reciprocal of a magnitude is its quotient with a sticky bit (R203). -/
theorem rcp_sticky {m : ℕ} (hm : 0 < m) (e : ℤ) : 1 / ((m : ℝ) * 2 ^ e) = ((2 ^ 80 : ℕ) : ℝ) / m * 2 ^ (-e - 81 + 1) := by
  have hm' : (m : ℝ) ≠ 0 := by exact_mod_cast hm.ne'
  rw [show -e - 81 + 1 = -e + -80 by ring, zpow_add₀ (by norm_num), zpow_neg]
  push_cast
  field_simp
  norm_num

/-- A reciprocal below the smallest normal magnitude lies half a step and more below it. -/
theorem rcp_gap {b : ℕ} (h0 : 0 < b) (h : 1 / magOf .fp32 b < 2 ^ (-126 : ℤ)) :
    1 / magOf .fp32 b < (2 ^ 23 - 1 / 2) * 2 ^ (-149 : ℤ) := by
  have hpos : 0 < magOf .fp32 b := by
    rw [← magOf_zero .fp32]
    exact magOf_strictMono _ h0
  have hbase (N : ℕ) (hN : 2 ^ 23 ≤ N) (hN' : N ≤ 2 ^ 24) : magOf .fp32 (252 * 2 ^ 23 + N) = N * 2 ^ (103 : ℤ) := by
    refine (magOf_place (f := .fp32) (j := 252) hN' (Or.inr hN)).trans ?_
    congr 1
  have hb : 252 * 2 ^ 23 + 2 ^ 23 < b := by
    rw [← (magOf_strictMono .fp32).lt_iff_lt, hbase _ le_rfl (by decide)]
    rw [one_div, inv_lt_comm₀ hpos (by positivity)] at h
    refine lt_of_eq_of_lt ?_ h
    norm_num
  have hM : ((2 ^ 23 + 1 : ℕ) : ℝ) * 2 ^ (103 : ℤ) ≤ magOf .fp32 b := by
    rw [← hbase _ (by decide) (by decide)]
    exact (magOf_strictMono _).monotone hb
  rw [one_div, inv_lt_comm₀ hpos (by norm_num)]
  refine lt_of_lt_of_le ?_ hM
  norm_num

/-- The seed of a reciprocal (R203). -/
theorem rcp_seed (ftz neg : Bool) {b : ℕ} (hb : b < infBits) (h0 : 0 < b) :
    SeedOf ftz (1 / (signed neg * magOf .fp32 b)) (rcpOf ftz (.fin neg (sigOf .fp32 b) (powOf .fp32 b))) := by
  obtain ⟨hm, hm24⟩ := sigOf_bounds h0
  have hsign : 1 / ((signed neg : ℝ) * magOf .fp32 b) = signed neg * (1 / magOf .fp32 b) := by
    cases neg
    · simp [signed]
    · rw [show ((signed true : ℤ) : ℝ) = -1 by simp [signed]]
      ring
  have hd : 2 ^ 24 ≤ 2 ^ 80 / sigOf .fp32 b := (Nat.le_div_iff_mul_le hm).2 (by
    calc 2 ^ 24 * sigOf .fp32 b ≤ 2 ^ 24 * 2 ^ 24 := Nat.mul_le_mul_left _ hm24.le
      _ ≤ 2 ^ 80 := by norm_num)
  have hcuts := sameCuts_of_sticky (sticky_div (2 ^ 80) hm) hd (-powOf .fp32 b - 81)
  rw [← rcp_sticky hm, ← magOf_eq] at hcuts
  have hpos : 0 < 2 * (2 ^ 80 / sigOf .fp32 b) + if 2 ^ 80 % sigOf .fp32 b = 0 then 0 else 1 := by omega
  have hval : rcpOf ftz (.fin neg (sigOf .fp32 b) (powOf .fp32 b)) = seedResult ftz neg
      (seedRound (2 * (2 ^ 80 / sigOf .fp32 b) + if 2 ^ 80 % sigOf .fp32 b = 0 then 0 else 1) (-powOf .fp32 b - 81)) := if_neg hm.ne'
  rw [hval, hsign]
  generalize (2 * (2 ^ 80 / sigOf .fp32 b) + if 2 ^ 80 % sigOf .fp32 b = 0 then 0 else 1) = m at hcuts hpos ⊢
  rcases le_or_gt (-126) (ilog m (-powOf .fp32 b - 81)) with h | h
  · exact seedOf_high hcuts hpos ftz neg h
  · have hM0 : 0 < magOf .fp32 b := by
      rw [← magOf_zero .fp32]
      exact magOf_strictMono _ h0
    refine seedOf_low hcuts ftz neg h ?_ (rcp_gap h0 ?_)
    · rw [one_div, le_inv_comm₀ (by positivity) hM0, zpow_neg, inv_inv, ← magOf_infBits]
      exact (magOf_strictMono _).monotone hb.le
    · refine (sameCuts_binade .fp32 hpos _ hcuts).2.trans_le ?_
      exact zpow_le_zpow_right₀ (by norm_num) (by omega)

/-! ### Reciprocal square roots -/

/-- m * 2^e with an even exponent. -/
def evenSig (m : ℕ) (e : ℤ) : ℕ := if e % 2 = 0 then m else 2 * m
def evenPow (e : ℤ) : ℤ := if e % 2 = 0 then e else e - 1

/-- A root by bits, and its sticky bit (R203). -/
def rootOf (m : ℕ) : ℕ := isqrt 81 (2 ^ 160 / m)
def rootSticky (m : ℕ) : ℕ := if rootOf m * rootOf m * m = 2 ^ 160 then 0 else 1

def rsqOf : FVal → ℕ × ℕ
  | .nan s => (0x7FC00000, if s then flagIV else 0)
  | .inf neg => if neg then (0x7FC00000, flagIV) else (0, 0)
  | .fin neg m e =>
    if m = 0 then (signBit .fp32 neg + 0x7F800000, flagDZ)
    else if neg then (0x7FC00000, flagIV)
    else seedRound (2 * rootOf (evenSig m e) + rootSticky (evenSig m e)) (-(evenPow e / 2) - 81)

theorem fRsq_eq (ftz : Bool) (x : ℕ) : fRsq ftz x = rsqOf (Fmt.fp32.valFtz ftz x) := by
  unfold fRsq
  cases Fmt.fp32.valFtz ftz x <;> rfl

theorem rsqOf_pos {m : ℕ} (hm : m ≠ 0) (e : ℤ) : rsqOf (.fin false m e) =
    seedRound (2 * rootOf (evenSig m e) + rootSticky (evenSig m e)) (-(evenPow e / 2) - 81) := by
  simp only [rsqOf]
  rw [if_neg hm, if_neg Bool.false_ne_true]

theorem even_magnitude (m : ℕ) (e : ℤ) : (m : ℝ) * 2 ^ e = evenSig m e * 2 ^ (2 * (evenPow e / 2)) := by
  unfold evenSig evenPow
  split
  next h => rw [Int.mul_ediv_cancel' (Int.dvd_of_emod_eq_zero h)]
  next h =>
    rw [Int.mul_ediv_cancel' (Int.dvd_of_emod_eq_zero (by omega)), zpow_sub_one₀ (by norm_num)]
    push_cast
    ring

/-- The root by bits is the real root cut to a whole number. -/
theorem root_sticky {m : ℕ} (hm : 0 < m) : Sticky (rootOf m) (rootSticky m) (Real.sqrt (((2 ^ 160 : ℕ) : ℝ) / m)) := by
  have hm' : (0 : ℝ) < m := by exact_mod_cast hm
  have hz : 2 ^ 160 / m < 2 ^ 81 * 2 ^ 81 := (Nat.div_le_self _ _).trans_lt (by norm_num)
  obtain ⟨hlo, hhi⟩ := isqrt_spec hz
  have hlo' : rootOf m * rootOf m * m ≤ 2 ^ 160 := (Nat.le_div_iff_mul_le hm).1 hlo
  have hhi' : 2 ^ 160 < (rootOf m + 1) * (rootOf m + 1) * m := (Nat.div_lt_iff_lt_mul hm).1 hhi
  unfold rootSticky
  generalize 2 ^ 160 = N at hlo' hhi' ⊢
  generalize rootOf m = t at hlo' hhi' ⊢
  by_cases h : t * t * m = N
  · rw [if_pos h]
    refine ⟨fun _ => ?_, fun h => absurd rfl h⟩
    rw [← h]
    push_cast
    rw [mul_div_cancel_right₀ _ hm'.ne', Real.sqrt_mul_self (Nat.cast_nonneg t)]
  · rw [if_neg h]
    refine ⟨fun h => absurd h one_ne_zero, fun _ => ⟨rfl, ?_, ?_⟩⟩
    · rw [Real.lt_sqrt (Nat.cast_nonneg t), lt_div_iff₀ hm', pow_two]
      exact_mod_cast lt_of_le_of_ne hlo' h
    · rw [Real.sqrt_lt' (by positivity), div_lt_iff₀ hm', pow_two]
      exact_mod_cast hhi'

theorem rootOf_large {n : ℕ} (h : 2 ^ 135 ≤ 2 ^ 160 / n) : 2 ^ 24 ≤ rootOf n := by
  have hz : 2 ^ 160 / n < 2 ^ 81 * 2 ^ 81 := (Nat.div_le_self _ _).trans_lt (by norm_num)
  obtain ⟨-, hhi⟩ := isqrt_spec hz
  change 2 ^ 160 / n < (rootOf n + 1) * (rootOf n + 1) at hhi
  by_contra hlt
  have hsq : (rootOf n + 1) * (rootOf n + 1) ≤ 2 ^ 24 * 2 ^ 24 := Nat.mul_self_le_mul_self (by omega)
  exact absurd (h.trans_lt (hhi.trans_le hsq)) (by norm_num)

/-- The reciprocal square root of a magnitude is a root with a sticky bit (R203). -/
theorem rsq_sticky {m : ℕ} (hm : 0 < m) (h : ℤ) :
    1 / Real.sqrt (m * 2 ^ (2 * h)) = Real.sqrt (((2 ^ 160 : ℕ) : ℝ) / m) * 2 ^ (-h - 81 + 1) := by
  have hm' : (0 : ℝ) < m := by exact_mod_cast hm
  have hs : (0 : ℝ) < Real.sqrt m := Real.sqrt_pos.2 hm'
  have h1 : Real.sqrt ((2 : ℝ) ^ (2 * h)) = 2 ^ h := by
    rw [mul_comm, zpow_mul, zpow_ofNat, Real.sqrt_sq (by positivity)]
  have h2 : Real.sqrt ((2 ^ 160 : ℕ) : ℝ) = 2 ^ 80 := by
    rw [show ((2 ^ 160 : ℕ) : ℝ) = (2 ^ 80) ^ 2 by norm_num, Real.sqrt_sq (by positivity)]
  rw [Real.sqrt_mul hm'.le, h1, Real.sqrt_div (Nat.cast_nonneg _), h2, show -h - 81 + 1 = -h + -80 by ring,
    zpow_add₀ (by norm_num), zpow_neg]
  field_simp

/-- The seed of a reciprocal square root (R203). -/
theorem rsq_seed (ftz : Bool) {b : ℕ} (hb : b < infBits) (h0 : 0 < b) :
    SeedOf ftz (1 / Real.sqrt (magOf .fp32 b)) (rsqOf (.fin false (sigOf .fp32 b) (powOf .fp32 b))) := by
  obtain ⟨hm, hm24⟩ := sigOf_bounds h0
  have hmag := even_magnitude (sigOf .fp32 b) (powOf .fp32 b)
  rw [← magOf_eq] at hmag
  have heven : 0 < evenSig (sigOf .fp32 b) (powOf .fp32 b) ∧ evenSig (sigOf .fp32 b) (powOf .fp32 b) < 2 ^ 25 := by
    unfold evenSig
    split <;> omega
  rw [rsqOf_pos hm.ne']
  generalize evenSig (sigOf .fp32 b) (powOf .fp32 b) = n at heven hmag ⊢
  generalize evenPow (powOf .fp32 b) / 2 = h at hmag ⊢
  have hroot : 2 ^ 24 ≤ rootOf n := by
    have hz : 2 ^ 135 ≤ 2 ^ 160 / n := (Nat.le_div_iff_mul_le heven.1).2 (by
      calc 2 ^ 135 * n ≤ 2 ^ 135 * 2 ^ 25 := Nat.mul_le_mul_left _ heven.2.le
        _ = 2 ^ 160 := by norm_num)
    exact rootOf_large hz
  have hcuts := sameCuts_of_sticky (root_sticky heven.1) hroot (-h - 81)
  rw [← rsq_sticky heven.1, ← hmag] at hcuts
  have hpos : 0 < 2 * rootOf n + rootSticky n := by omega
  generalize 2 * rootOf n + rootSticky n = m at hcuts hpos ⊢
  have hlow : (2 : ℝ) ^ (-64 : ℤ) ≤ 1 / Real.sqrt (magOf .fp32 b) := by
    have hM : magOf .fp32 b ≤ (2 ^ 64) ^ 2 := by
      rw [show ((2 : ℝ) ^ 64) ^ 2 = 2 ^ (128 : ℤ) by norm_num, ← magOf_infBits]
      exact (magOf_strictMono _).monotone hb.le
    have hM0 : 0 < magOf .fp32 b := by
      rw [← magOf_zero .fp32]
      exact magOf_strictMono _ h0
    rw [one_div, le_inv_comm₀ (by positivity) (Real.sqrt_pos.2 hM0), zpow_neg, inv_inv]
    exact (Real.sqrt_le_left (by positivity)).2 hM
  have hk : -126 ≤ ilog m (-h - 81) := by
    by_contra hk
    have := (sameCuts_binade .fp32 hpos _ hcuts).2
    have h126 : (2 : ℝ) ^ (ilog m (-h - 81) + 1) ≤ 2 ^ (-64 : ℤ) := zpow_le_zpow_right₀ (by norm_num) (by omega)
    exact absurd (this.trans_le (h126.trans hlow)) (lt_irrefl _)
  have hseed := seedOf_high hcuts hpos ftz false hk
  rwa [seedResult_normal hpos hk, show ((signed false : ℤ) : ℝ) = 1 by simp [signed], one_mul] at hseed

/-! ### Special operands -/

theorem flush32_lt (ftz : Bool) {x : ℕ} (hx : x < 2 ^ 32) : flush32 ftz x < 2 ^ 32 := by
  unfold flush32
  split <;> omega

/-- A sign and a number without sign are one encoding. -/
theorem signBit_inj {n k : Bool} {b c : ℕ} (hb : b ≤ infBits) (hc : c ≤ infBits)
    (h : signBit .fp32 n + b = signBit .fp32 k + c) : n = k ∧ b = c := by
  rw [signBit_cases, signBit_cases] at h
  unfold infBits at hb hc
  cases n <;> cases k <;> simp only [if_true, Bool.false_eq_true, if_false] at h
  · exact ⟨rfl, by omega⟩
  · omega
  · omega
  · exact ⟨rfl, by omega⟩

/-- How an encoding that is no NaN is read. -/
theorem Reads.code {n : Bool} {b : ℕ} {v : FVal} (hb : b ≤ infBits) (h : Reads (signBit .fp32 n + b) v) :
    (b = infBits ∧ v = .inf n) ∨ (b < infBits ∧ ∃ m e, v = .fin n m e ∧ ((m = sigOf .fp32 b ∧ e = powOf .fp32 b) ∨ (b = 0 ∧ m = 0))) := by
  generalize ha : signBit .fp32 n + b = a at h
  cases h with
  | fin k hc hv =>
    obtain ⟨rfl, rfl⟩ := signBit_inj hb hc.le ha
    exact Or.inr ⟨hc, _, _, rfl, hv⟩
  | inf k =>
    obtain ⟨rfl, rfl⟩ := signBit_inj hb le_rfl ha
    exact Or.inl ⟨rfl, rfl⟩
  | nan h =>
    rw [← ha, nan32_signBit n hb] at h
    cases h

theorem Reads.zero {n : Bool} {v : FVal} (h : Reads (signBit .fp32 n + 0) v) : ∃ e, v = .fin n 0 e := by
  rcases h.code (Nat.zero_le _) with ⟨h, -⟩ | ⟨-, m, e, rfl, hv⟩
  · exact absurd h (by decide)
  · refine ⟨e, ?_⟩
    rcases hv with ⟨rfl, -⟩ | ⟨-, rfl⟩
    · simp [sigOf]
    · rfl

theorem Reads.infinity {n : Bool} {v : FVal} (h : Reads (signBit .fp32 n + infBits) v) : v = .inf n := by
  rcases h.code le_rfl with ⟨-, h⟩ | ⟨h, -⟩
  · exact h
  · exact absurd h (lt_irrefl _)

/-- A finite operand other than zero. -/
theorem Reads.positive {n : Bool} {b : ℕ} {v : FVal} (hb : b < infBits) (h0 : 0 < b) (h : Reads (signBit .fp32 n + b) v) :
    v = .fin n (sigOf .fp32 b) (powOf .fp32 b) := by
  rcases h.code hb.le with ⟨h, -⟩ | ⟨-, m, e, rfl, ⟨rfl, rfl⟩ | ⟨h, -⟩⟩
  · exact absurd h hb.ne
  · rfl
  · exact absurd h h0.ne'

theorem Reads.ofNan {a : ℕ} {v : FVal} (h : Reads a v) (hn : nan32 a = true) : v = .nan (snan32 a) := by
  obtain ⟨h1, h2⟩ := h.isNan
  rw [hn] at h1
  cases v with
  | nan s => exact congrArg FVal.nan h2
  | inf neg => cases h1
  | fin neg m e => cases h1

/-- An encoding that stands for a real value. -/
theorem stands_code {a : ℕ} {v : ℝ} (ha : a < 2 ^ 32) (h : Stands .fp32 a v) :
    ∃ n, ∃ b < infBits, a = signBit .fp32 n + b ∧ v = signed n * magOf .fp32 b := by
  obtain ⟨b, hb, hab⟩ := encoding_eq .fp32 ha
  have hs := h.1
  rw [hab, special_iff .fp32 _ hb, Nat.not_lt] at hs
  refine ⟨signOf .fp32 a, b, Nat.lt_succ_of_le hs, hab, stands_unique h ?_⟩
  have := stands_magOf .fp32 (signOf .fp32 a) hs
  rwa [← hab] at this

/-- The seeds of frcp and frsq (R203). -/
theorem seeds (ftz : Bool) {x : ℕ} (hx : x < 2 ^ 32) :
    let a := flush32 ftz x
    (nan32 a = true → fRcp ftz x = (0x7FC00000, if snan32 a then 1 else 0) ∧ fRsq ftz x = fRcp ftz x) ∧
    (a = 0 → fRcp ftz x = (0x7F800000, 2) ∧ fRsq ftz x = (0x7F800000, 2)) ∧
    (a = 0x80000000 → fRcp ftz x = (0xFF800000, 2) ∧ fRsq ftz x = (0xFF800000, 2)) ∧
    (a = 0x7F800000 → fRcp ftz x = (0, 0) ∧ fRsq ftz x = (0, 0)) ∧
    (a = 0xFF800000 → fRcp ftz x = (0x80000000, 0)) ∧ (0x80000000 < a → a ≤ 0xFF800000 → fRsq ftz x = (0x7FC00000, 1)) ∧
    ∀ v, Stands .fp32 a v → v ≠ 0 → SeedOf ftz (1 / v) (fRcp ftz x) ∧ (0 < v → SeedOf ftz (1 / Real.sqrt v) (fRsq ftz x)) := by
  have hread := reads_flush32 ftz hx
  have hlt := flush32_lt ftz hx
  intro a
  rw [fRcp_eq, fRsq_eq]
  change Reads a _ at hread
  change a < 2 ^ 32 at hlt
  generalize Fmt.fp32.valFtz ftz x = w at hread ⊢
  generalize a = c at hread hlt ⊢
  refine ⟨fun h => ?_, fun h => ?_, fun h => ?_, fun h => ?_, fun h => ?_, fun h h' => ?_, fun v hv hv0 => ?_⟩
  · rw [hread.ofNan h]
    exact ⟨rfl, rfl⟩
  · obtain ⟨e, rfl⟩ := Reads.zero (n := false) (by rwa [h] at hread)
    exact ⟨rfl, rfl⟩
  · obtain ⟨e, rfl⟩ := Reads.zero (n := true) (by rwa [h] at hread)
    exact ⟨rfl, rfl⟩
  · obtain rfl := Reads.infinity (n := false) (by rwa [h] at hread)
    exact ⟨rfl, rfl⟩
  · obtain rfl := Reads.infinity (n := true) (by rwa [h] at hread)
    rfl
  · obtain ⟨b, rfl⟩ : ∃ b, c = signBit .fp32 true + b := ⟨c - 2 ^ 31, by rw [signBit_cases, if_pos rfl]; omega⟩
    have hb0 : 0 < b := by rw [signBit_cases, if_pos rfl] at h; omega
    have hb : b ≤ infBits := by rw [signBit_cases, if_pos rfl] at h'; unfold infBits; omega
    rcases Nat.lt_or_eq_of_le hb with hb | rfl
    · rw [hread.positive hb hb0]
      exact (if_neg (sigOf_pos hb0).ne').trans (if_pos rfl)
    · rw [hread.infinity]
      rfl
  · obtain ⟨n, b, hb, rfl, rfl⟩ := stands_code hlt hv
    have hb0 : 0 < b := Nat.pos_of_ne_zero fun h => hv0 (by rw [h, magOf_zero, mul_zero])
    rw [hread.positive hb hb0]
    refine ⟨rcp_seed ftz n hb hb0, fun hpos => ?_⟩
    cases n
    · rw [show ((signed false : ℤ) : ℝ) = 1 by simp [signed], one_mul]
      exact rsq_seed ftz hb hb0
    · have := magOf_nonneg .fp32 b
      rw [show ((signed true : ℤ) : ℝ) = -1 by simp [signed]] at hpos
      linarith

end Sys2Proof.Proofs

/-! ## Conversions, the pairwise tree, and the scales of Q4N -/

namespace Sys2Proof.Proofs

open Sys2Proof Sys2Proof.Machine Sys2Proof.Claims

/-! ### One element (R75) -/

theorem convF_nan (f : Fmt) (rm : ℕ) (sat nof ftz sg : Bool) :
    convF f rm sat nof ftz (.nan sg) = if f = .e2m1 then (0, 1) else (f.nanBits, if sg then 1 else 0) := by
  cases f <;> rfl

theorem convF_inf (f : Fmt) (rm : ℕ) (sat nof ftz neg : Bool) :
    convF f rm sat nof ftz (.inf neg) = (if f = .e4m3 then (if nof then 0x7F else signBit f neg + 0x7E)
      else if f = .e2m1 then signBit f neg + 7 else signBit f neg + (2 ^ f.eb - 1) * 2 ^ f.mb, 0) := by
  cases f
  case e4m3 => cases nof <;> rfl
  all_goals rfl

/-- The sign of a converted zero is the mode's (log entry 80). -/
theorem convF_zero (f : Fmt) (rm : ℕ) (sat nof ftz neg : Bool) (e : ℤ) :
    convF f rm sat nof ftz (.fin neg 0 e) = (if rm = 3 then 2 ^ (f.eb + f.mb) else 0, 0) := by
  have hz : convZero rm (.fin neg 0 e) = .fin (rm == 3) 0 0 := rfl
  have hs : signBit f (rm == 3) = if rm = 3 then 2 ^ (f.eb + f.mb) else 0 := by
    unfold signBit
    simp only [beq_iff_eq]
  unfold convF
  rw [hz, ← hs]
  cases f
  case e4m3 =>
    change (if (nof && (roundFin .e4m3 rm sat ftz (rm == 3) 0 0).2 &&& flagOF != 0) = true then _ else _) = _
    rw [roundFin_zero]
    exact if_neg (by simp)
  all_goals rfl

theorem convF_fin (f : Fmt) (rm : ℕ) (sat nof ftz neg : Bool) {m : ℕ} (hm : 0 < m) (e : ℤ) :
    convF f rm sat nof ftz (.fin neg m e) =
      if f = .e4m3 ∧ nof = true ∧ (roundF f rm sat ftz (.fin neg m e)).2 &&& 4 ≠ 0 then (0x7F, (roundF f rm sat ftz (.fin neg m e)).2)
      else roundF f rm sat ftz (.fin neg m e) := by
  have hz : convZero rm (.fin neg m e) = .fin neg m e := if_neg (by simpa [FVal.isZero] using hm.ne')
  unfold convF
  rw [hz]
  cases f
  case e4m3 =>
    change (if (nof && (roundF .e4m3 rm sat ftz (.fin neg m e)).2 &&& 4 != 0) = true then _ else _) = _
    simp only [Bool.and_eq_true, bne_iff_ne, true_and]
    rfl
  all_goals exact (if_neg fun h => Fmt.noConfusion h.1).symm

/-- floor(log2) of a magnitude, clamped (R75). -/
theorem toE8m0_fin {m : ℕ} {e k : ℤ} (h1 : (2 : ℝ) ^ k ≤ m * 2 ^ e) (h2 : m * (2 : ℝ) ^ e < 2 ^ (k + 1)) :
    toE8m0 (.fin false m e) = if k + 127 < 0 then (0, 0) else if 254 < k + 127 then (0xFE, 4) else ((k + 127).toNat, 0) := by
  have hm : 0 < m := by
    rcases Nat.eq_zero_or_pos m with rfl | h
    · rw [Nat.cast_zero, zero_mul] at h1
      exact absurd h1 (not_le.2 (by positivity))
    · exact h
  rw [← ilog_eq hm h1 h2]
  exact if_neg (by simp [hm.ne'])

theorem toE8m0_neg (m : ℕ) (e : ℤ) : toE8m0 (.fin true m e) = (0, 1) := if_pos (by simp)

theorem toE8m0_inf (neg : Bool) : toE8m0 (.inf neg) = (if neg then 0 else 0xFF, 1) := by cases neg <;> rfl

theorem toE8m0_zero (neg : Bool) (e : ℤ) : toE8m0 (.fin neg 0 e) = (0, 1) := rfl

/-! ### Codes fit their formats -/

theorem overflowBits_lt (f : Fmt) (rm : ℕ) (sat neg : Bool) : overflowBits f rm sat neg < 2 ^ (f.eb + f.mb) := by
  have hinf : (2 ^ f.eb - 1) * 2 ^ f.mb < 2 ^ (f.eb + f.mb) := by
    rw [pow_add]
    exact Nat.mul_lt_mul_of_pos_right (Nat.sub_lt (by positivity) one_pos) (by positivity)
  by_cases h : staysFinite f rm sat neg
  · rw [overflowBits_stays h]
    exact maxBits_lt f
  · rw [overflowBits_leaves h]
    exact hinf

theorem signBit_add_lt (f : Fmt) (neg : Bool) {b : ℕ} (hb : b < 2 ^ (f.eb + f.mb)) : signBit f neg + b < 2 ^ f.width :=
  (fields_signBit f neg hb).2.2.2

theorem roundFin_lt (f : Fmt) (rm : ℕ) (sat ftz neg : Bool) (m : ℕ) (e : ℤ) : (roundFin f rm sat ftz neg m e).1 < 2 ^ f.width := by
  have hzero : signBit f neg < 2 ^ f.width := signBit_add_lt f neg (b := 0) (by positivity)
  rcases Nat.eq_zero_or_pos m with rfl | hm
  · exact hzero
  rcases Nat.lt_or_ge f.maxBits (bitsOf f rm neg m e) with h | h
  · rw [roundFin_over f rm sat ftz neg hm e h]
    exact signBit_add_lt f neg (overflowBits_lt f rm sat neg)
  · rw [roundFin_within f rm sat ftz neg hm e h]
    split
    · exact hzero
    · exact signBit_add_lt f neg (h.trans_lt (maxBits_lt f))

theorem nanBits_lt (f : Fmt) : f.nanBits < 2 ^ f.width := by cases f <;> decide

theorem roundF_lt (f : Fmt) (rm : ℕ) (sat ftz : Bool) (v : FVal) : (roundF f rm sat ftz v).1 < 2 ^ f.width := by
  cases v with
  | nan s => exact nanBits_lt f
  | inf neg =>
    exact signBit_add_lt f neg (b := if f.hasInf then (2 ^ f.eb - 1) * 2 ^ f.mb else f.maxBits) (by cases f <;> decide)
  | fin neg m e => exact roundFin_lt f rm sat ftz neg m e

theorem convF_lt (f : Fmt) (rm : ℕ) (sat nof ftz : Bool) (v : FVal) : (convF f rm sat nof ftz v).1 < 2 ^ f.width := by
  cases v with
  | nan s =>
    rw [convF_nan]
    split
    · positivity
    · exact nanBits_lt f
  | inf neg =>
    rw [convF_inf]
    revert nof neg
    cases f <;> decide
  | fin neg m e =>
    rcases Nat.eq_zero_or_pos m with rfl | hm
    · rw [convF_zero]
      have := signBit_add_lt f (decide (rm = 3)) (b := 0) (by positivity)
      simpa [signBit] using this
    · rw [convF_fin f rm sat nof ftz neg hm]
      split
      next h =>
        rw [h.1]
        exact (by decide : 0x7F < 2 ^ Fmt.e4m3.width)
      next => exact roundF_lt f rm sat ftz _

theorem toE8m0_lt (v : FVal) : (toE8m0 v).1 < 2 ^ 8 := by
  cases v with
  | nan s => exact (by decide : 0xFF < 2 ^ 8)
  | inf neg => cases neg <;> decide
  | fin neg m e =>
    unfold toE8m0
    dsimp only
    split
    · decide
    · split
      · decide
      · split
        · decide
        · dsimp only
          omega

/-! ### cvt.ff (R200) -/

theorem cvtWidth_eq {k : ℕ} (hk : k ≤ 6) : cvtWidth k = ffWidth k := by interval_cases k <;> rfl

theorem cvtFmt_some {k : ℕ} (hk : k < 6) : cvtFmt k = some (ffFormats.getD k .fp32) := by interval_cases k <;> rfl

theorem cvtFmt_none : cvtFmt 6 = none := rfl

/-- One element of cvt.ff. -/
theorem cvtElem_eq (m : Mods) {st dt : ℕ} (hst : st ≤ 6) (hdt : dt ≤ 6) (nof : Bool) (c : ℕ) :
    cvtElem m st dt nof c = if dt = 6 then toE8m0 (ffValue m st dt c)
      else convF (ffFormats.getD dt .fp32) m.rm.toNat (m.sat == 1) nof (m.ftz == 1) (ffValue m st dt c) := by
  unfold cvtElem ffValue
  rcases Nat.lt_or_eq_of_le hst with hs | rfl <;> rcases Nat.lt_or_eq_of_le hdt with hd | rfl
  · simp only [cvtFmt_some hs, cvtFmt_some hd, if_neg hs.ne, if_neg hd.ne, bne_iff_ne.2 hd.ne, Bool.and_true]
  · simp only [cvtFmt_some hs, cvtFmt_none, if_neg hs.ne, if_true]
  · simp only [cvtFmt_some hd, cvtFmt_none, if_neg hd.ne, bne_iff_ne.2 hd.ne, Bool.and_true, e8m0Val, if_true]
  · simp only [cvtFmt_none, e8m0Val, if_true]

theorem cvtElem_lt (m : Mods) {st dt : ℕ} (hst : st ≤ 6) (hdt : dt ≤ 6) (nof : Bool) (c : ℕ) :
    (cvtElem m st dt nof c).1 < 2 ^ ffWidth dt := by
  rw [cvtElem_eq m hst hdt]
  split
  next h =>
    rw [h]
    exact toE8m0_lt _
  next h =>
    have hw : ffWidth dt = (ffFormats.getD dt .fp32).width := by interval_cases dt <;> first | rfl | exact absurd rfl h
    rw [hw]
    exact convF_lt _ _ _ _ _ _

/-- The elements that a packed word of at most 32 bits holds. -/
theorem element_of_sum {w n i : ℕ} (x : ℕ → ℕ) (hw : 2 * w ≤ 32) (hw0 : 0 < w) (hx : ∀ i, x i < 2 ^ w) (hn : n ≤ 2) (hi : i < n) :
    (BitVec.ofNat 32 ((List.range n).map (fun i => x i * 2 ^ (w * i))).sum).toNat / 2 ^ (w * i) % 2 ^ w = x i := by
  have h0 := hx 0
  have h1 := hx 1
  have hP : 0 < 2 ^ w := Nat.two_pow_pos w
  have hPP : 2 ^ w * 2 ^ w ≤ 2 ^ 32 := by
    rw [← pow_add]
    exact Nat.pow_le_pow_right (by decide) (by omega)
  have hP32 : 2 ^ w ≤ 2 ^ 32 := Nat.pow_le_pow_right (by decide) (by omega)
  have htwo : x 0 + x 1 * 2 ^ w < 2 ^ 32 := by
    calc x 0 + x 1 * 2 ^ w < 2 ^ w + x 1 * 2 ^ w := Nat.add_lt_add_right h0 _
      _ = (x 1 + 1) * 2 ^ w := by ring
      _ ≤ 2 ^ w * 2 ^ w := Nat.mul_le_mul_right _ h1
      _ ≤ 2 ^ 32 := hPP
  rw [BitVec.toNat_ofNat]
  obtain ⟨rfl, rfl⟩ | ⟨rfl, hi⟩ : (n = 1 ∧ i = 0) ∨ (n = 2 ∧ i < 2) := by omega
  · have hsum : ((List.range 1).map fun i => x i * 2 ^ (w * i)).sum = x 0 := by simp [List.range_succ]
    rw [hsum, Nat.mod_eq_of_lt (h0.trans_le hP32), Nat.mul_zero, Nat.pow_zero, Nat.div_one, Nat.mod_eq_of_lt h0]
  · have hsum : ((List.range 2).map fun i => x i * 2 ^ (w * i)).sum = x 0 + x 1 * 2 ^ w := by simp [List.range_succ]
    rw [hsum, Nat.mod_eq_of_lt htwo]
    obtain rfl | rfl : i = 0 ∨ i = 1 := by omega
    · rw [Nat.mul_zero, Nat.pow_zero, Nat.div_one, Nat.add_mul_mod_self_right, Nat.mod_eq_of_lt h0]
    · rw [Nat.mul_one, Nat.add_mul_div_right _ _ hP, Nat.div_eq_of_lt h0, Nat.zero_add, Nat.mod_eq_of_lt h1]

/-- The words and exception bits of cvt.ff (R200). -/
theorem cvtWords_eq (m : Mods) {st dt : ℕ} (hst : st ≤ 6) (hdt : dt ≤ 6) (n : ℕ) (nof : Bool) (ws : List Word) :
    cvtWords m st dt nof n ws =
      (if dt = 0 then (List.range n).map fun i => BitVec.ofNat 32 (cvtElem m st dt nof (ffElement st ws i)).1
        else [BitVec.ofNat 32 ((List.range n).map fun i =>
          (cvtElem m st dt nof (ffElement st ws i)).1 * 2 ^ (ffWidth dt * i)).sum],
       (List.range n).foldl (fun acc i => acc ||| (cvtElem m st dt nof (ffElement st ws i)).2) 0) := by
  have hsum : (List.range n).map (fun i => (((List.range n).map fun i => cvtElem m st dt nof (ffElement st ws i)).getD i (0, 0)).1 *
      2 ^ (ffWidth dt * i)) = (List.range n).map fun i => (cvtElem m st dt nof (ffElement st ws i)).1 * 2 ^ (ffWidth dt * i) := by
    refine List.map_congr_left fun i hi => ?_
    rw [List.getD_eq_getElem?_getD, List.getElem?_map, List.getElem?_range (List.mem_range.1 hi)]
    rfl
  rw [← hsum]
  unfold cvtWords
  dsimp only
  rw [cvtWidth_eq hst, cvtWidth_eq hdt]
  split
  · rw [List.map_map, List.foldl_map]
    rfl
  · rw [List.foldl_map]
    rfl

/-- cvt.ff converts each element (R200). -/
theorem cvtWords_elements (m : Mods) {st dt n : ℕ} (nof : Bool) (ws : List Word) (hst : st ≤ 6) (hdt : dt ≤ 6) (hn : n ≤ 2) :
    (∀ i < n, ffElement dt (cvtWords m st dt nof n ws).1 i = (cvtElem m st dt nof (ffElement st ws i)).1) ∧
    (cvtWords m st dt nof n ws).2 = (List.range n).foldl (fun acc i => acc ||| (cvtElem m st dt nof (ffElement st ws i)).2) 0 := by
  rw [cvtWords_eq m hst hdt]
  refine ⟨fun i hi => ?_, rfl⟩
  have hlt (i : ℕ) := cvtElem_lt m hst hdt nof (ffElement st ws i)
  unfold ffElement
  by_cases h0 : dt = 0
  · rw [if_pos h0, if_pos h0, List.getD_eq_getElem?_getD, List.getElem?_map, List.getElem?_range hi]
    subst h0
    exact (BitVec.toNat_ofNat _ 32).trans (Nat.mod_eq_of_lt (hlt i))
  · rw [if_neg h0, if_neg h0]
    have hw : 0 < ffWidth dt ∧ 2 * ffWidth dt ≤ 32 := by
      clear hlt
      interval_cases dt
      · exact absurd rfl h0
      all_goals decide
    exact element_of_sum _ hw.2 hw.1 hlt hn hi

/-! ### The pairwise tree (R81) -/

/-- So many levels of the tree. -/
def levels (op d : ℕ) (vs : List (Option (Word × ℕ))) : List (Option (Word × ℕ)) :=
  (List.range d).foldl (fun acc _ => treeLevel op acc) vs

theorem levels_succ (op d : ℕ) (vs : List (Option (Word × ℕ))) : levels op (d + 1) vs = treeLevel op (levels op d vs) := by
  unfold levels
  rw [List.range_succ, List.foldl_append]
  rfl

theorem levels_single (op d : ℕ) (x : Option (Word × ℕ)) : levels op d [x] = [x] := by
  induction d with
  | zero => rfl
  | succ d ih => rw [levels_succ, ih, treeLevel]; exact fun _ _ _ h => by cases h

theorem levels_add (op c d : ℕ) (vs : List (Option (Word × ℕ))) : levels op (c + d) vs = levels op d (levels op c vs) := by
  induction d with
  | zero => rfl
  | succ d ih => rw [← Nat.add_assoc, levels_succ, levels_succ, ih]

/-- A level of an even number of positions is made beside that of what follows. -/
theorem treeLevel_append (op : ℕ) (vs ws : List (Option (Word × ℕ))) (h : vs.length % 2 = 0) :
    treeLevel op (vs ++ ws) = treeLevel op vs ++ treeLevel op ws ∧ (treeLevel op vs).length = vs.length / 2 := by
  match vs, h with
  | [], _ => exact ⟨rfl, rfl⟩
  | x :: y :: rest, h =>
    rw [List.length_cons, List.length_cons] at h
    obtain ⟨happ, hlen⟩ := treeLevel_append op rest ws (by omega)
    refine ⟨congrArg (combOpt op x y :: ·) happ, ?_⟩
    change (treeLevel op rest).length + 1 = (rest.length + 1 + 1) / 2
    omega

/-- As many levels as the length's logarithm leave one position, and leave what follows beside it. -/
theorem levels_append (op d : ℕ) (vs : List (Option (Word × ℕ))) (h : vs.length = 2 ^ d) :
    ∃ r, levels op d vs = [r] ∧ ∀ ws, levels op d (vs ++ ws) = r :: levels op d ws := by
  induction d generalizing vs with
  | zero =>
    obtain ⟨r, rfl⟩ := List.length_eq_one_iff.1 h
    exact ⟨r, rfl, fun ws => rfl⟩
  | succ d ih =>
    rw [pow_succ] at h
    have hfirst (vs : List (Option (Word × ℕ))) : levels op (d + 1) vs = levels op d (treeLevel op vs) := by
      rw [Nat.add_comm, levels_add]
      rfl
    obtain ⟨r, hr, happ⟩ := ih (treeLevel op vs) (by rw [(treeLevel_append op vs [] (by omega)).2]; omega)
    refine ⟨r, by rw [hfirst, hr], fun ws => ?_⟩
    rw [hfirst, (treeLevel_append op vs ws (by omega)).1, happ, hfirst]

theorem treeOf_levels (op d : ℕ) (hd : d ≤ 10) (vs : List (Option (Word × ℕ))) {r : Option (Word × ℕ)} (h : levels op d vs = [r]) :
    treeOf op vs = r := by
  have h10 : levels op 10 vs = [r] := by
    rw [show 10 = d + (10 - d) by omega, levels_add, h, levels_single]
  exact congrArg (List.headD · none) h10

/-- The tree over two halves combines the trees of the halves (R81). -/
theorem treeOf_append (op : ℕ) {d : ℕ} (hd : d < 10) {vs ws : List (Option (Word × ℕ))} (hv : vs.length = 2 ^ d)
    (hw : ws.length = 2 ^ d) : treeOf op (vs ++ ws) = combOpt op (treeOf op vs) (treeOf op ws) := by
  obtain ⟨x, hx, happ⟩ := levels_append op d vs hv
  obtain ⟨y, hy, -⟩ := levels_append op d ws hw
  rw [treeOf_levels op d hd.le vs hx, treeOf_levels op d hd.le ws hy]
  refine treeOf_levels op (d + 1) hd _ ?_
  rw [levels_succ, happ, hy]
  rfl

theorem combOpt_none (op : ℕ) (x : Option (Word × ℕ)) : combOpt op none x = x ∧ combOpt op x none = x := by cases x <;> exact ⟨rfl, rfl⟩

/-! ### Block scales of Q4N (R79) -/

/-- The byte over 255, rounded (R79). -/
def q4nByte (b8 : ℕ) : ℕ × ℕ :=
  roundFin .fp32 0 false false false (2 * (b8 * 2 ^ 80 / 255) + if b8 * 2 ^ 80 % 255 = 0 then 0 else 1) (-81)

theorem q4nScale_eq (b8 x : ℕ) : q4nScale b8 x = rne .fp32 (fMul (Fmt.fp32.val x) (Fmt.fp32.val (q4nByte b8).1)).1 := rfl

theorem q4nByte_zero : q4nByte 0 = (0, 0) := by
  unfold q4nByte
  rw [Nat.zero_mul, Nat.zero_div, Nat.zero_mod, if_pos rfl, Nat.mul_zero, Nat.add_zero, roundFin_zero]
  rfl
theorem onGrid_two_pow (k : ℤ) (hk : -149 ≤ k) : onGrid 24 (some (-149)) (2 ^ k) := by
  have := onGrid_mul (b := 24) (lo := some (-149)) (n := 1) (q := k) (by rintro p ⟨⟩; exact hk) (by decide)
  simpa using this

/-- What RNE chooses between two powers of two lies between them. -/
theorem picked_between_powers {even : ℝ → Prop} {x y : ℝ} (h : Picked (onGrid 24 (some (-149))) even 0 x y) {j k : ℤ} (hj : -149 ≤ j)
    (hk : -149 ≤ k) (hlo : 2 ^ j ≤ x) (hhi : x ≤ 2 ^ k) : 2 ^ j ≤ y ∧ y ≤ 2 ^ k := by
  have h1 := (h.2 _ (onGrid_two_pow j hj)).1
  have h2 := (h.2 _ (onGrid_two_pow k hk)).1
  rw [abs_of_nonpos (by linarith : 2 ^ j - x ≤ 0)] at h1
  rw [abs_of_nonneg (by linarith : 0 ≤ 2 ^ k - x)] at h2
  exact ⟨by linarith [neg_le_abs (y - x)], by linarith [le_abs_self (y - x)]⟩

/-- The byte over 255, rounded, is a positive finite value (R79). -/
theorem q4nByte_val {b8 : ℕ} (h0 : 0 < b8) (h : b8 < 256) :
    ∃ b < infBits, 0 < b ∧ Fmt.fp32.val (q4nByte b8).1 = .fin false (sigOf .fp32 b) (powOf .fp32 b) ∧
      Picked (onGrid 24 (some (-149))) (onGrid 23 (some (-148))) 0 ((b8 : ℝ) / 255) (magOf .fp32 b) := by
  have hb8 : (1 : ℝ) ≤ b8 := by exact_mod_cast h0
  have hb8' : (b8 : ℝ) ≤ 255 := by exact_mod_cast Nat.le_of_lt_succ h
  have hd : 2 ^ 24 ≤ b8 * 2 ^ 80 / 255 := (Nat.le_div_iff_mul_le (by norm_num)).2 (by
    calc 2 ^ 24 * 255 ≤ 1 * 2 ^ 80 := by norm_num
      _ ≤ b8 * 2 ^ 80 := Nat.mul_le_mul_right _ h0)
  have hcuts := sameCuts_of_sticky (sticky_div (b8 * 2 ^ 80) (show 0 < 255 by norm_num)) hd (-81)
  have hvalue : ((b8 * 2 ^ 80 : ℕ) : ℝ) / (255 : ℕ) * 2 ^ (-81 + 1 : ℤ) = b8 / 255 := by
    push_cast
    norm_num
    ring
  rw [hvalue] at hcuts
  have hround := roundFin_roundedTo (f := .fp32) (rm := 0) false false false (by decide) (by omega) hcuts
  rw [show ((signed false : ℤ) : ℝ) = 1 by simp [signed], one_mul] at hround
  change RoundedTo .fp32 0 false false false (b8 / 255) (q4nByte b8) at hround
  obtain ⟨y, y', hy, -, -, hin⟩ := hround
  obtain ⟨hlo, hhi⟩ := picked_between_powers (j := -8) (k := 0) hy (by norm_num) (by norm_num)
    (by rw [le_div_iff₀ (by norm_num)]; norm_num; linarith) (by rw [div_le_iff₀ (by norm_num), zpow_zero, one_mul]; exact hb8')
  have hy0 : 0 < y := lt_of_lt_of_le (by positivity) hlo
  have hle : |y| ≤ largest .fp32 := by
    rw [abs_of_pos hy0]
    refine hhi.trans ?_
    rw [zpow_zero]
    exact_mod_cast (by decide : 1 ≤ largest .fp32)
  obtain ⟨hlt, hst, -⟩ := (hin hle).2 fun h => Bool.false_ne_true h.1
  change (q4nByte b8).1 < 2 ^ 32 at hlt
  obtain ⟨n, b, hb, hcode, rfl⟩ := stands_code hlt hst
  have hmag := magOf_nonneg .fp32 b
  cases n
  · rw [show ((signed false : ℤ) : ℝ) = 1 by simp [signed], one_mul] at hy hy0
    have hb0 : 0 < b := by
      rw [← (magOf_strictMono .fp32).lt_iff_lt, magOf_zero]
      exact hy0
    have hread := reads_val hlt
    rw [hcode] at hread
    exact ⟨b, hb, hb0, by rw [hcode]; exact hread.positive hb hb0, hy⟩
  · rw [show ((signed true : ℤ) : ℝ) = -1 by simp [signed]] at hy0
    linarith

theorem signBit_div (n : Bool) {b : ℕ} (hb : b ≤ infBits) : (signBit .fp32 n + b) / 2 ^ 31 * 2 ^ 31 = signBit .fp32 n := by
  rw [signBit_cases]
  unfold infBits at hb
  cases n <;> simp only [if_true, Bool.false_eq_true, if_false] <;> omega

/-- The byte's value is finite, whatever the byte. -/
theorem q4nByte_fin {b8 : ℕ} (h : b8 < 256) :
    ∃ m e, Fmt.fp32.val (q4nByte b8).1 = .fin false m e ∧ (b8 = 0 → m = 0) ∧ (b8 ≠ 0 → 0 < m) := by
  rcases Nat.eq_zero_or_pos b8 with rfl | h0
  · refine ⟨0, Fmt.fp32.qmin, ?_, fun _ => rfl, fun h => absurd rfl h⟩
    rw [q4nByte_zero]
    rfl
  · obtain ⟨b, -, hb0, hval, -⟩ := q4nByte_val h0 h
    exact ⟨_, _, hval, fun h => absurd h h0.ne', fun _ => sigOf_pos hb0⟩

/-- The block scale of Q4N (R79). -/
theorem q4nScale_rules {b8 x : ℕ} (h : b8 < 256) (hx : x < 2 ^ 32) :
    (nan32 x = true → q4nScale b8 x = 0x7FC00000) ∧ (x % 2 ^ 31 = 0x7F800000 → b8 ≠ 0 → q4nScale b8 x = x) ∧
    ∀ v, Stands .fp32 x v → (v = 0 ∨ b8 = 0 → q4nScale b8 x = x / 2 ^ 31 * 2 ^ 31) ∧
      (v ≠ 0 → b8 ≠ 0 → ∃ tq fl, Picked (onGrid 24 (some (-149))) (onGrid 23 (some (-148))) 0 ((b8 : ℝ) / 255) tq ∧
        RoundedTo .fp32 0 false false (signOf .fp32 x) (v * tq) (q4nScale b8 x, fl)) := by
  have hread := reads_val hx
  rw [q4nScale_eq]
  obtain ⟨m, e, hval, hm0, hmpos⟩ := q4nByte_fin h
  refine ⟨fun hn => ?_, fun hinf h0 => ?_, fun v hv => ⟨fun hz => ?_, fun hv0 h0 => ?_⟩⟩
  · rw [hread.ofNan hn]
    rfl
  · obtain ⟨b, hb, hxb⟩ := encoding_eq .fp32 hx
    have hbi : b = infBits := by
      have hb' : b < 2 ^ 31 := hb
      rw [hxb, signBit_cases] at hinf
      unfold infBits
      split at hinf <;> omega
    rw [hbi] at hxb
    generalize signOf .fp32 x = n at hxb
    subst hxb
    rw [hread.infinity, hval]
    have hmul : fMul (.inf n) (.fin false m e) = (.inf (n != false), 0) := if_neg (hmpos h0).ne'
    rw [hmul]
    cases n <;> rfl
  · obtain ⟨n, b, hb, rfl, rfl⟩ := stands_code hx hv
    rw [signBit_div n hb.le]
    rcases hread.code hb.le with ⟨h, -⟩ | ⟨-, m', e', hv', hm'⟩
    · exact absurd h hb.ne
    · have hzero : m' * m = 0 := by
        rcases hz with hz | hz
        · have hb0 : b = 0 := by
            have hmag : magOf .fp32 b = 0 := by
              rw [← mul_zero ((signed n : ℤ) : ℝ)] at hz
              exact signed_mul_inj.1 hz
            rw [← magOf_zero .fp32] at hmag
            exact (magOf_strictMono _).injective hmag
          rcases hm' with ⟨rfl, -⟩ | ⟨-, rfl⟩
          · rw [hb0]
            simp [sigOf]
          · exact Nat.zero_mul m
        · rw [hm0 hz, Nat.mul_zero]
      rw [hv', hval]
      change (roundFin .fp32 0 false false (n != false) (m' * m) (e' + e)).1 = _
      rw [hzero, roundFin_zero]
      cases n <;> rfl
  · obtain ⟨n, b, hb, rfl, rfl⟩ := stands_code hx hv
    obtain ⟨c, hc, hc0, hvalc, hpick⟩ := q4nByte_val (Nat.pos_of_ne_zero h0) h
    have hb0 : 0 < b := Nat.pos_of_ne_zero fun h => hv0 (by rw [h, magOf_zero, mul_zero])
    rw [hread.positive hb hb0, hvalc, (fields_signBit .fp32 n (hb.trans (by decide))).1]
    have hround := roundFin_roundedTo (f := .fp32) (rm := 0) false false n (by decide)
      (Nat.mul_pos (sigOf_pos (f := .fp32) hb0) (sigOf_pos (f := .fp32) hc0))
      (sameCuts_exact _ (sigOf .fp32 b * sigOf .fp32 c) (powOf .fp32 b + powOf .fp32 c))
    refine ⟨magOf .fp32 c, (roundFin .fp32 0 false false n (sigOf .fp32 b * sigOf .fp32 c) (powOf .fp32 b + powOf .fp32 c)).2, hpick, ?_⟩
    have hprod : (signed n : ℝ) * magOf .fp32 b * magOf .fp32 c =
        signed n * ((sigOf .fp32 b * sigOf .fp32 c : ℕ) * 2 ^ (powOf .fp32 b + powOf .fp32 c)) := by
      rw [magOf_eq, magOf_eq, zpow_add₀ (by norm_num)]
      push_cast
      ring
    have hmul : fMul (.fin n (sigOf .fp32 b) (powOf .fp32 b)) (.fin false (sigOf .fp32 c) (powOf .fp32 c)) =
        (.fin n (sigOf .fp32 b * sigOf .fp32 c) (powOf .fp32 b + powOf .fp32 c), 0) := by cases n <;> rfl
    rw [hprod, hmul]
    exact hround

/-- Settles O59: FP32 values compare as the keys of their encodings, seeds and block scales are exact quotients and roots cut with a
sticky bit and then rounded, and conversions and the tree follow their tables element by element and level by level. -/
theorem comparisonsSeedsConversions : Obligations.ComparisonsSeedsConversions := by
  refine ⟨fun isMax ftz x y hx hy => fMinMax_eq isMax ftz hx hy, fun m k x y hk => fcmpWord_eq m x y hk, fun ftz x hx => seeds ftz hx,
    fun f rm sat nof ftz neg sg m e => ?_, ⟨rfl, rfl⟩, fun m st dt n nof ws hst hdt hn => ?_, fun op x a b d vs ws => ?_,
    fun b8 x h hx => q4nScale_rules h hx⟩
  · exact ⟨convF_nan f rm sat nof ftz sg, convF_inf f rm sat nof ftz neg, convF_zero f rm sat nof ftz neg e,
      fun hm => convF_fin f rm sat nof ftz neg hm e, rfl, toE8m0_inf neg, toE8m0_zero neg e, toE8m0_neg m e, fun k => toE8m0_fin⟩
  · have h := cvtWords_elements m nof ws hst hdt hn
    simp only [cvtElem_eq m hst hdt] at h
    exact h
  · exact ⟨treeOf_levels op 0 (Nat.zero_le _) [x] rfl, (combOpt_none op x).1, (combOpt_none op x).2, rfl,
      fun hd hv hw => treeOf_append op hd hv hw⟩

end Sys2Proof.Proofs

/-! ## Decoding loads: pages, side frames and elements -/

namespace Sys2Proof.Proofs

open Sys2Proof Sys2Proof.Machine Sys2Proof.Claims

/-! ### Format pages -/

/-- A leaf that a walk meets is an entry of some node. -/
theorem walkFrom_entry {s : State} {va lvl node l : Nat} {att att' : Bool} {e : Entry}
    (h : walkFrom s va lvl node att = .leaf l e att') : ∃ n i, e = readEntry s n i := by
  induction lvl generalizing node att with
  | zero =>
    rw [walkFrom_zero] at h
    dsimp only at h
    split at h
    · cases h
    · split at h
      · cases h
      · split at h
        · injection h with _ he
          exact ⟨_, _, he.symm⟩
        · cases h
  | succ n ih =>
    rw [walkFrom_succ] at h
    dsimp only at h
    split at h
    · cases h
    · split at h
      · cases h
      · split at h
        · injection h with _ he
          exact ⟨_, _, he.symm⟩
        · split at h
          · cases h
          · exact ih h

/-- A decoding access that translates would translate without decoding, in a page of one of its formats, whose side frame is
aligned (R100, R104). -/
theorem translate_decoded {s : State} {root : RootDesc} {va : DWord} {k : AccKind} {x : Xlat} {fs : List Nat}
    (h : Machine.translate s root va k (some fs) = .ok x) :
    Machine.translate s root va k none = .ok x ∧ x.fmt ∈ fs ∧ x.side % 4096 = 0 := by
  unfold Machine.translate at *
  dsimp only at *
  by_cases h1 : 2 ^ 48 ≤ va.toNat
  · rw [if_pos h1] at h
    cases h
  rw [if_neg h1] at h ⊢
  by_cases h2 : va.toNat / 2 ^ (levelShift root.lvl + 8) ≠ 0
  · rw [if_pos h2] at h
    cases h
  rw [if_neg h2] at h ⊢
  cases hw : walkFrom s va.toNat root.lvl root.node false with
  | absent l => rw [hw] at h; cases h
  | malf l => rw [hw] at h; cases h
  | outside l => rw [hw] at h; cases h
  | leaf l e att =>
    rw [hw] at h
    dsimp only at h ⊢
    obtain ⟨n, i, he⟩ := walkFrom_entry hw
    have hside : e.side % 4096 = 0 := by
      rw [he]
      exact Nat.mul_mod_left _ _
    cases hd : denied e att k with
    | some b => rw [hd] at h; cases h
    | none =>
      rw [hd] at h
      dsimp only at h ⊢
      by_cases hf : e.fmt ∈ fs
      · have hfs : (!fs.contains e.fmt) = false := by simpa using hf
        rw [hfs, if_neg Bool.false_ne_true] at h
        rw [if_neg Bool.false_ne_true]
        refine ⟨h, ?_⟩
        split at h
        · cases h
        · injection h with h
          rw [← h]
          exact ⟨hf, hside⟩
      · have hfs : (!fs.contains e.fmt) = true := by simpa using hf
        rw [hfs, if_pos rfl] at h
        cases h

/-! ### Bytes of one line -/

theorem hopOf_line {s : State} {pa n : Nat} (hn : 0 < n) (h : pa % 64 + n ≤ 64) : hopOf s pa n = lineHop s (pa / 64) := by
  have hlast : (pa + n - 1) / 64 = pa / 64 := by omega
  unfold hopOf
  rw [hlast, if_neg hn.ne']
  dsimp only
  split <;> rfl

theorem KeepsMemory.lineHop {s s' : State} (h : KeepsMemory s s') (ln : Nat) : Machine.lineHop s' ln = Machine.lineHop s ln := by
  rw [h]
  rfl

/-- The lines of both copies of a side frame at an offset are good and hold the same bytes (R117). -/
structure SideGood (s : State) (side off : Nat) : Prop where
  first : lineHop s ((side + off) / 64) = 0
  second : lineHop s ((side + 4096 + off) / 64) = 0
  same : ∀ i < 64, homeByte s ((side + off) / 64 * 64 + i) = homeByte s ((side + 4096 + off) / 64 * 64 + i)

namespace SideGood

theorem keeps {s s' : State} (hk : KeepsMemory s s') {side off : Nat} (h : SideGood s side off) : SideGood s' side off where
  first := (hk.lineHop _).trans h.first
  second := (hk.lineHop _).trans h.second
  same i hi := by rw [hk.homeByte, hk.homeByte]; exact h.same i hi

variable {s : State} {side off : Nat} (h : SideGood s side off)
include h

theorem lines : (List.range 64).map (fun i => homeByte s ((side + off) / 64 * 64 + i)) =
    (List.range 64).map (fun i => homeByte s ((side + 4096 + off) / 64 * 64 + i)) :=
  List.map_congr_left fun i hi => h.same i (List.mem_range.1 hi)

/-- Reading the scale bytes takes the first copy (R117). -/
theorem readSide {n : Nat} (hn : 0 < n) (hl : (side + off) % 64 + n ≤ 64) :
    Machine.readSide s side off n = .good (homeBytes s (side + off) n) := by
  have ha : hopOf s (side + off) n = 0 := (hopOf_line hn hl).trans h.first
  have hb : hopOf s (side + 4096 + off) n = 0 := (hopOf_line hn (by omega)).trans h.second
  unfold Machine.readSide
  rw [ha, hb, h.lines]
  simp

/-- Nothing is repaired (R117). -/
theorem repairSide : Machine.repairSide s side off = s := by
  unfold Machine.repairSide
  dsimp only
  rw [Nat.mul_div_cancel _ (by decide), Nat.mul_div_cancel _ (by decide), h.first, h.second]
  simp

end SideGood

section
variable {s s' : State} {t : Team} (h : Loading s t.core s') (hno : NoStores s t)
include h

/-- A line that leaves L1 takes nothing else along. -/
theorem l1Drop_loading (ln : Nat) : Loading s t.core (l1Drop s' t.core ln) :=
  ⟨h.keeps.trans rfl, h.stores, h.seq, fun x hx hc => h.lines x (List.mem_of_mem_filter hx) hc⟩

/-- A line of the core in L1 holds what memory holds. -/
theorem l1Line_loading {ln : Nat} {y : Line} (hy : l1Line s' t.core ln = some y) : y.data = homeBytes s (64 * ln) 64 := by
  have hp := List.find?_some hy
  rw [Bool.and_eq_true, beq_iff_eq, beq_iff_eq] at hp
  rw [h.lines y (List.mem_of_find?_eq_some hy) hp.1, hp.2]

include hno

/-- Scale bytes whose copies are good and equal are taken as memory holds them, from L1 or from the home (R117, R166). -/
theorem sideLoad_good {side off n : Nat} (hg : SideGood s side off) (hn : 0 < n) (hl : (side + off) % 64 + n ≤ 64) :
    ∃ s1, sideLoad s' t.core side off n = (s1, .good (homeBytes s (side + off) n)) ∧ Loading s t.core s1 := by
  have hg' := hg.keeps h.keeps
  have hread := hg'.readSide hn hl
  rw [h.keeps.homeBytes] at hread
  have hhome : ∃ s1, (match readSide s' side off n with
      | .good bs =>
        let s'' := repairSide s' side off
        (l1Fill (l1Fill (l1Drop (l1Drop s'' t.core ((side + off) / 64)) t.core ((side + 4096 + off) / 64)) t.core ((side + off) / 64))
          t.core ((side + 4096 + off) / 64), Side.good bs)
      | r => (s', r)) = (s1, .good (homeBytes s (side + off) n)) ∧ Loading s t.core s1 := by
    rw [hread]
    dsimp only
    rw [hg'.repairSide]
    exact ⟨_, rfl, l1Fill_loading (l1Fill_loading (l1Drop_loading (l1Drop_loading h _) _) hno _) hno _⟩
  unfold sideLoad
  dsimp only
  cases ha : l1Line s' t.core ((side + off) / 64) with
  | none => exact hhome
  | some a =>
    cases hb : l1Line s' t.core ((side + 4096 + off) / 64) with
    | none => exact hhome
    | some b =>
      have hda := l1Line_loading h ha
      have hdb := l1Line_loading h hb
      have heq : homeBytes s (64 * ((side + off) / 64)) 64 = homeBytes s (64 * ((side + 4096 + off) / 64)) 64 := by
        rw [Nat.mul_comm 64, Nat.mul_comm 64]
        exact hg.lines
      dsimp only
      rw [hda, hdb, ← heq, beq_self_eq_true, if_pos rfl, homeBytes_slice _ _ _ _ _ hl, Nat.div_add_mod]
      exact ⟨s', rfl, h⟩

end

/-! ### Scales -/

/-- Scale bytes as an access reads them, from a core's L1 or from the home (R117, R166). -/
def scaleRead (l1 : Option Nat) (side : Nat) (s : State) (off len : Nat) : State × Scale :=
  match (match l1 with
    | some core => sideLoad s core side off len
    | none => (s, Machine.readSide s side off len)) with
  | (s, .good bs) => (if l1.isSome then s else Machine.repairSide s side off, Scale.val (natOf bs))
  | (s, .conflict pa) => (s, .conflict pa)
  | (s, .bad hop) => (s, .bad hop)

/-- The scale of an element is its block scale, for Q4N with that of its superblock (R79, R116). -/
theorem scaleOf_block {s s1 s2 : State} {l1 : Option Nat} {x : Xlat} {n b sup : Nat}
    (h1 : scaleRead l1 x.side s (scaleAt x.fmt n) 1 = (s1, .val b))
    (h2 : x.fmt = 5 → scaleRead l1 x.side s1 (2048 + 4 * (n / 16384)) 4 = (s2, .val sup)) :
    scaleOf s l1 x n = if x.fmt = 5 then (s2, .val (q4nScale b sup)) else (s1, .val b) := by
  have hshape : scaleOf s l1 x n = match scaleRead l1 x.side s (scaleAt x.fmt n) 1 with
      | (s, .val b) =>
        if x.fmt = 5 then
          match scaleRead l1 x.side s (2048 + 4 * (n / 16384)) 4 with
          | (s, .val sup) => (s, .val (q4nScale b sup))
          | r => r
        else (s, .val b)
      | r => r := by cases l1 <;> rfl
  rw [hshape, h1]
  dsimp only
  by_cases h5 : x.fmt = 5
  · rw [if_pos h5, if_pos h5, h2 h5]
  · rw [if_neg h5, if_neg h5]

theorem leNat_one (b : Nat → Byte) : leNat b 1 = (b 0).toNat := by
  unfold leNat
  simp

section
variable {s s' : State} {t : Team} (h : Loading s t.core s') (hno : NoStores s t)
include h hno

theorem scaleRead_good (home : Bool) {side off n : Nat} (hg : SideGood s side off) (hn : 0 < n) (hl : (side + off) % 64 + n ≤ 64) :
    ∃ s1, scaleRead (if home then none else some t.core) side s' off n = (s1, .val (leNat (memFrom s (side + off)) n)) ∧
      Loading s t.core s1 := by
  rw [← natOf_homeBytes]
  unfold scaleRead
  cases home with
  | true =>
    have hg' := hg.keeps h.keeps
    have hread := hg'.readSide hn hl
    rw [h.keeps.homeBytes] at hread
    simp only [if_true, hread, Option.isSome_none, Bool.false_eq_true, if_false, hg'.repairSide]
    exact ⟨s', rfl, h⟩
  | false =>
    obtain ⟨s1, hs1, hload⟩ := sideLoad_good h hno hg hn hl
    simp only [Bool.false_eq_true, if_false, hs1, Option.isSome_some, if_true]
    exact ⟨s1, rfl, hload⟩

/-- The scale of an element of a page whose scales are good (R79, R116, R117). -/
theorem scaleOf_good (home : Bool) {x : Xlat} {n sc : Nat} (hside : x.side % 4096 = 0) (hs : scaleIs s x n sc) :
    ∃ s1, scaleOf s' (if home then none else some t.core) x n = (s1, .val sc) ∧ Loading s t.core s1 := by
  obtain ⟨b, hlines, hb, hsc⟩ := hs
  have hgood (k : Nat) (hk : k ∈ (if x.fmt = 5 then [n / 64, 2048 + 4 * (n / 16384)] else [n / 32])) : SideGood s x.side k :=
    let ⟨h1, h2, h3⟩ := hlines k hk
    ⟨h1, h2, h3⟩
  have hoff : scaleAt x.fmt n = if x.fmt = 5 then n / 64 else n / 32 := rfl
  have hfirst : SideGood s x.side (scaleAt x.fmt n) := hgood _ (by rw [hoff]; split <;> simp)
  obtain ⟨s1, h1, hl1⟩ := scaleRead_good h hno home hfirst one_pos (by omega)
  have hblock : leNat (memFrom s (x.side + scaleAt x.fmt n)) 1 = b := by
    rw [hb, hoff]
    exact leNat_one _
  rw [hblock] at h1
  by_cases h5 : x.fmt = 5
  · have hsecond : SideGood s x.side (2048 + 4 * (n / 16384)) := hgood _ (by rw [if_pos h5]; simp)
    obtain ⟨s2, h2, hl2⟩ := scaleRead_good hl1 hno home hsecond (n := 4) (by decide) (by omega)
    refine ⟨s2, ?_, hl2⟩
    rw [scaleOf_block h1 fun _ => h2, if_pos h5, hsc, if_pos h5]
    simp only [← Nat.add_assoc]
    rfl
  · refine ⟨s1, ?_, hl1⟩
    rw [scaleOf_block (sup := 0) (s2 := s1) h1 fun h => absurd h h5, if_neg h5, hsc, if_neg h5]

end

/-! ### Elements -/

theorem bf16Elem_lt (fmt code scale : Nat) : bf16Elem fmt code scale < 2 ^ 16 := by
  unfold bf16Elem q4nElem rne
  split
  · exact roundF_lt .bf16 _ _ _ _
  · exact roundF_lt .bf16 _ _ _ _

theorem halves_eq {lo : Nat} (h : lo < 2 ^ 16) (hi : Nat) : halves lo hi = BitVec.ofNat 32 (lo + 2 ^ 16 * hi) := by
  unfold halves
  apply BitVec.eq_of_toNat_eq
  rw [BitVec.toNat_ofNat, BitVec.toNat_ofNat]
  omega

theorem getD_homeBytes (s : State) (pa : Nat) {n j : Nat} (h : j < n) : (homeBytes s pa n).getD j 0 = homeByte s (pa + j) := by
  unfold homeBytes
  rw [List.getD_eq_getElem?_getD, List.getElem?_map, List.getElem?_range h]
  rfl

theorem halfBytes_eq {fmt : Nat} (h : fmt ∈ [1, 2, 3, 4, 5]) : halfBytes fmt = if fmt < 4 then 2 else 1 := by
  revert fmt
  decide

/-- The words that ldx makes of the bytes of memory (R116, R166). -/
theorem ldxWords_eq (s : State) {x : Xlat} (hf : x.fmt ∈ [1, 2, 3, 4, 5]) (sc : Nat) (va : DWord) :
    ldxWords x.fmt sc (elemNo va x) (homeBytes s x.pa (4 * halfBytes x.fmt)) = decodedWords s x sc := by
  have hcode (j : Nat) (hj : j < 8) : (if halfBytes x.fmt = 2 then ((homeBytes s x.pa (4 * halfBytes x.fmt)).getD j 0).toNat
      else ((homeBytes s x.pa (4 * halfBytes x.fmt)).getD (j / 2) 0).toNat / (if (elemNo va x + j) % 2 = 0 then 1 else 16) % 16) =
      elemAt s x j := by
    have hhalf := halfBytes_eq hf
    unfold elemAt elemNo
    by_cases h4 : x.fmt < 4
    · rw [if_pos h4] at hhalf
      rw [if_pos h4, hhalf, if_pos rfl, getD_homeBytes s x.pa (by omega)]
    · rw [if_neg h4] at hhalf
      have heven : (va.toNat % 65536 * 2 / 1 + j) % 2 = j % 2 := by omega
      rw [if_neg h4, hhalf, if_neg (by decide), getD_homeBytes s x.pa (by omega), heven]
  unfold ldxWords decodedWords
  refine List.map_congr_left fun w hw => ?_
  have hw4 : w < 4 := List.mem_range.1 hw
  dsimp only
  rw [hcode (2 * w) (by omega), hcode (2 * w + 1) (by omega), halves_eq (bf16Elem_lt _ _ _)]

end Sys2Proof.Proofs

/-! ## Decoding loads: lanes, and what they owe -/

namespace Sys2Proof.Proofs

open Sys2Proof Sys2Proof.Machine Sys2Proof.Claims

/-- The page formats that ldx takes (R166). -/
def ldxFormats : List Nat := [1, 2, 3, 4, 5]

/-- Every lane's access at va is to eight elements of a format page x in the module's own memory, with good bytes and a scale sc
whose copies are good (R117, R166). -/
structure LanesDecode (s : State) (t : Team) (lanes : List Nat) (va : Nat → DWord) (x : Nat → Xlat) (sc : Nat → Nat) : Prop where
  mapped : ∀ l ∈ lanes, translate s t.root (va l) .read (some ldxFormats) = .ok (x l)
  aligned : ∀ l ∈ lanes, (va l).toNat % (if (x l).fmt < 4 then 8 else 4) = 0
  own : ∀ l ∈ lanes, isPeer (x l).pa = false
  good : ∀ l ∈ lanes, hopOf s (x l).pa 8 = 0
  unowed : ∀ l ∈ lanes, readsOwedSave s t (va l).toNat 8 = false
  scale : ∀ l ∈ lanes, scaleIs s (x l) (elemNo (va l) (x l)) (sc l)

/-- A part of what no SAVE word owes is owed by none. -/
theorem readsOwedSave_le {s : State} {t : Team} {va n k : Nat} (h : readsOwedSave s t va n = false) (hk : k ≤ n) :
    readsOwedSave s t va k = false := by
  unfold readsOwedSave at *
  split
  · rfl
  next h' hh =>
    rw [hh] at h
    dsimp only at h
    rw [List.any_eq_false] at h ⊢
    intro y hy hd
    refine h y hy ?_
    rw [decide_eq_true_eq] at hd ⊢
    exact ⟨hd.1, by omega, hd.2.2⟩

section
variable {s : State} {t : Team} {lanes : List Nat} {va : Nat → DWord} {x : Nat → Xlat} {sc : Nat → Nat}
  (hd : LanesDecode s t lanes va x sc)
include hd

/-- The bytes of a lane's elements: their number divides a line, and its address is aligned to it. -/
theorem decode_size {l : Nat} (hl : l ∈ lanes) : 4 * halfBytes (x l).fmt = (if (x l).fmt < 4 then 8 else 4) ∧
    4 * halfBytes (x l).fmt ∣ 64 ∧ (va l).toNat % (4 * halfBytes (x l).fmt) = 0 := by
  obtain ⟨-, hf, -⟩ := translate_decoded (hd.mapped l hl)
  have hsize : 4 * halfBytes (x l).fmt = if (x l).fmt < 4 then 8 else 4 := by
    rw [halfBytes_eq hf]
    split <;> rfl
  refine ⟨hsize, ?_, ?_⟩
  · rw [hsize]
    split <;> decide
  · rw [hsize]
    exact hd.aligned l hl

/-- A lane's elements lie in one line, and are good. -/
theorem decode_line {l : Nat} (hl : l ∈ lanes) :
    (x l).pa % 64 + 4 * halfBytes (x l).fmt ≤ 64 ∧ hopOf s (x l).pa (4 * halfBytes (x l).fmt) = 0 := by
  obtain ⟨hsize, hdvd, hal⟩ := decode_size hd hl
  have hin : (x l).pa % 64 + 4 * halfBytes (x l).fmt ≤ 64 := by
    refine in_line hdvd ?_
    rw [translate_mod (translate_decoded (hd.mapped l hl)).1 hdvd]
    exact hal
  refine ⟨hin, ?_⟩
  rw [hopOf_line (by rw [hsize]; split <;> decide) hin]
  have h8 := hd.good l hl
  unfold hopOf at h8
  dsimp only at h8
  by_contra hne
  rw [if_pos hne] at h8
  exact hne h8

/-- A lane that hits goes to its elements (R104, R166). -/
theorem tryLane_decode {s' : State} (hs : KeepsMemory s s') {l : Nat} (hl : l ∈ lanes) :
    tryLane s' t .read l (va l) 8 (some ldxFormats) = .go (x l) := by
  obtain ⟨-, -, hal⟩ := decode_size hd hl
  unfold tryLane
  rw [hs.translate, hd.mapped l hl]
  simp [hal, hd.own l hl]

theorem ldxLane_hit (hno : NoStores s t) (home : Bool) (dsts : List Nat) {undef : Nat → Bool} {r : Run} {l : Nat} (hl : l ∈ lanes)
    (hu : undef l = false) (hs : Loading s t.core r.s) :
    ∃ r', ldxLane t home dsts undef va r l = r' ∧ r'.tags = r.tags ∧ Loading s t.core r'.s ∧
      Added r.op r'.op (laneKeys t l dsts) ((laneKeys t l dsts).zip (decodedWords s (x l) (sc l))) [(l, va l)] := by
  obtain ⟨-, hf, hside⟩ := translate_decoded (hd.mapped l hl)
  obtain ⟨hin, hgood⟩ := decode_line hd hl
  obtain ⟨s1, hscale, hs1⟩ := scaleOf_good hs hno home hside (hd.scale l hl)
  obtain ⟨s2, hload, hs2⟩ := loadFrom_good hs1 hno hin hgood home
  have hown : readsOwedSave s2 t (va l).toNat (4 * halfBytes (x l).fmt) = false := by
    unfold readsOwedSave
    rw [hs2.keeps.coreOf]
    refine readsOwedSave_le (hd.unowed l hl) ?_
    rw [(decode_size hd hl).1]
    split <;> decide
  have hwords := ldxWords_eq s hf (sc l) (va l)
  have htry := tryLane_decode hd hs.keeps hl
  unfold ldxFormats at htry
  unfold elemNo at hscale hwords
  unfold ldxLane
  simp only [hu, htry, hscale, hload, hown, hwords, Bool.false_eq_true, if_false, Bool.not_false, and_self, if_true]
  exact ⟨_, rfl, rfl, hs2, ⟨rfl⟩⟩

end

/-- Lanes that each add what they owe add it in their order. -/
theorem lanes_add {s : State} {core : Nat} {step : Run → Nat → Run} {keys : Nat → List Nat} {words : Nat → List (Nat × Word)}
    {va : Nat → DWord} (ls : List Nat)
    (hstep : ∀ l ∈ ls, ∀ r, Loading s core r.s → ∃ r', step r l = r' ∧ r'.tags = r.tags ∧ Loading s core r'.s ∧
      Added r.op r'.op (keys l) (words l) [(l, va l)]) (r : Run) (hs : Loading s core r.s) :
    ∃ r', ls.foldl step r = r' ∧ r'.tags = r.tags ∧ Loading s core r'.s ∧
      Added r.op r'.op (ls.flatMap keys) (ls.flatMap words) (ls.map fun l => (l, va l)) := by
  induction ls generalizing r with
  | nil => exact ⟨r, rfl, rfl, hs, .refl _⟩
  | cons l ls ih =>
    obtain ⟨r1, h1, ht1, hs1, ha1⟩ := hstep l List.mem_cons_self r hs
    obtain ⟨r2, h2, ht2, hs2, ha2⟩ := ih (fun y hy => hstep y (List.mem_cons_of_mem _ hy)) r1 hs1
    refine ⟨r2, ?_, ht2.trans ht1, hs2, ha1.trans ha2⟩
    rw [List.foldl_cons, h1, h2]

/-- The pending instruction of lanes that owe words (R165, R166). -/
theorem owedPend_words {s s0 s' : State} {t : Team} {op : MemOp} {home acquire acquires : Bool} {ls : List Nat} {va : Nat → DWord}
    {ws : Nat → List Word} {dsts : List Nat} (g : Pend → List Reread) (hs : s'.nextSeq = s.nextSeq)
    (ho : Added (startRun s0 (some t.clause.seta.toNat) [] home acquire acquires).op op (ls.flatMap fun l => laneKeys t l dsts)
      (ls.flatMap fun l => (laneKeys t l dsts).zip (ws l)) (ls.map fun l => (l, va l))) :
    (owedPend s' (Team.reread (counted t) g) t.clause.seta.toNat op).plain = (loadPend s t home acquires ls va dsts ws).plain := by
  rw [ho.eq]
  unfold owedPend loadPend Pend.plain
  rw [hs]
  simp only [keysOf_eq]
  rfl

/-- The end of a load that no acquire makes, whose lanes have added what they owe (R30, R31). -/
theorem addedRun_accepts {s s0 : State} {t : Team} {home : Bool} {r : Run} {ls : List Nat} {va : Nat → DWord} {ws : Nat → List Word}
    {dsts : List Nat} (g : Pend → List Reread) (hf : findTeam s t.uid = some t) (hp : t.pass = none) (h0 : t.faulted = [])
    (htags : r.tags = []) (hload : Loading s t.core r.s)
    (hadd : Added (startRun s0 (some t.clause.seta.toNat) [] home false false).op r.op (ls.flatMap fun l => laneKeys t l dsts)
      (ls.flatMap fun l => (laneKeys t l dsts).zip (ws l)) (ls.map fun l => (l, va l))) :
    ∃ s', finishRun (Team.reread (counted t) g) r = .next s' ∧ Accepts s s' t (loadPend s t home false ls va dsts ws) := by
  obtain ⟨g', hg'⟩ := reread_reread (counted t) g fun p => p.again.filter fun b => !r.lines.contains b.line
  have hren : renew r.s (Team.reread (counted t) g') = Team.reread (counted t) g' :=
    renew_self ((hload.keeps.findTeam _).trans hf) rfl rfl
  have hacq : r.op.acquire = false := by rw [hadd.eq]; rfl
  have hend := settleMem_accepted (op := r.op) (f := t.clause.seta.toNat) hren hp h0 (by rw [hadd.eq]; rfl) (by rw [hadd.eq]; rfl)
    (by rw [hadd.eq]; rfl) (by rw [hadd.eq]; rfl)
  rw [advance_accepting, hacq] at hend
  refine ⟨_, ?_, setTeam_accepts (g := g') (hload.keeps.trans (numbered_keeps _)) hload.stores hf
    (owedPend_words (acquire := false) g' hload.seq hadd)⟩
  rw [finishRun_home htags, sealedAt_eq, hg', hend]
  rfl

theorem exec_ldx (d a : BitVec 5) (o : BitVec 9) (s : State) : exec (.ldx d a o) s = execLdx d a o s := rfl

/-- Settles O21: each lane's scale and elements are read as memory holds them, and its words are what they decode to. -/
theorem ldxDecodesElements : Obligations.LdxDecodesElements := by
  intro s t d a o x sc hno hl1 hc h hlanes
  obtain ⟨g, hg⟩ := issuing_team h.toIssues (fun _ => s2 a) (fun _ => slotsFrom d 4) (fun _ hn => List.mem_append_left _ hn)
    (fun _ hn => List.mem_append_right _ (by rw [slotsOfX_eq 6 d]; exact hn))
  replace hc : CleanLanes s t 0 (s2 a) := hc
  rw [exec_ldx]
  unfold execLdx
  rw [hg]
  simp only [memLanes_issuing g hc]
  generalize hs0 : noteWalks (bump s (Team.reread (counted t) g)) (Team.reread (counted t) g) _ = s0
  obtain ⟨hst, hseq, hlines⟩ : s0.stores = s.stores ∧ s0.nextSeq = s.nextSeq ∧ s0.l1 = s.l1 := hs0 ▸ noteWalks_bump ..
  have hkeep : KeepsMemory s s0 := hs0 ▸ (bump_keeps _ _).trans (noteWalks_keeps _ _ _)
  have hload : Loading s t.core s0 := ⟨hkeep, hst, hseq, fun y hy hcore => absurd hcore (hl1 y (hlines ▸ hy))⟩
  have hflag : flagNo (Team.reread (counted t) g).clause.seta = some t.clause.seta.toNat := flagNo_of_legal h.legal rfl
  have hva (l : Nat) (hl : l ∈ execLanes s t 0) : readSlot64 s (Team.reread (counted t) g) l a.toNat + offM o 8 = addrOf t l a o 8 :=
    readAddr_issuing (srcs := []) g a o 8 (hc.2 l hl)
  have hdecode : LanesDecode s (Team.reread (counted t) g) (execLanes s t 0)
      (fun l => readSlot64 s (Team.reread (counted t) g) l a.toNat + offM o 8) x sc := by
    refine ⟨fun l hl => ?_, fun l hl => ?_, fun l hl => ?_, fun l hl => ?_, fun l hl => ?_, fun l hl => ?_⟩ <;>
      obtain ⟨hmap, hal, hown, hgood, howed, hscale⟩ := hlanes l hl
    · rw [hva l hl]; exact hmap
    · rw [hva l hl]; exact hal
    · exact hown
    · exact hgood
    · rw [hva l hl, readsOwedSave_issuing]; exact howed
    · rw [hva l hl]; exact hscale
  obtain ⟨r, hr, htags, hload', hadd⟩ := lanes_add
    (step := ldxLane (Team.reread (counted t) g) ((modsOf t).cp == 2) (slotsFrom d 4)
      (fun l => readsPending s (Team.reread (counted t) g) l (s2 a))
      fun l => readSlot64 s (Team.reread (counted t) g) l a.toNat + offM o 8) (execLanes s t 0) (fun l hl r hs =>
    ldxLane_hit hdecode hno ((modsOf t).cp == 2) (slotsFrom d 4) hl
      (by rw [readsPending_issuing]; exact hc.2 l hl) hs)
    (startRun s0 (some t.clause.seta.toNat) [] ((modsOf t).cp == 2) false false) hload
  rw [hflag, hr]
  have hvas : ((execLanes s t 0).map fun l => (l, readSlot64 s (Team.reread (counted t) g) l a.toNat + offM o 8)) =
      (execLanes s t 0).map fun l => (l, addrOf t l a o 8) := List.map_congr_left fun l hl => by rw [hva l hl]
  rw [hvas] at hadd
  rw [slotsOfX_eq 6 d]
  exact addedRun_accepts g (findTeam_of_issues h.toIssues) h.whole h.first.1 htags hload' hadd

end Sys2Proof.Proofs

/-! ## Atomics: their words -/

namespace Sys2Proof.Proofs

open Sys2Proof Sys2Proof.Machine Sys2Proof.Claims

/-- The address in a pair of registers, as its team issues (R270). -/
theorem readPair_issuing {s : State} {t : Team} {l : Nat} {srcs : List Nat} (g : Pend → List Reread) (a : BitVec 5)
    (h : readsPending s t l (s2 a ++ srcs) = false) :
    readSlot64 s (Team.reread (counted t) g) l a.toNat = pairAddr t l a := by
  have hr : readSlot64 s (Team.reread (counted t) g) l a.toNat + 0#64 = addrOf t l a 0 0 := readAddr_issuing g a 0 0 h
  rw [BitVec.add_zero] at hr
  rw [hr]
  unfold addrOf pairAddr
  rw [Nat.cast_zero, mul_zero, add_zero, BitVec.ofInt_natCast]

/-- Lanes that hit words of their own are gathered one by one (R82, R271). -/
theorem gatherWords_apart {s : State} {t : Team} {lanes : List Nat} {va : Nat → DWord} {pa : Nat → Nat} {n : Nat} {r : Run}
    (hh : LanesHit s t lanes .atomic va pa n) (hs : KeepsMemory s r.s) (ls : List Nat) (hl : ∀ l ∈ ls, l ∈ lanes)
    (gs : List (Nat × List (Nat × DWord))) (hn : (gs.map Prod.fst ++ ls.map pa).Nodup) :
    ls.foldl (gatherWords t n va) (r, gs) = (r, gs ++ ls.map fun l => (pa l, [(l, va l)])) := by
  induction ls generalizing gs with
  | nil => simp
  | cons l ls ih =>
    obtain ⟨x, hx, hp⟩ := tryLane_hit hh hs (hl l List.mem_cons_self)
    have hnew : gs.any (fun w => w.1 == pa l) = false := by
      rw [List.any_eq_false]
      intro w hw he
      exact (List.nodup_append.1 hn).2.2 w.1 (List.mem_map_of_mem hw) (pa l) List.mem_cons_self (beq_iff_eq.1 he)
    have hstep : gatherWords t n va (r, gs) l = (r, gs ++ [(pa l, [(l, va l)])]) := by
      unfold gatherWords addWord
      simp only [hx, hp, hnew, Bool.false_eq_true, if_false]
    rw [List.foldl_cons, hstep, ih (fun y hy => hl y (List.mem_cons_of_mem _ hy)) _ (by simpa using hn), List.map_cons,
      List.append_assoc, List.singleton_append]

/-- Nothing keeps a flag-counted memory instruction from its end: no fault, no lane lost before it, no promotion. -/
def Unhindered (op : MemOp) (f : Nat) : Prop := op.faults = [] ∧ op.lost = [] ∧ op.flag = some f ∧ op.promote = none

/-- A lane's result or poison is no hindrance, and changes no memory. -/
theorem got_unhindered {r : Run} {f : Nat} (h : Unhindered r.op f) (l : Nat) (va : DWord) (dests : List Nat) (ws : List Word) (hop : Nat) :
    Unhindered (r.got l va dests ws hop).op f ∧ (r.got l va dests ws hop).s = r.s ∧ (r.got l va dests ws hop).tags = r.tags := by
  unfold Run.got Run.value
  split <;> exact ⟨h, rfl, rfl⟩

section
variable {t : Team} {n op : Nat} {m : Mods} {keys : Nat → List Nat} {v w : Nat → Nat} {r : Run} {pa l : Nat} {va : DWord}
  (hno : NoStores r.s t)
include hno

/-- A good word of one lane gets its new value at the home (R271). -/
theorem homeAtom_good (howed : readsOwedSave r.s t va.toNat n = false) (hg : hopOf r.s pa n = 0) :
    homeAtom t .atom n op m keys v w r (pa, [(l, va)]) =
      { r.touch r.s pa with
        s := l1Drop (homeWrite r.s pa (bytesOf n (atomStep n op (natOf (homeBytes r.s pa n)) (v l)))) t.core (pa / 64) }.got l va
          (keys l) (oldWords n (natOf (homeBytes r.s pa n))) 0 := by
  have hup : performUpTo r.s t pa n true true = r.s := performUpTo_noStores hno ..
  unfold homeAtom atomRead drawn combine
  simp only [hup, hg, List.any_cons, List.any_nil, howed, Bool.or_false, Bool.false_eq_true, if_false, ne_eq, not_true_eq_false,
    beq_iff_eq, reduceCtorEq]
  rfl

/-- A poisoned word of one lane is left as it is, and its lane gets the poison (R271). -/
theorem homeAtom_poisoned (hg : hopOf r.s pa n ≠ 0) :
    homeAtom t .atom n op m keys v w r (pa, [(l, va)]) = (r.touch r.s pa).got l va (keys l) [] (hopOf r.s pa n) := by
  have hup : performUpTo r.s t pa n true true = r.s := performUpTo_noStores hno ..
  unfold homeAtom
  simp only [hup, hg, beq_iff_eq, reduceCtorEq, if_false, ne_eq, not_false_eq_true, if_true]
  rfl

/-- A good word of one lane is written, and nothing else. -/
theorem homeAtom_writes {f : Nat} (howed : readsOwedSave r.s t va.toNat n = false) (hg : hopOf r.s pa n = 0)
    (hop : Unhindered r.op f) :
    ∃ r' bs, homeAtom t .atom n op m keys v w r (pa, [(l, va)]) = r' ∧ bs.length = n ∧
      r'.s = l1Drop (homeWrite r.s pa bs) t.core (pa / 64) ∧ Unhindered r'.op f ∧ r'.tags = r.tags := by
  rw [homeAtom_good hno howed hg]
  obtain ⟨hop', hs, htags⟩ := got_unhindered hop l va (keys l) (oldWords n (natOf (homeBytes r.s pa n))) 0
  exact ⟨_, bytesOf n _, rfl, by simp [bytesOf], rfl, hop', htags⟩

/-- With a poisoned word of one lane memory stays as it is. -/
theorem homeAtom_spares {f : Nat} (hg : hopOf r.s pa n ≠ 0) (hop : Unhindered r.op f) :
    ∃ r', homeAtom t .atom n op m keys v w r (pa, [(l, va)]) = r' ∧ r'.s = r.s ∧ Unhindered r'.op f ∧ r'.tags = r.tags := by
  rw [homeAtom_poisoned hno hg]
  obtain ⟨hop', hs, htags⟩ := got_unhindered (r := r.touch r.s pa) hop l va (keys l) [] (hopOf r.s pa n)
  exact ⟨_, rfl, hs, hop', htags⟩

end

theorem atomWord_home (t : Team) (k : AtomKind) (n op : Nat) (m : Mods) (keys : Nat → List Nat) (v w : Nat → Nat) (r : Run)
    {x : Nat × List (Nat × DWord)} (hp : isPeer x.1 = false) :
    atomWord t k n op m keys v w r x = homeAtom t k n op m keys v w r x := by
  unfold atomWord
  rw [hp]
  rfl

/-- A team's scratchpad renewed twice is renewed. -/
theorem renew_renew (s : State) (t : Team) : renew s (renew s t) = renew s t := by
  cases h : findTeam s t.uid with
  | none =>
    have hr : renew s t = t := by
      unfold renew
      rw [h]
    rw [hr, hr]
  | some x =>
    have hr : renew s t = { t with scr := x.scr, scrBad := x.scrBad } := by
      unfold renew
      rw [h]
    exact renew_self (x := x) (by rw [hr]; exact h) (by rw [hr]) (by rw [hr])

theorem renew_whole (s : State) {t : Team} (hp : t.pass = none) (hf : t.faulted = []) :
    (renew s t).pass = none ∧ (renew s t).faulted = [] := by
  unfold renew
  split <;> exact ⟨hp, hf⟩

/-- The end of a memory instruction that no flag's count or fault stops changes no byte of memory. -/
theorem homeByte_settleMem {s : State} {t : Team} {op : MemOp} {f : Nat} (hp : t.pass = none) (hf : t.faulted = [])
    (h : Unhindered op f) (a : Nat) : homeByte (settleMem s t op) a = homeByte s a := by
  obtain ⟨hfaults, hlost, hflag, hpromote⟩ := h
  have hrenew : settleMem s t op = settleMem s (renew s t) op := by
    unfold settleMem
    rw [renew_renew]
  obtain ⟨hp', hf'⟩ := renew_whole s hp hf
  rw [hrenew, settleMem_accepted (renew_renew s t) hp' hf' hfaults hlost hflag hpromote]
  exact ((acquired_keeps s _ _).trans (numbered_keeps _)).homeByte a

theorem exec_atom (d a b k : BitVec 5) (p : BitVec 2) (s : State) : exec (.atom d a b k p) s = execAtom d a b k p s := rfl

/-- What a plain 32-bit atom of lanes that hit words of their own does: it runs its words in the order of the lanes (R270, R271). -/
theorem atom_words {s : State} {t : Team} {d a b k : BitVec 5} {pa : Nat → Nat} (hm : modsOf t = Mods.zero)
    (h : Accepted s t (.atom d a b k 0) ([a.toNat, a.toNat + 1] ++ [b.toNat] ++ predSlot 0 ++ [d.toNat]))
    (hc : CleanLanes s t 0 ([a.toNat, a.toNat + 1] ++ [b.toNat]))
    (hh : LanesHit s t (execLanes s t 0) .atomic (fun l => pairAddr t l a) pa 4) (hn : ((execLanes s t 0).map pa).Nodup) :
    ∃ g s0 keys v w, KeepsMemory s s0 ∧ s0.stores = s.stores ∧ exec (.atom d a b k 0) s =
      finishRun (Team.reread (counted t) g) (((execLanes s t 0).map fun l => (pa l, [(l, pairAddr t l a)])).foldl
        (atomWord (Team.reread (counted t) g) .atom 4 k.toNat Mods.zero keys v w)
        (startRun s0 (some t.clause.seta.toNat) [] true false false)) := by
  have hatom : (AtomKind.atom == AtomKind.cas) = false := rfl
  have hred : (AtomKind.atom == AtomKind.red) = false := rfl
  have hslots : ∀ x : BitVec 5, (if (modsOf t).wid == 4 then s2 x else s1 x) = s1 x := by
    intro x
    rw [hm]
    rfl
  obtain ⟨g, hg⟩ := issuing_team h.toIssues (fun m => s2 a ++ (if m.wid == 4 then s2 b else s1 b) ++ predSlot 0)
    (fun m => if m.wid == 4 then s2 d else s1 d)
    (fun n hn => by rw [hslots] at hn; exact List.mem_append_left _ hn)
    (fun n hn => by rw [hslots] at hn; exact List.mem_append_right _ hn)
  have hwid : (Mods.zero.wid == 4) = false := rfl
  have hacq : Mods.zero.ord.getLsbD 0 = false := rfl
  have hrel : Mods.zero.ord.getLsbD 1 = false := rfl
  have hflag : flagNo (Team.reread (counted t) g).clause.seta = some t.clause.seta.toNat := flagNo_of_legal h.legal rfl
  have hpred : predSlot 0 = [] := rfl
  have hlanes := memLanes_issuing (srcs := s2 a ++ s1 b) g hc
  have hclean (l : Nat) (hl : l ∈ execLanes s t 0) : readsPending s (Team.reread (counted t) g) l (s2 a ++ s1 b) = false := by
    rw [readsPending_issuing]
    exact hc.2 l hl
  have hall : (execLanes s t 0).filter (fun l => !readsPending s (Team.reread (counted t) g) l (s2 a ++ s1 b)) =
      execLanes s t 0 := List.filter_eq_self.2 fun l hl => by rw [hclean l hl]; rfl
  have hnone : (execLanes s t 0).filter (fun l => readsPending s (Team.reread (counted t) g) l (s2 a ++ s1 b)) = [] :=
    List.filter_eq_nil_iff.2 fun l hl => by rw [hclean l hl]; exact Bool.false_ne_true
  have hva (l : Nat) (hl : l ∈ execLanes s t 0) : readSlot64 s (Team.reread (counted t) g) l a.toNat = pairAddr t l a :=
    readPair_issuing g a (hc.2 l hl)
  rw [exec_atom]
  unfold execAtom atomOp
  simp only [hatom, hred, Bool.false_eq_true, if_false, hg, hm]
  simp only [hwid, hacq, Bool.false_eq_true, if_false, hrel, hpred, List.append_nil, hlanes, hall, hnone, List.foldl_nil,
    Bool.false_and, hflag]
  generalize hs0 : noteWalks (bump s (Team.reread (counted t) g)) (Team.reread (counted t) g)
    ((execLanes s t 0).map fun l => readSlot64 s (Team.reread (counted t) g) l a.toNat) = s0
  have hkeep : KeepsMemory s s0 := hs0 ▸ (bump_keeps _ _).trans (noteWalks_keeps _ _ _)
  obtain ⟨hst, -, -⟩ : s0.stores = s.stores ∧ _ := hs0 ▸ noteWalks_bump ..
  have hgather := gatherWords_apart (r := startRun s0 (some t.clause.seta.toNat) [] true false false)
    (lanesHit_congr (t' := Team.reread (counted t) g) hh rfl hva) hkeep (execLanes s t 0) (fun _ hl => hl) []
    (by rw [List.map_nil, List.nil_append]; exact hn)
  have hwords : ((execLanes s t 0).map fun l => (pa l, [(l, readSlot64 s (Team.reread (counted t) g) l a.toNat)])) =
      (execLanes s t 0).map fun l => (pa l, [(l, pairAddr t l a)]) := List.map_congr_left fun l hl => by rw [hva l hl]
  rw [hgather, List.nil_append, hwords]
  dsimp only
  exact ⟨g, s0, _, _, _, hkeep, hst, rfl⟩

end Sys2Proof.Proofs

/-! ## A write that moves a full poison list -/

namespace Sys2Proof.Proofs

open Sys2Proof Sys2Proof.Machine Sys2Proof.Claims

/-! ### Moved poison -/

theorem lineHop_of_moved {s : State} {ln : Nat} (h : sget 0 s.poisonMoved ln ≠ 0) : lineHop s ln ≠ 0 := by
  unfold lineHop
  dsimp only
  split
  · assumption
  · split
    · assumption
    · exact h

theorem hopOf_of_lineHop {s : State} {pa : Nat} (n : Nat) (h : lineHop s (pa / 64) ≠ 0) : hopOf s pa n ≠ 0 := by
  unfold hopOf
  dsimp only
  rw [if_pos h]
  exact h

theorem writeBack_moved (s : State) (ln : Nat) : (writeBack s ln).poisonMoved = s.poisonMoved := by
  unfold writeBack
  dsimp only
  split <;> rfl

/-- A write of part of a line moves a list only in making room for the line. -/
theorem homeWriteLine_moved (s : State) (ln off : Nat) {bs : List Byte} (h : bs.length ≠ 64) :
    (homeWriteLine s ln off bs).poisonMoved = (l2Room s ln).poisonMoved := by
  have hread : (readCheck (l2Room s ln) ln).poisonMoved = (l2Room s ln).poisonMoved := by
    unfold readCheck
    split <;> rfl
  unfold homeWriteLine
  dsimp only
  rw [if_neg h]
  exact hread

/-- A run of bytes inside a line is one piece. -/
theorem homePut_line (s : State) {pa : Nat} {bs : List Byte} (h0 : bs ≠ []) (h : pa % 64 + bs.length ≤ 64) :
    homePut s pa bs = homeWriteLine s (pa / 64) (pa % 64) bs := by
  have hdrop : bs.drop (64 - pa % 64) = [] := List.drop_eq_nil_of_le (by omega)
  have htake : bs.take (64 - pa % 64) = bs := List.take_of_length_le (by omega)
  have hpieces : linePieces (bs.length + 1) pa bs = [(pa / 64, pa % 64, bs)] := by
    obtain ⟨b, bs, rfl⟩ := List.exists_cons_of_ne_nil h0
    rw [linePieces, htake, hdrop]
    · rfl
    · exact h0
  unfold homePut
  rw [hpieces]
  rfl

theorem noteWrite_idle {s : State} (h : enginesBusy s = false) (space : Option Nat) (addr len : Nat) (bulk : Bool)
    (src : Option (Nat × Nat)) : noteWrite s space addr len bulk src = s := by
  unfold noteWrite
  rw [h]
  rfl

/-- A write at the home leaves the store path as it is. -/
theorem homeWrite_stores (s : State) (pa : Nat) (bs : List Byte) : (homeWrite s pa bs).stores = s.stores := by
  have way (s : State) (ln : Nat) : (makeWay s ln).stores = s.stores := by
    unfold makeWay writeBack
    dsimp only
    split <;> split <;> rfl
  have room (s : State) (ln : Nat) : (l2Room s ln).stores = s.stores := by
    rcases Laws.l2Room_cases s ln with e | ⟨v, n, e⟩ <;> rw [e]
    exact way s v
  have line (s : State) (p : Nat × Nat × List Byte) : (homeWriteLine s p.1 p.2.1 p.2.2).stores = s.stores := by
    have hread : (readCheck (l2Room s p.1) p.1).stores = s.stores := by
      rw [← room s p.1]
      unfold readCheck
      split <;> rfl
    rw [← hread]
    unfold homeWriteLine
    dsimp only
    split <;> rfl
  have pieces (ps : List (Nat × Nat × List Byte)) :
      ∀ s : State, (ps.foldl (fun s p => homeWriteLine s p.1 p.2.1 p.2.2) s).stores = s.stores := by
    induction ps with
    | nil => exact fun _ => rfl
    | cons p ps ih => exact fun s => (ih _).trans (line s p)
  have note : (noteWrite s none pa bs.length false).stores = s.stores := by
    unfold noteWrite
    split <;> rfl
  exact (pieces _ _).trans note

/-! ### A full L2 -/

/-- Lines of L2, one after another, that hold the same bytes. -/
def lineRun (first n : Nat) (bs : List Byte) : List (Nat × List Byte) := (List.range' first n).map fun ln => (ln, bs)

theorem mem_lineRun {first n : Nat} {bs : List Byte} {x : Nat × List Byte} (h : x ∈ lineRun first n bs) :
    first ≤ x.1 ∧ x.1 < first + n ∧ x.2 = bs := by
  obtain ⟨ln, hln, rfl⟩ := List.mem_map.1 h
  obtain ⟨h1, h2⟩ := List.mem_range'_1.1 hln
  exact ⟨h1, h2, rfl⟩

theorem lineRun_sok {bs : List Byte} (hb : bs ≠ []) (first n : Nat) : sok [] (lineRun first n bs) = true := by
  have hfrom (n : Nat) : ∀ first lo, (∀ k ∈ lo, k < first) → sokFrom [] lo (lineRun first n bs) = true := by
    induction n with
    | zero => intros; rfl
    | succ n ih =>
      intro first lo hlo
      have hrest := ih (first + 1) (some first) (by rintro k ⟨⟩; omega)
      have hcons : lineRun first (n + 1) bs = (first, bs) :: lineRun (first + 1) n bs := by
        unfold lineRun
        rw [List.range'_succ, List.map_cons]
      rw [hcons]
      unfold sokFrom
      rw [hrest]
      cases lo with
      | none => simp [hb]
      | some k => simp [hb, hlo k rfl]
  exact hfrom n first none nofun

/-- A line outside a run is not in it. -/
theorem sget_lineRun {first n : Nat} {bs : List Byte} {ln : Nat} (h : ¬ (first ≤ ln ∧ ln < first + n)) :
    sget [] (lineRun first n bs) ln = [] := by
  induction n generalizing first with
  | zero => rfl
  | succ n ih =>
    unfold lineRun at *
    rw [List.range'_succ, List.map_cons, sget, if_neg (by omega), ih (by omega)]

/-- Where the lines of a die fill its L2 and one alone is marked first to evict, it makes way for any line that is not there
(R86, R267). -/
theorem l2Room_first {s : State} {ln v : Nat} (hmark : s.l2First = [(v, true)]) (hv : ∃ bs, (v, bs) ∈ s.l2)
    (hln : slisted s.l2 ln = false) (hdie : ∀ x ∈ s.l2, homeDie (64 * x.1) = homeDie (64 * ln)) (hfull : l2Lines ≤ s.l2.length) :
    ∃ n, l2Room s ln = { makeWay s v with fresh := n } := by
  have hmine : s.l2.filter (fun x => homeDie (64 * x.1) == homeDie (64 * ln)) = s.l2 :=
    List.filter_eq_self.2 fun x hx => beq_iff_eq.2 (hdie x hx)
  have hkey (k : Nat) : sget false s.l2First k = true ↔ k = v := by
    rw [hmark, sget, sget_nil]
    split <;> simp [*]
  generalize hfirst : s.l2.filter (fun x => sget false s.l2First x.1) = first
  have hpick (x : Nat × List Byte) (hx : x ∈ first) : x.1 = v := by
    rw [← hfirst, List.mem_filter] at hx
    exact (hkey x.1).1 hx.2
  have hne : 0 < first.length := by
    obtain ⟨bs, hbs⟩ := hv
    rw [← hfirst]
    exact List.length_pos_of_mem (List.mem_filter.2 ⟨hbs, (hkey v).2 rfl⟩)
  have hsome : first.isEmpty = false := by
    rw [List.isEmpty_eq_false_iff]
    exact List.length_pos_iff.1 hne
  have hlt := Nat.mod_lt (Config.freeNat s.fresh) hne
  unfold l2Room
  simp only [hmine, hfirst, hsome, hln, Nat.not_lt.2 hfull, decide_false, Bool.or_false, Bool.false_eq_true, if_false,
    List.getElem?_eq_getElem hlt, hpick _ (List.getElem_mem hlt)]
  exact ⟨_, rfl⟩

end Sys2Proof.Proofs

/-! ## Atomics where a poison list is out of form -/

namespace Sys2Proof.Proofs

open Sys2Proof Sys2Proof.Machine Sys2Proof.Claims

/-! ### The machine -/

/-- The word of lane 0 and that of lane 1: in lines of one controller. -/
def wordAddrs (l : Nat) : Nat := 0x300006000 + 64 * l

/-- The line of lane 1's word. -/
def hiddenLine : Nat := 0xC000181

/-- The first of the lines that fill L2: the only poisoned one, and the one marked first to evict. -/
def evictedLine : Nat := 0x1000000

/-- A full poison list whose first entry for a line says that it is good, and whose later ones that it is not. It is not canonical
(sok), which State.Inv does not ask of it. -/
def hiddenPoison : List (Nat × Nat) := (hiddenLine, 0) :: List.replicate 4095 (hiddenLine, 3)

/-- A team of two lanes at a word, with their addresses in v2 and v3 and the number 5 in v8. -/
def twoLaneTeam : Team :=
  { nopTeam with
    live := 3, active := 3
    regs := (List.range 2).flatMap fun l => [(regKey l 2, BitVec.ofNat 32 (0x6000 + 64 * l)), (regKey l 8, 5)] }

/-- The machine of that team with that list and an empty L2. -/
def emptyL2Machine : State :=
  { machineWith twoLaneTeam with
    l2Bad := [(evictedLine, 1)], l2First := [(evictedLine, true)], poison := hiddenPoison }

/-- The same machine with one die's L2 full of lines of zeros, none of which the team uses. -/
def fullL2Machine : State := { emptyL2Machine with l2 := lineRun evictedLine l2Lines (List.replicate 64 0) }

/-- The word that the team issues: an add of v8 to the words of memory. -/
def addWordInstr : Instr := .atom 12 2 8 0 0

theorem fullL2_inv : fullL2Machine.Inv :=
  ⟨(by decide +kernel : Memory.wf emptyL2Machine.mem = true), lineRun_sok (by decide) _ _,
    fun x hx => by rw [(mem_lineRun hx).2.2, List.length_replicate]⟩

theorem fullL2_line {ln : Nat} (h : ln < 0x1000000 ∨ 0x10C0000 ≤ ln) : sget [] fullL2Machine.l2 ln = [] :=
  sget_lineRun (by unfold evictedLine l2Lines; omega)

/-- Outside the lines in L2 the two machines hold the same bytes. -/
theorem fullL2_homeByte {a : Nat} (h : a < 0x40000000 ∨ 0x43000000 ≤ a) : homeByte fullL2Machine a = homeByte emptyL2Machine a := by
  unfold homeByte
  rw [fullL2_line (by omega)]
  rfl

/-- The address of a lane's word. -/
def wordXlat (l : Nat) : Xlat := ⟨wordAddrs l, 0, 0, 0⟩

/-- The entries by which the words are found lie below the lines in L2. -/
theorem fullL2_entries : ∀ l ∈ execLanes emptyL2Machine twoLaneTeam 0,
    ∀ p ∈ Laws.pathEntries emptyL2Machine (pairAddr twoLaneTeam l 2).toNat twoLaneTeam.root.lvl twoLaneTeam.root.node,
      p.1 + 16 * p.2 + 16 ≤ 0x40000000 := by decide +kernel

theorem emptyL2_translate : ∀ l ∈ execLanes emptyL2Machine twoLaneTeam 0,
    translate emptyL2Machine twoLaneTeam.root (pairAddr twoLaneTeam l 2) .atomic none = .ok (wordXlat l) := by decide +kernel

theorem twoLanes : execLanes fullL2Machine twoLaneTeam 0 = [0, 1] := by decide +kernel

theorem fullL2_hit : LanesHit fullL2Machine twoLaneTeam (execLanes fullL2Machine twoLaneTeam 0) .atomic
    (fun l => pairAddr twoLaneTeam l 2) wordAddrs 4 where
  aligned := by decide +kernel
  mapped l hl := by
    refine ⟨wordXlat l, ?_, rfl⟩
    rw [Laws.translate_path (s := emptyL2Machine) (s' := fullL2Machine) _ _ _ _ rfl, emptyL2_translate l hl]
    intro p hp
    have hlow := fullL2_entries l hl p hp
    unfold readEntry homeBytes
    congr 2
    refine List.map_congr_left fun i hi => fullL2_homeByte ?_
    have := List.mem_range.1 hi
    omega
  own := by decide +kernel
  good := by decide +kernel

theorem fullL2_accepted : Accepted fullL2Machine twoLaneTeam addWordInstr ([2, 3] ++ [8] ++ predSlot 0 ++ [12]) where
  cur := by decide +kernel
  legal := by decide +kernel
  bound := by decide +kernel
  whole := rfl
  first := ⟨rfl, rfl⟩

theorem fullL2_clean : CleanLanes fullL2Machine twoLaneTeam 0 ([2, 3] ++ [8] ++ predSlot 0) :=
  ⟨by decide +kernel, by decide +kernel⟩

/-! ### What its atomic does -/

theorem hiddenPoison_line {x : Nat × Nat} (h : x ∈ hiddenPoison) : x.1 = hiddenLine := by
  rcases List.mem_cons.1 h with rfl | h
  · rfl
  · rw [(List.mem_replicate.1 h).2]

theorem hiddenPoison_last : hiddenPoison = ((hiddenLine, 0) :: List.replicate 4094 (hiddenLine, 3)) ++ [(hiddenLine, 3)] :=
  congrArg ((hiddenLine, 0) :: ·) List.replicate_succ'

/-- Moving such a list brings out the poison that it hides. -/
theorem moveList_hidden {s : State} (h : s.poison = hiddenPoison) :
    sget 0 (moveList s (ctrlOf (64 * hiddenLine))).poisonMoved hiddenLine = 3 := by
  have hall : hiddenPoison.filter (fun x => ctrlOf (64 * x.1) == ctrlOf (64 * hiddenLine)) = hiddenPoison :=
    List.filter_eq_self.2 fun x hx => by rw [hiddenPoison_line hx]; exact beq_self_eq_true _
  unfold moveList
  dsimp only
  rw [h, hall, hiddenPoison_last]
  exact sget_sputs_last 0 _ [] _ _ _ (by simp)

/-- There is no room in it for the line that is to be evicted. -/
theorem listRoom_hidden {s : State} (h : s.poison = hiddenPoison) (hb : s.l2Bad = [(evictedLine, 1)]) :
    listRoom s evictedLine = false := by
  have hl : listed s (ctrlOf (64 * evictedLine)) = listed emptyL2Machine (ctrlOf (64 * evictedLine)) := by
    unfold listed
    rw [h]
    rfl
  unfold listRoom
  rw [h, hb, hl]
  decide +kernel

/-- To write lane 0's word, L2 makes way for its line. -/
theorem l2Room_full {s : State} (hs : KeepsMemory fullL2Machine s) :
    ∃ n, l2Room s (wordAddrs 0 / 64) = { makeWay s evictedLine with fresh := n } := by
  have hl2 : s.l2 = lineRun evictedLine l2Lines (List.replicate 64 0) := hs.l2
  have hlines (x : Nat × List Byte) (hx : x ∈ s.l2) : 0x1000000 ≤ x.1 ∧ x.1 < 0x10C0000 := by
    rw [hl2] at hx
    exact ⟨(mem_lineRun hx).1, (mem_lineRun hx).2.1⟩
  refine l2Room_first (by rw [hs]; rfl) ⟨List.replicate 64 0, ?_⟩ ?_ (fun x hx => ?_) ?_
  · rw [hl2]
    exact List.mem_map.2 ⟨evictedLine, List.mem_range'_1.2 ⟨Nat.le_refl _, by unfold l2Lines; omega⟩, rfl⟩
  · unfold slisted
    rw [List.any_eq_false]
    intro x hx he
    have := hlines x hx
    rw [beq_iff_eq.1 he] at this
    exact absurd this (by decide)
  · have hdie : homeDie (64 * (wordAddrs 0 / 64)) = 0 := by decide
    obtain ⟨h1, h2⟩ := hlines x hx
    have hgddr : isGddr (64 * x.1) = true := decide_eq_true (by omega)
    rw [hdie]
    unfold homeDie
    rw [hgddr, if_pos rfl]
    omega
  · rw [hl2]
    unfold lineRun
    rw [List.length_map, List.length_range']

/-- A write of lane 0's word moves the list, and so poisons lane 1's line. -/
theorem homeWrite_poisons {s : State} (hs : KeepsMemory fullL2Machine s) {bs : List Byte} (hb : bs.length = 4) :
    lineHop (homeWrite s (wordAddrs 0) bs) (wordAddrs 1 / 64) ≠ 0 := by
  have hpoison : s.poison = hiddenPoison := by rw [hs]; rfl
  have hbad : s.l2Bad = [(evictedLine, 1)] := by rw [hs]; rfl
  have hidle : enginesBusy s = false := by
    unfold enginesBusy
    rw [hs.cores]
    decide +kernel
  obtain ⟨n, hroom⟩ := l2Room_full hs
  have hway : (l2Room s (wordAddrs 0 / 64)).poisonMoved = (moveList s (ctrlOf (64 * hiddenLine))).poisonMoved := by
    rw [hroom]
    change (makeWay s evictedLine).poisonMoved = _
    unfold makeWay
    rw [writeBack_moved, listRoom_hidden hpoison hbad]
    rfl
  have hmoved : (homeWrite s (wordAddrs 0) bs).poisonMoved = (moveList s (ctrlOf (64 * hiddenLine))).poisonMoved := by
    unfold homeWrite
    rw [noteWrite_idle hidle, homePut_line s (List.length_pos_iff.1 (by omega)) (by rw [hb]; decide),
      homeWriteLine_moved _ _ _ (by omega), hway]
  refine lineHop_of_moved ?_
  change sget 0 (homeWrite s (wordAddrs 0) bs).poisonMoved hiddenLine ≠ 0
  rw [hmoved, moveList_hidden hpoison]
  decide

/-- The atomic changes no byte but those of lane 0's word. -/
theorem fullL2_atom : ∃ s', exec addWordInstr fullL2Machine = .next s' ∧
    ∀ a, ¬ (wordAddrs 0 ≤ a ∧ a < wordAddrs 0 + 4) → homeByte s' a = homeByte fullL2Machine a := by
  obtain ⟨g, s0, keys, v, w, hkeep, hst, hx⟩ := atom_words (by decide +kernel) fullL2_accepted fullL2_clean fullL2_hit
    (by rw [twoLanes]; decide)
  have hno (s : State) (h : s.stores = s0.stores) : NoStores s (Team.reread (counted twoLaneTeam) g) := by
    have hnil : s.stores = [] := h.trans (hst.trans rfl)
    intro e he
    rw [hnil] at he
    cases he
  have hinv : s0.Inv := Laws.Inv.congr fullL2_inv hkeep.mem hkeep.l2
  have hgood : hopOf s0 (wordAddrs 0) 4 = 0 := (hkeep.hopOf _ _).trans (by decide +kernel)
  rw [twoLanes] at hx
  simp only [List.map_cons, List.map_nil, List.foldl_cons, List.foldl_nil,
    atomWord_home _ _ _ _ _ _ _ _ _ (x := (wordAddrs 0, _)) (by decide : isPeer (wordAddrs 0) = false),
    atomWord_home _ _ _ _ _ _ _ _ _ (x := (wordAddrs 1, _)) (by decide : isPeer (wordAddrs 1) = false)] at hx
  obtain ⟨r1, bs, h1, hb, hs1, hop1, htags1⟩ := homeAtom_writes (op := 0) (m := Mods.zero) (keys := keys) (v := v) (w := w) (l := 0)
    (va := pairAddr twoLaneTeam 0 2) (r := startRun s0 (some twoLaneTeam.clause.seta.toNat) [] true false false)
    (f := twoLaneTeam.clause.seta.toNat) (hno s0 rfl) rfl hgood ⟨rfl, rfl, rfl, rfl⟩
  have hbad : hopOf r1.s (wordAddrs 1) 4 ≠ 0 := by
    rw [hs1]
    exact hopOf_of_lineHop 4 (homeWrite_poisons hkeep hb)
  obtain ⟨r2, h2, hs2, hop2, htags2⟩ := homeAtom_spares (op := 0) (m := Mods.zero) (keys := keys) (v := v) (w := w) (l := 1)
    (va := pairAddr twoLaneTeam 1 2) (hno r1.s (by rw [hs1]; exact homeWrite_stores s0 _ bs)) hbad hop1
  refine ⟨_, hx.trans ((congrArg _ ((congrArg (homeAtom _ _ _ _ _ _ _ _ · _) h1).trans h2)).trans
    (finishRun_home (htags2.trans htags1))), fun a ha => ?_⟩
  rw [homeByte_settleMem rfl rfl hop2, hs2, hs1]
  refine (homeByte_congr rfl rfl a).trans ((Laws.homeByte_homeWrite hinv _ bs a none).trans ?_)
  rw [if_neg (by rw [hb]; exact ha)]
  exact hkeep.homeByte a

theorem wordAddrs_apart (lanes : List Nat) (n : Nat) (hn : n ≤ 64) : Apart lanes wordAddrs n := by
  intro l _ m _ hlm
  unfold wordAddrs
  omega

theorem leNat_congr {b c : Nat → Byte} {n : Nat} (h : ∀ j < n, b j = c j) : leNat b n = leNat c n := by
  unfold leNat
  exact congrArg List.sum (List.map_congr_left fun j hj => by rw [h j (List.mem_range.1 hj)])

/-- Lane 1's word in the full machine is zero. -/
theorem fullL2_word : leNat (memFrom fullL2Machine (wordAddrs 1)) 4 = 0 := by
  have hempty : leNat (memFrom emptyL2Machine (wordAddrs 1)) 4 = 0 := by decide +kernel
  rw [← hempty]
  exact leNat_congr fun j _ => fullL2_homeByte (by unfold wordAddrs; omega)

/-- Refutes O19: the statement asks of its states State.Inv alone, which leaves the poison lists free. In a machine whose L2 is full
and whose full poison list holds two entries for lane 1's line, the first of which says that it is good, both words hit good lines.
The write of lane 0's word evicts a poisoned line, for which the list is moved; the second entry comes out, lane 1's line is
poisoned, and lane 1's word never gets its new value. -/
theorem not_atomicsOnSeparateWords : ¬ Obligations.AtomicsOnSeparateWords := by
  intro h
  have hbytes : atomBytes (modsOf twoLaneTeam) = 4 := by decide +kernel
  obtain ⟨hatom, -⟩ := h fullL2Machine twoLaneTeam 2 8 0 wordAddrs fullL2_inv (fun e he => absurd he List.not_mem_nil) fullL2_hit
    (wordAddrs_apart _ _ (by rw [hbytes]; decide))
  obtain ⟨s', hx, -, -, hnew, -⟩ := hatom 12 0 fullL2_accepted fullL2_clean (by unfold NoOwedSave; decide +kernel)
  obtain ⟨s1, hx1, hkept⟩ := fullL2_atom
  unfold addWordInstr at hx1
  rw [hx] at hx1
  injection hx1 with hs
  subst hs
  have hword := hnew 1 (by rw [twoLanes]; decide)
  have hsame : leNat (memFrom s' (wordAddrs 1)) 4 = leNat (memFrom fullL2Machine (wordAddrs 1)) 4 :=
    leNat_congr fun j _ => hkept _ (by unfold wordAddrs; omega)
  rw [hbytes, hsame, fullL2_word] at hword
  exact absurd hword (by decide +kernel)

end Sys2Proof.Proofs

/-! ## The invariant: memory, L2 and caches -/

namespace Sys2Proof.Proofs

open Sys2Proof Sys2Proof.Machine Sys2Proof.Laws

set_option Elab.async false

/-- An outcome that is a next state leaves memory and L2 in canonical form. -/
structure KeepsInv (o : Out) : Prop where
  inv : ∀ s', o = .next s' → s'.Inv

@[simp] theorem keeps_next {s : State} : KeepsInv (.next s) ↔ s.Inv :=
  ⟨fun h => h.inv s rfl, fun h => ⟨fun _ e => Host.Outcome.next.inj e ▸ h⟩⟩

@[simp] theorem keeps_fault (f : Fault) : KeepsInv (.fault f) := ⟨fun _ e => nomatch e⟩

@[simp] theorem keeps_refused (r : Refusal) : KeepsInv (.refused r) := ⟨fun _ e => nomatch e⟩

@[simp] theorem keeps_notEnabled (name : String) : KeepsInv (notEnabled name) := keeps_refused _

/-- A state changed outside its arrays and L2 keeps the form. -/
@[simp] theorem inv_with (s : State) {a1 a2 a3 a4 a5 a6 a7 a8 a9 a10 a11 a12 a13 a14 a15 a16 a17 a18 a19 a20 a21 a22 a23 a24
    a25 a26 a27 a28 a29 a30 a31 a32 a33 a34 a35 a36 a37 a38 a39 a40 a41 a42 a43 a44 a45 a46 a47} :
  State.Inv (State.mk s.mem s.l2 a1 a2 a3 a4 a5 a6 a7 a8 a9 a10 a11 a12 a13 a14 a15 a16 a17 a18 a19 a20 a21 a22 a23 a24 a25
      a26 a27 a28 a29 a30 a31 a32 a33 a34 a35 a36 a37 a38 a39 a40 a41 a42 a43 a44 a45 a46 a47) ↔ s.Inv := Iff.rfl

theorem moveList_inv {s : State} (h : s.Inv) (ctrl : Nat) : (moveList s ctrl).Inv := h

theorem clearLine_inv {s : State} (h : s.Inv) (ln : Nat) : (clearLine s ln).Inv := h

theorem readCheck_inv {s : State} (h : s.Inv) (ln : Nat) : (readCheck s ln).Inv := by
  grind [readCheck, inv_with]

theorem noteCover_inv {s : State} (h : s.Inv) (grp pa len : Nat) : (noteCover s grp pa len).Inv := by
  grind [noteCover, clearLine_inv, inv_with]

theorem noteWrite_inv {s : State} (h : s.Inv) (space : Option Nat) (addr len : Nat) (bulk : Bool) (src : Option (Nat × Nat))
    (cmd : Option Nat) : (noteWrite s space addr len bulk src cmd).Inv := by
  grind [noteWrite, inv_with]

theorem l1Invalidate_inv {s : State} (h : s.Inv) (core : Nat) : (l1Invalidate s core).Inv := h

theorem l1Drop_inv {s : State} (h : s.Inv) (core ln : Nat) : (l1Drop s core ln).Inv := h

theorem l1Fill_inv {s : State} (h : s.Inv) (core ln : Nat) : (l1Fill s core ln).Inv := h

theorem icFill_inv {s : State} (h : s.Inv) (core ln : Nat) : (icFill s core ln).Inv := h

theorem l1Update_inv {s : State} (h : s.Inv) (core pa : Nat) (bs : List Byte) : (l1Update s core pa bs).Inv := h

theorem showAll_inv {s : State} (h : s.Inv) (u : Nat) : (showAll s u).Inv := h

end Sys2Proof.Proofs

/-! ## The invariant: translation, operations and operands -/

namespace Sys2Proof.Proofs

open Sys2Proof Sys2Proof.Machine Sys2Proof.Laws

set_option Elab.async false

theorem repairSide_inv {s : State} (h : s.Inv) (side off : Nat) : (repairSide s side off).Inv := by
  grind [repairSide, homePut_inv, inv_with]

theorem setTeam_inv {s : State} (h : s.Inv) (t : Team) : (setTeam s t).Inv := h

theorem setCtx_inv {s : State} (h : s.Inv) (c : Context) : (setCtx s c).Inv := h

theorem setGrid_inv {s : State} (h : s.Inv) (c : Nat) (g : Grid) : (setGrid s c g).Inv := by
  grind [setGrid, setCtx_inv]

theorem setCluster_inv {s : State} (h : s.Inv) (k : Cluster) : (setCluster s k).Inv := h

theorem setCore_inv {s : State} (h : s.Inv) (c : CoreSt) : (setCore s c).Inv := h

theorem setDie_inv {s : State} (h : s.Inv) (d : Nat) (x2 : Die) : (setDie s d x2).Inv := h

theorem noteWalk_inv {s : State} (h : s.Inv) (core : Nat) (root : RootDesc) (va : DWord) : (noteWalk core root s va).Inv :=
    by
  grind [noteWalk, setDie_inv]

theorem noteWalks_inv {s : State} (h : s.Inv) (t : Team) (vas : List DWord) : (noteWalks s t vas).Inv :=
  foldl_inv _ (fun _ _ h => noteWalk_inv h ..) _ h

theorem fillMiss_inv {s : State} (h : s.Inv) (die : Nat) (m : Miss) : (fillMiss s die m).Inv := by
  grind [fillMiss, setCore_inv, setDie_inv]

theorem bump_inv {s : State} (h : s.Inv) (t : Team) : (bump s t).Inv := by
  grind [bump, inv_with]

theorem taintBy_inv {s : State} (h : s.Inv) (word : Bool) (t : Team) (keys : List Nat) : (taintBy word s t keys).Inv := h

theorem taint_inv {s : State} (h : s.Inv) (t : Team) (keys : List Nat) : (taint s t keys).Inv := h

theorem taintRows_inv {s : State} (h : s.Inv) (t : Team) (keys : List Nat) : (taintRows s t keys).Inv := h

/-- The FLAGS byte of a record. -/
def recFlags (t : Team) (r : Rec) (hnd kill noh : Bool) : Nat :=
  (if hnd then 1 else 0) + (if kill then 2 else 0) + (if r.dlv then 4 else 0) + (if t.block.isSome then 8 else 0) +
    (if noh then 16 else 0)

theorem writeRecs_nil (s : State) (t : Team) (c : Context) (hnd kill noh : Bool) (nrec idx : Nat) :
    writeRecs s t c hnd kill noh nrec idx [] = s := rfl

section
variable {s : State} {t : Team} {c : Context} {idx : Nat}
theorem writeRecs_cons_ok {x : Xlat} (hx : translate s t.root (frqVa c idx) .write none = .ok x)
    (hnd kill noh : Bool) (nrec : Nat) (r : Rec) (rest : List Rec) :
    writeRecs s t c hnd kill noh nrec idx (r :: rest) =
      writeRecs (l1Drop (homeWrite s x.pa (recBytes t r (recFlags t r hnd kill noh) nrec (idx % 2 ^ 32))) t.core (x.pa / 64))
        t c hnd kill noh nrec (idx + 1) rest := by
  have hbody : @writeRecs._f = @writeRecs._f := rfl
  conv at hbody => rhs; delta writeRecs._f
  obtain ⟨walk, hwalk⟩ : ∃ walk, Machine.translate = walk := ⟨_, rfl⟩
  obtain ⟨recs, hrecs⟩ : ∃ recs, recs = r :: rest := ⟨_, rfl⟩
  rw [← hrecs]
  delta writeRecs
  rw [hwalk] at hx
  rw [hbody, hwalk, hrecs]
  dsimp only [List.brecOn]
  rw [hx]
  rfl
theorem writeRecs_cons_fault {cls : Nat} {aux : DWord} (hx : translate s t.root (frqVa c idx) .write none = .fault cls aux)
    (hnd kill noh : Bool) (nrec : Nat) (r : Rec) (rest : List Rec) :
    writeRecs s t c hnd kill noh nrec idx (r :: rest) = s := by
  have hbody : @writeRecs._f = @writeRecs._f := rfl
  conv at hbody => rhs; delta writeRecs._f
  obtain ⟨walk, hwalk⟩ : ∃ walk, Machine.translate = walk := ⟨_, rfl⟩
  obtain ⟨recs, hrecs⟩ : ∃ recs, recs = r :: rest := ⟨_, rfl⟩
  rw [← hrecs]
  delta writeRecs
  rw [hwalk] at hx
  rw [hbody, hwalk, hrecs]
  dsimp only [List.brecOn]
  rw [hx]
end
theorem writeRecs_inv {s : State} (h : s.Inv) (t : Team) (c : Context) (hnd kill noh : Bool) (nrec idx : Nat)
    (recs : List Rec) :
    (writeRecs s t c hnd kill noh nrec idx recs).Inv := by
  induction recs generalizing s idx with
  | nil => exact h
  | cons r rest ih =>
    cases hx : Machine.translate s t.root (frqVa c idx) .write none with
    | ok x => 
      rw [writeRecs_cons_ok hx]
      exact ih (l1Drop_inv (homeWrite_inv h ..) ..) _
    | fault cls aux => rw [writeRecs_cons_fault hx]; exact h

theorem bufUpdate_inv {s : State} (h : s.Inv) (core into off : Nat) (bs : List Byte) : (bufUpdate s core into off bs).Inv :=
  h

theorem scrPut_inv {s : State} (h : s.Inv) (core into off : Nat) (bs : List Byte) : (scrPut s core into off bs).Inv := by
  grind [scrPut, bufUpdate_inv, setTeam_inv]

theorem performSet_inv {s : State} (h : s.Inv) (p : StoreEnt → Bool) : (performSet s p).Inv := performAll_inv h _

theorem drainCore_inv {s : State} (h : s.Inv) (core : Nat) : (drainCore s core).Inv := by
  grind [drainCore, performSet_inv]

theorem releaseNow_inv {s : State} (h : s.Inv) (u : Nat) : (releaseNow s u).Inv := by
  grind [releaseNow, performSet_inv]

theorem showNow_inv {s : State} (h : s.Inv) (u : Nat) : (showNow s u).Inv := by
  grind [showNow, showAll_inv, performSet_inv]

theorem scrNow_inv {s : State} (h : s.Inv) (u : Nat) : (scrNow s u).Inv := by
  grind [scrNow, performSet_inv]

theorem flushReleases_inv {s : State} (h : s.Inv) (u scope : Nat) : (flushReleases s u scope).Inv := by
  grind [flushReleases, performSet_inv]

theorem flushFences_inv {s : State} (h : s.Inv) (u : Nat) : (flushFences s u).Inv := by
  grind [flushFences, performSet_inv]

theorem drainNow_inv {s : State} (h : s.Inv) (u : Nat) : (drainNow s u).Inv := by
  grind [drainNow, performSet_inv]

theorem redsNow_inv {s : State} (h : s.Inv) (u : Nat) : (redsNow s u).Inv := by
  grind [redsNow, performSet_inv]

theorem drainAll_inv {s : State} (h : s.Inv) (u : Nat) : (drainAll s u).Inv := by
  grind [drainAll, performSet_inv]

theorem drainBelow_inv {s : State} (h : s.Inv) (u core bound : Nat) : (drainBelow s u core bound).Inv := by
  grind [drainBelow, performSet_inv]

theorem performUpTo_inv {s : State} (h : s.Inv) (t : Team) (pa n : Nat) (home atomic : Bool) :
    (performUpTo s t pa n home atomic).Inv := by
  grind [performUpTo, performSet_inv]

theorem performScrUpTo_inv {s : State} (h : s.Inv) (u into off n : Nat) : (performScrUpTo s u into off n).Inv := by
  grind [performScrUpTo, performSet_inv]

theorem undoIssue_inv {s : State} (h : s.Inv) (gone : List Nat) (i : Issue) : (undoIssue gone s i).Inv := by
  grind [undoIssue, homePut_inv, foldl_inv, inv_with]

theorem undoCommands_inv {s : State} (h : s.Inv) (us : List Nat) : (undoCommands s us).Inv := by
  grind [undoCommands, undoIssue_inv, foldl_inv]

theorem dropCommands_inv {s : State} (h : s.Inv) (us : List Nat) : (dropCommands s us).Inv := by
  grind [dropCommands, undoCommands_inv, inv_with]

theorem withdraw_inv {s : State} (h : s.Inv) (seqs : List Nat) : (withdraw s seqs).Inv := h

theorem scrubLeases_inv {s : State} (h : s.Inv) (t : Team) : (scrubLeases s t).Inv := by
  grind [scrubLeases, setCore_inv]

theorem killGrid_inv {s : State} (h : s.Inv) (ctx grid team clus : Nat) (pc : Word) : (killGrid s ctx grid team clus pc).Inv
    := by
  grind [killGrid, scrubLeases_inv, withdraw_inv, dropCommands_inv, setGrid_inv, foldl_inv, inv_with]

theorem writePieces_inv {s : State} (h : s.Inv) (core : Nat) (pas : List Nat) (bs : List Byte) :
    (writePieces s core pas bs).Inv := by
  induction pas generalizing s bs with
  | nil => exact h
  | cons pa pas ih => exact ih (foldl_inv _ (fun _ _ h => l1Drop_inv h ..) _ (homeWrite_inv h ..)) _

theorem enterHandler_inv {s : State} (h : s.Inv) (t : Team) (tr : Trap) (deliver : List Nat) (first : Nat) :
    (enterHandler s t tr deliver first).Inv := by
  grind [enterHandler, writePieces_inv, poisonLine_inv, setTeam_inv, taintRows_inv, foldl_inv]

theorem finishTrap_inv {s : State} (h : s.Inv) (t : Team) (tr : Trap) (first : Nat) : (finishTrap s t tr first).Inv := by
  grind [finishTrap, enterHandler_inv, setTeam_inv, killGrid_inv]

theorem settle_inv {s : State} (h : s.Inv) (u : Nat) : (settle s u).Inv := by
  grind [settle, setCtx_inv, killGrid_inv, releaseNow_inv, writeRecs_inv, finishTrap_inv]

theorem raiseTrap_inv {s : State} (h : s.Inv) (t : Team) (recs : List Rec) (rmask : Mask) (fin : TrapEnd) (wide : Bool) :
    (raiseTrap s t recs rmask fin wide).Inv := by
  grind [raiseTrap, settle_inv, setTeam_inv]

theorem raiseWide_inv {s : State} (h : s.Inv) (t : Team) (cls : Nat) (addr aux : DWord) : (raiseWide s t cls addr aux).Inv :=
    by
  grind [raiseWide, raiseTrap_inv]

theorem raiseIll_inv {s : State} (h : s.Inv) (t : Team) (reason check : Nat) : (raiseIll s t reason check).Inv := by
  grind [raiseIll, raiseWide_inv]

theorem loseLanes_inv {s : State} (h : s.Inv) (t : Team) (pc : Word) (ls : List Loss) : (loseLanes s t pc ls).Inv := by
  unfold loseLanes
  split
  · exact setTeam_inv h _
  · dsimp only
    split
    · exact raiseTrap_inv h ..
    · exact settle_inv (setTeam_inv h _) _

theorem raisePartial_inv {s : State} (h : s.Inv) (t : Team) (fs : List LaneFault) (ls : List Loss) :
    (raisePartial s t fs ls).Inv := by
  grind [raisePartial, raiseTrap_inv]

theorem withCauses_keeps {s : State} (h : s.Inv) (i : Instr) (reads writes : Mods → List Nat)
    (own : Team → Mods → List (Nat × Nat))
    {k : Team → Mods → Out} (hk : ∀ t m, KeepsInv (k t m)) : KeepsInv (withCauses i s reads writes own k) := by
  grind [withCauses, raiseIll_inv, raiseWide_inv, keeps_fault, keeps_next]

theorem withWord_keeps {s : State} (h : s.Inv) (i : Instr) (reads writes : Mods → List Nat)
    {k : Team → Mods → Out} (hk : ∀ t m, KeepsInv (k t m)) :
        KeepsInv (withWord i s reads writes k) := withCauses_keeps h _ _ _ _ hk

theorem finish_inv {s : State} (h : s.Inv) (t : Team) (keys : List Nat) (losses : List Loss) :
    (finish s t t' keys losses).Inv := by
  grind [finish, loseLanes_inv, taint_inv, bump_inv]

theorem vecOp_keeps {s : State} (h : s.Inv) (i : Instr) (p : BitVec 2) (srcs dsts : List Nat)
    (f : Mods → Option (BitVec 20) → List Word → List Word × Nat) : KeepsInv (vecOp i s p srcs dsts f) :=
  withWord_keeps h _ _ _ fun _ _ => keeps_next.2 (finish_inv h ..)

theorem vec1_keeps {s : State} (h : s.Inv) (i : Instr) (p : BitVec 2) (d a : BitVec 5) (f : Mods → Word → Word × Nat) :
    KeepsInv (vec1 i s p d a f) := vecOp_keeps h ..

theorem vec2_keeps {s : State} (h : s.Inv) (i : Instr) (p : BitVec 2) (d a b : BitVec 5)
    (f : Mods → Word → Word → Word × Nat) :
    KeepsInv (vec2 i s p d a b f) := vecOp_keeps h ..

theorem vec3_keeps {s : State} (h : s.Inv) (i : Instr) (p : BitVec 2) (d a b c : BitVec 5)
    (f : Mods → Word → Word → Word → Word × Nat) :
    KeepsInv (vec3 i s p d a b c f) := vecOp_keeps h ..

theorem vecI_keeps {s : State} (h : s.Inv) (i : Instr) (d a : BitVec 5) (f : Option (BitVec 20) → Word → Word) :
    KeepsInv (vecI i s d a f) := vecOp_keeps h ..

theorem consume_keeps {s : State} (h : s.Inv) (t : Team) (lanes srcs : List Nat) {k : Out} (hk : KeepsInv k) :
    KeepsInv (consume s t lanes srcs k) := by
  grind [consume, loseLanes_inv, keeps_next]

theorem withLead_keeps {s : State} (h : s.Inv) (t : Team) (srcs dsts : List Nat) {k : Out} (hk : KeepsInv k) :
    KeepsInv (withLead s t srcs dsts k) := by
  grind [withLead, consume_keeps, finish_inv, keeps_next]

theorem execCvtFf_keeps {s : State} (h : s.Inv) (d a : BitVec 5) (st : BitVec 3) (nof : BitVec 1) (dt : BitVec 3)
    (p : BitVec 2) : KeepsInv (execCvtFf d a st nof dt p s) := by
  grind [execCvtFf, vecOp_keeps]

theorem writeGains_inv {s : State} (h : s.Inv) (t : Team) (d : BitVec 5) (gs : List Gain) (lost : List Loss) :
    (writeGains s t d gs lost).Inv := by
  grind [writeGains, finish_inv]

theorem crossOp_keeps {s : State} (h : s.Inv) (i : Instr) (p : BitVec 2) (srcs : List Nat) (d : BitVec 5)
    (f : Team → List Nat → Nat → Gathered) : KeepsInv (crossOp i s p srcs d f) := by
  unfold crossOp
  refine withWord_keeps h _ _ _ fun t m => ?_
  grind [writeGains_inv, inv_with, keeps_next]

end Sys2Proof.Proofs

/-! ## The invariant: fetch, control flow and streams -/

namespace Sys2Proof.Proofs

open Sys2Proof Sys2Proof.Machine Sys2Proof.Laws

set_option Elab.async false

theorem fetchWord_inv {s : State} (h : s.Inv) (t : Team) (a : Word) : (fetchWord s t a).1.Inv := by
  grind [fetchWord, noteWalks_inv, icFill_inv, inv_with]

theorem raiseFetch_inv {s : State} (h : s.Inv) (t : Team) (cls : Nat) (aux : DWord) : (raiseFetch s t cls aux).Inv := by
  grind [raiseFetch, raiseTrap_inv]

theorem poisonedWord_inv {s : State} (h : s.Inv) (t : Team) (a : Word) (hop : Nat) : (poisonedWord s t a hop).Inv := by
  grind [poisonedWord, raiseTrap_inv]

theorem toHeader_keeps {s : State} (h : s.Inv) (t : Team) (target : Word) {k : State → Out}
    (hk : ∀ s', s'.Inv → KeepsInv (k s')) : KeepsInv (toHeader s t target k) := by
  grind [toHeader, !fetchWord_inv, raiseWide_inv, poisonedWord_inv, keeps_next]

theorem deliver_inv {s : State} (h : s.Inv) (t : Team) (fs : List Issue) : (deliver s t fs).Inv := by
  grind [deliver, raiseTrap_inv]

theorem checkEnd_inv {s : State} (h : s.Inv) (u : Nat) : (checkEnd s u).Inv := by
  grind [checkEnd, deliver_inv]

theorem illAtMod_inv {s : State} (h : s.Inv) (t : Team) : (illAtMod s t).Inv := by
  grind [illAtMod, raiseIll_inv]

theorem execClauseHeader_keeps {s : State} (h : s.Inv) (w : BitVec 12) (a b : BitVec 4) (l : BitVec 5) (c : BitVec 2)
    (x5 x6 : BitVec 1) : KeepsInv (execClauseHeader w a b l c x5 x6 s) := by
  grind [execClauseHeader, illAtMod_inv, raiseIll_inv, deliver_inv, setTeam_inv, keeps_next, keeps_fault]

theorem hintOp_keeps {s : State} (h : s.Inv) (rs : Team → List Nat) {k : Team → Out} (hk : ∀ t, KeepsInv (k t)) :
    KeepsInv (hintOp s rs k) := by
  grind [hintOp, raiseIll_inv, keeps_fault, keeps_next]

theorem execExt_keeps {s : State} (h : s.Inv) (p : BitVec 20) : KeepsInv (execExt p s) := by
  grind [execExt, hintOp_keeps, setTeam_inv, keeps_next]

theorem execMod_keeps {s : State} (h : s.Inv) (r : BitVec 3) (z g : BitVec 1) (c : BitVec 2) (k : BitVec 3) (o : BitVec 2)
    (w : BitVec 3) : KeepsInv (execMod r z g c k o w s) := by
  grind [execMod, hintOp_keeps, setTeam_inv, keeps_next]

theorem execSched_keeps {s : State} (h : s.Inv) (y x1 : BitVec 1) (c : BitVec 2) : KeepsInv (execSched y x1 c s) := by
  grind [execSched, illAtMod_inv, hintOp_keeps, setTeam_inv, keeps_next, keeps_fault]

theorem execNop_keeps {s : State} (h : s.Inv) : KeepsInv (execNop s) := by
  grind [execNop, withWord_keeps, setTeam_inv, keeps_next]

theorem withRoom_keeps {s : State} (h : s.Inv) (t : Team) {k : Out} (hk : KeepsInv k) : KeepsInv (withRoom s t k) := by
  grind [withRoom, raiseWide_inv, keeps_next]

theorem execBra_keeps {s : State} (h : s.Inv) (i : BitVec 17) : KeepsInv (execBra i s) := by
  grind [execBra, withWord_keeps, toHeader_keeps, setTeam_inv, keeps_next]

theorem branchCond_keeps {s : State} (h : s.Inv) (i : Instr) (c : BitVec 5) (disp : BitVec 17) (sense : Word → Bool) :
    KeepsInv (branchCond i s c disp sense) := by
  unfold branchCond
  refine withWord_keeps h _ _ _ fun t m => consume_keeps h _ _ _ ?_
  grind [toHeader_keeps, setTeam_inv, bump_inv, withRoom_keeps, raiseIll_inv, keeps_next]

theorem execRecon_keeps {s : State} (h : s.Inv) (i : BitVec 17) : KeepsInv (execRecon i s) := by
  grind [execRecon, withWord_keeps, toHeader_keeps, withRoom_keeps, setTeam_inv, keeps_next]

theorem execJoin_keeps {s : State} (h : s.Inv) : KeepsInv (execJoin s) := by
  grind [execJoin, withWord_keeps, raiseIll_inv, setTeam_inv, keeps_next]

theorem execBrk_keeps {s : State} (h : s.Inv) (n : BitVec 5) (i : BitVec 17) : KeepsInv (execBrk n i s) := by
  grind [execBrk, withWord_keeps, raiseIll_inv, setTeam_inv, keeps_next]

theorem execCall_keeps {s : State} (h : s.Inv) (c : BitVec 5) (i : BitVec 17) : KeepsInv (execCall c i s) := by
  grind [execCall, withWord_keeps, toHeader_keeps, withRoom_keeps, setTeam_inv, taint_inv, keeps_next]

theorem jumpTo_keeps {s : State} (h : s.Inv) (t : Team) (n why : Nat) {k : State → Word → Out}
    (hk : ∀ s' a, s'.Inv → KeepsInv (k s' a)) : KeepsInv (jumpTo s t n why k) := by
  grind [jumpTo, consume_keeps, toHeader_keeps, bump_inv, raiseWide_inv, keeps_next]

theorem execRet_keeps {s : State} (h : s.Inv) (a : BitVec 5) : KeepsInv (execRet a s) := by
  grind [execRet, withCauses_keeps, raiseWide_inv, jumpTo_keeps, setTeam_inv, keeps_next]

theorem execJmpi_keeps {s : State} (h : s.Inv) (a : BitVec 5) : KeepsInv (execJmpi a s) := by
  grind [execJmpi, withWord_keeps, jumpTo_keeps, setTeam_inv, keeps_next]

theorem arithCheck_keeps {s : State} (h : s.Inv) (t : Team) {k : Out} (hk : KeepsInv k) : KeepsInv (arithCheck s t k) := by
  unfold arithCheck
  split
  · exact hk
  · exact keeps_next.2 (raiseTrap_inv h ..)

theorem execExit_keeps {s : State} (h : s.Inv) : KeepsInv (execExit s) := by
  grind [execExit, withWord_keeps, raiseIll_inv, arithCheck_keeps, setTeam_inv, keeps_next]

theorem execExitKill_keeps {s : State} (h : s.Inv) : KeepsInv (execExitKill s) := by
  grind [execExitKill, withWord_keeps, killGrid_inv, keeps_next]

theorem execTrap_keeps {s : State} (h : s.Inv) (a : BitVec 5) (i : BitVec 12) : KeepsInv (execTrap a i s) := by
  grind [execTrap, withWord_keeps, consume_keeps, raiseWide_inv, bump_inv, keeps_next]

theorem dropRole_inv {s : State} (h : s.Inv) (t : Team) : (dropRole s t).Inv := by
  grind [dropRole, setGrid_inv]

theorem dropIfBlocked_inv {s : State} (h : s.Inv) (u : Nat) : (dropIfBlocked s u).Inv := by
  grind [dropIfBlocked, dropRole_inv]

theorem execYield_keeps {s : State} (h : s.Inv) (i : BitVec 17) : KeepsInv (execYield i s) := by
  grind [execYield, withWord_keeps, toHeader_keeps, dropRole_inv, setTeam_inv, keeps_next]

theorem bindTo_keeps {s : State} (h : s.Inv) (t : Team) (d m n : Nat) : KeepsInv (bindTo s t d m n) := by
  grind [bindTo, raiseWide_inv, setTeam_inv, keeps_next]

theorem execBind_keeps {s : State} (h : s.Inv) (d : BitVec 5) (n : BitVec 3) (r : BitVec 8) : KeepsInv (execBind d n r s) :=
    by
  grind [execBind, withWord_keeps, bindTo_keeps]

theorem execBindx_keeps {s : State} (h : s.Inv) (d a n : BitVec 5) : KeepsInv (execBindx d a n s) := by
  grind [execBindx, withWord_keeps, consume_keeps, setTeam_inv, bump_inv, bindTo_keeps, keeps_next]

theorem setStream_inv {s : State} (h : s.Inv) (x1 : Strm) : (setStream s x1).Inv := by
  grind [setStream, inv_with]

theorem sendFrame_inv {s : State} (h : s.Inv) (id : BitVec 32) (type cmd stat : Nat) (tag : BitVec 32) (payload : List Byte)
    : (sendFrame s id type cmd stat tag payload).Inv := by
  grind [sendFrame, setStream_inv]

theorem sendRemote_inv {s : State} (h : s.Inv) (r : RemoteReq) (ord opField : Nat) (data : List Byte) :
    (sendRemote s r ord opField data).Inv := by
  grind [sendRemote, sendFrame_inv, inv_with]

end Sys2Proof.Proofs

/-! ## The invariant: memory instructions -/

namespace Sys2Proof.Proofs

open Sys2Proof Sys2Proof.Machine Sys2Proof.Laws

set_option Elab.async false

theorem loadFrom_inv {s : State} (h : s.Inv) (t : Team) (home : Bool) (pa n : Nat) : (loadFrom s t home pa n).1.Inv := by
  grind [loadFrom, performUpTo_inv, l1Fill_inv]
/-! ### Memory instructions under way -/

@[simp] theorem Run_fault_s (r : Run) (f : LaneFault) : (r.fault f).s = r.s := rfl
@[simp] theorem Run_value_s (r : Run) (l : Nat) (va : DWord) (ds : List Nat) (ws : List Word) (hop : Nat) :
    (r.value l va ds ws hop).s = r.s := by
  unfold Run.value; split <;> rfl
@[simp] theorem Run_got_s (r : Run) (l : Nat) (va : DWord) (ds : List Nat) (ws : List Word) (hop : Nat) :
    (r.got l va ds ws hop).s = r.s := by
  unfold Run.got; simp
@[simp] theorem Run_undef_s (r : Run) (l : Nat) (ds : List Nat) : (r.undef l ds).s = r.s := rfl
@[simp] theorem Run_touch_s (r : Run) (s : State) (pa : Nat) : (r.touch s pa).s = s := rfl
@[simp] theorem Run_touchScr_s (r : Run) (s : State) (u off : Nat) : (r.touchScr s u off).s = s := rfl
@[simp] theorem Run_mayReread_s (r : Run) (t : Team) (a : Access) (d : Option (Nat × Nat)) (sc : Option Nat) :
    (r.mayReread t a d sc).s = r.s := rfl
@[simp] theorem Run_send_s (r : Run) (q : RemoteReq) (o f : Nat) (d : List Byte) :
    (r.send q o f d).s = sendRemote r.s q o f d := rfl
@[simp] theorem startRun_s (s : State) (f : Option Nat) (l : List Nat) (a b c : Bool) : (startRun s f l a b c).s = s := rfl

/-- A fold over the lanes of a memory instruction each of which keeps the form keeps it. -/
theorem foldl_run_inv {α : Type} (f : Run → α → Run) (hf : ∀ r x, r.s.Inv → (f r x).s.Inv) (xs : List α) {r : Run}
    (h : r.s.Inv) :
    (xs.foldl f r).s.Inv := by
  induction xs generalizing r with
  | nil => exact h
  | cons x xs ih => exact ih (hf r x h)

theorem settleMem_inv {s : State} (h : s.Inv) (t : Team) (op : MemOp) : (settleMem s t op).Inv := by
  grind [settleMem, l1Invalidate_inv, loseLanes_inv, taint_inv, raisePartial_inv, inv_with]

theorem settleHold_inv {s : State} (h : s.Inv) (t : Team) (op : MemOp) : (settleHold s t op).Inv := by
  grind [settleHold, settleMem_inv, setTeam_inv]

theorem finishRun_keeps {r : Run} (h : r.s.Inv) (t : Team) : KeepsInv (finishRun t r) := by
  grind [finishRun, settleMem_inv, setTeam_inv, keeps_next]

theorem drawn_inv {s : State} (h : s.Inv) (free : Bool) : (drawn s free).Inv := by
  grind [drawn, inv_with]

theorem loadLane_inv {r : Run} (h : r.s.Inv) (t : Team) (home sgn : Bool) (size : Nat) (dsts : List Nat) (ord : Nat)
    (undef : Nat → Bool)
    (va : Nat → DWord) (l : Nat) : (loadLane t home sgn size dsts ord undef va r l).s.Inv := by
  grind [loadLane, Run_fault_s, Run_got_s, Run_undef_s, Run_touch_s, Run_mayReread_s, Run_send_s, sendRemote_inv,
      !loadFrom_inv, drawn_inv]

theorem loadOp_keeps {s : State} (h : s.Inv) (i : Instr) (d a : BitVec 5) (x : Nat) (o : BitVec 9) (home : Mods → Bool)
    (acq : Mods → Nat) :
    KeepsInv (loadOp i s d a x o home acq) := by
  unfold loadOp
  refine withWord_keeps h _ _ _ fun t m => finishRun_keeps (foldl_run_inv _ (fun _ _ h => loadLane_inv h ..) _ ?_) _
  grind [startRun_s, noteWalks_inv, bump_inv, flushReleases_inv]

theorem promoteLane_inv {r : Run × List Access} (h : r.1.s.Inv) (t : Team) (size : Nat) (dsts : List Nat) (undef : Nat → Bool)
    (va : Nat → DWord) (l : Nat) : (promoteLane t size dsts undef va r l).1.s.Inv := by
  grind [promoteLane, Run_fault_s, Run_undef_s, Run_touch_s]

theorem promotedLanes_inv {r : Run × List Access} (h : r.1.s.Inv) (t : Team) (size : Nat) (dsts : List Nat)
    (undef : Nat → Bool)
    (va : Nat → DWord) (ls : List Nat) : (ls.foldl (promoteLane t size dsts undef va) r).1.s.Inv :=
  List.foldlRecOn (motive := fun r : Run × List Access => r.1.s.Inv) ls _ h fun _ h _ _ => promoteLane_inv h ..

theorem execLdAcqp_keeps {s : State} (h : s.Inv) (d a : BitVec 5) (x : BitVec 1) (o : BitVec 9) :
    KeepsInv (execLdAcqp d a x o s) := by
  unfold execLdAcqp
  refine withWord_keeps h _ _ _ fun t m => ?_
  grind [promotedLanes_inv, startRun_s, noteWalks_inv, bump_inv, flushReleases_inv, settleMem_inv, setTeam_inv, keeps_next]

theorem sideLoad_inv {s : State} (h : s.Inv) (core side off n : Nat) : (sideLoad s core side off n).1.Inv := by
  grind [sideLoad, l1Fill_inv, l1Drop_inv, repairSide_inv]

theorem scaleOf_inv {s : State} (h : s.Inv) (l1 : Option Nat) (x : Xlat) (n : Nat) : (scaleOf s l1 x n).1.Inv := by
  grind [scaleOf, !sideLoad_inv, repairSide_inv]

theorem ldxLane_inv {r : Run} (h : r.s.Inv) (t : Team) (home : Bool) (dsts : List Nat) (undef : Nat → Bool) (va : Nat → DWord)
    (l : Nat) : (ldxLane t home dsts undef va r l).s.Inv := by
  grind [ldxLane, !scaleOf_inv, !loadFrom_inv, Run_fault_s, Run_got_s, Run_undef_s, Run_touch_s, Run_mayReread_s, Run_send_s,
    sendRemote_inv, drawn_inv]

theorem execLdx_keeps {s : State} (h : s.Inv) (d a : BitVec 5) (o : BitVec 9) : KeepsInv (execLdx d a o s) := by
  unfold execLdx
  exact withWord_keeps h _ _ _ fun t m => finishRun_keeps
    (foldl_run_inv _ (fun _ _ h => ldxLane_inv h ..) _ (noteWalks_inv (bump_inv h _) ..)) _

theorem prefLine_inv {s : State} (h : s.Inv) (core ln : Nat) : (prefLine s core ln).Inv := by
  grind [prefLine, l1Fill_inv]

theorem execPref_keeps {s : State} (h : s.Inv) (a : BitVec 5) (o : BitVec 9) : KeepsInv (execPref a o s) := by
  unfold execPref
  refine withWord_keeps h _ _ _ fun t m => keeps_next.2 (loseLanes_inv (foldl_inv _ (fun s l hs => ?_) _ (noteWalks_inv
      (bump_inv h _) ..)) ..)
  grind [prefLine_inv]

theorem enqueue_inv {s : State} (h : s.Inv) (t : Team) (k : StoreKind) (grp addr : Nat) (data : List Byte) :
    (enqueue s t k grp addr data).Inv :=
  h

theorem beforePeer_inv {s : State} (h : s.Inv) (u : Nat) (release : Bool) : (beforePeer s u release).Inv := by
  grind [beforePeer, releaseNow_inv, flushFences_inv]

theorem storeLane_inv {r : Run} (h : r.s.Inv) (t : Team) (k : StoreKind) (grp size ord : Nat) (undef : Nat → Bool)
    (va : Nat → DWord)
    (ws : Nat → List Word) (l : Nat) : (storeLane t k grp size ord undef va ws r l).s.Inv := by
  unfold storeLane
  grind [foldl_run_inv, Run_fault_s, Run_touch_s, Run_send_s, sendRemote_inv, beforePeer_inv, l1Update_inv, enqueue_inv]

theorem storeOp_keeps {s : State} (h : s.Inv) (i : Instr) (d a : BitVec 5) (x : Nat) (o : BitVec 9) (k : Mods → StoreKind)
    (ord : Nat) :
    KeepsInv (storeOp i s d a x o k ord) := by
  unfold storeOp
  refine withWord_keeps h _ _ _ fun t m => finishRun_keeps (foldl_run_inv _ (fun _ _ h => storeLane_inv h ..) _ ?_) _
  grind [startRun_s, noteWalks_inv, bump_inv, showNow_inv]

theorem execNtdrain_keeps {s : State} (h : s.Inv) : KeepsInv (execNtdrain s) := by
  grind [execNtdrain, withWord_keeps, setTeam_inv, enqueue_inv, keeps_next]

theorem fenceRelease_inv {s : State} (h : s.Inv) (t : Team) (k : Nat) : (fenceRelease s t k).Inv := by
  grind [fenceRelease, scrNow_inv, drainNow_inv, showNow_inv, enqueue_inv]

theorem fenceAcquire_inv {s : State} (h : s.Inv) (t : Team) (k : Nat) : (fenceAcquire s t k).Inv := by
  grind [fenceAcquire, redsNow_inv, flushFences_inv, flushReleases_inv, l1Invalidate_inv]

theorem execFence_keeps {s : State} (h : s.Inv) (x0 : BitVec 3) : KeepsInv (execFence x0 s) := by
  grind [execFence, withWord_keeps, scrNow_inv, releaseNow_inv, fenceRelease_inv, fenceAcquire_inv, setTeam_inv, keeps_next]

theorem atomRelease_inv {s : State} (h : s.Inv) (u scope : Nat) : (atomRelease s u scope).Inv := by
  grind [atomRelease, releaseNow_inv, drainNow_inv, showNow_inv, scrNow_inv]

theorem gatherWords_inv {r : Run × List (Nat × List (Nat × DWord))} (h : r.1.s.Inv) (t : Team) (n : Nat) (va : Nat → DWord)
    (l : Nat) :
    (gatherWords t n va r l).1.s.Inv := by
  grind [gatherWords, Run_fault_s]

theorem peerAtom_inv {r : Run} (h : r.s.Inv) (t : Team) (k : AtomKind) (n op : Nat) (m : Mods) (keys : Nat → List Nat)
    (v : Nat → Nat)
    (g : Nat × List (Nat × DWord)) : (peerAtom t k n op m keys v r g).s.Inv := by
  grind [peerAtom, Run_send_s, sendRemote_inv, beforePeer_inv]

theorem peerCas_inv {r : Run} (h : r.s.Inv) (t : Team) (n : Nat) (m : Mods) (keys : Nat → List Nat) (v w : Nat → Nat)
    (x : Nat × Nat × DWord) : (peerCas t n m keys v w r x).s.Inv :=
  sendRemote_inv (beforePeer_inv h ..) ..

theorem homeAtom_inv {r : Run} (h : r.s.Inv) (t : Team) (k : AtomKind) (n op : Nat) (m : Mods) (keys : Nat → List Nat)
    (v w : Nat → Nat)
    (g : Nat × List (Nat × DWord)) : (homeAtom t k n op m keys v w r g).s.Inv := by
  unfold homeAtom
  grind [foldl_run_inv, Run_got_s, Run_touch_s, performUpTo_inv, l1Drop_inv, enqueue_inv, homeWrite_inv, drawn_inv]

theorem atomWord_inv {r : Run} (h : r.s.Inv) (t : Team) (k : AtomKind) (n op : Nat) (m : Mods) (keys : Nat → List Nat)
    (v w : Nat → Nat)
    (g : Nat × List (Nat × DWord)) : (atomWord t k n op m keys v w r g).s.Inv := by
  grind [atomWord, homeAtom_inv, peerAtom_inv]

theorem gathered_inv {r : Run × List (Nat × List (Nat × DWord))} (h : r.1.s.Inv) (t : Team) (n : Nat) (va : Nat → DWord)
    (ls : List Nat) :
    (ls.foldl (gatherWords t n va) r).1.s.Inv :=
  List.foldlRecOn (motive := fun r : Run × List (Nat × List (Nat × DWord)) => r.1.s.Inv) ls _ h fun _ h _ _ =>
      gatherWords_inv h ..

theorem casAtPeers_inv {r : Run} (h : r.s.Inv) (t : Team) (k : AtomKind) (n : Nat) (m : Mods) (keys : Nat → List Nat)
    (v w : Nat → Nat)
    (xs : List (Nat × Nat × DWord)) : (if k == .cas then xs.foldl (peerCas t n m keys v w) r else r).s.Inv := by
  split
  · exact foldl_run_inv _ (fun _ _ h => peerCas_inv h ..) _ h
  · exact h

theorem atomOp_keeps {s : State} (h : s.Inv) (i : Instr) (k : AtomKind) (d a b c : BitVec 5) (op : Nat) (p : BitVec 2) :
    KeepsInv (atomOp i s k d a b c op p) := by
  unfold atomOp
  refine withWord_keeps h _ _ _ fun t m => finishRun_keeps (casAtPeers_inv (foldl_run_inv _ (fun _ _ h => atomWord_inv h ..) _
    (gathered_inv (foldl_run_inv _ (fun _ _ h => ?_) _ ?_) ..)) ..) _
  · exact h
  · grind [startRun_s, noteWalks_inv, bump_inv, showNow_inv, atomRelease_inv, flushReleases_inv]

end Sys2Proof.Proofs

/-! ## The invariant: scratchpads, queues, waits and completions -/

namespace Sys2Proof.Proofs

open Sys2Proof Sys2Proof.Machine Sys2Proof.Laws

set_option Elab.async false

theorem ldsLane_inv {r : Run} (h : r.s.Inv) (t : Team) (sgn : Bool) (size : Nat) (dsts : List Nat) (undef : Nat → Bool)
    (sa : Nat → Word) (l : Nat) : (ldsLane t sgn size dsts undef sa r l).s.Inv := by
  grind [ldsLane, Run_fault_s, Run_got_s, Run_undef_s, Run_touchScr_s, Run_mayReread_s]

theorem execLds_keeps {s : State} (h : s.Inv) (d a : BitVec 5) (x : BitVec 3) (o : BitVec 9) :
    KeepsInv (execLds d a x o s) := by
  unfold execLds
  exact withWord_keeps h _ _ _ fun t m => finishRun_keeps (foldl_run_inv _ (fun _ _ h => ldsLane_inv h ..) _ (bump_inv h _)) _

theorem stsLane_inv {r : Run} (h : r.s.Inv) (t : Team) (size : Nat) (undef : Nat → Bool) (sa : Nat → Word)
    (ws : Nat → List Word)
    (l : Nat) : (stsLane t size undef sa ws r l).s.Inv := by
  unfold stsLane
  grind [foldl_run_inv, Run_fault_s, Run_touchScr_s, enqueue_inv]

theorem execSts_keeps {s : State} (h : s.Inv) (d a : BitVec 5) (x : BitVec 3) (o : BitVec 9) :
    KeepsInv (execSts d a x o s) := by
  unfold execSts
  exact withWord_keeps h _ _ _ fun t m => finishRun_keeps (foldl_run_inv _ (fun _ _ h => stsLane_inv h ..) _ (bump_inv h _)) _

theorem atomsLane_inv {r : Run} (h : r.s.Inv) (t : Team) (op : Nat) (dsts : List Nat) (undef : Nat → Bool)
    (sa v w : Nat → Word)
    (l : Nat) : (atomsLane t op dsts undef sa v w r l).s.Inv := by
  grind [atomsLane, Run_fault_s, Run_got_s, Run_undef_s, Run_touchScr_s, performScrUpTo_inv, scrStore_inv]

theorem execAtoms_keeps {s : State} (h : s.Inv) (d a b m : BitVec 5) (p : BitVec 2) : KeepsInv (execAtoms d a b m p s) := by
  unfold execAtoms
  refine withWord_keeps h _ _ _ fun t k => finishRun_keeps (foldl_run_inv _ (fun _ _ h => atomsLane_inv h ..) _ ?_) _
  grind [startRun_s, atomRelease_inv, bump_inv, flushReleases_inv]

theorem raiseQueue_inv {s : State} (h : s.Inv) (t : Team) (reason : Nat) : (raiseQueue s t reason).Inv := by
  grind [raiseQueue, raiseWide_inv]

theorem raiseScr_inv {s : State} (h : s.Inv) (t : Team) (a : Word) (k : AccKind) : (raiseScr s t a k).Inv := by
  grind [raiseScr, raiseWide_inv]

theorem takeEntry_inv {s s' : State} {v : DWord} (h : s.Inv) {t : Team} {q : SQueue}
    (he : takeEntry s t q = some (s', v)) : s'.Inv := by
  grind [takeEntry, setTeam_inv, inv_with]

theorem addPend_inv {s : State} (h : s.Inv) (t : Team) (flag : Option Nat) (dsts lanes : List Nat) (ws : List Word)
    (acq : Bool) :
    (addPend s t flag dsts lanes ws acq).1.Inv := by
  unfold addPend
  split <;> exact h

theorem queueStep_inv {s : State} (h : s.Inv) (u : Nat) : (queueStep s u).Inv := by
  unfold queueStep
  split
  · exact h
  split
  · exact h
  split
  · split
    · grind [setTeam_inv]
    · exact raiseQueue_inv h ..
  · split
    · split
      next he => grind [takeEntry_inv h he, !addPend_inv, flushReleases_inv, l1Invalidate_inv, setTeam_inv]
      · exact h
    · exact raiseQueue_inv h ..
  · exact h

theorem wakeQueues_inv {s : State} (h : s.Inv) : (wakeQueues s).Inv := by
  grind [wakeQueues, queueStep_inv, foldl_inv]

theorem withSelected_keeps {s : State} (h : s.Inv) (t : Team) (p : BitVec 2) (srcs dsts : List Nat) {k : Nat → List Nat → Out}
    (hk : ∀ l ls, KeepsInv (k l ls)) : KeepsInv (withSelected s t p srcs dsts k) := by
  grind [withSelected, consume_keeps, setTeam_inv, finish_inv, keeps_next]

theorem freeDoubtful_inv {s : State} (h : s.Inv) (t : Team) (p : BitVec 2) (lanes dsts : List Nat) :
    (freeDoubtful s t p lanes dsts).1.Inv := by
  grind [freeDoubtful, taint_inv, bump_inv]

theorem blockQueue_inv {s : State} (h : s.Inv) (t : Team) (b : Block) : (blockQueue s t b).Inv := by
  grind [blockQueue, dropIfBlocked_inv, wakeQueues_inv, setTeam_inv]

theorem execQinit_keeps {s : State} (h : s.Inv) (a b : BitVec 5) (p : BitVec 2) : KeepsInv (execQinit a b p s) := by
  grind [execQinit, withWord_keeps, withSelected_keeps, raiseQueue_inv, setTeam_inv, raiseWide_inv, raiseScr_inv, keeps_next]

theorem execQsend_keeps {s : State} (h : s.Inv) (a b : BitVec 5) (p : BitVec 2) : KeepsInv (execQsend a b p s) := by
  grind [execQsend, withWord_keeps, withSelected_keeps, raiseScr_inv, raiseQueue_inv, releaseNow_inv, blockQueue_inv,
    keeps_next]

theorem execQrecv_keeps {s : State} (h : s.Inv) (d a : BitVec 5) (p : BitVec 2) : KeepsInv (execQrecv d a p s) := by
  grind [execQrecv, withWord_keeps, withSelected_keeps, raiseScr_inv, raiseQueue_inv, !freeDoubtful_inv, blockQueue_inv,
    keeps_next]

theorem execQtry_keeps {s : State} (h : s.Inv) (d a : BitVec 5) (p : BitVec 2) : KeepsInv (execQtry d a p s) := by
  unfold execQtry
  refine withWord_keeps h _ _ _ fun t _ => withSelected_keeps h _ _ _ _ fun l lanes => ?_
  dsimp only
  split
  · exact keeps_next.2 (raiseScr_inv h ..)
  split
  · exact keeps_next.2 (raiseQueue_inv h ..)
  split
  · exact keeps_next.2 (raiseQueue_inv h ..)
  have hx := freeDoubtful_inv h t p lanes (slotsFrom d 4)
  split
  next he =>
    have h' := takeEntry_inv (setTeam_inv hx _) he
    grind [!addPend_inv, flushReleases_inv, wakeQueues_inv, l1Invalidate_inv, setTeam_inv, keeps_next]
  · exact keeps_next.2 (setTeam_inv (addPend_inv hx ..) _)

theorem waitPass_inv {s : State} (h : s.Inv) (t : Team) (dst : Nat) (x3 : Word) : (waitPass s t dst x3).Inv := h

theorem waitValue_inv {s : State} (h : s.Inv) (t : Team) (x2 : Word) : (waitValue s t x2).Inv := by
  grind [waitValue, waitPass_inv, setTeam_inv]

theorem waitRead_inv {s : State} (h : s.Inv) (t : Team) (va : DWord) : (waitRead s t va).Inv := by
  grind [waitRead, setTeam_inv, raiseWide_inv, sendRemote_inv, !loadFrom_inv, loseLanes_inv, waitValue_inv, drawn_inv]

theorem forgetReads_inv {s : State} (h : s.Inv) (u : Nat) : (forgetReads s u).Inv := h

theorem execWait_keeps {s : State} (h : s.Inv) (d a b : BitVec 5) (x3 : BitVec 1) (k : BitVec 3) : KeepsInv
    (execWait d a b x3 k s) := by
  grind [execWait, withWord_keeps, withLead_keeps, flushReleases_inv, forgetReads_inv, dropIfBlocked_inv, waitRead_inv,
    keeps_next]

theorem execWaitWakeup_keeps {s : State} (h : s.Inv) (u : Nat) : KeepsInv (execWaitWakeup u s) := by
  grind [execWaitWakeup, waitRead_inv, keeps_next, keeps_notEnabled]

theorem waitReply_inv {s : State} (h : s.Inv) (r : RemoteReq) (reason : Nat) (payload : List Byte) :
    (waitReply s r reason payload).Inv := by
  grind [waitReply, raiseWide_inv, waitValue_inv, inv_with]

theorem writeSave_inv {s : State} (h : s.Inv) (t : Team) (h : Handler) (w : Nat × Word) : (writeSave s t h w).Inv := by
  grind [writeSave, l1Drop_inv, homeWrite_inv]

theorem landWrites_inv {s : State} (h : s.Inv) (u : Nat) (byHandler : Bool) (ws : List (Nat × Word)) :
    (landWrites s u byHandler ws).Inv := by
  grind [landWrites, setTeam_inv, taintRows_inv, writeSave_inv, foldl_inv]

theorem goneSieves_inv {s : State} (h : s.Inv) (u n : Nat) (byHandler : Bool) (keys : List Nat) :
    (goneSieves s u n byHandler keys).Inv :=
  h

theorem lateWins_inv {s : State} (h : s.Inv) (u n : Nat) (byHandler : Bool) (keys : List Nat) :
    (lateWins s u n byHandler keys).Inv := by
  grind [lateWins, goneSieves_inv, setTeam_inv]

theorem finishPend_inv {s : State} (h : s.Inv) (u : Nat) (p : Pend) : (finishPend s u p).Inv := by
  grind [finishPend, landWrites_inv, loseLanes_inv, goneSieves_inv, inv_with]

theorem execLoadComplete_keeps {s : State} (h : s.Inv) (u k : Nat) : KeepsInv (execLoadComplete u k s) := by
  grind [execLoadComplete, finishPend_inv, keeps_next, keeps_notEnabled]

theorem execStorePerformedAtHome_keeps {s : State} (h : s.Inv) (k : Nat) : KeepsInv (execStorePerformedAtHome k s) := by
  grind [execStorePerformedAtHome, performEnt_inv, keeps_next, keeps_notEnabled]

theorem readAgain_inv {r : State × List (Nat × Word)} (h : r.1.Inv) (t : Team) (home : Bool) (a : Reread) :
    (readAgain t home r a).1.Inv := by
  grind [readAgain, !loadFrom_inv]

theorem reread_keeps {s : State} (h : s.Inv) (u k : Nat) : KeepsInv (reread u k s) := by
  have hr : ∀ t home (xs : List Reread), (xs.foldl (readAgain t home) (s, [])).1.Inv := fun t home xs =>
    List.foldlRecOn (motive := fun r : State × List (Nat × Word) => r.1.Inv) xs _ h fun _ h _ _ => readAgain_inv h ..
  grind [reread, setTeam_inv, keeps_next, keeps_notEnabled]

theorem execPromotionRequest_keeps {s : State} (h : s.Inv) (u core : Nat) : KeepsInv (execPromotionRequest u core s) := by
  grind [execPromotionRequest, drainCore_inv, setTeam_inv, keeps_next, keeps_notEnabled]

theorem promotedLoad_inv {r : Run} (h : r.s.Inv) (t : Team) (a : Access) : (promotedLoad t r a).s.Inv := by
  grind [promotedLoad, !loadFrom_inv, Run_fault_s, Run_send_s, Run_value_s, sendRemote_inv, drawn_inv]

theorem promotedLoads_inv {r : Run} (h : r.s.Inv) (t : Team) (as : List Access) : (as.foldl (promotedLoad t) r).s.Inv :=
  foldl_run_inv _ (fun _ _ h => promotedLoad_inv h ..) _ h

theorem execPromotionRepliesComplete_keeps {s : State} (h : s.Inv) (u : Nat) :
    KeepsInv (execPromotionRepliesComplete u s) := by
  have hold (t : Team) (hd : Hold) (accs : List Access) := promotedLoads_inv
    (r := { s := s, op := { hd.op with promote := none }, tags := [], lines := [] }) h t accs
  have pend (t : Team) (accs : List Access) := promotedLoads_inv (r := startRun s none [] true true true) h t accs
  unfold execPromotionRepliesComplete
  grind [settleHold_inv, setTeam_inv, l1Invalidate_inv, keeps_next, keeps_notEnabled]

theorem remoteDone_inv {s : State} (h : s.Inv) (r : RemoteReq) (f : MemOp → MemOp) : (remoteDone s r f).Inv := by
  grind [remoteDone, settleHold_inv, setTeam_inv, inv_with]

theorem remoteFail_inv {s : State} (h : s.Inv) (r : RemoteReq) (reason : Nat) : (remoteFail s r reason).Inv := by
  grind [remoteFail, waitReply_inv, remoteDone_inv]

theorem takeReply_inv {s : State} (h : s.Inv) (f : Frame) : (takeReply s f).Inv := by
  grind [takeReply, remoteFail_inv, waitReply_inv, remoteDone_inv]

theorem servePeer_inv {s : State} (h : s.Inv) (f : Frame) : (servePeer s f).1.Inv := by
  grind [servePeer, homeWrite_inv]

theorem serveFrame_inv {s : State} (h : s.Inv) (f : Frame) : (serveFrame s f).Inv := by
  grind [serveFrame, !servePeer_inv, sendFrame_inv, inv_with]

theorem failStream_inv {s : State} (h : s.Inv) (x1 : Strm) : (failStream s x1).Inv := by
  grind [failStream, setStream_inv, remoteFail_inv, foldl_inv, inv_with]

theorem execLaziaRetransmitTimeout_keeps {s : State} (h : s.Inv) (strm : Nat) : KeepsInv (execLaziaRetransmitTimeout strm s)
    := by
  grind [execLaziaRetransmitTimeout, failStream_inv, setStream_inv, keeps_next, keeps_notEnabled]

end Sys2Proof.Proofs

/-! ## The invariant: barriers, reductions and hangs -/

namespace Sys2Proof.Proofs

open Sys2Proof Sys2Proof.Machine Sys2Proof.Laws

set_option Elab.async false

theorem leaveBarrier_inv {s : State} (h : s.Inv) (is : Block → Bool) (t : Team) : (leaveBarrier is s t).Inv := by
  grind [leaveBarrier, setTeam_inv, l1Invalidate_inv]

theorem leaveOver_inv {s : State} (h : s.Inv) (u : Nat) : (leaveOver s u).Inv := by
  grind [leaveOver, l1Invalidate_inv, setTeam_inv]

theorem barCheck_inv {s : State} (h : s.Inv) (c g l id : Nat) : (barCheck s c g l id).Inv := by
  grind [barCheck, setCluster_inv, leaveBarrier_inv, foldl_inv]

theorem gbarCheck_inv {s : State} (h : s.Inv) (c g : Nat) : (gbarCheck s c g).Inv := by
  grind [gbarCheck, setGrid_inv, leaveBarrier_inv, foldl_inv]

theorem execCbar_keeps {s : State} (h : s.Inv) (k : BitVec 4) : KeepsInv (execCbar k s) := by
  grind [execCbar, withWord_keeps, arithCheck_keeps, releaseNow_inv, dropRole_inv, setTeam_inv, setCluster_inv, barCheck_inv,
    keeps_next]

theorem execGbar_keeps {s : State} (h : s.Inv) : KeepsInv (execGbar s) := by
  grind [execGbar, withWord_keeps, raiseWide_inv, arithCheck_keeps, releaseNow_inv, dropRole_inv, setTeam_inv, gbarCheck_inv,
    setGrid_inv, keeps_next]

theorem rootCheck_inv {s : State} (h : s.Inv) (cx g l : Nat) : (rootCheck s cx g l).Inv := by
  unfold rootCheck
  split
  · refine foldl_inv _ (fun s p h => ?_) _ h
    grind [setCluster_inv, finishPend_inv, inv_with]
  · exact h

theorem execMred_keeps {s : State} (h : s.Inv) (a b : BitVec 5) (hh : BitVec 2) (k : BitVec 1) : KeepsInv
    (execMred a b hh k s) := by
  grind [execMred, withCauses_keeps, consume_keeps, withLead_keeps, bump_inv, setTeam_inv, raiseQueue_inv, setCluster_inv,
    rootCheck_inv, keeps_next]

theorem execMredw_keeps {s : State} (h : s.Inv) (d : BitVec 5) (hh : BitVec 2) : KeepsInv (execMredw d hh s) := by
  grind [execMredw, withCauses_keeps, raiseIll_inv, rootCheck_inv, setTeam_inv, inv_with, keeps_next]

theorem execMredForward_keeps {s : State} (h : s.Inv) (cl ch node : Nat) : KeepsInv (execMredForward cl ch node s) := by
  grind [execMredForward, setCluster_inv, inv_with, keeps_next, keeps_notEnabled]

theorem execMredPartialArrival_keeps {s : State} (h : s.Inv) (k : Nat) : KeepsInv (execMredPartialArrival k s) := by
  grind [execMredPartialArrival, setCluster_inv, rootCheck_inv, inv_with, keeps_next, keeps_notEnabled]

theorem execMredGiveUp_keeps {s : State} (h : s.Inv) (cl ch node child : Nat) : KeepsInv (execMredGiveUp cl ch node child s)
    := by
  grind [execMredGiveUp, setCluster_inv, rootCheck_inv, keeps_next, keeps_notEnabled]

theorem execHang_keeps {s : State} (h : s.Inv) (ctx : Nat) : KeepsInv (execHang ctx s) := by
  grind [execHang, setCtx_inv, raiseWide_inv, foldl_inv, keeps_next, keeps_notEnabled]

theorem execExternalLimit_keeps {s : State} (h : s.Inv) (u : Nat) : KeepsInv (execExternalLimit u s) := by
  grind [execExternalLimit, setTeam_inv, keeps_next, keeps_notEnabled]

end Sys2Proof.Proofs

/-! ## The invariant: engines and tensor copies -/

namespace Sys2Proof.Proofs

open Sys2Proof Sys2Proof.Machine Sys2Proof.Laws

set_option Elab.async false

theorem withBlock_keeps {s : State} (h : s.Inv) (t : Team) (a : Word) (align n : Nat) {k : Unit → Out}
    (hk : KeepsInv (k ())) :
    KeepsInv (withBlock s t a align n k) := by
  grind [withBlock, raiseScr_inv, raiseWide_inv, keeps_next]

theorem putRun_inv {s : State} (h : s.Inv) (core cmd : Nat) (src : Option (Nat × Nat)) (r : Nat × List Byte) :
    (putRun s core cmd src r).Inv := by
  grind [putRun, homePut_inv, noteWrite_inv, l1Drop_inv, scrPut_inv, foldl_inv]

theorem putBad_inv {s : State} (h : s.Inv) (b : Nat × Nat) : (putBad s b).Inv := by
  grind [putBad, poisonLine_inv, setTeam_inv]

theorem sendWrite_inv {s : State} (h : s.Inv) (a : Nat) (bs : List Byte) : (sendWrite s a bs).Inv := by
  grind [sendWrite, sendRemote_inv]

theorem sendRun_inv {s : State} (h : s.Inv) (k a : Nat) (bs : List Byte) : (sendRun k s a bs).Inv := by
  induction k generalizing s a bs with
  | zero => exact h
  | succ k ih =>
    cases bs with
    | nil => exact h
    | cons b bs => exact ih (sendWrite_inv h ..) ..

theorem putOut_inv {s : State} (h : s.Inv) (i : Issue) (o : EOut) : (putOut s i o src).Inv := by
  grind [putOut, putRun_inv, sendRun_inv, putBad_inv, foldl_inv]

theorem releaseOf_inv {s : State} (h : s.Inv) (i : Issue) : (releaseOf s i).Inv := by
  grind [releaseOf, setTeam_inv]

theorem askLeave_inv {s : State} (h : s.Inv) (core seq : Nat) : (askLeave s core seq).Inv := h

theorem useLeave_inv {s : State} (h : s.Inv) (core seq : Nat) : (useLeave s core seq).Inv := h

theorem copyPage_inv {s : State} (h : s.Inv) (c : CopyCmd) (va : DWord) (half : Nat) : (copyPage s c va half).1.Inv := by
  grind [copyPage, !scaleOf_inv]

theorem copyVal_inv {s : State} (h : s.Inv) (c : CopyCmd) (n : Nat) : (copyVal s c n).1.Inv := by
  grind [copyVal, !copyPage_inv]

theorem copyElem_inv {s : State} (h : s.Inv) (c : CopyCmd) (n : Nat) : (copyElem s c n).1.Inv := by
  grind [copyElem, !copyVal_inv]

theorem copyBlock_inv {s : State} (h : s.Inv) (c : CopyCmd) (m : Nat) : (copyBlock s c m).1.Inv := by
  unfold copyBlock
  split
  · exact h
  · dsimp only
    split <;> exact h

theorem copyUnit_inv {s : State} (h : s.Inv) (c : CopyCmd) (i : Nat) : (copyUnit s c i).1.Inv := by
  grind [copyUnit, !copyBlock_inv, !copyElem_inv]

theorem copyOut_inv {s : State} (h : s.Inv) (c : CopyCmd) (lo hi : Nat) : (copyOut s c lo hi).1.Inv := by
  unfold copyOut
  refine List.foldlRecOn (motive := fun r : State × EOut => r.1.Inv) _ _ h fun r hr j _ => ?_
  have hu := copyUnit_inv hr c j
  grind

theorem copyApply_inv {s : State} (h : s.Inv) (c : CopyCmd) (lo hi : Nat) : (copyApply s c lo hi).Inv := by
  grind [copyApply, !copyOut_inv, putOut_inv, inv_with]

theorem copyStop_inv {s : State} (h : s.Inv) (c : CopyCmd) (hi : Nat) : (copyStop s c hi).1.Inv := by
  grind [copyStop, copyApply_inv, !copyOut_inv]

theorem setCopy_inv {s : State} (h : s.Inv) (core : Nat) (q : Bool) (c : CopyCmd) : (setCopy s core q c).Inv := h

theorem dropCopy_inv {s : State} (h : s.Inv) (core : Nat) (q : Bool) (seq : Nat) : (dropCopy s core q seq).Inv := h

theorem copyContinue_inv {s : State} (h : s.Inv) (i : Issue) : (copyContinue s i).Inv := by
  grind [copyContinue, setTeam_inv]

theorem copyAccept_keeps {s0 s : State} (h0 : s0.Inv) (h : s.Inv) (t : Team) (c : CopyCmd) {k : State → Team → Out}
    (hk : ∀ s' t, s'.Inv → KeepsInv (k s' t)) : KeepsInv (copyAccept s0 s t c k) := by
  grind [copyAccept, setCore_inv, inv_with, keeps_next]

theorem copyIssue_keeps {s : State} (h : s.Inv) (t : Team) (a : Nat) (flag : Option Nat) (kind : CopyKind)
    {more : CopyCmd → Option (State → Out)} (hm : ∀ c stop, more c = some stop → KeepsInv (stop s))
    {k : State → Team → CopyCmd → Out} (hk : ∀ s' t c, s'.Inv → KeepsInv (k s' t c)) :
        KeepsInv (copyIssue s t a flag kind more k) := by
  unfold copyIssue
  refine withBlock_keeps h _ _ _ _ ?_
  dsimp only
  split
  · exact hm _ _ ‹_›
  · exact copyAccept_keeps (s := { s with fresh := s.fresh + 2 ^ 20 }) h h _ _ fun _ _ hs => hk _ _ _ hs

theorem execTcopy_keeps {s : State} (h : s.Inv) (a : BitVec 5) (f : BitVec 2) : KeepsInv (execTcopy a f s) :=
  withCauses_keeps h _ _ _ _ fun _ _ => withLead_keeps h _ _ _
    (copyIssue_keeps h _ _ _ _ (by simp) fun _ _ _ hs => keeps_next.2 (setTeam_inv hs _))

theorem execTcopyY_keeps {s : State} (h : s.Inv) (c : BitVec 5) (i : BitVec 17) : KeepsInv (execTcopyY c i s) := by
  refine withCauses_keeps h _ _ _ _ fun t _ => withLead_keeps h _ _ _ (copyIssue_keeps h _ _ _ _ (fun _ stop he => ?_) fun _
      _ _ hs =>
    keeps_next.2 (dropRole_inv (setTeam_inv hs _) _))
  have hh := toHeader_keeps h t (branchTarget t i) (k := fun s => .next s) fun _ hs => keeps_next.2 hs
  grind

theorem execTcopyx_keeps {s : State} (h : s.Inv) (a b : BitVec 5) (f : BitVec 2) : KeepsInv (execTcopyx a b f s) :=
  withCauses_keeps h _ _ _ _ fun _ _ => withLead_keeps h _ _ _
    (copyIssue_keeps h _ _ _ _ (by simp) fun _ _ _ hs => keeps_next.2 (setTeam_inv hs _))

theorem fillUpper_keeps {s : State} (h : s.Inv) (t : Team) (n : Nat) (c : CopyCmd) (stop : State → Out)
    (he : fillUpper t n s c = some stop) : KeepsInv (stop s) := by
  grind [fillUpper, raiseWide_inv, loseLanes_inv, setTeam_inv, keeps_next]

theorem execTfill_keeps {s : State} (h : s.Inv) (a b : BitVec 5) (f : BitVec 2) : KeepsInv (execTfill a b f s) :=
  withCauses_keeps h _ _ _ _ fun _ _ => withLead_keeps h _ _ _
    (copyIssue_keeps h _ _ _ _ (fillUpper_keeps h _ _) fun _ _ _ hs => keeps_next.2 (setTeam_inv hs _))

theorem execTquery_keeps {s : State} (h : s.Inv) (d : BitVec 5) (sel : BitVec 12) : KeepsInv (execTquery d sel s) := by
  grind [execTquery, withWord_keeps, setTeam_inv, taint_inv, keeps_next]

theorem execCopyStart_keeps {s : State} (h : s.Inv) (core : Nat) (q : Bool) : KeepsInv (execCopyStart core q s) := by
  grind [execCopyStart, drainBelow_inv, useLeave_inv, setCopy_inv, inv_with, keeps_next, keeps_notEnabled]

theorem execCopyComplete_keeps {s : State} (h : s.Inv) (core : Nat) (q : Bool) : KeepsInv (execCopyComplete core q s) := by
  grind [execCopyComplete, copyApply_inv, copyContinue_inv, releaseOf_inv, dropCopy_inv, keeps_next, keeps_notEnabled]

theorem execCopyFreeze_keeps {s : State} (h : s.Inv) (core : Nat) (q : Bool) : KeepsInv (execCopyFreeze core q s) := by
  grind [execCopyFreeze, !copyStop_inv, setCopy_inv, setCore_inv, keeps_next, keeps_notEnabled]

theorem admitCopy_inv {s : State} (h : s.Inv) (core : Nat) : (admitCopy s core).Inv := h

theorem thawCopy_inv {s : State} (h : s.Inv) (t : Team) (seqs : List Nat) : (thawCopy s t seqs).Inv := h

theorem cancelCopy_inv {s : State} (h : s.Inv) (t : Team) (seqs : List Nat) : (cancelCopy s t seqs).Inv := by
  grind [cancelCopy, releaseOf_inv, thawCopy_inv, setCore_inv, foldl_inv]

theorem stopCopy_inv {s : State} (h : s.Inv) (core : Nat) (q : Bool) (c : CopyCmd) : (stopCopy s core q c).Inv := by
  grind [stopCopy, setCopy_inv, withdraw_inv, !copyStop_inv, inv_with]

end Sys2Proof.Proofs

/-! ## The invariant: matrix commands and the array -/

namespace Sys2Proof.Proofs

open Sys2Proof Sys2Proof.Machine Sys2Proof.Laws

set_option Elab.async false

theorem setMat_inv {s : State} (h : s.Inv) (core : Nat) (c : MatCmd) : (setMat s core c).Inv := h

theorem dropMat_inv {s : State} (h : s.Inv) (core seq : Nat) : (dropMat s core seq).Inv := h

theorem matAccept_keeps {s0 s : State} (h0 : s0.Inv) (h : s.Inv) (t : Team) (flag : Option Nat) (op : MatOp)
    {k : State → Team → Out}
    (hk : ∀ s' t, s'.Inv → KeepsInv (k s' t)) : KeepsInv (matAccept s0 s t flag op k) := by
  grind [matAccept, setCore_inv, inv_with, keeps_next]

theorem withChecks_keeps {s : State} (h : s.Inv) (i : Instr) (chk : Team → List Nat) (reads writes : Mods → List Nat)
    {k : Team → Mods → Out} (hk : ∀ t m, KeepsInv (k t m)) : KeepsInv (withChecks i s chk reads writes k) :=
  withCauses_keeps h _ _ _ _ hk

theorem matAlign_keeps {s : State} (h : s.Inv) (t : Team) (base : DWord) : KeepsInv (matAlign s t base) := by
  grind [matAlign, raiseWide_inv, keeps_next]

theorem matNext_keeps {s : State} (h : s.Inv) (t : Team) : KeepsInv (matNext s t) := by
  grind [matNext, setTeam_inv, keeps_next]

theorem execWload_keeps {s : State} (h : s.Inv) (a b : BitVec 5) (f : BitVec 2) (k : BitVec 4) (q : BitVec 1) : KeepsInv
    (execWload a b f k q s) := by
  grind [execWload, withChecks_keeps, withLead_keeps, matAccept_keeps, bump_inv, matNext_keeps]

theorem execMswap_keeps {s : State} (h : s.Inv) : KeepsInv (execMswap s) := by
  grind [execMswap, withWord_keeps, matAccept_keeps, matNext_keeps]

theorem execMzero_keeps {s : State} (h : s.Inv) (n t : BitVec 5) : KeepsInv (execMzero n t s) := by
  grind [execMzero, withChecks_keeps, matAccept_keeps, matNext_keeps]

theorem execMma_keeps {s : State} (h : s.Inv) (a b : BitVec 5) (f : BitVec 2) (t : BitVec 5) (k : BitVec 4) (w : BitVec 1) :
    KeepsInv (execMma a b f t k w s) := by
  grind [execMma, withChecks_keeps, matAccept_keeps, matNext_keeps]

theorem execMmas_keeps {s : State} (h : s.Inv) (a b : BitVec 5) (f : BitVec 2) (t : BitVec 5) (k : BitVec 4) (w : BitVec 1) :
    KeepsInv (execMmas a b f t k w s) := by
  grind [execMmas, withChecks_keeps, withLead_keeps, bump_inv, matAlign_keeps, matAccept_keeps, matNext_keeps]

theorem execMscale_keeps {s : State} (h : s.Inv) (a : BitVec 5) (f : BitVec 2) (t : BitVec 5) : KeepsInv (execMscale a f t s)
    := by
  grind [execMscale, withChecks_keeps, matAccept_keeps, matNext_keeps]

theorem execMdrain_keeps {s : State} (h : s.Inv) (a b : BitVec 5) (f : BitVec 2) (t : BitVec 5) (k : BitVec 4) (q : BitVec 1)
    : KeepsInv (execMdrain a b f t k q s) := by
  grind [execMdrain, withChecks_keeps, withLead_keeps, bump_inv, matAlign_keeps, matAccept_keeps, matNext_keeps]

theorem execMread_keeps {s : State} (h : s.Inv) (d : BitVec 5) (g : BitVec 2) (t : BitVec 5) : KeepsInv (execMread d g t s)
    := by
  grind [execMread, withChecks_keeps, raiseIll_inv, matAccept_keeps, matNext_keeps, keeps_next]

theorem execMpair_keeps {s : State} (h : s.Inv) (o : BitVec 1) : KeepsInv (execMpair o s) := by
  grind [execMpair, withChecks_keeps, matAccept_keeps, matNext_keeps]

theorem execMfence_keeps {s : State} (h : s.Inv) : KeepsInv (execMfence s) := by
  grind [execMfence, withWord_keeps, setCore_inv, matNext_keeps, inv_with]

theorem execScfg_keeps {s : State} (h : s.Inv) (a b : BitVec 5) (f : BitVec 2) : KeepsInv (execScfg a b f s) := by
  grind [execScfg, withCauses_keeps, withLead_keeps, bump_inv, matAlign_keeps, matAccept_keeps, matNext_keeps]

theorem withSieve_keeps {s : State} (h : s.Inv) (t : Team) (a : Nat) {k : State → SieveDesc → Out}
    (hk : ∀ s' d, s'.Inv → KeepsInv (k s' d)) : KeepsInv (withSieve s t a k) := by
  unfold withSieve
  exact withBlock_keeps h _ _ _ _ (hk _ _ (bump_inv h _))

theorem execSieve_keeps {s : State} (h : s.Inv) (a b : BitVec 5) (f : BitVec 2) : KeepsInv (execSieve a b f s) := by
  grind [execSieve, withChecks_keeps, withLead_keeps, withSieve_keeps, matAccept_keeps, matNext_keeps]

theorem execMmak_keeps {s : State} (h : s.Inv) (a b : BitVec 5) (f : BitVec 2) (t m : BitVec 5) : KeepsInv
    (execMmak a b f t m s) := by
  grind [execMmak, withChecks_keeps, withLead_keeps, consume_keeps, withSieve_keeps, matAccept_keeps, matNext_keeps,
    taint_inv]

theorem bufLine_inv {s : State} (h : s.Inv) (core : Nat) (x : Team) (ln : Nat) : (bufLine s core x ln).1.Inv := by
  grind [bufLine, inv_with]

theorem bufRead_inv {s : State} (h : s.Inv) (core : Nat) (x : Team) (off n : Nat) : (bufRead s core x off n).1.Inv :=
  List.foldlRecOn (motive := fun r : State × List Byte => r.1.Inv) _ _ h fun _ h _ _ => bufLine_inv h ..

theorem matScratch_inv {s : State} (h : s.Inv) (i : Issue) (a : Word) (n : Nat) : (matScratch s i a n).1.Inv := by
  grind [matScratch, !bufRead_inv]

theorem readKey_inv {s : State} (h : s.Inv) (iss : Issue) (d : SieveDesc) (t i : Nat) : (readKey s iss d t i).1.Inv := by
  grind [readKey, repairSide_inv]

theorem fetchRow_inv {s : State} (h : s.Inv) (c : MatCmd) (k : Nat) : (fetchRow s c k).1.Inv := by
  grind [fetchRow, !matScratch_inv, !readKey_inv]

theorem idleRows_inv {s : State} (h : s.Inv) (cs : List MatCmd) (k : Nat) : (idleRows cs k s).1.Inv := by
  refine List.foldlRecOn (motive := fun r : State × List (Nat × EFault) => r.1.Inv) _ _ h fun r h c _ => ?_
  have hrow := fetchRow_inv h c k
  grind

theorem streamIt_inv {s : State} (h : s.Inv) (src : MatCmd) (cs : List MatCmd) (k : Nat) :
    (streamStep.streamIt s src cs k).1.Inv := by
  have hrow := fetchRow_inv (idleRows_inv h (cs.filter (fun c => c.iss.seq != src.iss.seq)) k) src k
  unfold streamStep.streamIt
  grind [foldl_inv, setTeam_inv]

theorem streamStep_inv {s : State} (h : s.Inv) (src : MatCmd) (cs : List MatCmd) (k : Nat) :
    (streamStep s src cs k).1.Inv := by
  unfold streamStep
  split
  · split
    · exact h
    · exact streamIt_inv h ..
  · exact streamIt_inv h ..

theorem streamRun_inv {s : State} (h : s.Inv) (src : MatCmd) (cs : List MatCmd) (n k : Nat) :
    (streamRun src cs n s k).1.Inv := by
  induction n generalizing s k with
  | zero => exact h
  | succ n ih =>
    have hstep := streamStep_inv h src cs k
    unfold streamRun
    split
    next e => exact ih (by simpa [e] using hstep) _
    next e => simpa [e] using hstep

theorem colScales_inv {s : State} (h : s.Inv) (x : Xlat) (n j : Nat) : (colScales s x n j).1.Inv := by
  induction j with
  | zero => exact h
  | succ j ih => grind [colScales, !scaleOf_inv]

theorem pageColumn_inv {s : State} (h : s.Inv) (i : Issue) (base stride : DWord) (first : Option Nat) (c : Nat) :
    (pageColumn s i base stride first c).1.Inv := by
  unfold pageColumn
  split
  · exact h
  dsimp only
  split
  · exact h
  split
  · exact h
  split
  next e => exact (congrArg (fun r : State × Scale × List Nat => r.1.Inv) e).mp (colScales_inv h ..)
  next e => exact (congrArg (fun r : State × Scale × List Nat => r.1.Inv) e).mp (colScales_inv h ..)

theorem loadColumn_inv {s : State} (h : s.Inv) (i : Issue) (base stride : DWord) (sf : Nat) (sp : Bool) (first : Option Nat)
    (c : Nat) : (loadColumn s i base stride sf sp first c).1.Inv := by
  grind [loadColumn, !pageColumn_inv, !matScratch_inv]

theorem putColumn_inv {s : State} (h : s.Inv) (c : MatCmd) (k : Nat) (col : Column) : (putColumn s c k col).Inv := by
  grind [putColumn, setTeam_inv]

theorem drainStep_inv {s : State} (h : s.Inv) (c : MatCmd) (base rstr : DWord) (ctl : Word) (tile df : Nat) (sp : Bool)
    (r : Nat) : (drainStep s c base rstr ctl tile df sp r).1.Inv := by
  grind [drainStep, putOut_inv]

theorem scfgRows_inv {s : State} (h : s.Inv) (i : Issue) (base : Word) (rstr r : Nat) : (scfgRows s i base rstr r).1.Inv := by
  induction r with
  | zero => exact h
  | succ r ih => grind [scfgRows, !matScratch_inv]

theorem scfgStep_inv {s : State} (h : s.Inv) (i : Issue) (base tau ctl : Word) : (scfgStep s i base tau ctl).1.Inv := by
  grind [scfgStep, !scfgRows_inv, setTeam_inv]

theorem tileScan_inv {s : State} (h : s.Inv) (iss : Issue) (d : SieveDesc) (cfg : SieveCfg) (t i : Nat) :
    (tileScan iss d cfg t s i).1.Inv := by
  induction i with
  | zero => exact h
  | succ i ih => grind [tileScan, !readKey_inv]

theorem plainStep_inv {s : State} (h : s.Inv) (c : MatCmd) (k : Nat) : (plainStep s c k).1.Inv := by
  grind [plainStep, !loadColumn_inv, putColumn_inv, setTeam_inv, !drainStep_inv, !scfgStep_inv, !tileScan_inv]

theorem plainRun_inv {s : State} (h : s.Inv) (n : Nat) (c : MatCmd) (k : Nat) : (plainRun n s c k).1.Inv := by
  induction n generalizing s c k with
  | zero => exact h
  | succ n ih =>
    have hstep := plainStep_inv h c k
    unfold plainRun
    split
    next e => exact ih (by simpa [e] using hstep) ..
    next e => simpa [e] using hstep

theorem runMat_inv {s : State} (h : s.Inv) {c : MatCmd} {hi : Nat} {r : RunRes} (hr : runMat s c hi = some r) : r.st.Inv := by
  grind [runMat, !streamRun_inv, !plainRun_inv]

theorem popFences_inv {s : State} (h : s.Inv) (core k : Nat) : (popFences core k s).Inv := by
  induction k generalizing s with
  | zero => exact h
  | succ k ih => grind [popFences, dropMat_inv, inv_with]

theorem fencesDone_inv {s : State} (h : s.Inv) (core : Nat) : (fencesDone s core).Inv := by
  grind [fencesDone, popFences_inv]

theorem endMat_inv {s : State} (h : s.Inv) (core : Nat) (c : MatCmd) : (endMat s core c).Inv := by
  grind [endMat, dropMat_inv, releaseOf_inv, setTeam_inv, finishPend_inv, landWrites_inv, lateWins_inv, inv_with]

theorem haltMat_inv {s : State} (h : s.Inv) (core : Nat) (c : MatCmd) (k : Nat) (fs : List (Nat × EFault)) :
    (haltMat s core c k fs).Inv := by
  grind [haltMat, setMat_inv]

theorem execMatrixCommandStart_keeps {s : State} (h : s.Inv) (core : Nat) : KeepsInv (execMatrixCommandStart core s) := by
  grind [execMatrixCommandStart, fencesDone_inv, drainBelow_inv, useLeave_inv, setTeam_inv, setMat_inv, setCore_inv,
    keeps_next, keeps_notEnabled]

theorem execMatrixCommandComplete_keeps {s : State} (h : s.Inv) (core : Nat) :
    KeepsInv (execMatrixCommandComplete core s) := by
  unfold execMatrixCommandComplete
  split
  · exact keeps_notEnabled _
  split
  next hr => grind [runMat_inv h hr, endMat_inv, keeps_next, keeps_notEnabled]
  · exact keeps_notEnabled _

theorem execMatrixFreeze_keeps {s : State} (h : s.Inv) (core : Nat) : KeepsInv (execMatrixFreeze core s) := by
  unfold execMatrixFreeze
  split
  · exact keeps_notEnabled _
  split
  next hr => grind [runMat_inv h hr, haltMat_inv, inv_with, keeps_next, keeps_notEnabled]
  · exact keeps_notEnabled _

theorem execMpairCinch_keeps {s : State} (h : s.Inv) (core : Nat) : KeepsInv (execMpairCinch core s) := by
  grind [execMpairCinch, setMat_inv, keeps_next, keeps_notEnabled]

theorem lateMat_inv {s : State} (h : s.Inv) (core : Nat) (c : MatCmd) (aux : Nat) : (lateMat s core c aux).Inv := by
  grind [lateMat, haltMat_inv]

theorem execMpairLate_keeps {s : State} (h : s.Inv) (core : Nat) : KeepsInv (execMpairLate core s) := by
  grind [execMpairLate, lateMat_inv, keeps_next, keeps_notEnabled]

theorem admitAll_inv {s : State} (h : s.Inv) (core k : Nat) : (admitAll core k s).Inv := by
  induction k generalizing s with
  | zero => exact h
  | succ k ih => grind [admitAll, setMat_inv]

theorem admitMat_inv {s : State} (h : s.Inv) (core : Nat) : (admitMat s core).Inv := by
  grind [admitMat, admitAll_inv]

theorem thawMat_inv {s : State} (h : s.Inv) (t : Team) (seqs : List Nat) : (thawMat s t seqs).Inv := by
  grind [thawMat, admitMat_inv, setCore_inv]

theorem cancelMat_inv {s : State} (h : s.Inv) (t : Team) (seqs : List Nat) : (cancelMat s t seqs).Inv := by
  grind [cancelMat, releaseOf_inv, setCore_inv, foldl_inv]

theorem stopMat_inv {s : State} (h : s.Inv) (core : Nat) (c : MatCmd) : (stopMat s core c).Inv := by
  have hw := withdraw_inv h [c.iss.seq]
  have hrun {hi : Nat} {r : RunRes} (hr : runMat { withdraw s [c.iss.seq] with fresh := (withdraw s [c.iss.seq]).fresh + 1 }
      c hi = some r) :
      r.st.Inv := runMat_inv ((inv_with _).2 hw) hr
  grind [stopMat, setMat_inv, haltMat_inv, inv_with]

end Sys2Proof.Proofs

/-! ## The invariant: system instructions and launch -/

namespace Sys2Proof.Proofs

open Sys2Proof Sys2Proof.Machine Sys2Proof.Laws

set_option Elab.async false

theorem execRdsr_keeps {s : State} (h : s.Inv) (d : BitVec 5) (i : BitVec 12) : KeepsInv (execRdsr d i s) := by
  grind [execRdsr, withWord_keeps, finish_inv, keeps_next]

theorem wrsrLanes_keeps {s : State} (h : s.Inv) (i : Instr) (a : BitVec 5) (f : Team → List (Nat × Word) → Team) :
    KeepsInv (wrsrLanes i a s f) := by
  unfold wrsrLanes
  exact withWord_keeps h _ _ _ fun _ _ => keeps_next.2 (finish_inv h ..)

theorem execWrsrTrapvec_keeps {s : State} (h : s.Inv) (a : BitVec 5) : KeepsInv (execWrsrTrapvec a s) := by
  grind [execWrsrTrapvec, withCauses_keeps, consume_keeps, setTeam_inv, bump_inv, keeps_next]

theorem execWrsr_keeps {s : State} (h : s.Inv) (a : BitVec 5) (i : BitVec 12) : KeepsInv (execWrsr a i s) := by
  grind [execWrsr, withWord_keeps, raiseIll_inv, keeps_next]

theorem afterUnit_inv {s : State} (h : s.Inv) (t : Team) (k : Nat) : (afterUnit s t k).Inv := by
  induction k generalizing s t with
  | zero => exact setTeam_inv h _
  | succ k ih => grind [afterUnit, !fetchWord_inv, raiseFetch_inv, poisonedWord_inv, setTeam_inv]

theorem atClause_inv {s : State} (h : s.Inv) (t : Team) (hdr : Word) (wix : Nat) {k : State → Team → State}
    (hk : ∀ s' t, s'.Inv → (k s' t).Inv) : (atClause s t hdr wix k).Inv := by
  grind [atClause, !fetchWord_inv, raiseFetch_inv, poisonedWord_inv, raiseWide_inv, raiseIll_inv, setTeam_inv]

theorem reenter_inv {s : State} (h : s.Inv) (t : Team) (b : Block) : (reenter s t b).Inv := by
  unfold reenter
  split
  · exact l1Invalidate_inv (setTeam_inv h _) _
  · split
    · exact dropRole_inv (setTeam_inv h _) _
    · exact setTeam_inv h _
  · exact dropIfBlocked_inv (wakeQueues_inv (setTeam_inv h _)) _

theorem letSlotGo_inv {s : State} (h : s.Inv) (t : Team) : (letSlotGo s t).Inv := h

theorem resumeAt_inv {s : State} (h : s.Inv) (t : Team) (hd : Handler) (retry : Bool) (hdr : Word) (wix : Nat) (rm : Mask) :
    (resumeAt s t hd retry hdr wix rm).Inv := by
  unfold resumeAt
  dsimp only
  split
  · exact reenter_inv h ..
  · split
    · exact setTeam_inv h _
    split
    · split <;> exact setTeam_inv h _
    · refine atClause_inv h _ _ _ fun s' t' hs => ?_
      split
      · exact setTeam_inv hs _
      · exact afterUnit_inv hs ..

theorem leaveHandler_inv {s : State} (h : s.Inv) (t : Team) (h : Handler) (skip : Bool) : (leaveHandler s t h skip).Inv := by
  grind [leaveHandler, raiseWide_inv, performUpTo_inv, taintRows_inv, setTeam_inv, letSlotGo_inv, cancelMat_inv,
    cancelCopy_inv, thawMat_inv, thawCopy_inv, resumeAt_inv, foldl_inv]

theorem execTret_keeps {s : State} (h : s.Inv) (k : BitVec 1) : KeepsInv (execTret k s) := by
  grind [execTret, withWord_keeps, raiseIll_inv, leaveHandler_inv, setTeam_inv, keeps_next]

theorem finishTret_inv {s : State} (h : s.Inv) (u : Nat) : (finishTret s u).Inv := by
  grind [finishTret, leaveHandler_inv]

theorem execTrefresh_keeps {s : State} (h : s.Inv) : KeepsInv (execTrefresh s) := by
  grind [execTrefresh, withWord_keeps, setTeam_inv, keeps_next]

theorem execLease_keeps {s : State} (h : s.Inv) (d a : BitVec 5) (i : BitVec 12) : KeepsInv (execLease d a i s) := by
  grind [execLease, withCauses_keeps, withLead_keeps, toHeader_keeps, bump_inv, setTeam_inv, taint_inv, inv_with, keeps_next]

theorem dropLease_inv {s : State} (h : s.Inv) (t : Team) : (dropLease s t).Inv := by
  grind [dropLease, setTeam_inv, scrubLeases_inv]

theorem execUnlease_keeps {s : State} (h : s.Inv) : KeepsInv (execUnlease s) := by
  grind [execUnlease, withCauses_keeps, setTeam_inv, performSet_inv, dropLease_inv, keeps_next]

theorem pushGrid_inv {s : State} (h : s.Inv) (c : Context) (bs : List Byte) (release : Option Nat) :
    (pushGrid s c bs release).Inv :=
  h

theorem execLaunch_keeps {s : State} (h : s.Inv) (d a : BitVec 5) : KeepsInv (execLaunch d a s) := by
  grind [execLaunch, withWord_keeps, withLead_keeps, bump_inv, withBlock_keeps, setTeam_inv, taint_inv, enqueue_inv,
    pushGrid_inv, inv_with, keeps_next]

theorem execFwcall_keeps {s : State} (h : s.Inv) (d a : BitVec 5) (k : BitVec 8) : KeepsInv (execFwcall d a k s) := by
  grind [execFwcall, withWord_keeps, withLead_keeps, bump_inv, withBlock_keeps, releaseNow_inv, setTeam_inv, inv_with,
    keeps_next]

theorem doneBump_inv {s : State} (h : s.Inv) (c : Context) (va : DWord) : ∀ s', doneBump s c va = some s' → s'.Inv := by
  grind [doneBump, sendRemote_inv, homeWrite_inv]

theorem closeGrid_inv {s : State} (h : s.Inv) (ctx num : Nat) (st : GridSt) (reason : Nat) :
    (closeGrid s ctx num st reason).Inv := by
  unfold closeGrid
  split
  next c g _ _ =>
    refine setGrid_inv ?_ _ _
    cases hb : (if g.desc.done = 0 then some s else doneBump s c g.desc.done) with
    | none => exact h
    | some s' =>
      split at hb
      · exact Option.some.inj hb ▸ h
      · exact doneBump_inv h _ _ _ hb
  · exact h

theorem execGridDispatch_keeps {s : State} (h : s.Inv) (ctx : Nat) : KeepsInv (execGridDispatch ctx s) := by
  unfold execGridDispatch
  split
  · exact keeps_notEnabled _
  split
  · exact keeps_notEnabled _
  split
  · split
    · exact keeps_next.2 (closeGrid_inv h ..)
    · split
      · exact keeps_next.2 (closeGrid_inv h ..)
      · exact keeps_next.2 (setGrid_inv ((inv_with s).2 h) _ _)
  · exact keeps_next.2 (closeGrid_inv h ..)

theorem freshCaches_inv {s : State} (h : s.Inv) (core : Nat) : (freshCaches s core).Inv := h

theorem addTeam_inv {s : State} (h : s.Inv) (t : Team) : (addTeam s t).Inv := by
  grind [addTeam, freshCaches_inv, setGrid_inv, inv_with]

theorem placeAt_inv {s : State} (h : s.Inv) (c : Context) (g : Grid) (o : Nat × Nat) (frames : List (Option Nat)) :
    (placeAt s c g o frames).Inv := by
  grind [placeAt, setCore_inv, setGrid_inv, addTeam_inv, foldl_inv, inv_with]

theorem placeNext_inv {s : State} (h : s.Inv) (ctx num : Nat) : ∀ s', placeNext s ctx num = some s' → s'.Inv := by
  grind [placeNext, placeAt_inv]

theorem placeMany_inv {s s' : State} (h : s.Inv) {ctx num n : Nat} (hp : placeMany ctx num n s = some s') : s'.Inv := by
  induction n generalizing s with
  | zero => exact Option.some.inj hp ▸ h
  | succ n ih =>
    obtain ⟨s1, h1, h2⟩ := Option.bind_eq_some_iff.mp hp
    exact ih (placeNext_inv h _ _ _ h1) h2

theorem placeGrid_inv {s : State} (h : s.Inv) (ctx : Nat) (g : Grid) : ∀ s', placeGrid s ctx g = some s' → s'.Inv := by
  grind [placeGrid, placeMany_inv, placeNext_inv]

theorem execClusterPlace_keeps {s : State} (h : s.Inv) (ctx grid : Nat) : KeepsInv (execClusterPlace ctx grid s) := by
  grind [execClusterPlace, placeGrid_inv, keeps_next, keeps_notEnabled]

theorem harvestNext_inv {s : State} (h : s.Inv) (c : Context) (g : Grid) : ∀ s', harvestNext s c g = some s' → s'.Inv := by
  grind [harvestNext, freshCaches_inv, setTeam_inv, setGrid_inv, addTeam_inv, inv_with]

theorem execHarvestPlace_keeps {s : State} (h : s.Inv) (ctx grid : Nat) : KeepsInv (execHarvestPlace ctx grid s) := by
  grind [execHarvestPlace, harvestNext_inv, keeps_next, keeps_notEnabled]

theorem closeCluster_inv {s : State} (h : s.Inv) (ctx grid lin : Nat) : (closeCluster s ctx grid lin).Inv := by
  grind [closeCluster, inv_with]

theorem closeIfDone_inv {s : State} (h : s.Inv) (ctx grid : Nat) : (closeIfDone s ctx grid).Inv := by
  grind [closeIfDone, closeGrid_inv]

theorem execTeamEnd_keeps {s : State} (h : s.Inv) (u : Nat) : KeepsInv (execTeamEnd u s) := by
  grind [execTeamEnd, drainAll_inv, scrubLeases_inv, dropRole_inv, setTeam_inv, dropCommands_inv, setCluster_inv,
    setGrid_inv, wakeQueues_inv, barCheck_inv, rootCheck_inv, gbarCheck_inv, closeIfDone_inv, closeCluster_inv, foldl_inv,
    keeps_next, keeps_notEnabled]

theorem execLeaveGrant_keeps {s : State} (h : s.Inv) (die : Nat) : KeepsInv (execLeaveGrant die s) := by
  grind [execLeaveGrant, setDie_inv, keeps_next, keeps_notEnabled]

theorem execTokenRefill_keeps {s : State} (h : s.Inv) : KeepsInv (execTokenRefill s) := by
  grind [execTokenRefill, inv_with, keeps_next, keeps_notEnabled]

theorem execBubbleEnd_keeps {s : State} (h : s.Inv) : KeepsInv (execBubbleEnd s) := by
  grind [execBubbleEnd, inv_with, keeps_next, keeps_notEnabled]

end Sys2Proof.Proofs

/-! ## The invariant: firmware and pre-emption -/

namespace Sys2Proof.Proofs

open Sys2Proof Sys2Proof.Machine Sys2Proof.Laws

set_option Elab.async false

theorem countFrame_inv {s : State} (h : s.Inv) (pa : Nat) (up : Bool) : (countFrame s pa up).Inv := h

theorem holdNodes_inv {s : State} (h : s.Inv) (lineage : Nat) (ns : List (Nat × Nat)) : (holdNodes s lineage ns).Inv := by
  grind [holdNodes, countFrame_inv, foldl_inv, inv_with]

theorem publish_inv {s : State} (h : s.Inv) (c : Context) (root : RootDesc) : (publish s c root).Inv := by
  grind [publish, holdNodes_inv, setCtx_inv, inv_with]

theorem node_inv {b : Build} (h : b.st.Inv) (es : List Entry) : (b.node es).1.st.Inv := by
  have hbody : @Build.node = @Build.node := rfl
  conv at hbody => rhs; delta Build.node
  obtain ⟨free, hfree⟩ : ∃ free, chooseStrong = free := ⟨_, rfl⟩
  rw [hfree] at hbody
  rw [hbody]
  dsimp only
  split
  · exact h
  · exact (inv_with _).2 (homePut_inv h ..)

theorem finishNode_inv {b : Build} (h : b.st.Inv) (l : Nat) (src : Option (Nat × Nat)) (old new : List Entry) :
    (finishNode l src old new b).1.st.Inv := by
  have hn := node_inv h new
  obtain ⟨x, hx⟩ : ∃ x, b.node new = x := ⟨_, rfl⟩
  unfold finishNode
  rw [hx] at hn ⊢
  split
  · exact h
  split
  · split
    · exact h
    · exact hn
  · exact hn

/-- A rebuilt tree: new nodes are written into free frames, level by level. -/
theorem rebuild_inv (act : Nat → Nat → Entry → Act) (gen : BitVec 16) (lo hi l : Nat) (src : Option (Nat × Nat))
    (base : Nat) {b : Build}
    (h : b.st.Inv) : (rebuild act gen lo hi l src base b).1.st.Inv := by
  have hbody : @rebuild._f = @rebuild._f := rfl
  conv at hbody => rhs; delta rebuild._f
  have hfin {l src old new} {b : Build} (h : b.st.Inv) := finishNode_inv h l src old new
  obtain ⟨fin, hf⟩ : ∃ fin, finishNode = fin := ⟨_, rfl⟩
  obtain ⟨ents, he⟩ : ∃ ents, srcEntries = ents := ⟨_, rfl⟩
  rw [hf] at hfin
  rw [hf, he] at hbody
  delta rebuild
  rw [hbody]
  induction l generalizing src base b with
  | zero => exact hfin h
  | succ l ih =>
    refine hfin (List.foldlRecOn (motive := fun r : Build × List Entry => r.1.st.Inv) _ _ h fun r hr x _ => ?_)
    dsimp only
    split
    · exact hr
    split
    · exact hr
    · exact hr
    · exact ih _ _ hr

theorem finishTop_inv {r : Build × Option Nat} (h : r.1.st.Inv) (c : Context) (lvl : Nat) : (finishTop c lvl r).1.st.Inv := by
  have hn := node_inv h (List.replicate 256 noEntry)
  obtain ⟨x, hx⟩ : ∃ x, r.1.node (List.replicate 256 noEntry) = x := ⟨_, rfl⟩
  unfold finishTop
  rw [hx] at hn ⊢
  split
  · exact h
  · exact hn

theorem newPages_inv {b : Build} (h : b.st.Inv) (ctx tier size fmt n : Nat) : (newPages b ctx tier size fmt n).1.st.Inv := by
  have hbody : @newPages._f = @newPages._f := rfl
  conv at hbody => rhs; delta newPages._f
  have hzero {s : State} (hs : s.Inv) (pa n : Nat) := zeroRange_inv hs pa n
  obtain ⟨page, hpage⟩ : ∃ page, choosePage = page := ⟨_, rfl⟩
  obtain ⟨strong, hstrong⟩ : ∃ strong, chooseStrong = strong := ⟨_, rfl⟩
  obtain ⟨zero, hz⟩ : ∃ zero, zeroRange = zero := ⟨_, rfl⟩
  rw [hz] at hzero
  rw [hpage, hstrong, hz] at hbody
  have hpage' {s : State} (hs : s.Inv) (pa n : Nat) : (if tier = 2 then s else zero s pa n).Inv := by
    split
    · exact hs
    · exact hzero hs ..
  delta newPages
  rw [hbody]
  induction n with
  | zero => exact h
  | succ n ih =>
    conv => arg 1; arg 1; arg 1; whnf
    split
    · exact ih
    next pa _ =>
    show (ite (fmt = 0) _ _ : Build × List (Nat × Nat)).1.st.Inv
    by_cases hfmt : fmt = 0
    · rw [if_pos hfmt]
      exact (inv_with _).2 (hpage' ((inv_with _).2 ih) _ _)
    · rw [if_neg hfmt]
      split
      · exact (inv_with _).2 (hpage' ((inv_with _).2 ih) _ _)
      · exact (inv_with _).2 (hzero ((inv_with _).2 (hpage' ((inv_with _).2 ih) _ _)) _ _)

theorem publishBuild_inv {s : State} (h : s.Inv) (c : Context) (gen : BitVec 16) {t : Build × Nat × Nat} (ht : t.1.st.Inv) :
    (publishBuild s c gen t).1.Inv := by
  obtain ⟨rid, hrid⟩ : ∃ rid, chooseRid t.1.st = rid := ⟨_, rfl⟩
  unfold publishBuild
  rw [hrid]
  split
  · exact h
  split
  · exact h
  · exact publish_inv ((inv_with _).2 ht) ..

theorem setLeaves_inv {s : State} (h : s.Inv) {b : Build} (hb : b.st.Inv) (c : Context) (gen : BitVec 16) (m : MapBlock)
    (fs : List (Nat × Nat)) : (setLeaves s b c gen m fs).1.Inv :=
  publishBuild_inv h _ _ (finishTop_inv (rebuild_inv _ _ _ _ _ _ _ hb) _ _)

theorem mapPages_inv {s : State} (h : s.Inv) (c : Context) (m : MapBlock) (gen : BitVec 16) (source : Option RootDesc) :
    (mapPages s c m gen source).1.Inv := by
  unfold mapPages
  dsimp only
  split
  · exact setLeaves_inv h h ..
  split
  · exact h
  · exact setLeaves_inv h (newPages_inv h ..) ..

theorem runMap_inv {s : State} (h : s.Inv) (c : Context) (m : MapBlock) (isMap : Bool) : (runMap s c m isMap).1.Inv := by
  grind [runMap, !mapPages_inv]

theorem runUnmap_inv {s : State} (h : s.Inv) (c : Context) (m : MapBlock) : (runUnmap s c m).1.Inv := by
  unfold runUnmap
  split
  · exact h
  split
  · exact h
  split
  · exact h
  · exact publishBuild_inv h _ _ (finishTop_inv (rebuild_inv _ _ _ _ _ _ _ h) _ _)

theorem copyPath_inv (va lv : Nat) (gen : BitVec 16) (leaf : Entry) (l node : Nat) (att : Bool) {b : Build} (h : b.st.Inv) :
    (copyPath va lv gen leaf l node att b).1.st.Inv := by
  have hbody : @copyPath._f = @copyPath._f := rfl
  conv at hbody => rhs; delta copyPath._f
  have hnode {b : Build} (h : b.st.Inv) (es : List Entry) := node_inv h es
  obtain ⟨put, hput⟩ : ∃ put, @Build.node = put := ⟨_, rfl⟩
  obtain ⟨ents, hents⟩ : ∃ ents, nodeEntries = ents := ⟨_, rfl⟩
  rw [hput] at hnode
  rw [hput, hents] at hbody
  delta copyPath
  rw [hbody]
  induction l generalizing node att with
  | zero => exact hnode h _
  | succ l ih =>
    dsimp only [Nat.brecOn]
    split
    · exact hnode h _
    · exact hnode (ih _ _) _

theorem runCopyForm_inv {s : State} (h : s.Inv) (c : Context) (m : MapBlock) : (runCopyForm s c m).1.Inv := by
  unfold runCopyForm
  split
  · exact h
  split
  next e gen _ _ _ =>
    extract_lets shared b r
    clear_value shared
    have hr : r.1.st.Inv := by
      unfold r
      split
      · exact newPages_inv h ..
      · exact h
    clear_value r
    split
    · exact h
    split
    · refine publishBuild_inv h _ _ (finishTop_inv (copyPath_inv _ _ _ _ _ _ _ ?_) _ _)
      grind [copyRange_inv]
    · exact h
  · exact h
  · exact h

theorem takeSnapshot_inv {s : State} (h : s.Inv) (c : Context) : (takeSnapshot s c).1.Inv := by
  grind [takeSnapshot, holdNodes_inv, inv_with]

theorem retireRoot_inv {s : State} (h : s.Inv) (r : RootRec) : (retireRoot s r).Inv := h

theorem dropSnapshot_inv {s : State} (h : s.Inv) (c : Context) (sid : Nat) : (dropSnapshot s c sid).1.Inv := by
  grind [dropSnapshot, retireRoot_inv, inv_with]

theorem runFork_inv {s : State} (h : s.Inv) (c : Context) (m : MapBlock) : (runFork s c m).1.Inv := by
  have hbody : @runFork = @runFork := rfl
  conv at hbody => rhs; delta runFork
  have hnode {b : Build} (h : b.st.Inv) (es : List Entry) := node_inv h es
  obtain ⟨put, hput⟩ : ∃ put, @Build.node = put := ⟨_, rfl⟩
  obtain ⟨rids, hrids⟩ : ∃ rids, threeRids = rids := ⟨_, rfl⟩
  obtain ⟨ids, hids⟩ : ∃ ids, chooseCtx = ids := ⟨_, rfl⟩
  rw [hput] at hnode
  rw [hput, hrids, hids] at hbody
  rw [hbody]
  beta_reduce
  split
  · exact h
  split
  · exact h
  · extract_lets old es b p q k desc st1 copy st2 st3
    have hq : q.1.st.Inv := hnode (hnode ((inv_with _).2 h) _) _
    clear_value q p
    have h3 : st3.Inv := publish_inv ((inv_with _).2 (holdNodes_inv hq ..)) ..
    clear_value st3
    split
    · exact h
    split
    · exact publish_inv h3 ..
    · exact h
  · exact h

theorem mapFamily_inv {s : State} (h : s.Inv) (c : Context) (code : Nat) (m : MapBlock) : (mapFamily s c code m).1.Inv := by
  unfold mapFamily
  split
  · exact h
  split
  · grind [runMap_inv]
  · grind [runUnmap_inv]
  · grind [runMap_inv, runCopyForm_inv]
  · grind [takeSnapshot_inv, dropSnapshot_inv]
  · grind [runFork_inv]
  · exact h

theorem fwRun_inv {s : State} (h : s.Inv) (u : Nat) : (fwRun s u).Inv := by
  grind [fwRun, !mapFamily_inv, setTeam_inv]

theorem fwFinish_inv {s : State} (h : s.Inv) (u : Nat) : (fwFinish s u).Inv := by
  grind [fwFinish, l1Invalidate_inv, taint_inv, setTeam_inv]

theorem markReleased_inv {s : State} (h : s.Inv) : (markReleased s).Inv := by
  grind [markReleased, inv_with]

theorem releaseFrame_inv {s : State} (h : s.Inv) (wipe : Bool) (pa : Nat) : (releaseFrame wipe s pa).Inv := by
  grind [releaseFrame, countFrame_inv, zeroRange_inv]

theorem releaseNode_inv {s : State} (h : s.Inv) (lineage : Nat) (wipe : Bool) (pa : Nat) :
    (releaseNode lineage wipe s pa).Inv := by
  grind [releaseNode, releaseFrame_inv, zeroRange_inv, foldl_inv, inv_with]

theorem execExclusiveListProcess_keeps {s : State} (h : s.Inv) (lineage : Nat) : KeepsInv
    (execExclusiveListProcess lineage s) := by
  grind [execExclusiveListProcess, markReleased_inv, performAll_inv, releaseNode_inv, foldl_inv, inv_with, keeps_next,
    keeps_notEnabled]

theorem execRidTagFlush_keeps {s : State} (h : s.Inv) : KeepsInv (execRidTagFlush s) := by
  grind [execRidTagFlush, inv_with, keeps_next, keeps_notEnabled]

theorem execTranslationWalk_keeps {s : State} (h : s.Inv) (die : Nat) : KeepsInv (execTranslationWalk die s) := by
  grind [execTranslationWalk, fillMiss_inv, setDie_inv, foldl_inv, keeps_next, keeps_notEnabled]

theorem execTrapEntry_keeps {s : State} (h : s.Inv) (u : Nat) : KeepsInv (execTrapEntry u s) := by
  grind [execTrapEntry, settle_inv, keeps_next, keeps_notEnabled]

theorem execFrqStallRetry_keeps {s : State} (h : s.Inv) (u : Nat) : KeepsInv (execFrqStallRetry u s) := by
  grind [execFrqStallRetry, settle_inv, keeps_next, keeps_notEnabled]

theorem stopCommands_inv {s : State} (h : s.Inv) (t : Team) : (stopCommands s t).Inv := by
  grind [stopCommands, stopCopy_inv, stopMat_inv, foldl_inv]

theorem letGo_inv {s : State} (h : s.Inv) (t : Team) : (letGo s t).Inv := h

theorem saveTeam_inv {s : State} (h : s.Inv) (u : Nat) : (saveTeam s u).Inv := by
  grind [saveTeam, letGo_inv, drainAll_inv, stopCommands_inv, setTeam_inv]

theorem withoutLeases_inv {s : State} (h : s.Inv) : (withoutLeases s).Inv := h

theorem landLoose_inv {s : State} (h : s.Inv) (t : Team) : (landLoose s t).Inv := by
  grind [landLoose, landWrites_inv, inv_with]

theorem revokeTeam_inv {s : State} (h : s.Inv) (u : Nat) (into : Place) : (revokeTeam s u into).Inv := by
  grind [revokeTeam, fwRun_inv, stopCommands_inv, dropCommands_inv, withdraw_inv, landLoose_inv, letGo_inv, drainAll_inv,
    dropLease_inv, setTeam_inv]

theorem revokeOne_inv {s : State} (h : s.Inv) (x1 : Nat × Place) : (revokeOne s x1).Inv := by
  grind [revokeOne, setTeam_inv, revokeTeam_inv]

theorem execHarvestRevoke_keeps {s : State} (h : s.Inv) (core : Nat) : KeepsInv (execHarvestRevoke core s) := by
  grind [execHarvestRevoke, revokeOne_inv, foldl_inv, keeps_next, keeps_notEnabled]

theorem execPreemptRequest_keeps {s : State} (h : s.Inv) (core : Nat) : KeepsInv (execPreemptRequest core s) := by
  grind [execPreemptRequest, saveTeam_inv, revokeOne_inv, foldl_inv, keeps_next, keeps_notEnabled]

theorem execHarvestRestart_keeps {s : State} (h : s.Inv) (u : Nat) : KeepsInv (execHarvestRestart u s) := by
  grind [execHarvestRestart, l1Invalidate_inv, setTeam_inv, keeps_next, keeps_notEnabled]

theorem execLeaseScrub_keeps {s : State} (h : s.Inv) (core : Nat) : KeepsInv (execLeaseScrub core s) := by
  grind [execLeaseScrub, setCore_inv, keeps_next, keeps_notEnabled]

theorem moveCommands_inv {s : State} (h : s.Inv) (t : Team) (core : Nat) : (moveCommands s t core).Inv := h

theorem returnCommands_inv {s : State} (h : s.Inv) (u core : Nat) : (returnCommands s u core).Inv := by
  grind [returnCommands, admitMat_inv, admitCopy_inv, setCore_inv]

theorem moveOne_inv {s : State} (h : s.Inv) (core : Nat) (t : Team) : (moveOne core s t).Inv := h

theorem moveTeam_inv {s : State} (h : s.Inv) (t : Team) (core : Nat) : (moveTeam s t core).Inv := by
  grind [moveTeam, moveOne_inv, setGrid_inv, foldl_inv]

theorem execTeamResume_keeps {s : State} (h : s.Inv) (u core : Nat) : KeepsInv (execTeamResume u core s) := by
  grind [execTeamResume, moveTeam_inv, setCore_inv, freshCaches_inv, setTeam_inv, wakeQueues_inv, returnCommands_inv,
    keeps_next, keeps_notEnabled]

end Sys2Proof.Proofs

/-! ## The invariant: host commands, the board and frames -/

namespace Sys2Proof.Proofs

open Sys2Proof Sys2Proof.Machine Sys2Proof.Laws

set_option Elab.async false

theorem respond_inv {s : State} (h : s.Inv) (r : Req) (cmd stat : Nat) (payload : List Byte) :
    (respond s r cmd stat payload).Inv := by
  grind [respond, sendFrame_inv, inv_with]

theorem command_keeps {s : State} (h : s.Inv) (name : String) (code : Nat) (r : Req) {k : State → State × Nat × List Byte}
    (hk : (k s).1.Inv) : KeepsInv (command name code r s k) := by
  grind [command, respond_inv, keeps_next, keeps_notEnabled]

theorem stat_inv {s : State} (h : s.Inv) (k : Nat) : (stat s k).1.Inv := h

theorem onCtx_inv {s : State} (h : s.Inv) (p : List Byte) (len : Nat) {k : Context → State × Nat × List Byte}
    (hk : ∀ c, (k c).1.Inv) :
    (onCtx s p len k).1.Inv := by
  grind [onCtx, stat_inv]

theorem execQuery_keeps {s : State} (h : s.Inv) (r : Req) : KeepsInv (execQuery r s) := by
  grind [execQuery, command_keeps, !stat_inv]

theorem execAttest_keeps {s : State} (h : s.Inv) (r : Req) : KeepsInv (execAttest r s) := by
  grind [execAttest, command_keeps, !stat_inv]

theorem execHostReset_keeps {s : State} (h : s.Inv) (r : Req) : KeepsInv (execHostReset r s) := by
  grind [execHostReset, respond_inv, resetModule_inv, keeps_next, keeps_notEnabled]

theorem execPeerAdd_keeps {s : State} (h : s.Inv) (r : Req) : KeepsInv (execPeerAdd r s) := by
  grind [execPeerAdd, command_keeps, !stat_inv, remoteFail_inv, setStream_inv, foldl_inv, inv_with]

theorem execPowerCap_keeps {s : State} (h : s.Inv) (r : Req) : KeepsInv (execPowerCap r s) := by
  grind [execPowerCap, command_keeps, !stat_inv, setDie_inv, foldl_inv]

theorem execCtxCreate_keeps {s : State} (h : s.Inv) (r : Req) : KeepsInv (execCtxCreate r s) := by
  have hbody : @execCtxCreate = @execCtxCreate := rfl
  conv at hbody => rhs; delta execCtxCreate
  have hnode {b : Build} (h : b.st.Inv) (es : List Entry) := node_inv h es
  obtain ⟨put, hput⟩ : ∃ put, @Build.node = put := ⟨_, rfl⟩
  obtain ⟨rids, hrids⟩ : ∃ rids, chooseRid = rids := ⟨_, rfl⟩
  obtain ⟨ids, hids⟩ : ∃ ids, chooseCtx = ids := ⟨_, rfl⟩
  rw [hput] at hnode
  rw [hput, hrids, hids] at hbody
  rw [hbody]
  refine command_keeps h _ _ _ ?_
  extract_lets b hang trapv frqb tfrb n k st
  have hn : n.1.st.Inv := hnode ((inv_with _).2 h) _
  have hst (hn : n.1.st.Inv) : st.Inv := holdNodes_inv hn ..
  split
  · exact h
  split
  · exact (inv_with _).2 (hst hn)
  · exact h

theorem drainGone_inv {s : State} (h : s.Inv) (ctx : Nat) : (drainGone s ctx).Inv := by
  grind [drainGone, performAll_inv]

theorem execCtxDestroy_keeps {s : State} (h : s.Inv) (r : Req) : KeepsInv (execCtxDestroy r s) := by
  grind [execCtxDestroy, respond_inv, drainGone_inv, killGrid_inv, retireRoot_inv, setCtx_inv, foldl_inv, inv_with,
    keeps_next, keeps_notEnabled]

theorem execCtxScrubDone_keeps {s : State} (h : s.Inv) (ctx : Nat) : KeepsInv (execCtxScrubDone ctx s) := by
  grind [execCtxScrubDone, respond_inv, foldl_inv, inv_with, keeps_next, keeps_notEnabled]

theorem execPartSet_keeps {s : State} (h : s.Inv) (r : Req) : KeepsInv (execPartSet r s) := by
  grind [execPartSet, command_keeps, !onCtx_inv, !stat_inv, setCtx_inv]

theorem execHarvestGrant_keeps {s : State} (h : s.Inv) (r : Req) : KeepsInv (execHarvestGrant r s) := by
  grind [execHarvestGrant, command_keeps, !onCtx_inv, !stat_inv, inv_with]

theorem execDecodeLoad_keeps {s : State} (h : s.Inv) (r : Req) : KeepsInv (execDecodeLoad r s) := by
  grind [execDecodeLoad, command_keeps, !onCtx_inv, !stat_inv, setCtx_inv]

theorem execMemAlloc_keeps {s : State} (h : s.Inv) (r : Req) : KeepsInv (execMemAlloc r s) := by
  grind [execMemAlloc, command_keeps, !onCtx_inv, !stat_inv, setCtx_inv]

theorem mapCommand_keeps {s : State} (h : s.Inv) (name : String) (code : Nat) (r : Req) : KeepsInv (mapCommand name code r s)
    := by
  grind [mapCommand, command_keeps, !onCtx_inv, !mapFamily_inv]

theorem execHostMap_keeps {s : State} (h : s.Inv) (r : Req) : KeepsInv (execHostMap r s) := by
  grind [execHostMap, mapCommand_keeps]

theorem execUnmap_keeps {s : State} (h : s.Inv) (r : Req) : KeepsInv (execUnmap r s) := by
  grind [execUnmap, mapCommand_keeps]

theorem execRemap_keeps {s : State} (h : s.Inv) (r : Req) : KeepsInv (execRemap r s) := by
  grind [execRemap, mapCommand_keeps]

theorem execSnapshot_keeps {s : State} (h : s.Inv) (r : Req) : KeepsInv (execSnapshot r s) := by
  grind [execSnapshot, mapCommand_keeps]

theorem execFork_keeps {s : State} (h : s.Inv) (r : Req) : KeepsInv (execFork r s) := by
  grind [execFork, mapCommand_keeps]

theorem execHostWrite_keeps {s : State} (h : s.Inv) (r : Req) : KeepsInv (execHostWrite r s) := by
  refine command_keeps h _ _ _ ?_
  dsimp only
  split
  · exact h
  split
  · exact h
  split
  · exact h
  split
  · exact h
  · exact List.foldlRecOn (motive := fun r : State × List Byte => r.1.Inv) _ _ h fun _ h _ _ => homeWrite_inv h ..

theorem execHostRead_keeps {s : State} (h : s.Inv) (r : Req) : KeepsInv (execHostRead r s) := by
  grind [execHostRead, command_keeps, !onCtx_inv, !stat_inv]

theorem execHostLaunch_keeps {s : State} (h : s.Inv) (r : Req) : KeepsInv (execHostLaunch r s) := by
  grind [execHostLaunch, command_keeps, !onCtx_inv, pushGrid_inv]

theorem execGridWait_keeps {s : State} (h : s.Inv) (r : Req) : KeepsInv (execGridWait r s) := by
  grind [execGridWait, respond_inv, inv_with, keeps_next, keeps_notEnabled]

theorem answerWaits_inv {s : State} (h : s.Inv) : (answerWaits s).Inv := by
  grind [answerWaits, respond_inv, foldl_inv, inv_with]

theorem suspendCommand_keeps {s : State} (h : s.Inv) (name : String) (code : Nat) (on : Bool) (r : Req) : KeepsInv
    (suspendCommand name code on r s) := by
  grind [suspendCommand, command_keeps, !onCtx_inv, !stat_inv, setCtx_inv]

theorem execSuspend_keeps {s : State} (h : s.Inv) (r : Req) : KeepsInv (execSuspend r s) := by
  grind [execSuspend, suspendCommand_keeps]

theorem execResume_keeps {s : State} (h : s.Inv) (r : Req) : KeepsInv (execResume r s) := by
  grind [execResume, suspendCommand_keeps]

theorem execPoisonListMove_keeps {s : State} (h : s.Inv) (ctrl : Nat) : KeepsInv (execPoisonListMove ctrl s) := by
  grind [execPoisonListMove, moveList_inv, keeps_next, keeps_notEnabled]

theorem execL2WriteBack_keeps {s : State} (h : s.Inv) (line : Nat) : KeepsInv (execL2WriteBack line s) := by
  grind [execL2WriteBack, writeBack_inv, keeps_next, keeps_notEnabled]

theorem poisonStored_inv {s : State} (h : s.Inv) (e : StoreEnt) (hop : Nat) : (poisonStored s e hop).Inv := by
  grind [poisonStored, putBad_inv, poisonLine_inv, foldl_inv]

theorem poisonFlit_inv {s : State} (h : s.Inv) (hop : Nat) (flit : Flit) :
    ∀ s', poisonFlit s hop flit = some s' → s'.Inv := by
  cases flit with
  | reply u k lane =>
    intro s' e
    dsimp only [poisonFlit] at e
    split at e
    · exact nomatch e
    split at e
    · exact nomatch e
    · obtain ⟨p, _, rfl⟩ := Option.map_eq_some_iff.mp e
      exact setTeam_inv h _
  | write k => grind [poisonFlit, poisonStored_inv, performEnt_inv]
  | line pa => grind [poisonFlit, poisonLine_inv]
  | partialSum k => grind [poisonFlit, inv_with]

theorem execMeshLinkRetire_keeps {s : State} (h : s.Inv) (link : Nat) (flit : Flit) : KeepsInv
    (execMeshLinkRetire link flit s) := by
  grind [execMeshLinkRetire, poisonFlit_inv, inv_with, keeps_next, keeps_notEnabled]

theorem harmCheck_inv {s : State} (h : s.Inv) (ln : Nat) : (harmCheck s ln).Inv := h

theorem harmLine_inv {s : State} (h : s.Inv) (pa hop : Nat) : ∀ s', harmLine s pa hop = some s' → s'.Inv := by
  grind [harmLine, harmCheck_inv, poisonLine_inv]

theorem harmPool_inv {s : State} (h : s.Inv) (u : Nat) (f : Team → Option Team) :
    ∀ s', harmPool s u f = some s' → s'.Inv := by
  intro s' e
  unfold harmPool at e
  split at e
  · split at e
    · obtain ⟨t, _, rfl⟩ := Option.map_eq_some_iff.mp e
      exact setTeam_inv h _
    · exact nomatch e
  · exact nomatch e

theorem harm_inv {s : State} (h : s.Inv) (x : Harm) : ∀ s', harm s x = some s' → s'.Inv := by
  cases x with
  | line pa hop => exact harmLine_inv h pa hop
  | flit f => exact poisonFlit_inv h 6 f
  | scratch u w => exact harmPool_inv h u _
  | register u l r => exact harmPool_inv h u _
  | tile u k => exact harmPool_inv h u _

theorem execCheckpoint_keeps {s : State} (h : s.Inv) (r : Req) : KeepsInv (execCheckpoint r s) := by
  grind [execCheckpoint, respond_inv, writeBackAll_inv, memPut_inv, inv_with, keeps_next, keeps_notEnabled]

theorem answerCopy_inv {s : State} (h : s.Inv) (cmd : Nat) (payload : List Byte) : (answerCopy s cmd payload).Inv := by
  grind [answerCopy, respond_inv, foldl_inv, inv_with]

theorem execCheckpointDone_keeps {s : State} (h : s.Inv) : KeepsInv (execCheckpointDone s) := by
  unfold execCheckpointDone
  split
  next image clk bad novf _ =>
    extract_lets mem head
    have hmem : Memory.wf mem = true := foldl_wf _ (fun _ _ hm => sput_sok _ _ _ _ hm) _ (sdrop_sok _ _ _ h.1)
    clear_value mem head
    have hs : State.Inv { s with mem := mem, ckpt := none } := ⟨hmem, h.2⟩
    exact keeps_next.2 (answerCopy_inv (memPut_inv hs ..) ..)
  · exact keeps_notEnabled _

theorem execRestore_keeps {s : State} (h : s.Inv) (r : Req) : KeepsInv (execRestore r s) := by
  grind [execRestore, respond_inv, inv_with, keeps_next, keeps_notEnabled]

theorem execRestoreComplete_keeps {s : State} (h : s.Inv) : KeepsInv (execRestoreComplete s) := by
  unfold execRestoreComplete
  split
  · extract_lets ps n hop mem lp put
    have hmem : Memory.wf mem = true := foldl_wf _ (fun m c hm => by
      split
      · split
        · exact hm
        · exact sput_sok _ _ _ _ hm
      · exact hm) _ (sdrop_sok _ _ _ h.1)
    clear_value mem
    refine keeps_next.2 (answerCopy_inv ?_ ..)
    exact ⟨hmem, rfl, fun _ he => (List.not_mem_nil he).elim⟩
  · exact keeps_notEnabled _

theorem execResetN_keeps {s : State} (h : s.Inv) (heldNs : Nat) : KeepsInv (execResetN heldNs s) := by
  grind [execResetN, resetModule_inv, keeps_next, keeps_notEnabled]

theorem execBoot_keeps {s : State} (h : s.Inv) (flash : Option Manifest) : KeepsInv (execBoot flash s) := by
  unfold execBoot
  split
  · exact keeps_notEnabled _
  · exact keeps_next.2 ⟨sdrop_sok _ _ _ h.1, h.2⟩

theorem unpowered_inv (s : State) : (unpowered s).Inv := ⟨rfl, rfl, fun _ he => nomatch he⟩

theorem execPowerLoss_keeps (s : State) : KeepsInv (execPowerLoss s) := by
  grind [execPowerLoss, unpowered_inv, keeps_next]

theorem execThermalThrottle_keeps {s : State} (h : s.Inv) (die : Nat) (temp : BitVec 16) : KeepsInv
    (execThermalThrottle die temp s) := by
  grind [execThermalThrottle, setDie_inv, keeps_next, keeps_notEnabled]

theorem execThermalRecover_keeps {s : State} (h : s.Inv) (die : Nat) (temp : BitVec 16) : KeepsInv
    (execThermalRecover die temp s) := by
  grind [execThermalRecover, setDie_inv, keeps_next, keeps_notEnabled]

theorem execThermalShutdown_keeps (s : State) (die : Nat) (temp : BitVec 16) : KeepsInv
    (execThermalShutdown die temp s) := by
  grind [execThermalShutdown, unpowered_inv, setDie_inv, keeps_next, keeps_notEnabled]

theorem commandOf_keeps {s : State} (h : s.Inv) (cmd : Nat) (r : Req) : KeepsInv (commandOf cmd r s) := by
  unfold commandOf
  split
  · exact execQuery_keeps h r
  · exact execAttest_keeps h r
  · exact execHostReset_keeps h r
  · exact execPeerAdd_keeps h r
  · exact execPowerCap_keeps h r
  · exact execCtxCreate_keeps h r
  · exact execCtxDestroy_keeps h r
  · exact execPartSet_keeps h r
  · exact execHarvestGrant_keeps h r
  · exact execDecodeLoad_keeps h r
  · exact execMemAlloc_keeps h r
  · exact execHostMap_keeps h r
  · exact execUnmap_keeps h r
  · exact execRemap_keeps h r
  · exact execSnapshot_keeps h r
  · exact execFork_keeps h r
  · exact execHostWrite_keeps h r
  · exact execHostRead_keeps h r
  · exact execHostLaunch_keeps h r
  · exact execGridWait_keeps h r
  · exact execSuspend_keeps h r
  · exact execResume_keeps h r
  · exact execCheckpoint_keeps h r
  · exact execRestore_keeps h r
  · exact command_keeps h _ _ _ h

theorem takeCommand_inv {s : State} (h : s.Inv) (f : Frame) : (takeCommand s f).Inv := by
  unfold takeCommand
  split
  next e => exact (commandOf_keeps h _ _).inv _ e
  · exact h

theorem deliverFrame_inv {s : State} (h : s.Inv) (f : Frame) : (deliverFrame s f).Inv := by
  grind [deliverFrame, takeCommand_inv, serveFrame_inv, takeReply_inv]

theorem closeFin_inv {s : State} (h : s.Inv) (f : Frame) : (closeFin s f).Inv := by
  grind [closeFin, inv_with]

theorem drainGot_inv {s : State} (h : s.Inv) (k : Nat) (id : BitVec 32) : (drainGot k s id).Inv := by
  induction k generalizing s with
  | zero => exact h
  | succ k ih =>
    unfold drainGot
    split
    · exact h
    split
    · exact h
    · exact ih (closeFin_inv (deliverFrame_inv (setStream_inv h _) _) _)

theorem arrive_inv {s : State} (h : s.Inv) (x1 : Strm) (f : Frame) : (arrive s x1 f).Inv := by
  grind [arrive, drainGot_inv, closeFin_inv, deliverFrame_inv, setStream_inv]

theorem receive_inv {s : State} (h : s.Inv) (f : Frame) : (receive s f).Inv := by
  grind [receive, closeFin_inv, setStream_inv, arrive_inv]

theorem frameEvent_keeps {s : State} (h : s.Inv) (name : String) (ty : Nat) (f : Frame) : KeepsInv (frameEvent name ty f s)
    := by
  grind [frameEvent, receive_inv, keeps_next, keeps_notEnabled]

theorem execRemoteRead_keeps {s : State} (h : s.Inv) (f : Frame) : KeepsInv (execRemoteRead f s) := by
  grind [execRemoteRead, frameEvent_keeps]

theorem execRemoteWrite_keeps {s : State} (h : s.Inv) (f : Frame) : KeepsInv (execRemoteWrite f s) := by
  grind [execRemoteWrite, frameEvent_keeps]

theorem execRemoteAtomic_keeps {s : State} (h : s.Inv) (f : Frame) : KeepsInv (execRemoteAtomic f s) := by
  grind [execRemoteAtomic, frameEvent_keeps]

theorem execRemoteReply_keeps {s : State} (h : s.Inv) (f : Frame) : KeepsInv (execRemoteReply f s) := by
  grind [execRemoteReply, frameEvent_keeps]

theorem execAcknowledgement_keeps {s : State} (h : s.Inv) (f : Frame) : KeepsInv (execAcknowledgement f s) := by
  grind [execAcknowledgement, frameEvent_keeps]

end Sys2Proof.Proofs

/-! ## The invariant: one step -/

namespace Sys2Proof.Proofs

open Sys2Proof Sys2Proof.Machine Sys2Proof.Laws

set_option Elab.async false

theorem exec_keeps {s : State} (h : s.Inv) (i : Instr) : KeepsInv (exec i s) := by
  cases i with
  | bcNz | bcZ =>
    unfold exec
    exact branchCond_keeps h ..
  | wrsrFpx | wrsrXdead =>
    unfold exec
    exact wrsrLanes_keeps h ..
  | add | sub | mul | mulhiS | mulhiU | minS | minU | maxS | maxU | and | or | xor | andn | shl | shr | sar | rot
  | cmp | fadd | fsub | fmul | fmin | fmax | fcmp | fscale | hadd2 | hmul2 =>
    unfold exec
    exact vec2_keeps h ..
  | addi | andi | ori | xori | shli | shri | sari | bfe | cmpiEq | cmpiLtS | cmpiLtU | cmpiNe =>
    unfold exec
    exact vecI_keeps h ..
  | mad | bfi | sel | dot4S8 | dot4U8 | ffma | hfma2 | fdot2 | fdot4F8 =>
    unfold exec
    exact vec3_keeps h ..
  | abs | popc | clz | brev | mov | fabs | fneg | frcp | frsq | fexp2 | flog2 | fround | fclass =>
    unfold exec
    exact vec1_keeps h ..
  | movi | add64 | sub64 | addi64 | lea64 | rng | cvtI | sincosT | cvtFi | cvtIf =>
    unfold exec
    exact vecOp_keeps h ..
  | cvtFf =>
    unfold exec
    exact execCvtFf_keeps h ..
  | shflIdx | shflXor | shflPrv | shflNxt | voteAny | voteAll | ballot | matchLanes | redux | scan | cxch | bcast =>
    unfold exec
    exact crossOp_keeps h ..
  | ld | ldAcq =>
    unfold exec
    exact loadOp_keeps h ..
  | st | stRel | stNt =>
    unfold exec
    exact storeOp_keeps h ..
  | atom | cas | red =>
    unfold exec
    exact atomOp_keeps h ..
  | clauseHeader w a b l c g f => exact execClauseHeader_keeps h w a b l c g f
  | ext => exact execExt_keeps h ..
  | mod => exact execMod_keeps h ..
  | sched y l c => exact execSched_keeps h y l c
  | nop => exact execNop_keeps h
  | bra => exact execBra_keeps h ..
  | recon => exact execRecon_keeps h ..
  | join => exact execJoin_keeps h
  | brk => exact execBrk_keeps h ..
  | call => exact execCall_keeps h ..
  | ret => exact execRet_keeps h ..
  | jmpi => exact execJmpi_keeps h ..
  | exit => exact execExit_keeps h
  | exitKill => exact execExitKill_keeps h
  | trap => exact execTrap_keeps h ..
  | yield => exact execYield_keeps h ..
  | cbar => exact execCbar_keeps h ..
  | gbar => exact execGbar_keeps h
  | wait => exact execWait_keeps h ..
  | waitWakeup => exact execWaitWakeup_keeps h ..
  | launch => exact execLaunch_keeps h ..
  | tret => exact execTret_keeps h ..
  | fwcall => exact execFwcall_keeps h ..
  | trefresh => exact execTrefresh_keeps h
  | lease => exact execLease_keeps h ..
  | unlease => exact execUnlease_keeps h
  | rdsr => exact execRdsr_keeps h ..
  | wrsrTrapvec => exact execWrsrTrapvec_keeps h ..
  | wrsr => exact execWrsr_keeps h ..
  | mred => exact execMred_keeps h ..
  | mredw => exact execMredw_keeps h ..
  | loadComplete => exact execLoadComplete_keeps h ..
  | ldx => exact execLdx_keeps h ..
  | ldAcqp => exact execLdAcqp_keeps h ..
  | promotionRequest => exact execPromotionRequest_keeps h ..
  | promotionRepliesComplete => exact execPromotionRepliesComplete_keeps h ..
  | ntdrain => exact execNtdrain_keeps h
  | fence => exact execFence_keeps h ..
  | lds => exact execLds_keeps h ..
  | sts => exact execSts_keeps h ..
  | atoms => exact execAtoms_keeps h ..
  | pref => exact execPref_keeps h ..
  | qinit => exact execQinit_keeps h ..
  | qsend => exact execQsend_keeps h ..
  | qrecv => exact execQrecv_keeps h ..
  | qtry => exact execQtry_keeps h ..
  | tcopy => exact execTcopy_keeps h ..
  | tcopyY => exact execTcopyY_keeps h ..
  | tcopyx => exact execTcopyx_keeps h ..
  | tfill => exact execTfill_keeps h ..
  | tquery => exact execTquery_keeps h ..
  | copyStart => exact execCopyStart_keeps h ..
  | copyComplete => exact execCopyComplete_keeps h ..
  | copyFreeze => exact execCopyFreeze_keeps h ..
  | wload => exact execWload_keeps h ..
  | mswap => exact execMswap_keeps h
  | mzero => exact execMzero_keeps h ..
  | mma => exact execMma_keeps h ..
  | mmas => exact execMmas_keeps h ..
  | mmak => exact execMmak_keeps h ..
  | mscale => exact execMscale_keeps h ..
  | mdrain => exact execMdrain_keeps h ..
  | mread => exact execMread_keeps h ..
  | mpair => exact execMpair_keeps h ..
  | mfence => exact execMfence_keeps h
  | scfg => exact execScfg_keeps h ..
  | sieve => exact execSieve_keeps h ..
  | matrixCommandStart => exact execMatrixCommandStart_keeps h ..
  | matrixCommandComplete => exact execMatrixCommandComplete_keeps h ..
  | matrixFreeze => exact execMatrixFreeze_keeps h ..
  | mpairCinch => exact execMpairCinch_keeps h ..
  | mpairLate => exact execMpairLate_keeps h ..
  | bind => exact execBind_keeps h ..
  | bindx => exact execBindx_keeps h ..
  | trapEntry => exact execTrapEntry_keeps h ..
  | frqStallRetry => exact execFrqStallRetry_keeps h ..
  | translationWalk => exact execTranslationWalk_keeps h ..
  | teamEnd => exact execTeamEnd_keeps h ..
  | gridDispatch => exact execGridDispatch_keeps h ..
  | clusterPlace => exact execClusterPlace_keeps h ..
  | harvestPlace => exact execHarvestPlace_keeps h ..
  | leaveGrant => exact execLeaveGrant_keeps h ..
  | tokenRefill => exact execTokenRefill_keeps h
  | bubbleEnd => exact execBubbleEnd_keeps h
  | hang => exact execHang_keeps h ..
  | mredPartialArrival => exact execMredPartialArrival_keeps h ..
  | mredForward => exact execMredForward_keeps h ..
  | mredGiveUp => exact execMredGiveUp_keeps h ..
  | preemptRequest => exact execPreemptRequest_keeps h ..
  | teamResume => exact execTeamResume_keeps h ..
  | harvestRevoke => exact execHarvestRevoke_keeps h ..
  | harvestRestart => exact execHarvestRestart_keeps h ..
  | leaseScrub => exact execLeaseScrub_keeps h ..
  | exclusiveListProcess => exact execExclusiveListProcess_keeps h ..
  | ridTagFlush => exact execRidTagFlush_keeps h
  | poisonListMove => exact execPoisonListMove_keeps h ..
  | meshLinkRetire => exact execMeshLinkRetire_keeps h ..
  | query => exact execQuery_keeps h ..
  | attest => exact execAttest_keeps h ..
  | hostReset => exact execHostReset_keeps h ..
  | peerAdd => exact execPeerAdd_keeps h ..
  | powerCap => exact execPowerCap_keeps h ..
  | ctxCreate => exact execCtxCreate_keeps h ..
  | ctxDestroy => exact execCtxDestroy_keeps h ..
  | partSet => exact execPartSet_keeps h ..
  | harvestGrant => exact execHarvestGrant_keeps h ..
  | decodeLoad => exact execDecodeLoad_keeps h ..
  | memAlloc => exact execMemAlloc_keeps h ..
  | hostMap => exact execHostMap_keeps h ..
  | unmap => exact execUnmap_keeps h ..
  | remap => exact execRemap_keeps h ..
  | snapshot => exact execSnapshot_keeps h ..
  | fork => exact execFork_keeps h ..
  | hostWrite => exact execHostWrite_keeps h ..
  | hostRead => exact execHostRead_keeps h ..
  | hostLaunch => exact execHostLaunch_keeps h ..
  | gridWait => exact execGridWait_keeps h ..
  | suspend => exact execSuspend_keeps h ..
  | resume => exact execResume_keeps h ..
  | checkpoint => exact execCheckpoint_keeps h ..
  | checkpointDone => exact execCheckpointDone_keeps h
  | restore => exact execRestore_keeps h ..
  | ctxScrubDone => exact execCtxScrubDone_keeps h ..
  | remoteRead => exact execRemoteRead_keeps h ..
  | remoteWrite => exact execRemoteWrite_keeps h ..
  | remoteAtomic => exact execRemoteAtomic_keeps h ..
  | remoteReply => exact execRemoteReply_keeps h ..
  | acknowledgement => exact execAcknowledgement_keeps h ..
  | laziaRetransmitTimeout => exact execLaziaRetransmitTimeout_keeps h ..
  | resetN => exact execResetN_keeps h ..
  | boot => exact execBoot_keeps h ..
  | powerLoss => exact execPowerLoss_keeps s
  | thermalThrottle => exact execThermalThrottle_keeps h ..
  | thermalRecover => exact execThermalRecover_keeps h ..
  | thermalShutdown => exact execThermalShutdown_keeps s ..
  | storePerformedAtHome => exact execStorePerformedAtHome_keeps h ..
  | externalLimit => exact execExternalLimit_keeps h ..
  | restoreComplete => exact execRestoreComplete_keeps h
  | l2WriteBack => exact execL2WriteBack_keeps h ..

theorem badWord_inv {s : State} (h : s.Inv) (t : Team) (w : Word) (reason : Nat) : (badWord s t w reason).Inv := by
  grind [badWord, illAtMod_inv, raiseIll_inv]

theorem runWord_keeps {s : State} (h : s.Inv) (t : Team) (w : Word) : KeepsInv (runWord s t w) := by
  grind [runWord, raiseWide_inv, badWord_inv, exec_keeps, setTeam_inv, keeps_next, keeps_notEnabled]

theorem wordOfTeam_inv {s : State} (h : s.Inv) (t : Team) : (wordOfTeam s t).1.Inv := by
  grind [wordOfTeam, !fetchWord_inv]

theorem issueWord_keeps {s : State} (h : s.Inv) (t : Team) : KeepsInv (issueWord s t) := by
  grind [issueWord, !wordOfTeam_inv, raiseFetch_inv, poisonedWord_inv, runWord_keeps, inv_with, keeps_next]

theorem issue_keeps {s : State} (h : s.Inv) (core : Nat) : KeepsInv (issue core s) := by
  grind [issue, issueWord_keeps, keeps_notEnabled]

theorem issuePasses_keeps {s : State} (h : s.Inv) (core n : Nat) : KeepsInv (issuePasses core n s) := by
  unfold issuePasses
  split
  · exact keeps_notEnabled _
  next t _ =>
  have hw : (wordOfTeam { s with cur := some t.uid } t).1.Inv := wordOfTeam_inv ((inv_with _).2 h) t
  split
  next e =>
    rw [e] at hw
    grind [runWord_keeps, keeps_notEnabled]
  · exact keeps_notEnabled _

theorem thenDo_keeps {o : Out} (h : KeepsInv o) {f : State → State} (hf : ∀ s, s.Inv → (f s).Inv) :
    KeepsInv (thenDo o f) := by
  cases o with
  | next s => exact keeps_next.2 (hf s (keeps_next.1 h))
  | fault e => exact keeps_fault e
  | refused r => exact keeps_refused r

theorem deliverBlocked_inv {s : State} (h : s.Inv) (u : Nat) : (deliverBlocked s u).Inv := by
  grind [deliverBlocked, deliver_inv]

theorem yieldEnd_inv {s : State} (h : s.Inv) (u : Nat) : (yieldEnd s u).Inv := by
  grind [yieldEnd, setTeam_inv]

theorem dropDelivered_inv {s : State} (h : s.Inv) (u : Nat) : (dropDelivered s u).Inv := by
  grind [dropDelivered, cancelMat_inv, cancelCopy_inv, setTeam_inv]

theorem settleTeam_inv {s : State} (h : s.Inv) (u : Nat) : (settleTeam s u).Inv := by
  grind [settleTeam, queueStep_inv, yieldEnd_inv, leaveOver_inv, fwFinish_inv, finishTret_inv, deliverBlocked_inv,
    dropDelivered_inv, checkEnd_inv]

theorem askFront_inv {s : State} (h : s.Inv) (core : Nat) : (askFront s core).Inv := by
  grind [askFront, askLeave_inv, setCopy_inv, setMat_inv]

theorem passRoles_inv {s : State} (h : s.Inv) : (passRoles s).Inv := h

theorem noteReady_inv {s : State} (h : s.Inv) : (noteReady s).Inv := h

theorem noteIssuing_inv {s : State} (h : s.Inv) : (noteIssuing s).Inv := h

theorem holdSlot_inv {s : State} (h : s.Inv) : (holdSlot s).Inv := by
  grind [holdSlot, setCore_inv]

theorem tidy_inv {s : State} (h : s.Inv) : (tidy s).Inv := by
  grind [tidy, holdSlot_inv, settleTeam_inv, fencesDone_inv, askFront_inv, admitMat_inv, admitCopy_inv, answerWaits_inv,
    markReleased_inv, noteIssuing_inv, noteReady_inv, passRoles_inv, foldl_inv, inv_with]

theorem passTime_inv {s : State} (h : s.Inv) (n : Nat) : (passTime s n).Inv := h

theorem tick_inv {s : State} (h : s.Inv) : (tick s).Inv := h

theorem runMove_keeps {s : State} (h : s.Inv) (m : Move) : KeepsInv (runMove m s) := by
  refine thenDo_keeps ?_ fun _ hs => tick_inv (tidy_inv hs)
  cases m with
  | event i => exact exec_keeps h i
  | issue core => exact issue_keeps h core
  | passes core n => exact issuePasses_keeps h core n
  | reread u k => exact reread_keeps h u k
  | frame f => grind [receive_inv, keeps_next, keeps_notEnabled]
  | harm x =>
    dsimp only
    split
    next e => exact keeps_next.2 (harm_inv h x _ e)
    · exact keeps_notEnabled _
  | firmware u => grind [fwRun_inv, keeps_next, keeps_notEnabled]

theorem firstMove_keeps {s : State} (h : s.Inv) {ms : List Move} {o : Out} (ho : firstMove s ms = some o) : KeepsInv o := by
  induction ms with
  | nil => exact nomatch ho
  | cons m ms ih =>
    unfold firstMove at ho
    split at ho
    next s' e => exact Option.some.inj ho ▸ keeps_next.2 ((runMove_keeps h m).inv _ e)
    · exact ih ho

theorem ownStep_keeps {s : State} (h : s.Inv) : KeepsInv (ownStep s) := by
  unfold ownStep
  split
  next e => exact firstMove_keeps h e
  · exact keeps_next.2 (tick_inv (tidy_inv h))

theorem oneStep_keeps {s : State} (h : s.Inv) : KeepsInv (oneStep s) := by
  unfold oneStep
  split
  · split
    · exact runMove_keeps ((inv_with _).2 h) _
    · exact keeps_fault _
  · split
    · exact ownStep_keeps h
    · exact keeps_fault _

/-- Settles O56: after reset both lists are empty. -/
theorem resetMeetsInvariant : Obligations.ResetMeetsInvariant := ⟨reset_mem_wf, rfl, fun _ he => nomatch he⟩

/-- Settles O57: every function that the step is made of keeps the form of the arrays and of L2. -/
theorem stepKeepsInvariant : Obligations.StepKeepsInvariant := by
  unfold Obligations.StepKeepsInvariant
  exact fun _ _ h e => (oneStep_keeps h).inv _ e

end Sys2Proof.Proofs

/-! ## Writes at the home: what they leave alone -/

namespace Sys2Proof.Proofs

open Sys2Proof Sys2Proof.Machine Sys2Proof.Claims

/-- From s to s' only memory changed, with what guards it: lines and their poison, caches, and what is noted of writes. -/
def OnlyMemory (s s' : State) : Prop :=
  s' = { s with
    mem := s'.mem, l2 := s'.l2, l2Bad := s'.l2Bad, poison := s'.poison, poisonMoved := s'.poisonMoved, srCheck := s'.srCheck
    l2First := s'.l2First, cover := s'.cover, l1 := s'.l1, opbuf := s'.opbuf, journal := s'.journal, fresh := s'.fresh }

namespace OnlyMemory

theorem refl (s : State) : OnlyMemory s s := rfl

variable {s s' s'' : State} (h : OnlyMemory s s')
include h

theorem trans (h' : OnlyMemory s' s'') : OnlyMemory s s'' := by
  unfold OnlyMemory at *
  rw [h', h]

theorem stores : s'.stores = s.stores := by rw [h]
theorem teams : s'.teams = s.teams := by rw [h]
theorem contexts : s'.contexts = s.contexts := by rw [h]
theorem manifest : s'.manifest = s.manifest := by rw [h]
theorem cores : s'.cores = s.cores := by rw [h]
theorem responses : s'.responses = s.responses := by rw [h]
theorem owed : s'.owed = s.owed := by rw [h]
theorem nextSeq : s'.nextSeq = s.nextSeq := by rw [h]

theorem findTeam (u : Nat) : Machine.findTeam s' u = Machine.findTeam s u := by
  unfold Machine.findTeam
  rw [h.teams]

theorem findCtx (c : Nat) : Machine.findCtx s' c = Machine.findCtx s c := by
  unfold Machine.findCtx
  rw [h.contexts]

end OnlyMemory

/-- A fold of changes of memory is one. -/
theorem foldl_onlyMemory {α : Type} {f : State → α → State} (hf : ∀ s x, OnlyMemory s (f s x)) (xs : List α) (s : State) :
    OnlyMemory s (xs.foldl f s) := by
  induction xs generalizing s with
  | nil => exact .refl s
  | cons x xs ih => exact (hf s x).trans (ih _)

theorem writeBack_onlyMemory (s : State) (ln : Nat) : OnlyMemory s (writeBack s ln) := by
  unfold writeBack
  dsimp only
  split <;> rfl

theorem makeWay_onlyMemory (s : State) (ln : Nat) : OnlyMemory s (makeWay s ln) := by
  have hmove : OnlyMemory s (if listRoom s ln then s else moveList s (ctrlOf (64 * ln))) := by split <;> rfl
  exact hmove.trans (writeBack_onlyMemory _ ln)

theorem l2Room_onlyMemory (s : State) (ln : Nat) : OnlyMemory s (l2Room s ln) := by
  rcases Laws.l2Room_cases s ln with e | ⟨v, n, e⟩ <;> rw [e]
  · exact .refl s
  · exact (makeWay_onlyMemory s v).trans rfl

theorem readCheck_onlyMemory (s : State) (ln : Nat) : OnlyMemory s (readCheck s ln) := by
  unfold readCheck
  split <;> rfl

theorem homeWriteLine_onlyMemory (s : State) (ln off : Nat) (bs : List Byte) : OnlyMemory s (homeWriteLine s ln off bs) := by
  refine ((l2Room_onlyMemory s ln).trans (readCheck_onlyMemory _ ln)).trans ?_
  unfold homeWriteLine
  dsimp only
  split <;> rfl

theorem homePut_onlyMemory (s : State) (pa : Nat) (bs : List Byte) : OnlyMemory s (homePut s pa bs) :=
  foldl_onlyMemory (f := fun s (p : Nat × Nat × List Byte) => homeWriteLine s p.1 p.2.1 p.2.2)
    (fun s p => homeWriteLine_onlyMemory s p.1 p.2.1 p.2.2) _ s

theorem noteWrite_onlyMemory (s : State) (space : Option Nat) (addr len : Nat) (bulk : Bool) (src : Option (Nat × Nat))
    (cmd : Option Nat) : OnlyMemory s (noteWrite s space addr len bulk src cmd) := by
  unfold noteWrite
  split <;> rfl

theorem homeWrite_onlyMemory (s : State) (pa : Nat) (bs : List Byte) (src : Option (Nat × Nat)) :
    OnlyMemory s (homeWrite s pa bs src) :=
  (noteWrite_onlyMemory ..).trans (homePut_onlyMemory _ pa bs)

theorem markFirst_onlyMemory (s : State) (nt : Bool) (pa : Nat) : OnlyMemory s (markFirst s nt pa) := by
  unfold markFirst
  split <;> rfl

theorem noteCover_onlyMemory (s : State) (grp pa len : Nat) : OnlyMemory s (noteCover s grp pa len) := by
  unfold noteCover
  dsimp only
  repeat' split
  all_goals rfl

theorem l1Drop_onlyMemory (s : State) (core ln : Nat) : OnlyMemory s (l1Drop s core ln) := rfl

theorem bufUpdate_onlyMemory (s : State) (core into off : Nat) (bs : List Byte) : OnlyMemory s (bufUpdate s core into off bs) := rfl

theorem markFirst_homeByte (s : State) (nt : Bool) (pa a : Nat) : homeByte (markFirst s nt pa) a = homeByte s a := by
  unfold markFirst
  split <;> rfl

theorem noteCover_homeByte (s : State) (grp pa len a : Nat) : homeByte (noteCover s grp pa len) a = homeByte s a :=
  homeByte_congr (Laws.noteCover_mem ..) (Laws.noteCover_l2 ..) a

end Sys2Proof.Proofs

/-! ## Entries of the store path -/

namespace Sys2Proof.Proofs

open Sys2Proof Sys2Proof.Machine Sys2Proof.Claims

/-- An entry leaves the store path. -/
def withoutEnt (s : State) (e : StoreEnt) : State := { s with stores := s.stores.filter (fun f => f.seq != e.seq) }

/-! ### A team's scratchpad -/

/-- Bytes put at increasing addresses. -/
theorem sget_sputs_range (m : List (Nat × Byte)) (off : Nat) (bs : List Byte) (a : Nat) :
    sget 0 (sputs 0 m ((List.range bs.length).map (fun i => (off + i, bs.getD i 0)))) a =
      if off ≤ a ∧ a < off + bs.length then bs.getD (a - off) 0 else sget 0 m a := by
  have hrun : (List.range bs.length).map (fun i => (off + i, bs.getD i 0)) = bs.zipIdx.map (fun b => (off + b.2, b.1)) := by
    apply List.ext_getElem
    · simp
    · intro i h1 h2
      have hi : i < bs.length := by simpa using h1
      simp [hi]
  rw [hrun]
  exact Laws.sget_sputs_run m off 0 bs a

theorem findTeam_scrWrite {s : State} {u : Nat} {x : Team} (h : findTeam s u = some x) (off : Nat) (bs : List Byte) :
    findTeam (setTeam s (scrWrite x off bs)) u = some (scrWrite x off bs) := by
  have hu : x.uid = u := by simpa using List.find?_some h
  subst hu
  exact findTeam_setTeam_same s (scrWrite x off bs) x h

/-! ### Atomic steps -/

theorem pow_256 (n : Nat) : 256 ^ n = 2 ^ (8 * n) := by
  rw [pow_mul]
  norm_num

theorem leNat_succ (b : Nat → Byte) (n : Nat) : leNat b (n + 1) = leNat b n + (b n).toNat * 256 ^ n := by
  unfold leNat
  simp [List.range_succ]

theorem leNat_bytesOf (n v : Nat) : leNat (fun j => (bytesOf n v).getD j 0) n = v % 256 ^ n := by
  have hb : leNat (fun j => (bytesOf n v).getD j 0) n = leNat (fun j => BitVec.ofNat 8 (v / 2 ^ (8 * j))) n :=
    leNat_congr fun j hj => by simp [bytesOf, hj]
  have hsum (k : Nat) : leNat (fun j => BitVec.ofNat 8 (v / 2 ^ (8 * j))) k = v % 256 ^ k := by
    induction k with
    | zero => simp [leNat, Nat.mod_one]
    | succ k ih =>
      rw [leNat_succ, ih, Nat.mod_pow_succ, BitVec.toNat_ofNat, ← pow_256, Nat.mul_comm]
  rw [hb, hsum]

theorem natOf_bytes (bs : List Byte) : natOf bs = leNat (fun j => bs.getD j 0) bs.length := by
  rw [← natOf_range]
  congr 1
  apply List.ext_getElem
  · simp
  · intro i h1 h2
    simp [h1]

theorem toNat_ite_slt {n : Nat} (a b x y : BitVec n) (h : a = b → x = y) :
    (if a.slt b then x else y).toNat = if a.toInt ≤ b.toInt then x.toNat else y.toNat := by
  rcases lt_trichotomy a.toInt b.toInt with hlt | heq | hgt
  · simp [BitVec.slt, hlt, hlt.le]
  · simp [h (BitVec.eq_of_toInt_eq heq)]
  · simp [BitVec.slt, hgt.not_gt, hgt.not_ge]

theorem toNat_ite_ult {n : Nat} (a b x y : BitVec n) (h : a = b → x = y) :
    (if a.ult b then x else y).toNat = if a.toNat ≤ b.toNat then x.toNat else y.toNat := by
  rcases lt_trichotomy a.toNat b.toNat with hlt | heq | hgt
  · simp [BitVec.ult, hlt, hlt.le]
  · simp [h (BitVec.eq_of_toNat_eq heq)]
  · simp [BitVec.ult, hgt.not_gt, hgt.not_ge]

/-- An atomic step is that of R270, on a word of n bytes. -/
theorem atomStep_eq (n : Nat) {op : Nat} (h : op ≤ 8) (o v : Nat) : atomStep n op o v = atomNew n op o v := by
  have hne : op ≠ 10 := by omega
  unfold atomStep
  rw [if_neg hne]
  unfold atomInt atomNew
  interval_cases op
  · simp
  · rfl
  · rfl
  · rfl
  · exact toNat_ite_slt _ _ _ _ id
  · exact toNat_ite_ult _ _ _ _ id
  · exact toNat_ite_slt _ _ _ _ Eq.symm
  · exact toNat_ite_ult _ _ _ _ Eq.symm
  · rfl

theorem atomStep_lt (n : Nat) {op : Nat} (h : op ≤ 8) (o v : Nat) : atomStep n op o v < 256 ^ n := by
  have hne : op ≠ 10 := by omega
  unfold atomStep
  rw [if_neg hne, pow_256]
  exact BitVec.isLt _

/-! ### Each kind of entry performed -/

section

variable {s : State} {e : StoreEnt}

theorem performEnt_store (hk : e.kind = .st ∨ e.kind = .nt ∨ ∃ k, e.kind = .rel k) : performEnt s e =
    noteCover (markFirst (homeWrite (withoutEnt s e) e.addr e.data (some (e.uid, e.seq))) (isNt e) e.addr) e.grp e.addr
      e.data.length := by
  unfold performEnt
  obtain hk | hk | ⟨k, hk⟩ := hk <;> rw [hk] <;> rfl

/-- The value that a red leaves in its word. -/
def redValue (s : State) (op : Nat) (e : StoreEnt) : Nat :=
  atomStep e.data.length op (natOf (homeBytes s e.addr e.data.length)) (natOf e.data)

theorem performEnt_red {op k : Nat} {r : Bool} (hk : e.kind = .red op r k) (hg : hopOf s e.addr e.data.length = 0) :
    performEnt s e = l1Drop (homeWrite (withoutEnt s e) e.addr (bytesOf e.data.length (redValue s op e)) (some (e.uid, e.seq)))
      e.core (e.addr / 64) := by
  unfold performEnt
  rw [hk]
  exact if_neg (not_not_intro hg)

theorem performEnt_red_poisoned {op k : Nat} {r : Bool} (hk : e.kind = .red op r k) (hg : hopOf s e.addr e.data.length ≠ 0) :
    performEnt s e = withoutEnt s e := by
  unfold performEnt
  rw [hk]
  exact if_pos hg

theorem performEnt_scr {u : Nat} (hk : e.kind = .scr u) :
    performEnt s e = scrStore (withoutEnt s e) e.core u e.addr e.data (some (e.uid, e.seq)) := by
  unfold performEnt
  rw [hk]
  rfl

theorem performEnt_mark (hk : (∃ k, e.kind = .fence k ∨ e.kind = .ntdrain k) ∨ e.kind = .launch) :
    performEnt s e = withoutEnt s e := by
  unfold performEnt
  obtain ⟨k, hk | hk⟩ | hk := hk <;> rw [hk] <;> rfl

theorem scrStore_some {x : Team} {u : Nat} (h : findTeam s u = some x) (core off : Nat) (bs : List Byte)
    (src : Option (Nat × Nat)) : scrStore s core u off bs src =
      bufUpdate (setTeam (noteWrite s (some u) off bs.length false src) (scrWrite x off bs)) core u off bs := by
  unfold scrStore scrPut
  rw [(noteWrite_onlyMemory ..).findTeam, h]

theorem scrStore_none {u : Nat} (h : findTeam s u = none) (core off : Nat) (bs : List Byte) (src : Option (Nat × Nat)) :
    scrStore s core u off bs src = noteWrite s (some u) off bs.length false src := by
  unfold scrStore scrPut
  rw [(noteWrite_onlyMemory ..).findTeam, h]

/-- An entry performed leaves the store path, and no other does. -/
theorem performEnt_stores (s : State) (e : StoreEnt) : (performEnt s e).stores = (withoutEnt s e).stores := by
  cases hk : e.kind with
  | st | nt | rel =>
    rw [performEnt_store (by simp [hk])]
    exact (((homeWrite_onlyMemory ..).trans (markFirst_onlyMemory ..)).trans (noteCover_onlyMemory ..)).stores
  | red op r k =>
    by_cases hg : hopOf s e.addr e.data.length = 0
    · rw [performEnt_red hk hg]
      exact ((homeWrite_onlyMemory ..).trans (l1Drop_onlyMemory ..)).stores
    · rw [performEnt_red_poisoned hk hg]
  | scr u =>
    rw [performEnt_scr hk]
    cases hx : findTeam (withoutEnt s e) u with
    | none => rw [scrStore_none hx]; exact (noteWrite_onlyMemory ..).stores
    | some x => rw [scrStore_some hx]; exact (noteWrite_onlyMemory ..).stores
  | fence | ntdrain | launch => rw [performEnt_mark (by simp [hk])]

end

theorem exec_storePerformedAtHome (k : Nat) (s : State) : exec (.storePerformedAtHome k) s = execStorePerformedAtHome k s := rfl

theorem exec_performs {s : State} {e : StoreEnt} (hf : s.stores.find? (fun f => f.seq == e.seq) = some e)
    (hr : storeReady s e = true) : exec (.storePerformedAtHome e.seq) s = .next (performEnt s e) := by
  rw [exec_storePerformedAtHome]
  unfold execStorePerformedAtHome
  rw [hf]
  exact if_pos hr

theorem store_performed {s : State} {e : StoreEnt} (h : s.Inv) (hk : e.kind = .st ∨ e.kind = .nt ∨ ∃ k, e.kind = .rel k) :
    (performEnt s e).teams = s.teams ∧ ∀ a, homeByte (performEnt s e) a =
      if e.addr ≤ a ∧ a < e.addr + e.data.length then e.data.getD (a - e.addr) 0 else homeByte s a := by
  rw [performEnt_store hk]
  refine ⟨(((homeWrite_onlyMemory ..).trans (markFirst_onlyMemory ..)).trans (noteCover_onlyMemory ..)).teams, fun a => ?_⟩
  rw [noteCover_homeByte, markFirst_homeByte]
  exact Laws.homeByte_homeWrite (s := withoutEnt s e) h e.addr e.data a _

theorem red_performed {s : State} {e : StoreEnt} {op k : Nat} {r : Bool} (h : s.Inv) (hk : e.kind = .red op r k)
    (hg : hopOf s e.addr e.data.length = 0) (hop : op ≤ 8) : (performEnt s e).teams = s.teams ∧
      leNat (memFrom (performEnt s e) e.addr) e.data.length = atomNew e.data.length op (leNat (memFrom s e.addr) e.data.length)
        (leNat (fun j => e.data.getD j 0) e.data.length) ∧
      ∀ a, ¬ (e.addr ≤ a ∧ a < e.addr + e.data.length) → homeByte (performEnt s e) a = homeByte s a := by
  have hlen : (bytesOf e.data.length (redValue s op e)).length = e.data.length := by simp [bytesOf]
  have hbyte (a : Nat) : homeByte (performEnt s e) a = if e.addr ≤ a ∧ a < e.addr + e.data.length then
      (bytesOf e.data.length (redValue s op e)).getD (a - e.addr) 0 else homeByte s a := by
    have := Laws.homeByte_homeWrite (s := withoutEnt s e) h e.addr (bytesOf e.data.length (redValue s op e)) a
      (some (e.uid, e.seq))
    rw [hlen] at this
    rw [performEnt_red hk hg]
    exact this
  have hword : ∀ j < e.data.length, memFrom (performEnt s e) e.addr j = (bytesOf e.data.length (redValue s op e)).getD j 0 := by
    intro j hj
    refine (hbyte (e.addr + j)).trans ?_
    rw [if_pos (by omega), Nat.add_sub_cancel_left]
  refine ⟨?_, ?_, fun a ha => (hbyte a).trans (if_neg ha)⟩
  · rw [performEnt_red hk hg]
    exact ((homeWrite_onlyMemory ..).trans (l1Drop_onlyMemory ..)).teams
  · rw [leNat_congr hword, leNat_bytesOf, redValue, Nat.mod_eq_of_lt (atomStep_lt _ hop _ _), natOf_homeBytes, natOf_bytes,
      atomStep_eq _ hop]

theorem scr_performed {s : State} {e : StoreEnt} {u : Nat} {x : Team} (hk : e.kind = .scr u) (hx : findTeam s u = some x) :
    (∀ a, homeByte (performEnt s e) a = homeByte s a) ∧
      ∃ x', findTeam (performEnt s e) u = some x' ∧ x' = { x with scr := x'.scr, scrBad := x'.scrBad } ∧
        ∀ a, sget 0 x'.scr a =
          if e.addr ≤ a ∧ a < e.addr + e.data.length then e.data.getD (a - e.addr) 0 else sget 0 x.scr a := by
  have hx' : findTeam (withoutEnt s e) u = some x := hx
  have hn := noteWrite_onlyMemory (withoutEnt s e) (some u) e.addr e.data.length false (some (e.uid, e.seq)) none
  rw [performEnt_scr hk, scrStore_some hx']
  refine ⟨fun a => homeByte_congr (Laws.noteWrite_mem ..) (Laws.noteWrite_l2 ..) a, scrWrite x e.addr e.data, ?_, rfl,
    sget_sputs_range x.scr e.addr e.data⟩
  exact findTeam_scrWrite ((hn.findTeam u).trans hx') e.addr e.data

/-- Settles O17, kind by kind: each performed entry is one write at the home, or in a scratchpad, or only leaves the store path. -/
theorem storePathPerformsInPlace : Obligations.StorePathPerformsInPlace := by
  unfold Obligations.StorePathPerformsInPlace
  intro s e hinv hf hr
  exact ⟨performEnt s e, exec_performs hf hr, performEnt_stores s e, store_performed hinv,
    fun op r k hk hg hop => red_performed hinv hk hg hop, fun u x hk hx => scr_performed hk hx,
    fun hk => by rw [performEnt_mark hk]; rfl⟩

end Sys2Proof.Proofs

/-! ## Sparse stores: whole lists of writes, and lists with some keys left out -/

namespace Sys2Proof.Proofs

open Sys2Proof Sys2Proof.Machine

section

variable {β : Type}

theorem sget_filter (d : β) (m : List (Nat × β)) (p : Nat → Bool) (a : Nat) :
    sget d (m.filter (fun x => p x.1)) a = if p a then sget d m a else d := by
  induction m with
  | nil => simp
  | cons kv m ih =>
    obtain ⟨k, w⟩ := kv
    by_cases hk : a = k
    · subst hk
      by_cases hp : p a <;> simp [hp, sget, ih]
    · by_cases hp : p k <;> simp [hp, sget, hk, ih]

theorem sget_sdrop (d : β) (m : List (Nat × β)) (p : Nat → Bool) (a : Nat) :
    sget d (sdrop m p) a = if p a then d else sget d m a := by
  rw [sdrop, sget_filter d m (fun k => !p k)]
  cases p a <;> rfl

theorem sget_unlisted_key {d : β} {m : List (Nat × β)} {a : Nat} (h : a ∉ m.map Prod.fst) : sget d m a = d := by
  induction m with
  | nil => rfl
  | cons kv m ih =>
    simp only [List.map_cons, List.mem_cons, not_or] at h
    simp [sget, h.1, ih h.2]

/-- In a list that names each key once, a listed pair is what is read. -/
theorem sget_of_mem {d : β} {m : List (Nat × β)} (hn : (m.map Prod.fst).Nodup) {x : Nat × β} (hx : x ∈ m) :
    sget d m x.1 = x.2 := by
  induction m with
  | nil => exact absurd hx List.not_mem_nil
  | cons kv m ih =>
    rw [List.map_cons, List.nodup_cons] at hn
    obtain rfl | hx := List.mem_cons.mp hx
    · simp [sget]
    · have hne : x.1 ≠ kv.1 := fun e => hn.1 (e ▸ List.mem_map_of_mem hx)
      simp [sget, hne, ih hn.2 hx]

variable [DecidableEq β]

theorem sokFrom_above {d : β} {m : List (Nat × β)} {lo : Nat} (h : sokFrom d (some lo) m = true) :
    ∀ k ∈ m.map Prod.fst, lo < k := by
  induction m generalizing lo with
  | nil => simp
  | cons kv m ih =>
    obtain ⟨k, w⟩ := kv
    simp only [sokFrom, Bool.and_eq_true, decide_eq_true_eq] at h
    intro a ha
    obtain rfl | ha := List.mem_cons.mp ha
    · exact h.1.1
    · exact h.1.1.trans (ih h.2 a ha)

/-- A canonical store names each key once. -/
theorem sokFrom_nodup {d : β} {m : List (Nat × β)} {lo : Option Nat} (h : sokFrom d lo m = true) : (m.map Prod.fst).Nodup := by
  induction m generalizing lo with
  | nil => exact List.nodup_nil
  | cons kv m ih =>
    obtain ⟨k, w⟩ := kv
    simp only [sokFrom, Bool.and_eq_true] at h
    exact List.nodup_cons.mpr ⟨fun hk => Nat.lt_irrefl _ (sokFrom_above h.2 k hk), ih h.2⟩

/-- A canonical store lists no default. -/
theorem sok_ne {d : β} {m : List (Nat × β)} (h : sok d m = true) : ∀ x ∈ m, x.2 ≠ d := by
  have from_ (m : List (Nat × β)) : ∀ lo, sokFrom d lo m = true → ∀ x ∈ m, x.2 ≠ d := by
    induction m with
    | nil => simp
    | cons kv m ih =>
      intro lo h x hx
      simp only [sokFrom, Bool.and_eq_true, Bool.not_eq_true', decide_eq_false_iff_not] at h
      obtain rfl | hx := List.mem_cons.mp hx
      · exact h.1.2
      · exact ih _ h.2 x hx
  exact from_ m none h

theorem foldl_sput_eq {α : Type} (d : β) (f : α → Nat) (g : α → β) (xs : List α) (m : List (Nat × β)) :
    xs.foldl (fun m x => sput d m (f x) (g x)) m = sputs d m (xs.map (fun x => (f x, g x))) := by
  rw [sputs, List.foldl_map]

/-- Writes to keys that are all different: each stands. -/
theorem sget_sputs_mem (d : β) {ws : List (Nat × β)} (hn : (ws.map Prod.fst).Nodup) {x : Nat × β} (hx : x ∈ ws)
    (m : List (Nat × β)) : sget d (sputs d m ws) x.1 = x.2 := by
  obtain ⟨xs, ys, rfl⟩ := List.append_of_mem hx
  have hlast : x.1 ∉ ys.map Prod.fst := by
    rw [List.map_append, List.map_cons] at hn
    exact (List.nodup_cons.mp (List.nodup_append.mp hn).2.1).1
  exact sget_sputs_last d xs ys m x.1 x.2 fun w hw e => hlast (e ▸ List.mem_map_of_mem hw)

end

end Sys2Proof.Proofs

/-! ## Responses -/

namespace Sys2Proof.Proofs

open Sys2Proof Sys2Proof.Machine Sys2Proof.Claims

/-! ### Streams (R355, R356) -/

theorem setStream_rest (s : State) (x : Strm) : setStream s x = { s with streams := (setStream s x).streams } := by
  unfold setStream
  split <;> rfl

theorem findStream_setStream_same (s : State) (x : Strm) : findStream (setStream s x) x.id = some x := by
  unfold findStream setStream
  split
  next hany =>
    obtain ⟨y, hy, hid⟩ := List.any_eq_true.mp hany
    cases hf : s.streams.find? (fun y => y.id == x.id) with
    | none => exact absurd hid (by simpa using List.find?_eq_none.mp hf y hy)
    | some z =>
      have hz : z.id = x.id := by simpa using List.find?_some hf
      have hcomp : ((fun y : Strm => y.id == x.id) ∘ fun y => if y.id == x.id then x else y) = fun y => y.id == x.id := by
        funext y
        by_cases h : y.id = x.id <;> simp [h]
      rw [List.find?_map, hcomp, hf]
      simp [hz]
  next hany =>
    have hnone : s.streams.find? (fun y => y.id == x.id) = none :=
      List.find?_eq_none.mpr fun y hy h => hany (List.any_eq_true.mpr ⟨y, hy, h⟩)
    rw [List.find?_append, hnone]
    simp

/-- The stream on which a frame goes out. -/
def sender (s : State) (id : BitVec 32) : Strm := (findStream s id).getD (newStream id)

theorem sender_id (s : State) (id : BitVec 32) : (sender s id).id = id := by
  unfold sender
  cases h : findStream s id with
  | none => rfl
  | some x => exact by simpa using List.find?_some h

theorem sender_live {s : State} {id : BitVec 32} (h : ∀ x, findStream s id = some x → x.failed = false) :
    (sender s id).failed = false := by
  unfold sender
  cases hx : findStream s id with
  | none => rfl
  | some x => exact h x hx

theorem sendFrame_rest (s : State) (id : BitVec 32) (type cmd stat : Nat) (tag : BitVec 32) (p : List Byte) :
    sendFrame s id type cmd stat tag p = { s with streams := (sendFrame s id type cmd stat tag p).streams } := by
  unfold sendFrame
  dsimp only
  split
  · rfl
  · exact setStream_rest ..

/-- A frame sent on a stream that has not failed stands on it. -/
theorem sendFrame_stands {s : State} {id : BitVec 32} (h : ∀ x, findStream s id = some x → x.failed = false) (type cmd stat : Nat)
    (tag : BitVec 32) (p : List Byte) :
    ∃ x f, findStream (sendFrame s id type cmd stat tag p) id = some x ∧ (f, 0) ∈ x.unacked ∧ f.type = BitVec.ofNat 8 type ∧
      f.tag = tag ∧ f.cmd = BitVec.ofNat 16 cmd ∧ f.stat = BitVec.ofNat 16 stat ∧ f.payload = p := by
  have hsend : ∃ x f, sendFrame s id type cmd stat tag p = setStream s x ∧ x.id = (sender s id).id ∧ (f, 0) ∈ x.unacked ∧
      f.type = BitVec.ofNat 8 type ∧ f.tag = tag ∧ f.cmd = BitVec.ofNat 16 cmd ∧ f.stat = BitVec.ofNat 16 stat ∧
      f.payload = p :=
    ⟨_, _, if_neg (Bool.eq_false_iff.mp (sender_live h)), rfl, List.mem_append_right _ List.mem_cons_self, rfl, rfl, rfl, rfl, rfl⟩
  obtain ⟨x, f, hs, hid, hf⟩ := hsend
  refine ⟨x, f, ?_, hf⟩
  rw [hs, ← sender_id s id, ← hid]
  exact findStream_setStream_same s x

/-! ### A response (R355) -/

/-- A response changes the streams and the responses given, and nothing else. -/
theorem respond_rest (s : State) (r : Req) (cmd stat : Nat) (p : List Byte) : respond s r cmd stat p =
    { s with streams := (respond s r cmd stat p).streams, responses := (respond s r cmd stat p).responses } := by
  have hsend := sendFrame_rest s r.strm 2 cmd stat r.tag p
  unfold respond
  split
  · split
    · rfl
    · rw [hsend]
  · rw [hsend]

theorem respond_live {s : State} {r : Req} (h : ∀ x, findStream s r.strm = some x → x.failed = false) (cmd stat : Nat)
    (p : List Byte) : respond s r cmd stat p =
      { sendFrame s r.strm 2 cmd stat r.tag p with responses := s.responses ++ [⟨r.strm, r.tag, cmd, stat, p⟩] } := by
  have hsend := sendFrame_rest s r.strm 2 cmd stat r.tag p
  unfold respond
  split
  next x hx =>
    rw [if_neg (Bool.eq_false_iff.mp (h x hx)), hsend]
  next => rw [hsend]

theorem respond_responded {s : State} {r : Req} (h : ∀ x, findStream s r.strm = some x → x.failed = false) {cmd stat : Nat}
    (hc : cmd < 2 ^ 16) (hs : stat < 2 ^ 16) (p : List Byte) : Responded s (respond s r cmd stat p) r cmd stat p := by
  rw [respond_live h]
  obtain ⟨x, f, hx, hf, htype, htag, hcmd, hstat, hp⟩ := sendFrame_stands h 2 cmd stat r.tag p
  refine ⟨rfl, x, f, 0, hx, hf, htype, htag, ?_, ?_, hp⟩
  · rw [hcmd, BitVec.toNat_ofNat, Nat.mod_eq_of_lt hc]
  · rw [hstat, BitVec.toNat_ofNat, Nat.mod_eq_of_lt hs]

end Sys2Proof.Proofs

/-! ## Reset, boot and power -/

namespace Sys2Proof.Proofs

open Sys2Proof Sys2Proof.Machine Sys2Proof.Claims

/-! ### What a reset keeps of memory (R92) -/

/-- What the home serves: a byte of a line that L2 lists, else one of the arrays. -/
theorem homeByte_listed {s : State} (h : s.Inv) (a : Nat) : homeByte s a =
    if a / 64 ∈ s.l2.map Prod.fst then (sget [] s.l2 (a / 64)).getD (a % 64) 0 else sget memDefault s.mem a := by
  have hnd := sokFrom_nodup h.2.1
  unfold homeByte
  split
  next hnil =>
    have hout : a / 64 ∉ s.l2.map Prod.fst := by
      intro hin
      obtain ⟨x, hx, hxa⟩ := List.mem_map.mp hin
      exact sok_ne h.2.1 x hx ((sget_of_mem hnd hx).symm.trans (hxa ▸ hnil))
    rw [if_neg hout]
  next hne =>
    have hin : a / 64 ∈ s.l2.map Prod.fst := by
      by_contra hout
      exact hne (sget_unlisted_key hout)
    rw [if_pos hin]

/-- The lines of a list that p selects, put into the arrays. -/
def putLines (p : Nat → Bool) (m : List Host.Cell) (ls : List (Nat × List Byte)) : List Host.Cell :=
  ls.foldl (fun m ln => if p ln.1 then sputs memDefault m (ln.2.zipIdx.map (fun b => (64 * ln.1 + b.2, b.1))) else m) m

theorem sget_putLines (p : Nat → Bool) {ls : List (Nat × List Byte)} (hn : (ls.map Prod.fst).Nodup)
    (hl : ∀ x ∈ ls, x.2.length = 64) (m : List Host.Cell) (a : Nat) : sget memDefault (putLines p m ls) a =
      if p (a / 64) = true ∧ a / 64 ∈ ls.map Prod.fst then (sget [] ls (a / 64)).getD (a % 64) 0 else sget memDefault m a := by
  induction ls generalizing m with
  | nil => simp [putLines]
  | cons x ls ih =>
    obtain ⟨k, bs⟩ := x
    rw [List.map_cons, List.nodup_cons] at hn
    have hlen : bs.length = 64 := hl _ List.mem_cons_self
    have hrest := ih hn.2 (fun x hx => hl x (List.mem_cons_of_mem _ hx))
    have hrun := Laws.sget_sputs_run m (64 * k) 0 bs a
    show sget memDefault (putLines p (if p k then _ else m) ls) a = _
    rw [hrest, List.map_cons]
    by_cases hk : a / 64 = k
    · have hout : a / 64 ∉ ls.map Prod.fst := hk ▸ hn.1
      have ha : 64 * k + 0 ≤ a ∧ a < 64 * k + 0 + bs.length := by omega
      rw [if_pos ha, show a - 64 * k - 0 = a % 64 by omega] at hrun
      rw [if_neg (fun h => hout h.2), hk]
      by_cases hp : p k <;> simp [hp, hrun, sget]
    · have ha : ¬ (64 * k + 0 ≤ a ∧ a < 64 * k + 0 + bs.length) := by omega
      rw [if_neg ha] at hrun
      have hm : sget memDefault (if p k then sputs memDefault m (bs.zipIdx.map (fun b => (64 * k + b.2, b.1))) else m) a =
          sget memDefault m a := by
        split
        · exact hrun
        · rfl
      rw [hm, sget, if_neg hk]
      exact if_congr (by simp [hk]) rfl rfl

theorem resetModule_mem (s : State) : (resetModule s).mem =
    putLines (fun k => isLpddr (64 * k)) (s.mem.filter (fun (c : Host.Cell) => isLpddr c.1)) s.l2 := rfl

theorem homeByte_resetModule {s : State} (h : s.Inv) (a : Nat) :
    homeByte (resetModule s) a = if isLpddr a = true then homeByte s a else 0 := by
  have hline : isLpddr (64 * (a / 64)) = isLpddr a := by
    unfold isLpddr
    rw [decide_eq_decide]
    omega
  show sget memDefault (resetModule s).mem a = _
  rw [resetModule_mem, sget_putLines _ (sokFrom_nodup h.2.1) h.2.2, sget_filter, hline, homeByte_listed h]
  by_cases hp : isLpddr a = true
  · rw [if_pos hp, if_pos hp]
    exact if_congr (by simp [hp]) rfl rfl
  · rw [if_neg hp, if_neg hp, if_neg (fun h => hp h.1)]
    rfl

theorem resetModule_wasReset {s s' : State} (h : s'.Inv) (hm : s'.manifest = s.manifest)
    (hb : ∀ a, homeByte s' a = homeByte s a) : WasReset s (resetModule s') := by
  refine ⟨rfl, rfl, rfl, rfl, rfl, rfl, rfl, rfl, rfl, hm, fun a ha => ?_, fun a ha => ?_⟩
  · have hl : ¬ isLpddr a = true := by
      unfold isGddr at ha
      unfold isLpddr
      simp only [decide_eq_true_eq] at *
      omega
    rw [homeByte_resetModule h, if_neg hl]
  · rw [homeByte_resetModule h, if_pos ha, hb]

/-! ### The events -/

theorem exec_hostReset (r : Req) (s : State) : exec (.hostReset r) s = execHostReset r s := rfl
theorem exec_resetN (ns : Nat) (s : State) : exec (.resetN ns) s = execResetN ns s := rfl
theorem exec_boot (flash : Option Manifest) (s : State) : exec (.boot flash) s = execBoot flash s := rfl
theorem exec_powerLoss (s : State) : exec .powerLoss s = execPowerLoss s := rfl
theorem exec_thermalThrottle (die : Nat) (temp : BitVec 16) (s : State) :
    exec (.thermalThrottle die temp) s = execThermalThrottle die temp s := rfl
theorem exec_thermalRecover (die : Nat) (temp : BitVec 16) (s : State) :
    exec (.thermalRecover die temp) s = execThermalRecover die temp s := rfl
theorem exec_thermalShutdown (die : Nat) (temp : BitVec 16) (s : State) :
    exec (.thermalShutdown die temp) s = execThermalShutdown die temp s := rfl

theorem hostReset_resets {s : State} {r : Req} (h : s.Inv) (hl : Listens s r) (hr : s.recovery = false) (hp : r.payload = []) :
    ∃ s', exec (.hostReset r) s = .next s' ∧ WasReset s s' ∧ s'.responses = s.responses ++ [⟨r.strm, r.tag, 0x03, 0, []⟩] := by
  obtain ⟨hpow, hboot, hstrm⟩ := hl
  have hrest := respond_rest s r 0x03 0 []
  refine ⟨resetModule (respond s r 0x03 0 []), ?_, resetModule_wasReset (respond_inv h ..) ?_ fun a => ?_,
    congrArg State.responses (respond_live hstrm ..)⟩
  · rw [exec_hostReset]
    unfold execHostReset
    simp [hpow, hboot, hr, hp]
  · rw [hrest]
  · rw [hrest]
    rfl

theorem resetN_resets {s : State} (h : s.Inv) (ns : Nat) (hp : s.powered = true) :
    (1000 ≤ ns → ∃ s', exec (.resetN ns) s = .next s' ∧ WasReset s s') ∧ (ns < 1000 → exec (.resetN ns) s = .next s) := by
  rw [exec_resetN]
  unfold execResetN
  rw [hp]
  refine ⟨fun hn => ⟨resetModule s, if_neg (Nat.not_lt.mpr hn), resetModule_wasReset h rfl fun _ => rfl⟩, fun hn => if_pos hn⟩

theorem manifestOk_iff (m : Manifest) : manifestOk m = true ↔ 1 ≤ m.srSize ∧ m.srSize ≤ 32 ∧ m.srBase + m.srSize ≤ 512 ∧
    m.srBase / 64 = (m.srBase + m.srSize - 1) / 64 ∧ ∀ p ∈ m.ports, 1500 ≤ p.mtu ∧ p.mtu ≤ 9216 := by
  unfold manifestOk regionOk
  simp only [Bool.and_eq_true, decide_eq_true_eq, beq_iff_eq, List.all_eq_true]
  tauto

/-- The manifest in flash passes the checks of R372. -/
def Bootable (m : Manifest) : Prop := m.valid = true ∧ 1 ≤ m.srSize ∧ m.srSize ≤ 32 ∧ m.srBase + m.srSize ≤ 512 ∧
  m.srBase / 64 = (m.srBase + m.srSize - 1) / 64 ∧ ∀ p ∈ m.ports, 1500 ≤ p.mtu ∧ p.mtu ≤ 9216

theorem bootable_iff (m : Manifest) : (m.valid && manifestOk m) = true ↔ Bootable m := by
  rw [Bool.and_eq_true, manifestOk_iff]
  rfl

theorem boot_reads {s : State} (flash : Option Manifest) (hb : s.booted = false) : ∃ s', exec (.boot flash) s = .next s' ∧
    s' = { s with
      mem := s'.mem, manifest := s'.manifest, recovery := s'.recovery, ports := s'.ports, powered := true, pwrGood := true
      booted := true } ∧
    (∀ a, sget 0 s'.mem a = if isGddr a = true then 0 else sget 0 s.mem a) ∧
    (Bootable (flash.getD s.manifest) →
      s'.manifest = flash.getD s.manifest ∧ s'.recovery = false ∧ s'.ports = (flash.getD s.manifest).ports) ∧
    (¬ Bootable (flash.getD s.manifest) → s'.recovery = true) := by
  rw [exec_boot]
  unfold execBoot
  rw [hb]
  refine ⟨_, if_neg (by decide), rfl, fun a => sget_sdrop 0 s.mem isGddr a, fun hg => ?_, fun hg => ?_⟩
  · have hok := (bootable_iff _).mpr hg
    exact ⟨if_pos hok, congrArg not hok, if_pos hok⟩
  · exact congrArg not (Bool.eq_false_iff.mpr (mt (bootable_iff _).mp hg))

theorem unpowered_wasCut (s : State) : WasCut s (unpowered s) := ⟨rfl, rfl, rfl, rfl, rfl, rfl⟩

theorem setDie_changes (s : State) {die : Nat} (x : Die) (hd : die < 8) :
    setDie s die x = { s with dies := (setDie s die x).dies } ∧ dieOf (setDie s die x) die = x ∧ ∀ e, e ≠ die → dieOf (setDie s die x) e = dieOf s e :=
  ⟨rfl, by simp [dieOf_setDie, hd], fun e he => by simp [dieOf_setDie, he]⟩

theorem heat_acts {s : State} {die : Nat} (temp : BitVec 16) (hp : s.powered = true) (hd : die < 8) :
    (800 ≤ temp.toInt → ∃ s', exec (.thermalThrottle die temp) s = .next s' ∧ s' = { s with dies := s'.dies } ∧
      dieOf s' die = { dieOf s die with temp := temp, throttled := true } ∧ ∀ e, e ≠ die → dieOf s' e = dieOf s e) ∧
    (temp.toInt < 720 → ∃ s', exec (.thermalRecover die temp) s = .next s' ∧ s' = { s with dies := s'.dies } ∧
      dieOf s' die = { dieOf s die with temp := temp, throttled := false } ∧ ∀ e, e ≠ die → dieOf s' e = dieOf s e) ∧
    (880 ≤ temp.toInt → ∃ s', exec (.thermalShutdown die temp) s = .next s' ∧ WasCut s s') := by
  have h7 : ¬ 7 < die := by omega
  refine ⟨fun ht => ⟨_, ?_, setDie_changes s _ hd⟩, fun ht => ⟨_, ?_, setDie_changes s _ hd⟩,
    fun ht => ⟨setDie (unpowered s) die { dieOf (unpowered s) die with temp := temp }, ?_, unpowered_wasCut s⟩⟩
  · rw [exec_thermalThrottle]
    exact if_neg (by simp [hp, h7, ht])
  · rw [exec_thermalRecover]
    exact if_neg (by simp [hp, h7, ht])
  · rw [exec_thermalShutdown]
    exact if_neg (by simp [hp, h7, ht])

/-- Settles O51, event by event: a reset puts the dirty LPDDR6 lines of L2 into the arrays and drops everything else. -/
theorem resetBootAndPower : Obligations.ResetBootAndPower := by
  unfold Obligations.ResetBootAndPower
  intro s h
  exact ⟨fun r hl hr hp => hostReset_resets h hl hr hp, fun ns hp => resetN_resets h ns hp, fun flash hb => boot_reads flash hb,
    ⟨unpowered s, exec_powerLoss s, unpowered_wasCut s⟩, fun die temp hp hd => heat_acts temp hp hd⟩

end Sys2Proof.Proofs

/-! ## Write-back, poison lists and retired links -/

namespace Sys2Proof.Proofs

open Sys2Proof Sys2Proof.Machine Sys2Proof.Claims

/-! ### A line written back (R86, R96) -/

theorem lineHop_eq (s : State) (k : Nat) : lineHop s k =
    if sget 0 s.l2Bad k ≠ 0 then sget 0 s.l2Bad k else if sget 0 s.poison k ≠ 0 then sget 0 s.poison k
    else if sget 0 s.poisonMoved k ≠ 0 then sget 0 s.poisonMoved k else if checkFails s k then 2 else 0 := rfl

theorem lineHop_congr {s s' : State} {k : Nat} (hb : sget 0 s'.l2Bad k = sget 0 s.l2Bad k)
    (hp : sget 0 s'.poison k = sget 0 s.poison k) (hm : sget 0 s'.poisonMoved k = sget 0 s.poisonMoved k)
    (hc : checkFails s' k = checkFails s k) : lineHop s' k = lineHop s k := by
  rw [lineHop_eq, lineHop_eq, hb, hp, hm, hc]

theorem writeBack_l2Bad (s : State) (ln : Nat) : (writeBack s ln).l2Bad = sput 0 s.l2Bad ln 0 := by
  unfold writeBack
  dsimp only
  split <;> rfl

theorem writeBack_srCheck (s : State) (ln : Nat) : (writeBack s ln).srCheck = sput none s.srCheck ln none := by
  unfold writeBack
  dsimp only
  split <;> rfl

theorem sget_writeBack_poison (s : State) (ln k : Nat) : sget 0 (writeBack s ln).poison k =
    if k = ln ∧ sget 0 s.l2Bad ln ≠ 0 then sget 0 s.l2Bad ln else sget 0 s.poison k := by
  unfold writeBack
  dsimp only
  split
  next h => rw [if_neg (fun hk => hk.2 h)]
  next h =>
    rw [sget_sput]
    exact if_congr (by simp [h]) rfl rfl

/-- A line of the arrays other than the one written back is as it was. -/
theorem writeBack_mem_ne {s : State} (h : s.Inv) {ln a : Nat} (ha : a / 64 ≠ ln) :
    sget memDefault (writeBack s ln).mem a = sget memDefault s.mem a := by
  have hlen : (sget [] s.l2 ln).length ≤ 64 := by
    obtain h0 | h64 := Laws.sget_l2 h ln
    · simp [h0]
    · omega
  have hrun := Laws.sget_sputs_run s.mem (64 * ln) 0 (sget [] s.l2 ln) a
  rw [if_neg (by omega)] at hrun
  rw [Laws.writeBack_mem]
  exact hrun

theorem lineCheck_congr {s s' : State} {k : Nat}
    (h : ∀ i < 64, sget memDefault s'.mem (64 * k + i) = sget memDefault s.mem (64 * k + i)) : lineCheck s' k = lineCheck s k := by
  unfold lineCheck
  rw [List.map_congr_left fun i hi => h i (List.mem_range.mp hi)]

theorem checkFails_congr {s s' : State} {k : Nat} (hc : sget none s'.srCheck k = sget none s.srCheck k)
    (hl : sget [] s'.l2 k = sget [] s.l2 k) (hm : lineCheck s' k = lineCheck s k) : checkFails s' k = checkFails s k := by
  unfold checkFails
  rw [hc, hl, hm]

theorem checkFails_dirty {s : State} {k : Nat} (h : sget [] s.l2 k ≠ []) : checkFails s k = false := by
  have he : (sget [] s.l2 k).isEmpty = false := by simpa using h
  unfold checkFails
  split
  · rfl
  · rw [he]; rfl

theorem checkFails_unchecked {s : State} {k : Nat} (h : sget none s.srCheck k = none) : checkFails s k = false := by
  unfold checkFails
  rw [h]

theorem lineHop_writeBack_same {s : State} {ln : Nat} (hd : sget [] s.l2 ln ≠ [] ∨ sget 0 s.l2Bad ln ≠ 0) :
    lineHop (writeBack s ln) ln = lineHop s ln := by
  have hc : checkFails (writeBack s ln) ln = false := checkFails_unchecked (by rw [writeBack_srCheck, sget_sput_same])
  have hm : (writeBack s ln).poisonMoved = s.poisonMoved := writeBack_moved s ln
  rw [lineHop_eq, lineHop_eq, hc, hm, sget_writeBack_poison, writeBack_l2Bad, sget_sput_same]
  by_cases h : sget 0 s.l2Bad ln = 0
  · simp [h, checkFails_dirty (hd.resolve_right (not_not_intro h))]
  · simp [h]

theorem lineHop_writeBack_ne {s : State} (h : s.Inv) {ln k : Nat} (hk : k ≠ ln) : lineHop (writeBack s ln) k = lineHop s k := by
  have hc : checkFails (writeBack s ln) k = checkFails s k := by
    refine checkFails_congr ?_ ?_ (lineCheck_congr fun i hi => writeBack_mem_ne h (by omega))
    · rw [writeBack_srCheck, sget_sput_ne _ _ _ hk]
    · rw [Laws.writeBack_l2, sget_sput_ne _ _ _ hk]
  refine lineHop_congr ?_ ?_ ?_ hc
  · rw [writeBack_l2Bad, sget_sput_ne _ _ _ hk]
  · exact (sget_writeBack_poison s ln k).trans (if_neg fun e => hk e.1)
  · rw [writeBack_moved]

theorem exec_l2WriteBack (ln : Nat) (s : State) : exec (.l2WriteBack ln) s = execL2WriteBack ln s := rfl

theorem l2WriteBack_keeps {s : State} {ln : Nat} (h : s.Inv) (hd : sget [] s.l2 ln ≠ [] ∨ sget 0 s.l2Bad ln ≠ 0)
    (hr : listRoom s ln = true) : ∃ s', exec (.l2WriteBack ln) s = .next s' ∧ (∀ a, homeByte s' a = homeByte s a) ∧
      (∀ k, lineHop s' k = lineHop s k) ∧ sget [] s'.l2 ln = [] ∧ s'.teams = s.teams := by
  refine ⟨writeBack s ln, ?_, Laws.homeByte_writeBack h ln, fun k => ?_, ?_, (writeBack_onlyMemory s ln).teams⟩
  · have hne : ¬ ((sget [] s.l2 ln).isEmpty && sget 0 s.l2Bad ln == 0) = true := by
      simp only [Bool.and_eq_true, List.isEmpty_iff, beq_iff_eq, not_and_or]
      exact hd
    rw [exec_l2WriteBack]
    unfold execL2WriteBack
    rw [if_neg hne, if_pos hr]
  · by_cases hk : k = ln
    · rw [hk]
      exact lineHop_writeBack_same hd
    · exact lineHop_writeBack_ne h hk
  · rw [Laws.writeBack_l2, sget_sput_same]

/-! ### A full list moved (R377) -/

/-- A controller's entries of a poison list. -/
def ofCtrl (ctrl : Nat) (l : List (Nat × Nat)) : List (Nat × Nat) := l.filter (fun x => ctrlOf (64 * x.1) == ctrl)

theorem moveList_moved (s : State) (ctrl : Nat) : (moveList s ctrl).poisonMoved = sputs 0 s.poisonMoved (ofCtrl ctrl s.poison) :=
  rfl

theorem sget_moveList_moved {s : State} (h : sok 0 s.poison = true) (ctrl k : Nat) : sget 0 (moveList s ctrl).poisonMoved k =
    if ctrlOf (64 * k) = ctrl ∧ sget 0 s.poison k ≠ 0 then sget 0 s.poison k else sget 0 s.poisonMoved k := by
  have hn : ((ofCtrl ctrl s.poison).map Prod.fst).Nodup := sokFrom_nodup (filter_sok 0 _ _ h)
  have hget : sget 0 (ofCtrl ctrl s.poison) k = if ctrlOf (64 * k) == ctrl then sget 0 s.poison k else 0 :=
    sget_filter 0 s.poison (fun k => ctrlOf (64 * k) == ctrl) k
  rw [moveList_moved]
  by_cases hin : k ∈ (ofCtrl ctrl s.poison).map Prod.fst
  · obtain ⟨x, hx, rfl⟩ := List.mem_map.mp hin
    have hmine : ctrlOf (64 * x.1) = ctrl := by simpa [ofCtrl] using (List.mem_filter.mp hx).2
    rw [sget_of_mem hn hx, if_pos (beq_iff_eq.mpr hmine)] at hget
    have hne : x.2 ≠ 0 := sok_ne h x (List.mem_filter.mp hx).1
    rw [sget_sputs_mem 0 hn hx, ← hget, if_pos ⟨hmine, hne⟩]
  · have hout : ¬ (ctrlOf (64 * k) = ctrl ∧ sget 0 s.poison k ≠ 0) := by
      rintro ⟨hc, hne⟩
      rw [sget_unlisted_key hin, if_pos (beq_iff_eq.mpr hc)] at hget
      exact hne hget.symm
    rw [sget_sputs_ne _ _ _ (fun x hx e => hin (List.mem_map.mpr ⟨x, hx, e⟩)), if_neg hout]

theorem sget_moveList_poison (s : State) (ctrl k : Nat) :
    sget 0 (moveList s ctrl).poison k = if ctrlOf (64 * k) = ctrl then 0 else sget 0 s.poison k := by
  refine (sget_sdrop 0 s.poison (fun k => ctrlOf (64 * k) == ctrl) k).trans ?_
  exact if_congr beq_iff_eq rfl rfl

theorem exec_poisonListMove (ctrl : Nat) (s : State) : exec (.poisonListMove ctrl) s = execPoisonListMove ctrl s := rfl

theorem poisonListMove_moves {s : State} {ctrl : Nat}
    (hfull : 4096 ≤ (s.poison.filter (fun x => ctrlOf (64 * x.1) == ctrl)).length) (h : sok 0 s.poison = true) :
    ∃ s', exec (.poisonListMove ctrl) s = .next s' ∧ s' = { s with poison := s'.poison, poisonMoved := s'.poisonMoved } ∧
      ∀ k, if ctrlOf (64 * k) = ctrl then sget 0 s'.poison k = 0 ∧
          sget 0 s'.poisonMoved k = (if sget 0 s.poison k ≠ 0 then sget 0 s.poison k else sget 0 s.poisonMoved k)
        else sget 0 s'.poison k = sget 0 s.poison k ∧ sget 0 s'.poisonMoved k = sget 0 s.poisonMoved k := by
  refine ⟨moveList s ctrl, ?_, rfl, fun k => ?_⟩
  · rw [exec_poisonListMove]
    exact if_neg (Nat.not_lt.mpr hfull)
  · rw [sget_moveList_poison, sget_moveList_moved h]
    split
    next hc => exact ⟨rfl, if_congr (by simp [hc]) rfl rfl⟩
    next hc => exact ⟨rfl, if_neg (fun e => hc e.1)⟩

/-! ### A retired link (R94) -/

theorem exec_meshLinkRetire (link : Nat) (flit : Flit) (s : State) :
    exec (.meshLinkRetire link flit) s = execMeshLinkRetire link flit s := rfl

theorem meshLinkRetire_flit {s s' : State} {flit : Flit} (h : poisonFlit s 5 flit = some s') (link : Nat) :
    exec (.meshLinkRetire link flit) s = .next { s' with links := s'.links + 1, notices := s'.notices ++ [link] } := by
  rw [exec_meshLinkRetire]
  unfold execMeshLinkRetire
  rw [h]

theorem lineHop_poisonLine (s : State) (pa k : Nat) {hop : Nat} (h : hop ≠ 0) :
    lineHop (poisonLine s pa hop) k = if k = pa / 64 then hop else lineHop s k := by
  have hb : sget 0 (poisonLine s pa hop).l2Bad k = if k = pa / 64 then hop else sget 0 s.l2Bad k := sget_sput 0 s.l2Bad _ k hop
  by_cases hk : k = pa / 64
  · rw [if_pos hk] at hb ⊢
    rw [lineHop_eq, hb, if_pos h]
  · rw [if_neg hk] at hb ⊢
    exact lineHop_congr hb rfl rfl rfl

theorem meshLinkRetire_line {s : State} (link : Nat) {pa : Nat} (hb : physBad s.manifest pa = false) (hp : isPeer pa = false) :
    ∃ s', exec (.meshLinkRetire link (.line pa)) s = .next s' ∧ (∀ a, homeByte s' a = homeByte s a) ∧ s'.teams = s.teams ∧
      (∀ k, lineHop s' k = if k = pa / 64 then 5 else lineHop s k) ∧ s'.links = s.links + 1 ∧ s'.notices = s.notices ++ [link] := by
  have hf : poisonFlit s 5 (.line pa) = some (poisonLine s pa 5) := if_neg (by simp [hb, hp])
  exact ⟨_, meshLinkRetire_flit hf link, fun _ => rfl, rfl, fun k => lineHop_poisonLine s pa k (hop := 5) (by decide), rfl, rfl⟩

theorem meshLinkRetire_partial {s : State} (link : Nat) {k : Nat} {p : Partial} (h : s.partials[k]? = some p) :
    exec (.meshLinkRetire link (.partialSum k)) s = .next { s with
      partials := s.partials.set k { p with packet := { p.packet with bad := 5 } }
      links := s.links + 1, notices := s.notices ++ [link] } := by
  have hf : poisonFlit s 5 (.partialSum k) =
      some { s with partials := s.partials.set k { p with packet := { p.packet with bad := 5 } } } := by
    unfold poisonFlit
    dsimp only
    rw [h]
  exact meshLinkRetire_flit hf link

/-- Settles O43: a line's hop code goes from L2 to its controller's list as the line is written back, and from there to the moved
list, and is the same wherever it stands. -/
theorem linesKeepBytesAndPoison : Obligations.LinesKeepBytesAndPoison := by
  unfold Obligations.LinesKeepBytesAndPoison
  intro s
  exact ⟨fun ln h hd hr => l2WriteBack_keeps h hd hr, fun ctrl hfull h => poisonListMove_moves hfull h,
    fun link pa hb hp => meshLinkRetire_line link hb hp, fun link k p h => meshLinkRetire_partial link h⟩

end Sys2Proof.Proofs

/-! ## Fences -/

namespace Sys2Proof.Proofs

open Sys2Proof Sys2Proof.Machine Sys2Proof.Claims

/-! ### Sets of entries performed (R256, R264) -/

/-- From s to s' entries of the store path were performed: the path only shrank, and of each team only its scratchpad changed. -/
structure Performed (s s' : State) : Prop where
  stores : ∀ e ∈ s'.stores, e ∈ s.stores
  seq : s'.nextSeq = s.nextSeq
  team : ∀ u x, findTeam s u = some x → ∃ x', findTeam s' u = some x' ∧ x' = { x with scr := x'.scr, scrBad := x'.scrBad }

theorem Performed.refl (s : State) : Performed s s := ⟨fun _ h => h, rfl, fun _ x h => ⟨x, h, rfl⟩⟩

theorem Performed.trans {s s' s'' : State} (h : Performed s s') (h' : Performed s' s'') : Performed s s'' where
  stores e he := h.stores e (h'.stores e he)
  seq := h'.seq.trans h.seq
  team u x hx := by
    obtain ⟨x', hx', he'⟩ := h.team u x hx
    obtain ⟨x'', hx'', he''⟩ := h'.team u x' hx'
    exact ⟨x'', hx'', by rw [he'', he']⟩

theorem withoutEnt_performed (s : State) (e : StoreEnt) : Performed s (withoutEnt s e) :=
  ⟨fun _ h => (List.mem_filter.mp h).1, rfl, fun _ x h => ⟨x, h, rfl⟩⟩

theorem OnlyMemory.performed {s s' : State} (h : OnlyMemory s s') : Performed s s' :=
  ⟨fun _ he => h.stores ▸ he, h.nextSeq, fun u x hx => ⟨x, (h.findTeam u).trans hx, rfl⟩⟩

/-- A team's scratchpad written. -/
theorem scrWrite_performed {s : State} {u : Nat} {x : Team} (h : findTeam s u = some x) (off : Nat) (bs : List Byte) :
    Performed s (setTeam s (scrWrite x off bs)) := by
  have hu : x.uid = u := by simpa using List.find?_some h
  refine ⟨fun _ he => he, rfl, fun v y hy => ?_⟩
  by_cases hv : v = u
  · subst hv
    obtain rfl : x = y := Option.some.inj (h.symm.trans hy)
    exact ⟨_, findTeam_scrWrite h off bs, rfl⟩
  · exact ⟨y, (findTeam_setTeam_ne s (scrWrite x off bs) v (fun e => hv (e.trans hu))).trans hy, rfl⟩

theorem performEnt_performed (s : State) (e : StoreEnt) : Performed s (performEnt s e) := by
  refine (withoutEnt_performed s e).trans ?_
  cases hk : e.kind with
  | st | nt | rel =>
    rw [performEnt_store (by simp [hk])]
    exact (((homeWrite_onlyMemory ..).trans (markFirst_onlyMemory ..)).trans (noteCover_onlyMemory ..)).performed
  | red op r k =>
    by_cases hg : hopOf s e.addr e.data.length = 0
    · rw [performEnt_red hk hg]
      exact ((homeWrite_onlyMemory ..).trans (l1Drop_onlyMemory ..)).performed
    · rw [performEnt_red_poisoned hk hg]
      exact .refl _
  | scr u =>
    rw [performEnt_scr hk]
    cases hx : findTeam (withoutEnt s e) u with
    | none =>
      rw [scrStore_none hx]
      exact (noteWrite_onlyMemory ..).performed
    | some x =>
      have hn := noteWrite_onlyMemory (withoutEnt s e) (some u) e.addr e.data.length false (some (e.uid, e.seq)) none
      rw [scrStore_some hx]
      exact (hn.performed.trans (scrWrite_performed ((hn.findTeam u).trans hx) _ _)).trans
        (bufUpdate_onlyMemory ..).performed
  | fence | ntdrain | launch =>
    rw [performEnt_mark (by simp [hk])]
    exact .refl _

theorem performAll_performed (s : State) (es : List StoreEnt) : Performed s (performAll s es) := by
  unfold performAll
  induction es generalizing s with
  | nil => exact .refl s
  | cons e es ih => exact (performEnt_performed s e).trans (ih _)

theorem performSet_performed (s : State) (p : StoreEnt → Bool) : Performed s (performSet s p) := performAll_performed ..

/-- What was performed has left the store path. -/
theorem performAll_left {es : List StoreEnt} : ∀ {s : State}, ∀ f ∈ (performAll s es).stores, ∀ e ∈ es, f.seq ≠ e.seq := by
  induction es with
  | nil => exact fun _ _ _ h => absurd h List.not_mem_nil
  | cons e es ih =>
    intro s f hf g hg
    have hf' : f ∈ (performAll (performEnt s e) es).stores := hf
    obtain rfl | hg := List.mem_cons.mp hg
    · have hin := (performAll_performed _ es).stores f hf'
      rw [performEnt_stores] at hin
      simpa using (List.mem_filter.mp hin).2
    · exact ih f hf' g hg

/-- An entry that is chosen is among those performed. -/
theorem mem_closeSet {s : State} {p : StoreEnt → Bool} {e : StoreEnt} (he : e ∈ s.stores) (hp : p e = true) : e ∈ closeSet s p := by
  unfold closeSet
  generalize s.stores = es at he
  induction es with
  | nil => exact absurd he List.not_mem_nil
  | cons f es ih =>
    rw [List.foldr_cons]
    obtain rfl | he := List.mem_cons.mp he
    · rw [hp, Bool.true_or, if_pos rfl]
      exact List.mem_cons_self
    · split
      · exact List.mem_cons_of_mem _ (ih he)
      · exact ih he

/-- What a set of entries performed leaves in the store path is not of the set. -/
theorem performSet_left {s : State} {p : StoreEnt → Bool} : ∀ e ∈ (performSet s p).stores, e ∈ s.stores ∧ p e = false := by
  intro e he
  have hin := (performSet_performed s p).stores e he
  refine ⟨hin, Bool.eq_false_iff.mpr fun hp => ?_⟩
  exact performAll_left e he e (mem_closeSet hin hp) rfl

/-! ### The team at its next word -/

/-- Other teams, memory and the rest as s has them; the team is at its next word. -/
theorem moved_stored {s s1 : State} {t : Team} (g : Pend → List Reread) {es : List StoreEnt} (hk : KeepsMemory s s1)
    (hf : findTeam s t.uid = some t) (hs : s1.stores = s.stores ++ es) (hl : ∀ x ∈ s.l1, x.core ≠ t.core → x ∈ s1.l1) :
    Stored s (setTeam s1 (Team.wentOn t g)) t es :=
  ⟨fun u hu => (findTeam_setTeam_ne s1 (Team.wentOn t g) u hu).trans (hk.findTeam u),
    ⟨Team.wentOn t g, findTeam_setTeam_same s1 (Team.wentOn t g) t ((hk.findTeam t.uid).trans hf), wentOn_wentTo t g⟩,
    hk.homeByte, hs, hl⟩

/-- The team at its next word, with its scratchpad as the machine has it. -/
theorem renewed_wentTo {s1 : State} {t x : Team} (g : Pend → List Reread) (hx : findTeam s1 t.uid = some x) :
    ∃ t', findTeam (setTeam s1 (advance (renew s1 (Team.reread (counted t) g)))) t.uid = some t' ∧
      WentTo t t' (fun x => { x with scr := t'.scr, scrBad := t'.scrBad }) := by
  have hr : renew s1 (Team.reread (counted t) g) = { Team.reread (counted t) g with scr := x.scr, scrBad := x.scrBad } := by
    unfold renew
    rw [show findTeam s1 (Team.reread (counted t) g).uid = some x from hx]
  rw [hr, advance_eq]
  exact ⟨_, findTeam_setTeam_same s1 _ x hx, rfl, reread_plain t g⟩

/-! ### fence (R269) -/

theorem exec_fence (x : BitVec 3) (s : State) : exec (.fence x) s = execFence x s := rfl

/-- What a fence does to the machine, before its team goes on. -/
def fenced (s : State) (t : Team) (x : BitVec 3) : State :=
  let released := if x = 2 then scrNow s t.uid else if x = 0 ∧ 3 ≤ scopeIs t 4 then releaseNow s t.uid
    else fenceRelease s t (scopeIs t 4)
  if x = 1 then released else fenceAcquire released t (scopeIs t 4)

theorem exec_fence_issues {s : State} {t : Team} {x : BitVec 3} (h : Issues s t (.fence x) []) : ∃ g,
    exec (.fence x) s = .next (setTeam (fenced s t x) (advance (renew (fenced s t x) (Team.reread (counted t) g)))) := by
  obtain ⟨g, hg⟩ := sealFor_eq (.fence x) (modsOf t) (counted t)
  refine ⟨g, ?_⟩
  rw [exec_fence, execFence, withWord_issues h _ _ _ (by simp) (by simp), hg]
  rfl

theorem l1Invalidate_lines {s : State} {core : Nat} : ∀ y ∈ (l1Invalidate s core).l1, y.core ≠ core := by
  intro y hy
  simpa using (List.mem_filter.mp hy).2

theorem fenceAcquire_wide (s : State) (t : Team) {k : Nat} (hk : 3 ≤ k) : fenceAcquire s t k =
    l1Invalidate (redsNow (flushFences (flushReleases s t.uid k) t.uid) t.uid) t.core := if_pos hk

theorem fenceAcquire_performed (s : State) (t : Team) (k : Nat) : Performed s (fenceAcquire s t k) := by
  have h : Performed s (redsNow (flushFences (flushReleases s t.uid k) t.uid) t.uid) :=
    ((performSet_performed ..).trans (performSet_performed ..)).trans (performSet_performed ..)
  unfold fenceAcquire
  dsimp only
  split
  · exact h.trans (OnlyMemory.performed rfl)
  · exact h

theorem full_fence {s : State} {t : Team} (h : Accepted s t (.fence 0) []) (hk : 3 ≤ scopeIs t 4) :
    ∃ s' t', exec (.fence 0) s = .next s' ∧ findTeam s' t.uid = some t' ∧
      WentTo t t' (fun x => { x with scr := t'.scr, scrBad := t'.scrBad }) ∧
      (∀ e ∈ s'.stores, (e.uid = t.uid ∨ e.core = t.core) → e.kind = .nt) ∧ (∀ y ∈ s'.l1, y.core ≠ t.core) := by
  have hf := findTeam_of_issues h.toIssues
  have hs : fenced s t 0 = fenceAcquire (releaseNow s t.uid) t (scopeIs t 4) := by
    unfold fenced
    simp [hk]
  have hacq := fenceAcquire_performed (releaseNow s t.uid) t (scopeIs t 4)
  obtain ⟨g, hx⟩ := exec_fence_issues h.toIssues
  rw [hs] at hx
  obtain ⟨x, hfx, -⟩ := ((performSet_performed ..).trans hacq).team t.uid t hf
  obtain ⟨t', ht', hw⟩ := renewed_wentTo g hfx
  refine ⟨_, t', hx, ht', hw, fun e he hmine => ?_, ?_⟩
  · have hleft := (performSet_left e (hacq.stores e he)).2
    rw [hf] at hleft
    by_contra hnt
    simp [isNt, hnt, hmine] at hleft
  · rw [fenceAcquire_wide _ _ hk]
    exact l1Invalidate_lines

/-- A release fence at .cl or wider: the team's scratch stores and reds are performed, its other entries are shown, and the mark
stands behind them. -/
theorem fenced_release (s : State) (t : Team) (hk : 3 ≤ scopeIs t 4) :
    fenced s t 1 = enqueue (showNow (scrNow s t.uid) t.uid) t (.fence (scopeIs t 4)) 0 0 [] := by
  have h2 : 2 ≤ scopeIs t 4 := by omega
  unfold fenced fenceRelease
  simp [hk, h2]

theorem enqueue_mark (s : State) (t : Team) (k : StoreKind) :
    (enqueue s t k 0 0 []).stores = s.stores ++ [entryOf s t k 0 0 []] := by
  cases k <;> rfl

/-- What showing a team's stores does to an entry. -/
def shownFor (s : State) (u : Nat) (e : StoreEnt) : StoreEnt := if Machine.covered s u e then { e with shown := true } else e

theorem showAll_stores (s : State) (u : Nat) : (showAll s u).stores = s.stores.map (shownFor s u) := rfl

theorem shownFor_eq (s : State) (u : Nat) (e : StoreEnt) : shownFor s u e = { e with shown := (shownFor s u e).shown } := by
  unfold shownFor
  split <;> rfl

theorem shownFor_own {s : State} {u : Nat} {e : StoreEnt} (hu : e.uid = u) (hk : e.kind ≠ .nt) : (shownFor s u e).shown = true := by
  have hc : Machine.covered s u e = true := by
    unfold Machine.covered
    simp [hu, isNt, hk]
  unfold shownFor
  rw [if_pos hc]

/-- After a release at .cr or wider the team's entries are stores that the core's teams see. -/
theorem showNow_entries {s : State} {u : Nat} {e : StoreEnt} (he : e ∈ (showNow s u).stores) :
    (∃ f ∈ s.stores, e = { f with shown := e.shown }) ∧
      (e.uid = u → e.kind ≠ .nt → e.shown = true ∧ isScr e = false ∧ isRed e = false) := by
  obtain ⟨f, hf, rfl⟩ := List.mem_map.mp (show e ∈ _ from (showAll_stores _ u) ▸ he)
  obtain ⟨hin, hp⟩ := performSet_left f hf
  have heq := shownFor_eq (performSet s (fun e => e.uid == u && (isScr e || isRed e))) u f
  generalize hg : shownFor _ u f = g at heq ⊢
  refine ⟨⟨f, hin, heq⟩, fun hu hk => ?_⟩
  have hfu : f.uid = u := by rw [← hu, heq]
  have hfk : f.kind ≠ .nt := by rwa [heq] at hk
  have hplain : isScr f = false ∧ isRed f = false := by simpa [hfu] using hp
  refine ⟨hg ▸ shownFor_own hfu hfk, ?_, ?_⟩
  · rw [heq]
    exact hplain.1
  · rw [heq]
    exact hplain.2

section

variable {s : State} {t : Team} (hno : NoStores s t)
include hno

theorem scrNow_noStores : scrNow s t.uid = s := performSet_none fun e he => by simp [(hno e he).1]

theorem fenceAcquire_noStores (k : Nat) : fenceAcquire s t k = if 3 ≤ k then l1Invalidate s t.core else s := by
  have h1 : flushReleases s t.uid k = s := flushReleases_noStores hno k
  have h2 : flushFences s t.uid = s := performSet_none fun e he => by simp [(hno e he).1]
  have h3 : redsNow s t.uid = s := performSet_none fun e he => by simp [(hno e he).1]
  unfold fenceAcquire
  rw [h1, h2, h3]

theorem fenceRelease_noStores {k : Nat} (hk : k < 3) : fenceRelease s t k = s := by
  have hd : drainNow s t.uid = s := performSet_none fun e he => by simp [(hno e he).1]
  have hnk : ¬ 3 ≤ k := by omega
  unfold fenceRelease
  simp [hnk, hd, scrNow_noStores hno, showNow_noStores hno]

end

/-- A fence that only puts marks in the store path and drops lines of L1: the team goes on. -/
theorem fence_stored {s : State} {t : Team} {x : BitVec 3} (h : Issues s t (.fence x) []) (hk : KeepsMemory s (fenced s t x))
    {es : List StoreEnt} (hs : (fenced s t x).stores = s.stores ++ es)
    (hl : ∀ y ∈ s.l1, y.core ≠ t.core → y ∈ (fenced s t x).l1) : ∃ g,
      exec (.fence x) s = .next (setTeam (fenced s t x) (Team.wentOn t g)) ∧
        Stored s (setTeam (fenced s t x) (Team.wentOn t g)) t es := by
  have hf := findTeam_of_issues h
  obtain ⟨g, hx⟩ := exec_fence_issues h
  have hr : renew (fenced s t x) (Team.reread (counted t) g) = Team.reread (counted t) g :=
    renew_self ((hk.findTeam t.uid).trans hf) rfl rfl
  rw [hr, advance_counted_reread] at hx
  exact ⟨g, hx, moved_stored g hk hf hs hl⟩

theorem release_fence {s : State} {t : Team} (h : Accepted s t (.fence 1) []) (hk : 3 ≤ scopeIs t 4) :
    ∃ s' t' es, exec (.fence 1) s = .next s' ∧ findTeam s' t.uid = some t' ∧
      WentTo t t' (fun x => { x with scr := t'.scr, scrBad := t'.scrBad }) ∧
      s'.stores = es ++ [entryOf s t (.fence (scopeIs t 4)) 0 0 []] ∧ Shown es s.stores ∧
      (∀ e ∈ es, e.uid = t.uid → e.kind ≠ .nt → e.shown = true ∧ isScr e = false ∧ isRed e = false) ∧
      (NoStores s t → Stored s s' t [entryOf s t (.fence (scopeIs t 4)) 0 0 []]) := by
  have hf := findTeam_of_issues h.toIssues
  have hs := fenced_release s t hk
  have hscr : Performed s (scrNow s t.uid) := performSet_performed ..
  have hset : Performed s (performSet (scrNow s t.uid) (fun e => e.uid == t.uid && (isScr e || isRed e))) :=
    hscr.trans (performSet_performed ..)
  have hmark : (fenced s t 1).stores =
      (showNow (scrNow s t.uid) t.uid).stores ++ [entryOf s t (.fence (scopeIs t 4)) 0 0 []] := by
    have hentry : entryOf (showNow (scrNow s t.uid) t.uid) t (.fence (scopeIs t 4)) 0 0 [] =
        entryOf s t (.fence (scopeIs t 4)) 0 0 [] := by
      unfold Claims.entryOf
      rw [show (showNow (scrNow s t.uid) t.uid).nextSeq = s.nextSeq from hset.seq]
    rw [hs, enqueue_mark, hentry]
  obtain ⟨g, hx⟩ := exec_fence_issues h.toIssues
  obtain ⟨x, hfx, -⟩ := hset.team t.uid t hf
  obtain ⟨t', ht', hw⟩ := renewed_wentTo (s1 := fenced s t 1) g (by rw [hs]; exact hfx)
  refine ⟨_, t', _, hx, ht', hw, hmark, fun e he => ?_, fun e he => (showNow_entries he).2, fun hno => ?_⟩
  · obtain ⟨f, hin, heq⟩ := (showNow_entries he).1
    exact ⟨f, hscr.stores f hin, heq⟩
  · have hquiet : fenced s t 1 = enqueue s t (.fence (scopeIs t 4)) 0 0 [] := by
      rw [hs, scrNow_noStores hno, showNow_noStores hno]
    obtain ⟨g', hx', hst⟩ := fence_stored h.toIssues (es := [entryOf s t (.fence (scopeIs t 4)) 0 0 []])
      (by rw [hquiet]; rfl) (by rw [hquiet, enqueue_mark]) (fun y hy _ => by rw [hquiet]; exact hy)
    rw [hx] at hx'
    injection hx' with hx'
    rw [hx']
    exact hst

theorem acquire_fence {s : State} {t : Team} (h : Accepted s t (.fence 2) []) (hno : NoStores s t) :
    ∃ s' t', exec (.fence 2) s = .next s' ∧ findTeam s' t.uid = some t' ∧ WentTo t t' id ∧
      (∀ a, homeByte s' a = homeByte s a) ∧ s'.stores = s.stores ∧ (3 ≤ scopeIs t 4 → ∀ y ∈ s'.l1, y.core ≠ t.core) := by
  have hs : fenced s t 2 = if 3 ≤ scopeIs t 4 then l1Invalidate s t.core else s := by
    rw [← fenceAcquire_noStores hno]
    unfold fenced
    simp [scrNow_noStores hno]
  obtain ⟨g, hx, -, ⟨t', ht', hw⟩, hbytes, hstores, -⟩ := fence_stored h.toIssues (es := [])
    (by rw [hs]; split <;> rfl) (by rw [hs, List.append_nil]; split <;> rfl)
    (fun y hy hc => by
      rw [hs]
      split
      · exact List.mem_filter.mpr ⟨hy, by simpa using hc⟩
      · exact hy)
  refine ⟨_, t', hx, ht', hw, hbytes, hstores.trans (List.append_nil _), fun hk => ?_⟩
  rw [hs, if_pos hk]
  exact l1Invalidate_lines

theorem narrow_fence {s : State} {t : Team} {x : BitVec 3} (hx2 : x.toNat < 2) (h : Accepted s t (.fence x) [])
    (hk : scopeIs t 4 < 3) (hno : NoStores s t) : ∃ s', exec (.fence x) s = .next s' ∧ Stored s s' t [] := by
  have hne : x ≠ 2 := by
    rintro rfl
    exact absurd hx2 (by decide)
  have hnk : ¬ 3 ≤ scopeIs t 4 := by omega
  have hs : fenced s t x = s := by
    unfold fenced
    rw [if_neg hne, if_neg (fun e : x = 0 ∧ 3 ≤ scopeIs t 4 => hnk e.2), fenceRelease_noStores hno hk]
    dsimp only
    rw [fenceAcquire_noStores hno, if_neg hnk, ite_self]
  obtain ⟨g, hx, hst⟩ := fence_stored h.toIssues (es := []) (by rw [hs]; rfl) (by rw [hs, List.append_nil])
    (fun y hy _ => by rw [hs]; exact hy)
  exact ⟨_, hx, hst⟩

/-! ### ntdrain (R268) and pref (R167) -/

theorem exec_ntdrain (s : State) : exec .ntdrain s = execNtdrain s := rfl
theorem exec_pref (a : BitVec 5) (o : BitVec 9) (s : State) : exec (.pref a o) s = execPref a o s := rfl

theorem advance_counted (t : Team) : advance (counted t) = t.movedTo (nextPlace t) := by
  rw [advance_eq]
  rfl

theorem ntdrain_marks {s : State} {t : Team} (h : Accepted s t .ntdrain []) :
    ∃ s', exec .ntdrain s = .next s' ∧ Stored s s' t [entryOf s t (.ntdrain (scopeIs t 4)) 0 0 []] := by
  have hx : exec .ntdrain s =
      .next (setTeam (enqueue s t (.ntdrain (scopeIs t 4)) 0 0 []) (Team.wentOn t Pend.again)) := by
    have hw : advance (counted t) = Team.wentOn t Pend.again := by
      rw [← advance_counted_reread]
      unfold Team.reread
      rw [List.map_id' (counted t).pend]
    rw [exec_ntdrain, execNtdrain, withWord_counted h.toIssues rfl _ _ _ (by simp) (by simp), ← hw]
    rfl
  exact ⟨_, hx, moved_stored Pend.again rfl (findTeam_of_issues h.toIssues) (enqueue_mark ..) fun _ hy _ => hy⟩

/-- From s to s' only caches were filled; the store path is as it was. -/
def OnlyFills (s s' : State) : Prop := KeepsMemory s s' ∧ s'.stores = s.stores

theorem OnlyFills.trans {s s' s'' : State} (h : OnlyFills s s') (h' : OnlyFills s' s'') : OnlyFills s s'' :=
  ⟨h.1.trans h'.1, h'.2.trans h.2⟩

theorem prefLine_fills (s : State) (core ln : Nat) : OnlyFills s (prefLine s core ln) := by
  unfold prefLine
  split <;> exact ⟨rfl, rfl⟩

/-- What a pref brings in for one lane. -/
def prefLane (t : Team) (m : Mods) (va : Nat → DWord) (s : State) (l : Nat) : State :=
  match tryLane s t .read l (va l) 4 none with
  | .go x =>
    if m.cp = 2 then s
    else
      let s := prefLine s t.core (x.pa / 64)
      if x.fmt = 0 then s
      else
        let off := x.side + scaleAt x.fmt ((va l).toNat % 65536 * 2 / halfBytes x.fmt)
        prefLine (prefLine s t.core (off / 64)) t.core ((off + 4096) / 64)
  | _ => s

theorem prefLane_fills (t : Team) (m : Mods) (va : Nat → DWord) (s : State) (l : Nat) : OnlyFills s (prefLane t m va s l) := by
  unfold prefLane
  split
  · split
    · exact ⟨rfl, rfl⟩
    · dsimp only
      split
      · exact prefLine_fills ..
      · exact ((prefLine_fills ..).trans (prefLine_fills ..)).trans (prefLine_fills ..)
  · exact ⟨rfl, rfl⟩

theorem prefLanes_fill (t : Team) (m : Mods) (va : Nat → DWord) (ls : List Nat) (s : State) :
    OnlyFills s (ls.foldl (prefLane t m va) s) := by
  induction ls generalizing s with
  | nil => exact ⟨rfl, rfl⟩
  | cons l ls ih => exact (prefLane_fills t m va s l).trans (ih _)

theorem pref_moves {s : State} {t : Team} {a : BitVec 5} {o : BitVec 9} (h : Accepted s t (.pref a o) [a.toNat, a.toNat + 1])
    (hl : lostLanes s t 0 [a.toNat, a.toNat + 1] = []) :
    ∃ s', exec (.pref a o) s = .next s' ∧ (∀ u, u ≠ t.uid → findTeam s' u = findTeam s u) ∧
      findTeam s' t.uid = some (t.movedTo (nextPlace t)) ∧ (∀ b, homeByte s' b = homeByte s b) ∧ s'.stores = s.stores := by
  have hf := findTeam_of_issues h.toIssues
  have hx : ∃ s1, OnlyFills s s1 ∧ exec (.pref a o) s = .next (setTeam s1 (t.movedTo (nextPlace t))) := by
    have hend : endWord (counted t) = t.movedTo (nextPlace t) := by
      unfold endWord
      rw [show (counted t).pass = none from h.whole]
      exact advance_counted t
    have hlanes : memLanes s (counted t) 0 (s2 a) = (execLanes s t 0, []) := memLanes_clean hl
    rw [exec_pref, execPref, withWord_counted h.toIssues rfl _ _ _ (fun _ hn => hn) (by simp), hlanes, hend]
    refine ⟨_, ?_, rfl⟩
    have hfront (vas : List DWord) : OnlyFills s (noteWalks (bump s (counted t)) (counted t) vas) :=
      ⟨(bump_keeps ..).trans (noteWalks_keeps ..), (noteWalks_bump ..).1⟩
    exact (hfront _).trans (prefLanes_fill (counted t) (modsOf t) _ _ _)
  obtain ⟨s1, ⟨hk, hs⟩, hx⟩ := hx
  exact ⟨_, hx, fun u hu => (findTeam_setTeam_ne s1 (t.movedTo (nextPlace t)) u hu).trans (hk.findTeam u),
    findTeam_setTeam_same s1 (t.movedTo (nextPlace t)) t ((hk.findTeam t.uid).trans hf), hk.homeByte, hs⟩

/-- Settles O18, fence by fence: what a fence waits for is a set of entries performed, and those leave the store path. -/
theorem fencesDrainAndInvalidate : Obligations.FencesDrainAndInvalidate := by
  unfold Obligations.FencesDrainAndInvalidate
  intro s t
  exact ⟨full_fence, release_fence, acquire_fence, fun x hx h hk hno => narrow_fence hx h hk hno, ntdrain_marks,
    fun a o h hl => pref_moves h hl⟩

end Sys2Proof.Proofs

/-! ## Stalled traps -/

namespace Sys2Proof.Proofs

open Sys2Proof Sys2Proof.Machine Sys2Proof.Claims

/-- The record of a trap that waits. -/
def waitingRec : Rec := preciseRec farFrameTeam 0x01 0 0

/-- The team whose trap frame lies at 2^64 + 0x4000, with a trap that waits to enter its handler. -/
def stalledTeam : Team := { farFrameTeam with trap := some ⟨[], [waitingRec], farFrameTeam.active, .enter [], true⟩ }

/-- The machine with that team. -/
def stalledMachine : State := { farFrameMachine with teams := [stalledTeam] }

theorem stalled_inv : stalledMachine.Inv :=
  ⟨by decide +kernel, by decide +kernel, fun e he => absurd he List.not_mem_nil⟩

theorem stalled_pieces : framePas stalledMachine stalledTeam (2 ^ 64 + 0x4000) = some framePieces := by decide +kernel

theorem stalled_entries_apart : ∀ i < frameSize stalledTeam / 1024,
    ∀ p ∈ Laws.pathEntries stalledMachine (BitVec.ofNat 64 (2 ^ 64 + 0x4000 + 1024 * i)).toNat stalledTeam.root.lvl
      stalledTeam.root.node, p.1 + 16 * p.2 + 16 ≤ 0x300000000 ∨ 0x300000000 + 64 ≤ p.1 + 16 * p.2 := by decide +kernel

theorem stalled_may_enter : MayEnter stalledMachine stalledTeam frameCtx 0x300000000 (2 ^ 64 + 0x4000) framePieces where
  inv := stalled_inv
  ctx := by decide +kernel
  outside := by decide +kernel
  stay := by decide +kernel
  vector := by decide +kernel
  first := ⟨handlerXlat, by decide +kernel⟩
  frame := by decide +kernel
  pieces := stalled_pieces
  room := by decide +kernel
  record := ⟨recordXlat, by decide +kernel, rfl⟩
  apart bs hb := by
    rw [Laws.framePas_homeWrite stalled_inv, stalled_pieces]
    rw [hb]
    exact stalled_entries_apart
  calm := by decide +kernel
  quiet e he := absurd he List.not_mem_nil
  thawed := by decide +kernel

/-- Refutes O35: the clause on a trap that enters its handler has the handler's frame address equal the frame's own, and a team
whose frame offset passes 2^64 meets its hypotheses, while the handler keeps 64 bits of the address. -/
theorem not_stalledTrapsFinish : ¬ Obligations.StalledTrapsFinish := by
  intro h
  obtain ⟨-, enters, -⟩ := h stalledMachine stalledTeam frameCtx waitingRec (by decide +kernel) (by decide +kernel)
    (by decide +kernel)
  obtain ⟨s', -, he⟩ := enters _ _ _ rfl stalled_may_enter _ List.mem_cons_self
  exact absurd (Entered.va_lt he) (by decide)

end Sys2Proof.Proofs

/-! ## The checkpoint -/

namespace Sys2Proof.Proofs

open Sys2Proof Sys2Proof.Machine Sys2Proof.Claims

/-! ### Every line written back (R92) -/

theorem makeWay_l2 (s : State) (ln : Nat) : (makeWay s ln).l2 = sput [] s.l2 ln [] := by
  unfold makeWay
  rw [Laws.writeBack_l2]
  split <;> rfl

theorem writeBackAll_onlyMemory (s : State) : OnlyMemory s (writeBackAll s) := foldl_onlyMemory makeWay_onlyMemory _ s

/-- Lines written back, one after another: memory serves what it served, and L2 is left with the other lines. -/
theorem makeWays_keep {lns : List Nat} : ∀ {s : State}, s.Inv → (∀ a, homeByte (lns.foldl makeWay s) a = homeByte s a) ∧
    ∀ ln, sget [] (lns.foldl makeWay s).l2 ln = if ln ∈ lns then [] else sget [] s.l2 ln := by
  induction lns with
  | nil => exact fun _ => ⟨fun _ => rfl, fun ln => by simp⟩
  | cons k lns ih =>
    intro s h
    obtain ⟨hb, hl⟩ := ih (Laws.makeWay_inv h k)
    refine ⟨fun a => (hb a).trans (Laws.homeByte_makeWay h k a), fun ln => (hl ln).trans ?_⟩
    rw [makeWay_l2, sget_sput]
    by_cases hm : ln ∈ lns <;> by_cases hk : ln = k <;> simp [hm, hk]

theorem writeBackAll_l2 {s : State} (h : s.Inv) (ln : Nat) : sget [] (writeBackAll s).l2 ln = [] := by
  refine ((makeWays_keep h).2 ln).trans ?_
  by_cases hin : ln ∈ s.l2.map Prod.fst
  · exact if_pos (List.mem_append_left _ hin)
  · rw [sget_unlisted_key hin, ite_self]

theorem homeByte_clean {s : State} {a : Nat} (h : sget [] s.l2 (a / 64) = []) : homeByte s a = sget memDefault s.mem a := by
  unfold homeByte
  rw [h]

/-- After every line was written back the arrays hold what the home served. -/
theorem writeBackAll_mem {s : State} (h : s.Inv) (a : Nat) : sget memDefault (writeBackAll s).mem a = homeByte s a := by
  rw [← homeByte_clean (writeBackAll_l2 h _)]
  exact (makeWays_keep h).1 a

/-! ### Bytes that firmware puts into the arrays -/

theorem sget_memPut (s : State) (pa : Nat) (bs : List Byte) (a : Nat) : sget memDefault (memPut s pa bs).mem a =
    if pa ≤ a ∧ a < pa + bs.length then bs.getD (a - pa) 0 else sget memDefault s.mem a := Laws.sget_sputs_run s.mem pa 0 bs a

theorem memPut_rest (s : State) (pa : Nat) (bs : List Byte) : memPut s pa bs = { s with mem := (memPut s pa bs).mem } := rfl

theorem memPut_onlyMemory (s : State) (pa : Nat) (bs : List Byte) : OnlyMemory s (memPut s pa bs) := rfl

theorem length_bytesOf (n v : Nat) : (bytesOf n v).length = n := by simp [bytesOf]

theorem homeByte_memPut {s : State} (hl : ∀ ln, sget [] s.l2 ln = []) (pa : Nat) (bs : List Byte) (a : Nat) :
    homeByte (memPut s pa bs) a = if pa ≤ a ∧ a < pa + bs.length then bs.getD (a - pa) 0 else homeByte s a := by
  rw [homeByte_clean (s := memPut s pa bs) (hl _), homeByte_clean (hl _), sget_memPut]

/-- A small number as four bytes. -/
theorem bytesOf_small {v i : Nat} (hv : v < 256) (hi : i < 4) : (bytesOf 4 v).getD i 0 = if i = 0 then BitVec.ofNat 8 v else 0 := by
  have h (hj : i ≠ 0) : v / 2 ^ (8 * i) = 0 :=
    Nat.div_eq_of_lt (hv.trans_le (Nat.pow_le_pow_right (show 0 < 2 by decide) (show 8 ≤ 8 * i by omega)))
  by_cases h0 : i = 0
  · simp [h0, bytesOf]
  · simp [bytesOf, hi, h h0, h0]

/-! ### The places of an image (R91, R93) -/

/-- An address of the checkpoint area keeps the byte of GDDR7 whose place it is. -/
theorem imageOf_eq_some {k a : Nat} : imageOf k = some a ↔ isGddr a = true ∧ k = imageAddr a := by
  unfold imageOf imageAddr isLpddr isGddr
  simp only [decide_eq_true_eq]
  split
  · rw [Option.some.injEq]
    omega
  · simp only [reduceCtorEq, false_iff]
    omega

theorem imageAddr_inj {a b : Nat} (ha : isGddr a = true) (h : imageAddr a = imageAddr b) (hb : isGddr b = true) : a = b :=
  Option.some.inj ((imageOf_eq_some.mpr ⟨ha, rfl⟩).symm.trans (imageOf_eq_some.mpr ⟨hb, h⟩))

theorem imageAddr_ne {a : Nat} (b : Nat) (ha : isGddr a = true) : imageAddr b ≠ a := by
  unfold isGddr at ha
  unfold imageAddr
  simp only [decide_eq_true_eq] at ha
  omega

theorem imageOf_gddr {a : Nat} (ha : isGddr a = true) : imageOf a = none :=
  Option.eq_none_iff_forall_ne_some.mpr fun b h => imageAddr_ne b ha (imageOf_eq_some.mp h).2.symm

/-- The header of an image lies below every byte of it. -/
theorem imageAddr_above (a : Nat) : ckptHeader + 0x1000000 ≤ imageAddr a ∨ imageAddr a < ckptHeader := by
  unfold imageAddr ckptHeader
  omega

theorem gddr_below_header {a : Nat} (ha : isGddr a = true) : a < ckptHeader := by
  unfold isGddr at ha
  unfold ckptHeader
  simp only [decide_eq_true_eq] at ha
  omega

/-! ### The image of a checkpoint -/

theorem sget_append_unlisted {β : Type} {d : β} {m m' : List (Nat × β)} {a : Nat} (h : a ∉ m'.map Prod.fst) :
    sget d (m ++ m') a = sget d m a := by
  induction m with
  | nil => exact sget_unlisted_key h
  | cons kv m ih => simp only [List.cons_append, sget, ih]

/-- The check of a line of the strong region lies in the check area. -/
theorem checkPlace_bounds {m : Manifest} {k j : Nat} (h : inStrong m (64 * k) = true) (hj : j < 4) :
    (checkArea m).1 ≤ checkPlace m k + j ∧ checkPlace m k + j < (checkArea m).1 + (checkArea m).2 := by
  unfold inStrong at h
  rw [decide_eq_true_eq] at h
  obtain ⟨d, hd⟩ : ∃ d, 64 * k = m.srBase * 2 ^ 30 + 64 * d := ⟨k - m.srBase * 2 ^ 24, by omega⟩
  have hz : 64 * d < m.srSize * 2 ^ 30 := by omega
  unfold checkPlace checkArea
  rw [hd, Nat.add_sub_cancel_left]
  clear h hd
  dsimp only
  omega

/-- The cells of an image that hold checks lie in the check area. -/
theorem checkCells_places {s : State} {x : Host.Cell} (h : x ∈ checkCells s) :
    (checkArea s.manifest).1 ≤ x.1 ∧ x.1 < (checkArea s.manifest).1 + (checkArea s.manifest).2 := by
  obtain ⟨k, hk, hx⟩ := List.mem_flatMap.mp h
  obtain ⟨b, hb, rfl⟩ := List.mem_map.mp hx
  have hstrong := (List.mem_filter.mp hk).2
  have hlt : b.2 < 4 := by
    have := (List.mem_zipIdx hb).2.1
    rwa [length_bytesOf] at this
  exact checkPlace_bounds hstrong hlt

theorem not_checked {m : Manifest} {a : Nat} (h : physBad m a = false) :
    ¬ ((checkArea m).1 ≤ a ∧ a < (checkArea m).1 + (checkArea m).2) := by
  unfold physBad at h
  simp only [Bool.or_eq_false_iff, decide_eq_false_iff_not] at h
  exact h.2

theorem checkedLine_none {m : Manifest} {a : Nat} (h : physBad m a = false) : checkedLine m a = none := if_neg (not_checked h)

/-- L2 written back, and STATE of the header 2. -/
def checkpointing (s : State) : State := memPut (writeBackAll s) (ckptHeader + 4) (bytesOf 4 2)

/-- What a checkpoint begins to copy. -/
def imageCells (s : State) : List Host.Cell := s.mem.filter (fun (c : Host.Cell) => isGddr c.1) ++ checkCells s

theorem checkpointing_onlyMemory (s : State) : OnlyMemory s (checkpointing s) :=
  (writeBackAll_onlyMemory s).trans (memPut_onlyMemory ..)

theorem homeByte_checkpointing {s : State} (h : s.Inv) (a : Nat) : homeByte (checkpointing s) a =
    if ckptHeader + 4 ≤ a ∧ a < ckptHeader + 8 then (bytesOf 4 2).getD (a - (ckptHeader + 4)) 0 else homeByte s a := by
  unfold checkpointing
  rw [homeByte_memPut (writeBackAll_l2 h), length_bytesOf]
  exact if_congr Iff.rfl rfl ((makeWays_keep h).1 a)

theorem sget_imageCells {s : State} {a : Nat} (hg : isGddr a = true) (hp : physBad s.manifest a = false) :
    sget 0 (imageCells s) a = sget 0 s.mem a := by
  have hout : a ∉ (checkCells s).map Prod.fst := fun hin => by
    obtain ⟨x, hx, rfl⟩ := List.mem_map.mp hin
    exact not_checked hp (checkCells_places hx)
  unfold imageCells
  rw [sget_append_unlisted hout]
  exact (sget_filter 0 s.mem isGddr a).trans (if_pos hg)

theorem exec_checkpoint (r : Req) (s : State) : exec (.checkpoint r) s = execCheckpoint r s := rfl

theorem checkpoint_begins {s : State} {r : Req} (hl : Listens s r) (h : s.Inv) (hr : s.recovery = false) (hp : r.payload = [])
    (hon : s.manifest.ckptOn = true) (hb : ckptBusy s = false)
    (hfit : (poisonedLines (writeBackAll s)).1.length + (poisonedLines (writeBackAll s)).2.length ≤ 2097144) :
    ∃ s' img clk bad n, exec (.checkpoint r) s = .next s' ∧ s'.teams = s.teams ∧ s'.responses = s.responses ∧
      s'.ckpt = some (.saving img clk bad n) ∧ s'.owed = s.owed ++ [⟨r, 0x40, 0, 0⟩] ∧ clk = s.clk.toNat ∧
      (∀ a, isGddr a = true → physBad s.manifest a = false → sget 0 img a = homeByte s a) ∧
      (∀ i < 4, homeByte s' (ckptHeader + 4 + i) = if i = 0 then 2 else 0) ∧
      ∀ a, ¬ (ckptHeader + 4 ≤ a ∧ a < ckptHeader + 8) → homeByte s' a = homeByte s a := by
  obtain ⟨hpow, hboot, -⟩ := hl
  have hmem := checkpointing_onlyMemory s
  have hx : exec (.checkpoint r) s = .next { checkpointing s with
      ckpt := some (.saving (imageCells (checkpointing s)) s.clk.toNat
        ((poisonedLines (writeBackAll s)).1 ++ (poisonedLines (writeBackAll s)).2) (poisonedLines (writeBackAll s)).2.length)
      owed := (checkpointing s).owed ++ [⟨r, 0x40, 0, 0⟩] } := by
    rw [exec_checkpoint]
    unfold execCheckpoint
    simp only [hpow, hboot, hr, hp, hon, hb]
    exact if_neg (Nat.not_lt.mpr hfit)
  refine ⟨_, _, _, _, _, hx, hmem.teams, hmem.responses, rfl, congrArg (· ++ _) hmem.owed, rfl, fun a hg hp => ?_, fun i hi => ?_,
    fun a ha => (homeByte_checkpointing h a).trans (if_neg ha)⟩
  · have hout : ¬ (ckptHeader + 4 ≤ a ∧ a < ckptHeader + 4 + (bytesOf 4 2).length) := by
      have := gddr_below_header hg
      omega
    rw [sget_imageCells hg (by rw [hmem.manifest]; exact hp), ← writeBackAll_mem h]
    exact (sget_memPut ..).trans (if_neg hout)
  · refine (homeByte_checkpointing h _).trans ?_
    rw [if_pos (by omega), Nat.add_sub_cancel_left]
    exact bytesOf_small (by decide) hi

/-! ### The image put in place (R91, R93) -/

/-- The responses that a copy owes to one request. -/
theorem answerCopy_one {s : State} {r : Req} {cmd : Nat} (h : s.owed = [⟨r, cmd, 0, 0⟩]) (p : List Byte) :
    answerCopy s cmd p = respond { s with owed := [] } r cmd 0 p := by
  unfold answerCopy
  rw [h]
  simp

theorem answerCopy_responds {s : State} {r : Req} {cmd : Nat} (hl : ∀ x, findStream s r.strm = some x → x.failed = false)
    (hc : cmd < 2 ^ 16) (h : s.owed = [⟨r, cmd, 0, 0⟩]) (p : List Byte) : Responded s (answerCopy s cmd p) r cmd 0 p ∧
      answerCopy s cmd p = { s with
        streams := (answerCopy s cmd p).streams, responses := (answerCopy s cmd p).responses, owed := [] } := by
  rw [answerCopy_one h]
  exact ⟨respond_responded (s := { s with owed := [] }) hl hc (by decide) p, respond_rest { s with owed := [] } r cmd 0 p⟩

/-- The header of an image (R93). -/
def imageHeader (s : State) (clk : Nat) (bad : List Nat) (novf : Nat) : List Byte :=
  bytesOf 4 1 ++ bytesOf 4 1 ++ bytesOf 8 clk ++ bytesOf 4 s.manifest.srBase ++ bytesOf 4 s.manifest.srSize ++
    bytesOf 4 bad.length ++ bytesOf 4 novf ++ bytesOf 32 0 ++ bad.flatMap (fun k => bytesOf 8 (64 * k))

theorem length_imageHeader (s : State) (clk : Nat) (bad : List Nat) (novf : Nat) :
    (imageHeader s clk bad novf).length = 64 + 8 * bad.length := by
  have hlist : (bad.flatMap (fun k => bytesOf 8 (64 * k))).length = 8 * bad.length := by
    induction bad with
    | nil => rfl
    | cons k ks ih =>
      rw [List.flatMap_cons, List.length_append, ih, length_bytesOf, List.length_cons]
      omega
  unfold imageHeader
  simp only [List.length_append, length_bytesOf, hlist]

theorem imageHeader_state (s : State) (clk : Nat) (bad : List Nat) (novf : Nat) {i : Nat} (hi : i < 4) :
    (imageHeader s clk bad novf).getD (4 + i) 0 = if i = 0 then 1 else 0 := by
  have hrest (bs cs : List Byte) (hb : bs.length = 4) (hc : i < cs.length) (ds : List Byte) :
      (bs ++ cs ++ ds).getD (4 + i) 0 = cs.getD i 0 := by
    have h4 : 4 + i < (bs ++ cs).length := by rw [List.length_append]; omega
    rw [List.getD_append _ _ _ _ h4, List.getD_append_right _ _ _ _ (by omega), hb, Nat.add_sub_cancel_left]
  unfold imageHeader
  simp only [List.append_assoc]
  rw [← List.append_assoc (bytesOf 4 1) (bytesOf 4 1), hrest _ _ (length_bytesOf 4 1) (by rw [length_bytesOf]; exact hi)]
  exact bytesOf_small (by decide) hi

/-- The arrays with an image at its places. -/
def imagePlaced (m img : List Host.Cell) : List Host.Cell :=
  sputs memDefault (sdrop m (fun k => (imageOf k).isSome)) (img.map (fun c => (imageAddr c.1, c.2)))

theorem sget_imagePlaced {m img : List Host.Cell} (hn : (img.map Prod.fst).Nodup) (hg : ∀ x ∈ img, isGddr x.1 = true) {a : Nat}
    (ha : isGddr a = true) : sget 0 (imagePlaced m img) (imageAddr a) = sget 0 img a := by
  have hkeys : (img.map (fun c => (imageAddr c.1, c.2))).map Prod.fst = (img.map Prod.fst).map imageAddr := by
    rw [List.map_map, List.map_map]
    rfl
  have hnodup : ((img.map (fun c => (imageAddr c.1, c.2))).map Prod.fst).Nodup := by
    rw [hkeys]
    refine List.Nodup.map_on (fun x hx y hy e => ?_) hn
    obtain ⟨c, hc, rfl⟩ := List.mem_map.mp hx
    obtain ⟨c', hc', rfl⟩ := List.mem_map.mp hy
    exact imageAddr_inj (hg c hc) e (hg c' hc')
  unfold imagePlaced
  by_cases hin : a ∈ img.map Prod.fst
  · obtain ⟨x, hx, rfl⟩ := List.mem_map.mp hin
    rw [sget_of_mem hn hx]
    exact sget_sputs_mem memDefault hnodup (List.mem_map_of_mem hx) _
  · have hout : ∀ w ∈ img.map (fun c => (imageAddr c.1, c.2)), w.1 ≠ imageAddr a := by
      intro w hw e
      obtain ⟨x, hx, rfl⟩ := List.mem_map.mp hw
      exact hin (imageAddr_inj (hg x hx) e ha ▸ List.mem_map_of_mem hx)
    rw [sget_unlisted_key hin]
    refine (sget_sputs_ne memDefault _ _ hout).trans ((sget_sdrop ..).trans (if_pos ?_))
    rw [imageOf_eq_some.mpr ⟨ha, rfl⟩]
    rfl

theorem sget_imagePlaced_gddr (m img : List Host.Cell) {a : Nat} (ha : isGddr a = true) :
    sget memDefault (imagePlaced m img) a = sget memDefault m a := by
  have hout : ∀ w ∈ img.map (fun c => (imageAddr c.1, c.2)), w.1 ≠ a := by
    intro w hw
    obtain ⟨x, -, rfl⟩ := List.mem_map.mp hw
    exact imageAddr_ne x.1 ha
  refine (sget_sputs_ne memDefault _ _ hout).trans ((sget_sdrop ..).trans (if_neg ?_))
  rw [imageOf_gddr ha]
  exact Bool.false_ne_true

theorem homeByte_of_mem {s s' : State} {a : Nat} (hl : s'.l2 = s.l2) (hm : sget memDefault s'.mem a = sget memDefault s.mem a) :
    homeByte s' a = homeByte s a := by
  unfold homeByte
  rw [hl, hm]

/-- The machine as the image and its header stand. -/
def imageStands (s : State) (img : List Host.Cell) (clk : Nat) (bad : List Nat) (novf : Nat) : State :=
  memPut { s with mem := imagePlaced s.mem img, ckpt := none } ckptHeader (imageHeader s clk bad novf)

theorem imageStands_rest (s : State) (img : List Host.Cell) (clk : Nat) (bad : List Nat) (novf : Nat) :
    imageStands s img clk bad novf = { s with mem := (imageStands s img clk bad novf).mem, ckpt := none } :=
  memPut_rest { s with mem := imagePlaced s.mem img, ckpt := none } ckptHeader (imageHeader s clk bad novf)

theorem sget_imageStands {s : State} {img : List Host.Cell} {clk : Nat} {bad : List Nat} {novf a : Nat}
    (hbad : bad.length ≤ 2097144) (ha : ckptHeader + 0x1000000 ≤ a ∨ a < ckptHeader) :
    sget memDefault (imageStands s img clk bad novf).mem a = sget memDefault (imagePlaced s.mem img) a := by
  refine (sget_memPut ..).trans (if_neg ?_)
  rw [length_imageHeader]
  omega

theorem exec_checkpointDone (s : State) : exec .checkpointDone s = execCheckpointDone s := rfl

theorem exec_saved {s : State} {img : List Host.Cell} {clk : Nat} {bad : List Nat} {n : Nat}
    (h : s.ckpt = some (.saving img clk bad n)) :
    exec .checkpointDone s = .next (answerCopy (imageStands s img clk bad n) 0x40 (bytesOf 8 ckptHeader)) := by
  rw [exec_checkpointDone]
  unfold execCheckpointDone
  rw [h]
  dsimp only
  rw [foldl_sput_eq]
  rfl

theorem checkpoint_ends {s : State} {r : Req} {img : List Host.Cell} {clk : Nat} {bad : List Nat} {n : Nat} (hl : Listens s r)
    (hs : s.ckpt = some (.saving img clk bad n)) (hn : (img.map Prod.fst).Nodup) (hg : ∀ x ∈ img, isGddr x.1 = true)
    (hbad : bad.length ≤ 2097144) (ho : s.owed = [⟨r, 0x40, 0, 0⟩]) :
    ∃ s', exec .checkpointDone s = .next s' ∧ Responded s s' r 0x40 0 (bytesOf 8 ckptHeader) ∧ s'.ckpt = none ∧ s'.owed = [] ∧
      (∀ a, isGddr a = true → sget 0 s'.mem (imageAddr a) = sget 0 img a ∧ homeByte s' a = homeByte s a) ∧
      ∀ i < 4, sget 0 s'.mem (ckptHeader + 4 + i) = if i = 0 then 1 else 0 := by
  have hgddr {a : Nat} (ha : isGddr a = true) : sget 0 (imageStands s img clk bad n).mem (imageAddr a) = sget 0 img a ∧
      sget memDefault (imageStands s img clk bad n).mem a = sget memDefault s.mem a :=
    ⟨(sget_imageStands hbad (imageAddr_above a)).trans (sget_imagePlaced hn hg ha),
      (sget_imageStands hbad (.inr (gddr_below_header ha))).trans (sget_imagePlaced_gddr s.mem img ha)⟩
  have hstate {i : Nat} (hi : i < 4) : sget 0 (imageStands s img clk bad n).mem (ckptHeader + 4 + i) = if i = 0 then 1 else 0 := by
    refine (sget_memPut ..).trans ?_
    rw [length_imageHeader, if_pos (by omega), Nat.add_assoc, Nat.add_sub_cancel_left]
    exact imageHeader_state s clk bad n hi
  have hx := exec_saved hs
  rw [imageStands_rest] at hx
  generalize (imageStands s img clk bad n).mem = m at hx hgddr hstate
  obtain ⟨hresp, hrest⟩ := answerCopy_responds (s := { s with mem := m, ckpt := none }) hl.2.2 (by decide) ho (bytesOf 8 ckptHeader)
  refine ⟨_, hx, hresp, by rw [hrest], by rw [hrest], fun a ha => ⟨?_, ?_⟩, fun i hi => ?_⟩
  · rw [hrest]
    exact (hgddr ha).1
  · rw [hrest]
    exact homeByte_of_mem rfl (hgddr ha).2
  · rw [hrest]
    exact hstate hi

/-! ### The image restored (R91, R92) -/

theorem exec_restore (r : Req) (s : State) : exec (.restore r) s = execRestore r s := rfl
theorem exec_restoreComplete (s : State) : exec .restoreComplete s = execRestoreComplete s := rfl

theorem restore_begins {s : State} {r : Req} (hl : Listens s r) (hr : s.recovery = false) (hp : r.payload = [])
    (hon : s.manifest.ckptOn = true) (hb : ckptBusy s = false) (hstate : headerWord s 4 = 1)
    (hbase : headerWord s 16 = s.manifest.srBase) (hsize : headerWord s 20 = s.manifest.srSize) :
    exec (.restore r) s = .next { s with ckpt := some .restoring, owed := s.owed ++ [⟨r, 0x41, 0, 0⟩] } := by
  obtain ⟨hpow, hboot, -⟩ := hl
  rw [exec_restore]
  unfold execRestore
  simp [hpow, hboot, hr, hp, hon, hb, hstate, hbase, hsize]

/-- The byte of GDDR7 that a restore puts back from an address; none for a check that it makes anew. -/
def restoredTo (m : Manifest) (k : Nat) : Option Nat :=
  (imageOf k).bind fun pa => if (checkedLine m pa).isSome then none else some pa

theorem restoredTo_eq_some {m : Manifest} {k a : Nat} (h : restoredTo m k = some a) : isGddr a = true ∧ k = imageAddr a := by
  obtain ⟨b, hb, ha⟩ := Option.bind_eq_some_iff.mp h
  obtain rfl : b = a := by
    split at ha
    · cases ha
    · exact Option.some.inj ha
  exact imageOf_eq_some.mp hb

theorem restoredTo_imageAddr {m : Manifest} {a : Nat} (hg : isGddr a = true) (hp : physBad m a = false) :
    restoredTo m (imageAddr a) = some a := by
  refine Option.bind_eq_some_iff.mpr ⟨a, imageOf_eq_some.mpr ⟨hg, rfl⟩, if_neg ?_⟩
  rw [checkedLine_none hp]
  exact Bool.false_ne_true

/-- The cells of GDDR7 that a restore puts back. -/
def restoredCells (m : Manifest) (mem : List Host.Cell) : List Host.Cell :=
  mem.filterMap (fun c => (restoredTo m c.1).map (fun pa => (pa, c.2)))

/-- The arrays as a restore leaves them. -/
def restoredMem (s : State) : List Host.Cell := sputs memDefault (sdrop s.mem isGddr) (restoredCells s.manifest s.mem)

/-- Cells taken one by one, of which those that go to GDDR7 are put there. -/
theorem foldl_restored {m : Manifest} {f : List Host.Cell → Host.Cell → List Host.Cell}
    (hto : ∀ acc c pa, restoredTo m c.1 = some pa → f acc c = sput memDefault acc pa c.2)
    (hstay : ∀ acc c, restoredTo m c.1 = none → f acc c = acc) (cs acc : List Host.Cell) :
    cs.foldl f acc = sputs memDefault acc (restoredCells m cs) := by
  induction cs generalizing acc with
  | nil => rfl
  | cons c cs ih =>
    unfold restoredCells at ih ⊢
    rw [List.foldl_cons, ih, List.filterMap_cons]
    cases hc : restoredTo m c.1 with
    | none => rw [hstay acc c hc, Option.map_none]
    | some pa => rw [hto acc c pa hc, Option.map_some, sputs_cons]

theorem mem_restoredCells {m : Manifest} {cs : List Host.Cell} {w : Host.Cell} :
    w ∈ restoredCells m cs ↔ ∃ c ∈ cs, restoredTo m c.1 = some w.1 ∧ c.2 = w.2 := by
  unfold restoredCells
  rw [List.mem_filterMap]
  refine exists_congr fun c => and_congr_right fun _ => ?_
  rw [Option.map_eq_some_iff]
  constructor
  · rintro ⟨pa, hpa, rfl⟩
    exact ⟨hpa, rfl⟩
  · rintro ⟨hpa, hv⟩
    exact ⟨w.1, hpa, by rw [hv]⟩

theorem restoredCells_nodup {m : Manifest} {cs : List Host.Cell} (hn : (cs.map Prod.fst).Nodup) :
    ((restoredCells m cs).map Prod.fst).Nodup := by
  have hkeys : (restoredCells m cs).map Prod.fst = (cs.map Prod.fst).filterMap (restoredTo m) := by
    unfold restoredCells
    rw [List.map_filterMap, List.filterMap_map]
    refine List.filterMap_congr fun c _ => ?_
    rw [Option.map_map]
    exact Option.map_id'
  rw [hkeys]
  refine List.Nodup.filterMap (fun k k' a h h' => ?_) hn
  rw [(restoredTo_eq_some h).2, (restoredTo_eq_some h').2]

theorem sget_restored_gddr {s : State} (h : s.Inv) {a : Nat} (hg : isGddr a = true) (hp : physBad s.manifest a = false) :
    sget memDefault (restoredMem s) a = sget memDefault s.mem (imageAddr a) := by
  have hn := sokFrom_nodup h.1
  unfold restoredMem
  by_cases hin : imageAddr a ∈ s.mem.map Prod.fst
  · obtain ⟨x, hx, hxa⟩ := List.mem_map.mp hin
    have hcell : (a, x.2) ∈ restoredCells s.manifest s.mem :=
      mem_restoredCells.mpr ⟨x, hx, by rw [hxa]; exact restoredTo_imageAddr hg hp, rfl⟩
    rw [← hxa, sget_of_mem hn hx]
    exact sget_sputs_mem memDefault (restoredCells_nodup hn) hcell _
  · have hout : ∀ w ∈ restoredCells s.manifest s.mem, w.1 ≠ a := by
      rintro w hw rfl
      obtain ⟨c, hc, hto, -⟩ := mem_restoredCells.mp hw
      exact hin ((restoredTo_eq_some hto).2 ▸ List.mem_map_of_mem hc)
    rw [sget_unlisted_key hin]
    exact (sget_sputs_ne memDefault _ _ hout).trans ((sget_sdrop ..).trans (if_pos hg))

theorem sget_restored_other (s : State) {a : Nat} (hg : ¬ isGddr a = true) :
    sget memDefault (restoredMem s) a = sget memDefault s.mem a := by
  have hout : ∀ w ∈ restoredCells s.manifest s.mem, w.1 ≠ a := by
    rintro w hw rfl
    obtain ⟨c, -, hto, -⟩ := mem_restoredCells.mp hw
    exact hg (restoredTo_eq_some hto).1
  exact (sget_sputs_ne memDefault _ _ hout).trans ((sget_sdrop ..).trans (if_neg hg))

/-- The machine as the image stands in GDDR7, before the response. -/
theorem exec_restored {s : State} (h : s.ckpt = some .restoring) : ∃ s1, exec .restoreComplete s = .next (answerCopy s1 0x41 []) ∧
    s1.mem = restoredMem s ∧ s1.l2 = [] ∧ s1.l1 = [] ∧ s1.ckpt = none ∧ s1.teams = s.teams ∧ s1.owed = s.owed ∧
    s1.responses = s.responses ∧ s1.streams = s.streams := by
  rw [exec_restoreComplete]
  unfold execRestoreComplete
  rw [h]
  refine ⟨_, rfl, foldl_restored (fun acc c pa hc => ?_) (fun acc c hc => ?_) _ _, rfl, rfl, rfl, rfl, rfl, rfl, rfl⟩
  · obtain ⟨b, hb, hpa⟩ := Option.bind_eq_some_iff.mp hc
    rw [hb]
    split at hpa
    next => cases hpa
    next hk =>
      obtain rfl := Option.some.inj hpa
      exact if_neg hk
  · unfold restoredTo at hc
    cases himg : imageOf c.1 with
    | none => rfl
    | some b =>
      rw [himg, Option.bind_some] at hc
      split at hc
      next hk => exact if_pos hk
      next => cases hc

theorem restore_ends {s : State} {r : Req} (hl : Listens s r) (h : s.Inv) (hs : s.ckpt = some .restoring)
    (ho : s.owed = [⟨r, 0x41, 0, 0⟩]) : ∃ s', exec .restoreComplete s = .next s' ∧ Responded s s' r 0x41 0 [] ∧ s'.ckpt = none ∧
      s'.teams = s.teams ∧ s'.l1 = [] ∧
      (∀ a, isGddr a = true → physBad s.manifest a = false → homeByte s' a = sget 0 s.mem (imageAddr a)) ∧
      ∀ a, isLpddr a = true → homeByte s' a = sget 0 s.mem a := by
  obtain ⟨s1, hx, hmem, hl2, hl1, hckpt, hteams, howed, hresps, hstrms⟩ := exec_restored hs
  have hfind : ∀ x, findStream s1 r.strm = some x → x.failed = false := by
    unfold findStream
    rw [hstrms]
    exact hl.2.2
  obtain ⟨hresp, hrest⟩ := answerCopy_responds hfind (by decide) (howed.trans ho) []
  have hbyte (a : Nat) : homeByte (answerCopy s1 0x41 []) a = sget memDefault (restoredMem s) a := by
    rw [hrest]
    show homeByte s1 a = _
    rw [homeByte_clean (by rw [hl2]; rfl), hmem]
  refine ⟨_, hx, ⟨by rw [← hresps]; exact hresp.1, hresp.2⟩, by rw [hrest]; exact hckpt, by rw [hrest]; exact hteams,
    by rw [hrest]; exact hl1, fun a hg hp => (hbyte a).trans (sget_restored_gddr h hg hp), fun a ha => ?_⟩
  refine (hbyte a).trans (sget_restored_other s ?_)
  unfold isLpddr at ha
  unfold isGddr
  simp only [decide_eq_true_eq] at *
  omega

/-- Settles O49: the places of an image are one to one with the bytes of GDDR7 and lie apart from the header and from GDDR7. -/
theorem checkpointsKeepGddr : Obligations.CheckpointsKeepGddr := by
  unfold Obligations.CheckpointsKeepGddr
  intro s r hl h
  exact ⟨checkpoint_begins hl h, fun img clk bad n hs hn hg hbad ho => checkpoint_ends hl hs hn hg hbad ho, restore_begins hl,
    restore_ends hl h⟩

end Sys2Proof.Proofs
